-- ==== Sys2Proof/Word.lean ====
section
/-! DEFINITION. The word types of the YV880 and their plainest arithmetic. -/

namespace Sys2Proof

/-- A 64-bit register, instruction word or address. -/
abbrev Word := BitVec 64

/-- A byte of memory. -/
abbrev Byte := BitVec 8

/-- A window descriptor (R159): 128 bits. -/
abbrev Desc := BitVec 128

/-- Number of a scalar register, s0 to s63. -/
abbrev SReg := BitVec 6

/-- Number of a window, w0 to w31. -/
abbrev WReg := BitVec 5

end Sys2Proof
end

