-- ==== Sys2Proof/Config.lean ====
section
/-! DEFINITION. What the manual leaves open: values no proof can see. Each is a constant with no body,
applied to what it may depend on; a statement holds whatever it is. -/

namespace Sys2Proof.Config

/-- R137: a word of code stored after the stream's last placement, resumption or `eret` may be fetched
old or new. `true` at the k-th such choice means the cached (old) word. -/
opaque fetchOld : Nat → Bool

/-- R289: where two pseudo-channels of one `srun` write the same element, the value of one of them
remains. `true` at the k-th such choice means the later rank's. -/
opaque runPick : Nat → Bool

/-- R129: `qpop` with one register as SD and SB; the manual gives the entry and HEAD to that register and
does not say which remains. `true` at the k-th such choice means HEAD. -/
opaque popPick : Nat → Bool

/-- R396: what the device keeps in the parts of an image that are reserved to it; byte `o` of the k-th image
written. -/
opaque imageByte : Nat → Nat → Byte

/-- R398: what bank memory of a die holds after a reset that has lost it; byte `o` of the k-th loss. -/
opaque lostByte : Nat → Nat → Byte

/-- R444: time in µs since reset that the k-th event record carries. The model keeps no time. -/
opaque eventTime : Nat → BitVec 48

/-- R313: the event record that Porvex writes when a promotion's BUSY clears, of which R444 gives no TYPE: word 0 is
the TYPE and words 1 to 7 are the dwords of the k-th such record. -/
opaque promotionEvent : Nat → Nat → BitVec 64

/-- R336: whether a home on a peer module accepts the k-th ordinary accumulate sent to one: the peer's AQUOTA, its
intervals and its queues are its own. -/
opaque peerAccepts : Nat → Bool

/-- R434: cycle count that the k-th trace record carries. The model keeps no time. -/
opaque cycleCount : Nat → BitVec 40

/-! R418: what the fuses of die `k` hold: its UID, the seed of its LMS key, its certificate and its PSK; and what the
package root holds of each PSK. -/
opaque dieUid : Nat → BitVec 256
opaque hssSeed : Nat → BitVec 256
opaque dieCert : Nat → List Byte
opaque psk : Nat → BitVec 256
opaque wrappedPsk : Nat → List Byte

/-! R423, R424: HKDF on SHA-256 and AES-256-GCM, which the manual names and does not define. -/

/-- HKDF-Expand(LS, "yv880 link" ‖ DIR, 32). -/
opaque hkdfLink : BitVec 256 → BitVec 32 → BitVec 256

/-- HKDF-Expand(K, "yv880 next", 32). -/
opaque hkdfNext : BitVec 256 → BitVec 256

/-- The AES-256-GCM tag, cut to 96 bits, of a ciphertext under key, nonce and associated data. -/
opaque gcmTag : BitVec 256 → BitVec 96 → BitVec 128 → BitVec 512 → BitVec 96

/-- The link secret that the root's DRBG gives a direction (R423), or that a session with a peer gives (R428), at its
place among the secrets drawn. -/
opaque linkSecret : BitVec 32 → List Nat → BitVec 256

/-- R439: spare waveguides of the light layer; the manual gives no number. -/
opaque guideSpares : Nat

/-- R412: the module's pod number, which Porvex writes at bring-up. -/
opaque podNumber : BitVec 6

end Sys2Proof.Config
end

