-- ==== Sys2Proof/Syntax.lean ====
section
/-! DEFINITION. The instructions and events of the YV880: one constructor per row of the opcode table.
The rows of instructions (majors 0x00 to 0x3E) carry the operand fields of their word, with field codes
already turned into constructors. The rows of events (steps of engines, of the host and of management)
carry what the outside world or the engine's own choice supplies. -/

namespace Sys2Proof

/-- Operand width W of formats FA and FM (R46): codes 0 to 3. -/
inductive Width where
  | w64 | w32 | w16 | w8
  deriving DecidableEq, Repr

/-- Element formats (R55), codes 0x00 to 0x12 in order. -/
inductive Fmt where
  | i8 | i16 | i32 | i64 | n8 | n16 | n32 | n64
  | f32 | f16 | bf16 | e4m3 | e5m2 | e2m1 | e8m0 | q4 | q3 | wf96 | bit
  deriving DecidableEq, Repr

/-- Rounding codes 0 to 6 (R53); code 7 is no instruction. -/
inductive Rm where
  | rne | rtz | rdn | rup | rna | rsr | dyn
  deriving DecidableEq, Repr

/-- Scope codes 0 to 7 (R54). -/
inductive Scope where
  | stream | bank | cell | die | domain | module | pod | system
  deriving DecidableEq, Repr

/-- Memory order codes 0 to 2 (R48). -/
inductive MemOrder where
  | plain | acq | rel
  deriving DecidableEq, Repr

/-- Block codes of `setvl` (R60): lengths 1, 16, 32, 64, 128. -/
inductive Blk where
  | b1 | b16 | b32 | b64 | b128
  deriving DecidableEq, Repr

/-- Source-A modifiers (R56), AMOD codes 0 to 4; the distance or index stands in IMM16. -/
inductive AMod where
  | none | shift | rotate | bcast | reverse
  deriving DecidableEq, Repr

/-- Operand B of a scalar ALU instruction (R46): a register, or IMM32. -/
inductive AluB where
  | reg (sb : SReg)
  | imm (i : BitVec 32)
  deriving DecidableEq, Repr

/-- Fields of format FV (R49). Where the mnemonic's selector stands in WC, `wc` is zero here; where IMM16
holds the order and scope of `vamo`, `imm` is zero here. -/
structure VArgs where
  fmt : Fmt
  sb : Bool
  wd : WReg
  wa : WReg
  wb : WReg
  wc : WReg
  wm : WReg
  rm : Rm
  sat : Bool
  amod : AMod
  fill : Bool
  gsz : BitVec 3
  imm : BitVec 16
  deriving DecidableEq, Repr

/-- Fields of a scalar atomic (format FM, R48, R151). -/
structure AtomArgs where
  sg : Bool
  ord : MemOrder
  sc : Scope
  w : Width
  sd : SReg
  sa : SReg
  sb : SReg
  off : BitVec 32
  deriving DecidableEq, Repr

/-- Fields of `mma` (format FT, R50, R62). -/
structure MArgs where
  fmt : Fmt
  wd : WReg
  wa : WReg
  wb : WReg
  pair : Bool
  wm : WReg
  rm : Rm
  kb : BitVec 16
  deriving DecidableEq, Repr

/-- Fields of format FC (R51). -/
structure CArgs where
  st : SReg
  wd : WReg
  ws : WReg
  wx : WReg
  sc : Scope
  follow : BitVec 4
  mcast : BitVec 8
  imm : BitVec 16
  deriving DecidableEq, Repr

/-- What the host does at BAR2 (R415, R416): it reads or writes bytes, it performs an AtomicOp, or it makes the window
2^k GiB. -/
inductive Bar2Op where
  | read (n : BitVec 13)
  | write (bs : List Byte)
  | fetchAdd
  | swap
  | cas
  | resize (k : BitVec 4)
  deriving DecidableEq, Repr

/-- What a completion from host memory is for (R417): the `k`-th access of a stream, or every read of a word from now on. -/
inductive HostRead where
  | access (k : BitVec 7)
  | word (a : BitVec 52)
  deriving DecidableEq, Repr

/-- A forwarded debug command (R433): one that this module's master sends, or one that arrives with the master's DBGADDR
and DBGDATA. -/
inductive DebugMsg where
  | sent (v : Word)
  | arrived (v addr data : Word)
  deriving DecidableEq, Repr

/-- What a staged image says of itself (R429): its SVN, its digest, and four reference measurements for each die. -/
structure ImageHead where
  svn : BitVec 6
  digest : BitVec 256
  refs : List (BitVec 256)
  deriving DecidableEq, Repr

/-- A flit (R406): header bits [47:0], the transaction fields [127:48], payload as it travels, and integrity tag. -/
structure Flit where
  route : BitVec 48
  fields : BitVec 80
  payload : BitVec 512
  tag : BitVec 128
  deriving DecidableEq, Repr

/-- What a die offers in steps 1 to 3 of the exchange of R420; none is an ERROR response. -/
structure SpdmOffer where
  /-- 1: version 1.3 is offered. -/
  version : Option Bool
  /-- 2: CERT, CHAL, MEAS with signature, PSK, ENCRYPT, MAC, KEY_UPD, one bit each. -/
  caps : Option (BitVec 7)
  /-- 3: SHA-256, LMS under the registry entry 0x0001, AES-256-GCM, no DHE, one bit each. -/
  algs : Option (BitVec 4)
  deriving DecidableEq, Repr

/-- What a die proves in steps 4 to 7 of the exchange; none is an ERROR response. -/
structure SpdmProof where
  /-- 4: the UID in the certificate of slot 0, and whether that chains to the product key. -/
  cert : Option (BitVec 256 × Bool)
  /-- 5: the signature over the root's nonce verifies. -/
  challenge : Option Bool
  /-- 6: the signature over the measurements verifies, and the measurements of indices 1 to 4. -/
  meas : Option (Bool × List (BitVec 256))
  /-- 7: PSK_FINISH verifies under the keys derived from the PSK. -/
  psk : Option Bool
  deriving DecidableEq, Repr

/-- What a die answers, step by step. -/
structure SpdmReply extends SpdmOffer, SpdmProof where
  deriving DecidableEq, Repr

/-- A part that Porvex repairs or removes (R439). -/
inductive Part where
  | unit (seq : Bool) (n : BitVec 13)
  | layer (stack layer : BitVec 4)
  | guide (ch : BitVec 8)
  | pair (k : BitVec 8)
  deriving DecidableEq, Repr

/-- What the self-calibration of phase 4 finds (R437, R411): parts that do not train, and the round trip of fibre pairs
in flit times. -/
structure Calibration where
  failed : List Part
  trips : List (BitVec 8 × BitVec 12)
  deriving DecidableEq, Repr

/-- One constructor per row of the opcode table. -/
inductive Instr where
  /-- ADD (R147). Scalar ALU add of two registers, or of a register and a sign-extended immediate, modulo 2^w, result sign-extended into SD. -/
  | add (w : Width) (sd sa : SReg) (b : AluB)
  /-- SUB (R147). Scalar ALU subtract modulo 2^w. -/
  | sub_ (w : Width) (sd sa : SReg) (b : AluB)
  /-- MUL (R147). Scalar ALU multiply modulo 2^w; a three-cycle pending write. -/
  | mul (w : Width) (sd sa : SReg) (b : AluB)
  /-- MULH (R147). Scalar ALU upper w bits of the signed 2w-bit product. -/
  | mulh (w : Width) (sd sa : SReg) (b : AluB)
  /-- MULHN (R147). Scalar ALU upper w bits of the unsigned 2w-bit product. -/
  | mulhn (w : Width) (sd sa : SReg) (b : AluB)
  /-- DIV (R147). Scalar ALU signed division truncated toward zero, with the fixed results for division by zero and overflow. -/
  | div (w : Width) (sd sa : SReg) (b : AluB)
  /-- DIVN (R147). Scalar ALU unsigned division; division by zero gives all ones. -/
  | divn (w : Width) (sd sa : SReg) (b : AluB)
  /-- REM (R147). Scalar ALU signed remainder. -/
  | rem (w : Width) (sd sa : SReg) (b : AluB)
  /-- REMN (R147). Scalar ALU unsigned remainder. -/
  | remn (w : Width) (sd sa : SReg) (b : AluB)
  /-- AND (R147). Scalar ALU bitwise AND. -/
  | and_ (w : Width) (sd sa : SReg) (b : AluB)
  /-- OR (R147). Scalar ALU bitwise OR; also the expansion of mov. -/
  | or_ (w : Width) (sd sa : SReg) (b : AluB)
  /-- XOR (R147). Scalar ALU bitwise XOR. -/
  | xor_ (w : Width) (sd sa : SReg) (b : AluB)
  /-- ANDN (R147). Scalar ALU a AND NOT b. -/
  | andn (w : Width) (sd sa : SReg) (b : AluB)
  /-- SLL (R147). Scalar ALU left shift by b mod w. -/
  | sll (w : Width) (sd sa : SReg) (b : AluB)
  /-- SRL (R147). Scalar ALU logical right shift by b mod w. -/
  | srl (w : Width) (sd sa : SReg) (b : AluB)
  /-- SRA (R147). Scalar ALU arithmetic right shift by b mod w. -/
  | sra (w : Width) (sd sa : SReg) (b : AluB)
  /-- SLT (R147). Scalar ALU set 1 if signed a < b. -/
  | slt (w : Width) (sd sa : SReg) (b : AluB)
  /-- SLTN (R147). Scalar ALU set 1 if unsigned a < b. -/
  | sltn (w : Width) (sd sa : SReg) (b : AluB)
  /-- MIN (R147). Scalar ALU signed minimum. -/
  | min_ (w : Width) (sd sa : SReg) (b : AluB)
  /-- MAX (R147). Scalar ALU signed maximum. -/
  | max_ (w : Width) (sd sa : SReg) (b : AluB)
  /-- MINN (R147). Scalar ALU unsigned minimum. -/
  | minn (w : Width) (sd sa : SReg) (b : AluB)
  /-- MAXN (R147). Scalar ALU unsigned maximum. -/
  | maxn (w : Width) (sd sa : SReg) (b : AluB)
  /-- CLZ (R147). Scalar ALU count of leading zero bits, w for zero. -/
  | clz (w : Width) (sd sa : SReg)
  /-- CTZ (R147). Scalar ALU count of trailing zero bits, w for zero. -/
  | ctz (w : Width) (sd sa : SReg)
  /-- POPC (R147). Scalar ALU count of one bits. -/
  | popc (w : Width) (sd sa : SReg)
  /-- SEXT (R147). Scalar ALU sign extension from bit w-1. -/
  | sext (w : Width) (sd sa : SReg)
  /-- ZEXT (R147). Scalar ALU zero extension from bit w-1. -/
  | zext (w : Width) (sd sa : SReg)
  /-- LDK (R148). Two-word instruction that writes its 64-bit constant word to SD. -/
  | ldk (sd : SReg) (k : Word)
  /-- LD (R149). Scalar load stamped with the ISN, performed at the owner of its address, plain or acquiring. -/
  | ld (sg : Bool) (ord : MemOrder) (sc : Scope) (w : Width) (sd sa : SReg) (off : BitVec 32)
  /-- ST (R149). Scalar store stamped with the ISN, posted to the owner, plain or releasing. -/
  | st (ord : MemOrder) (sc : Scope) (w : Width) (sb sa : SReg) (off : BitVec 32)
  /-- SCAS (R151). Scalar compare-and-swap performed indivisibly at the atomic place, returning the old value in SD. -/
  | scas (a : AtomArgs)
  /-- SAMO_ADD (R151). Scalar atomic add, wrapping, returning the old value. -/
  | samoAdd (a : AtomArgs)
  /-- SAMO_AND (R151). Scalar atomic AND. -/
  | samoAnd (a : AtomArgs)
  /-- SAMO_OR (R151). Scalar atomic OR. -/
  | samoOr (a : AtomArgs)
  /-- SAMO_XOR (R151). Scalar atomic XOR. -/
  | samoXor (a : AtomArgs)
  /-- SAMO_MIN (R151). Scalar atomic signed minimum. -/
  | samoMin (a : AtomArgs)
  /-- SAMO_MAX (R151). Scalar atomic signed maximum. -/
  | samoMax (a : AtomArgs)
  /-- SAMO_MINN (R151). Scalar atomic unsigned minimum. -/
  | samoMinn (a : AtomArgs)
  /-- SAMO_MAXN (R151). Scalar atomic unsigned maximum. -/
  | samoMaxn (a : AtomArgs)
  /-- SAMO_SWAP (R151). Scalar atomic swap. -/
  | samoSwap (a : AtomArgs)
  /-- BEQ (R153). Branch when the two registers are equal. -/
  | beq (sa sb : SReg) (off : BitVec 32)
  /-- BNE (R153). Branch when the two registers differ. -/
  | bne (sa sb : SReg) (off : BitVec 32)
  /-- BLT (R153). Branch when signed less than. -/
  | blt (sa sb : SReg) (off : BitVec 32)
  /-- BGE (R153). Branch when signed greater or equal. -/
  | bge (sa sb : SReg) (off : BitVec 32)
  /-- BLTN (R153). Branch when unsigned less than. -/
  | bltn (sa sb : SReg) (off : BitVec 32)
  /-- BGEN (R153). Branch when unsigned greater or equal. -/
  | bgen (sa sb : SReg) (off : BitVec 32)
  /-- JAL (R154). Jump by offset, writing PC+8 to the link register. -/
  | jal (sd : SReg) (off : BitVec 32)
  /-- JALR (R154). Jump to register plus offset, writing PC+8 to SD; ALIGN if the target is not a multiple of 8. -/
  | jalr (sd sa : SReg) (imm : BitVec 32)
  /-- WAIT (R156). Holds issue until outstanding loads, stores, copies and matrix operations fall to the given counts. -/
  | wait (imm : BitVec 32)
  /-- HALT (R157). Waits for the floor and all outstanding work, releases at SYSTEM and retires the stream. -/
  | halt
  /-- NOP (R158). Changes nothing but PC. -/
  | nop
  /-- CSRR (R155). Reads a control register into SD. -/
  | csrr (sd : SReg) (csr : BitVec 12)
  /-- CSRW (R155). Reads a control register into SD and writes it from SA under the field rules. -/
  | csrw (sd sa : SReg) (csr : BitVec 12)
  /-- CSRS (R155). Reads a control register and sets the bits given by SA. -/
  | csrs (sd sa : SReg) (csr : BitVec 12)
  /-- CSRC (R155). Reads a control register and clears the bits given by SA. -/
  | csrc (sd sa : SReg) (csr : BitVec 12)
  /-- WSET (R167). Writes a window descriptor from two scalar registers and marks it present and dirty. -/
  | wset (wd : WReg) (sa sb : SReg)
  /-- WGET (R167). Reads one half of a window descriptor into a scalar register. -/
  | wget (sd : SReg) (wa : WReg) (hi : Bool)
  /-- WCPY (R167). Copies one window descriptor to another. -/
  | wcpy (wd wa : WReg)
  /-- SETVL (R170). Grants a strip length and pad for a request and block length, setting VL, VPAD, VFMT and VBLK. -/
  | setvl (sd sa : SReg) (fmt : Fmt) (blk : Blk)
  /-- STRIP (R172). Ends a strip-mined pass: advances the named windows, reduces the remaining count, regrants the strip and branches back. -/
  | strip (sa sb : SReg) (off : BitVec 32)
  /-- BANY (R179). Fencing bank-condition branch taken when any real bit of the window is 1. -/
  | bany (wa : WReg) (off : BitVec 32)
  /-- BALL (R179). Fencing bank-condition branch taken when every real bit is 1. -/
  | ball (wa : WReg) (off : BitVec 32)
  /-- BNONE (R179). Fencing bank-condition branch taken when no real bit is 1. -/
  | bnone (wa : WReg) (off : BitVec 32)
  /-- OWNQ (R202). Returns the owning bank of an address under a map, from the domain's copy of the map. -/
  | ownq (sd sa : SReg) (map : BitVec 4)
  /-- LANEX (R203). Writes to each element the place (bank, pseudo-channel or class code) of the corresponding element of WA. -/
  | lanex (v : VArgs)
  /-- VADD (R212). Broadcast element add, rounded or wrapped, or WF96 combination. -/
  | vadd (v : VArgs)
  /-- VSUB (R212). Broadcast element subtract. -/
  | vsub (v : VArgs)
  /-- VMUL (R212). Broadcast element multiply. -/
  | vmul (v : VArgs)
  /-- VFMA (R212). Broadcast fused multiply-add a*b+c, rounded once. -/
  | vfma (v : VArgs)
  /-- VFMS (R212). Broadcast fused multiply-subtract a*b-c. -/
  | vfms (v : VArgs)
  /-- VFNMA (R212). Broadcast fused negated multiply-add c-a*b. -/
  | vfnma (v : VArgs)
  /-- VMIN (R214). Broadcast element minimum. -/
  | vmin (v : VArgs)
  /-- VMAX (R214). Broadcast element maximum. -/
  | vmax (v : VArgs)
  /-- VABS (R215). Broadcast absolute value. -/
  | vabs (v : VArgs)
  /-- VNEG (R215). Broadcast negation. -/
  | vneg (v : VArgs)
  /-- VRCP (R215). Broadcast correctly rounded reciprocal. -/
  | vrcp (v : VArgs)
  /-- VRSQ (R215). Broadcast correctly rounded reciprocal square root. -/
  | vrsq (v : VArgs)
  /-- VEXP2 (R215). Broadcast correctly rounded power of two. -/
  | vexp2 (v : VArgs)
  /-- VLOG2 (R215). Broadcast correctly rounded base-2 logarithm. -/
  | vlog2 (v : VArgs)
  /-- VAND (R216). Broadcast bitwise AND. -/
  | vand (v : VArgs)
  /-- VOR (R216). Broadcast bitwise OR. -/
  | vor (v : VArgs)
  /-- VXOR (R216). Broadcast bitwise XOR. -/
  | vxor (v : VArgs)
  /-- VNOT (R216). Broadcast bitwise NOT. -/
  | vnot (v : VArgs)
  /-- VSLL (R216). Broadcast left shift. -/
  | vsll (v : VArgs)
  /-- VSRL (R216). Broadcast logical right shift. -/
  | vsrl (v : VArgs)
  /-- VSRA (R216). Broadcast arithmetic right shift. -/
  | vsra (v : VArgs)
  /-- VCEQ (R217). Broadcast compare equal into a bit window. -/
  | vceq (v : VArgs)
  /-- VCNE (R217). Broadcast compare not equal into a bit window. -/
  | vcne (v : VArgs)
  /-- VCLT (R217). Broadcast compare less than into a bit window. -/
  | vclt (v : VArgs)
  /-- VCLE (R217). Broadcast compare less or equal into a bit window. -/
  | vcle (v : VArgs)
  /-- VSEL (R218). Broadcast select of a or b by a condition bit. -/
  | vsel (v : VArgs)
  /-- VCVT (R222). Broadcast format conversion, including block-scaled and WF96 destinations. -/
  | vcvt (sfmt : Fmt) (v : VArgs)
  /-- VMOV (R219). Broadcast unchanged move of operand A. -/
  | vmov (v : VArgs)
  /-- VFILL (R220). Broadcast fill of every active element with one value from a register or immediate. -/
  | vfill (v : VArgs)
  /-- VIOTA (R221). Broadcast write of first value plus element index. -/
  | viota (v : VArgs)
  /-- VRED_ADD (R224). Reduction by the fixed pairwise tree of sums into a scalar register. -/
  | vredAdd (v : VArgs)
  /-- VRED_MAX (R224). Reduction to the maximum into a scalar register. -/
  | vredMax (v : VArgs)
  /-- VRED_MIN (R224). Reduction to the minimum into a scalar register. -/
  | vredMin (v : VArgs)
  /-- VSCAN_ADD (R225). Inclusive scan of sums by block left folds. -/
  | vscanAdd (v : VArgs)
  /-- VSCAN_MAX (R225). Inclusive scan of maxima. -/
  | vscanMax (v : VArgs)
  /-- VSCAN_MIN (R225). Inclusive scan of minima. -/
  | vscanMin (v : VArgs)
  /-- VGATHER (R226). Broadcast gather from an indexed source window. -/
  | vgather (v : VArgs)
  /-- VSCATTER (R226). Broadcast scatter into an indexed destination window, highest element winning. -/
  | vscatter (v : VArgs)
  /-- VCOMPACT (R228). Moves selected elements down to consecutive places. -/
  | vcompact (v : VArgs)
  /-- VEXPAND (R228). Moves consecutive elements out to the selected places. -/
  | vexpand (v : VArgs)
  /-- MLOAD (R262). Loads each bank's shadow plane slot with its weight tile of a k-block. -/
  | mload (fmt : Fmt) (wb : WReg) (pair : Bool) (kb : BitVec 16)
  /-- MSWAP (R263). Exchanges the active and shadow slots of a plane pair. -/
  | mswap (pair : Bool)
  /-- MMA (R264). Adds activation tiles times active-slot weights into the FP32 accumulator tiles. -/
  | mma (m : MArgs)
  /-- MRECAST (R267). Reloads a named plane slot from its cast record. -/
  | mrecast (pair shadow : Bool)
  /-- MINVAL (R267). Marks a named plane slot invalid. -/
  | minval (pair shadow : Bool)
  /-- VACC (R344). Fencing two-phase accumulate of addends into home elements by messages or private copies. -/
  | vacc (v : VArgs)
  /-- VAMO_ADD (R351). Fencing element-wise atomic add at the place, old values to WB. -/
  | vamoAdd (v : VArgs) (ord : MemOrder) (sc : Scope)
  /-- VAMO_AND (R351). Element-wise atomic AND. -/
  | vamoAnd (v : VArgs) (ord : MemOrder) (sc : Scope)
  /-- VAMO_OR (R351). Element-wise atomic OR. -/
  | vamoOr (v : VArgs) (ord : MemOrder) (sc : Scope)
  /-- VAMO_XOR (R351). Element-wise atomic XOR. -/
  | vamoXor (v : VArgs) (ord : MemOrder) (sc : Scope)
  /-- VAMO_MIN (R351). Element-wise atomic signed minimum. -/
  | vamoMin (v : VArgs) (ord : MemOrder) (sc : Scope)
  /-- VAMO_MAX (R351). Element-wise atomic signed maximum. -/
  | vamoMax (v : VArgs) (ord : MemOrder) (sc : Scope)
  /-- VAMO_MINN (R351). Element-wise atomic unsigned minimum. -/
  | vamoMinn (v : VArgs) (ord : MemOrder) (sc : Scope)
  /-- VAMO_MAXN (R351). Element-wise atomic unsigned maximum. -/
  | vamoMaxn (v : VArgs) (ord : MemOrder) (sc : Scope)
  /-- VAMO_SWAP (R351). Element-wise atomic swap. -/
  | vamoSwap (v : VArgs) (ord : MemOrder) (sc : Scope)
  /-- ADECL (R347). Declares an accumulation window and zeroes every bank's private copy. -/
  | adecl (wa : WReg)
  /-- AMERGE (R347). Merges every bank's private copy into the home by must-accept messages and removes the declaration. -/
  | amerge (wa : WReg)
  /-- RFLUSH (R348). Delivers the stream's residual entries for homes in the scope and waits for their answers. -/
  | rflush (sc : Scope)
  /-- CPY (R235). Copy command moving elements from source window to destination window. -/
  | cpy (c : CArgs)
  /-- CPYT (R235). Copy command reading through a shape record. -/
  | cpyt (c : CArgs)
  /-- CPYG (R235). Copy command gathering through an index window. -/
  | cpyg (c : CArgs)
  /-- CPYS (R235). Copy command scattering through an index window. -/
  | cpys (c : CArgs)
  /-- CPYF (R235). Copy command filling a window with one scalar value. -/
  | cpyf (c : CArgs)
  /-- CPYM (R243). Copy command multicasting replicas to the cells of a mask. -/
  | cpym (c : CArgs)
  /-- SPROG (R287). Writes microwords into the microprogram stores of selected pseudo-channels. -/
  | sprog (c : CArgs)
  /-- SRUN (R288). Runs a GEMV microprogram at every pseudo-channel of the weight extent. -/
  | srun (c : CArgs)
  /-- CHASE (R291). Follows pointer chains through badger engines, writing one field per hop. -/
  | chase (c : CArgs)
  /-- FENCE (R323). Waits as a release does and holds issue until the covered accesses are performed. -/
  | fence (sc : Scope)
  /-- SREL (R321). Release through a sync block: adds to FLAG and joins the clock record at the home. -/
  | srel (sd sa : SReg) (sc : Scope) (imm : BitVec 31)
  /-- SACQ (R322). Acquire through a sync block: waits at the home until FLAG reaches the threshold. -/
  | sacq (sd sa sb : SReg) (sc : Scope)
  /-- GJOIN (R126). Joins a group, counted or pending, at its home. -/
  | gjoin (sd sa : SReg) (imm : BitVec 31)
  /-- GLEAVE (R126). Leaves a group at its home, possibly completing the open episode. -/
  | gleave (sd sa : SReg) (imm : BitVec 31)
  /-- GBAR (R126). Releases, arrives at the group barrier, waits for the episode and acquires. -/
  | gbar (sd sa : SReg) (sc : Scope) (imm : BitVec 31)
  /-- QPUSH (R129). Pushes an entry into a hardware queue at its home, waiting while full. -/
  | qpush (sd sa sb : SReg) (sc : Scope)
  /-- QPOP (R129). Pops an entry from a hardware queue at its home, waiting while empty. -/
  | qpop (sd sa sb : SReg) (sc : Scope)
  /-- QDRAIN_WAIT (R129). Mode 0: waits until the queue is empty with no pop waiting, returning TAIL. -/
  | qdrainWait (sd sa : SReg) (sc : Scope)
  /-- QDRAIN_DISCARD (R129). Mode 1: sets HEAD to TAIL and returns the number discarded. -/
  | qdrainDiscard (sd sa : SReg) (sc : Scope)
  /-- TRAP (R391). Stops the stream precisely and enters the handler with BREAK. -/
  | trap (imm : BitVec 31)
  /-- ERET (R392). Returns from a trap, optionally reissuing the issue queue from ESTART. -/
  | eret (rq : Bool)
  /-- WFE_WAIT (R395). Idles until an interrupt is pending or a watched block is written. -/
  | wfeWait (sd sa : SReg)
  /-- WFE_YIELD (R395). Ends a pre-emption: completes accesses, merges copies, writes the image and gives up the sequencer. -/
  | wfeYield (sd sa : SReg)
  /-- WSAVE (R394). Stores selected present windows to memory and clears their dirty bits. -/
  | wsave (sd sa sb : SReg)
  /-- WREST (R394). Loads selected windows from memory and marks them present. -/
  | wrest (sd sa sb : SReg)
  /-- ISAVE (R393). Writes the issue queue to memory and empties it. -/
  | isave (sd sa : SReg)
  /-- IREST (R393). Refills the issue queue from memory after checking every entry. -/
  | irest (sd sa : SReg)
  /-- TLBINV (R307). Shoots down translations of an ASID range at DOMAIN or MODULE scope and waits for acknowledgements. -/
  | tlbinv (sd sa sb : SReg) (sc : Scope)
  /-- TLBPRB (R305). Walks the page table for an address and returns the leaf entry. -/
  | tlbprb (sd sa : SReg)
  /-- PMIG (R311). Migrates a 16 KiB page to a new placement through drain, hold, move, copy and switch. -/
  | pmig (sd sa sb : SReg) (sc : Scope)
  /-- LOGCTL_STATUS (R373). Returns LOGC. -/
  | logctlStatus (sd sa : SReg)
  /-- LOGCTL_POLICY (R373). Sets the context's log policy and returns LOGC. -/
  | logctlPolicy (sd sa : SReg)
  /-- LOGCTL_BUDGET (R373). Sets the context's divergence budget and returns LOGC. -/
  | logctlBudget (sd sa : SReg)
  /-- LOGMARK (R374). Records or matches a MARK record and returns its index. -/
  | logmark (sd sa : SReg) (imm : BitVec 31)
  /-- LOGSYNC (R375). Waits until the log writer has written HEAD, or the replay engine TAIL, and returns it. -/
  | logsync (sd : SReg)
  /-- LQTAIL_WRITE (R106). Host advances a launch queue tail; the distributor takes the records it covers. -/
  | lqtailWrite (q : BitVec 6) (v : BitVec 32)
  /-- LQCFG_WRITE (R105). Configures a launch queue, refusing EN with an invalid SIZE. -/
  | lqcfgWrite (q : BitVec 6) (v : Word)
  /-- LAUNCH_RECORD (R106). The distributor takes one launch record whole, rejects it or begins its operation, writes LSTAT and advances LQHEAD. -/
  | launchRecord (q : BitVec 6)
  /-- PLACE_LAUNCH (R113). A waiting record becomes feasible and is placed: SIDs, sequencers, slots, pairs and maps assigned. -/
  | placeLaunch (q : BitVec 6)
  /-- TERMINATE_LAUNCH (R122). An OP 2 record pre-empts and discards every stream of the target launch and writes DONE. -/
  | terminateLaunch (target : BitVec 16)
  /-- PRETMO_EXPIRY (R119). A victim that has not saved within PRETMO keeps running and the pre-emption is withdrawn. -/
  | pretmoExpiry (sid : BitVec 16)
  /-- TIME_SLICE (R121). Every TSLICE the distributor rotates running streams of equal priority. -/
  | timeSlice
  /-- STREAM_RESUME (R397). A pre-empted stream is resumed: image read, drop list zeroed, strip and windows cleared, tokens written. -/
  | streamResume (sid : BitVec 16)
  /-- BANK_BEGIN_BROADCAST (R188). A bank begins a broadcast once it has retired the previous one and skew and fence conditions hold. -/
  | bankBeginBroadcast (sid : BitVec 16) (own : BitVec 14)
  /-- BANK_RETIRE (R189). A bank retires a broadcast once its owned elements and stamped accesses are performed. -/
  | bankRetire (sid : BitVec 16) (own : BitVec 14)
  /-- FLOOR_DELIVERY (R189). Every 16 cycles the combining tree delivers the floor to every bank and the front. -/
  | floorDelivery (sid : BitVec 16)
  /-- TREE_RESULT_RETURN (R224). The combining tree returns a reduction or bank-condition result to the front. -/
  | treeResultReturn (sid : BitVec 16)
  /-- PULL_REQUEST (R193). An owner receives a pull and parks it or answers it from its shelf or present contents. -/
  | pullRequest (sid : BitVec 16) (k : BitVec 16)
  /-- PULL_REPLY (R192). A pull reply reaches the requester and the waiting elements go on. -/
  | pullReply (sid : BitVec 16) (k : BitVec 16)
  /-- PULL_RESEND (R194). A refused pull is resent once the floor reaches its stamp. -/
  | pullResend (sid : BitVec 16) (k : BitVec 16)
  /-- SCALAR_ACCESS (R139). A scalar access is performed at its owner between its stamp's elements and the next instruction. -/
  | scalarAccess (sid : BitVec 16) (k : BitVec 7)
  /-- SCALAR_REPLY (R142). A load or atomic value, or a store acknowledgement, returns to the front. -/
  | scalarReply (sid : BitVec 16) (k : BitVec 7)
  /-- SUBBANK_DROWSY (R186). A sub-bank untouched for 4,096 cycles drops to retention voltage. -/
  | subbankDrowsy (bank : BitVec 13) (sub : BitVec 4)
  /-- PRECISE_STOP (R385). A fault or interrupt stops the stream: horizon settled, H+1 stopped, banks rolled back, issue queue formed. -/
  | preciseStop (sid : BitVec 16)
  /-- INTERRUPT_TAKEN (R388). A pending PREEMPT, HOST or imprecise WATCH is taken at the front before the next issue. -/
  | interruptTaken (sid : BitVec 16)
  /-- HOSTINT (R388). A host write raises HOST at a live stream with a message. -/
  | hostint (v : Word)
  /-- DIE_RESET (R426). A die is reset: its links go dark, streams on it end or take DIE_RESET, and it is re-attested. -/
  | dieReset (die : BitVec 5)
  /-- COPY_SECTOR (R232). The copy engine serves one sector of an active command on a lane. -/
  | copySector (sid : BitVec 16) (slot : BitVec 9)
  /-- COPY_WRITE_PERFORM (R241). A held copy write is performed at its owner once the owner retires the command's stamp. -/
  | copyWritePerform (sid : BitVec 16) (slot : BitVec 9)
  /-- FOLLOW_ON_ACTION (R268). After the last sector lands, the engine issues the swap, fill or mma action to the plane arrays. -/
  | followOnAction (sid : BitVec 16) (slot : BitVec 9)
  /-- ACTION_RESERVE (R266). A bank's reservation of shelf entries for a follow-on action is filled once entries are freed. -/
  | actionReserve (sid : BitVec 16) (slot : BitVec 9)
  /-- TOKEN_WRITE (R244). A command ends: its token is written, its slot and footprint entry freed. -/
  | tokenWrite (sid : BitVec 16) (slot : BitVec 9)
  /-- SRUN_START (R290). A run starts at a pseudo-channel once its engine has retired the stamp. -/
  | srunStart (sid : BitVec 16) (slot : BitVec 9) (pc : BitVec 10)
  /-- SRUN_END (R289). A run reaches END and writes its outputs. -/
  | srunEnd (sid : BitVec 16) (slot : BitVec 9) (pc : BitVec 10)
  /-- CHASE_HOP (R291). A badger serves one hop: reads the sector, writes the field and translates the next pointer. -/
  | chaseHop (sid : BitVec 16) (slot : BitVec 9)
  /-- ACCUM_MESSAGE (R337). A home answers an accumulate message with ACCEPT or REFUSE and performs accepted ones. -/
  | accumMessage (k : BitVec 16)
  /-- ACCUM_ANSWER (R340). A sender receives an answer; a refused message is folded into the residual tile. -/
  | accumAnswer (k : BitVec 16)
  /-- RESIDUAL_IDLE_EXPIRY (R341). A residual entry idle 65,536 cycles is delivered as must-accept. -/
  | residualIdleExpiry (bank : BitVec 13) (k : BitVec 7)
  /-- QUOTA_INTERVAL (R336). Every 64 cycles a home starts a new acceptance interval under the QUOTA then in force. -/
  | quotaInterval (home : BitVec 14)
  /-- HINT_ACTIVATE (R278). A channel controller receives a strip-ahead hint and opens the row or drops it. -/
  | hintActivate (pc : BitVec 10)
  /-- HINT_ROW_CLOSE (R278). A hinted row untouched for 64 controller cycles is closed. -/
  | hintRowClose (pc : BitVec 10) (bank : BitVec 6)
  /-- REFRESH_DUE (R279). A bank refresh falls due; it is postponed or forced at a sector boundary at PMAX. -/
  | refreshDue (pc : BitVec 10) (bank : BitVec 6) (busy : Bool)
  /-- SELF_REFRESH_ENTRY (R280). An idle pseudo-channel enters self-refresh when its idle timer expires. -/
  | selfRefreshEntry (pc : BitVec 10) (request : Bool)
  /-- SELF_REFRESH_EXIT (R280). A request to a pseudo-channel in self-refresh waits for exit and is served. -/
  | selfRefreshExit (pc : BitVec 10)
  /-- LAYER_FAILURE (R292). A failed DRAM layer is copied to the spare layer or mapped out with evacuation of its frames. -/
  | layerFailure (stack layer : BitVec 4)
  /-- SRMRET (R294). Retires a remap entry once redirected accesses are performed. -/
  | srmret (stack : BitVec 4) (v : Word)
  /-- PAGE_WALK (R301). A walker walks the page table for a miss, setting A and D in the leaf. -/
  | pageWalk (sid : BitVec 16) (agent : BitVec 15) (va : Word) (wr : Bool)
  /-- SHOOTDOWN_RECEIVE (R308). An agent receives a shoot-down, drops matching entries and walks, and acknowledges. -/
  | shootdownReceive (agent : BitVec 15) (asid : BitVec 12) (va len : Word)
  /-- PRMCTL_GO (R314). Starts a promotion of 128 SM pages into one 2 MiB page. -/
  | prmctlGo (stack : BitVec 4) (v : Word)
  /-- PROMOTION_DONE (R314). A promotion ends, setting RESULT and clearing BUSY. -/
  | promotionDone (stack : BitVec 4)
  /-- LOG_RECORD (R363). The log writer gives an arriving record its index and writes it to the ring. -/
  | logRecord (ctx : BitVec 16)
  /-- LOG_TAIL_POLL (R364). While the ring is full the writer rereads TAIL every 1,024 cycles and resumes when room appears. -/
  | logTailPoll (ctx : BitVec 16)
  /-- REPLAY_CONSUME (R368). The replay engine sends records to homes and consumes them as their operations are admitted. -/
  | replayConsume (ctx : BitVec 16)
  /-- REPLAY_HEAD_POLL (R368). The replay engine rereads HEAD every 1,024 cycles. -/
  | replayHeadPoll (ctx : BitVec 16)
  /-- REPLAY_BUDGET_EXPIRY (R370). An operation that waits more than 2^BUDGET counted cycles raises REPLAY_DIVERGE cause 2. -/
  | replayBudgetExpiry (sid : BitVec 16)
  /-- FLIT_RECEIVE (R407). A receiver checks a flit's SEQ and tag, delivering it or discarding it for resend. -/
  | flitReceive (dir : BitVec 32) (route : BitVec 48) (fields : BitVec 80) (payload : BitVec 512) (tag : BitVec 128)
  /-- FLIT_RESEND (R407). A sender resends flits of a source and class from the first one discarded. -/
  | flitResend (dir : BitVec 32) (lane : BitVec 8 × BitVec 3)
  /-- TOKEN_PASS (R408). The home-channel token passes an endpoint: the receiver refreshes it, or a writer captures it and sends a burst of the replies and requests it has, given by class. -/
  | tokenPass (ch ep : BitVec 8) (replies requests : List (BitVec 3))
  /-- GOVERNOR_LEVEL (R410). A clock region's governor raises or lowers its level after its FIFO has stayed full or empty long enough. -/
  | governorLevel (region : BitVec 9) (up : Bool)
  /-- EMPTY_FLIT (R411). An idle fibre direction sends an empty flit every 256 ns carrying OPEN. -/
  | emptyFlit (k : BitVec 8) (f : Flit)
  /-- FIBRE_PARK (R414). After 100 µs under 25% use the fibre governor halves the active wavelengths. -/
  | fibrePark (k : BitVec 8)
  /-- FIBRE_WAKE (R414). A transmit queue over 32 flits wakes every parked wavelength. -/
  | fibreWake (k : BitVec 8)
  /-- WAKE_LOCK (R414). Both ends signal lock or 2 µs expire; striping widens or the wavelength stays parked. -/
  | wakeLock (k : BitVec 8) (locked : BitVec 8)
  /-- BAR2_ACCESS (R416). A host access through BAR2 is translated and performed at its owner; an AtomicOp is one of 8 bytes or of 4, with its operands. -/
  | bar2Access (o : BitVec 40) (op : Bar2Op) (wide : Bool) (d e : Word)
  /-- HOST_MEMORY_COMPLETION (R417). A completion returns from host memory for a device read or atomic of a stream, or to a word from now on. -/
  | hostMemoryCompletion (sid : BitVec 16) (r : HostRead) (err : Bool)
  /-- ATTESTATION (R420). The root runs SPDM with a die and quarantines it or sends its link keys. -/
  | attestation (die : BitVec 5) (offer : SpdmOffer) (proof : SpdmProof)
  /-- ATTEST_TIMEOUT (R420). A die that gives no response within 100 ms fails attestation. -/
  | attestTimeout (die : BitVec 5) (failStep : BitVec 4)
  /-- KEY_ROLLOVER (R425). At CTR 2^30 or on order a direction rolls to the next key generation. -/
  | keyRollover (dir : BitVec 32)
  /-- KEY_ERASE (R425). After 4,096 flits under the new key the receiver erases the old one. -/
  | keyErase (dir : BitVec 32)
  /-- LKREKEY (R427). A write or repeated tag failures re-key a direction with a fresh link secret. -/
  | lkrekey (v : Word)
  /-- PEER_ATTESTATION (R428). Modules of a pod attest each other over class 5 fibre flits and key their fibres. -/
  | peerAttestation (p : BitVec 6) (pass : Bool)
  /-- DEBUG_HALT (R430). Halts a stream at its precise-stop pair without trap entry. -/
  | debugHalt (sid : BitVec 16)
  /-- DEBUG_RESUME (R431). Resumes a halted stream, reissuing its queue. -/
  | debugResume (sid : BitVec 16)
  /-- DEBUG_STEP (R431). Performs one instruction of a halted stream and halts again. -/
  | debugStep (sid : BitVec 16)
  /-- DEBUG_READ_REGISTER (R432). Reads a register of a halted stream into DBGDATA. -/
  | debugReadRegister (sid : BitVec 16)
  /-- DEBUG_WRITE_REGISTER (R432). Writes a register of a halted stream from DBGDATA. -/
  | debugWriteRegister (sid : BitVec 16)
  /-- DEBUG_READ_MEMORY (R432). Reads one word of a halted stream's memory, stamped FLOOR. -/
  | debugReadMemory (sid : BitVec 16)
  /-- DEBUG_WRITE_MEMORY (R432). Writes one word of a halted stream's memory, stamped FLOOR. -/
  | debugWriteMemory (sid : BitVec 16)
  /-- DEBUG_FORWARD (R433). The debug master forwards a command to a peer over class 5 flits; or one forwarded to this module arrives with the master's DBGADDR and DBGDATA. -/
  | debugForward (m : DebugMsg)
  /-- DEBUG_PEER_TIMEOUT (R433). A peer that gives no reply within 1 ms gives RESULT 4. -/
  | debugPeerTimeout (p : BitVec 6)
  /-- TRACE_RECORD (R434). The trace unit receives the record of these words, if it is on its way, and writes it or counts it lost. -/
  | traceRecord (r0 r1 r2 r3 : Word)
  /-- STALL_REPORT (R436). Every 4,096 cycles agents report pull-wait charges to the front's pair table: the cycles in which a pull was parked and in which it was refused. -/
  | stallReport (sid : BitVec 16) (own : BitVec 14) (cpc ppc : Word) (parked refused : BitVec 32)
  /-- BRING_UP (R437). Power-on or module reset runs the six bring-up phases to READY or FAIL, the images of slots 0 and 1 being sound or not; with a calibration, phase 4 of the bring-up under way ends. -/
  | bringUp (powerOk bootOk : Bool) (imgs : Bool × Bool) (cal : Option Calibration)
  /-- MEMGO (R438). Host write that begins memory initialisation and fixes the hash masks. -/
  | memgo
  /-- MEMGO_TIMEOUT (R437). Phase 5 begins by itself 100 ms after it is entered. -/
  | memgoTimeout
  /-- UNIT_REPAIR (R440). A failed bank or sequencer is replaced by a spare while its cell's streams are pre-empted. -/
  | unitRepair (seq : Bool) (unit : BitVec 13)
  /-- SPARE_REPAIR (R439). A failed waveguide or fibre pair is replaced by a spare, or removed with CAPLOSS. -/
  | spareRepair (fibre : Bool) (unit : BitVec 8)
  /-- HUB_FAILOVER (R441). Hub die 0 silent for 10 ms: hub die 1 takes over from the first unconfirmed epoch. -/
  | hubFailover
  /-- THROTTLE (R442). Every 1 ms Porvex lowers or raises a clock by 0.1 GHz against temperature and power limits; the watts are the die's and the module's. -/
  | throttle (die : BitVec 5) (temp : BitVec 8) (watts : BitVec 16 × BitVec 16)
  /-- TRIP (R442). A sensor over TRIP holds every die but the active hub in reset. -/
  | trip (die : BitVec 5) (temp : BitVec 8) (watts : BitVec 16 × BitVec 16)
  /-- UPDCTL_GO (R445). Stages a firmware image from host memory into the other slot after verification. -/
  | updctlGo (v : Word)
  /-- REGISTER_WRITE (R415). A host write to a BAR0 register that has no row of its own, taken under its field rules; with no value, a host read. -/
  | registerWrite (off : BitVec 25) (size : BitVec 4) (v : Option Word)
  /-- POWER_LOSS (R419). A die or the module loses power, abandoning the unused leaves of its current HSS block and all volatile state. -/
  | powerLoss (whole : Bool) (die : BitVec 5)
  /-- PEER_RESET (R428). A pod peer is reset or lost, so its PODATT bit clears and its fibre pairs fall back to class 5 until it is attested afresh. -/
  | peerReset (p : BitVec 6)
  /-- DEBUG_PEER_REPLY (R433). The peer's reply to a forwarded debug command arrives over class 5 flits and sets DBGSTAT and DBGDATA on the master. -/
  | debugPeerReply (p : BitVec 6) (res : BitVec 3) (halted : Bool) (d : Word)
  /-- IMAGE_STAGED (R445). Staging of a firmware image ends, clearing UPDCTL.BUSY and setting RESULT. -/
  | imageStaged (readErr sigOk : Bool) (img : ImageHead)
  deriving DecidableEq, Repr

end Sys2Proof
end

