-- ==== Sys2Proof/WellFormed.lean ====
section
/-! DEFINITION. Which instruction terms are instructions of the machine: the ranges the manual states for the
fields of each instruction, and zero in every field the instruction does not use. An event is well formed
when its arguments name something that can exist. -/

namespace Sys2Proof

/-! ### Groups of formats (R207) -/

def Fmt.isI : Fmt → Bool
  | .i8 | .i16 | .i32 | .i64 => true
  | _ => false

def Fmt.isN : Fmt → Bool
  | .n8 | .n16 | .n32 | .n64 => true
  | _ => false

def Fmt.isIN (f : Fmt) : Bool := f.isI || f.isN

def Fmt.isF : Fmt → Bool
  | .f32 | .f16 | .bf16 => true
  | _ => false

def Fmt.isP8 : Fmt → Bool
  | .e4m3 | .e5m2 => true
  | _ => false

/-- The block-scaled formats S. -/
def Fmt.isS : Fmt → Bool
  | .q4 | .q3 | .e2m1 => true
  | _ => false

def Fmt.isINF (f : Fmt) : Bool := f.isIN || f.isF

/-- I N F P8 e8m0 wf96: the formats that move unchanged (R208). -/
def Fmt.isMove (f : Fmt) : Bool := f.isINF || f.isP8 || f == .e8m0 || f == .wf96

/-! ### Vector words (R56, R57, R208) -/

/-- What R208 states for one vector mnemonic. -/
structure VRule where
  /-- Formats column. -/
  fmt : Fmt → Bool
  /-- Scalar B column. -/
  scalarB : Fmt → Bool
  /-- Mods column. -/
  mods : Bool
  /-- RM column: where the rounding field has a meaning. -/
  rm : VArgs → Bool
  /-- SAT column. -/
  sat : VArgs → Bool
  /-- Whether operand B is a window of the word, and whether WC is. -/
  useB : Bool
  useC : Bool
  useA : Bool
  /-- Whether IMM16 belongs to the instruction. -/
  ownImm : Bool

/-- Signed value of IMM16 has magnitude below `n` (R56). -/
def immMagLt (i : BitVec 16) (n : Nat) : Bool := i.toInt.natAbs < n

/-- R56: the modifier fields agree with each other. -/
def modOk (v : VArgs) : Bool :=
  match v.amod with
  | .none => v.gsz == 7 && !v.fill
  | .shift => true
  | .rotate => v.gsz == 7 || immMagLt v.imm (2 ^ (v.gsz.toNat + 2))
  | .bcast => v.gsz == 7 || v.imm.toNat < 2 ^ (v.gsz.toNat + 2)
  | .reverse => v.imm == 0

/-- The vector word obeys its row of R208, R56 and R57, and its unused fields are zero. -/
def VRule.ok (r : VRule) (v : VArgs) : Bool :=
  r.fmt v.fmt && (!v.sb || r.scalarB v.fmt) && modOk v && (r.mods || v.amod == .none)
    && (r.rm v || v.rm == .rne) && (r.sat v || !v.sat)
    && (r.useA || v.wa == 0) && (r.useB || v.sb || v.wb == 0) && (r.useC || v.wc == 0)
    && (r.ownImm || v.imm == 0 || v.amod == .shift || v.amod == .rotate || v.amod == .bcast)
    && (!r.ownImm || v.amod == .none)

def noRm : VArgs → Bool := fun _ => false
def fRm : VArgs → Bool := fun v => v.fmt.isF
def infSat : VArgs → Bool := fun v => v.fmt.isINF
def noB : Fmt → Bool := fun _ => false
def anyB : Fmt → Bool := fun _ => true

def ruleAddSub : VRule :=
  { fmt := fun f => f.isINF || f == .wf96, scalarB := fun f => f != .wf96, mods := true, rm := fRm, sat := infSat,
    useB := true, useC := false, useA := true, ownImm := false }
def ruleMul : VRule := { ruleAddSub with fmt := Fmt.isINF }
def ruleFused : VRule := { ruleMul with useC := true }
def ruleMinMax : VRule := { ruleMul with rm := noRm, sat := noRm }
def ruleAbsNeg : VRule :=
  { fmt := fun f => f.isI || f.isF, scalarB := noB, mods := true, rm := noRm, sat := fun v => v.fmt.isI,
    useB := false, useC := false, useA := true, ownImm := false }
def ruleUnaryF : VRule := { ruleAbsNeg with fmt := Fmt.isF, rm := fRm, sat := fRm }
def ruleLogic : VRule :=
  { fmt := fun f => f.isIN || f == .bit, scalarB := anyB, mods := true, rm := noRm, sat := noRm,
    useB := true, useC := false, useA := true, ownImm := false }
def ruleNot : VRule := { ruleLogic with scalarB := noB, useB := false }
def ruleShift : VRule := { ruleLogic with fmt := Fmt.isIN }
def ruleCompare : VRule := { ruleLogic with fmt := Fmt.isINF }
def ruleSel : VRule :=
  { ruleLogic with fmt := fun f => f.isMove || f == .bit, scalarB := fun f => f != .wf96, useC := true }
def ruleMov : VRule := { ruleNot with fmt := fun f => f.isMove || f == .bit }
def ruleFill : VRule :=
  { fmt := fun f => f.isMove || f == .bit, scalarB := fun f => f != .wf96, mods := false,
    rm := fun v => !v.sb && (v.fmt.isF || v.fmt.isP8),
    sat := fun v => !v.sb && (v.fmt.isINF || v.fmt.isP8),
    useB := false, useC := false, useA := false, ownImm := false }
def ruleIota : VRule :=
  { fmt := Fmt.isIN, scalarB := noB, mods := false, rm := noRm, sat := fun v => v.fmt.isIN,
    useB := false, useC := false, useA := false, ownImm := true }
def ruleRedAdd : VRule :=
  { fmt := fun f => f.isINF || f == .bit, scalarB := noB, mods := false, rm := fRm, sat := infSat,
    useB := false, useC := false, useA := true, ownImm := false }
def ruleScanAdd : VRule := { ruleRedAdd with fmt := Fmt.isINF }
def ruleRedMM : VRule := { ruleScanAdd with rm := noRm, sat := noRm }
def ruleGather : VRule := { ruleNot with fmt := Fmt.isMove }
def ruleCompact : VRule := { ruleGather with mods := false, useC := true }
def ruleLanex : VRule := { ruleGather with fmt := fun f => f == .n16 || f == .n32, mods := false }
def homeFmt (f : Fmt) : Bool := f == .i32 || f == .i64 || f == .n32 || f == .n64
def ruleVacc : VRule := { ruleGather with fmt := fun f => f == .wf96 || homeFmt f }
def ruleVamo : VRule := { ruleGather with fmt := homeFmt, useB := true }

/-- AMOD 0 or 4 (R63). -/
def amodHome (v : VArgs) : Bool := v.amod == .none || v.amod == .reverse

/-- `vfill` (R56, R220): in the immediate form IMM16 belongs to the instruction, with its must-be-zero
parts; in the scalar form IMM16 is zero. -/
def fillOk (v : VArgs) : Bool :=
  if v.sb then v.imm == 0
  else v.wb == 0 && (v.fmt != .e8m0 || v.imm.extractLsb' 8 8 == 0) && (v.fmt != .bit || v.imm.extractLsb' 1 15 == 0)

/-- The pairs of `vcvt` with their RM and SAT columns (R222): whether RM may be other than 0, and whether
SAT may be 1; `none` for a pair that is not defined. -/
def cvtPair (s d : Fmt) : Option (Bool × Bool) :=
  if s == d && s != .wf96 then none
  else if s.isIN && d.isIN then some (false, true)
  else if s.isIN && (d.isF || d.isP8) then some (true, true)
  else if (s.isF || s.isP8 || s.isS || s == .wf96) && d.isIN then some (true, false)
  else if (s.isF || s.isP8 || s.isS || s == .wf96) && (d.isF || d.isP8) then some (true, true)
  else if s == .e8m0 && d.isF then some (true, true)
  else if (s.isINF || s.isP8 || s == .wf96) && d.isS then some (true, false)
  else if (s.isINF || s.isP8 || s.isS || s == .wf96) && d == .wf96 then some (false, false)
  else none

def cvtOk (s : Fmt) (v : VArgs) : Bool :=
  match cvtPair s v.fmt with
  | none => false
  | some (r, t) =>
    ({ ruleNot with fmt := fun _ => true, rm := fun _ => r, sat := fun _ => t } : VRule).ok v

/-! ### Other words -/

/-- Weight formats of `mload` and activation formats of `mma` (R62). -/
def weightFmt (f : Fmt) : Bool := f.isP8 || f == .bf16 || f.isS
def actFmt (f : Fmt) : Bool := f.isP8 || f == .bf16

/-- FOLLOW values of `cpy`, `cpyt` and `cpym` (R64). -/
def followOk (f : BitVec 4) : Bool := f != 0b1000 && (f.extractLsb' 0 3).toNat < 4

/-- A footprint window number in IMM16[4:0], not 0 (R234). -/
def footOk (c : CArgs) : Bool := c.imm.extractLsb' 5 11 == 0 && c.imm.extractLsb' 0 5 != 0

/-- Assigned control and status registers (R66). -/
def csrExists (n : Nat) : Bool :=
  n ≤ 0x007 || (0x010 ≤ n && n ≤ 0x013) || n == 0x020 || n == 0x021 || n == 0x030 || n == 0x031
    || (0x040 ≤ n && n ≤ 0x042) || n == 0x050 || n == 0x051 || (0x060 ≤ n && n ≤ 0x067) || n == 0x070
    || (0x080 ≤ n && n ≤ 0x08F) || n == 0x090 || n == 0x091

/-- The read-only ones (R66). -/
def csrRO (n : Nat) : Bool :=
  n == 0x005 || n == 0x006 || (0x011 ≤ n && n ≤ 0x013) || n == 0x021 || n == 0x051 || n == 0x091

def atomOk (a : AtomArgs) : Bool := a.w == .w64 || a.w == .w32

/-- Well-formedness of every term. -/
def Instr.wellFormed : Instr → Bool
  | .ld _ o _ _ _ _ _ => o != .rel
  | .st o _ _ _ _ _ => o != .acq
  | .scas a | .samoAdd a | .samoAnd a | .samoOr a | .samoXor a | .samoMin a | .samoMax a | .samoMinn a
  | .samoMaxn a | .samoSwap a => atomOk a
  | .csrr _ c => csrExists c.toNat
  | .csrw _ _ c => csrExists c.toNat && !csrRO c.toNat
  | .csrs _ sa c | .csrc _ sa c => csrExists c.toNat && (!csrRO c.toNat || sa == 0)
  | .vadd v | .vsub v => ruleAddSub.ok v
  | .vmul v => ruleMul.ok v
  | .vfma v | .vfms v | .vfnma v => ruleFused.ok v
  | .vmin v | .vmax v => ruleMinMax.ok v
  | .vabs v | .vneg v => ruleAbsNeg.ok v
  | .vrcp v | .vrsq v | .vexp2 v | .vlog2 v => ruleUnaryF.ok v
  | .vand v | .vor v | .vxor v => ruleLogic.ok v
  | .vnot v => ruleNot.ok v
  | .vsll v | .vsrl v | .vsra v => ruleShift.ok v
  | .vceq v | .vcne v | .vclt v | .vcle v => ruleCompare.ok v
  | .vsel v => ruleSel.ok v
  | .vcvt s v => cvtOk s v
  | .vmov v => ruleMov.ok v
  | .vfill v => ({ ruleFill with ownImm := true } : VRule).ok v && fillOk v
  | .viota v => ruleIota.ok v
  | .vredAdd v => ruleRedAdd.ok v
  | .vredMax v | .vredMin v => ruleRedMM.ok v
  | .vscanAdd v => ruleScanAdd.ok v
  | .vscanMax v | .vscanMin v => ruleRedMM.ok v
  | .vgather v | .vscatter v => ruleGather.ok v
  | .vcompact v | .vexpand v => ruleCompact.ok v
  | .lanex v => ruleLanex.ok v
  | .vacc v => ruleVacc.ok v && amodHome v
  | .vamoAdd v _ _ | .vamoAnd v _ _ | .vamoOr v _ _ | .vamoXor v _ _ | .vamoMin v _ _ | .vamoMax v _ _
  | .vamoMinn v _ _ | .vamoMaxn v _ _ | .vamoSwap v _ _ => ruleVamo.ok v && amodHome v && v.imm == 0
  | .mload f _ _ kb => weightFmt f && (!f.isS || kb.extractLsb' 0 1 == 0)
  | .mma m => actFmt m.fmt
  | .rflush sc => sc != .stream && sc != .bank
  | .cpy c => c.wx == 0 && c.mcast == 0 && c.imm == 0 && followOk c.follow
  | .cpyt c => c.mcast == 0 && footOk c && followOk c.follow
  | .cpyg c | .cpys c => c.follow == 0 && c.mcast == 0 && footOk c
  | .cpyf c => c.wx == 0 && c.follow == 0 && c.mcast == 0 && c.imm == 0
  | .cpym c => c.wx == 0 && c.mcast.extractLsb' 6 2 == 0 && c.mcast.extractLsb' 0 1 == 0 && followOk c.follow
  | .sprog c => c.wd == 0 && c.follow == 0 && c.mcast == 0 && c.imm.extractLsb' 9 7 == 0
  | .srun c => c.follow == 0 && c.mcast == 0
  | .chase c => c.wx == 0 && c.follow == 0 && c.mcast == 0 && c.imm.extractLsb' 10 6 == 0
  | .gbar _ _ sc _ | .qpush _ _ _ sc | .qpop _ _ _ sc | .qdrainWait _ _ sc | .qdrainDiscard _ _ sc
  | .tlbinv _ _ _ sc => sc == .domain || sc == .module
  | .pmig _ _ _ sc => sc == .module || sc == .pod
  | .trap i => i.toNat < 2 ^ 30
  | .bankBeginBroadcast _ o | .bankRetire _ o => o.toNat < 9216
  | .dieReset d => d.toNat < 26
  | .attestation d _ _ | .attestTimeout d _ => d.toNat < 26
  | .throttle d _ _ | .trip d _ _ => d.toNat < 26
  | _ => true

end Sys2Proof
end

