-- ==== Sys2Proof/Decode.lean ====
section
/-! DEFINITION. Instruction words (spec/03_encoding.md): the fields of the seven formats, the decoder with
the reason codes of R68, and the encoder. Events have no word. -/

namespace Sys2Proof

/-! ### Field codes -/

/-- W codes (R46). -/
def Width.code : Width → BitVec 2
  | .w64 => 0 | .w32 => 1 | .w16 => 2 | .w8 => 3

def Width.ofCode (c : BitVec 2) : Width :=
  if c = 0 then .w64 else if c = 1 then .w32 else if c = 2 then .w16 else .w8

/-- Format codes (R55). -/
def Fmt.code : Fmt → BitVec 5
  | .i8 => 0 | .i16 => 1 | .i32 => 2 | .i64 => 3 | .n8 => 4 | .n16 => 5 | .n32 => 6 | .n64 => 7
  | .f32 => 8 | .f16 => 9 | .bf16 => 10 | .e4m3 => 11 | .e5m2 => 12 | .e2m1 => 13 | .e8m0 => 14
  | .q4 => 15 | .q3 => 16 | .wf96 => 17 | .bit => 18

def Fmt.ofCode (c : BitVec 5) : Option Fmt :=
  match c.toNat with
  | 0 => some .i8 | 1 => some .i16 | 2 => some .i32 | 3 => some .i64
  | 4 => some .n8 | 5 => some .n16 | 6 => some .n32 | 7 => some .n64
  | 8 => some .f32 | 9 => some .f16 | 10 => some .bf16 | 11 => some .e4m3 | 12 => some .e5m2
  | 13 => some .e2m1 | 14 => some .e8m0 | 15 => some .q4 | 16 => some .q3 | 17 => some .wf96
  | 18 => some .bit
  | _ => none

/-- RM codes (R53). -/
def Rm.code : Rm → BitVec 3
  | .rne => 0 | .rtz => 1 | .rdn => 2 | .rup => 3 | .rna => 4 | .rsr => 5 | .dyn => 6

def Rm.ofCode (c : BitVec 3) : Option Rm :=
  match c.toNat with
  | 0 => some .rne | 1 => some .rtz | 2 => some .rdn | 3 => some .rup | 4 => some .rna
  | 5 => some .rsr | 6 => some .dyn
  | _ => none

/-- Scope codes (R54). -/
def Scope.code : Scope → BitVec 3
  | .stream => 0 | .bank => 1 | .cell => 2 | .die => 3 | .domain => 4 | .module => 5 | .pod => 6 | .system => 7

def Scope.ofCode (c : BitVec 3) : Scope :=
  match c.toNat with
  | 0 => .stream | 1 => .bank | 2 => .cell | 3 => .die | 4 => .domain | 5 => .module | 6 => .pod
  | _ => .system

/-- ORD codes (R48). -/
def MemOrder.code : MemOrder → BitVec 2
  | .plain => 0 | .acq => 1 | .rel => 2

def MemOrder.ofCode (c : BitVec 2) : Option MemOrder :=
  match c.toNat with
  | 0 => some .plain | 1 => some .acq | 2 => some .rel
  | _ => none

/-- Block codes of `setvl` (R60). -/
def Blk.code : Blk → BitVec 3
  | .b1 => 0 | .b16 => 1 | .b32 => 2 | .b64 => 3 | .b128 => 4

def Blk.ofCode (c : BitVec 3) : Option Blk :=
  match c.toNat with
  | 0 => some .b1 | 1 => some .b16 | 2 => some .b32 | 3 => some .b64 | 4 => some .b128
  | _ => none

/-- AMOD codes (R56). -/
def AMod.code : AMod → BitVec 3
  | .none => 0 | .shift => 1 | .rotate => 2 | .bcast => 3 | .reverse => 4

def AMod.ofCode (c : BitVec 3) : Option AMod :=
  match c.toNat with
  | 0 => some .none | 1 => some .shift | 2 => some .rotate | 3 => some .bcast | 4 => some .reverse
  | _ => Option.none

/-! ### The formats (R46 to R52) -/

/-- Format FA, and FM, which has its layout (R46, R48). -/
structure FA where
  maj : BitVec 6
  fn : BitVec 6
  sd : BitVec 6
  sa : BitVec 6
  sb : BitVec 6
  w : BitVec 2
  imm : BitVec 32
  deriving DecidableEq, Repr

def FA.pack (f : FA) : Word := f.maj ++ f.fn ++ f.sd ++ f.sa ++ f.sb ++ f.w ++ f.imm

def FA.unpack (x : Word) : FA where
  maj := x.extractLsb' 58 6
  fn := x.extractLsb' 52 6
  sd := x.extractLsb' 46 6
  sa := x.extractLsb' 40 6
  sb := x.extractLsb' 34 6
  w := x.extractLsb' 32 2
  imm := x.extractLsb' 0 32

/-- Format FV (R49); FN is split into FN[5] and FN[4:0]. -/
structure FV where
  maj : BitVec 6
  fb : BitVec 1
  fn : BitVec 5
  wd : BitVec 5
  wa : BitVec 5
  wb : BitVec 5
  wc : BitVec 5
  wm : BitVec 5
  rm : BitVec 3
  sat : BitVec 1
  amod : BitVec 3
  fill : BitVec 1
  gsz : BitVec 3
  imm : BitVec 16
  deriving DecidableEq, Repr

def FV.pack (f : FV) : Word :=
  f.maj ++ f.fb ++ f.fn ++ f.wd ++ f.wa ++ f.wb ++ f.wc ++ f.wm ++ f.rm ++ f.sat ++ f.amod ++ f.fill
    ++ f.gsz ++ f.imm

def FV.unpack (x : Word) : FV where
  maj := x.extractLsb' 58 6
  fb := x.extractLsb' 57 1
  fn := x.extractLsb' 52 5
  wd := x.extractLsb' 47 5
  wa := x.extractLsb' 42 5
  wb := x.extractLsb' 37 5
  wc := x.extractLsb' 32 5
  wm := x.extractLsb' 27 5
  rm := x.extractLsb' 24 3
  sat := x.extractLsb' 23 1
  amod := x.extractLsb' 20 3
  fill := x.extractLsb' 19 1
  gsz := x.extractLsb' 16 3
  imm := x.extractLsb' 0 16

/-- Format FT (R50). -/
structure FT where
  maj : BitVec 6
  fn : BitVec 6
  wd : BitVec 5
  wa : BitVec 5
  wb : BitVec 5
  pair : BitVec 1
  z1 : BitVec 4
  wm : BitVec 5
  rm : BitVec 3
  sat : BitVec 1
  z2 : BitVec 7
  kb : BitVec 16
  deriving DecidableEq, Repr

def FT.pack (f : FT) : Word :=
  f.maj ++ f.fn ++ f.wd ++ f.wa ++ f.wb ++ f.pair ++ f.z1 ++ f.wm ++ f.rm ++ f.sat ++ f.z2 ++ f.kb

def FT.unpack (x : Word) : FT where
  maj := x.extractLsb' 58 6
  fn := x.extractLsb' 52 6
  wd := x.extractLsb' 47 5
  wa := x.extractLsb' 42 5
  wb := x.extractLsb' 37 5
  pair := x.extractLsb' 36 1
  z1 := x.extractLsb' 32 4
  wm := x.extractLsb' 27 5
  rm := x.extractLsb' 24 3
  sat := x.extractLsb' 23 1
  z2 := x.extractLsb' 16 7
  kb := x.extractLsb' 0 16

/-- Format FC (R51). -/
structure FC where
  maj : BitVec 6
  fn : BitVec 6
  st : BitVec 6
  wd : BitVec 5
  ws : BitVec 5
  wx : BitVec 5
  scope : BitVec 3
  follow : BitVec 4
  mcast : BitVec 8
  imm : BitVec 16
  deriving DecidableEq, Repr

def FC.pack (f : FC) : Word :=
  f.maj ++ f.fn ++ f.st ++ f.wd ++ f.ws ++ f.wx ++ f.scope ++ f.follow ++ f.mcast ++ f.imm

def FC.unpack (x : Word) : FC where
  maj := x.extractLsb' 58 6
  fn := x.extractLsb' 52 6
  st := x.extractLsb' 46 6
  wd := x.extractLsb' 41 5
  ws := x.extractLsb' 36 5
  wx := x.extractLsb' 31 5
  scope := x.extractLsb' 28 3
  follow := x.extractLsb' 24 4
  mcast := x.extractLsb' 16 8
  imm := x.extractLsb' 0 16

/-- Format FS (R52). -/
structure FS where
  maj : BitVec 6
  fn : BitVec 6
  sd : BitVec 6
  sa : BitVec 6
  sb : BitVec 6
  scope : BitVec 3
  imm : BitVec 31
  deriving DecidableEq, Repr

def FS.pack (f : FS) : Word := f.maj ++ f.fn ++ f.sd ++ f.sa ++ f.sb ++ f.scope ++ f.imm

def FS.unpack (x : Word) : FS where
  maj := x.extractLsb' 58 6
  fn := x.extractLsb' 52 6
  sd := x.extractLsb' 46 6
  sa := x.extractLsb' 40 6
  sb := x.extractLsb' 34 6
  scope := x.extractLsb' 31 3
  imm := x.extractLsb' 0 31

/-! ### The decoder -/

/-- What a word is: an instruction, or a word that raises ILLEGAL_INSN with a reason code (R68). -/
inductive Decoded where
  | ok (i : Instr)
  | illegal (reason : Nat)
  deriving DecidableEq, Repr

/-- A word of an assigned major and function: reason 3 when an unused field is not zero, else reason 4
when RM = 7, else reason 5 when a field is out of range, else the instruction (R68, R71). -/
def verdict (zero : Bool) (rmOk : Bool) (range : Bool) (i : Instr) : Decoded :=
  if !zero then .illegal 3 else if !rmOk then .illegal 4 else if !range then .illegal 5 else .ok i

/-- Scalar ALU, major 0x00 (R59, R145). The register form has IMM32 zero, the immediate form SB zero. -/
def decodeAlu (f : FA) : Decoded :=
  let isImm := f.fn.extractLsb' 5 1 = 1
  let op := f.fn.extractLsb' 0 5
  let w := Width.ofCode f.w
  let b := if isImm then AluB.imm f.imm else AluB.reg f.sb
  let bin (c : Width → SReg → SReg → AluB → Instr) :=
    verdict (if isImm then f.sb == 0 else f.imm == 0) true true (c w f.sd f.sa b)
  let una (c : Width → SReg → SReg → Instr) :=
    verdict (f.sb == 0 && f.imm == 0) true (!(f.fn.extractLsb' 5 1 == 1)) (c w f.sd f.sa)
  match op.toNat with
  | 0x01 => bin .add | 0x02 => bin .sub_ | 0x03 => bin .mul | 0x04 => bin .mulh | 0x05 => bin .mulhn
  | 0x06 => bin .div | 0x07 => bin .divn | 0x08 => bin .rem | 0x09 => bin .remn
  | 0x0A => bin .and_ | 0x0B => bin .or_ | 0x0C => bin .xor_ | 0x0D => bin .andn
  | 0x0E => bin .sll | 0x0F => bin .srl | 0x10 => bin .sra | 0x11 => bin .slt | 0x12 => bin .sltn
  | 0x13 => bin .min_ | 0x14 => bin .max_ | 0x15 => bin .minn | 0x16 => bin .maxn
  | 0x17 => una .clz | 0x18 => una .ctz | 0x19 => una .popc | 0x1A => una .sext | 0x1B => una .zext
  | _ => .illegal 2

/-- Conditional branches, major 0x02 (R153). Bits [33:32] (the W position) and SD are zero. -/
def decodeBranch (f : FA) : Decoded :=
  let br (c : SReg → SReg → BitVec 32 → Instr) := verdict (f.sd == 0 && f.w == 0) true true (c f.sa f.sb f.imm)
  match f.fn.toNat with
  | 0 => br .beq | 1 => br .bne | 2 => br .blt | 3 => br .bge | 4 => br .bltn | 5 => br .bgen
  | _ => .illegal 2

/-- CSR access (R66, R67): an assigned address, and no write to a read-only register. -/
def csrAssigned (a : BitVec 12) : Bool := csrExists a.toNat
def csrReadOnly (a : BitVec 12) : Bool := csrRO a.toNat

/-- Control, major 0x03 (R58, R154 to R158). -/
def decodeCtl (f : FA) : Decoded :=
  let csr : BitVec 12 := f.imm.extractLsb' 0 12
  let csrZ := f.w == 0 && f.sb == 0 && f.imm.extractLsb' 12 20 == 0
  match f.fn.toNat with
  | 0 => verdict (f.sa == 0 && f.sb == 0 && f.w == 0) true true (.jal f.sd f.imm)
  | 1 => verdict (f.sb == 0 && f.w == 0) true true (.jalr f.sd f.sa f.imm)
  | 2 => verdict (f.sd == 0 && f.sa == 0 && f.sb == 0 && f.w == 0) true true (.wait f.imm)
  | 3 => verdict (f.sd == 0 && f.sa == 0 && f.sb == 0 && f.w == 0 && f.imm == 0) true true .halt
  | 4 => verdict (f.sd == 0 && f.sa == 0 && f.sb == 0 && f.w == 0 && f.imm == 0) true true .nop
  | 8 => verdict (csrZ && f.sa == 0) true (csrAssigned csr) (.csrr f.sd csr)
  | 9 => verdict csrZ true (csrAssigned csr && !csrReadOnly csr) (.csrw f.sd f.sa csr)
  | 10 => verdict csrZ true (csrAssigned csr && (!csrReadOnly csr || f.sa == 0)) (.csrs f.sd f.sa csr)
  | 11 => verdict csrZ true (csrAssigned csr && (!csrReadOnly csr || f.sa == 0)) (.csrc f.sd f.sa csr)
  | _ => .illegal 2

/-- FM function bits (R48): SG, ORD and SCOPE. -/
def fmSg (f : FA) : Bool := f.fn.extractLsb' 5 1 == 1
def fmOrd (f : FA) : Option MemOrder := MemOrder.ofCode (f.fn.extractLsb' 3 2)
def fmScope (f : FA) : Scope := Scope.ofCode (f.fn.extractLsb' 0 3)

/-- `ld` (R149): SB zero, ORD 0 or 1. `st`: SD zero, SG zero, ORD 0 or 2. The FN field is never judged
under reason 3 (R68), so SG of `st` is judged under reason 5. -/
def decodeLd (f : FA) : Decoded :=
  match fmOrd f with
  | some o => verdict (f.sb == 0) true (o != .rel) (.ld (fmSg f) o (fmScope f) (Width.ofCode f.w) f.sd f.sa f.imm)
  | none => if f.sb == 0 then .illegal 5 else .illegal 3

def decodeSt (f : FA) : Decoded :=
  match fmOrd f with
  | some o => verdict (f.sd == 0) true (o != .acq && !fmSg f) (.st o (fmScope f) (Width.ofCode f.w) f.sb f.sa f.imm)
  | none => if f.sd == 0 then .illegal 5 else .illegal 3

/-- `scas` and `samo` (R151): ORD 0 to 2, W 0 or 1; every field is used. -/
def decodeAtom (f : FA) (c : AtomArgs → Instr) : Decoded :=
  match fmOrd f with
  | some o =>
    verdict true true (f.w.toNat < 2)
      (c { sg := fmSg f, ord := o, sc := fmScope f, w := Width.ofCode f.w, sd := f.sd, sa := f.sa, sb := f.sb, off := f.imm })
  | none => .illegal 5

/-- Bit 5 of a register field that carries a window number (R60). -/
def w5 (r : BitVec 6) : Bool := r.extractLsb' 5 1 == 0
def wlo (r : BitVec 6) : WReg := r.extractLsb' 0 5

/-- Windows, strips and bank conditions, major 0x10 (R60, R167 to R178). -/
def decodeWin (f : FA) : Decoded :=
  match f.fn.toNat with
  | 0x00 => verdict (f.w == 0 && f.imm == 0 && w5 f.sd) true true (.wset (wlo f.sd) f.sa f.sb)
  | 0x01 => verdict (f.w == 0 && f.sb == 0 && w5 f.sa) true (f.imm == 0 || f.imm == 1) (.wget f.sd (wlo f.sa) (f.imm == 1))
  | 0x02 => verdict (f.w == 0 && f.sb == 0 && f.imm == 0 && w5 f.sd && w5 f.sa) true true (.wcpy (wlo f.sd) (wlo f.sa))
  | 0x03 =>
    let z := f.w == 0 && f.sb == 0 && f.imm.extractLsb' 5 3 == 0 && f.imm.extractLsb' 11 21 == 0
    match Fmt.ofCode (f.imm.extractLsb' 0 5), Blk.ofCode (f.imm.extractLsb' 8 3) with
    | some m, some b => verdict z true true (.setvl f.sd f.sa m b)
    | _, _ => if z then .illegal 5 else .illegal 3
  | 0x04 => verdict (f.sd == 0 && f.w == 0) true true (.strip f.sa f.sb f.imm)
  | 0x08 => verdict (f.sd == 0 && f.sb == 0 && f.w == 0 && w5 f.sa) true true (.bany (wlo f.sa) f.imm)
  | 0x09 => verdict (f.sd == 0 && f.sb == 0 && f.w == 0 && w5 f.sa) true true (.ball (wlo f.sa) f.imm)
  | 0x0A => verdict (f.sd == 0 && f.sb == 0 && f.w == 0 && w5 f.sa) true true (.bnone (wlo f.sa) f.imm)
  | _ => .illegal 2

/-- `ownq`, major 0x11 (R202). -/
def decodeOwn (f : FA) : Decoded :=
  match f.fn.toNat with
  | 0x00 => verdict (f.w == 0 && f.sb == 0 && f.imm.extractLsb' 4 28 == 0) true true (.ownq f.sd f.sa (f.imm.extractLsb' 0 4))
  | _ => .illegal 2

/-- Which windows and fields a vector mnemonic uses (R61): a field not used is zero. -/
structure VUse where
  d : Bool
  a : Bool
  b : Bool
  c : Bool
  imm : Bool
  /-- A modifier may use IMM16 (R56). -/
  mods : Bool := true

/-- One vector word, its mnemonic known: unused fields zero (reason 3), RM = 7 (reason 4), then the
ranges of R56, R57 and R208 (reason 5). `imm` says that IMM16 belongs to the instruction; with AMOD 5 to 7 no use of
IMM16 is known (the worked encodings give reason 5), but in `lanex` and `vacc` IMM16 must be zero whatever AMOD
holds (R203, R343). -/
def decodeV (f : FV) (u : VUse) (sel : BitVec 5) (c : VArgs → Instr) : Decoded :=
  let zero := (u.d || f.wd == 0) && (u.a || f.wa == 0) && (u.b || f.wb == 0)
    && (u.c || f.wc == sel)
    && (u.imm || f.imm == 0 || (u.mods && f.amod != 0 && f.amod != 4))
  match Fmt.ofCode f.fn, Rm.ofCode f.rm, AMod.ofCode f.amod with
  | some m, some r, some am =>
    let v : VArgs := { fmt := m, sb := f.fb == 1, wd := f.wd, wa := f.wa, wb := f.wb,
                       wc := if u.c then f.wc else 0, wm := f.wm, rm := r, sat := f.sat == 1, amod := am,
                       fill := f.fill == 1, gsz := f.gsz, imm := f.imm }
    verdict zero true (c v).wellFormed (c v)
  | _, _, _ => if !zero then .illegal 3 else if f.rm == 7 then .illegal 4 else .illegal 5

/-- A word whose selector names no mnemonic (R68). -/
def noSelector (f : FV) : Decoded := if f.rm == 7 then .illegal 4 else .illegal 5

def useDAB : VUse := { d := true, a := true, b := true, c := false, imm := false }
def useDABC : VUse := { d := true, a := true, b := true, c := true, imm := false }
def useDA : VUse := { d := true, a := true, b := false, c := false, imm := false }
def useDAC : VUse := { d := true, a := true, b := false, c := true, imm := false }

/-- `vcvt` (R222): WC holds the source format code. A source code without a format is out of range. -/
def decodeVcvt (f : FV) : Decoded :=
  match Fmt.ofCode f.wc with
  | some s => decodeV f useDA f.wc (.vcvt s)
  | none => match decodeV f useDA f.wc (fun v => .vcvt v.fmt v) with
    | .ok _ => .illegal 5
    | r => r

/-- `vamo` (R350): IMM16 holds order and scope. -/
def decodeVamo (f : FV) (c : VArgs → MemOrder → Scope → Instr) : Decoded :=
  let zero := f.imm.extractLsb' 5 11 == 0
  match MemOrder.ofCode (f.imm.extractLsb' 0 2) with
  | some o =>
    if !zero then .illegal 3
    else decodeV { f with imm := 0 } useDAB f.wc (fun v => c { v with imm := 0 } o (Scope.ofCode (f.imm.extractLsb' 2 3)))
  | none => if !zero then .illegal 3 else if f.rm == 7 then .illegal 4 else .illegal 5

/-- `vamo` operations by selector (R63). -/
def vamoOps (f : FV) : Decoded :=
  match f.wc.toNat with
  | 0 => decodeVamo f .vamoAdd | 1 => decodeVamo f .vamoAnd | 2 => decodeVamo f .vamoOr
  | 3 => decodeVamo f .vamoXor | 4 => decodeVamo f .vamoMin | 5 => decodeVamo f .vamoMax
  | 6 => decodeVamo f .vamoMinn | 7 => decodeVamo f .vamoMaxn | 8 => decodeVamo f .vamoSwap
  | _ => noSelector f

/-- Broadcast vector majors 0x12 to 0x29, 0x39 and 0x3A (R61, R63). -/
def decodeVec (f : FV) : Decoded :=
  match f.maj.toNat with
  | 0x12 => decodeV f useDAB 0 .vadd
  | 0x13 => decodeV f useDAB 0 .vsub
  | 0x14 => decodeV f useDAB 0 .vmul
  | 0x15 => decodeV f useDABC 0 .vfma
  | 0x16 => decodeV f useDABC 0 .vfms
  | 0x17 => decodeV f useDABC 0 .vfnma
  | 0x18 => decodeV f useDAB 0 .vmin
  | 0x19 => decodeV f useDAB 0 .vmax
  | 0x1A =>
    match f.wc.toNat with
    | 0 => decodeV f useDA 0 .vabs | 1 => decodeV f useDA 1 .vneg | 2 => decodeV f useDA 2 .vrcp
    | 3 => decodeV f useDA 3 .vrsq | 4 => decodeV f useDA 4 .vexp2 | 5 => decodeV f useDA 5 .vlog2
    | _ => noSelector f
  | 0x1B =>
    match f.wc.toNat with
    | 0 => decodeV f useDAB 0 .vand | 1 => decodeV f useDAB 1 .vor | 2 => decodeV f useDAB 2 .vxor
    | 3 => decodeV f useDA 3 .vnot
    | _ => noSelector f
  | 0x1C =>
    match f.wc.toNat with
    | 0 => decodeV f useDAB 0 .vsll | 1 => decodeV f useDAB 1 .vsrl | 2 => decodeV f useDAB 2 .vsra
    | _ => noSelector f
  | 0x1D =>
    match f.wc.toNat with
    | 0 => decodeV f useDAB 0 .vceq | 1 => decodeV f useDAB 1 .vcne | 2 => decodeV f useDAB 2 .vclt
    | 3 => decodeV f useDAB 3 .vcle
    | _ => noSelector f
  | 0x1E => decodeV f useDABC 0 .vsel
  | 0x1F => decodeVcvt f
  | 0x20 => decodeV f useDA 0 .vmov
  | 0x21 => decodeV f { d := true, a := false, b := f.fb == 1, c := false, imm := f.fb == 0 } 0 .vfill
  | 0x22 => decodeV f { d := true, a := false, b := false, c := false, imm := true } 0 .viota
  | 0x23 =>
    match f.wc.toNat with
    | 0 => decodeV f useDA 0 .vredAdd | 1 => decodeV f useDA 1 .vredMax | 2 => decodeV f useDA 2 .vredMin
    | _ => noSelector f
  | 0x24 =>
    match f.wc.toNat with
    | 0 => decodeV f useDA 0 .vscanAdd | 1 => decodeV f useDA 1 .vscanMax | 2 => decodeV f useDA 2 .vscanMin
    | _ => noSelector f
  | 0x25 => decodeV f useDA 0 .vgather
  | 0x26 => decodeV f useDA 0 .vscatter
  | 0x27 => decodeV f useDAC 0 .vcompact
  | 0x28 => decodeV f useDAC 0 .vexpand
  | 0x29 => decodeV f { useDA with mods := false } 0 .lanex
  | 0x39 => decodeV f { useDA with mods := false } 0 .vacc
  | 0x3A => vamoOps f
  | _ => .illegal 1

/-- Matrix majors 0x30 to 0x34 (R62, R260). FN of 0x31, 0x33 and 0x34 has only value 0 assigned. -/
def decodeMat (f : FT) : Decoded :=
  let z0 := f.z1 == 0 && f.z2 == 0
  let badFn (zero : Bool) : Decoded := if !zero then .illegal 3 else if f.rm == 7 then .illegal 4 else .illegal 5
  match f.maj.toNat with
  | 0x30 =>
    let zero := z0 && f.wd == 0 && f.wa == 0 && f.wm == 0
    match Fmt.ofCode (f.fn.extractLsb' 0 5), f.fn.extractLsb' 5 1 == 0 with
    | some m, true =>
      verdict zero (f.rm != 7) (f.rm == 0 && f.sat == 0 && (Instr.mload m f.wb (f.pair == 1) f.kb).wellFormed)
        (.mload m f.wb (f.pair == 1) f.kb)
    | _, _ => badFn zero
  | 0x31 =>
    if f.fn != 0 then .illegal 2
    else verdict (z0 && f.wd == 0 && f.wa == 0 && f.wb == 0 && f.wm == 0 && f.kb == 0) (f.rm != 7)
      (f.rm == 0 && f.sat == 0) (.mswap (f.pair == 1))
  | 0x32 =>
    match Fmt.ofCode (f.fn.extractLsb' 0 5), f.fn.extractLsb' 5 1 == 0, Rm.ofCode f.rm with
    | some m, true, some r =>
      let a : MArgs := { fmt := m, wd := f.wd, wa := f.wa, wb := f.wb, pair := f.pair == 1, wm := f.wm, rm := r, kb := f.kb }
      verdict z0 true (f.sat == 0 && (Instr.mma a).wellFormed) (.mma a)
    | _, _, _ => badFn z0
  | 0x33 =>
    if f.fn != 0 then .illegal 2
    else verdict (z0 && f.wd == 0 && f.wa == 0 && f.wb == 0 && f.wm == 0 && f.kb.extractLsb' 1 15 == 0) (f.rm != 7)
      (f.rm == 0 && f.sat == 0) (.mrecast (f.pair == 1) (f.kb.extractLsb' 0 1 == 1))
  | 0x34 =>
    if f.fn != 0 then .illegal 2
    else verdict (z0 && f.wd == 0 && f.wa == 0 && f.wb == 0 && f.wm == 0 && f.kb.extractLsb' 1 15 == 0) (f.rm != 7)
      (f.rm == 0 && f.sat == 0) (.minval (f.pair == 1) (f.kb.extractLsb' 0 1 == 1))
  | _ => .illegal 1

/-- Major 0x38 (R63, R347, R348). -/
def decodeAcc (f : FS) : Decoded :=
  match f.fn.toNat with
  | 0 => verdict (f.sd == 0 && f.sb == 0 && f.scope == 0 && f.imm == 0 && w5 f.sa) true true (.adecl (wlo f.sa))
  | 1 => verdict (f.sd == 0 && f.sb == 0 && f.scope == 0 && f.imm == 0 && w5 f.sa) true true (.amerge (wlo f.sa))
  | 2 => verdict (f.sd == 0 && f.sa == 0 && f.sb == 0 && f.imm == 0) true (2 ≤ f.scope.toNat) (.rflush (Scope.ofCode f.scope))
  | _ => .illegal 2

/-- Copies and engine commands, major 0x3C (R64, R234, R284). Ranges by `wellFormed`; the fields marked
zero here. -/
def decodeCopy (f : FC) : Decoded :=
  let c : CArgs := { st := f.st, wd := f.wd, ws := f.ws, wx := f.wx, sc := Scope.ofCode f.scope, follow := f.follow,
                     mcast := f.mcast, imm := f.imm }
  let go (zero : Bool) (i : Instr) := verdict zero true i.wellFormed i
  let hi5 := f.imm.extractLsb' 5 11 == 0
  match f.fn.toNat with
  | 0 => go (f.wx == 0 && f.mcast == 0 && f.imm == 0) (.cpy c)
  | 1 => go (f.mcast == 0 && hi5) (.cpyt c)
  | 2 => go (f.follow == 0 && f.mcast == 0 && hi5) (.cpyg c)
  | 3 => go (f.follow == 0 && f.mcast == 0 && hi5) (.cpys c)
  | 4 => go (f.wx == 0 && f.follow == 0 && f.mcast == 0 && f.imm == 0) (.cpyf c)
  | 5 => go (f.wx == 0 && f.mcast.extractLsb' 6 2 == 0) (.cpym c)
  | 8 => go (f.wd == 0 && f.follow == 0 && f.mcast == 0 && f.imm.extractLsb' 9 7 == 0) (.sprog c)
  | 9 => go (f.follow == 0 && f.mcast == 0) (.srun c)
  | 10 => go (f.wx == 0 && f.follow == 0 && f.mcast == 0 && f.imm.extractLsb' 10 6 == 0) (.chase c)
  | _ => .illegal 2

/-- Synchronisation, groups and queues, major 0x3D (R65, R126, R129, R320). -/
def decodeSync (f : FS) : Decoded :=
  let sc := Scope.ofCode f.scope
  let dm := f.scope == 4 || f.scope == 5
  match f.fn.toNat with
  | 0 => verdict (f.sd == 0 && f.sa == 0 && f.sb == 0 && f.imm == 0) true true (.fence sc)
  | 1 => verdict (f.sb == 0) true true (.srel f.sd f.sa sc f.imm)
  | 2 => verdict (f.imm == 0) true true (.sacq f.sd f.sa f.sb sc)
  | 4 => verdict (f.sb == 0 && f.scope == 0) true true (.gjoin f.sd f.sa f.imm)
  | 5 => verdict (f.sb == 0 && f.scope == 0) true true (.gleave f.sd f.sa f.imm)
  | 6 => verdict (f.sb == 0) true dm (.gbar f.sd f.sa sc f.imm)
  | 8 => verdict (f.imm == 0) true dm (.qpush f.sd f.sa f.sb sc)
  | 9 => verdict (f.imm == 0) true dm (.qpop f.sd f.sa f.sb sc)
  | 10 =>
    let z := f.sb == 0 && f.imm.extractLsb' 1 30 == 0
    if f.imm.extractLsb' 0 1 == 0 then verdict z true dm (.qdrainWait f.sd f.sa sc)
    else verdict z true dm (.qdrainDiscard f.sd f.sa sc)
  | _ => .illegal 2

/-- System, traps, translation, log, major 0x3E (R65, R305, R306, R310, R372, R391 to R395). -/
def decodeSys (f : FS) : Decoded :=
  let sc := Scope.ofCode f.scope
  let nosc := f.scope == 0
  match f.fn.toNat with
  | 0 => verdict (f.sd == 0 && f.sa == 0 && f.sb == 0 && nosc) true (f.imm.toNat < 2 ^ 30) (.trap f.imm)
  | 1 => verdict (f.sd == 0 && f.sa == 0 && f.sb == 0 && nosc && f.imm.extractLsb' 1 30 == 0) true true
      (.eret (f.imm.extractLsb' 0 1 == 1))
  | 2 =>
    let z := f.sb == 0 && nosc && f.imm.extractLsb' 2 29 == 0
    match (f.imm.extractLsb' 0 2).toNat with
    | 0 => verdict z true true (.wfeWait f.sd f.sa)
    | 1 => verdict z true true (.wfeYield f.sd f.sa)
    | _ => if z then .illegal 5 else .illegal 3
  | 4 => verdict (nosc && f.imm == 0) true true (.wsave f.sd f.sa f.sb)
  | 5 => verdict (nosc && f.imm == 0) true true (.wrest f.sd f.sa f.sb)
  | 6 => verdict (f.sb == 0 && nosc && f.imm == 0) true true (.isave f.sd f.sa)
  | 7 => verdict (f.sb == 0 && nosc && f.imm == 0) true true (.irest f.sd f.sa)
  | 8 => verdict (f.imm == 0) true (f.scope == 4 || f.scope == 5) (.tlbinv f.sd f.sa f.sb sc)
  | 9 => verdict (f.sb == 0 && nosc && f.imm == 0) true true (.tlbprb f.sd f.sa)
  | 10 => verdict (f.imm == 0) true (f.scope == 5 || f.scope == 6) (.pmig f.sd f.sa f.sb sc)
  | 12 =>
    let z := f.sb == 0 && nosc && f.imm.extractLsb' 2 29 == 0
    match (f.imm.extractLsb' 0 2).toNat with
    | 0 => verdict z true true (.logctlStatus f.sd f.sa)
    | 1 => verdict z true true (.logctlPolicy f.sd f.sa)
    | 2 => verdict z true true (.logctlBudget f.sd f.sa)
    | _ => if z then .illegal 5 else .illegal 3
  | 13 => verdict (f.sb == 0 && nosc) true true (.logmark f.sd f.sa f.imm)
  | 14 => verdict (f.sa == 0 && f.sb == 0 && nosc && f.imm == 0) true true (.logsync f.sd)
  | _ => .illegal 2

/-- The instruction in word `x`; `k` is the word at the next address, read by `ldk` alone (R44, R58). -/
def decode (x k : Word) : Decoded :=
  let a := FA.unpack x
  match a.maj.toNat with
  | 0x00 => decodeAlu a
  | 0x01 =>
    if a.fn != 0 then .illegal 2
    else verdict (a.sa == 0 && a.sb == 0 && a.w == 0 && a.imm == 0) true true (.ldk a.sd k)
  | 0x02 => decodeBranch a
  | 0x03 => decodeCtl a
  | 0x04 => decodeLd a
  | 0x05 => decodeSt a
  | 0x06 => decodeAtom a .scas
  | 0x07 => decodeAtom a .samoAdd
  | 0x08 => decodeAtom a .samoAnd
  | 0x09 => decodeAtom a .samoOr
  | 0x0A => decodeAtom a .samoXor
  | 0x0B => decodeAtom a .samoMin
  | 0x0C => decodeAtom a .samoMax
  | 0x0D => decodeAtom a .samoMinn
  | 0x0E => decodeAtom a .samoMaxn
  | 0x0F => decodeAtom a .samoSwap
  | 0x10 => decodeWin a
  | 0x11 => decodeOwn a
  | 0x30 | 0x31 | 0x32 | 0x33 | 0x34 | 0x35 | 0x36 | 0x37 => decodeMat (FT.unpack x)
  | 0x38 => decodeAcc (FS.unpack x)
  | 0x3C => decodeCopy (FC.unpack x)
  | 0x3D => decodeSync (FS.unpack x)
  | 0x3E => decodeSys (FS.unpack x)
  | 0x3B | 0x3F => .illegal 1
  | _ => decodeVec (FV.unpack x)

/-- Whether the word is `ldk`, whose constant the front fetches as well (R44). -/
def isLdk (x : Word) : Bool := x.extractLsb' 58 6 == 1 && x.extractLsb' 52 6 == 0

/-- Little-endian bytes of a word (R1), lowest address first. -/
def wordBytes (n : Nat) (x : Nat) : List Byte :=
  (List.range n).map (fun i => BitVec.ofNat 8 (x >>> (8 * i)))

/-- The number that little-endian bytes hold (R1). -/
def bytesNat : List Byte → Nat
  | [] => 0
  | b :: bs => b.toNat + 256 * bytesNat bs

/-- What stands at the head of a list of bytes: an instruction with the bytes after it, or the reason why
there is none. -/
inductive Stream where
  | ok (i : Instr) (rest : List Byte)
  | illegal (reason : Nat)
  | short
  deriving DecidableEq, Repr

/-- Decoding of bytes: total, rejecting by name. -/
def decodeBytes (bs : List Byte) : Stream :=
  if bs.length < 8 then .short
  else
    let x : Word := BitVec.ofNat 64 (bytesNat (bs.take 8))
    if isLdk x && bs.length < 16 then .short
    else
      match decode x (BitVec.ofNat 64 (bytesNat ((bs.drop 8).take 8))) with
      | .ok i => .ok i (bs.drop (if isLdk x then 16 else 8))
      | .illegal r => .illegal r

/-- The instruction this decoder reads from an instruction whose bits are `w` (bit 0 the least significant
bit of the first word), every bit from `nbits` up being zero. -/
def decodeTableWord (nbits w : Nat) : Option Instr :=
  match decodeBytes (wordBytes 16 (w % 2 ^ nbits)) with
  | .ok i _ => some i
  | _ => none

/-! ### The encoder -/

def bit1 (b : Bool) : BitVec 1 := if b then 1 else 0

/-- A window number in a register field (R60): bit 5 zero. -/
def wreg (w : WReg) : BitVec 6 := (0 : BitVec 1) ++ w

def encAlu (op : BitVec 5) (w : Width) (sd sa : SReg) (b : AluB) : Word :=
  match b with
  | .reg r => FA.pack { maj := 0x00, fn := (0 : BitVec 1) ++ op, sd := sd, sa := sa, sb := r, w := w.code, imm := 0 }
  | .imm i => FA.pack { maj := 0x00, fn := (1 : BitVec 1) ++ op, sd := sd, sa := sa, sb := 0, w := w.code, imm := i }

def encFA (maj fn : BitVec 6) (sd sa sb : SReg) (w : BitVec 2) (imm : BitVec 32) : Word :=
  FA.pack { maj := maj, fn := fn, sd := sd, sa := sa, sb := sb, w := w, imm := imm }

def encFM (maj : BitVec 6) (sg : Bool) (o : MemOrder) (sc : Scope) (sd sa sb : SReg) (w : Width) (imm : BitVec 32) : Word :=
  encFA maj (bit1 sg ++ o.code ++ sc.code) sd sa sb w.code imm

def encAtom (maj : BitVec 6) (a : AtomArgs) : Word := encFM maj a.sg a.ord a.sc a.sd a.sa a.sb a.w a.off

/-- A vector word; `sel` is what WC holds, `imm` what IMM16 holds. -/
def encV (maj : BitVec 6) (sel : BitVec 5) (imm : BitVec 16) (v : VArgs) : Word :=
  FV.pack { maj := maj, fb := bit1 v.sb, fn := v.fmt.code, wd := v.wd, wa := v.wa, wb := v.wb, wc := sel, wm := v.wm,
            rm := v.rm.code, sat := bit1 v.sat, amod := v.amod.code, fill := bit1 v.fill, gsz := v.gsz, imm := imm }

def encVamo (sel : BitVec 5) (v : VArgs) (o : MemOrder) (sc : Scope) : Word :=
  encV 0x3A sel ((0 : BitVec 11) ++ sc.code ++ o.code) v

def encMat (maj fn : BitVec 6) (wd wa wb : WReg) (pair : Bool) (wm : WReg) (rm : BitVec 3) (kb : BitVec 16) : Word :=
  FT.pack { maj := maj, fn := fn, wd := wd, wa := wa, wb := wb, pair := bit1 pair, z1 := 0, wm := wm, rm := rm, sat := 0, z2 := 0, kb := kb }

def encC (fn : BitVec 6) (c : CArgs) : Word :=
  FC.pack { maj := 0x3C, fn := fn, st := c.st, wd := c.wd, ws := c.ws, wx := c.wx, scope := c.sc.code, follow := c.follow,
            mcast := c.mcast, imm := c.imm }

def encS (maj fn : BitVec 6) (sd sa sb : SReg) (sc : BitVec 3) (imm : BitVec 31) : Word :=
  FS.pack { maj := maj, fn := fn, sd := sd, sa := sa, sb := sb, scope := sc, imm := imm }

/-- The words of an instruction (R43 to R65): one, or two for `ldk`. An event has none. -/
def encode : Instr → List Word
  | .add w sd sa b => [encAlu 1 w sd sa b]
  | .sub_ w sd sa b => [encAlu 2 w sd sa b]
  | .mul w sd sa b => [encAlu 3 w sd sa b]
  | .mulh w sd sa b => [encAlu 4 w sd sa b]
  | .mulhn w sd sa b => [encAlu 5 w sd sa b]
  | .div w sd sa b => [encAlu 6 w sd sa b]
  | .divn w sd sa b => [encAlu 7 w sd sa b]
  | .rem w sd sa b => [encAlu 8 w sd sa b]
  | .remn w sd sa b => [encAlu 9 w sd sa b]
  | .and_ w sd sa b => [encAlu 10 w sd sa b]
  | .or_ w sd sa b => [encAlu 11 w sd sa b]
  | .xor_ w sd sa b => [encAlu 12 w sd sa b]
  | .andn w sd sa b => [encAlu 13 w sd sa b]
  | .sll w sd sa b => [encAlu 14 w sd sa b]
  | .srl w sd sa b => [encAlu 15 w sd sa b]
  | .sra w sd sa b => [encAlu 16 w sd sa b]
  | .slt w sd sa b => [encAlu 17 w sd sa b]
  | .sltn w sd sa b => [encAlu 18 w sd sa b]
  | .min_ w sd sa b => [encAlu 19 w sd sa b]
  | .max_ w sd sa b => [encAlu 20 w sd sa b]
  | .minn w sd sa b => [encAlu 21 w sd sa b]
  | .maxn w sd sa b => [encAlu 22 w sd sa b]
  | .clz w sd sa => [encAlu 23 w sd sa (.reg 0)]
  | .ctz w sd sa => [encAlu 24 w sd sa (.reg 0)]
  | .popc w sd sa => [encAlu 25 w sd sa (.reg 0)]
  | .sext w sd sa => [encAlu 26 w sd sa (.reg 0)]
  | .zext w sd sa => [encAlu 27 w sd sa (.reg 0)]
  | .ldk sd k => [encFA 0x01 0 sd 0 0 0 0, k]
  | .ld sg o sc w sd sa off => [encFM 0x04 sg o sc sd sa 0 w off]
  | .st o sc w sb sa off => [encFM 0x05 false o sc 0 sa sb w off]
  | .scas a => [encAtom 0x06 a]
  | .samoAdd a => [encAtom 7 a]
  | .samoAnd a => [encAtom 8 a]
  | .samoOr a => [encAtom 9 a]
  | .samoXor a => [encAtom 10 a]
  | .samoMin a => [encAtom 11 a]
  | .samoMax a => [encAtom 12 a]
  | .samoMinn a => [encAtom 13 a]
  | .samoMaxn a => [encAtom 14 a]
  | .samoSwap a => [encAtom 15 a]
  | .beq sa sb off => [encFA 0x02 0 0 sa sb 0 off]
  | .bne sa sb off => [encFA 0x02 1 0 sa sb 0 off]
  | .blt sa sb off => [encFA 0x02 2 0 sa sb 0 off]
  | .bge sa sb off => [encFA 0x02 3 0 sa sb 0 off]
  | .bltn sa sb off => [encFA 0x02 4 0 sa sb 0 off]
  | .bgen sa sb off => [encFA 0x02 5 0 sa sb 0 off]
  | .jal sd off => [encFA 0x03 0 sd 0 0 0 off]
  | .jalr sd sa imm => [encFA 0x03 1 sd sa 0 0 imm]
  | .wait imm => [encFA 0x03 2 0 0 0 0 imm]
  | .halt => [encFA 0x03 3 0 0 0 0 0]
  | .nop => [encFA 0x03 4 0 0 0 0 0]
  | .csrr sd c => [encFA 0x03 8 sd 0 0 0 (c.setWidth 32)]
  | .csrw sd sa c => [encFA 0x03 9 sd sa 0 0 (c.setWidth 32)]
  | .csrs sd sa c => [encFA 0x03 10 sd sa 0 0 (c.setWidth 32)]
  | .csrc sd sa c => [encFA 0x03 11 sd sa 0 0 (c.setWidth 32)]
  | .wset wd sa sb => [encFA 0x10 0x00 (wreg wd) sa sb 0 0]
  | .wget sd wa h => [encFA 0x10 0x01 sd (wreg wa) 0 0 (if h then 1 else 0)]
  | .wcpy wd wa => [encFA 0x10 0x02 (wreg wd) (wreg wa) 0 0 0]
  | .setvl sd sa f b => [encFA 0x10 0x03 sd sa 0 0 ((0 : BitVec 21) ++ b.code ++ (0 : BitVec 3) ++ f.code)]
  | .strip sa sb off => [encFA 0x10 0x04 0 sa sb 0 off]
  | .bany wa off => [encFA 0x10 8 0 (wreg wa) 0 0 off]
  | .ball wa off => [encFA 0x10 9 0 (wreg wa) 0 0 off]
  | .bnone wa off => [encFA 0x10 10 0 (wreg wa) 0 0 off]
  | .ownq sd sa m => [encFA 0x11 0 sd sa 0 0 ((0 : BitVec 28) ++ m)]
  | .vadd v => [encV 0x12 0 v.imm v]
  | .vsub v => [encV 0x13 0 v.imm v]
  | .vmul v => [encV 0x14 0 v.imm v]
  | .vfma v => [encV 0x15 v.wc v.imm v]
  | .vfms v => [encV 0x16 v.wc v.imm v]
  | .vfnma v => [encV 0x17 v.wc v.imm v]
  | .vmin v => [encV 0x18 0 v.imm v]
  | .vmax v => [encV 0x19 0 v.imm v]
  | .vabs v => [encV 0x1A 0 v.imm v]
  | .vneg v => [encV 0x1A 1 v.imm v]
  | .vrcp v => [encV 0x1A 2 v.imm v]
  | .vrsq v => [encV 0x1A 3 v.imm v]
  | .vexp2 v => [encV 0x1A 4 v.imm v]
  | .vlog2 v => [encV 0x1A 5 v.imm v]
  | .vand v => [encV 0x1B 0 v.imm v]
  | .vor v => [encV 0x1B 1 v.imm v]
  | .vxor v => [encV 0x1B 2 v.imm v]
  | .vnot v => [encV 0x1B 3 v.imm v]
  | .vsll v => [encV 0x1C 0 v.imm v]
  | .vsrl v => [encV 0x1C 1 v.imm v]
  | .vsra v => [encV 0x1C 2 v.imm v]
  | .vceq v => [encV 0x1D 0 v.imm v]
  | .vcne v => [encV 0x1D 1 v.imm v]
  | .vclt v => [encV 0x1D 2 v.imm v]
  | .vcle v => [encV 0x1D 3 v.imm v]
  | .vsel v => [encV 0x1E v.wc v.imm v]
  | .vmov v => [encV 0x20 0 v.imm v]
  | .vfill v => [encV 0x21 0 v.imm v]
  | .viota v => [encV 0x22 0 v.imm v]
  | .vredAdd v => [encV 0x23 0 v.imm v]
  | .vredMax v => [encV 0x23 1 v.imm v]
  | .vredMin v => [encV 0x23 2 v.imm v]
  | .vscanAdd v => [encV 0x24 0 v.imm v]
  | .vscanMax v => [encV 0x24 1 v.imm v]
  | .vscanMin v => [encV 0x24 2 v.imm v]
  | .vgather v => [encV 0x25 0 v.imm v]
  | .vscatter v => [encV 0x26 0 v.imm v]
  | .vcompact v => [encV 0x27 v.wc v.imm v]
  | .vexpand v => [encV 0x28 v.wc v.imm v]
  | .lanex v => [encV 0x29 0 v.imm v]
  | .vacc v => [encV 0x39 0 v.imm v]
  | .vcvt s v => [encV 0x1F s.code v.imm v]
  | .vamoAdd v o sc => [encVamo 0 v o sc]
  | .vamoAnd v o sc => [encVamo 1 v o sc]
  | .vamoOr v o sc => [encVamo 2 v o sc]
  | .vamoXor v o sc => [encVamo 3 v o sc]
  | .vamoMin v o sc => [encVamo 4 v o sc]
  | .vamoMax v o sc => [encVamo 5 v o sc]
  | .vamoMinn v o sc => [encVamo 6 v o sc]
  | .vamoMaxn v o sc => [encVamo 7 v o sc]
  | .vamoSwap v o sc => [encVamo 8 v o sc]
  | .mload f wb p kb => [encMat 0x30 ((0 : BitVec 1) ++ f.code) 0 0 wb p 0 0 kb]
  | .mswap p => [encMat 0x31 0 0 0 0 p 0 0 0]
  | .mma m => [encMat 0x32 ((0 : BitVec 1) ++ m.fmt.code) m.wd m.wa m.wb m.pair m.wm m.rm.code m.kb]
  | .mrecast p h => [encMat 0x33 0 0 0 0 p 0 0 ((0 : BitVec 15) ++ bit1 h)]
  | .minval p h => [encMat 0x34 0 0 0 0 p 0 0 ((0 : BitVec 15) ++ bit1 h)]
  | .adecl wa => [encS 0x38 0 0 (wreg wa) 0 0 0]
  | .amerge wa => [encS 0x38 1 0 (wreg wa) 0 0 0]
  | .rflush sc => [encS 0x38 2 0 0 0 sc.code 0]
  | .cpy c => [encC 0 c]
  | .cpyt c => [encC 1 c]
  | .cpyg c => [encC 2 c]
  | .cpys c => [encC 3 c]
  | .cpyf c => [encC 4 c]
  | .cpym c => [encC 5 c]
  | .sprog c => [encC 8 c]
  | .srun c => [encC 9 c]
  | .chase c => [encC 10 c]
  | .fence sc => [encS 0x3D 0 0 0 0 sc.code 0]
  | .srel sd sa sc i => [encS 0x3D 1 sd sa 0 sc.code i]
  | .sacq sd sa sb sc => [encS 0x3D 2 sd sa sb sc.code 0]
  | .gjoin sd sa i => [encS 0x3D 4 sd sa 0 0 i]
  | .gleave sd sa i => [encS 0x3D 5 sd sa 0 0 i]
  | .gbar sd sa sc i => [encS 0x3D 6 sd sa 0 sc.code i]
  | .qpush sd sa sb sc => [encS 0x3D 8 sd sa sb sc.code 0]
  | .qpop sd sa sb sc => [encS 0x3D 9 sd sa sb sc.code 0]
  | .qdrainWait sd sa sc => [encS 0x3D 10 sd sa 0 sc.code 0]
  | .qdrainDiscard sd sa sc => [encS 0x3D 10 sd sa 0 sc.code 1]
  | .trap i => [encS 0x3E 0 0 0 0 0 i]
  | .eret q => [encS 0x3E 1 0 0 0 0 ((0 : BitVec 30) ++ bit1 q)]
  | .wfeWait sd sa => [encS 0x3E 2 sd sa 0 0 0]
  | .wfeYield sd sa => [encS 0x3E 2 sd sa 0 0 1]
  | .wsave sd sa sb => [encS 0x3E 4 sd sa sb 0 0]
  | .wrest sd sa sb => [encS 0x3E 5 sd sa sb 0 0]
  | .isave sd sa => [encS 0x3E 6 sd sa 0 0 0]
  | .irest sd sa => [encS 0x3E 7 sd sa 0 0 0]
  | .tlbinv sd sa sb sc => [encS 0x3E 8 sd sa sb sc.code 0]
  | .tlbprb sd sa => [encS 0x3E 9 sd sa 0 0 0]
  | .pmig sd sa sb sc => [encS 0x3E 10 sd sa sb sc.code 0]
  | .logctlStatus sd sa => [encS 0x3E 12 sd sa 0 0 0]
  | .logctlPolicy sd sa => [encS 0x3E 12 sd sa 0 0 1]
  | .logctlBudget sd sa => [encS 0x3E 12 sd sa 0 0 2]
  | .logmark sd sa i => [encS 0x3E 13 sd sa 0 0 i]
  | .logsync sd => [encS 0x3E 14 sd 0 0 0 0]
  | .lqtailWrite _ _ => []
  | .lqcfgWrite _ _ => []
  | .launchRecord _ => []
  | .placeLaunch _ => []
  | .terminateLaunch _ => []
  | .pretmoExpiry _ => []
  | .timeSlice => []
  | .streamResume _ => []
  | .bankBeginBroadcast _ _ => []
  | .bankRetire _ _ => []
  | .floorDelivery _ => []
  | .treeResultReturn _ => []
  | .pullRequest _ _ => []
  | .pullReply _ _ => []
  | .pullResend _ _ => []
  | .scalarAccess _ _ => []
  | .scalarReply _ _ => []
  | .subbankDrowsy _ _ => []
  | .preciseStop _ => []
  | .interruptTaken _ => []
  | .hostint _ => []
  | .dieReset _ => []
  | .copySector _ _ => []
  | .copyWritePerform _ _ => []
  | .followOnAction _ _ => []
  | .actionReserve _ _ => []
  | .tokenWrite _ _ => []
  | .srunStart _ _ _ => []
  | .srunEnd _ _ _ => []
  | .chaseHop _ _ => []
  | .accumMessage _ => []
  | .accumAnswer _ => []
  | .residualIdleExpiry _ _ => []
  | .quotaInterval _ => []
  | .hintActivate _ => []
  | .hintRowClose _ _ => []
  | .refreshDue _ _ _ => []
  | .selfRefreshEntry _ _ => []
  | .selfRefreshExit _ => []
  | .layerFailure _ _ => []
  | .srmret _ _ => []
  | .pageWalk _ _ _ _ => []
  | .shootdownReceive _ _ _ _ => []
  | .prmctlGo _ _ => []
  | .promotionDone _ => []
  | .logRecord _ => []
  | .logTailPoll _ => []
  | .replayConsume _ => []
  | .replayHeadPoll _ => []
  | .replayBudgetExpiry _ => []
  | .flitReceive _ _ _ _ _ => []
  | .flitResend _ _ => []
  | .tokenPass _ _ _ _ => []
  | .governorLevel _ _ => []
  | .emptyFlit _ _ => []
  | .fibrePark _ => []
  | .fibreWake _ => []
  | .wakeLock _ _ => []
  | .bar2Access _ _ _ _ _ => []
  | .hostMemoryCompletion _ _ _ => []
  | .attestation _ _ _ => []
  | .attestTimeout _ _ => []
  | .keyRollover _ => []
  | .keyErase _ => []
  | .lkrekey _ => []
  | .peerAttestation _ _ => []
  | .debugHalt _ => []
  | .debugResume _ => []
  | .debugStep _ => []
  | .debugReadRegister _ => []
  | .debugWriteRegister _ => []
  | .debugReadMemory _ => []
  | .debugWriteMemory _ => []
  | .debugForward _ => []
  | .debugPeerTimeout _ => []
  | .traceRecord _ _ _ _ => []
  | .stallReport _ _ _ _ _ _ => []
  | .bringUp _ _ _ _ => []
  | .memgo => []
  | .memgoTimeout => []
  | .unitRepair _ _ => []
  | .spareRepair _ _ => []
  | .hubFailover => []
  | .throttle _ _ _ => []
  | .trip _ _ _ => []
  | .updctlGo _ => []
  | .registerWrite _ _ _ => []
  | .powerLoss _ _ => []
  | .peerReset _ => []
  | .debugPeerReply _ _ _ _ => []
  | .imageStaged _ _ _ => []

/-- The bytes of an instruction in memory (R43). -/
def Instr.bytes (i : Instr) : List Byte := (encode i).flatMap (fun w => wordBytes 8 w.toNat)

/-- Bytes an instruction takes: 16 for `ldk`, 8 for the others (R43, R44). -/
def Instr.size : Instr → Nat
  | .ldk _ _ => 16
  | _ => 8

/-! ### Fields of a flit's header and tag (R406, R424) -/

def Flit.head (f : Flit) : BitVec 128 := f.fields ++ f.route
def Flit.cls (f : Flit) : BitVec 3 := f.route.extractLsb' 0 3
def Flit.kph (f : Flit) : Bool := f.route.getLsbD 3
def Flit.dst (f : Flit) : BitVec 8 := f.route.extractLsb' 4 8
def Flit.src (f : Flit) : BitVec 8 := f.route.extractLsb' 12 8
def Flit.left (f : Flit) : BitVec 5 := f.route.extractLsb' 20 5
def Flit.seq (f : Flit) : BitVec 16 := f.route.extractLsb' 25 16
def Flit.opn (f : Flit) : BitVec 7 := f.route.extractLsb' 41 7
def Flit.ctr (f : Flit) : BitVec 32 := f.tag.extractLsb' 96 32

end Sys2Proof
end

