-- ==== Sys2Proof/Machine/State.lean ====
section
/-! DEFINITION. The state of one YV880 module, as plain data: the streams with their fronts, bank units,
copy engines, stacks, homes, logs, links and management, and memory. Every register has a value at reset. -/

namespace Sys2Proof.Machine

/-! ### Memory -/

/-- Key of a byte of memory: the classes of R299 stand side by side in one space. Stack memory is keyed by
its physical address (below 2^40), host memory by 2^52 + address, bank memory by 2^53 + 2^18 × bank +
local offset, peer memory by 2^54 + 2^52 × peer + address. -/
abbrev Key := Nat

/-- What a byte reads as that nothing has written: zero. Bring-up writes zero to every byte of bank and
stack memory (R437); for host and peer memory the manual gives none (DESIGN CHOICE, log entry 2). -/
def Memory.unlisted : Byte := 0

/-- Memory: the bytes that differ from `Memory.unlisted`, keys strictly rising. -/
abbrev Memory := List Host.Cell

/-- The canonical form of memory. -/
def Memory.wf : Memory → Bool
  | [] => true
  | [c] => c.2 != Memory.unlisted
  | c :: d :: r => c.2 != Memory.unlisted && c.1 < d.1 && Memory.wf (d :: r)

/-! ### Control and status registers of a stream -/

/-- One race tag (R330): writer and two readers as (slot, interval), interval 0 marking an empty entry. -/
structure RaceTag where
  sector : Nat
  wSlot : BitVec 8
  wIvl : BitVec 16
  aSlot : BitVec 8
  aIvl : BitVec 16
  bSlot : BitVec 8
  bIvl : BitVec 16
  ovf : Bool
  deriving DecidableEq, Repr

/-- A watchpoint (R399). -/
structure Watch where
  base : BitVec 56
  len : BitVec 12
  bmask : BitVec 8
  deriving DecidableEq, Repr

/-- What WPCTL, WPB and WPM hold (R399): watchpoints enabled, those that reads and that writes hit, their ranges. -/
structure Watches where
  en : BitVec 8
  rd : BitVec 8
  wr : BitVec 8
  wp : Vector Watch 8
  deriving DecidableEq, Repr

/-- No watchpoint enabled. -/
def Watches.none_ : Watches := { en := 0, rd := 0, wr := 0, wp := Vector.replicate 8 { base := 0, len := 0, bmask := 0xFF } }

/-- The registers of R66 that are not derived from other state. -/
structure Csrs where
  /-- VL, VFMT, VBLK, VPAD (R168). -/
  vl : BitVec 17
  vfmt : BitVec 5
  vblk : BitVec 8
  vpad : BitVec 7
  /-- ESTART (R382). -/
  estart : BitVec 32
  /-- ISN, FLOOR, SKEW (R190). -/
  isn : BitVec 48
  floor : BitVec 48
  skew : BitVec 7
  /-- SHARE (R116). -/
  share : BitVec 8
  prio : BitVec 3
  /-- CTAG.NEXT (R249). -/
  ctag : BitVec 16
  /-- WDIRTY and WPRES, bit 0 zero (R382). -/
  wdirty : BitVec 32
  wpres : BitVec 32
  /-- RNDS.RM, RNDS.FTZ, SEED, FFLAGS (R96 to R98). -/
  rm : BitVec 3
  ftz : Bool
  seed : Word
  fflags : BitVec 6
  /-- RACE.EN, SAT, IVL, LOST (R328). -/
  raceEn : Bool
  raceSat : Bool
  ivl : BitVec 16
  lost : BitVec 16
  /-- TCAUSE (R382). -/
  cause : BitVec 8
  int : Bool
  mode : Bool
  pmode : Bool
  ie : Bool
  pie : Bool
  /-- TPC, TISN, TELEM, TADDR, TINFO, TVEC, TCTX (R382). -/
  tpc : Word
  tisn : BitVec 48
  telem : BitVec 32
  taddr : Word
  tinfo : BitVec 63
  disc : Bool
  tvec : BitVec 53
  tctx : Word
  /-- WPCTL.EN, RD, WR and WPB/WPM 0 to 7 (R399). -/
  wpEn : BitVec 8
  wpRd : BitVec 8
  wpWr : BitVec 8
  wp : Vector Watch 8
  /-- STALLC.EN, TRC, IDX, WORD (R435). -/
  stallEn : Bool
  stallTrc : Bool
  stallIdx : BitVec 5
  stallWord : BitVec 2
  deriving DecidableEq, Repr

/-- The reset values of the registers (R96 to R98, R168, R190, R249, R328, R382, R399, R435). SHARE and
PRIO come from the launch record; before one they are zero (log entry 1). -/
def Csrs.reset : Csrs where
  vl := 0
  vfmt := 0
  vblk := 1
  vpad := 0
  estart := 0
  isn := 0
  floor := 0
  skew := 16
  share := 0
  prio := 0
  ctag := 0
  wdirty := 0
  wpres := 0xFFFFFFFE
  rm := 0
  ftz := false
  seed := 0
  fflags := 0
  raceEn := false
  raceSat := false
  ivl := 1
  lost := 0
  cause := 0
  int := false
  mode := false
  pmode := false
  ie := true
  pie := false
  tpc := 0
  tisn := 0
  telem := 0
  taddr := 0
  tinfo := 0
  disc := false
  tvec := 0
  tctx := 0
  wpEn := 0
  wpRd := 0
  wpWr := 0
  wp := Vector.replicate 8 { base := 0, len := 0, bmask := 0xFF }
  stallEn := false
  stallTrc := false
  stallIdx := 0
  stallWord := 0

/-! ### Work of a stream that has left the front -/

/-- What stops an instruction: the fields trap entry writes (R383, R387). -/
structure TrapInfo where
  cause : BitVec 8
  int : Bool
  tinfo : BitVec 63
  elem : Nat
  addr : Word
  deriving DecidableEq, Repr

/-- The state a broadcast carries from issue (R57, R99, R160), as an `isave` entry lays it out (R393). -/
structure Carry where
  seed : Word
  vl : BitVec 17
  vfmt : BitVec 5
  vpad : BitVec 7
  vblk : BitVec 8
  skew : BitVec 7
  rm : BitVec 3
  ftz : Bool
  share : BitVec 8
  scalarB : Word
  /-- WD, WA, WB, WC, WM, then IDX and SCL windows of WD, WA, WB, WC in that order. -/
  descs : Vector Desc 13
  deriving DecidableEq, Repr

/-- A broadcast: its word, its ISN, what it carries, and the address it issued from. -/
structure Bcast where
  word : Word
  isn : Nat
  carry : Carry
  pc : Word
  /-- First element to perform (ESTART for a restarted entry). -/
  estart : Nat
  /-- Flags raised so far (R99), entering FFLAGS when the floor reaches the instruction. -/
  flags : BitVec 6
  /-- Values of leaves already formed for the combining tree: (element, value) (R224, R179). -/
  leaves : List (Nat × Nat)
  /-- The clock vector it is checked against, as at its issue; none when EN was 0 then (R328, R329). -/
  race : Option (List (Nat × Nat))
  /-- The watchpoints it is checked against, as at its issue or reissue (R399). -/
  watch : Watches := Watches.none_
  deriving DecidableEq, Repr

/-- A bank or engine at work on a broadcast it has begun (R188): the elements it has still to perform, and
the sectors its pulls have brought, each with its race tag as its owner returned it (R192, R330). `own` is a module-wide bank number, or 8,192 + pseudo-channel. -/
structure Work where
  own : Nat
  isn : Nat
  todo : List Nat
  bufs : List (Nat × List Byte × RaceTag)
  deriving DecidableEq, Repr

/-- Where a pull stands (R193, R194): a refusal carries the last ISN the owner had retired. -/
inductive PullPhase where
  | sent
  | parked
  | refused (retired : Nat)
  | replied (bytes : List Byte) (tag : RaceTag)
  deriving DecidableEq, Repr

/-- The owner has served the pull. -/
def PullPhase.served : PullPhase → Bool
  | .replied _ _ => true
  | _ => false

/-- A pull (R192, R194): owner, requester with its instruction and element, sector with the bytes [lo, hi) wanted of
it, the page through which the requester has translated it, stamp, and age, which a resent pull keeps. -/
structure Pull where
  own : Nat
  from_ : Nat
  isn : Nat
  elem : Nat
  sector : Nat
  lo : Nat
  hi : Nat
  base : Nat
  bits : Nat
  stamp : Nat
  age : Nat
  phase : PullPhase
  deriving DecidableEq, Repr

/-- A shelf entry (R196): the pre-image of a 32-byte sector under an ISN, with the numbers of its uncorrectable
words (R204). `action` marks an entry kept for a follow-on action (R266). -/
structure Shelf where
  own : Nat
  sid : BitVec 16
  sector : Nat
  isn : Nat
  bytes : List Byte
  bad : List Nat
  action : Bool
  deriving DecidableEq, Repr

/-- The last instruction an owner has retired for the stream, and the floor last delivered to it
(R188, R189). Owners not listed have retired the floor of the front. -/
structure Progress where
  own : Nat
  retired : Nat
  floor : Nat
  deriving DecidableEq, Repr

/-- Kinds of scalar access that can be outstanding (R142). -/
inductive AccKind where
  | load (sg : Bool) (sd : SReg)
  | store
  | atom (sg : Bool) (sd : SReg)
  /-- An `srel` in flight: `data` is what it adds to FLAG (R321). -/
  | rel (sd : SReg)
  deriving DecidableEq, Repr

/-- A scalar access that has left the front (R138, R142): key, width in bytes, data, stamp; `done` holds
the value to return once it is performed. -/
structure Access where
  kind : AccKind
  va : Word
  key : Key
  size : Nat
  data : Word
  stamp : Nat
  pc : Word
  done : Option Word
  /-- Bytes a performed store wrote above the floor, kept for a rollback (R385), and whether the front has
  its acknowledgement. -/
  wrote : List Host.Cell
  acked : Bool
  /-- The clock that an `srel` in flight carries; none under EN = 0 (R321). -/
  clock : Option (List (Nat × Nat)) := none
  /-- How many instructions the front had gone past when it sent the access (R136). -/
  order : Nat := 0
  /-- log2 of the size of the page through which the front has translated it (R308). -/
  bits : Nat := 14
  deriving DecidableEq, Repr

/-- A range of bytes [lo, hi) of virtual addresses; a footprint is a list of them (R237). -/
structure Range where
  lo : Nat
  hi : Nat
  deriving DecidableEq, Repr

/-- Progress of one pseudo-channel's run (R288). -/
structure Run where
  pc : Nat
  rank : Nat
  outs : List (Nat × BitVec 32)
  flags : BitVec 6
  started : Bool
  fault : Option (Nat × TrapInfo)
  deriving DecidableEq, Repr

/-- Progress of one chase (R291). `agent` translates the next address: the copy engine, then the badger slice of the
pseudo-channel that held the sector before. -/
structure Chase where
  idx : Nat
  hop : Nat
  addr : Word
  live : Bool
  agent : Nat
  deriving DecidableEq, Repr

/-- State of a plane slot as the front keeps it (R258). -/
inductive SlotState where
  | empty | valid | invalid
  deriving DecidableEq, Repr

/-- Cast record of a slot (R258): panel, output window and scale window descriptors, weight format, KB. -/
structure CastRec where
  wb : Desc
  out : Desc
  scl : Desc
  fmt : Fmt
  kb : Nat
  deriving DecidableEq, Repr

/-- mma record (R258). -/
structure MmaRec where
  carry : Carry
  fmt : Fmt
  wm : Bool
  rm : Rm
  kb : Nat
  deriving DecidableEq, Repr

/-- The front's records of a pair (R258): slot 0 is active, slot 1 the shadow. -/
structure PairRec where
  act : Option CastRec
  shd : Option CastRec
  actSt : SlotState
  shdSt : SlotState
  mma : Option MmaRec
  deriving DecidableEq, Repr

/-- Contents of a plane slot in a bank (R258, R262): the column, and the weights as exact dyadic values
(numerator, exponent), `none` for NaN and infinities kept by class code. -/
structure PlaneSlot where
  bank : Nat
  col : Nat
  wts : List Word
  scl : List Word
  deriving DecidableEq, Repr

/-- Bytes that a command writes at a virtual address, with their place in its sector order (R244, R289, R291). -/
structure CopyWrite where
  ord : Nat
  va : Word
  bytes : List Byte
  deriving DecidableEq, Repr

/-- A copy-class command in its slot (R233, R241, R244). -/
structure Cmd where
  slot : Nat
  word : Word
  pc : Word
  tok : SReg
  tag : BitVec 16
  stamp : Nat
  shared : Bool
  carry : Carry
  /-- The clock vector it is checked against, as at its issue; none when EN was 0 then (R328, R329). -/
  race : Option (List (Nat × Nat))
  /-- The watchpoints its writes are checked against, as at its issue (R399). -/
  watch : Watches := Watches.none_
  fill : Word
  mask : BitVec 128
  srcs : List Range
  dsts : List Range
  /-- Next element (in `cpym`, counted through the replicas). -/
  next : Nat
  /-- Destination sectors touched so far, in the command's order, by virtual sector. -/
  sectors : List Nat
  /-- Writes still to perform, in the sector order: each waits until its owner has retired the stamp. -/
  held : List CopyWrite
  readDone : Bool
  finished : Bool
  status : BitVec 6
  fault : Bool
  count : Nat
  flags : BitVec 6
  runs : List Run
  chases : List Chase
  /-- Records as this command's action will leave them (R258); `cancelled` when an earlier action failed. -/
  proj : Option PairRec
  cancelled : Bool
  reserved : Bool
  deriving DecidableEq, Repr

/-- A declared accumulation window (R346). -/
structure AccDecl where
  desc : Desc
  len : Nat
  deriving DecidableEq, Repr

/-- An entry of the stall pair table (R436). -/
structure StallPair where
  cpc : Word
  ppc : Word
  cycles : Nat
  lag : BitVec 32
  waits : BitVec 32
  deriving DecidableEq, Repr

/-- Pull waits of one agent that it has not yet reported to the front (R436): consumer and producer PC, the largest lag,
and the waits counted. -/
structure Charge where
  own : Nat
  cpc : Word
  ppc : Word
  lag : BitVec 32
  waits : BitVec 32
  deriving DecidableEq, Repr

/-- An ownership map of a domain (R109, R180). -/
structure OwnMap where
  id : BitVec 4
  origin : Word
  gran : BitVec 8
  stripe : List (BitVec 16)
  deriving DecidableEq, Repr

/-- How far a debugger lets a stream run: freely, for one instruction, or until the floor reaches an ISN
(R431). -/
inductive DebugRun where
  | free
  | one
  | land (n : Nat)
  deriving DecidableEq, Repr

/-- How far a `tlbinv` or `pmig` at the pc has got: none is there; it waits to begin; its shoot-down is out (R307,
R311). A `logsync` that waits counts too: a stop waits for each of them (R375). -/
inductive TlbOp where
  | none
  | waiting
  | sent
  deriving DecidableEq, Repr

/-- Whether a stream runs, has been switched out, or is none at all. -/
inductive Status where
  | idle | running | out
  deriving DecidableEq, Repr

/-- One stream: its sequencer front (R14), its place (R116), and its work under way. -/
structure Front where
  status : Status
  s : Vector Word 64
  w : Vector Desc 32
  pc : Word
  csr : Csrs
  /-- SID, LIDX, LCNT, CELL, SEQ and DOM (R116). -/
  sid : BitVec 16
  lidx : BitVec 4
  lcnt : BitVec 4
  cell : BitVec 7
  seq : Bool
  domBase : BitVec 7
  domLog : BitVec 3
  plane : Bool
  pair : Bool
  domId : BitVec 16
  maps : List OwnMap
  grps : Vector (BitVec 16) 4
  /-- The launch (by first SID) and its queue. -/
  launch : BitVec 16
  /-- LQPT, LQSAVE, LQPASID as taken at placement (R295, R381, R417). -/
  asid : BitVec 12
  root : BitVec 36
  rclass : Bool
  simg : BitVec 56
  pasid : BitVec 20
  pen : Bool
  link : Bool
  /-- Log context (R355): LOGID and mode 0 off, 1 record, 2 replay. -/
  logMode : BitVec 2
  logId : BitVec 16
  /-- Nonzero entries of the clock vector V (R329): (slot, interval). -/
  clock : List (Nat × Nat)
  /-- Cached instruction words: (virtual address, word) (R137). -/
  icache : List (Nat × Word)
  /-- Broadcasts issued and above the floor, in ISN order. -/
  bcasts : List Bcast
  works : List Work
  pulls : List Pull
  progress : List Progress
  /-- A fault a bank has found, the lowest so far (R211): ISN and what it is. -/
  found : Option (Nat × TrapInfo)
  /-- The issue queue of a stop (R385). -/
  queue : List Bcast
  /-- Flags the banks hold of the first queued instruction while the queue is in memory (R99, R393). -/
  heldFlags : BitVec 6
  /-- In a stop window (R387); resumed since the last trap entry (R392). -/
  stopWin : Bool
  resumed : Bool
  /-- The front instruction at TPC is exempt from watchpoints (R392). -/
  exempt : Bool
  /-- The ISN of the reissued broadcast whose element at ESTART is exempt from watchpoints and goes before any
  interrupt (R392). -/
  exemptAt : Option Nat
  /-- Instructions the front has gone past: the retire window counts by it (R136). -/
  issued : Nat
  /-- Interrupts: PPRE, PHOST with its message, imprecise WATCH (R388, R401). -/
  ppre : Bool
  phost : Option (BitVec 16)
  pwatch : Option TrapInfo
  /-- A die of the domain was reset while the stream was away (R398). -/
  pdie : Option (BitVec 3)
  /-- Switched out by the device, which keeps what a handler would save (R389). -/
  byDevice : Bool
  /-- Pre-emption in force (R395), not withdrawn; held back by a repair (R440). -/
  preempt : Bool
  heldBack : Bool
  accesses : List Access
  cmds : List Cmd
  planes : PairRec
  decls : List AccDecl
  stalls : List StallPair
  /-- Slots of ended commands whose tokens the engine holds, because the image could not be written (R396). -/
  heldToks : List Nat
  /-- Charges that agents have still to report (R436). -/
  charges : List Charge
  /-- Debug: halted, halt pending (R430), a step under way (R431); whether the halt opened the stop window and
  formed the issue queue that its resume closes and reissues. -/
  halted : Bool
  haltPend : Bool
  dbg : DebugRun
  haltWin : Bool
  haltQueue : Bool
  /-- Waits at a home: an address or group it waits on, from what instruction (R124, R130, R322). -/
  waiting : Bool
  /-- A `tlbinv` or `pmig` under way at the pc: a stop waits for its completion (R307, R311). -/
  tlbOp : TlbOp
  /-- Old values that elements of the `vamo` in phase 2 have read at their homes and not yet written to WB, since the
  writer has given their records no index (R363): element, value. -/
  olds : List (Nat × Nat)
  /-- The object an operation in replay waits at for its record (R370). -/
  waitObj : Option Word
  /-- The group whose `gbar` it waits in (R127). -/
  atGroup : Option (BitVec 10)
  /-- The launch's group, while its join waits in replay for its record (R115). -/
  joining : Option (BitVec 10)
  /-- It has ended, and a leave of one of its groups waits for its record or for room at the log's home
  (R122, R363, R369). -/
  retiring : Bool
  /-- What a `vamo` raises once every element is done: its lowest failed element (R352, R370). -/
  late : Option TrapInfo
  /-- An element of that `vamo` has raised REPLAY_DIVERGE: its others complete (R370). -/
  strayed : Bool
  /-- Placement order, pre-emption order (R118, R120). -/
  placedAt : Nat
  outAt : Nat
  /-- Highest stamp that has left the front (R385). -/
  horizon : Nat
  deriving DecidableEq, Repr

/-- No stream: every register zero or at its reset value. -/
def Front.idle : Front where
  status := .idle
  s := Vector.replicate 64 0
  w := Vector.replicate 32 0
  pc := 0
  csr := Csrs.reset
  sid := 0
  lidx := 0
  lcnt := 0
  cell := 0
  seq := false
  domBase := 0
  domLog := 0
  plane := false
  pair := false
  domId := 0
  maps := []
  grps := Vector.replicate 4 0
  launch := 0
  asid := 0
  root := 0
  rclass := false
  simg := 0
  pasid := 0
  pen := false
  link := false
  logMode := 0
  logId := 0
  clock := []
  icache := []
  bcasts := []
  works := []
  pulls := []
  progress := []
  found := none
  queue := []
  heldFlags := 0
  stopWin := false
  resumed := false
  exempt := false
  exemptAt := none
  issued := 0
  ppre := false
  phost := none
  pwatch := none
  pdie := none
  byDevice := false
  preempt := false
  heldBack := false
  accesses := []
  cmds := []
  planes := { act := none, shd := none, actSt := .empty, shdSt := .empty, mma := none }
  decls := []
  stalls := []
  heldToks := []
  charges := []
  halted := false
  haltPend := false
  dbg := .free
  haltWin := false
  haltQueue := false
  waiting := false
  tlbOp := .none
  olds := []
  waitObj := none
  atGroup := none
  joining := none
  retiring := false
  late := none
  strayed := false
  placedAt := 0
  outAt := 0
  horizon := 0

/-! ### Launches, groups and queues -/

/-- A record the distributor has taken and not finished with (R106): its words, its placement epoch, not yet
confirmed to the standby hub (R114), the block that its pre-emptions free with the SIDs of its victims (R120), and
whether a time slice chose them (R121). -/
structure Taken where
  words : List Nat
  epoch : BitVec 32
  hold : Option (BitVec 7)
  victims : List (BitVec 16)
  slice : Bool
  deriving DecidableEq, Repr

/-- Registers of a launch queue (R104, R105, R295, R381, R417). -/
structure LQueue where
  base : BitVec 58
  en : Bool
  cls : Bool
  size : BitVec 5
  pcap : BitVec 3
  vec : BitVec 11
  irq : Bool
  ovr : Bool
  head : BitVec 32
  tail : BitVec 32
  asid : BitVec 12
  root : BitVec 36
  rclass : Bool
  supv : Bool
  tvec : BitVec 53
  save : BitVec 41
  pasid : BitVec 20
  pen : Bool
  link : Bool
  taken : Option Taken
  deriving DecidableEq, Repr

def LQueue.reset : LQueue :=
  { base := 0, en := false, cls := false, size := 4, pcap := 7, vec := 0, irq := false, ovr := false, head := 0, tail := 0,
    asid := 0, root := 0, rclass := false, supv := false, tvec := 0, save := 0, pasid := 0, pen := false, link := false,
    taken := none }

/-- A launch that lives (R106, R110): first SID, streams left, its queue, where LSTAT stands and what it
holds. -/
structure Launch where
  sid0 : BitVec 16
  count : Nat
  left : List (BitVec 16)
  queue : BitVec 6
  lstatAt : Key
  lstat : Word
  domId : BitVec 16
  /-- Queue and LSTAT of each OP 2 record that waits for this launch to end (R122). -/
  killers : List (BitVec 6 × Key × Word)
  deriving DecidableEq, Repr

/-- A group slot (R124): members with their state, the open episode, its clock record (R324). -/
structure Group where
  id : BitVec 10
  counted : List (BitVec 16)
  pending : List (BitVec 16)
  arrived : List (BitVec 16)
  episode : Word
  /-- Members of the last completed episode that have not yet taken its number, with it. -/
  released : List (BitVec 16 × Word)
  clock : List (Nat × Nat)
  deriving DecidableEq, Repr

/-- A waiter at a queue block or sync block in order of arrival (R130, R322): the instruction it waits in. -/
structure Waiter where
  block : Key
  sid : BitVec 16
  word : Word
  deriving DecidableEq, Repr

/-- The pusher of a queue entry with its interval (R324, R362): block, index, SID, slot, interval. -/
structure Pushed where
  block : Key
  index : Word
  sid : BitVec 16
  ivl : BitVec 16
  deriving DecidableEq, Repr

/-- The block a `wfe` WAIT watches (R395): keys of its 64 bytes, and whether a write has landed there. -/
structure Monitor where
  sid : BitVec 16
  keys : List Key
  hit : Bool
  deriving DecidableEq, Repr

/-! ### Homes -/

/-- An accumulate message (R335). -/
structure AccMsg where
  sid : BitVec 16
  sender : Nat
  home : Nat
  sector : Nat
  peer : Option (BitVec 6)
  fmt : Fmt
  frac : BitVec 7
  parts : List (Nat × BitVec 128)
  must : Bool
  /-- The watch hit its performance reports (R401). -/
  watch : Option TrapInfo
  /-- Answered: accepted or refused; not yet answered before that. -/
  answer : Option Bool
  deriving DecidableEq, Repr

/-- An entry of a residual tile (R339), in least-recently-used order within its bank. -/
structure Residual where
  bank : Nat
  sid : BitVec 16
  sector : Nat
  home : Nat
  peer : Option (BitVec 6)
  fmt : Fmt
  frac : BitVec 7
  parts : List (Nat × BitVec 128)
  watch : Option TrapInfo
  deriving DecidableEq, Repr

/-- A home's count of ordinary messages of a sender in the present interval (R336). -/
structure Quota where
  home : Nat
  sender : Nat
  count : Nat
  deriving DecidableEq, Repr

/-! ### Translation and page movement -/

/-- A TLB entry (R302, R303). `agent`: banks 0 to 8,191, badger slices 8,192 + pseudo-channel, sequencers
9,216 + 2 × cell + number, copy engines 9,472 + cell. Channel engines have none. -/
structure TlbEntry where
  agent : Nat
  asid : BitVec 12
  base : Nat
  bits : Nat
  leaf : Word
  leafAt : Key
  deriving DecidableEq, Repr

/-- A page in the migration table (R311), or the region of a promotion (R314): the stream that migrates it, or the
stack that promotes it; the address space, the first address and log2 of the size; the entry that is to change, as it
stood, and where it stands. It drains, and then new walks of it are held. -/
structure Migrating where
  sid : BitVec 16
  stack : Option Nat
  asid : BitVec 12
  base : Nat
  bits : Nat
  leaf : Nat
  leafAt : Key
  held : Bool
  deriving DecidableEq, Repr

/-! ### Stacks -/

/-- Registers of a stack (R277, R313). -/
structure StackRegs where
  gib : BitVec 7
  layers : BitVec 16
  spareU : Bool
  pmax : BitVec 4
  sridle : BitVec 16
  sflist : BitVec 52
  /-- Frames of the spare-frame list that evacuations have taken since SFLIST was written (R293). -/
  sfTaken : Nat
  shmPc : BitVec 36
  shmCh : Vector (BitVec 36) 5
  prment : BitVec 52
  prmva : BitVec 56
  prmdst : BitVec 52
  prmBusy : Bool
  prmResult : BitVec 3
  prmAsid : BitVec 12
  /-- Low half of SRMRET as last written (R294). -/
  srmretLow : BitVec 32
  /-- The 129 entries as a promotion first read them, without A and D (R314). -/
  prmSeen : List Nat
  /-- Remap table (R293): old and new frame; old frames whose entry SRMRET has retired, while accesses redirected
  through it are under way (R294). -/
  remap : List (Nat × Nat)
  retiring : List Nat
  deriving DecidableEq, Repr

def StackRegs.reset : StackRegs where
  gib := 64
  layers := 0xFFFF
  spareU := false
  pmax := 8
  sridle := 0x0800
  sflist := 0
  sfTaken := 0
  shmPc := 0x000402080
  shmCh := #v[0x000804100, 0x001008200, 0x002010400, 0x004020800, 0x008041000]
  prment := 0
  prmva := 0
  prmdst := 0
  prmBusy := false
  prmResult := 0
  prmAsid := 0
  srmretLow := 0
  prmSeen := []
  remap := []
  retiring := []

/-- A row open in a DRAM bank (R278), marked when a hint opened it. -/
structure OpenRow where
  pc : BitVec 10
  bank : BitVec 6
  row : BitVec 14
  hinted : Bool
  deriving DecidableEq, Repr

/-- A strip-ahead hint waiting at a channel (R174, R278). -/
structure Hint where
  pc : BitVec 10
  bank : BitVec 6
  row : BitVec 14
  deriving DecidableEq, Repr

/-- Refreshes a bank has postponed (R279). -/
structure Postponed where
  pc : BitVec 10
  bank : BitVec 6
  count : BitVec 4
  deriving DecidableEq, Repr

/-- A microword stored in a pseudo-channel's store (R287). -/
structure MicroWord where
  pc : BitVec 10
  index : BitVec 9
  word : Word
  deriving DecidableEq, Repr

/-! ### Order log -/

/-- A log record (R361). -/
structure LogRec where
  type : BitVec 4
  sub : BitVec 4
  sid : BitVec 16
  obj : Word
  a : Word
  b : Word
  /-- The register of its stream that its index goes to (R374), or 0. -/
  reply : SReg := 0
  deriving DecidableEq, Repr

/-- A log context (R355 to R371). -/
structure LogCtx where
  id : BitVec 16
  replay : Bool
  block : Key
  base : Key
  size : BitVec 5
  head : Word
  tail : Word
  policyGap : Bool
  chkv : Bool
  budget : BitVec 5
  vec : BitVec 11
  irq : Bool
  rvalid : Bool
  diverged : Bool
  stalled : Bool
  from_ : Word
  dividx : Word
  /-- Records at the writer that wait for room or for the writer (R363, R365). -/
  held : List LogRec
  /-- Records dropped since GAP SUB 0, when a gap is open (R366). -/
  gap : Option Word
  gapNew : Bool
  /-- Records dropped so far in all gaps: INDEX runs ahead of the ring by this count (R366). -/
  dropped : Word
  /-- Last SYNC SUB 0 of each block (R362). -/
  lastRel : List (Key × Word)
  /-- Replay: indices at or above TAIL already consumed; consumption stopped; HEAD as last read. -/
  consumed : List Word
  stopped : Bool
  headSeen : Word
  /-- Streams of the context that live. -/
  members : List (BitVec 16)
  deriving DecidableEq, Repr

/-! ### Links, trust, debug and management -/

/-- A trace record on its way to the trace unit (R434), with its dwords 2 and 3. -/
structure TraceRec where
  type : BitVec 4
  sid : BitVec 16
  cycle : BitVec 40
  isn : BitVec 48
  w2 : Word
  w3 : Word
  deriving DecidableEq, Repr

/-- A link direction (R407, R423 to R427). -/
structure LinkDir where
  dir : BitVec 32
  gen : BitVec 32
  kph : Bool
  ctr : BitVec 32
  /-- The receiver still keeps the old key; flits received under the new one; tag failures in a row. -/
  oldKey : Bool
  newFlits : BitVec 13
  fails : BitVec 5
  /-- How many link secrets the root has drawn for it after the first. -/
  rekeys : BitVec 32
  /-- A rollover under way (R425): 0 none, 1 the receiver has the next key, 2 the sender has been told; and one ordered
  meanwhile. -/
  roll : BitVec 2
  ordered : Bool
  /-- Next SEQ expected of a source and class, zero where none is listed, and the sources and classes whose flits are
  being discarded (R407). -/
  seqs : List (BitVec 8 × BitVec 3 × BitVec 16)
  discard : List (BitVec 8 × BitVec 3)
  deriving DecidableEq, Repr

def LinkDir.fresh (d : BitVec 32) : LinkDir :=
  { dir := d, gen := 0, kph := false, ctr := 0, oldKey := false, newFlits := 0, fails := 0, rekeys := 0,
    roll := 0, ordered := false, seqs := [], discard := [] }

/-- The token of a home channel and its receiver's buffers (R408). -/
structure Token where
  ch : BitVec 8
  mask : BitVec 7
  spent : Bool
  /-- Endpoints that captured in this rotation and in the one before, which is passed over while another waits;
  endpoints that wait. -/
  last : Option (BitVec 8)
  prev : Option (BitVec 8)
  waiting : List (BitVec 8)
  free : Vector (BitVec 7) 7
  deriving DecidableEq, Repr

def Token.fresh (c : BitVec 8) : Token :=
  { ch := c, mask := 0x7F, spent := false, last := none, prev := none, waiting := [], free := Vector.replicate 7 64 }

/-- FPk (R413) and what the pair's governor knows (R411, R414): the classes of the last OPEN it received, and the round
trip measured at training. -/
structure Fibre where
  id : BitVec 8
  act : BitVec 4
  parked : BitVec 8
  minact : BitVec 2
  waking : Bool
  spare : Bool
  peer : BitVec 6
  /-- The failed pair in whose place a spare stands. -/
  stands : Option (BitVec 8)
  opn : BitVec 7
  trip : BitVec 12
  dead : Bool
  deriving DecidableEq, Repr

/-- Die k (R418, R419, R422, R442). -/
structure Die where
  state : BitVec 3
  failStep : BitVec 4
  blkLeft : BitVec 15
  leaves : BitVec 7
  gen : BitVec 16
  temp : BitVec 8
  thr : BitVec 8
  trip : BitVec 8
  power : BitVec 16
  mhz : BitVec 12
  deriving DecidableEq, Repr

/-- A firmware slot (R429, R438) with what its manifest holds: SVN, image digest, and the reference measurements, four
for each die in the order of the dies' numbers. -/
structure Image extends ImageHead where
  valid : Bool
  deriving DecidableEq, Repr

/-- How the host's last read or atomic has completed (R349, R415, R416). -/
inductive HostReply where
  | value (bs : List Byte)
  | completerAbort
  | unsupportedRequest
  deriving DecidableEq, Repr

/-- BAR0 registers of the module. -/
structure Regs where
  /-- MSTAT (R438). -/
  ready : Bool
  phase : BitVec 3
  memgo : Bool
  fail : Bool
  fstep : BitVec 3
  slot : Bool
  /-- MCFG (R21). -/
  dies : BitVec 8
  hubAct : Bool
  hubSby : Bool
  stackMask : BitVec 16
  cells : BitVec 8
  smgib : BitVec 12
  spares : BitVec 3
  /-- DISTCFG (R107). -/
  distMode : Bool
  tslice : BitVec 24
  pretmo : BitVec 16
  /-- AQUOTA (R336). -/
  quota : BitVec 8
  /-- Low halves of HOSTINT and LKREKEY as last written (R388, R427). -/
  hostintLow : BitVec 32
  lkrekeyLow : BitVec 32
  /-- FGOV (R410). -/
  treeMin : BitVec 2
  llMin : BitVec 2
  fibMin : BitVec 2
  pin : Bool
  /-- BAR2CFG (R416), and log2 of the size in GiB that the host has given BAR2, 0 to 10 (R415). -/
  b2asid : BitVec 12
  b2vbase : BitVec 26
  b2size : BitVec 4
  /-- PODATT (R428), pod number (R412). -/
  podatt : Word
  pod : BitVec 6
  /-- DBGSTAT, DBGADDR, DBGDATA, DBGCFG (R432). -/
  dbgBusy : Bool
  dbgResult : BitVec 3
  /-- The last stream named here (R432), and HALTED as a peer's last reply gave it while none is. -/
  dbgNamed : Option (BitVec 16)
  dbgHalted : Bool
  dbgAddr : Word
  dbgData : Word
  dbgMaster : Bool
  dbgSent : Option (BitVec 6)
  /-- DBGSTAT and DBGDATA as last returned to a master (R433). -/
  dbgReply : Option (Word × Word)
  /-- Trace ring (R434). -/
  trcBase : Word
  trcSize : BitVec 5
  trcHead : Word
  trcTail : Word
  trcLost : BitVec 32
  /-- Event ring (R444). -/
  evBase : BitVec 52
  evSize : BitVec 5
  evEn : Bool
  evVec : BitVec 11
  evIrq : Bool
  evHead : BitVec 32
  evLost : BitVec 16
  evTail : BitVec 32
  /-- MPWR, and whether a trip holds the dies (R442). -/
  mpwr : BitVec 16
  tripped : Bool
  /-- UPDADDR, UPDLEN, UPDCTL (R445). -/
  updAddr : Word
  updLen : Word
  updBusy : Bool
  updResult : BitVec 3
  deriving DecidableEq, Repr

/-- The module registers at reset; the size of BAR2 is the host's, set by PCI configuration that the manual does not
describe: 1 GiB (DESIGN CHOICE, log entry 77) (R21, R107, R336, R410, R416, R422, R432, R434, R438, R444, R445). -/
def Regs.reset : Regs where
  ready := false
  phase := 0
  memgo := false
  fail := false
  fstep := 0
  slot := false
  dies := 0xFF
  hubAct := false
  hubSby := true
  stackMask := 0xFFFF
  cells := 128
  smgib := 1024
  spares := 0
  distMode := false
  tslice := 1000
  pretmo := 1000
  quota := 16
  hostintLow := 0
  lkrekeyLow := 0
  treeMin := 0
  llMin := 0
  fibMin := 0
  pin := false
  b2asid := 0
  b2vbase := 0
  b2size := 0
  podatt := 0
  pod := 0
  dbgBusy := false
  dbgResult := 0
  dbgNamed := none
  dbgHalted := false
  dbgAddr := 0
  dbgData := 0
  dbgMaster := false
  dbgSent := none
  dbgReply := none
  trcBase := 0
  trcSize := 0
  trcHead := 0
  trcTail := 0
  trcLost := 0
  evBase := 0
  evSize := 8
  evEn := false
  evVec := 0
  evIrq := false
  evHead := 0
  evLost := 0
  evTail := 0
  mpwr := 0
  tripped := false
  updAddr := 0
  updLen := 0
  updBusy := false
  updResult := 0

/-- How the banks keep pace with the front: `lockstep` performs each broadcast as it issues, `runAhead`
leaves it to the owners' own steps. Every pace is one the manual allows (R188, R205); this is the model's
own field (log entry 3). -/
inductive Pace where
  | lockstep | runAhead
  deriving DecidableEq, Repr

/-! ### The module -/

/-- The whole module. `front` is the stream whose turn it is; `fronts` are the others, in turn order. -/
structure State where
  front : Front
  fronts : List Front
  /-- Events the next steps take before any stream's instruction: what the outside world and the engines
  do (the model's own queue of inputs, log entry 3). -/
  inbox : List Instr
  pace : Pace
  /-- The model's own counter of free values drawn (log entry 4). -/
  drawn : Nat
  mem : Memory
  /-- Pulls sent so far: the age of the next one (R194). -/
  pullAge : Nat
  /-- 8-byte words whose check bits are uncorrectable, by key / 8 (R12, R143). -/
  poison : List Nat
  shelves : List Shelf
  residuals : List Residual
  msgs : List AccMsg
  /-- Messages that homes have accepted and not yet performed, oldest first (R337). -/
  homeQ : List AccMsg
  quotas : List Quota
  /-- QUOTA in force at homes whose interval began under an earlier AQUOTA (R336); home 2^20 stands for
  every home not listed. -/
  quotaAt : List (Nat × BitVec 8)
  tags : List RaceTag
  tlb : List TlbEntry
  migrating : List Migrating
  /-- Contents of plane slots: (stream, shadow?, contents) (R258). -/
  slots : List (BitVec 16 × Bool × PlaneSlot)
  /-- Drowsy sub-banks: 16 × bank + sub-bank (R186). -/
  drowsy : List Nat
  groups : List Group
  waiters : List Waiter
  pushed : List Pushed
  monitors : List Monitor
  lqueues : Vector LQueue 64
  launches : List Launch
  /-- Distributor: the last placement epoch given to a record or an event (R114); counter of placements (R118). -/
  epoch : BitVec 32
  placements : Nat
  /-- The queue the distributor serves next (R106). -/
  queueTurn : BitVec 6
  nextDom : BitVec 16
  stk : Vector StackRegs 16
  rows : List OpenRow
  hints : List Hint
  postponed : List Postponed
  asleep : List (BitVec 10)
  micro : List MicroWord
  logs : List LogCtx
  links : List LinkDir
  tokens : List Token
  /-- Governor levels that differ from 3: (region, level) (R409). -/
  levels : List (BitVec 9 × BitVec 2)
  fibres : List Fibre
  dies : Vector Die 26
  images : Vector Image 2
  committed : Bool
  /-- The slot that holds a staged image (R445). -/
  staged : Option Bool
  burnt : BitVec 7
  regs : Regs
  /-- MSI-X vectors signalled while masked, whose messages wait, and the words of the MSI-X table that the host has
  written, by offset (R415). -/
  msix : List (BitVec 11)
  msixTable : List (Nat × Word)
  /-- How the host's last read or atomic has completed (R415, R416); none before the first. -/
  hostReply : Option HostReply
  /-- Resets of the module so far, and attestations of peers since the last: which secrets are in force (R423, R428). -/
  era : Nat
  sessions : List (BitVec 6)
  /-- Trace records that the trace unit has still to receive (R434). -/
  traceQ : List TraceRec
  /-- Home channels out of service for good (R439). -/
  guidesOut : List (BitVec 8)
  /-- Cells out of service for good (R439); a cell stands once for each spare bank and each spare sequencer used;
  channels a spare waveguide carries. -/
  cellsOut : List (BitVec 7)
  /-- Repairs under way: whether of a sequencer, and the unit (R440). -/
  repairs : List (Bool × BitVec 13)
  bankSpares : List (BitVec 7)
  seqSpares : List (BitVec 7)
  guideSpares : List (BitVec 8)
  deriving DecidableEq, Repr

/-! ### Stops -/

/-- Reasons a step ends in a fault. The manual describes an outcome for every access and instruction, so
no meaning of this model raises one; the type keeps the one name a meaning could use. -/
inductive Fault where
  /-- Raised by no meaning. Safe: nothing is claimed of a state after it. -/
  | noSuchAddress
  deriving DecidableEq, Repr

/-- Reasons a step is refused. -/
inductive Refusal where
  /-- The instruction has no meaning in the model yet. Raised by the arm of `exec` alone. Safe. -/
  | notModelled (mnemonic : String)
  deriving DecidableEq, Repr

/-! ### Reset -/

/-- A die at reset (R422, R442): STATE 1, GEN 0, THR 95, TRIP 110. The manual gives no reset value for
BLKLEFT, TEMP and POWER: a part with no leaf block burnt, and zero readings (DESIGN CHOICE, log entry 1). -/
def Die.reset : Die :=
  { state := 1, failStep := 0, blkLeft := 16384, leaves := 0, gen := 0, temp := 0, thr := 95, trip := 110,
    power := 0, mhz := 1800 }

/-- The module right after power-on or a module reset, before bring-up (R437). -/
def State.reset : State where
  front := Front.idle
  fronts := []
  inbox := []
  pace := .lockstep
  drawn := 0
  mem := []
  pullAge := 0
  poison := []
  shelves := []
  residuals := []
  msgs := []
  homeQ := []
  quotas := []
  quotaAt := []
  tags := []
  tlb := []
  migrating := []
  slots := []
  drowsy := []
  groups := []
  waiters := []
  pushed := []
  monitors := []
  lqueues := Vector.replicate 64 LQueue.reset
  launches := []
  epoch := 0
  placements := 0
  queueTurn := 0
  nextDom := 0
  stk := Vector.replicate 16 StackRegs.reset
  rows := []
  hints := []
  postponed := []
  asleep := []
  micro := []
  logs := []
  links := []
  tokens := []
  levels := []
  fibres := []
  dies := Vector.replicate 26 Die.reset
  images := Vector.replicate 2 { valid := true, svn := 0, digest := 0, refs := List.replicate 104 0 }
  committed := false
  staged := none
  burnt := 0
  regs := Regs.reset
  msix := []
  msixTable := []
  hostReply := none
  era := 0
  sessions := []
  traceQ := []
  cellsOut := []
  repairs := []
  bankSpares := []
  seqSpares := []
  guideSpares := []
  guidesOut := []

end Sys2Proof.Machine
end

