-- ==== Sys2Proof/Machine/Base.lean ====
section
/-! DEFINITION. Memory as bytes by key, registers of the stream whose turn it is, turns between streams,
the monad of a step, and Porvex events: the operations every other file of the machine is written in. -/

namespace Sys2Proof.Machine

/-- What one step answers. -/
abbrev Out := Host.Outcome State Fault Refusal

/-- Bits [lo + len - 1 : lo] of a number. -/
def fld (lo len n : Nat) : Nat := n / 2 ^ lo % 2 ^ len

/-- The number a set of bits makes when placed at `lo`. -/
def at_ (lo : Nat) (v : Nat) : Nat := v * 2 ^ lo

def boolNat (b : Bool) : Nat := if b then 1 else 0

/-- A number read as two's complement of `w` bits. -/
def sextInt (w n : Nat) : Int := if n % 2 ^ w ≥ 2 ^ (w - 1) then (n % 2 ^ w : Int) - 2 ^ w else (n % 2 ^ w : Int)

/-- An integer as `w` bits, modulo 2^w. -/
def wrapNat (w : Nat) (i : Int) : Nat := (i % (2 ^ w : Int)).toNat

/-- `x` before the first element that it may stand before. -/
def insertBy {α : Type} (le : α → α → Bool) (x : α) : List α → List α
  | [] => [x]
  | y :: r => if le x y then x :: y :: r else y :: insertBy le x r

/-- A list in an order; elements that may stand either way keep theirs. -/
def sortBy {α : Type} (le : α → α → Bool) (l : List α) : List α := l.foldr (insertBy le) []

/-- Every entry of a table changed alike. -/
def mapVec {α β : Type} {n : Nat} (f : α → β) (v : Vector α n) : Vector β n := ⟨⟨v.toArray.toList.map f⟩, by simp⟩

/-! ### Memory -/

/-- The byte at a key. -/
def Memory.get : Memory → Key → Byte
  | [], _ => Memory.unlisted
  | c :: r, k => if c.1 = k then c.2 else if k < c.1 then Memory.unlisted else Memory.get r k

/-- Memory with byte `b` at key `k`, in canonical form. -/
def Memory.set : Memory → Key → Byte → Memory
  | [], k, b => if b = Memory.unlisted then [] else [(k, b)]
  | c :: r, k, b =>
    if k < c.1 then (if b = Memory.unlisted then c :: r else (k, b) :: c :: r)
    else if c.1 = k then (if b = Memory.unlisted then r else (k, b) :: r)
    else c :: Memory.set r k b

/-- Bytes at the given keys, in order. -/
def Memory.gets (m : Memory) (ks : List Key) : List Byte := ks.map m.get

/-- Bytes written at the given keys, in order. -/
def Memory.sets : Memory → List (Key × Byte) → Memory
  | m, [] => m
  | m, (k, b) :: r => Memory.sets (m.set k b) r

/-- The `n` bytes from key `k` replaced by `f`, in canonical form. -/
def Memory.overlay (m : Memory) (k n : Nat) (f : Nat → Byte) : Memory :=
  m.filter (fun c => c.1 < k)
    ++ (List.range n).filterMap (fun i => if f i = Memory.unlisted then none else some (k + i, f i))
    ++ m.filter (fun c => k + n ≤ c.1)

/-- `n` consecutive keys from `k`. -/
def keysFrom (k n : Nat) : List Key := (List.range n).map (k + ·)

/-- The little-endian number in `n` bytes from key `k` (R1). -/
def Memory.num (m : Memory) (k n : Nat) : Nat := bytesNat (m.gets (keysFrom k n))

/-- Memory with the `n` low bytes of `v` stored from key `k`, little-endian (R1). -/
def Memory.putNum (m : Memory) (k n v : Nat) : Memory := m.sets ((keysFrom k n).zip (wordBytes n v))

/-! ### Classes and owners -/

/-- Classes of memory (R10, R299), in the order of the CLASS field. -/
inductive Cls where
  | bm | sm | hm | pr
  deriving DecidableEq, Repr

def clsOf (n : Nat) : Cls := if n = 0 then .bm else if n = 1 then .sm else if n = 2 then .hm else .pr

/-- Addresses of host memory have 52 bits, and wrap there (log entry 12). -/
def hmKey (a : Nat) : Key := 2 ^ 52 + a % 2 ^ 52
def smKey (p : Nat) : Key := p
def bmKey (bank loc : Nat) : Key := 2 ^ 53 + bank * 2 ^ 18 + loc
def prKey (peer a : Nat) : Key := 2 ^ 54 + peer * 2 ^ 52 + a

def keyCls (k : Key) : Cls :=
  if k < 2 ^ 52 then .sm else if k < 2 ^ 53 then .hm else if k < 2 ^ 54 then .bm else .pr

/-- Parity of the set bits of the low `n` bits. -/
def parity (n x : Nat) : Nat := ((List.range n).map (fun i => x / 2 ^ i % 2)).sum % 2

/-- Where a stack address lies (R275): stack, channel, pseudo-channel, bank, row, column. -/
structure Dram where
  stack : Nat
  channel : Nat
  pseudo : Nat
  bank : Nat
  row : Nat
  column : Nat
  deriving DecidableEq, Repr

/-- Registers of stack `n`. -/
def State.stack (s : State) (n : Nat) : StackRegs := s.stk.get (Fin.ofNat 16 n)

def State.setStack (s : State) (n : Nat) (r : StackRegs) : State :=
  { s with stk := s.stk.set (n % 16) r (Nat.mod_lt n (by decide)) }

/-- Decode of a stack-memory physical address under the stack's hash masks (R275). -/
def dramOf (s : State) (p : Nat) : Dram :=
  let st := fld 36 4 p
  let q := fld 0 36 p
  let r := s.stack st
  let par (m : BitVec 36) : Nat := parity 36 (q &&& m.toNat)
  { stack := st,
    channel := par (r.shmCh.get 0) + 2 * par (r.shmCh.get 1) + 4 * par (r.shmCh.get 2) + 8 * par (r.shmCh.get 3) + 16 * par (r.shmCh.get 4),
    pseudo := par r.shmPc,
    bank := fld 16 6 q, row := fld 22 14 q, column := fld 5 2 q + 4 * fld 13 3 q }

/-- Module-wide pseudo-channel number (R275). -/
def dramPc (d : Dram) : Nat := 64 * d.stack + 2 * d.channel + d.pseudo

/-- The agent that owns a key among banks (0 to 8,191) and channel engines (8,192 + pseudo-channel);
`none` for host and peer memory (R72). -/
def ownerOf (s : State) (k : Key) : Option Nat :=
  match keyCls k with
  | .bm => some ((k - 2 ^ 53) / 2 ^ 18)
  | .sm => some (8192 + dramPc (dramOf s k))
  | _ => none

/-- Whether an owner takes part in the domain of cells `b` to `b + 2^l - 1`: its banks (R111) and its
engine set (R281). -/
def inDomain (b l own : Nat) : Bool :=
  if own < 8192 then b ≤ own / 64 && own / 64 < b + 2 ^ l
  else
    let pc := own - 8192
    let die := pc / 64 / 2
    let ch := pc / 2 % 32
    let m := 16 * die + ch % 16
    b ≤ m && m < b + 2 ^ l

/-- Stack in service, and the logical layer of the address in service (R292). -/
def smPresent (s : State) (p : Nat) : Bool :=
  let st := fld 36 4 p
  p < 2 ^ 40 && s.regs.stackMask.getLsbD st && (s.stack st).layers.getLsbD (fld 18 4 p)

/-- Redirection by the stacks' remap tables (R293), through at most `n` entries: a frame that took another's
place may itself have been evacuated. -/
def redirectN (s : State) : Nat → Nat → Nat
  | 0, p => p
  | n + 1, p =>
    match (s.stack (fld 36 4 p)).remap.find? (fun e => e.1 == p / 2 ^ 14) with
    | some e => redirectN s n (e.2 * 2 ^ 14 + p % 2 ^ 14)
    | none => p

/-- The physical address that an access to `p` reaches. -/
def remapped (s : State) (p : Nat) : Nat := redirectN s 256 p

/-- The same for a key; only stack memory is redirected. -/
def State.phys (s : State) (k : Key) : Key := if k < 2 ^ 52 then remapped s k else k

/-- A write to the keys of `p`, or to `n` bytes from `k`, is seen by the `wfe` that watches their block, whatever writes them (R395). -/
def State.notedIn (s : State) (p : Key → Bool) : State :=
  if s.monitors.isEmpty then s
  else { s with monitors := s.monitors.map (fun m => if m.keys.any p then { m with hit := true } else m) }

def State.noted (s : State) (k n : Nat) : State := s.notedIn (fun x => k ≤ x && x < k + n)

/-- The device writes a number at the place of a key. -/
def State.write (s : State) (k n v : Nat) : State := { s.noted k n with mem := s.mem.putNum k n v }

/-- Numbers in memory that the device reaches by physical address. -/
def State.num (s : State) (k n : Nat) : Nat := s.mem.num (s.phys k) n
def State.putNum (s : State) (k n v : Nat) : State := s.write (s.phys k) n v

/-! ### Registers of the stream whose turn it is -/

/-- s0 reads as zero (R132). -/
def State.rd (s : State) (r : SReg) : Word := if r = 0 then 0 else s.front.s.get r.toFin

/-- A write to s0 is discarded (R132). -/
def State.wr (s : State) (r : SReg) (v : Word) : State :=
  if r = 0 then s else { s with front := { s.front with s := s.front.s.set r.toNat v r.isLt } }

def State.rdW (s : State) (w : WReg) : Desc := s.front.w.get w.toFin

def State.wrW (s : State) (w : WReg) (d : Desc) : State :=
  { s with front := { s.front with w := s.front.w.set w.toNat d w.isLt } }

def State.setPc (s : State) (a : Word) : State := { s with front := { s.front with pc := a } }

/-- Past an instruction of `n` bytes. -/
def State.advance (s : State) (n : Nat) : State := s.setPc (s.front.pc + BitVec.ofNat 64 n)

def State.mapCsr (s : State) (f : Csrs → Csrs) : State := { s with front := { s.front with csr := f s.front.csr } }

/-- ISN and FLOOR as numbers. -/
def State.isn (s : State) : Nat := s.front.csr.isn.toNat
def State.floor (s : State) : Nat := s.front.csr.floor.toNat

/-- The stamp of a scalar access, command or synchronisation instruction (R138): ISN, or FLOOR in a stop
window (R387). -/
def State.stamp (s : State) : Nat := if s.front.stopWin then s.floor else s.isn

/-- Sticky flags join FFLAGS (R98). -/
def State.orFlags (s : State) (f : BitVec 6) : State := s.mapCsr (fun c => { c with fflags := c.fflags ||| f })

/-! ### Turns -/

/-- Runs `f` with stream `sid` as the front, then gives the turn back. A SID that is not live changes
nothing. -/
def State.onStream (s : State) (sid : BitVec 16) (f : State → State) : State :=
  if s.front.status ≠ .idle ∧ s.front.sid = sid then f s
  else
    match s.fronts.find? (fun fr => fr.sid == sid && fr.status != .idle) with
    | none => s
    | some fr =>
      let rest := s.fronts.filter (fun g => !(g.sid == sid && g.status != .idle))
      let t := f { s with front := fr, fronts := s.front :: rest }
      match t.fronts with
      | o :: r => { t with front := o, fronts := if t.front.status = .idle then r else r ++ [t.front] }
      | [] => t

/-- Every stream, the front first. -/
def State.streams (s : State) : List Front := s.front :: s.fronts

def State.live (s : State) (sid : BitVec 16) : Bool := s.streams.any (fun f => f.status != .idle && f.sid == sid)

/-- Changes every stream alike. -/
def State.mapStreams (s : State) (f : Front → Front) : State := { s with front := f s.front, fronts := s.fronts.map f }

/-- The next running stream takes the turn. -/
def State.rotate (s : State) : State :=
  match s.fronts with
  | [] => s
  | f :: r => { s with front := f, fronts := if s.front.status = .idle then r else r ++ [s.front] }

/-! ### The monad of a step -/

/-- A sector that an element needs from another owner: the owner, the bytes [lo, hi) wanted of it, and the page through
which its address is translated, as its first address and log2 of its size (R192). -/
structure Want where
  own : Nat
  sector : Nat
  lo : Nat
  hi : Nat
  base : Nat
  bits : Nat
  deriving DecidableEq, Repr

/-- Why an instruction does not go on: it traps, it waits, or an owner's element needs pulls from
elsewhere first. -/
inductive Stop where
  | trap (t : TrapInfo)
  | wait
  | need (ps : List Want)
  deriving DecidableEq, Repr

/-- A computation over the state that may stop; what it changed before stays (R302). -/
abbrev M := ExceptT Stop (StateM State)

def M.exec {α : Type} (m : M α) (s : State) : Except Stop α × State := m.run s

/-- Causes of R383. -/
def causeIllegalInsn : Nat := 0x01
def causeIllegalOperand : Nat := 0x02
def causeWindowAbsent : Nat := 0x03
def causeXlateMissing : Nat := 0x04
def causeXlatePerm : Nat := 0x05
def causeAlign : Nat := 0x06
def causePlacement : Nat := 0x07
def causePartition : Nat := 0x08
def causeMapSpan : Nat := 0x09
def causePlaneNone : Nat := 0x0A
def causeRace : Nat := 0x0B
def causeDiverge : Nat := 0x0C
def causeDataError : Nat := 0x0D
def causeWatch : Nat := 0x0E
def causeBreak : Nat := 0x0F
def causeDieReset : Nat := 0x10
def causePreempt : Nat := 0x20
def causeHost : Nat := 0x21

/-- A trap with its TINFO, element and address (R383). -/
def mkTrap (cause info : Nat) (elem : Nat := 0) (addr : Nat := 0) : TrapInfo :=
  { cause := BitVec.ofNat 8 cause, int := false, tinfo := BitVec.ofNat 63 info, elem := elem, addr := BitVec.ofNat 64 addr }

/-- ILLEGAL_OPERAND with TINFO[7:4] = c, or with TINFO[11:8] = c. -/
def operandTrap (c : Nat) (elem : Nat := 0) : TrapInfo := mkTrap causeIllegalOperand (16 * c) elem
def operandTrapHi (c : Nat) (elem : Nat := 0) : TrapInfo := mkTrap causeIllegalOperand (256 * c) elem

def trapM {α : Type} (t : TrapInfo) : M α := throw (.trap t)
def waitM {α : Type} : M α := throw .wait

/-- Stops with `t` unless `b`. -/
def need (b : Bool) (t : TrapInfo) : M Unit := if b then pure () else trapM t

/-- Runs `m` and keeps its answer, fault or not, for later. -/
def captured {α : Type} (m : M α) : M (Except Stop α) := do
  let s ← get
  let (r, t) := M.exec m s
  set t
  pure r

/-! ### Dies, fibre pairs and the capacities of the module -/

/-- Dies: forge die d is d, stack s is 8 + s, hub die h is 24 + h (R418). -/
def State.die (s : State) (k : Nat) : Die := s.dies.get (Fin.ofNat 26 k)

def State.setDie (s : State) (k : Nat) (d : Die) : State := { s with dies := s.dies.set (k % 26) d (Nat.mod_lt k (by decide)) }

/-- The active hub's die. -/
def activeHub (s : State) : Nat := 24 + boolNat s.regs.hubAct

def attested (s : State) (k : Nat) : Bool := (s.die k).state == 2

/-- A die is held in reset, or quarantined (R20, R421, R426). -/
def dieHeld (s : State) (k : Nat) : Bool := (s.die k).state == 3 || (s.die k).state == 4

/-- FPk when nothing has changed it (R412, R413): a spare from 252 up, whose PEER reads 0. -/
def fibreFresh (m k : Nat) : Fibre :=
  { id := BitVec.ofNat 8 k, act := 8, parked := 0, minact := 0, waking := false, spare := 252 ≤ k,
    peer := if 252 ≤ k then 0 else BitVec.ofNat 6 (m + 1 + k / 4), stands := none, opn := 0x7F, trip := 0, dead := false }

def State.fibre (s : State) (k : Nat) : Fibre := (s.fibres.find? (fun f => f.id.toNat == k)).getD (fibreFresh s.regs.pod.toNat k)

def State.setFibre (s : State) (f : Fibre) : State := { s with fibres := f :: s.fibres.filter (fun g => g.id != f.id) }

/-- A pair carries traffic to its peer: not dead, and a spare only in another's place. -/
def fibreCarries (s : State) (k : Nat) : Bool :=
  let f := s.fibre k
  !f.dead && (!f.spare || f.stands.isSome)

/-- The pair that carries a peer's traffic of place `i` of its four (R412): its own, a spare in the place of that, or,
when it has been removed, the first of the four that carries (DESIGN CHOICE, log entry 106). -/
def pairFor (s : State) (p i : Nat) : Option Nat :=
  let j := (p + 127 - s.regs.pod.toNat) % 64
  let carrier (i : Nat) : Option Nat :=
    let k := 4 * j + i
    if fibreCarries s k then some k
    else [252, 253, 254, 255].find? (fun n => fibreCarries s n && (s.fibre n).stands == some (BitVec.ofNat 8 k))
  ([i % 4] ++ List.range 4).findSome? carrier

/-- The latest OPEN of a pair marks a class open (R411). -/
def openAt (s : State) (k c : Nat) : Bool := (s.fibre k).opn.getLsbD c

/-- A flit of class `c` that concerns a peer's sector may be sent: its pair is that of address bits [6:5] (R411, R412). -/
def peerOpen (s : State) (k : Key) (c : Nat) : Bool :=
  keyCls k != .pr || (pairFor s ((k - 2 ^ 54) / 2 ^ 52) (fld 5 2 k)).any (fun n => openAt s n c)

/-- MCFG (R21). A die held in reset is not attested and shows no DIES bit; CELLS, STACKS and SMGIB, which the manual
lowers for quarantine, removal and map-out alone, keep its parts (DESIGN CHOICE, log entry 101). -/
def mcfg (s : State) : Nat :=
  let held := (List.range 8).foldl (fun m d => if (s.die d).state = 4 then m + 2 ^ d else m) 0
  (s.regs.dies &&& ~~~BitVec.ofNat 8 held).toNat + at_ 8 (boolNat s.regs.hubAct) + at_ 9 (boolNat s.regs.hubSby) + at_ 10 s.regs.stackMask.toNat
    + at_ 26 s.regs.cells.toNat + at_ 34 s.regs.smgib.toNat + at_ 46 s.regs.spares.toNat

/-! ### Porvex -/

/-- MSI-X entries of 16 bytes for the vectors 0 to 2,047, in the layout of PCI Express with its reset values: address,
data, and a mask bit that is 1 (PRESUMED, log entry 100). -/
def tableWord (s : State) (o : Nat) : Nat :=
  ((s.msixTable.find? (fun e => e.1 == o)).map (fun e => e.2.toNat)).getD (if o % 16 = 8 then 2 ^ 32 else 0)

/-- Signals an MSI-X vector (R415): its message leaves for the host, or, while the table masks it, its pending bit is
set. -/
def State.signal (s : State) (v : BitVec 11) : State :=
  if (tableWord s (0x1000008 + 16 * v.toNat)).testBit 32 && !s.msix.contains v then { s with msix := s.msix ++ [v] } else s

/-- A host-memory write: posted, little-endian. -/
def State.hostPut (s : State) (a n v : Nat) : State := s.write (hmKey a) n v

/-- Writes an event record to the ring, or counts it lost (R444). -/
def State.event (s : State) (type die : Nat) (ps : List Nat) : State :=
  let r := s.regs
  if r.evEn && (r.evHead - r.evTail).toNat < 2 ^ r.evSize.toNat then
    let a := r.evBase.toNat + 64 * (r.evHead.toNat % 2 ^ r.evSize.toNat)
    let s := { s.hostPut a 8 (type + at_ 8 die + at_ 16 (Config.eventTime s.drawn).toNat) with drawn := s.drawn + 1 }
    let put (s : State) (i : Nat) : State := s.hostPut (a + 8 + 8 * i) 8 (ps.getD i 0)
    let s := (List.range 7).foldl put s
    let s := { s with regs := { s.regs with evHead := r.evHead + 1 } }
    if r.evIrq then s.signal r.evVec else s
  else { s with regs := { r with evLost := if r.evLost = 0xFFFF then r.evLost else r.evLost + 1 } }

/-- Bits of a register that must be a multiple of 2^n: the low ones are zero whatever was written (R7). -/
def clearLow {w : Nat} (n : Nat) (v : BitVec w) : BitVec w := v >>> n <<< n

/-- TRCBASE: a multiple of the ring's size as it stands (R7, R434). -/
def Regs.trace (r : Regs) : Word := clearLow r.trcSize.toNat r.trcBase

/-- VBASE of BAR2CFG: a multiple of BAR2's size (R7, R416). -/
def Regs.vbase (r : Regs) : BitVec 26 := clearLow r.b2size.toNat r.b2vbase

/-- The stream whose turn it is sends a trace record to the trace unit, if its STALLC.TRC is set (R434). -/
def State.traced (s : State) (type isn w2 w3 : Nat) : State :=
  if s.front.csr.stallTrc then
    { s with
      drawn := s.drawn + 1
      traceQ := s.traceQ ++ [{ type := BitVec.ofNat 4 type, sid := s.front.sid, cycle := Config.cycleCount s.drawn, isn := BitVec.ofNat 48 isn,
                               w2 := BitVec.ofNat 64 w2, w3 := BitVec.ofNat 64 w3 }] }
  else s

/-- The trace unit writes a record to the ring, or counts it lost (R434). -/
def State.traceWords (s : State) (r0 r1 r2 r3 : Nat) : State :=
  let r := s.regs
  if (r.trcHead - r.trcTail).toNat < 2 ^ r.trcSize.toNat / 32 then
    let a := r.trace.toNat + 32 * (r.trcHead.toNat % (2 ^ r.trcSize.toNat / 32))
    let s := (((s.putNum (smKey a) 8 r0).putNum (smKey (a + 8)) 8 r1).putNum (smKey (a + 16)) 8 r2).putNum (smKey (a + 24)) 8 r3
    { s with regs := { r with trcHead := r.trcHead + 1 } }
  else { s with regs := { r with trcLost := r.trcLost + 1 } }

end Sys2Proof.Machine
end

