-- ==== Sys2Proof/Machine/Xlate.lean ====
section
/-! DEFINITION. Address translation (spec/15_translation.md): page table entries, walks, TLBs, accessed and
dirty bits; and the place of a byte under an ownership map (spec/08_banks.md). -/

namespace Sys2Proof.Machine

/-! ### Page table entries (R298 to R300) -/

def pteV (e : Nat) : Bool := e % 2 == 1
def pteSize (e : Nat) : Nat := fld 1 2 e
def pteR (e : Nat) : Bool := fld 3 1 e == 1
def pteW (e : Nat) : Bool := fld 4 1 e == 1
def pteX (e : Nat) : Bool := fld 5 1 e == 1
def pteU (e : Nat) : Bool := fld 6 1 e == 1
def pteD (e : Nat) : Bool := fld 8 1 e == 1
def pteDisc (e : Nat) : Bool := fld 9 1 e == 1
def pteApl (e : Nat) : Nat := fld 10 2 e
def pteSysa (e : Nat) : Bool := fld 12 1 e == 1
def pteRwatch (e : Nat) : Bool := fld 13 1 e == 1
def pteCls (e : Nat) : Cls := clsOf (fld 14 2 e)
def pteMap (e : Nat) : Nat := fld 16 4 e
def ptePeer (e : Nat) : Nat := fld 20 6 e
def pteFrame (e : Nat) : Nat := fld 26 38 e

/-- One level of the table (R297): number, lowest VA bit indexed, index width, SIZE of a leaf allowed there
(0: none), alignment of the next table. -/
structure Level where
  num : Nat
  shift : Nat
  width : Nat
  leaf : Nat
  next : Nat

def tableLevels : List Level :=
  [{ num := 3, shift := 43, width := 13, leaf := 0, next := 16 },
   { num := 2, shift := 30, width := 13, leaf := 3, next := 12 },
   { num := 1, shift := 21, width := 9, leaf := 2, next := 10 },
   { num := 0, shift := 14, width := 7, leaf := 1, next := 0 }]

/-- A leaf is well formed (R299, R300). -/
def leafOk (e : Nat) : Bool :=
  let c := pteCls e
  let f := pteFrame e
  let low := if pteSize e == 2 then 7 else if pteSize e == 3 then 16 else 0
  pteApl e != 3 && (c == .bm || pteMap e == 0) && (c == .pr || ptePeer e == 0)
    && (if c == .bm then f < 2 ^ 13 else f % 2 ^ low == 0) && (c != .sm || f < 2 ^ 26)

/-- A table pointer is well formed (R298, R300). -/
def pointerOk (l : Level) (e : Nat) : Bool :=
  fld 3 11 e == 0 && fld 16 6 e == 0 && (fld 14 2 e == 1 || fld 14 2 e == 2) && l.next != 0
    && (at_ 10 (fld 22 42 e)) % 2 ^ l.next == 0

/-- What a walk finds. -/
inductive Walk where
  /-- A leaf, where it stands, the page's base and its size as a power of two. -/
  | leaf (e : Nat) (k : Key) (base bits : Nat)
  /-- XLATE_MISSING with TINFO of R300. -/
  | missing (info : Nat)
  /-- A table read met uncorrectable data, or an absent stack address (R293), at this key. -/
  | bad (k : Key)
  deriving DecidableEq, Repr

def tableKey (cls : Nat) (a : Nat) : Key := if cls == 2 then hmKey a else smKey a

/-- The walk from a table down the remaining levels (R301). -/
def walkFrom (s : State) (va : Nat) : List Level → Key → Walk
  | [], _ => .missing 0
  | l :: ls, tbl =>
    let k := s.phys (tbl + 8 * fld l.shift l.width va)
    let e := s.mem.num k 8
    if s.poison.contains (k / 8) || (keyCls k == .sm && !smPresent s k) then .bad k
    else if !pteV e then .missing (l.num + 1 + 16)
    else if pteSize e == 0 then
      if pointerOk l e then walkFrom s va ls (tableKey (fld 14 2 e) (at_ 10 (fld 22 42 e))) else .missing (l.num + 1 + 32)
    else if pteSize e == l.leaf && leafOk e then .leaf e k (va / 2 ^ l.shift * 2 ^ l.shift) l.shift
    else .missing (l.num + 1 + 32)

/-- Key of a root table (R295). -/
def rootKey (root : BitVec 36) (rclass : Bool) : Key :=
  if rclass then hmKey (root.toNat * 2 ^ 16) else smKey (root.toNat * 2 ^ 16)

/-- The walk of a virtual address in the space of a root. Bits above 55 must be clear (R161). -/
def walk (s : State) (root : BitVec 36) (rclass : Bool) (va : Nat) : Walk :=
  if va ≥ 2 ^ 56 then .missing 0 else walkFrom s va tableLevels (rootKey root rclass)

/-- A translated page. -/
structure Place where
  leaf : Nat
  leafAt : Key
  base : Nat
  bits : Nat
  deriving DecidableEq, Repr

/-- A TLB entry of the agent that covers the address (R296, R303). -/
def tlbHit (s : State) (agent : Nat) (asid : BitVec 12) (va : Nat) : Option TlbEntry :=
  s.tlb.find? (fun e => e.agent == agent && e.asid == asid && va / 2 ^ e.bits == e.base / 2 ^ e.bits)

/-- A pre-image of the leaf at `k`, unless it holds another entry, takes the bits too: no rollback clears them
(R302). -/
def Shelf.marked (k e bits : Nat) (r : Shelf) : Shelf :=
  let old := bytesNat ((r.bytes.drop (k % 32)).take 8)
  if r.sector = k / 32 ∧ (old ||| 0x180) = (e ||| 0x180) then
    { r with bytes := r.bytes.take (k % 32) ++ wordBytes 8 (old ||| bits) ++ r.bytes.drop (k % 32 + 8) }
  else r

/-- Sets A, and D for a write, in the leaf (R302). -/
def setAD (k : Key) (wr : Bool) : M Unit :=
  modify fun s =>
    let e := s.mem.num k 8
    let bits := if wr then 0x180 else 0x80
    if (e ||| bits) = e then s else { s.write k 8 (e ||| bits) with shelves := s.shelves.map (Shelf.marked k e bits) }

/-- Agents from here on hold no translation: channel engine `k` is `noTlb` + k (R303). -/
def noTlb : Nat := 9600

/-- Agents of the host (R416), and of the device's own accesses to an image (R396): migrations do not hold their
walks. -/
def hostAgent : Nat := noTlb + 1024
def deviceAgent : Nat := noTlb + 1025

/-- The page of an address is in a migration table (R311). -/
def Migrating.covers (m : Migrating) (asid : BitVec 12) (va : Nat) : Bool := m.asid == asid && va / 2 ^ m.bits == m.base / 2 ^ m.bits

def pageMoving (s : State) (asid : BitVec 12) (va : Nat) : Bool := s.migrating.any (fun m => m.covers asid va)

/-- New walks of a page wait until its entry has changed, but for those of the stream that migrates it (R311). -/
def pageHeld (s : State) (asid : BitVec 12) (va : Nat) : Bool :=
  s.migrating.any (fun m => m.held && m.covers asid va && (m.stack.isSome || m.sid != s.front.sid))

/-- An access wakes the sub-banks it touches (R186) and the pseudo-channels (R280), and a row that it touches is
no longer a hint's (R278). -/
def State.touch (s : State) (ks : List Key) : State :=
  if s.drowsy.isEmpty && s.asleep.isEmpty && s.rows.isEmpty then s
  else
    let ds := (ks.filter (fun k => keyCls k == .sm)).map (dramOf s)
    { s with
      drowsy := s.drowsy.filter (fun d => !ks.any (fun k => keyCls k == .bm && (k - 2 ^ 53) / 2 ^ 14 == d))
      asleep := s.asleep.filter (fun p => !ds.any (fun d => dramPc d == p.toNat))
      rows := s.rows.map (fun r => if ds.any (fun d => dramPc d == r.pc.toNat && d.bank == r.bank.toNat && d.row == r.row.toNat) then { r with hinted := false } else r) }

/-- Keys of the entries that a walk reads. -/
def walkKeys (s : State) (va : Nat) : List Level → Key → List Key
  | [], _ => []
  | l :: ls, tbl =>
    let k := s.phys (tbl + 8 * fld l.shift l.width va)
    let e := s.mem.num k 8
    k :: (if pteV e && pteSize e == 0 && pointerOk l e then walkKeys s va ls (tableKey (fld 14 2 e) (at_ 10 (fld 22 42 e))) else [])

/-- The walker's reads are requests at their pseudo-channels (R278, R280). -/
def State.walked (s : State) (va : Nat) : State :=
  if s.asleep.isEmpty && s.rows.isEmpty then s else s.touch (walkKeys s va tableLevels (rootKey s.front.root s.front.rclass))

/-- TADDR of uncorrectable data at an address: its sector, or, of host memory, the address (R152, R417). -/
def errorAt (ks : List Key) (va : Nat) : Nat := if keyCls (ks.headD 0) == .hm then va else va / 32 * 32

/-- A walk has met uncorrectable data in the entry at a key (R301, R417). -/
def badTable (elem : Nat) (k : Key) : TrapInfo := mkTrap causeDataError 0 elem (errorAt [k] (k % 2 ^ 52))

/-- Translation of `va` for the stream whose turn it is, without permission: TLB, then walk. The flag says
whether the answer came from the TLB. -/
def lookup (agent : Nat) (va : Nat) (wr : Bool) (elem : Nat) : M (Place × Bool) := do
  let s ← get
  if va ≥ 2 ^ 56 then trapM (mkTrap causeXlateMissing 0 elem va)
  else
    match tlbHit s agent s.front.asid va with
    | some e =>
      if !wr || pteD e.leaf.toNat then
        return ({ leaf := e.leaf.toNat, leafAt := e.leafAt, base := e.base, bits := e.bits }, true)
      else pure ()
    | none => pure ()
    if agent < hostAgent && pageHeld s s.front.asid va then throw .wait
    modify (fun s => s.walked va)
    match walk s s.front.root s.front.rclass va with
    | .leaf e k base bits => pure ({ leaf := e, leafAt := k, base := base, bits := bits }, false)
    | .missing info => trapM (mkTrap causeXlateMissing info elem va)
    | .bad k => trapM (badTable elem k)

/-- What an access needs of its page (R152, R302). -/
inductive Perm where
  | read | write | both | exec
  deriving DecidableEq, Repr

def permits (p : Perm) (e : Nat) : Bool :=
  match p with
  | .read => pteR e
  | .write => pteW e
  | .both => pteR e && pteW e
  | .exec => pteX e

def permWrites : Perm → Bool
  | .write | .both => true
  | _ => false

/-- Translation with permission: XLATE_MISSING, then XLATE_PERM (R152, R381); A and D on success (R302). -/
def xlate (agent : Nat) (va : Nat) (p : Perm) (elem : Nat) : M Place := do
  let (pl, hit) ← lookup agent va (permWrites p) elem
  let s ← get
  if !s.front.csr.mode && !pteU pl.leaf then trapM (mkTrap causeXlatePerm 0 elem va)
  else if !permits p pl.leaf then trapM (mkTrap causeXlatePerm 0 elem va)
  else
    if !hit then setAD pl.leafAt (permWrites p)
    pure pl

/-! ### The place of a byte (R180 to R184) -/

/-- log2 of the granule: GRAN, or one tile of 4 KiB (R181). -/
def granLog (m : OwnMap) : Nat := if m.gran = 0xFF then 12 else m.gran.toNat

/-- Granule index of an address: the signed distance from the origin over G, toward minus infinity (R180). -/
def granIndex (m : OwnMap) (va : Nat) : Int := (sextInt 64 (va + 2 ^ 64 - m.origin.toNat)) / (2 ^ granLog m : Int)

/-- Domain-relative owner of an address under a map (R180). -/
def stripeOwner (m : OwnMap) (va : Nat) : Nat :=
  (m.stripe.getD ((granIndex m va % (m.stripe.length : Int)).toNat) 0).toNat

/-- N_B(x) of R183. -/
def granBelow (m : OwnMap) (b : Nat) (x : Int) : Int :=
  let l : Int := m.stripe.length
  let c := (m.stripe.filter (fun e => e.toNat == b)).length
  let r := ((m.stripe.take (x % l).toNat).filter (fun e => e.toNat == b)).length
  (x / l) * c + r

/-- Local offset of an address in its owner (R183). -/
def localOffset (m : OwnMap) (base lb va : Nat) : Int :=
  let b := stripeOwner m va
  let g : Int := 2 ^ granLog m
  (lb : Int) + (granBelow m b (granIndex m va) - granBelow m b (granIndex m base)) * g
    + (sextInt 64 (va + 2 ^ 64 - m.origin.toNat)) % g

/-- The map of the stream's domain with an id (R180). -/
def mapOf (f : Front) (id : Nat) : Option OwnMap := f.maps.find? (fun m => m.id.toNat == id)

/-- Key of the byte at `va` in a translated page; `none` is PLACEMENT: an undefined map (R180), a local
offset outside the bank (R184), or a peer that is not attested (R428). -/
def keyOf (s : State) (pl : Place) (va : Nat) : Option Key :=
  let pa := pteFrame pl.leaf * 2 ^ 14 + (va - pl.base)
  match pteCls pl.leaf with
  | .sm => some (smKey (remapped s pa))
  | .hm => some (hmKey pa)
  | .pr => if s.regs.podatt.getLsbD (ptePeer pl.leaf) then some (prKey (ptePeer pl.leaf) pa) else none
  | .bm =>
    match mapOf s.front (pteMap pl.leaf) with
    | none => none
    | some m =>
      let lo := localOffset m pl.base (fld 0 13 (pteFrame pl.leaf) * 32) va
      if m.stripe.length = 0 ∨ lo < 0 ∨ lo ≥ 2 ^ 18 then none
      else some (bmKey (64 * s.front.domBase.toNat + stripeOwner m va) lo.toNat)

/-- Keys of `n` bytes from `va` in one page. -/
def keysOf (s : State) (pl : Place) (va n : Nat) : Option (List Key) :=
  (List.range n).foldr (fun i acc =>
    match keyOf s pl (va + i), acc with
    | some k, some ks => some (k :: ks)
    | _, _ => none) (some [])

/-- Keys or PLACEMENT. -/
def keysM (pl : Place) (va n elem : Nat) : M (List Key) := do
  let s ← get
  match keysOf s pl va n with
  | some ks => pure ks
  | none => trapM (mkTrap causePlacement 0 elem va)

/-- Agents' TLB numbers (R303). -/
def seqAgent (f : Front) : Nat := 9216 + 2 * f.cell.toNat + boolNat f.seq
def copyAgent (f : Front) : Nat := 9472 + f.cell.toNat

/-- log2 of the size of the page through which the front translates an address. -/
def pageBits (s : State) (va : Nat) : Nat :=
  match (M.exec (lookup (seqAgent s.front) va false 0) s).1 with
  | .ok (pl, _) => pl.bits
  | .error _ => 30

/-- A page of 2^bits bytes at `base` is one that a shoot-down names (R306): `len` all ones is the whole space, 0 the
page that holds `va`. -/
def named (va len base bits : Nat) : Bool :=
  len == 2 ^ 64 - 1
    || (len == 0 && va / 2 ^ bits == base / 2 ^ bits)
    || (len != 0 && base < va + len && va < base + 2 ^ bits)

/-- Drops the entries a shoot-down names (R306, R308). -/
def shootDown (s : State) (reach : Nat → Bool) (asid : BitVec 12) (va len : Nat) : State :=
  { s with tlb := s.tlb.filter (fun e => !(reach e.agent && e.asid == asid && named va len e.base e.bits)) }

end Sys2Proof.Machine
end

