-- ==== Sys2Proof/Machine/Log.lean ====
section
/-! DEFINITION. The order log and replay (spec/19_order_log.md): the log writer with its two policies, the
replay engine's admission of operations, and divergence. -/

namespace Sys2Proof.Machine

/-! ### Contexts -/

def State.logCtx (s : State) (id : BitVec 16) : Option LogCtx := s.logs.find? (fun c => c.id == id)

def State.setLog (s : State) (c : LogCtx) : State :=
  { s with logs := s.logs.map (fun d => if d.id == c.id then c else d) }

/-- The context of the stream whose turn it is (R355). -/
def State.myLog (s : State) : Option LogCtx := if s.front.logMode = 0 then none else s.logCtx s.front.logId

/-- Capacity of the ring in records (R358). -/
def LogCtx.cap (c : LogCtx) : Nat := 2 ^ c.size.toNat / 32

def LogCtx.used (c : LogCtx) : Nat := (c.head - c.tail).toNat

/-- Index that the next record takes (R363, R366). -/
def LogCtx.nextIndex (c : LogCtx) : Word := c.head + c.dropped

/-- STAT, REPLAY_FROM and DIVIDX of the block (R356). -/
def State.putStat (s : State) (c : LogCtx) : State :=
  let st := boolNat c.rvalid + 2 * boolNat c.diverged + 4 * boolNat c.stalled
  ((s.putNum (c.block + 40) 8 st).putNum (c.block + 48) 8 c.from_.toNat).putNum (c.block + 56) 8 c.dividx.toNat

def State.putHead (s : State) (c : LogCtx) : State := s.putNum (c.block + 16) 8 c.head.toNat
def State.putTail (s : State) (c : LogCtx) : State := s.putNum (c.block + 24) 8 c.tail.toNat

/-- The four words of a record (R361). -/
def LogRec.words (r : LogRec) (index : Word) : List Nat :=
  [r.type.toNat + at_ 4 r.sub.toNat + at_ 8 r.sid.toNat + at_ 24 (index.toNat % 2 ^ 40), r.obj.toNat, r.a.toNat, r.b.toNat]

/-- A record takes its index: an acquire names the last release of its block, a release becomes the last
(R362). -/
def noteIndex (c : LogCtx) (r : LogRec) : LogCtx × LogRec :=
  let i := c.nextIndex
  if r.type = 1 ∧ r.sub = 0 then ({ c with lastRel := (r.obj.toNat, i) :: c.lastRel.filter (fun p => p.1 != r.obj.toNat) }, r)
  else if r.type = 1 ∧ r.sub = 1 then
    (c, { r with b := ((c.lastRel.find? (fun p => p.1 == r.obj.toNat)).map (·.2)).getD (BitVec.allOnes 64) })
  else (c, r)

/-- Writes a record into the ring at the place of its index (R358); HEAD goes into the block after every 64
records and after each GAP record (R364). The first checkpoint mark after a gap becomes REPLAY_FROM (R366). -/
def ringPut (s : State) (c : LogCtx) (r : LogRec) : State × LogCtx :=
  let i := c.nextIndex
  let (c, r) := noteIndex c r
  let a := c.base + 32 * (i.toNat % c.cap)
  let s := ((r.words i).zipIdx).foldl (fun (s : State) w => s.putNum (a + 8 * w.2) 8 w.1) s
  let c := { c with head := c.head + 1 }
  let s := if c.head.toNat % 64 = 0 ∨ r.type = 6 then s.putHead c else s
  if r.type = 7 ∧ r.sub = 1 ∧ c.gapNew then
    let c := { c with from_ := i, gapNew := false }
    (s.putStat c, c)
  else (s, c)

/-- A record dropped under GAP keeps its index (R366). -/
def ringDrop (c : LogCtx) (r : LogRec) : LogCtx :=
  let c := (noteIndex c r).1
  { c with gap := c.gap.map (· + 1), dropped := c.dropped + 1 }

/-- TAIL as the block holds it (R364). -/
def readTail (s : State) (c : LogCtx) : LogCtx := { c with tail := BitVec.ofNat 64 (s.num (c.block + 24) 8) }

/-- No slot is free for a record: under GAP the last slot is kept for the GAP record (R364, R366). -/
def LogCtx.full (c : LogCtx) : Bool := if c.policyGap then c.cap ≤ c.used + 1 else c.cap ≤ c.used

/-- GAP records of the context (R362). -/
def gapRec (c : LogCtx) (sub : BitVec 4) (a : Word) : LogRec :=
  { type := 6, sub := sub, sid := 0, obj := BitVec.ofNat 64 (at_ 60 3 + c.id.toNat), a := a, b := 0 }

/-- VEC, when IRQ is 1 (R356). -/
def State.logSignal (s : State) (c : LogCtx) : State := if c.irq then s.signal c.vec else s

/-- Under GAP a record finds only the last slot free: GAP SUB 0 takes that slot, and the record is dropped. -/
def openGap (s : State) (c : LogCtx) (r : LogRec) : State × LogCtx :=
  let (s, c) := ringPut s c (gapRec c 0 (c.nextIndex + 1))
  let c := { ringDrop { c with gap := some 0 } r with rvalid := false, gapNew := false, from_ := BitVec.allOnes 64 }
  ((s.putStat c).logSignal c, c)

/-- A gap that is open ends once TAIL shows two free slots: GAP SUB 1 with the number of records dropped. -/
def closeGap (s : State) (c : LogCtx) : State × LogCtx :=
  match c.gap with
  | some n =>
    if c.used + 2 ≤ c.cap then
      let (s, c) := ringPut s { c with gap := none, gapNew := true } (gapRec c 1 n)
      (s.logSignal c, c)
    else (s, c)
  | none => (s, c)

/-- The writer gives one record its index, writing it or dropping it in a gap; none while it waits for room
(R363 to R366). TAIL is read when the ring is full. -/
def giveIndex (s : State) (c : LogCtx) (r : LogRec) : State × LogCtx × Option Word :=
  let i := c.nextIndex
  if c.gap.isSome then (s, ringDrop c r, some i)
  else
    let c := if c.full then readTail s c else c
    if !c.full then
      let (s, c) := ringPut s c r
      (s, c, some i)
    else if c.policyGap && c.used < c.cap then
      let (s, c) := openGap s c r
      (s, c, some (i + 1))
    else (s, c, none)

/-- A record waits at the writer; the first one sets STALLED (R365). -/
def holdRec (s : State) (c : LogCtx) (r : LogRec) : State × LogCtx :=
  let c' := { c with held := c.held ++ [r], stalled := true }
  if c.stalled then (s, c') else (((s.putHead c').putStat c').logSignal c', c')

/-- The writer takes one record; its index comes back unless the record waits. Records go in the order in which they
come. -/
def writerTake (s : State) (c : LogCtx) (r : LogRec) : State × LogCtx × Option Word :=
  let later (p : State × LogCtx) : State × LogCtx × Option Word := (p.1, p.2, none)
  if c.held ≠ [] then later (holdRec s c r)
  else
    match giveIndex s c r with
    | (s, c, some i) => (s, c, some i)
    | (s, c, none) => later (holdRec s c r)

/-- The reply of a `logmark` whose record has taken its index (R374). -/
def replyIndex (s : State) (r : LogRec) (i : Word) : State :=
  if r.reply = 0 then s else s.onStream r.sid (fun s => s.wr r.reply i)

/-- Waiting records go out in order while there is room; STALLED clears with the last (R365). -/
def writerDrain : List LogRec → State → LogCtx → State × LogCtx
  | [], s, c =>
    let c := { c with held := [], stalled := false }
    (s.putStat c, c)
  | r :: rs, s, c =>
    match giveIndex s c r with
    | (s, c, some i) => writerDrain rs (replyIndex s r i) c
    | (s, c, none) => (s, { c with held := r :: rs })

/-- The writer rereads TAIL while the ring is full, and resumes when room appears (R364 to R366). -/
def writerPoll (s : State) (c : LogCtx) : State × LogCtx :=
  let c := if c.full || c.gap.isSome then readTail s c else c
  let (s, c) := closeGap s c
  match c.held with
  | [] => (s, c)
  | rs => writerDrain rs s c

/-- A context whose streams have all retired goes when its writer has written every waiting record and closed its
gap: HEAD, then STAT, then nothing more (R365 to R367). -/
def State.putLog (s : State) (c : LogCtx) : State :=
  if c.members.isEmpty && c.held.isEmpty && c.gap.isNone then
    let s := (s.putHead c).putStat c
    { s with logs := s.logs.filter (fun d => d.id != c.id) }
  else s.setLog c

def logPoll (s : State) (id : BitVec 16) : State :=
  match s.logCtx id with
  | some c => if c.replay then s else let (s, c) := writerPoll s c; s.putLog c
  | none => s

/-- Records an operation of the context `id` in record mode (R359). -/
def recordIn (s : State) (id : BitVec 16) (r : LogRec) : State :=
  match s.logCtx id with
  | some c => if c.replay then s else let (s, c, _) := writerTake s c r; s.setLog c
  | none => s

/-- Records an operation of the stream whose turn it is. -/
def record (s : State) (type sub : Nat) (obj a b : Nat) : State :=
  if s.front.logMode = 1 then
    recordIn s s.front.logId { type := BitVec.ofNat 4 type, sub := BitVec.ofNat 4 sub, sid := s.front.sid,
                               obj := BitVec.ofNat 64 obj, a := BitVec.ofNat 64 a, b := BitVec.ofNat 64 b }
  else s

/-- OBJ of a memory location (R361): the physical byte address; bank memory stands at 2^51 + 2^18 × bank +
local offset (DESIGN CHOICE, log entry 10). -/
def objMem (k : Key) : Nat := if keyCls k = .bm then 2 ^ 51 + (k - 2 ^ 53) % 2 ^ 51 else k % 2 ^ 52
def objGroup (g : Nat) : Nat := at_ 60 1 + g
def objStream (sid : BitVec 16) (tag : Nat) : Nat := at_ 60 2 + at_ 16 tag + sid.toNat
def objCtx (id : BitVec 16) : Nat := at_ 60 3 + id.toNat

/-- Records of a stream in record mode that the writer has not yet given an index. -/
def heldRecs (s : State) (f : Front) : List LogRec :=
  if f.logMode = 1 then (match s.logCtx f.logId with
    | some c => c.held.filter (fun r => r.sid == f.sid)
    | none => [])
  else []

/-- The record of an element of the stream's `vamo` waits for its index: so does its old value (R363). -/
def atomHeld (s : State) (isn elem : Nat) : Bool :=
  (heldRecs s s.front).any (fun r => r.type == 2 && r.sub == 0 && r.b == BitVec.ofNat 64 (isn + at_ 48 elem))

/-- The record of an `srel` in flight at a block waits for its index: so does its reply. -/
def relHeld (s : State) (k : Key) : Bool :=
  (heldRecs s s.front).any (fun r => r.type == 1 && r.sub == 0 && r.obj.toNat == objMem k)

/-- A record whose reply the front does not stand still for: an element's of a `vamo`, an `srel`'s in flight. -/
def laterReply (f : Front) (r : LogRec) : Bool :=
  r.sub == 0 && (r.type == 2 || (r.type == 1 && f.accesses.any (fun a => (match a.kind with
    | .rel _ => true
    | _ => false) && a.done.isSome && objMem a.key == r.obj.toNat)))

/-- A stream with a record at the writer that has no index yet has its reply held (R363, R365). -/
def replyHeld (s : State) (f : Front) : Bool := (heldRecs s f).any (fun r => !laterReply f r)

/-- Home of an object: a memory owner, the cell of a group (R124), a front, or the distributor. -/
def homeOfObj (s : State) (o : Nat) : Nat :=
  match o / 2 ^ 60 with
  | 0 => if 2 ^ 51 ≤ o then (o - 2 ^ 51) / 2 ^ 18 else (ownerOf s (smKey o)).getD 0
  | 1 => 2 ^ 20 + o % 1024 / 8
  | 2 => 2 ^ 21 + o % 2 ^ 16
  | _ => 2 ^ 22

/-- A home that keeps 16 records of a context waiting admits no further recorded operation of it (R363). -/
def homeFull (s : State) (c : LogCtx) (o : Nat) : Bool :=
  16 ≤ (c.held.filter (fun r => homeOfObj s r.obj.toNat == homeOfObj s o)).length

/-! ### Replay (R368 to R371) -/

/-- The record at an index of the ring. -/
def recordAt (s : State) (c : LogCtx) (i : Word) : LogRec :=
  let a := c.base + 32 * (i.toNat % c.cap)
  let h := s.num a 8
  { type := BitVec.ofNat 4 h, sub := BitVec.ofNat 4 (h / 16), sid := BitVec.ofNat 16 (h / 256),
    obj := BitVec.ofNat 64 (s.num (a + 8) 8), a := BitVec.ofNat 64 (s.num (a + 16) 8), b := BitVec.ofNat 64 (s.num (a + 24) 8) }

/-- Unconsumed indices within the window of 4,096 records above TAIL and below HEAD (R368). -/
def windowOf (c : LogCtx) : List Word :=
  ((List.range (min 4096 (c.headSeen - c.tail).toNat)).map (fun n => c.tail + BitVec.ofNat 64 n)).filter
    (fun i => !c.consumed.contains i)

/-- The object a record's OBJ names: a stream whatever the tag of its mark (R361). -/
def objectOf (o : Word) : Nat := if fld 60 4 o.toNat = 2 then at_ 60 2 + fld 0 16 o.toNat else o.toNat

/-- The next unconsumed record of an object. -/
def nextFor (s : State) (c : LogCtx) (obj : Word) : Option (Word × LogRec) :=
  ((windowOf c).map (fun i => (i, recordAt s c i))).find? (fun p => objectOf p.2.obj == objectOf obj)

/-- HEAD as the block holds it (R368). -/
def readHead (s : State) (c : LogCtx) : LogCtx := { c with headSeen := BitVec.ofNat 64 (s.num (c.block + 16) 8) }

/-- CTL.END as the block holds it (R356, R368). -/
def logEnd (s : State) (c : LogCtx) : Bool := fld 7 1 (s.num (c.block + 32) 8) == 1

/-- TAIL moves past consumed records; written into the block every 64 records (R368). -/
def advanceTail : Nat → State → LogCtx → State × LogCtx
  | 0, s, c => (s, c)
  | n + 1, s, c =>
    if c.consumed.contains c.tail then
      let c' := { c with consumed := c.consumed.filter (· != c.tail), tail := c.tail + 1 }
      let s' := if c'.tail.toNat % 64 = 0 then s.putTail c' else s
      advanceTail n s' c'
    else (s, c)

/-- Consumes the record at an index. -/
def consume (s : State) (c : LogCtx) (i : Word) : State × LogCtx :=
  advanceTail (c.consumed.length + 1) s { c with consumed := c.consumed ++ [i] }

/-- Marks divergence at an index (R370). -/
def markDiverged (s : State) (c : LogCtx) (i : Word) : State :=
  let c := { c with dividx := i, diverged := true, stopped := true }
  let s := (s.putStat c).putTail c
  s.setLog c

/-- REPLAY_DIVERGE with its cause, the TYPE of the expected record and its index (R370). -/
def divergeTrap (cause : Nat) (type : Nat) (i : Word) (elem : Nat := 0) : TrapInfo :=
  mkTrap causeDiverge (cause + 16 * type) elem i.toNat

/-- Diverges: the record stays unconsumed and the engine stops (R370). -/
def diverge {α : Type} (c : LogCtx) (cause : Nat) (type : Nat) (i : Word) (elem : Nat := 0) : M α := do
  modify (fun s => markDiverged s c i)
  trapM (divergeTrap cause type i elem)

/-- Waits at an object for its record (R369). -/
def waitAt {α : Type} (obj : Nat) : M α := do
  modify (fun s => { s with front := { s.front with waitObj := some (BitVec.ofNat 64 obj) } })
  waitM

/-- TYPE of the record at TAIL when the engine cannot go past it: a GAP record, or one of no type that R361 defines
(R368, R370). -/
def endsAt (s : State) (c : LogCtx) : Option Nat :=
  let ty := (recordAt s c c.tail).type.toNat
  if c.tail != c.headSeen && !c.consumed.contains c.tail && (ty == 6 || ty == 0 || 8 ≤ ty) then some ty else none

/-- What the replay engine has for an operation at its home (R368 to R370): none when nothing is imposed, or
the context with the object's next unconsumed record. A GAP or an undefined record at TAIL diverges; with no
record to go by the operation waits. -/
def nextRecord (obj : Nat) (elem : Nat := 0) : M (Option (LogCtx × Word × LogRec)) := do
  let s ← get
  match s.myLog with
  | none => pure none
  | some c0 =>
    if !c0.replay then
      if homeFull s c0 obj then waitAt obj else pure none
    else
      let c := readHead s c0
      set (s.setLog c)
      if logEnd s c && c.tail == c.headSeen then pure none
      else
        match endsAt s c with
        | some ty => diverge c (if ty = 6 then 5 else 1) ty c.tail elem
        | none =>
        if c.stopped then waitAt obj
        else
          match nextFor s c (BitVec.ofNat 64 obj) with
          | none => waitAt obj
          | some (i, r) => pure (some (c, i, r))

/-- What a replaying context says of an object: nothing, that its operations wait, or the object's next record. -/
inductive Due where
  | free
  | wait
  | next (c : LogCtx) (i : Word) (r : LogRec)

def dueAt (s : State) (c0 : LogCtx) (obj : Word) : Due :=
  if !c0.replay then .free
  else
    let c := readHead s c0
    if logEnd s c && c.tail == c.headSeen then .free
    else if c.stopped || (endsAt s c).isSome then .wait
    else
      match nextFor s c obj with
      | some (i, r) => .next c i r
      | none => .wait

/-- The record is consumed. -/
def consumeM (c : LogCtx) (i : Word) : M Unit :=
  modify (fun s => let (s', c') := consume s c i; s'.setLog c')

/-- Admission of an operation (R369, R370): it waits while another record is next or while `hold` says that
it cannot be performed yet; `fits` tells the fields that must match, `paired` the pairing of a pop (cause 4),
`val` the value it will return, checked under CHKV. The index of the matched record comes back. -/
def admitOp (type sub : Nat) (obj : Nat) (fits : LogRec → Bool) (val : Option Nat) (elem : Nat := 0)
    (hold : LogRec → Bool := fun _ => false) (paired : LogRec → Bool := fun _ => true) : M (Option Word) := do
  match ← nextRecord obj elem with
  | none => pure none
  | some (c, i, r) =>
    let s ← get
    if r.sid != s.front.sid || (r.type == 1 && r.sub == 2) then waitAt obj
    else if r.type.toNat != type then diverge c 1 r.type.toNat i elem
    else if r.sub.toNat != sub then diverge c 1 r.type.toNat i elem
    else if hold r then waitAt obj
    else if !fits r then diverge c 1 r.type.toNat i elem
    else if !paired r then diverge c 4 r.type.toNat i elem
    else if c.chkv && val.any (fun v => r.a.toNat != v) then diverge c 3 r.type.toNat i elem
    else
      consumeM c i
      pure (some i)

/-- An arrival or a leave about to complete episode `e` with `n` members (R369): the group's next record
must be its episode record, which the completion consumes. -/
def admitEpisode (obj e n : Nat) : M Unit := do
  match ← nextRecord obj with
  | none => pure ()
  | some (c, i, r) =>
    if r.type != 1 || r.sub != 2 then waitAt obj
    else if r.a.toNat != e || r.b.toNat != n then diverge c 4 1 i
    else pure ()

/-- Runs `m`; when it waits, nothing of it remains but where it waits, and when it diverges nothing but
the divergence. -/
def wholeOrNothing (m : M Unit) : M Unit := do
  let s ← get
  match M.exec m s with
  | (.ok _, t) => set t
  | (.error .wait, t) => do
    set { s with front := { s.front with waitObj := t.front.waitObj } }
    waitM
  | (.error (.trap x), t) => do
    match t.myLog with
    | some c => if x.cause.toNat = causeDiverge then set (markDiverged s ((s.myLog).getD c) x.addr) else set s
    | none => set s
    trapM x
  | (.error e, _) => do
    set s
    throw e

/-- LOGC (R357). -/
def logcOf (s : State) (f : Front) : Word :=
  if f.logMode = 0 then 0
  else
    match s.logCtx f.logId with
    | none => 0
    | some c =>
      BitVec.ofNat 64 (1 + at_ 1 f.logMode.toNat + at_ 3 (boolNat c.policyGap) + at_ 4 (boolNat c.rvalid) + at_ 5 (boolNat c.chkv)
        + at_ 8 c.budget.toNat + at_ 16 c.id.toNat)

/-- A stream leaves the context, which ends with its last: in record mode once the writer has finished (R367), in
replay with TAIL (R368). -/
def logLeave (s : State) (id sid : BitVec 16) : State :=
  match s.logCtx id with
  | none => s
  | some c =>
    let c := { c with members := c.members.filter (· != sid) }
    if c.members.isEmpty && c.replay then
      let s := s.putTail c
      { s with logs := s.logs.filter (fun d => d.id != c.id) }
    else s.putLog c

end Sys2Proof.Machine
end

