-- ==== Sys2Proof/Machine/Home.lean ====
section
/-! DEFINITION. Groups at their homes (R124 to R127), clock vectors (R329), and the end of a stream (R122). -/

namespace Sys2Proof.Machine

/-! ### Clock vectors (R329): the nonzero entries -/

def clockGet (v : List (Nat × Nat)) (k : Nat) : Nat := ((v.find? (fun p => p.1 == k)).map (·.2)).getD 0

def clockSet (v : List (Nat × Nat)) (k n : Nat) : List (Nat × Nat) :=
  let r := v.filter (fun p => p.1 != k)
  if n = 0 then r else (r.filter (fun p => p.1 < k)) ++ [(k, n)] ++ (r.filter (fun p => k < p.1))

/-- Entrywise maximum. -/
def clockJoin (a b : List (Nat × Nat)) : List (Nat × Nat) :=
  b.foldl (fun v p => clockSet v p.1 (max (clockGet v p.1) p.2)) a

/-- SLOT of a stream (R328). -/
def slotOf (f : Front) : Nat := f.sid.toNat % 256

/-- A release at which EN is 1 raises the interval (R329). -/
def State.nextInterval (s : State) : State :=
  if s.front.csr.raceEn then
    if s.front.csr.ivl = 0xFFFF then s.mapCsr (fun c => { c with raceSat := true })
    else
      let n := s.front.csr.ivl + 1
      let s := s.mapCsr (fun c => { c with ivl := n, raceSat := c.raceSat || n == 0xFFFF })
      { s with front := { s.front with clock := clockSet s.front.clock (slotOf s.front) n.toNat } }
  else s

/-! ### Groups -/

def Group.empty (g : BitVec 10) : Group := { id := g, counted := [], pending := [], arrived := [], episode := 0, released := [], clock := [] }

def State.group (s : State) (g : BitVec 10) : Group := (s.groups.find? (fun r => r.id == g)).getD (Group.empty g)

/-- Stores a group; a slot with no members and nothing to hand out is empty again, its E back to 0 (R124).
The clock record of the slot stays (R324). -/
def State.setGroup (s : State) (r : Group) : State :=
  let rest := s.groups.filter (fun q => q.id != r.id)
  let r := if r.counted.isEmpty && r.pending.isEmpty && r.released.isEmpty then { Group.empty r.id with clock := r.clock } else r
  { s with groups := if r = Group.empty r.id then rest else r :: rest }

def Group.size (r : Group) : Nat := r.counted.length + r.pending.length

def Group.member (r : Group) (sid : BitVec 16) : Bool := r.counted.contains sid || r.pending.contains sid

/-- A slot of GRPS: valid, pending, number (R125). -/
def grpSlot (pend : Bool) (g : BitVec 10) : BitVec 16 := BitVec.ofNat 16 (0x8000 + at_ 14 (boolNat pend) + g.toNat)

def slotValid (x : BitVec 16) : Bool := x.getLsbD 15
def slotGroup (x : BitVec 16) : BitVec 10 := x.extractLsb' 0 10

/-- Changes the GRPS slots of a stream. -/
def Front.mapGrps (f : Front) (h : BitVec 16 → BitVec 16) : Front := { f with grps := mapVec h f.grps }

/-- The pending joiners of `g` become counted: their pending bits clear. -/
def State.settlePending (s : State) (g : BitVec 10) (sids : List (BitVec 16)) : State :=
  s.mapStreams (fun f => if sids.contains f.sid then f.mapGrps (fun x => if slotValid x && slotGroup x == g then grpSlot false g else x) else f)

/-- An acquire that carries a record raises V (R329). -/
def Front.acquire (f : Front) (v : List (Nat × Nat)) : Front := { f with clock := clockJoin f.clock v }

/-- Contexts with an arrived member: those that record the episode, or replay it (R359). -/
def episodeCtxs (s : State) (r : Group) : List LogCtx :=
  (((s.streams.filter (fun f => f.logMode != 0 && r.arrived.contains f.sid)).map (·.logId)).dedup).filterMap s.logCtx

/-- What a context says of the open episode's completion: it waits for room at the home of its records (R363), and
in replay for its episode record (R369). -/
def episodeDue (s : State) (r : Group) (c : LogCtx) : Due :=
  if !c.replay then (if homeFull s c (objGroup r.id.toNat) then .wait else .free)
  else
    match dueAt s c (BitVec.ofNat 64 (objGroup r.id.toNat)) with
    | .next c i q => if q.type = 1 ∧ q.sub = 2 ∧ q.a = r.episode ∧ q.b.toNat = r.counted.length then .next c i q else .wait
    | d => d

/-- A context takes a completed episode: its record is written, or consumed. -/
def takeEpisodeRec (r : Group) (s : State) (c : LogCtx) : State :=
  match episodeDue s r c with
  | .next c i _ => let (s, c) := consume s c i; s.setLog c
  | _ => recordIn s c.id
      { type := 1, sub := 2, sid := 0, obj := BitVec.ofNat 64 (objGroup r.id.toNat), a := r.episode, b := BitVec.ofNat 64 r.counted.length }

/-- Arrivals equal the members counted in the open episode. With none counted any more, an episode that holds
pending joiners is complete as well. -/
def Group.met (r : Group) : Bool := r.arrived.length == r.counted.length && (r.counted != [] || r.pending != [])

/-- Completes the open episode when its arrivals equal the members counted in it (R124) and no context makes it
wait; the released members acquire the group's clock record (R324). -/
def completeEpisode (s : State) (r : Group) : State :=
  if r.met && (episodeCtxs s r).all (fun c => match episodeDue s r c with
      | .wait => false
      | _ => true) then
    let s := (episodeCtxs s r).foldl (takeEpisodeRec r) s
    let s := s.settlePending r.id r.pending
    let s := s.mapStreams (fun f => if f.status != .idle && r.arrived.contains f.sid then f.acquire r.clock else f)
    s.setGroup { r with released := r.released ++ r.arrived.map (fun x => (x, r.episode)), arrived := [],
                        counted := r.counted ++ r.pending, pending := [], episode := r.episode + 1 }
  else s.setGroup r

/-- Whether adding an arrival, or taking a member away, would complete the open episode (R369). -/
def wouldComplete (counted arrived : Nat) : Bool := counted != 0 && counted == arrived

/-- B of a MEMB record (R362). -/
def membB (arrived size : Nat) : Nat := arrived + at_ 16 size

/-- The stream joins (R124, R125); `pend` when some arrival of the open episode is held. -/
def joinGroup (s : State) (g : BitVec 10) : State :=
  let r := s.group g
  let pend := !r.arrived.isEmpty
  let sid := s.front.sid
  let r' := if pend then { r with pending := r.pending ++ [sid] } else { r with counted := r.counted ++ [sid] }
  let s := s.setGroup r'
  let k := (List.range 4).find? (fun i => !slotValid (s.front.grps.get (Fin.ofNat 4 i)))
  let s := match k with
    | some i => { s with front := { s.front with grps := s.front.grps.set (i % 4) (grpSlot pend g) (Nat.mod_lt i (by decide)) } }
    | none => s
  record s 4 (if pend then 1 else 0) (objGroup g.toNat) r.episode.toNat (membB r.arrived.length r'.size)

/-- The stream leaves (R124, R125): a counted member that has not arrived lowers the count, which can
complete the episode. An arrival it held is withdrawn first (R127). -/
def leaveGroup (s : State) (g : BitVec 10) : State :=
  let r := s.group g
  let sid := s.front.sid
  if r.member sid then
    let r := { r with arrived := r.arrived.filter (· != sid), released := r.released.filter (fun p => p.1 != sid) }
    let r' := { r with counted := r.counted.filter (· != sid), pending := r.pending.filter (· != sid) }
    let s := { s with front := s.front.mapGrps (fun x => if slotValid x && slotGroup x == g then 0 else x) }
    let s := record s 4 2 (objGroup g.toNat) r.episode.toNat (membB r.arrived.length r'.size)
    completeEpisode s r'
  else s

/-- The leave as a recorded operation (R369): its MEMB record, which waits for the arrivals it names, then, when the
leave completes the open episode and a member of the same context is in it, the episode record. -/
def admitLeave (g : BitVec 10) : M Unit := wholeOrNothing (do
  let s ← get
  let r := s.group g
  let sid := s.front.sid
  let held := (r.arrived.filter (· != sid)).length
  let _ ← admitOp 4 2 (objGroup g.toNat) (fun q => q.a == r.episode && fld 0 16 q.b.toNat == held) none 0
    (fun q => q.a == r.episode && held < fld 0 16 q.b.toNat)
  let ours := s.streams.any (fun f => f.sid != sid && r.arrived.contains f.sid && f.logMode == s.front.logMode && f.logId == s.front.logId)
  if ours && wouldComplete (r.counted.filter (· != sid)).length held then
    admitEpisode (objGroup g.toNat) r.episode.toNat held)

/-- The leaves of a stream that has ended, in order, until one waits (R122, R363, R369); a leave that diverges is
carried out, since no instruction is left to raise it (log entry 75). The flag says that none waits. -/
def retireLeaves : List (BitVec 10) → State → State × Bool
  | [], s => (s, true)
  | g :: gs, s =>
    match M.exec (admitLeave g) s with
    | (.error .wait, t) => (t, false)
    | (_, t) => retireLeaves gs (leaveGroup t g)

/-- Groups the stream belongs to. -/
def myGroups (f : Front) : List (BitVec 10) := (f.grps.toList.filter slotValid).map slotGroup

/-! ### Launches -/

/-- Writes LSTAT of a launch as a whole word, signalling its queue's vector (R105, R110). -/
def putLstat (s : State) (q : BitVec 6) (k : Key) (v : Word) : State :=
  let s := s.putNum k 8 v.toNat
  let lq := s.lqueues.get q.toFin
  if lq.irq then s.signal lq.vec else s

/-- A record or an event of the distributor takes a number (R114). The standby has confirmed every number but those
of the records that are still taken. -/
def State.numbered (s : State) : State := { s with epoch := s.epoch + 1 }

/-- The launch of a retiring stream: when its last stream has gone, LSTAT.DONE is written, to the record of
the launch and to those of OP 2 that wait for it (R110, R122). -/
def leaveLaunch (s : State) (sid0 sid : BitVec 16) : State :=
  match s.launches.find? (fun l => l.sid0 == sid0) with
  | none => s
  | some l =>
    let left := l.left.filter (· != sid)
    if left.isEmpty then
      let s := { s with launches := s.launches.filter (fun m => m.sid0 != sid0) }
      let s := putLstat s l.queue l.lstatAt (l.lstat ||| 4)
      l.killers.foldl (fun s p => putLstat s p.1 p.2.1 (p.2.2 ||| 4)) s
    else { s with launches := s.launches.map (fun m => if m.sid0 == sid0 then { m with left := left } else m) }

/-- What is left of a stream once it has left its groups: its waits at homes, its work, shelf entries, plane contents
and residuals go, its log context may end, and no stream is left here. -/
def retired (s : State) : State :=
  let sid := s.front.sid
  let s := if s.front.logMode = 0 then s else logLeave s s.front.logId sid
  let s := { s with
    waiters := s.waiters.filter (fun w => w.sid != sid),
    monitors := s.monitors.filter (fun w => w.sid != sid),
    migrating := s.migrating.filter (fun m => m.stack.isSome || m.sid != sid),
    shelves := s.shelves.filter (fun e => e.sid != sid),
    slots := s.slots.filter (fun p => p.1 != sid),
    residuals := s.residuals.filter (fun r => r.sid != sid) }
  let s := leaveLaunch s s.front.launch sid
  ({ s with front := Front.idle }).numbered

/-- The stream whose turn it is retires (R122), once it has left each of its groups as though by `gleave`. -/
def retireFront (s : State) : State :=
  match retireLeaves (myGroups s.front) s with
  | (s, true) => retired s
  | (s, false) => { s with front := { s.front with retiring := true } }

end Sys2Proof.Machine
end

