-- ==== Sys2Proof/Machine/Access.lean ====
section
/-! DEFINITION. Reading and writing bytes at their owners: reads at a stamp through the version shelf
(R139, R193), uncorrectable words (R143), race tags (R330), watchpoints (R399), and stores. -/

namespace Sys2Proof.Machine

/-- How an access sees memory: the agent that translates, the owner at work (`none` when every owner has
performed all that was issued before), the stamp, sectors that pulls have brought, the element, and the clock
vector and the watchpoints it is checked against (R328: none, it is not). -/
structure Eye where
  agent : Nat
  who : Option Nat
  stamp : Nat
  bufs : List (Nat × List Byte × RaceTag)
  elem : Nat
  race : Option (List (Nat × Nat))
  /-- The watchpoints it is checked against (R399). -/
  watch : Watches := Watches.none_

/-! ### The version shelf -/

/-- The shelf entry that serves a pull stamped `st` of a sector: the smallest ISN above it (R193). -/
def shelfServe (s : State) (sector st : Nat) : Option Shelf :=
  (s.shelves.filter (fun e => e.sid == s.front.sid && e.sector == sector && st < e.isn && !e.action)).foldl
    (fun best e => match best with
      | none => some e
      | some b => if e.isn < b.isn then some e else some b) none

/-- The byte at `k` as at the end of instruction `st` of the stream (R139, R193). -/
def byteAt (s : State) (st : Nat) (k : Key) : Byte :=
  match shelfServe s (k / 32) st with
  | some e => e.bytes.getD (k % 32) 0
  | none => s.mem.get k

/-- The present bytes of a sector. -/
def sectorBytes (s : State) (sector : Nat) : List Byte := s.mem.gets (keysFrom (32 * sector) 32)

/-- Uncorrectable words of a sector as it stands. -/
def sectorBad (s : State) (sector : Nat) : List Nat := (keysFrom (4 * sector) 4).filter (fun w => s.poison.contains w)

/-- Owners from here on are side shelves: the migration engine's, then those of the stacks' promotion engines (R311,
R314). -/
def sideShelf : Nat := 2 ^ 14

/-- An owner's shelf, or a side shelf, holds the pre-image of a sector under `isn`. -/
def onShelf (s : State) (own sector isn : Nat) (action : Bool := false) : Bool :=
  s.shelves.any (fun e => (e.own == own || sideShelf ≤ e.own) && e.sid == s.front.sid && e.sector == sector && e.isn == isn && e.action == action)

/-- shelf_put (R72, R196): records the pre-image of a sector under `isn`, unless that is recorded. -/
def shelfPut (s : State) (own sector isn : Nat) (action : Bool := false) : State :=
  if onShelf s own sector isn action then s
  else { s with shelves :=
    { own := own, sid := s.front.sid, sector := sector, isn := isn, bytes := sectorBytes s sector, bad := sectorBad s sector, action := action } :: s.shelves }

/-- Entries an owner's shelf holds, of every stream. -/
def shelfCount (s : State) (own : Nat) : Nat := (s.shelves.filter (fun e => e.own == own)).length

/-- Size of an owner's shelf: 256 sectors in a bank (R13), 1,024 in a channel engine (R281), 8,192 in a side shelf. -/
def shelfSize (own : Nat) : Nat := if own < 8192 then 256 else if own < sideShelf then 1024 else 8192

/-- Frees the stream's entries under ISNs at or below the floor (R197). -/
def shelfFree (s : State) (f : Nat) : State :=
  { s with shelves := s.shelves.filter (fun e => e.action || !(e.sid == s.front.sid && e.isn ≤ f)) }

/-- Words of 8 bytes with check bits that the keys cover whole: host memory has none of the device's. An ECC word of stack memory is taken to be 8 bytes, as one of bank
memory is (R13); the manual gives its size nowhere (DESIGN CHOICE, log entry 89). -/
def wholeWords (ks : List Key) : List Nat :=
  ((ks.map (· / 8)).dedup).filter (fun w => keyCls (8 * w) != .hm && (keysFrom (8 * w) 8).all (fun k => ks.contains k))

/-- A sector's bytes with the written ones put in. -/
def patchBytes (sector : Nat) (bs : List Byte) (kbs : List (Key × Byte)) : List Byte :=
  kbs.foldl (fun l p => if p.1 / 32 = sector then l.set (p.1 % 32) p.2 else l) bs

/-- A pre-image takes a write that belongs before it, or that its rollback must not undo (R139, R327). -/
def Shelf.patch (kbs : List (Key × Byte)) (e : Shelf) : Shelf :=
  { e with bytes := patchBytes e.sector e.bytes kbs,
           bad := if e.bad.isEmpty then [] else e.bad.filter (fun w => !(wholeWords (kbs.map (·.1))).contains w) }

/-- Bytes of a sector in which memory `m` differs from memory `m'`, as `m'` has them. -/
def changedIn (m m' : Memory) (sector : Nat) : List (Key × Byte) :=
  ((keysFrom (32 * sector) 32).filter (fun k => m.get k != m'.get k)).map (fun k => (k, m'.get k))

/-- Rolls the stream's memory back to ISN `k` (R200): each sector with entries above `k` takes its
pre-image under the smallest such ISN; those entries go. Other streams' pre-images lose what is undone. -/
def rollback (s : State) (k : Nat) : State :=
  let mine := s.shelves.filter (fun e => e.sid == s.front.sid && k < e.isn && !e.action)
  let m := mine.foldl (fun m e =>
      match shelfServe s e.sector k with
      | some b => m.sets ((keysFrom (32 * e.sector) 32).zip b.bytes)
      | none => m) s.mem
  let ss := (mine.map (·.sector)).dedup
  let bad := ss.flatMap (fun c => ((shelfServe s c k).map (·.bad)).getD [])
  let undone := ss.flatMap (changedIn s.mem m)
  { s with
    mem := m
    poison := bad ++ s.poison.filter (fun w => !ss.contains (w / 4))
    shelves := (s.shelves.filter (fun e => !(e.sid == s.front.sid && k < e.isn && !e.action))).map (fun e =>
      if e.sid == s.front.sid then e else e.patch undone) }

/-- Writes of an earlier time are performed again, `isn` being the instruction they belong to: in memory, in the check
bits of the words they fill, and in the pre-images that they belong before (R327, R385 step 4). -/
def rewrite (s : State) (isn : Nat) (kbs : List (Key × Byte)) : State :=
  let whole := wholeWords (kbs.map (·.1))
  { s with
    mem := s.mem.sets kbs
    poison := if s.poison.isEmpty then [] else s.poison.filter (fun w => !whole.contains w)
    shelves := s.shelves.map (fun e => if e.sid != s.front.sid || (isn < e.isn && !e.action) then e.patch kbs else e) }

/-- A follow-on action's reservation waits: no entry is granted above F + 1 (R266). -/
def reserving (s : State) : Bool :=
  s.front.cmds.any (fun c => c.proj.isSome && !c.finished && !c.cancelled && c.readDone && c.held.isEmpty && !c.reserved)

/-- Sectors of some bytes that have no entry under `isn` yet at an owner. -/
def freshAt (s : State) (own : Nat) (ks : List Key) (isn : Nat) : List Nat :=
  ((ks.map (· / 32)).dedup).filter (fun c => ownerOf s (32 * c) == some own && !onShelf s own c isn)

/-- The owners of some bytes hold the entries that a write under `isn` needs, or have room for them (R198). -/
def shelfRoom (s : State) (ks : List Key) (isn : Nat) : Bool :=
  ((ks.filterMap (ownerOf s)).dedup).all (fun o =>
    let n := (freshAt s o ks isn).length
    n == 0 || (shelfCount s o + n ≤ shelfSize o && (isn ≤ s.floor + 1 || !reserving s)))

/-! ### Watchpoints (R399) -/

/-- The watchpoints as the stream's registers stand: those of an access that it issues now (R399). -/
def Csrs.watches (c : Csrs) : Watches := { en := c.wpEn, rd := c.wpRd, wr := c.wpWr, wp := c.wp }

/-- Mask of the watchpoints that `n` bytes from `va` hit as a read or as a write. -/
def watchMask (c : Watches) (va n : Nat) (rd wr : Bool) : Nat :=
  ((List.range 8).filter (fun k =>
    let w := c.wp.get (Fin.ofNat 8 k)
    c.en.getLsbD k && ((rd && c.rd.getLsbD k) || (wr && c.wr.getLsbD k))
      && (List.range n).any (fun i =>
          let a := (va + i) % 2 ^ 56
          w.base.toNat ≤ a && a ≤ w.base.toNat + w.len.toNat && w.bmask.getLsbD (a % 8)))).foldl (fun m k => m + 2 ^ k) 0

/-- WATCH with its TINFO (R402); `kind` 1 broadcast store, 2 scalar access, 3 at a home. -/
def watchTrap (kind mask elem va : Nat) : TrapInfo := mkTrap causeWatch (16 * kind + 256 * mask) elem va

/-! ### Race tags (R328 to R330) -/

def RaceTag.none_ (sector : Nat) : RaceTag :=
  { sector := sector, wSlot := 0, wIvl := 0, aSlot := 0, aIvl := 0, bSlot := 0, bIvl := 0, ovf := false }

def State.tag (s : State) (sector : Nat) : RaceTag := (s.tags.find? (fun t => t.sector == sector)).getD (RaceTag.none_ sector)

def State.setTag (s : State) (t : RaceTag) : State :=
  let r := s.tags.filter (fun u => u.sector != t.sector)
  if t = RaceTag.none_ t.sector then { s with tags := r } else { s with tags := t :: r }

/-- An entry races when its interval exceeds V at its slot; the accessor's own slot never does (R330). -/
def entryRaces (f : Front) (slot : BitVec 8) (ivl : BitVec 16) : Bool :=
  ivl != 0 && slot.toNat != slotOf f && clockGet f.clock slot.toNat < ivl.toNat

def raceInfo (kind : Nat) (slot : BitVec 8) (ivl : BitVec 16) : Nat := 16 * kind + 256 * slot.toNat + 65536 * ivl.toNat

/-- The race a read finds at a tag (TINFO), if any. -/
def readRace (f : Front) (t : RaceTag) : Option Nat :=
  if entryRaces f t.wSlot t.wIvl then some (raceInfo 3 t.wSlot t.wIvl) else none

def writeRace (f : Front) (t : RaceTag) : Option Nat :=
  if entryRaces f t.wSlot t.wIvl then some (raceInfo 1 t.wSlot t.wIvl)
  else if entryRaces f t.aSlot t.aIvl then some (raceInfo 2 t.aSlot t.aIvl)
  else if entryRaces f t.bSlot t.bIvl then some (raceInfo 2 t.bSlot t.bIvl)
  else none

/-- The tag after a read (R330). -/
def tagRead (f : Front) (t : RaceTag) : RaceTag :=
  let me : BitVec 8 := BitVec.ofNat 8 (slotOf f)
  let v : BitVec 16 := BitVec.ofNat 16 (clockGet f.clock (slotOf f))
  let free (sl : BitVec 8) (iv : BitVec 16) : Bool := iv == 0 || iv.toNat ≤ clockGet f.clock sl.toNat
  if t.aIvl != 0 && t.aSlot == me then { t with aIvl := v }
  else if t.bIvl != 0 && t.bSlot == me then { t with bIvl := v }
  else if t.aIvl == 0 then { t with aSlot := me, aIvl := v }
  else if t.bIvl == 0 then { t with bSlot := me, bIvl := v }
  else if free t.aSlot t.aIvl then { t with aSlot := me, aIvl := v }
  else if free t.bSlot t.bIvl then { t with bSlot := me, bIvl := v }
  else { t with ovf := true }

/-- The tag after a write (R330). -/
def tagWrite (f : Front) (t : RaceTag) : RaceTag :=
  { RaceTag.none_ t.sector with wSlot := BitVec.ofNat 8 (slotOf f), wIvl := BitVec.ofNat 16 (clockGet f.clock (slotOf f)) }

/-- Distinct sectors of some keys, in order of first touch. -/
def sectorsOf (ks : List Key) : List Nat := (ks.map (· / 32)).dedup

/-- What an access that the stream issues now is checked against: its clock vector while EN is 1 (R328, R329). -/
def Front.race (f : Front) : Option (List (Nat × Nat)) := if f.csr.raceEn then some f.clock else none

/-- Whether accesses to a page are checked, under what they carry from issue (R328, R331). -/
def raced (v : Option (List (Nat × Nat))) (pl : Place) : Bool := v.isSome && pteRwatch pl.leaf && pteCls pl.leaf == .bm

/-- A race that an access to the bytes at `ks`, from `va`, finds at some tag: TINFO and the sector (R330). -/
def raceAt (f : Front) (tag : Nat → RaceTag) (ks : List Key) (wr : Bool) (va : Nat) : Option (Nat × Nat) :=
  (sectorsOf ks).findSome? (fun c =>
    (if wr then writeRace f (tag c) else readRace f (tag c)).map (fun info => (info, (va + ks.findIdx (fun k => k / 32 == c)) / 32 * 32)))

/-- RACE when the tags of an access's sectors show one against the clock vector as at its stamp (R329, R330). -/
def raceFree (tag : State → Nat → RaceTag) (v : Option (List (Nat × Nat))) (pl : Place) (ks : List Key) (wr : Bool) (elem va : Nat) : M Unit := do
  let s ← get
  if raced v pl then
    match raceAt { s.front with clock := v.getD [] } (tag s) ks wr va with
    | some (info, a) => trapM (mkTrap causeRace info elem a)
    | none => pure ()
  else pure ()

/-- The owners update the tags of an access's sectors. -/
def raceMark (v : Option (List (Nat × Nat))) (pl : Place) (ks : List Key) (wr : Bool) : M Unit :=
  modify fun s =>
    if raced v pl then
      let f : Front := { s.front with clock := v.getD [] }
      (sectorsOf ks).foldl (fun s c =>
        if wr then
          let t := s.tag c
          let s := if t.ovf && s.front.csr.lost != 0xFFFF then s.mapCsr (fun r => { r with lost := r.lost + 1 }) else s
          s.setTag (tagWrite f t)
        else s.setTag (tagRead f (s.tag c))) s
    else s

/-- An access is checked, and its tags are updated. -/
def raceCheck (v : Option (List (Nat × Nat))) (pl : Place) (ks : List Key) (wr : Bool) (elem va : Nat) : M Unit := do
  raceFree State.tag v pl ks wr elem va
  raceMark v pl ks wr

/-! ### Reads -/

/-- Some word of these keys is uncorrectable (R143) or at an absent stack address (R293). -/
def unreadable (s : State) (ks : List Key) : Bool :=
  ks.any (fun k => s.poison.contains (k / 8) || (keyCls k == .sm && !smPresent s k))

/-- The same for a source as at the end of instruction `st`: an owner reads whole sectors, from memory or from the
pre-image that serves them (R204). -/
def sourceBad (s : State) (st : Nat) (ks : List Key) : Bool :=
  (sectorsOf ks).any (fun c =>
    (match shelfServe s c st with
      | some e => !e.bad.isEmpty
      | none => !(sectorBad s c).isEmpty)
    || (keyCls (32 * c) == .sm && !smPresent s (32 * c)))

/-- The sector a pull has brought, if the eye must have one: its owner is another of the domain (R192). -/
def pulled (s : State) (e : Eye) (sector : Nat) : Option (Nat × Option (List Byte)) :=
  match e.who, ownerOf s (32 * sector) with
  | some b, some o =>
    if o ≠ b ∧ inDomain s.front.domBase.toNat s.front.domLog.toNat o then
      some (o, (e.bufs.find? (fun p => p.1 == sector)).map (·.2.1))
    else none
  | _, _ => none

/-- What must still be pulled of the bytes at some keys of a page (R192). -/
def wants (s : State) (e : Eye) (pl : Place) (ks : List Key) : List Want :=
  (sectorsOf ks).filterMap (fun c =>
    match pulled s e c with
    | some (o, none) =>
      let at_ := (ks.filter (fun k => k / 32 == c)).map (· % 32)
      some { own := o, sector := c, lo := at_.foldl min 32, hi := at_.foldl max 0 + 1, base := pl.base, bits := pl.bits }
    | _ => none)

/-- One byte as the eye sees it: from a pull, or as the owner serves it (R193). -/
def seen (s : State) (e : Eye) (k : Key) : Byte :=
  match pulled s e (k / 32) with
  | some (_, some bs) => bs.getD (k % 32) 0
  | _ => byteAt s e.stamp k

/-- The tag of a sector as the eye has it: from a pull, or as it stands (R330). -/
def seenTag (e : Eye) (s : State) (sector : Nat) : RaceTag :=
  match pulled s e sector, e.bufs.find? (fun p => p.1 == sector) with
  | some _, some p => p.2.2
  | _, _ => s.tag sector

/-- Bytes at keys as the eye sees them, with DATA_ERROR and the race check of a read. -/
def readKeys (e : Eye) (pl : Place) (ks : List Key) (va : Nat) : M (List Byte) := do
  let s ← get
  if sourceBad s e.stamp ks then trapM (mkTrap causeDataError 0 e.elem (errorAt ks va))
  else
    match wants s e pl ks with
    | [] => do
      modify (fun s => s.touch ks)
      raceFree (seenTag e) e.race pl ks false e.elem va
      raceMark e.race pl ks false
      pure (ks.map (seen s e))
    | ws => throw (.need ws)

/-- Reads `n` bytes at a virtual address: translation, permission R, placement, alignment to `al`, data
(R74, R152, R176, R204). -/
def readVa (e : Eye) (va n al : Nat) : M (List Byte) := do
  let pl ← xlate e.agent va .read e.elem
  let ks ← keysM pl va n e.elem
  if va % al ≠ 0 then trapM (mkTrap causeAlign 0 e.elem va)
  else readKeys e pl ks va

/-! ### Stores -/

/-- Performs bytes at their places. A store to an absent stack address is dropped and logged (R293); a word
written whole has fresh check bits, a part of an uncorrectable word leaves it so and is logged (R143);
a watched block notes the write (R395). -/
def State.store (s : State) (kbs : List (Key × Byte)) : State :=
  let gone := kbs.filter (fun p => keyCls p.1 == .sm && !smPresent s p.1)
  let kbs := kbs.filter (fun p => !(keyCls p.1 == .sm && !smPresent s p.1))
  let ks := kbs.map (·.1)
  let s := match gone with
    | [] => s
    | g :: _ => s.event 6 0 [g.1 % 2 ^ 52 / 32 * 32, s.front.sid.toNat]
  let whole := wholeWords ks
  let hurt := (ks.map (· / 8)).dedup.filter (fun w => s.poison.contains w && keyCls (8 * w) != .hm && !whole.contains w)
  let s := (hurt.foldl (fun s w => s.event 6 0 [w * 8 % 2 ^ 53 / 32 * 32, s.front.sid.toNat]) s).touch ks
  { s with
    mem := s.mem.sets kbs,
    poison := if s.poison.isEmpty then [] else s.poison.filter (fun w => !whole.contains w),
    monitors := s.monitors.map (fun m => if m.keys.any (fun k => ks.contains k) then { m with hit := true } else m) }

/-- Pre-images of the stream under later instructions take a write stamped `isn`: it is part of an earlier
instruction (R139). Those of other streams take it too: their rollback does not undo it (R327). -/
def patchShelf (s : State) (isn : Nat) (kbs : List (Key × Byte)) : State :=
  { s with shelves := s.shelves.map (fun e =>
      if e.sid != s.front.sid || (isn < e.isn && !e.action) then e.patch kbs else e) }

/-- A write that is no instruction's of a stream: no rollback undoes it (R327). -/
def State.put (s : State) (kbs : List (Key × Byte)) : State :=
  { s with shelves := s.shelves.map (Shelf.patch kbs) }.store kbs

/-- Stores with the shelf entry a write under `isn` needs while it lies above the floor (R139, R196). -/
def State.storeAt (s : State) (isn : Nat) (shelve : Bool) (kbs : List (Key × Byte)) : State :=
  let s := patchShelf s isn kbs
  let s := if shelve then
      (sectorsOf (kbs.map (·.1))).foldl (fun s c => match ownerOf s (32 * c) with
        | some o => shelfPut s o c isn
        | none => s) s
    else s
  s.store kbs

end Sys2Proof.Machine
end

