-- ==== Sys2Proof/Machine/Flags.lean ====
section
/-! DEFINITION. Numbers and flags (spec/04_numbers.md): the formats decoded to exact values, one rounding to
a destination format with its flags, exact arithmetic, orders, WF96 and stochastic bits. -/

namespace Sys2Proof.Machine

/-! ### Flags (R98) -/

abbrev Flags := BitVec 6

def flagNV : Flags := 1
def flagDZ : Flags := 2
def flagOF : Flags := 4
def flagUF : Flags := 8
def flagNX : Flags := 16
def flagRU : Flags := 32

def flagIf (b : Bool) (f : Flags) : Flags := if b then f else 0

/-! ### Exact values -/

/-- A value an operation reads: NaN, infinity, or the dyadic ±m × 2^e. `st` marks a magnitude strictly
between m and m + 1 units of 2^e, for results that are no dyadic number. -/
inductive Num where
  | nan (signalling : Bool)
  | inf (neg : Bool)
  | fin (neg : Bool) (m : Nat) (e : Int) (st : Bool)
  deriving DecidableEq, Repr

def Num.zero (neg : Bool) : Num := .fin neg 0 0 false
def Num.ofInt (i : Int) : Num := .fin (i < 0) i.natAbs 0 false
def Num.isNaN : Num → Bool
  | .nan _ => true
  | _ => false
def Num.isSig : Num → Bool
  | .nan b => b
  | _ => false
def Num.isZero : Num → Bool
  | .fin _ m _ st => m == 0 && !st
  | _ => false
def Num.isNeg : Num → Bool
  | .nan _ => false
  | .inf n => n
  | .fin n _ _ _ => n
def Num.neg : Num → Num
  | .nan b => .nan b
  | .inf n => .inf (!n)
  | .fin n m e st => .fin (!n) m e st
def Num.abs : Num → Num
  | .nan b => .nan b
  | .inf _ => .inf false
  | .fin _ m e st => .fin false m e st
/-- Times 2^k, exactly. -/
def Num.scale (k : Int) : Num → Num
  | .fin n m e st => .fin n m (e + k) st
  | x => x

/-! ### Formats (R76 to R83) -/


/-- Layout of a floating format: fraction bits, exponent bits, bias, and the largest finite value maxM × 2^maxE. -/
structure FloatFmt where
  mb : Nat
  eb : Nat
  bias : Int
  maxM : Nat
  maxE : Int
  /-- Has infinities; flushed under RNDS.FTZ; code of the canonical NaN. -/
  infs : Bool
  flush : Bool
  qnan : Nat

end Sys2Proof.Machine

namespace Sys2Proof

/-- The floating formats of R76 and R79 to R81. -/
def Fmt.fp : Fmt → Option Machine.FloatFmt
  | .f32 => some { mb := 23, eb := 8, bias := 127, maxM := 2 ^ 24 - 1, maxE := 104, infs := true, flush := true, qnan := 0x7FC00000 }
  | .f16 => some { mb := 10, eb := 5, bias := 15, maxM := 2 ^ 11 - 1, maxE := 5, infs := true, flush := true, qnan := 0x7E00 }
  | .bf16 => some { mb := 7, eb := 8, bias := 127, maxM := 2 ^ 8 - 1, maxE := 120, infs := true, flush := false, qnan := 0x7FC0 }
  | .e4m3 => some { mb := 3, eb := 4, bias := 7, maxM := 14, maxE := 5, infs := false, flush := false, qnan := 0x7F }
  | .e5m2 => some { mb := 2, eb := 5, bias := 15, maxM := 7, maxE := 13, infs := true, flush := false, qnan := 0x7E }
  | .e2m1 => some { mb := 1, eb := 2, bias := 1, maxM := 3, maxE := 1, infs := false, flush := false, qnan := 0 }
  | _ => none

/-- Width of an element in bits (R74, R75, R84, R87). -/
def Fmt.bits : Fmt → Nat
  | .i8 | .n8 | .e4m3 | .e5m2 | .e8m0 => 8
  | .i16 | .n16 | .f16 | .bf16 => 16
  | .i32 | .n32 | .f32 => 32
  | .i64 | .n64 => 64
  | .e2m1 | .q4 => 4
  | .q3 => 3
  | .wf96 => 128
  | .bit => 1

/-- Formats whose elements share bytes (R75, R84). -/
def Fmt.packed : Fmt → Bool
  | .e2m1 | .q4 | .q3 | .bit => true
  | _ => false

/-- Bytes of an unpacked element. -/
def Fmt.bytes (f : Fmt) : Nat := f.bits / 8

end Sys2Proof

namespace Sys2Proof.Machine

/-- Sign of a code. -/
def FloatFmt.negOf (p : FloatFmt) (c : Nat) : Bool := fld (p.mb + p.eb) 1 c == 1

/-- Value of a floating code (R76 to R81). E4M3 has one NaN in each sign and no infinity; E2M1 neither. -/
def FloatFmt.decode (p : FloatFmt) (f : Fmt) (ftz : Bool) (c : Nat) : Num :=
  let n := p.negOf c
  let e := fld p.mb p.eb c
  let m := fld 0 p.mb c
  if f = .e4m3 ∧ e = 15 ∧ m = 7 then .nan false
  else if p.infs ∧ e = 2 ^ p.eb - 1 then
    if m = 0 then .inf n else .nan (fld (p.mb - 1) 1 m == 0)
  else if e = 0 then
    if ftz && p.flush then .zero n else .fin n m (1 - p.bias - p.mb) false
  else .fin n (2 ^ p.mb + m) (e - p.bias - p.mb) false

/-- The signed value of an integer code of `f`. -/
def intOf (f : Fmt) (c : Nat) : Int := if f.isN || f = .bit then (c % 2 ^ f.bits : Nat) else sextInt f.bits c

/-- V, CNT and U of a WF96 element (R87). -/
structure W96 where
  v : Int
  cnt : Nat
  u : Bool
  deriving DecidableEq, Repr

def W96.ofBits (c : Nat) : W96 := { v := sextInt 96 c, cnt := fld 96 16 c, u := fld 112 1 c == 1 }
def W96.bits (w : W96) : Nat := wrapNat 96 w.v + at_ 96 w.cnt + at_ 112 (boolNat w.u)

/-- The exact value of an element code (R74 to R83, R89); a block scale is applied by the caller. -/
def decodeNum (f : Fmt) (frac : Nat) (ftz : Bool) (c : Nat) : Num :=
  match f.fp with
  | some p => p.decode f ftz c
  | none =>
    match f with
    | .e8m0 => if c % 256 = 255 then .nan false else .fin false 1 ((c % 256 : Int) - 127) false
    | .wf96 => (Num.ofInt (sextInt 96 c)).scale (-frac)
    | _ => Num.ofInt (intOf f c)

/-! ### Rounding (R91 to R94) -/

/-- How one result is rounded: a mode of R53 other than code 6, saturation, flush, and the random bits of R93. -/
structure Rnd where
  rm : Rm
  sat : Bool
  ftz : Bool
  rbits : Nat

/-- ±m × 2^e (with sticky) as a multiple of 2^q: the integer magnitude and whether it differs (R91, R93). -/
def roundAt (r : Rnd) (neg : Bool) (m : Nat) (e : Int) (st : Bool) (q : Int) : Nat × Bool :=
  if e ≥ q ∧ !st then (m * 2 ^ (e - q).toNat, false)
  else
    let m := if e ≥ q then m * 2 ^ ((e - q).toNat + 1) else m
    let d := if e ≥ q then 1 else (q - e).toNat
    let n := m / 2 ^ d
    let x := m % 2 ^ d
    if x = 0 ∧ !st then (n, false)
    else
      let half := 2 ^ (d - 1)
      let y := x * 2 ^ 32 / 2 ^ d
      let yr := x * 2 ^ 32 % 2 ^ d != 0 || st
      let up : Bool := match r.rm with
        | .rne | .dyn => half < x || (x == half && (st || n % 2 == 1))
        | .rtz => false
        | .rdn => neg
        | .rup => !neg
        | .rna => half ≤ x
        | .rsr => if neg then !(r.rbits < 2 ^ 32 - y - boolNat yr) else r.rbits < y
      (n + boolNat up, true)

/-- m × 2^e > n × 2^f. -/
def above (m : Nat) (e : Int) (n : Nat) (f : Int) : Bool :=
  let g := min e f
  n * 2 ^ (f - g).toNat < m * 2 ^ (e - g).toNat

/-- Code of ±n × 2^q, which the format holds. -/
def FloatFmt.pack (p : FloatFmt) (neg : Bool) (n : Nat) (q : Int) : Nat :=
  let c := if n < 2 ^ p.mb then n else at_ p.mb (q + p.mb + p.bias).toNat + (n - 2 ^ p.mb)
  c + at_ (p.mb + p.eb) (boolNat neg)

def FloatFmt.maxCode (p : FloatFmt) (neg : Bool) : Nat := p.pack neg p.maxM p.maxE
def FloatFmt.infCode (p : FloatFmt) (neg : Bool) : Nat := at_ p.mb (2 ^ p.eb - 1) + at_ (p.mb + p.eb) (boolNat neg)

/-- Result of an overflow (R92). -/
def FloatFmt.overflow (p : FloatFmt) (f : Fmt) (r : Rnd) (neg : Bool) : Nat :=
  let toward : Bool := match r.rm with
    | .rtz => true
    | .rdn => !neg
    | .rup => neg
    | _ => false
  if toward || r.sat || f = .e2m1 then p.maxCode neg
  else if f = .e4m3 then p.qnan else p.infCode neg

/-- round(x, fmt, rm) for a floating destination (R72, R77, R78, R91, R92). -/
def toFloat (p : FloatFmt) (f : Fmt) (r : Rnd) (x : Num) : Nat × Flags :=
  match x with
  | .nan sig => (p.qnan, flagIf (sig || f == .e2m1) flagNV)
  | .inf n =>
    if p.infs then (p.infCode n, 0)
    else (if f = .e4m3 ∧ !r.sat then p.qnan else p.maxCode n, flagNV)
  | .fin n m e st =>
    if m = 0 ∧ !st then (at_ (p.mb + p.eb) (boolNat n), 0)
    else
      let emin := 1 - p.bias
      let b : Int := (Nat.log2 m : Int) + e
      let qu := b - p.mb
      let (nu, xu) := roundAt r n m e st qu
      if above nu qu p.maxM p.maxE then (p.overflow f r n, flagOF ||| flagNX)
      else
        let q := max qu (emin - p.mb)
        let (k, x) := if q = qu then (nu, xu) else roundAt r n m e st q
        let tiny := above 1 emin nu qu
        if r.ftz && p.flush && 0 < k && k < 2 ^ p.mb then (at_ (p.mb + p.eb) (boolNat n), flagUF ||| flagNX)
        else
          let (k', q') := if k ≥ 2 ^ (p.mb + 1) then (k / 2, q + 1) else (k, q)
          (p.pack n k' q', flagIf x flagNX ||| flagIf (tiny && x) flagUF)

/-- Range of an integer format. -/
def intRange (f : Fmt) : Int × Int :=
  if f.isN then (0, 2 ^ f.bits - 1) else (-(2 ^ (f.bits - 1)), 2 ^ (f.bits - 1) - 1)

def clampInt (lo hi i : Int) : Int := if i < lo then lo else if hi < i then hi else i

/-- An exact integer in an integer format: wrapped, or clamped under SAT; no flags (R94). -/
def toIntFmt (f : Fmt) (sat : Bool) (i : Int) : Nat :=
  wrapNat f.bits (if sat then clampInt (intRange f).1 (intRange f).2 i else i)

/-- Rounds a value to an integer. -/
def roundInt (r : Rnd) (x : Num) : Int × Bool :=
  match x with
  | .fin n m e st => let (k, ix) := roundAt r n m e st 0; (if n then -(k : Int) else k, ix)
  | _ => (0, false)

/-- A floating value converted to an integer format: rounded, always clamped (R94). Out of range, NX is set only
where the rounding was inexact, not for the clamp (DESIGN CHOICE, log entry 71). -/
def numToInt (f : Fmt) (r : Rnd) (x : Num) : Nat × Flags :=
  let (lo, hi) := intRange f
  match x with
  | .nan _ => (0, flagNV)
  | .inf n => (wrapNat f.bits (if n then lo else hi), flagNV)
  | x =>
    let (i, ix) := roundInt r x
    (wrapNat f.bits (clampInt lo hi i), flagIf ix flagNX ||| flagIf (i < lo || hi < i) flagNV)

def w96Lim : Int := 2 ^ 79 - 1

/-- An addend converted to WF96 with `frac` (R88); CNT 1. -/
def toW96 (frac : Nat) (x : Num) : W96 × Flags :=
  match x with
  | .nan _ => ({ v := 0, cnt := 1, u := true }, flagNV ||| flagRU)
  | .inf n => ({ v := if n then -w96Lim else w96Lim, cnt := 1, u := true }, flagRU)
  | x =>
    let (i, ix) := roundInt { rm := .rne, sat := false, ftz := false, rbits := 0 } (x.scale frac)
    if i.natAbs > w96Lim.natAbs then ({ v := if i < 0 then -w96Lim else w96Lim, cnt := 1, u := true }, flagRU ||| flagNX)
    else ({ v := i, cnt := 1, u := false }, flagIf ix flagNX)

/-- A WF96 value rescaled to another FRAC, keeping CNT and U (R88). -/
def rescaleW96 (src dst : Nat) (w : W96) : W96 × Flags :=
  let (x, f) := toW96 dst ((Num.ofInt w.v).scale (-src))
  ({ x with cnt := w.cnt, u := w.u || x.u }, f)

/-- A WF96 addend under the destination's FRAC: rescaled and checked when its own differs, else as it is (R88). -/
def w96To (src dst : Nat) (w : W96) : W96 × Flags := if src = dst then (w, 0) else rescaleW96 src dst w

/-- WF96 values combined (R89); `sub` subtracts the second (R213). -/
def addW96 (sub : Bool) (a b : W96) : W96 :=
  { v := sextInt 96 (wrapNat 96 (if sub then a.v - b.v else a.v + b.v)),
    cnt := min 65535 (a.cnt + b.cnt), u := a.u || b.u || a.cnt + b.cnt > 65535 }

/-! ### Stochastic bits (R93) -/

def mix64 (z : Word) : Word :=
  let z := (z ^^^ (z >>> 30)) * 0xBF58476D1CE4E5B9
  let z := (z ^^^ (z >>> 27)) * 0x94D049BB133111EB
  z ^^^ (z >>> 31)

/-- The constant of R93 for follow-on actions. -/
def followSalt : Word := 0xA0761D6478BD642F

/-- 32 random bits for index `i` of instruction `n`. -/
def stochBits (seed : Word) (sid : BitVec 16) (n : Nat) (salt : Word) (i : Nat) : Nat :=
  let key : Word := BitVec.ofNat 64 (at_ 48 sid.toNat + n % 2 ^ 48)
  let z := mix64 (seed ^^^ key ^^^ salt)
  let z := mix64 (z ^^^ (BitVec.ofNat 64 i * 0x9E3779B97F4A7C15))
  (z >>> 32).toNat

/-! ### Exact arithmetic (R212) -/

/-- NV when some operand is signalling, and whether some operand is a NaN. -/
def sigFlags (xs : List Num) : Flags := flagIf (xs.any Num.isSig) flagNV

/-- a + b exactly; `rdn` gives the sign of a zero that terms of opposite sign leave. -/
def addNum (rdn : Bool) (a b : Num) : Num × Flags :=
  match a, b with
  | .nan x, .nan y => (.nan false, flagIf (x || y) flagNV)
  | .nan x, _ => (.nan false, flagIf x flagNV)
  | _, .nan y => (.nan false, flagIf y flagNV)
  | .inf x, .inf y => if x = y then (.inf x, 0) else (.nan false, flagNV)
  | .inf x, _ => (.inf x, 0)
  | _, .inf y => (.inf y, 0)
  | .fin na ma ea _, .fin nb mb eb _ =>
    let g := min ea eb
    let va : Int := ma * 2 ^ (ea - g).toNat
    let vb : Int := mb * 2 ^ (eb - g).toNat
    let s := (if na then -va else va) + (if nb then -vb else vb)
    if s = 0 then (.zero (if na = nb then na else rdn), 0) else (.fin (s < 0) s.natAbs g false, 0)

/-- a × b exactly. -/
def mulNum (a b : Num) : Num × Flags :=
  match a, b with
  | .nan x, .nan y => (.nan false, flagIf (x || y) flagNV)
  | .nan x, _ => (.nan false, flagIf x flagNV)
  | _, .nan y => (.nan false, flagIf y flagNV)
  | .inf x, y => if y.isZero then (.nan false, flagNV) else (.inf (x != y.isNeg), 0)
  | x, .inf y => if x.isZero then (.nan false, flagNV) else (.inf (y != x.isNeg), 0)
  | .fin na ma ea _, .fin nb mb eb _ => (.fin (na != nb) (ma * mb) (ea + eb) false, 0)

/-- a × b + c exactly; a signalling operand sets NV wherever it stands. -/
def fmaNum (rdn : Bool) (a b c : Num) : Num × Flags :=
  let (p, f) := mulNum a b
  let (s, g) := addNum rdn p c
  (s, f ||| g ||| sigFlags [a, b, c])

/-- num ÷ den × 2^e to at least 160 bits, with sticky. -/
def quotient (neg : Bool) (num den : Nat) (e : Int) : Num :=
  let k := 160 + Nat.log2 den + 1
  let n := num * 2 ^ k
  .fin neg (n / den) (e - k) (n % den != 0)

/-- Integer square root by descent from above. -/
def isqrtFrom : Nat → Nat → Nat → Nat
  | 0, _, x => x
  | f + 1, n, x => let y := (x + n / x) / 2; if y < x then isqrtFrom f n y else x

def isqrt (n : Nat) : Nat := if n = 0 then 0 else isqrtFrom (Nat.log2 n + 4) n (2 ^ (Nat.log2 n / 2 + 1))

/-- 1 ÷ √(m × 2^e). -/
def rsqrtNum (m : Nat) (e : Int) : Num :=
  let (m, e) := if e % 2 = 0 then (m, e) else (2 * m, e - 1)
  let k := 160 + Nat.log2 m
  let y := isqrt (2 ^ (2 * k) / m)
  .fin false y (-(k : Int) - e / 2) (y * y * m != 2 ^ (2 * k))

/-- Working precision of `vexp2` and `vlog2` (log entry 6). -/
def guardBits : Nat := 400

/-- 2^(0.b₁b₂…), the bits taken from the last: √(2^b × so far), in units of 2^-guardBits. -/
def exp2Frac : Nat → Nat → Nat → Nat
  | 0, _, v => v
  | n + 1, f, v => exp2Frac n (f / 2) (isqrt ((if f % 2 = 1 then 2 * v else v) * 2 ^ guardBits))

/-- 2^x for a finite value. -/
def exp2Num (n : Bool) (m : Nat) (e : Int) : Num :=
  if e ≥ 0 ∨ m % 2 ^ (-e).toNat = 0 then
    let k : Int := if e ≥ 0 then (min (m * 2 ^ (min e 16).toNat) 4096 : Nat) else (min (m / 2 ^ (-e).toNat) 4096 : Nat)
    .fin false 1 (if n then -k else k) false
  else
    let d := (-e).toNat
    let whole := m / 2 ^ d
    if whole ≥ 4096 then .fin false 1 (if n then -4097 else 4096) true
    else
      -- x = k + f / 2^d with 0 < f < 2^d
      let fr := m % 2 ^ d
      let (k, f) : Int × Nat := if n then (-(whole : Int) - 1, 2 ^ d - fr) else (whole, fr)
      .fin false (exp2Frac d f (2 ^ guardBits)) (k - guardBits) true

/-- Bits of log2 y for y in [1, 2), by squaring; `y` in units of 2^-p. -/
def log2Frac (p : Nat) : Nat → Nat → Nat → Nat
  | 0, _, acc => acc
  | n + 1, y, acc =>
    let z := y * y / 2 ^ p
    if z ≥ 2 ^ (p + 1) then log2Frac p n (z / 2) (2 * acc + 1) else log2Frac p n z (2 * acc)

/-- log2 of m × 2^e, m not zero. -/
def log2Num (m : Nat) (e : Int) : Num :=
  let b := Nat.log2 m
  let k := (b : Int) + e
  if m = 2 ^ b then Num.ofInt k
  else
    let p := 2 * guardBits
    let fr := log2Frac p guardBits (m * 2 ^ (p - b)) 0
    -- k + (fr + δ) / 2^guardBits, 0 < δ < 1
    let t : Int := k * 2 ^ guardBits + fr
    if t ≥ 0 then .fin false t.toNat (-guardBits) true else .fin true ((-t).toNat - 1) (-guardBits) true

/-! ### Orders (R95, R214, R217) -/

/-- Numeric order of two values that are no NaN: −1, 0 or 1; −0 equals +0. -/
def cmpNum (a b : Num) : Int :=
  match a, b with
  | .inf x, .inf y => if x = y then 0 else if x then -1 else 1
  | .inf x, _ => if x then -1 else 1
  | _, .inf y => if y then 1 else -1
  | .fin na ma ea _, .fin nb mb eb _ =>
    let g := min ea eb
    let va : Int := ma * 2 ^ (ea - g).toNat
    let vb : Int := mb * 2 ^ (eb - g).toNat
    let x := (if na then -va else va) - (if nb then -vb else vb)
    if x < 0 then -1 else if x = 0 then 0 else 1
  | _, _ => 0

/-- A code as an operation that reads it as a number takes it: under FTZ a denormal is zero of its sign (R78). -/
def FloatFmt.flushed (p : FloatFmt) (ftz : Bool) (c : Nat) : Nat :=
  if ftz && p.flush && fld p.mb p.eb c == 0 then at_ (p.mb + p.eb) (boolNat (p.negOf c)) else c

/-- The lesser or the greater of two codes of a format: one of the operands as read (R78), a NaN canonical
(R95, R214). -/
def minMax (f : Fmt) (ftz wantMax : Bool) (a b : Nat) : Nat × Flags :=
  match f.fp with
  | some p =>
    let a := p.flushed ftz a
    let b := p.flushed ftz b
    let x := p.decode f ftz a
    let y := p.decode f ftz b
    let fl := sigFlags [x, y]
    if x.isNaN && y.isNaN then (p.qnan, fl)
    else if x.isNaN then (b, fl)
    else if y.isNaN then (a, fl)
    else
      let c := cmpNum x y
      let c := if c = 0 ∧ x.isZero then (boolNat y.isNeg : Int) - boolNat x.isNeg else c
      (if c = 0 ∨ (c > 0) = wantMax then a else b, fl)
  | none => (if (intOf f a ≥ intOf f b) = wantMax then a else b, 0)

/-- Compares of R217. -/
inductive CmpOp where
  | eq | ne | lt | le
  deriving DecidableEq, Repr

def CmpOp.holds (o : CmpOp) (c : Int) : Bool :=
  match o with
  | .eq => c == 0
  | .ne => c != 0
  | .lt => c < 0
  | .le => c ≤ 0

def compareCodes (o : CmpOp) (f : Fmt) (ftz : Bool) (a b : Nat) : Bool × Flags :=
  match f.fp with
  | some p =>
    let x := p.decode f ftz a
    let y := p.decode f ftz b
    if x.isNaN || y.isNaN then (o == .ne, sigFlags [x, y]) else (o.holds (cmpNum x y), 0)
  | none => (o.holds (intOf f a - intOf f b), 0)

/-! ### Unary functions (R215) -/

inductive UnOp where
  | abs | neg | rcp | rsq | exp2 | log2
  deriving DecidableEq, Repr

/-- An infinite result under SAT is ±max (R215). -/
def satInf (p : FloatFmt) (r : Rnd) (n : Bool) : Nat := if r.sat then p.maxCode n else p.infCode n

/-- A unary function of a floating code. -/
def unaryFloat (o : UnOp) (p : FloatFmt) (f : Fmt) (r : Rnd) (c : Nat) : Nat × Flags :=
  let sign := p.mb + p.eb
  match p.decode f (r.ftz && o != .abs && o != .neg) c with
  | .nan sig => (p.qnan, flagIf sig flagNV)
  | .inf n =>
    match o with
    | .abs => (c % 2 ^ sign, 0)
    | .neg => (c ^^^ 2 ^ sign, 0)
    | .rcp => (at_ sign (boolNat n), 0)
    | .rsq => if n then (p.qnan, flagNV) else (0, 0)
    | .exp2 => (if n then 0 else satInf p r false, 0)
    | .log2 => if n then (p.qnan, flagNV) else (satInf p r false, 0)
  | .fin n m e st =>
    let z := m == 0
    match o with
    | .abs => (c % 2 ^ sign, 0)
    | .neg => (c ^^^ 2 ^ sign, 0)
    | .rcp => if z then (satInf p r n, flagDZ) else toFloat p f r (quotient n 1 m (-e))
    | .rsq => if z then (satInf p r n, 0) else if n then (p.qnan, flagNV) else toFloat p f r (rsqrtNum m e)
    | .exp2 => if z then toFloat p f r (.fin false 1 0 false) else toFloat p f r (exp2Num n m e)
    | .log2 =>
      if z then (satInf p r true, flagDZ) else if n then (p.qnan, flagNV)
      else if st then (p.qnan, flagNV) else toFloat p f r (log2Num m e)

/-- A unary function of an element. Integers have absolute value and negation alone. -/
def unaryElem (o : UnOp) (f : Fmt) (r : Rnd) (c : Nat) : Nat × Flags :=
  match f.fp with
  | some p => unaryFloat o p f r c
  | none =>
    let i := intOf f c
    (toIntFmt f r.sat (if o = .abs then i.natAbs else -i), 0)

/-! ### Arithmetic of R212 on codes -/

inductive ArOp where
  | add | sub | mul | fma | fms | fnma
  deriving DecidableEq, Repr

/-- The exact integer value of an operation. -/
def ArOp.int (o : ArOp) (a b c : Int) : Int :=
  match o with
  | .add => a + b
  | .sub => a - b
  | .mul => a * b
  | .fma => a * b + c
  | .fms => a * b - c
  | .fnma => c - a * b

/-- The exact value of an operation on floating operands. -/
def ArOp.num (o : ArOp) (rdn : Bool) (a b c : Num) : Num × Flags :=
  match o with
  | .add => addNum rdn a b
  | .sub => addNum rdn a b.neg
  | .mul => mulNum a b
  | .fma => fmaNum rdn a b c
  | .fms => fmaNum rdn a b c.neg
  | .fnma => fmaNum rdn a.neg b c

/-- One element of an arithmetic instruction in an I, N or F format (R212). -/
def arith (o : ArOp) (f : Fmt) (r : Rnd) (a b c : Nat) : Nat × Flags :=
  match f.fp with
  | some p =>
    let (x, fl) := o.num (r.rm == .rdn) (p.decode f r.ftz a) (p.decode f r.ftz b) (p.decode f r.ftz c)
    let (y, fl') := toFloat p f r x
    (y, fl ||| fl')
  | none => (toIntFmt f r.sat (o.int (intOf f a) (intOf f b) (intOf f c)), 0)

/-- One element of `vadd.wf96` or `vsub.wf96` (R213). -/
def arithW96 (sub : Bool) (a b : Nat) : Nat × Flags :=
  let w := addW96 sub (W96.ofBits a) (W96.ofBits b)
  (w.bits, flagIf w.u flagRU)

/-! ### Conversion (R222) -/

/-- Where a conversion's values come from and go: formats and their FRACs. -/
structure Conv where
  src : Fmt
  dst : Fmt
  srcFrac : Nat
  dstFrac : Nat

/-- One element converted, its block scale already applied in `x` when the source is block-scaled. A WF96 source
is rescaled and checked where the FRACs differ (R88). -/
def convert (k : Conv) (r : Rnd) (c : Nat) (x : Num) : Nat × Flags :=
  let ru := flagIf (k.src == .wf96 && (W96.ofBits c).u) flagRU
  if k.dst = .wf96 then
    if k.src = .wf96 then
      let (w, f) := w96To k.srcFrac k.dstFrac (W96.ofBits c)
      (w.bits, f ||| flagIf w.u flagRU)
    else let (w, f) := toW96 k.dstFrac x; (w.bits, f ||| sigFlags [x])
  else
    match k.dst.fp with
    | some p =>
      if k.src = .e8m0 ∧ x.isNaN then (p.qnan, 0)
      else let (y, f) := toFloat p k.dst r x; (y, f ||| ru)
    | none =>
      if k.src.isIN then (toIntFmt k.dst r.sat (intOf k.src c), 0)
      else let (y, f) := numToInt k.dst r x; (y, f ||| ru)

/-! ### Block scales (R85, R86) -/

/-- A decoded code times its scale (R85): an infinite scale makes a zero code NaN. The second part is NV. A signalling
NaN as a scale raises no flag (DESIGN CHOICE, log entry 71). -/
def applyScale (x s : Num) : Num × Flags :=
  match s with
  | .nan _ => (.nan false, 0)
  | _ => mulNum x s

/-- The largest magnitude of a group's values. -/
def amaxOf : List Num → Num
  | [] => .zero false
  | x :: r => let y := amaxOf r; if cmpNum x.abs y > 0 then x.abs else y

/-- The scale and codes of one group in a block-scaled format (R86): values of its real elements with their
rounding. The flags of rounding a bf16 scale join those of the elements (DESIGN CHOICE, log entry 71). -/
def blockScale (f : Fmt) (xs : List (Num × Rnd)) : Nat × List Nat × Flags :=
  let e2 := f == .e2m1
  let am := amaxOf (xs.map (·.1))
  if xs.any (fun x => match x.1 with | .fin .. => false | _ => true) then
    (if e2 then 0xFF else 0x7FC0, xs.map (fun _ => 0), flagNV)
  else
    match am with
    | .fin _ 0 _ _ => (if e2 then 0x7F else 0x3F80, xs.map (fun _ => 0), 0)
    | .fin _ m e _ =>
      if e2 then
        let s := (clampInt 0 254 ((Nat.log2 m : Int) + e + 125)).toNat
        let rs := xs.map (fun x => match Fmt.e2m1.fp with
          | some p => toFloat p .e2m1 { x.2 with sat := false, ftz := false } (x.1.scale (127 - s))
          | none => (0, 0))
        (s, rs.map (·.1), rs.foldl (fun g x => g ||| x.2) 0)
      else
        let q : Nat := if f = .q4 then 7 else 3
        match Fmt.bf16.fp with
        | none => (0, [], 0)
        | some p =>
          let (sc, sf) := toFloat p .bf16 { rm := .rup, sat := false, ftz := false, rbits := 0 } (quotient false m q e)
          match p.decode .bf16 false sc with
          | .fin _ sm se _ =>
            let rs := xs.map (fun x => match x.1 with
              | .fin n xm xe _ =>
                let (i, ix) := roundInt x.2 (if xm = 0 then .zero n else quotient n xm sm (xe - se))
                (wrapNat f.bits (clampInt (-q) q i), ix)
              | _ => (0, false))
            (sc, rs.map (·.1), sf ||| flagIf (rs.any (·.2)) flagNX)
          | _ => (sc, xs.map (fun _ => 0), sf)
    | _ => (0, [], 0)

end Sys2Proof.Machine
end

