-- ==== Sys2Proof/Machine/Operands.lean ====
section
/-! DEFINITION. Operand forms of broadcasts: window descriptors and the addresses of their elements in the
four modes, shape records, source modifiers, masks, the checks of the front, source footprints, and the
write of a destination element at its owner (spec/07_windows.md, spec/08_banks.md). -/

namespace Sys2Proof.Machine

/-! ### Descriptors (R159) -/

def Desc.base (d : Desc) : Nat := fld 0 56 d.toNat
def Desc.fmtCode (d : Desc) : BitVec 5 := d.extractLsb' 56 5
def Desc.fmt (d : Desc) : Option Fmt := Fmt.ofCode (Desc.fmtCode d)
def Desc.mode (d : Desc) : Nat := fld 61 2 d.toNat
def Desc.stride (d : Desc) : Int := sextInt 32 (fld 64 32 d.toNat)
def Desc.idx (d : Desc) : WReg := d.extractLsb' 96 5
def Desc.scl (d : Desc) : WReg := d.extractLsb' 101 5
def Desc.grp (d : Desc) : Nat := fld 106 3 d.toNat
def Desc.frac (d : Desc) : Nat := fld 109 7 d.toNat

/-- Reserved bits [63] and [127:116] written as zero (R159). -/
def Desc.clean (d : Desc) : Desc := d &&& 0x000FFFFFFFFFFFFF7FFFFFFFFFFFFFFF

/-- The descriptor with another BASE, modulo 2^56 (R173). -/
def Desc.setBase (d : Desc) (b : Nat) : Desc := BitVec.ofNat 128 (d.toNat / 2 ^ 56 * 2 ^ 56 + b % 2 ^ 56)

/-- Group length G (R85). -/
def Desc.group (d : Desc) : Nat := 2 ^ (Desc.grp d + 4)

/-- A window as a broadcast carries it (R160): its descriptor and those reached through IDX and SCL. -/
structure Win where
  d : Desc
  idx : Desc
  scl : Desc

/-- The carried windows: 0 WD, 1 WA, 2 WB, 3 WC, 4 WM (R393). -/
def Carry.win (c : Carry) (k : Nat) : Win :=
  { d := c.descs.get (Fin.ofNat 13 k),
    idx := if k < 4 then c.descs.get (Fin.ofNat 13 (5 + k)) else 0,
    scl := if k < 4 then c.descs.get (Fin.ofNat 13 (9 + k)) else 0 }

/-- A scale window as a window of its own; it has no index window (log entry 7). -/
def Win.scale (w : Win) : Win := { d := w.scl, idx := 0, scl := 0 }

/-- Real elements: VL − VPAD (R169). -/
def Carry.real (c : Carry) : Nat := c.vl.toNat - c.vpad.toNat

/-! ### Shape records (R163, R164) -/

structure Shape where
  base : Nat
  rank : Nat
  ext : List Nat
  str : List Int
  row : Nat
  col : Nat
  tiled : Bool

/-- The record in 16 little-endian numbers, or none when a field breaks R163. -/
def Shape.ofNums (v : List Nat) : Option Shape :=
  let g (i : Nat) : Nat := v.getD i 0
  let r := g 1
  let okDim (k : Nat) : Bool := if k < r then 1 ≤ g (2 + k) && g (2 + k) < 2 ^ 32 else g (2 + k) == 0 && g (6 + k) == 0
  if g 0 < 2 ^ 56 ∧ 1 ≤ r ∧ r ≤ 4 ∧ (List.range 4).all okDim ∧ g 10 < 2 ^ 32 ∧ g 11 < 2 ^ 32 ∧ g 12 < 2 ∧ g 13 = 0 ∧ g 14 = 0 ∧ g 15 = 0 then
    some { base := g 0, rank := r, ext := (List.range 4).map (fun k => if k < r then g (2 + k) else 1),
           str := (List.range 4).map (fun k => sextInt 64 (g (6 + k))), row := g 10, col := g 11, tiled := g 12 == 1 }
  else none

/-- Elements the record spans. -/
def Shape.size (r : Shape) : Nat := r.ext.foldl (· * ·) 1

/-- Address of element `i` (R163). -/
def Shape.addr (r : Shape) (i : Nat) : Nat :=
  let e (k : Nat) : Nat := r.ext.getD k 1
  let t (k : Nat) : Int := r.str.getD k 0
  let i0 : Int := ((i % e 0 + r.col : Nat) : Int)
  let i1 : Int := ((i / e 0 % e 1 + r.row : Nat) : Int)
  let i2 : Int := ((i / (e 0 * e 1) % e 2 : Nat) : Int)
  let i3 : Int := ((i / (e 0 * e 1 * e 2) % e 3 : Nat) : Int)
  wrapNat 64 ((r.base : Int) + i0 * t 0 + i1 * t 1 + i2 * t 2 + i3 * t 3)

/-- Groups of eight bytes as numbers. -/
def eights : Nat → List Byte → List Nat
  | 0, _ => []
  | n + 1, bs => bytesNat (bs.take 8) :: eights n (bs.drop 8)

/-- A record that breaks R163 or is too small: ILLEGAL_OPERAND with code 12 at element 0, at the record (R164, R166). -/
def shapeTrap (va : Nat) : TrapInfo := { operandTrap 12 with addr := BitVec.ofNat 64 va }

/-- Reads and checks the shape record of a window; every fault of R164 stands at element 0. -/
def readShape (e : Eye) (d : Desc) (vl : Nat) : M Shape := do
  let va := Desc.base d
  if va % 128 ≠ 0 then trapM (mkTrap causeAlign 0 0 va)
  else
    let bs ← readVa e va 128 1
    match Shape.ofNums (eights 16 bs) with
    | some r => if r.size < vl then trapM (shapeTrap va) else pure r
    | none => trapM (shapeTrap va)

/-! ### Element addresses (R161) -/

/-- A packed code read byte by byte: each byte is translated where it lies (R75, R84). -/
def readBytes1 (e : Eye) (va : Nat) : Nat → M (List Byte)
  | 0 => pure []
  | n + 1 => do
    let b ← readVa e va 1 1
    let r ← readBytes1 e ((va + 1) % 2 ^ 64) n
    pure (b ++ r)

/-- The code of an element at an address (and bit offset) in a format (R74, R75, R84, R87). -/
def readAt (e : Eye) (f : Fmt) (va bo : Nat) : M Nat := do
  if f.packed then
    let bs ← readBytes1 e va ((bo + f.bits + 7) / 8)
    pure (fld bo f.bits (bytesNat bs))
  else
    let bs ← readVa e va f.bytes f.bytes
    pure (bytesNat bs)

/-- Address of element `i` in modes 0 and 1. -/
def flatVa (d : Desc) (f : Fmt) (i : Nat) : Nat × Nat :=
  if Desc.mode d = 0 then ((Desc.base d + i * f.bits / 8) % 2 ^ 64, i * f.bits % 8)
  else (wrapNat 64 ((Desc.base d : Int) + i * Desc.stride d), 0)

/-- Element `i` of an index window as an integer (R161, R162). -/
def readIndex (e : Eye) (d : Desc) (i : Nat) : M Int := do
  match Desc.fmt d with
  | none => pure 0
  | some f =>
    let p := flatVa d f i
    let c ← readAt e f p.1 p.2
    pure (intOf f c)

/-- Virtual address and bit offset of element `i` of a window of format `f` (R161). -/
def elemVa (e : Eye) (vl : Nat) (w : Win) (f : Fmt) (i : Nat) : M (Nat × Nat) := do
  match Desc.mode w.d with
  | 2 =>
    let x ← readIndex e w.idx i
    pure (wrapNat 64 ((Desc.base w.d : Int) + x * Desc.stride w.d), 0)
  | 3 =>
    let r ← readShape e w.d vl
    pure (r.addr i, 0)
  | _ => pure (flatVa w.d f i)

/-- The code of element `i` of a source window, as at the eye's stamp (R72, R176). -/
def readElem (e : Eye) (vl : Nat) (w : Win) (f : Fmt) (i : Nat) : M Nat := do
  let p ← elemVa e vl w f i
  readAt e f p.1 p.2

/-! ### Masks and source modifiers (R175, R177) -/

/-- active(i) of R72. -/
def active (e : Eye) (c : Carry) (masked : Bool) (i : Nat) : M Bool := do
  if i < c.real then
    if masked then
      let b ← readElem e c.vl.toNat (c.win 4) .bit i
      pure (b == 1)
    else pure true
  else pure false

/-- The source index of destination element `i` (R175); none delivers zero of the format. -/
def srcIndex (c : Carry) (amod : AMod) (gsz : BitVec 3) (fill : Bool) (imm : BitVec 16) (i : Nat) : Option Nat :=
  let vl := c.vl.toNat
  let gl := if gsz = 7 then vl else 2 ^ (gsz.toNat + 2)
  let gs := i / gl * gl
  let ge := gs + gl - 1
  let d := imm.toInt
  let j : Int := match amod with
    | .none => i
    | .shift => i + d
    | .rotate => gs + ((i : Int) - gs + d) % gl
    | .bcast => gs + imm.toNat
    | .reverse => gs + (ge - i)
  let k : Option Nat :=
    if j < gs ∨ j > ge ∨ j ≥ vl then
      if fill then some (if j < gs then gs else min ge (vl - 1)) else none
    else some j.toNat
  match k with
  | some k => if k < c.real then some k else none
  | none => none

/-- Operand A with its modifier: the code, and the source element it came from. The fill of e8m0, which has no
zero, is code 0x00 (DESIGN CHOICE, log entry 71). -/
def operandA (e : Eye) (c : Carry) (v : VArgs) (f : Fmt) (i : Nat) : M (Nat × Option Nat) := do
  match srcIndex c v.amod v.gsz v.fill (if v.amod = .none then 0 else v.imm) i with
  | none => pure (0, none)
  | some j =>
    let x ← readElem e c.vl.toNat (c.win 1) f j
    pure (x, some j)

/-- Operand B: the scalar, or element `i` of its window (R57). -/
def operandB (e : Eye) (c : Carry) (v : VArgs) (i : Nat) : M Nat :=
  if v.sb then pure (c.scalarB.toNat % 2 ^ v.fmt.bits) else readElem e c.vl.toNat (c.win 2) v.fmt i

/-- Format of the scale window of a block-scaled format (R85). -/
def scaleFmt (f : Fmt) : Fmt := if f = .e2m1 then .e8m0 else .bf16

/-- The exact value of a source code of element `j`, with its group's scale for block-scaled formats (R85). -/
def sourceNum (e : Eye) (c : Carry) (w : Win) (f : Fmt) (x : Nat) (j : Option Nat) : M (Num × Flags) := do
  let n := decodeNum f (Desc.frac w.d) c.ftz x
  match f.isS, j with
  | true, some j =>
    let sc ← readElem e c.vl.toNat w.scale (scaleFmt f) (j / Desc.group w.d)
    pure (applyScale n (decodeNum (scaleFmt f) 0 false sc))
  | _, _ => pure (n, 0)

/-! ### Rounding that a broadcast carries (R53, R96, R99) -/

/-- The mode of code 6 is the carried RNDS.RM. -/
def Carry.mode (c : Carry) (r : Rm) : Rm := match r with
  | .dyn => (Rm.ofCode c.rm).getD .rne
  | r => r

/-- How element index `i` of instruction `n` is rounded (R93). -/
def mkRnd (c : Carry) (sid : BitVec 16) (n : Nat) (salt : Word) (rm : Rm) (sat : Bool) (i : Nat) : Rnd :=
  { rm := c.mode rm, sat := sat, ftz := c.ftz,
    rbits := if c.mode rm = .rsr then stochBits c.seed sid n salt i else 0 }

/-! ### Source footprints (R196, R237) -/

/-- Bytes that `n` elements of a window in mode 0 or 1 span. -/
def flatRange (d : Desc) (f : Fmt) (n : Nat) : Range :=
  if Desc.mode d = 0 then { lo := Desc.base d, hi := Desc.base d + (n * f.bits + 7) / 8 }
  else
    let far : Int := (Desc.base d : Int) + ((n - 1 : Nat) : Int) * Desc.stride d
    { lo := (min (Desc.base d : Int) far).toNat, hi := ((max (Desc.base d : Int) far) + max 1 f.bytes).toNat }

/-- Range of an indexed window: BASE plus STRIDE times every value of the index format (R196). -/
def indexedRange (d idx : Desc) (f : Fmt) : Option Range :=
  match Desc.fmt idx with
  | some .i16 => some (span (-32768) 32767)
  | some .n16 => some (span 0 65535)
  | _ => none
where
  span (a b : Int) : Range :=
    let x := (Desc.base d : Int) + a * Desc.stride d
    let y := (Desc.base d : Int) + b * Desc.stride d
    { lo := (min x y).toNat, hi := (max x y + max 1 f.bytes).toNat }

/-- Bounding box of a shape record (R196), in the signed order of its strides. -/
def Shape.range (r : Shape) (f : Fmt) : Range :=
  let t (k : Nat) : Int := r.str.getD k 0
  let e (k : Nat) : Int := ((r.ext.getD k 1 - 1 : Nat) : Int)
  let b : Int := (r.base : Int) + (r.col : Int) * t 0 + (r.row : Int) * t 1
  let lo := b + (List.range 4).foldl (fun a k => a + min 0 (e k * t k)) (0 : Int)
  let hi := b + (List.range 4).foldl (fun a k => a + max 0 (e k * t k)) (0 : Int)
  { lo := lo.toNat, hi := (hi + max 1 f.bytes).toNat }

/-- Ranges of the elements of the scale window of a block-scaled window over `n` elements. -/
def scaleRanges (e : Eye) (n : Nat) (w : Win) (f : Fmt) : M (List Range) := do
  if Desc.mode w.scl = 3 then
    let r ← readShape e w.scl n
    pure [r.range (scaleFmt f)]
  else pure [flatRange w.scl (scaleFmt f) ((n + Desc.group w.d - 1) / Desc.group w.d)]

/-- Bytes of a window's elements over `n` elements, and of its scale elements; none is all addresses. -/
def elemRanges (e : Eye) (n : Nat) (w : Win) : M (Option (List Range)) := do
  match Desc.fmt w.d with
  | none => pure (some [])
  | some f =>
    if n = 0 then pure (some [])
    else
      let sc ← if f.isS then scaleRanges e n w f else pure []
      match Desc.mode w.d with
      | 2 => pure ((indexedRange w.d w.idx f).map (fun r => r :: sc))
      | 3 => do
        let r ← readShape e w.d n
        pure (some (r.range f :: sc))
      | _ => pure (some (flatRange w.d f n :: sc))

/-- What is read to find a window's elements: its index window, its shape record and that of its scale window. -/
def sideRanges (n : Nat) (w : Win) : List Range :=
  let record (d : Desc) : List Range := if Desc.mode d = 3 then [{ lo := Desc.base d, hi := Desc.base d + 128 }] else []
  if n = 0 then []
  else
    (if Desc.mode w.d = 2 then [flatRange w.idx ((Desc.fmt w.idx).getD .i64) n] else []) ++ record w.d
      ++ (if ((Desc.fmt w.d).map Fmt.isS).getD false then record w.scl else [])

/-- Ranges of a window over `n` elements, index and scale windows included; none is all addresses. -/
def winRanges (e : Eye) (n : Nat) (w : Win) : M (Option (List Range)) := do
  let r ← elemRanges e n w
  pure (r.map (· ++ sideRanges n w))

/-- The union of several footprints. -/
def joinRanges : List (Option (List Range)) → Option (List Range)
  | [] => some []
  | x :: r => match x, joinRanges r with
    | some a, some b => some (a ++ b)
    | _, _ => none

/-- Whether [lo, hi) meets a footprint. -/
def meets (fp : Option (List Range)) (lo hi : Nat) : Bool :=
  match fp with
  | none => true
  | some rs => rs.any (fun r => r.lo < hi && lo < r.hi)

def footprintsMeet (a b : Option (List Range)) : Bool :=
  match b with
  | none => a.isNone || a != some []
  | some rs => rs.any (fun r => meets a r.lo r.hi)

/-! ### Destination elements (R211, R72) -/

/-- Where a destination element lies, and the leaves that walks for it have reached, where A and D are set once the
element is written or faults (R302). -/
structure Dest where
  va : Nat
  bo : Nat
  place : Place
  walked : List Key
  keys : List Key

/-- The access that the walks of a destination were for goes on: A and D are set in their leaves (R302). -/
def markWalks (ks : List Key) : M Unit := ks.forM (setAD · true)

/-- Translation of a byte of a destination, with permission W; the leaf a walk has reached. -/
def destPage (e : Eye) (va : Nat) : M (Place × List Key) := do
  let (pl, hit) ← lookup e.agent va true e.elem
  let s ← get
  if (!s.front.csr.mode && !pteU pl.leaf) || !pteW pl.leaf then trapM (mkTrap causeXlatePerm 0 e.elem va)
  else pure (pl, if hit then [] else [pl.leafAt])

/-- An element's bytes lie where its instruction writes: bank memory, or, where `smOk` admits it, stack memory of the
engine set (R210, R281, R283). -/
def destHere (s : State) (smOk : Bool) (k : Key) : Bool :=
  match keyCls k with
  | .bm => true
  | .sm => smOk && (match ownerOf s k with
      | some o => inDomain s.front.domBase.toNat s.front.domLog.toNat o
      | none => false)
  | _ => false

/-- addr(WD, i) with the faults of R211 in order: translation and permission of each of its bytes, PLACEMENT, ALIGN. A
q3 element may lie in two bytes, of one owner (R84). -/
def destAddr (e : Eye) (smOk : Bool) (vl : Nat) (w : Win) (f : Fmt) (i : Nat) : M Dest := do
  let (va, bo) ← elemVa e vl w f i
  let split : Bool := f.packed && 8 < bo + f.bits
  let va2 := (va + 1) % 2 ^ 64
  let (pl, ls) ← destPage e va
  let (pl2, ls2) ← if split then destPage e va2 else pure (pl, [])
  let s ← get
  let walked := (ls ++ ls2).dedup
  let fail (cause a : Nat) : M Dest := do
    markWalks walked
    trapM (mkTrap cause 0 e.elem a)
  match keyOf s pl va with
  | none => fail causePlacement va
  | some k =>
    if !destHere s smOk k then fail causePlacement va
    else if split then
      match keyOf s pl2 va2 with
      | none => fail causePlacement va2
      | some k2 =>
        if ownerOf s k ≠ ownerOf s k2 then fail causeAlign va
        else pure { va := va, bo := bo, place := pl, walked := walked, keys := [k, k2] }
    else if f.packed then pure { va := va, bo := bo, place := pl, walked := walked, keys := [k] }
    else if va % f.bytes ≠ 0 then fail causeAlign va
    else
      match keysOf s pl va f.bytes with
      | none => fail causePlacement va
      | some ks => pure { va := va, bo := bo, place := pl, walked := walked, keys := ks }

/-- The virtual addresses that share the sectors of a destination. Where a map's granule is smaller than a sector,
a sector of the owner's holds up to eight of its granules, one after the other (R183), so they lie within eight
stripes of this one. -/
def sectorSpans (s : State) (d : Dest) : List Range :=
  let whole : List Range := [{ lo := d.va / 32 * 32, hi := (d.va + d.keys.length + 31) / 32 * 32 }]
  match pteCls d.place.leaf, mapOf s.front (pteMap d.place.leaf) with
  | .bm, some m =>
    let g := 2 ^ granLog m
    if 32 ≤ g then whole
    else
      let n := 32 / g * m.stripe.length
      let first := d.va - (sextInt 64 (d.va + 2 ^ 64 - m.origin.toNat) % (g : Int)).toNat
      (List.range (2 * n + 1)).filterMap (fun i =>
        let a := first + i * g - n * g
        match keyOf s d.place a with
        | some k =>
          if d.place.base ≤ a ∧ a < d.place.base + 2 ^ d.place.bits ∧ d.keys.any (fun q => q / 32 == k / 32) then some { lo := a, hi := a + g }
          else none
        | none => none)
  | _, _ => whole

/-- Whether a write of instruction `isn` to the sector of a byte needs a shelf entry (R196): not when the
instruction is F + 1 and the sector lies outside its source footprint. -/
def needsShelf (s : State) (fp : Option (List Range)) (isn : Nat) (d : Dest) : Bool :=
  if isn ≤ s.floor then false
  else if isn ≠ s.floor + 1 then true
  else (sectorSpans s d).any (fun r => meets fp r.lo r.hi)

/-- Bytes of an element's code at its place: packed codes change their own bits alone (R75, R84). -/
def codeBytes (s : State) (f : Fmt) (d : Dest) (x : Nat) : List (Key × Byte) :=
  if f.packed then
    let old := bytesNat (s.mem.gets d.keys)
    let keep := fld 0 d.bo old + at_ (d.bo + f.bits) (old / 2 ^ (d.bo + f.bits))
    d.keys.zip (wordBytes d.keys.length (keep + at_ d.bo (x % 2 ^ f.bits)))
  else d.keys.zip (wordBytes d.keys.length x)

/-- Entries an owner's shelf holds for the stream under one ISN. -/
def shelfUnder (s : State) (own isn : Nat) : Nat :=
  (s.shelves.filter (fun r => r.own == own && r.sid == s.front.sid && r.isn == isn)).length

/-- What R211 checks before an element is written: WATCH, DATA_ERROR on a partial word, RACE. `exempt` skips
the watchpoints (R392). No tag is updated before the write itself. -/
def writeChecks (e : Eye) (exempt : Bool) (f : Fmt) (d : Dest) : M Unit := do
  let s ← get
  let m := watchMask e.watch d.va d.keys.length false true
  if m ≠ 0 ∧ !exempt then trapM (watchTrap 1 m e.elem d.va)
  else
    let whole := if f.packed then [] else wholeWords d.keys
    if d.keys.any (fun k => s.poison.contains (k / 8) && !whole.contains (k / 8)) then
      trapM (mkTrap causeDataError 0 e.elem (d.va / 32 * 32))
    else raceFree State.tag e.race d.place d.keys true e.elem d.va

/-- perform(i) of R72 for a broadcast store: the checks, the shelf with its limit (R198, R199), the write. -/
def performWrite (e : Eye) (fp : Option (List Range)) (isn : Nat) (exempt : Bool) (f : Fmt) (d : Dest) (x : Nat) : M Unit := do
  writeChecks e exempt f d
  let s ← get
  let shelve := needsShelf s fp isn d
  match d.keys.head?.bind (ownerOf s) with
  | none => pure ()
  | some o =>
    let fresh := if shelve then freshAt s o d.keys isn else []
    if fresh ≠ [] ∧ isn = s.floor + 1 ∧ shelfSize o < shelfUnder s o isn + fresh.length then
      trapM (mkTrap causeIllegalOperand (16 * 7) e.elem 0)
    else if shelve && !shelfRoom s d.keys isn then waitM
    else
      raceMark e.race d.place d.keys true
      modify (fun s => s.storeAt isn shelve (codeBytes s f d x))

/-! ### Checks of the front (R70, R165, R166, R207) -/

/-- A window an instruction uses: its number, the format it must have (R207), and a mode it must have. -/
structure Use where
  w : WReg
  fmt : Option Fmt
  mode : Option Nat

/-- Strip state consistent (R169). -/
def stripOk (c : Csrs) : Bool :=
  let vl := c.vl.toNat
  let len := c.vblk.toNat
  let pad := c.vpad.toNat
  vl % len == 0 && pad < len && (pad == 0 || vl == len)

def wpresent (s : State) (w : WReg) : Bool := s.front.csr.wpres.getLsbD w.toNat

/-- Windows reached through a used window (R165). -/
def reached (s : State) (u : Use) : List WReg :=
  let d := s.rdW u.w
  (if Desc.mode d = 2 then [Desc.idx d] else [])
    ++ (match Desc.fmt d with
      | some f => if f.isS then [Desc.scl d] else []
      | none => [])

/-- The lowest absent window of a list, w0 apart. -/
def lowestAbsent (s : State) (ws : List WReg) : Option WReg :=
  ((List.range 32).map (BitVec.ofNat 5)).find? (fun w => w != 0 && ws.contains w && !wpresent s w)

/-- R166 code 9 at a window. -/
def descBad (s : State) (u : Use) : Bool :=
  let d := s.rdW u.w
  match Desc.fmt d with
  | none => true
  | some f =>
    (f.packed && Desc.mode d != 0)
      || (f.isS && (Desc.grp d > 3 || (f == .e2m1 && Desc.grp d != 1) || Desc.scl d == 0
            || Desc.fmt (s.rdW (Desc.scl d)) != some (scaleFmt f)))
      || (f == .wf96 && Desc.frac d > 80)

def indexFmt (f : Fmt) : Bool :=
  match f with
  | .i16 | .i32 | .i64 | .n16 | .n32 | .n64 => true
  | _ => false

/-- R166 code 10: an index window breaks R162, or a scale window is itself indexed (log entry 7). -/
def indexBad (s : State) (u : Use) : Bool :=
  let d := s.rdW u.w
  (Desc.mode d == 2 &&
    (let x := Desc.idx d
     x == 0 || x == u.w || Desc.mode (s.rdW x) > 1 || !(match Desc.fmt (s.rdW x) with
       | some f => indexFmt f
       | none => false)))
  || (match Desc.fmt d with
      | some f => f.isS && Desc.mode (s.rdW (Desc.scl d)) == 2
      | none => false)

/-- Mask window of format bit in mode 0 (R177). -/
def maskBad (s : State) (wm : WReg) : Bool :=
  wm != 0 && (Desc.fmt (s.rdW wm) != some .bit || Desc.mode (s.rdW wm) != 0)

/-- The checks of the front for a broadcast, in the order of R71, R165, R166 and R207. `blockDest` is the
block-scaled destination window. -/
def checkUses (s : State) (us : List Use) (wm : WReg) (blockDest : Option WReg) (oneFrac : Bool) : Option TrapInfo :=
  if us.any (fun u => u.w == 0) || (blockDest.isSome && wm != 0) then some (operandTrap 0)
  else
    match lowestAbsent s (us.map (·.w) ++ [wm]) with
    | some w => some (mkTrap causeWindowAbsent w.toNat)
    | none =>
      match lowestAbsent s (us.flatMap (reached s)) with
      | some w => some (mkTrap causeWindowAbsent w.toNat)
      | none =>
        let fracs := (us.filter (fun u => Desc.fmt (s.rdW u.w) == some .wf96)).map (fun u => Desc.frac (s.rdW u.w))
        if !stripOk s.front.csr then some (operandTrap 8)
        else if us.any (descBad s) then some (operandTrap 9)
        else if us.any (indexBad s) then some (operandTrap 10)
        else if maskBad s wm then some (operandTrap 11)
        else if (match blockDest with
            | some w => s.front.csr.vl.toNat % Desc.group (s.rdW w) != 0
            | none => false) then some (operandTrap 14)
        else if us.any (fun u => (match u.fmt with
            | some f => Desc.fmt (s.rdW u.w) != some f
            | none => false) || (match u.mode with
            | some m => Desc.mode (s.rdW u.w) != m
            | none => false)) then some (operandTrap 15)
        else if oneFrac && fracs.eraseDups.length > 1 then some (operandTrap 15)
        else none

/-- What a broadcast carries from issue (R57, R99, R160, R393). -/
def mkCarry (s : State) (wd wa wb wc wm : Option WReg) (scalarB : Word) : Carry :=
  let c := s.front.csr
  let d (w : Option WReg) : Desc := match w with
    | some w => s.rdW w
    | none => 0
  let ix (w : Option WReg) : Desc := match w with
    | some w => if Desc.mode (s.rdW w) = 2 then s.rdW (Desc.idx (s.rdW w)) else 0
    | none => 0
  let sc (w : Option WReg) : Desc := match w with
    | some w => (match Desc.fmt (s.rdW w) with
      | some f => if f.isS then s.rdW (Desc.scl (s.rdW w)) else 0
      | none => 0)
    | none => 0
  { seed := c.seed, vl := c.vl, vfmt := c.vfmt, vpad := c.vpad, vblk := c.vblk, skew := c.skew, rm := c.rm, ftz := c.ftz,
    share := c.share, scalarB := scalarB,
    descs := #v[d wd, d wa, d wb, d wc, d wm, ix wd, ix wa, ix wb, ix wc, sc wd, sc wa, sc wb, sc wc] }

end Sys2Proof.Machine
end

