-- ==== Sys2Proof/Machine/Body.lean ====
section
/-! DEFINITION. What the elements of a broadcast vector instruction compute and write (spec/09_vector.md):
one `Body` per instruction, which the front's issue, the banks' own steps and a restart all run. -/

namespace Sys2Proof.Machine

/-- One piece of a broadcast's work: an element, or a scale element (R223). -/
structure Item where
  /-- Number of the item, and the element it stands at. -/
  no : Nat
  elem : Nat
  /-- The owner that performs it, once the leaves it depends on are formed; none when nothing is to be done. -/
  own : Bcast → M (Option Nat)
  /-- Performs it: flags raised, and the value it gives the combining tree. -/
  run : Bcast → M (Flags × Option Nat)
  /-- It is performed again on a restart, whatever ESTART holds (R224, R228). -/
  again : Bool := false

/-- A broadcast as its owners perform it. -/
structure Body where
  /-- Source footprint (R196). -/
  foot : Eye → Bcast → M (Option (List Range))
  /-- Its items in element order, seen by an eye, under a footprint. -/
  plan : Eye → Option (List Range) → Bcast → M (List Item)
  /-- Flags and the result of the combining tree, from the leaves. -/
  root : BitVec 16 → Bcast → Flags × Word
  /-- Where the tree's result goes (R224). -/
  result : Option SReg
  /-- The front's plane records after it, performed or faulted (R258, R259). -/
  recs : Bcast → PairRec → Bool → PairRec
  /-- What an owner checks before it performs any element (R164). -/
  ready : Eye → Bcast → M Unit := fun _ _ => pure ()
  /-- Phase 1 of R342: flags, and what phase 2 needs of each element. -/
  phase1 : Eye → Bcast → M (Flags × List (Nat × Nat)) := fun _ _ => pure (0, [])
  /-- An item of phase 2 that waits at its home does not hold back the others (R351, R368). -/
  apart : Bool := false

/-- The operation of a broadcast word on its operands. -/
abbrev ElemFn := Eye → Bcast → Nat → M (Option Nat × Flags)

/-- The element at ESTART of the first reissued broadcast is exempt from watchpoints (R392). -/
def isExempt (s : State) (b : Bcast) (i : Nat) : Bool := s.front.exemptAt == some b.isn && i == b.estart

/-- One item of the frame of R73: addr(WD, i), active(i), the value, the write. -/
def frameItem (smOk masked : Bool) (k : Win) (f : Fmt) (fn : ElemFn) (e : Eye) (fp : Option (List Range)) (b : Bcast) (i : Nat) :
    M (Flags × Option Nat) := do
  let e := { e with elem := i }
  let d ← destAddr e smOk b.carry.vl.toNat k f i
  if ← active e b.carry masked i then
    markWalks d.walked
    let (x, fl) ← fn e b i
    match x with
    | none => pure (0, none)
    | some x =>
      let s ← get
      performWrite e fp b.isn (isExempt s b i) f d x
      pure (fl, none)
  else pure (0, none)

/-- Owner of a destination element. -/
def destOwner (smOk : Bool) (k : Win) (f : Fmt) (e : Eye) (vl i : Nat) : M (Option Nat) := do
  let d ← destAddr { e with elem := i } smOk vl k f i
  let s ← get
  pure (d.keys.head?.bind (ownerOf s))

/-- Some element of a list needs what `m` asks after. An element whose own reading faults is left to report that
itself. -/
def someNeeds (m : Nat → M Bool) : List Nat → M Bool
  | [] => pure false
  | i :: r => do
    match ← captured (m i) with
    | .ok true => pure true
    | .ok false => someNeeds m r
    | .error (.trap _) => someNeeds m r
    | .error st => throw st

/-- The shape record of a window in mode 3, and of its scale window, is read and checked (R164). -/
def shapeReady (e : Eye) (b : Bcast) (k : Nat) : M Unit := do
  let e := { e with elem := 0 }
  let vl := b.carry.vl.toNat
  let w := b.carry.win k
  if Desc.mode w.d = 3 then
    let _ ← readShape e w.d vl
  if ((Desc.fmt w.d).map Fmt.isS).getD false && Desc.mode w.scl == 3 then
    let _ ← readShape e w.scl vl

/-- A shape record of a window is involved. -/
def shaped (b : Bcast) (ks : List Nat) : Bool := ks.any (fun k => Desc.mode (b.carry.win k).d == 3 || Desc.mode (b.carry.win k).scl == 3)

/-- R164 for a destination, whose addresses every owner needs, and for sources, needed where element `i` says so. -/
def shapesReady (dst : Bool) (srcs : List Nat) (wants : Nat → Nat → M Bool) (e : Eye) (b : Bcast) : M Unit := do
  if b.carry.vl.toNat = 0 || !shaped b (0 :: srcs) then pure ()
  else do
    if dst then shapeReady e b 0
    srcs.forM (fun k => do
      if shaped b [k] then
        if ← someNeeds (wants k) (List.range b.carry.real) then shapeReady e b k)

/-- Active element `i` reads source window `k`: operand A through its modifier, the others straight. -/
def reads (v : VArgs) (e : Eye) (b : Bcast) (k i : Nat) : M Bool := do
  if k = 1 && (srcIndex b.carry v.amod v.gsz v.fill (if v.amod = .none then 0 else v.imm) i).isNone then pure false
  else active { e with elem := i } b.carry (v.wm != 0) i

/-- Footprint of the source windows numbered `ks` in the carry, with the mask and what is read to find the elements of
the destinations `ds` (R196). -/
def footOf (ks ds : List Nat) (masked : Bool) (e : Eye) (b : Bcast) : M (Option (List Range)) := do
  let c := b.carry
  let n := c.vl.toNat
  let rs ← ks.mapM (fun k => winRanges { e with elem := 0 } n (c.win k))
  let mk : List Range := if masked then [flatRange (c.win 4).d .bit n] else []
  pure (if n = 0 then some [] else joinRanges (some (ds.flatMap (fun k => sideRanges n (c.win k)) ++ mk) :: rs))

/-- A footprint that cannot be read counts as all addresses; reading it changes nothing. -/
def footQuiet (m : Eye → Bcast → M (Option (List Range))) (e : Eye) (b : Bcast) : M (Option (List Range)) := do
  let s ← get
  match M.exec (m e b) s with
  | (.ok r, _) => pure r
  | (.error _, _) => pure none

/-- A body of the frame of R73. -/
def frameBody (v : VArgs) (df : Fmt) (smOk : Bool) (srcs : List Nat) (fn : ElemFn) : Body where
  foot := footQuiet (footOf srcs [0] (v.wm != 0))
  ready e b := shapesReady true srcs (reads v e b) e b
  plan e fp b := pure ((List.range b.carry.vl.toNat).map (fun i =>
    { no := i, elem := i, own := fun _ => destOwner smOk (b.carry.win 0) df e b.carry.vl.toNat i,
      run := (frameItem smOk (v.wm != 0) (b.carry.win 0) df fn e fp · i) }))
  root _ _ := (0, 0)
  result := none
  recs _ r _ := r

/-- How element `i` is rounded in the stream whose turn it is. -/
def rndOf (v : VArgs) (b : Bcast) (i : Nat) : M Rnd := do
  let s ← get
  pure (mkRnd b.carry s.front.sid b.isn 0 v.rm v.sat i)

/-- Source windows of the word: A, B unless it is a scalar, C. -/
def srcsAB (v : VArgs) : List Nat := if v.sb then [1] else [1, 2]

/-- Formats a channel engine accepts (R283). -/
def smFmt : Fmt → Bool
  | .f32 | .f16 | .bf16 | .i32 | .i64 | .n32 | .n64 => true
  | _ => false

def smCvt : Fmt → Bool
  | .f32 | .f16 | .bf16 | .e4m3 | .e5m2 | .i32 | .n32 => true
  | _ => false

/-! ### Arithmetic (R212, R213) -/

def fnArith (o : ArOp) (useC : Bool) (v : VArgs) : ElemFn := fun e b i => do
  let c := b.carry
  let (x, _) ← operandA e c v v.fmt i
  let y ← operandB e c v i
  let z ← if useC then readElem e c.vl.toNat (c.win 3) v.fmt i else pure 0
  if v.fmt = .wf96 then
    let (r, fl) := arithW96 (o == .sub) x y
    pure (some r, fl)
  else
    let r ← rndOf v b i
    let (r, fl) := arith o v.fmt r x y z
    pure (some r, fl)

def bodyArith (o : ArOp) (useC sm : Bool) (v : VArgs) : Body :=
  frameBody v v.fmt (sm && smFmt v.fmt) (srcsAB v ++ (if useC then [3] else [])) (fnArith o useC v)

/-- An operation on two codes. -/
def fnTwo (g : Carry → Nat → Nat → Nat × Flags) (v : VArgs) : ElemFn := fun e b i => do
  let c := b.carry
  let (x, _) ← operandA e c v v.fmt i
  let y ← operandB e c v i
  let (r, fl) := g c x y
  pure (some r, fl)

def bodyMinMax (wantMax : Bool) (v : VArgs) : Body :=
  frameBody v v.fmt false (srcsAB v) (fnTwo (fun c x y => minMax v.fmt c.ftz wantMax x y) v)

def bodyCompare (o : CmpOp) (v : VArgs) : Body :=
  frameBody v .bit false (srcsAB v) (fnTwo (fun c x y =>
    let r := compareCodes o v.fmt c.ftz x y
    (boolNat r.1, r.2)) v)

/-! ### Unary, logic, shifts (R215, R216) -/

def fnUnary (o : UnOp) (v : VArgs) : ElemFn := fun e b i => do
  let (x, _) ← operandA e b.carry v v.fmt i
  let r ← rndOf v b i
  let (y, fl) := unaryElem o v.fmt r x
  pure (some y, fl)

def bodyUnary (o : UnOp) (v : VArgs) : Body := frameBody v v.fmt false [1] (fnUnary o v)

def bodyLogic (g : Nat → Nat → Nat) (v : VArgs) : Body :=
  frameBody v v.fmt false (srcsAB v) (fnTwo (fun _ x y => (g x y, 0)) v)

def fnNot (v : VArgs) : ElemFn := fun e b i => do
  let (x, _) ← operandA e b.carry v v.fmt i
  pure (some (2 ^ v.fmt.bits - 1 - x), 0)

def bodyNot (v : VArgs) : Body := frameBody v v.fmt false [1] (fnNot v)

/-- Shifts (R216): `w` bits, the distance modulo w. -/
inductive ShOp where
  | sll | srl | sra
  deriving DecidableEq, Repr

def shiftCode (o : ShOp) (w x y : Nat) : Nat :=
  match o with
  | .sll => x * 2 ^ (y % w) % 2 ^ w
  | .srl => x / 2 ^ (y % w)
  | .sra => wrapNat w (sextInt w x / 2 ^ (y % w))

def bodyShift (o : ShOp) (v : VArgs) : Body := bodyLogic (shiftCode o v.fmt.bits) v

/-! ### Select, move, fill, iota, gather, scatter (R218 to R221, R226) -/

def fnSel (v : VArgs) : ElemFn := fun e b i => do
  let c := b.carry
  let (x, _) ← operandA e c v v.fmt i
  let y ← operandB e c v i
  let z ← readElem e c.vl.toNat (c.win 3) .bit i
  pure (some (if z = 1 then x else y), 0)

def bodySel (v : VArgs) : Body := frameBody v v.fmt false (srcsAB v ++ [3]) (fnSel v)

/-- A move. Reserved bits of a WF96 element are written as they were read, in `vsel` and `vgather` too (DESIGN
CHOICE, log entry 71). -/
def fnMov (v : VArgs) : ElemFn := fun e b i => do
  let (x, _) ← operandA e b.carry v v.fmt i
  pure (some x, 0)

def bodyMov (v : VArgs) : Body := frameBody v v.fmt false [1] (fnMov v)

/-- The value of `vfill` (R220). -/
def fillValue (v : VArgs) (c : Carry) (r : Rnd) : Nat × Flags :=
  let imm := v.imm.toNat
  if v.sb then (c.scalarB.toNat % 2 ^ v.fmt.bits, 0)
  else if v.fmt.isIN then (toIntFmt v.fmt v.sat v.imm.toInt, 0)
  else
    match v.fmt with
    | .bf16 => (imm, 0)
    | .e8m0 => (imm % 256, 0)
    | .bit => (imm % 2, 0)
    | .wf96 => let (w, fl) := toW96 (Desc.frac (c.win 0).d) (Num.ofInt v.imm.toInt); (w.bits, fl)
    | f => match f.fp with
      | some p => toFloat p f r (decodeNum .bf16 0 false imm)
      | none => (0, 0)

def fnFill (v : VArgs) : ElemFn := fun _ b i => do
  let r ← rndOf v b i
  let (x, fl) := fillValue v b.carry r
  pure (some x, fl)

def bodyFill (v : VArgs) : Body := frameBody v v.fmt true [] (fnFill v)

def fnIota (v : VArgs) : ElemFn := fun _ _ i => pure (some (toIntFmt v.fmt v.sat (v.imm.toInt + i)), 0)

def bodyIota (v : VArgs) : Body := frameBody v v.fmt false [] (fnIota v)

/-! ### Conversion (R222, R223) -/

def fnCvt (sf : Fmt) (v : VArgs) : ElemFn := fun e b i => do
  let c := b.carry
  let (x, j) ← operandA e c v sf i
  let (n, f1) ← sourceNum e c (c.win 1) sf x j
  let r ← rndOf v b i
  let (y, f2) := convert { src := sf, dst := v.fmt, srcFrac := Desc.frac (c.win 1).d, dstFrac := Desc.frac (c.win 0).d } r x n
  pure (some y, f1 ||| f2)

/-- Scale and codes of group `g` of a block-scaled destination (R86, R223). -/
def groupOf (sf : Fmt) (v : VArgs) (e : Eye) (b : Bcast) (g : Nat) : M (Nat × List Nat × Flags) := do
  let c := b.carry
  let n := Desc.group (c.win 0).d
  let real := (List.range n).filter (fun k => g * n + k < c.real)
  let xs ← real.mapM (fun k => do
    let i := g * n + k
    let (x, j) ← operandA e c v sf i
    let (y, fl) ← sourceNum e c (c.win 1) sf x j
    let r ← rndOf v b i
    pure ((y, r), fl ||| flagIf (sf == .wf96 && (W96.ofBits x).u) flagRU))
  let (sc, codes, fl) := blockScale v.fmt (xs.map (·.1))
  pure (sc, codes, xs.foldl (fun a x => a ||| x.2) fl)

def fnCvtBlock (sf : Fmt) (v : VArgs) : ElemFn := fun e b i => do
  let n := Desc.group (b.carry.win 0).d
  let (_, codes, fl) ← groupOf sf v e b (i / n)
  pure (some (codes.getD (i % n) 0), fl)

/-- The item of scale element `g`: written by its owner, for groups of real and pad elements alike. -/
def scaleItem (sf : Fmt) (v : VArgs) (e : Eye) (fp : Option (List Range)) (b : Bcast) (g : Nat) : M (Flags × Option Nat) := do
  let e := { e with elem := g * Desc.group (b.carry.win 0).d }
  let d ← destAddr e false b.carry.vl.toNat (b.carry.win 0).scale (scaleFmt v.fmt) g
  markWalks d.walked
  let (sc, _, fl) ← groupOf sf v e b g
  let s ← get
  performWrite e fp b.isn (isExempt s b e.elem) (scaleFmt v.fmt) d sc
  pure (fl, none)

/-- Elements of a block-scaled destination, with the scale element of each group after the group's first. -/
def blockPlan (sf : Fmt) (v : VArgs) (e : Eye) (fp : Option (List Range)) (b : Bcast) : List Item :=
  let vl := b.carry.vl.toNat
  let n := Desc.group (b.carry.win 0).d
  (List.range vl).flatMap (fun i =>
    let x : Item := { no := i, elem := i, own := fun _ => destOwner false (b.carry.win 0) v.fmt e vl i,
                      run := (frameItem false false (b.carry.win 0) v.fmt (fnCvtBlock sf v) e fp · i) }
    if i % n = 0 then
      [x, { no := vl + i / n, elem := i, own := fun _ => destOwner false (b.carry.win 0).scale (scaleFmt v.fmt) e vl (i / n),
            run := (scaleItem sf v e fp · (i / n)) }]
    else [x])

def bodyCvt (sf : Fmt) (v : VArgs) : Body :=
  if v.fmt.isS then
    { foot := footQuiet (footOf [1] [0] false)
      ready := fun e b => shapesReady true [1] (reads { v with wm := 0 } e b) e b
      plan := fun e fp b => pure (blockPlan sf v e fp b)
      root := fun _ _ => (0, 0)
      result := none
      recs := fun _ r _ => r }
  else frameBody v v.fmt (smCvt v.fmt && smCvt sf) [1] (fnCvt sf v)

/-! ### Reductions and scans (R101, R102, R224, R225) -/

inductive RedOp where
  | add | max | min
  deriving DecidableEq, Repr

/-- Identity of an operation (R101). -/
def RedOp.ident (o : RedOp) (f : Fmt) : Nat :=
  match f.fp with
  | some p => (match o with
    | .add => 2 ^ (p.mb + p.eb)
    | .max => p.infCode true
    | .min => p.infCode false)
  | none => (match o with
    | .add => 0
    | .max => wrapNat f.bits (intRange f).1
    | .min => wrapNat f.bits (intRange f).2)

/-- One node of the tree. Bit counts add as unsigned 64-bit integers (R224). -/
def RedOp.node (o : RedOp) (f : Fmt) (r : Rnd) (x y : Nat) : Nat × Flags :=
  if f = .bit then (x + y, 0)
  else
    match o with
    | .add => arith .add f r x y 0
    | .max => minMax f r.ftz true x y
    | .min => minMax f r.ftz false x y

/-- The node of level `l` over leaves from `j`; `rnd` rounds index `i` of R93. A value made of one leaf alone is
that leaf's code unchanged, a NaN or a denormal under FTZ too, and raises no flag (DESIGN CHOICE, log entry 71). -/
def treeNode (o : RedOp) (f : Fmt) (rnd : Nat → Rnd) (leaf : Nat → Nat) : Nat → Nat → Nat × Flags
  | 0, j => (leaf j, 0)
  | l + 1, j =>
    let (x, f1) := treeNode o f rnd leaf l j
    let (y, f2) := treeNode o f rnd leaf l (j + 2 ^ l)
    let (z, f3) := o.node f (rnd (2 ^ 17 * (l + 1) + j)) x y
    (z, f1 ||| f2 ||| f3)

/-- Least l with 2^l ≥ n. -/
def ceilLog (n : Nat) : Nat := if n ≤ 1 then 0 else Nat.log2 (n - 1) + 1

/-- A root as 64 bits (R224). -/
def extendCode (f : Fmt) (x : Nat) : Word := if f.isI then BitVec.ofInt 64 (intOf f x) else BitVec.ofNat 64 x

/-- The value of `vred` from its leaves (R101, R224). -/
def redRoot (o : RedOp) (v : VArgs) (sid : BitVec 16) (b : Bcast) : Flags × Word :=
  let leaf (i : Nat) : Nat := ((b.leaves.find? (fun p => p.1 == i)).map (·.2)).getD (o.ident v.fmt)
  let vl := b.carry.vl.toNat
  if vl = 0 then (0, extendCode v.fmt (o.ident v.fmt))
  else
    let (x, fl) := treeNode o v.fmt (fun i => mkRnd b.carry sid b.isn 0 v.rm v.sat i) leaf (ceilLog vl) 0
    (fl, extendCode v.fmt x)

/-- What a channel engine of the stream's set does with a leaf in its pseudo-channel: it forms it, it refuses it
(R283), or it serves it to the bank that forms it (R210). -/
inductive EngineLeaf where
  | forms | refuses | serves
  deriving DecidableEq, Repr

/-- The owner of a source element in the combining tree: the owner of a bank-memory byte, a channel engine of the
stream's set, or the bank of R446. A leaf that an engine serves is formed by the bank that R446 names for other sources
(DESIGN CHOICE, log entry 90). -/
def leafOwner (sm : EngineLeaf) (e : Eye) (b : Bcast) (w : Win) (f : Fmt) (i : Nat) : M (Option Nat) := do
  let e := { e with elem := i }
  let (va, _) ← elemVa e b.carry.vl.toNat w f i
  let (pl, _) ← lookup e.agent va false i
  let s ← get
  let bad : M (Option Nat) := do
    let _ ← xlate e.agent va .read i
    trapM (mkTrap causePlacement 0 i va)
  match keyOf s pl va with
  | none => bad
  | some k =>
    let other := 64 * s.front.domBase.toNat + i / 64 % (64 * 2 ^ s.front.domLog.toNat)
    match ownerOf s k with
    | none => pure (some other)
    | some o =>
      if o < 8192 then pure (some o)
      else if !inDomain s.front.domBase.toNat s.front.domLog.toNat o then pure (some other)
      else
        match sm with
        | .forms => pure (some o)
        | .refuses => bad
        | .serves => pure (some other)

/-- An engine forms leaves of `vred` in the formats of R283. -/
def redEngine (f : Fmt) : EngineLeaf := if smFmt f then .forms else .refuses

/-- A leaf of `vred`: formed where its source lies, when it is active. Its owner is found first, so that a leaf
whose source has no place faults though the mask leaves it out (DESIGN CHOICE, log entry 72). -/
def redLeaf (v : VArgs) (e : Eye) (b : Bcast) (i : Nat) : M (Flags × Option Nat) := do
  let e := { e with elem := i }
  let _ ← leafOwner (redEngine v.fmt) e b (b.carry.win 1) v.fmt i
  if ← active e b.carry (v.wm != 0) i then
    let x ← readElem e b.carry.vl.toNat (b.carry.win 1) v.fmt i
    pure (0, some x)
  else pure (0, none)

def bodyRed (o : RedOp) (v : VArgs) : Body where
  foot := footQuiet (footOf [1] [] (v.wm != 0))
  ready e b := shapesReady false [1] (fun _ _ => pure true) e b
  plan e _ b := pure ((List.range b.carry.real).map (fun i =>
    { no := i, elem := i, again := true, own := fun _ => leafOwner (redEngine v.fmt) e b (b.carry.win 1) v.fmt i, run := (redLeaf v e · i) }))
  root sid b := redRoot o v sid b
  result := some ((0 : BitVec 1) ++ v.wd)
  recs _ r _ := r

/-- The value of leaf `j` of a scan, read as a source; an inactive one is the identity. -/
def scanValue (o : RedOp) (v : VArgs) (e : Eye) (b : Bcast) (j : Nat) : M Nat := do
  let e := { e with elem := j }
  if ← active e b.carry (v.wm != 0) j then readElem e b.carry.vl.toNat (b.carry.win 1) v.fmt j
  else pure (o.ident v.fmt)

/-- A leaf as its owner forms it, once, for every destination (R225, R446). -/
def scanLeaf (o : RedOp) (v : VArgs) (e : Eye) (b : Bcast) (j : Nat) : M (Flags × Option Nat) := do
  let _ ← leafOwner .serves e b (b.carry.win 1) v.fmt j
  let x ← scanValue o v e b j
  pure (0, some x)

/-- A leaf value as a destination needs it: formed already, or, for an eye that sees everything performed, read for the
destination by `m`; else the destination waits for the tree (R225, R228). -/
def leafFor (m : M Nat) (e : Eye) (b : Bcast) (j : Nat) : M Nat :=
  match b.leaves.find? (fun p => p.1 == j), e.who with
  | some p, _ => pure p.2
  | none, none => m
  | none, some _ => waitM

/-- The left fold of the aligned blocks of 0 to `i` (R102): `l` levels down, from element `s`. Every fold step of
output `i` rounds with index 2^22 + `i`, the steps before the last too (DESIGN CHOICE, log entry 71). -/
def scanFold (o : RedOp) (f : Fmt) (rnd : Nat → Rnd) (leaf : Nat → Nat) (i : Nat) : Nat → Nat → Option (Nat × Flags) → Option (Nat × Flags)
  | 0, s, acc => if s = i + 1 then acc else step 0 s acc
  | l + 1, s, acc =>
    if s + 2 ^ (l + 1) ≤ i + 1 then scanFold o f rnd leaf i l (s + 2 ^ (l + 1)) (step (l + 1) s acc)
    else scanFold o f rnd leaf i l s acc
where
  step (l s : Nat) (acc : Option (Nat × Flags)) : Option (Nat × Flags) :=
    let (x, fx) := treeNode o f rnd leaf l s
    match acc with
    | none => some (x, fx)
    | some (a, fa) =>
      let (y, fy) := o.node f (rnd (2 ^ 22 + i)) a x
      some (y, fa ||| fx ||| fy)

def fnScan (o : RedOp) (v : VArgs) : ElemFn := fun e b i => do
  let ls ← (List.range (i + 1)).mapM (fun j => leafFor (scanValue o v e b j) e b j)
  let s ← get
  let rnd (k : Nat) : Rnd := mkRnd b.carry s.front.sid b.isn 0 v.rm v.sat k
  match scanFold o v.fmt rnd (fun j => ls.getD j (o.ident v.fmt)) i 16 0 none with
  | some (x, fl) => pure (some x, fl)
  | none => pure (none, 0)

/-- Items of an instruction whose destinations wait for values that other owners form. An owner forms its values before
it performs a destination, for other owners wait for them; seen all at once they go by element, so that a value which
cannot be read faults at the first destination that needs it, or, where none below needs it, at its own element
(DEDUCED, log entry 80). -/
def exchangePlan (e : Eye) (b : Bcast) (leaf dst : Nat → Item) : List Item :=
  let js := List.range b.carry.real
  let is := List.range b.carry.vl.toNat
  match e.who with
  | some _ => js.map leaf ++ is.map dst
  | none => is.flatMap (fun i => if i < b.carry.real then [dst i, leaf i] else [dst i])

def bodyScan (o : RedOp) (v : VArgs) : Body :=
  let body := frameBody v v.fmt false [1] (fnScan o v)
  { body with
    plan := fun e fp b => pure (exchangePlan e b
      (fun j => { no := b.carry.vl.toNat + j, elem := j, again := true, own := fun _ => leafOwner .serves e b (b.carry.win 1) v.fmt j, run := (scanLeaf o v e · j) })
      (fun i => { no := i, elem := i, own := fun _ => destOwner false (b.carry.win 0) v.fmt e b.carry.vl.toNat i,
                  run := (frameItem false (v.wm != 0) (b.carry.win 0) v.fmt (fnScan o v) e fp · i) })) }

/-! ### Compaction and expansion (R228) -/

/-- Selector bit `j` as its owner reads it, for the counts of the combining tree (R228, R446). -/
def selLeaf (e : Eye) (b : Bcast) (j : Nat) : M (Flags × Option Nat) := do
  let e := { e with elem := j }
  let _ ← leafOwner .serves e b (b.carry.win 3) .bit j
  let x ← readElem e b.carry.vl.toNat (b.carry.win 3) .bit j
  pure (0, some x)

/-- Selector bit `j` as a destination needs it (R228). -/
def selBit (e : Eye) (b : Bcast) (j : Nat) : M Nat := leafFor (readElem e b.carry.vl.toNat (b.carry.win 3) .bit j) e b j

/-- Selector bits `j`, `j` + 1, … looked at until `k` selected ones have been passed: the next selected one. -/
def findSelected (e : Eye) (b : Bcast) : Nat → Nat → Nat → M (Option Nat)
  | 0, _, _ => pure none
  | n + 1, j, k => do
    let x ← selBit e b j
    if x = 1 then (if k = 0 then pure (some j) else findSelected e b n (j + 1) (k - 1))
    else findSelected e b n (j + 1) k

/-- The source element of a destination element, when that is written. -/
abbrev Moves := Eye → Bcast → Nat → M (Option Nat)

/-- Element `k` of `vcompact` takes the selected element of rank k. -/
def compactFrom : Moves := fun e b k => findSelected e b b.carry.real 0 k

/-- Element `i` of `vexpand`, when selected, takes the source of its rank. -/
def expandFrom : Moves := fun e b i => do
  if i < b.carry.real then
    let bits ← (List.range (i + 1)).mapM (selBit e b)
    pure (if bits.getD i 0 = 1 then some ((bits.take i).filter (fun x => x == 1)).length else none)
  else pure none

/-- The source element of destination `i`, which the loops of R228 visit only when it is active and something moves
there. -/
def visited (v : VArgs) (from_ : Moves) (e : Eye) (b : Bcast) (i : Nat) : M (Option Nat) := do
  let e := { e with elem := i }
  if ← active e b.carry (v.wm != 0) i then from_ e b i else pure none

def moveItem (v : VArgs) (from_ : Moves) (e : Eye) (fp : Option (List Range)) (b : Bcast) (i : Nat) : M (Flags × Option Nat) := do
  match ← visited v from_ e b i with
  | none => pure (0, none)
  | some j =>
    frameItem false false (b.carry.win 0) v.fmt (fun e b _ => do
      let x ← readElem e b.carry.vl.toNat (b.carry.win 1) v.fmt j
      pure (some x, 0)) e fp b i

/-- Selector bits and destinations. -/
def movePlan (v : VArgs) (from_ : Moves) (e : Eye) (fp : Option (List Range)) (b : Bcast) : List Item :=
  let vl := b.carry.vl.toNat
  exchangePlan e b
    (fun j => { no := vl + j, elem := j, again := true, own := fun _ => leafOwner .serves { e with elem := j } b (b.carry.win 3) .bit j, run := (selLeaf e · j) })
    (fun i => { no := i, elem := i, run := (moveItem v from_ e fp · i)
                own := fun b => do
                  match ← visited v from_ e b i with
                  | none => pure none
                  | some _ => destOwner false (b.carry.win 0) v.fmt e vl i })

def bodyMove (from_ : Moves) (v : VArgs) : Body where
  foot := footQuiet (footOf [1, 3] [0] (v.wm != 0))
  ready e b := shapesReady false [0, 1] (fun _ i => do
    let r ← visited v from_ { e with who := none } b i
    pure r.isSome) e b
  plan e fp b := pure (movePlan v from_ e fp b)
  root _ _ := (0, 0)
  result := none
  recs _ r _ := r

def bodyCompact (v : VArgs) : Body := bodyMove compactFrom v
def bodyExpand (v : VArgs) : Body := bodyMove expandFrom v

/-! ### lanex (R203) -/

/-- Code of the place of an address: domain-relative bank, pseudo-channel, or class. -/
def placeCode (s : State) (pl : Place) (va : Nat) (elem : Nat) : M Nat := do
  match keyOf s pl va with
  | none => if pteCls pl.leaf = .pr then pure 0xFFFD else trapM (mkTrap causePlacement 0 elem va)
  | some k =>
    match keyCls k, ownerOf s k with
    | .bm, some o => pure (o - 64 * s.front.domBase.toNat)
    | .sm, some o => pure (0x8000 + (o - 8192))
    | .hm, _ => pure 0xFFFE
    | _, _ => pure 0xFFFD

def fnLanex (v : VArgs) : ElemFn := fun e b i => do
  let w := b.carry.win 1
  match Desc.fmt w.d with
  | none => pure (none, 0)
  | some f =>
    let (va, _) ← elemVa e b.carry.vl.toNat w f i
    let (pl, _) ← lookup e.agent va false i
    let s ← get
    let x ← placeCode s pl va i
    if !f.packed && va % f.bytes != 0 then trapM (mkTrap causeAlign 0 i va)
    else pure (some (x % 2 ^ v.fmt.bits), 0)

def bodyLanex (v : VArgs) : Body := frameBody v v.fmt false [1] (fnLanex v)

/-! ### Bank conditions (R178, R179) -/

inductive Cond where
  | any | all | none_
  deriving DecidableEq, Repr

/-- Whether the branch is taken, from the bits of elements 0 to m − 1. -/
def Cond.taken (c : Cond) (bits : List Nat) : Bool :=
  match c with
  | .any => bits.any (· == 1)
  | .all => bits.all (· == 1)
  | .none_ => !bits.any (· == 1)

/-- One bit of a bank-condition branch, read by its owner. -/
def condLeaf (e : Eye) (b : Bcast) (i : Nat) : M (Flags × Option Nat) := do
  let e := { e with elem := i }
  let _ ← leafOwner .refuses e b (b.carry.win 1) .bit i
  let x ← readElem e b.carry.vl.toNat (b.carry.win 1) .bit i
  pure (0, some x)

def bodyCond (c : Cond) : Body where
  foot := footQuiet (footOf [1] [] false)
  plan e _ b := pure ((List.range b.carry.real).map (fun i =>
    { no := i, elem := i, again := true, own := fun _ => leafOwner .refuses e b (b.carry.win 1) .bit i, run := (condLeaf e · i) }))
  root _ b := (0, if c.taken (b.leaves.map (·.2)) then 1 else 0)
  result := none
  recs _ r _ := r

end Sys2Proof.Machine
end

