-- ==== Sys2Proof/Machine/Plane.lean ====
section
/-! DEFINITION. Plane arrays (spec/12_matrix.md): matrix layouts, tile owners, loading of plane slots, the
exact products, and what the owners do for `mload`, `mswap`, `mma`, `mrecast` and `minval`. -/

namespace Sys2Proof.Machine

/-! ### Matrix layout (R253 to R256) -/

/-- A shape record in matrix layout: base, tile columns e2, tile rows e3, strides. -/
structure MatShape where
  base : Nat
  e2 : Nat
  e3 : Nat
  t0 : Int
  t1 : Int
  t2 : Int
  t3 : Int

/-- ILLEGAL_OPERAND with TINFO[11:8] = c (R261). -/
def matTrap (c : Nat) (elem : Nat := 0) (addr : Nat := 0) : TrapInfo := mkTrap causeIllegalOperand (256 * c) elem addr

/-- Reads a record and checks R163, then R253, and R254 for an output window; `code` is the TINFO of a failure of
those. -/
def readMat (e : Eye) (d : Desc) (code : Nat) (output : Bool) : M MatShape := do
  let e := { e with elem := 0 }
  let va := Desc.base d
  if va % 128 ≠ 0 then trapM (mkTrap causeAlign 0 0 va)
  else
    let bs ← readVa e va 128 1
    match Shape.ofNums (eights 16 bs) with
    | none => trapM (shapeTrap va)
    | some r =>
      let x (k : Nat) : Nat := r.ext.getD k 0
      let t (k : Nat) : Int := r.str.getD k 0
      let ok := r.rank == 4 && x 0 == 32 && x 1 == 32 && r.row == 0 && r.col == 0 && r.tiled
      let wide := t 0 == 4 && t 1 == 128 && t 2 % 4096 == 0 && t 3 % 4096 == 0 && r.base % 4096 == 0
      if ok && (!output || wide) then
        pure { base := r.base, e2 := x 2, e3 := x 3, t0 := t 0, t1 := t 1, t2 := t 2, t3 := t 3 }
      else trapM (matTrap code 0 va)

/-- Address of element (i1, i0) of tile (r, c). -/
def MatShape.va (m : MatShape) (r c i1 i0 : Nat) : Nat :=
  wrapNat 64 ((m.base : Int) + i0 * m.t0 + i1 * m.t1 + c * m.t2 + r * m.t3)

/-- The owner of an output tile, that of its first element, with the faults of R254 at element `elem`. -/
def tileOwner (e : Eye) (elem : Nat) (va : Nat) : M Nat := do
  let (pl, _) ← lookup e.agent va true elem
  let s ← get
  if (!s.front.csr.mode && !pteU pl.leaf) || !pteW pl.leaf then trapM (mkTrap causeXlatePerm 0 elem va)
  else
    match pteCls pl.leaf, keyOf s pl va with
    | .bm, some k =>
      let tileMap : Bool := match mapOf s.front (pteMap pl.leaf) with
        | some m => m.gran == 0xFF
        | none => false
      if tileMap then pure ((ownerOf s k).getD 0) else trapM (matTrap 4 elem va)
    | _, _ => trapM (mkTrap causePlacement 0 elem va)

/-- Tiles (r, c) in ascending order of first element. -/
def MatShape.tiles (m : MatShape) : List (Nat × Nat) :=
  (List.range m.e3).flatMap (fun r => (List.range m.e2).map (fun c => (r, c)))

/-- Owners of an output window's tiles with their columns (R257); faults at element 0. -/
def tileOwners (e : Eye) (m : MatShape) : M (List (Nat × Nat)) :=
  m.tiles.mapM (fun p => do
    let o ← tileOwner e 0 (m.va p.1 p.2 0 0)
    pure (o, p.2))

/-- Each owner once with its column; none when some bank owns tiles of two columns (R257). -/
def columnsOf (os : List (Nat × Nat)) : Option (List (Nat × Nat)) :=
  let ds := os.eraseDups
  if (ds.map (·.1)).eraseDups.length = ds.length then some ds else none

/-- The first tile whose bank owns an earlier tile of another column (DESIGN CHOICE, log entry 82). -/
def spanTile (m : MatShape) (os : List (Nat × Nat)) : Nat :=
  match ((m.tiles.zip os).zipIdx).find? (fun p => (os.take p.2).any (fun q => q.1 == p.1.2.1 && q.2 != p.1.2.2)) with
  | some p => m.va p.1.1.1 p.1.1.2 0 0
  | none => 0

/-! ### Loading a slot (R256, R259, R262) -/

def narrow (f : Fmt) : Bool := f.isS

/-- Bytes of a panel tile. -/
def tileBytes (f : Fmt) : Nat :=
  match f with
  | .bf16 => 2048
  | .q3 => 768
  | _ => 1024

/-- Rows of k in a panel tile. -/
def tileRows (f : Fmt) : Nat := if narrow f then 64 else 32

/-- `n` sectors from an address that is a multiple of 32. -/
def readSectors (e : Eye) (va : Nat) : Nat → M (List Byte)
  | 0 => pure []
  | n + 1 => do
    let b ← readVa e va 32 1
    let r ← readSectors e ((va + 32) % 2 ^ 64) n
    pure (b ++ r)

/-- Packed or whole codes of a format from bytes, first element in the low bits (R84). -/
def codesOf (f : Fmt) (bs : List Byte) (n : Nat) : List Word :=
  if f.packed then
    let x := bytesNat bs
    (List.range n).map (fun i => BitVec.ofNat 64 (fld (i * f.bits) f.bits x))
  else (List.range n).map (fun i => BitVec.ofNat 64 (bytesNat ((bs.drop (i * f.bytes)).take f.bytes)))

/-- A panel's group length is one that matrix instructions accept (R256, R261). -/
def checkGroup (f : Fmt) (wb : Desc) : M Unit :=
  need (!(narrow f && Desc.group wb == 128)) (matTrap 3 0 (Desc.base wb))

/-- A panel and its scale window lie on sectors, and so do their rows (R256). -/
def checkPanel (f : Fmt) (wb scl : Desc) : M Unit := do
  need (Desc.base wb % 32 == 0 && Desc.stride wb % 32 == 0) (mkTrap causeAlign 0 0 (Desc.base wb))
  need (!narrow f || (Desc.base scl % 32 == 0 && Desc.stride scl % 32 == 0)) (mkTrap causeAlign 0 0 (Desc.base scl))

/-- The panel tile and the scale block of column `j` (R256). -/
def loadTile (e : Eye) (r : CastRec) (j : Nat) : M (List Word × List Word) := do
  let nar := narrow r.fmt
  let q := if nar then r.kb / 2 else r.kb
  checkPanel r.fmt r.wb r.scl
  let e := { e with elem := 0 }
  let va := wrapNat 64 ((Desc.base r.wb : Int) + q * Desc.stride r.wb + j * tileBytes r.fmt)
  let bs ← readSectors e va (tileBytes r.fmt / 32)
  let ws := codesOf r.fmt bs (32 * tileRows r.fmt)
  if nar then
    let n := 64 / Desc.group r.wb * 32
    let sf := scaleFmt r.fmt
    let sva := wrapNat 64 ((Desc.base r.scl : Int) + q * Desc.stride r.scl + j * (n * sf.bytes))
    let ss ← readSectors e sva (n * sf.bytes / 32)
    pure (ws, codesOf sf ss n)
  else pure (ws, [])

/-- Fills a slot of every bank from a record, at the eye's stamp; the contents, without storing them. No race check
applies to a load (R262), whatever instruction makes it: it repeats the checks of `mload` (R259). -/
def loadSlot (e : Eye) (r : CastRec) : M (List PlaneSlot) := do
  let e := { e with race := none }
  let m ← readMat e r.out 1 true
  checkGroup r.fmt r.wb
  let os ← tileOwners e m
  match columnsOf os with
  | none => trapM (mkTrap causeMapSpan 0 0 (spanTile m os))
  | some ds =>
    ds.mapM (fun p => do
      let (ws, ss) ← loadTile e r p.2
      pure { bank := p.1, col := p.2, wts := ws, scl := ss })

/-- Replaces the contents of a slot of the stream's pair in every bank. -/
def putSlot (s : State) (shadow : Bool) (ps : List PlaneSlot) : State :=
  { s with slots := s.slots.filter (fun x => !(x.1 == s.front.sid && x.2.1 == shadow)) ++ ps.map (fun p => (s.front.sid, shadow, p)) }

/-- Exchanges the active and shadow slots in every bank (R263). -/
def swapSlots (s : State) : State :=
  { s with slots := s.slots.map (fun x => if x.1 == s.front.sid then (x.1, !x.2.1, x.2.2) else x) }

def loadInto (e : Eye) (shadow : Bool) (r : CastRec) : M Unit := do
  let ps ← loadSlot e r
  modify (fun s => putSlot s shadow ps)

/-- Contents of a slot at a bank. -/
def slotAt (s : State) (shadow : Bool) (bank : Nat) : Option PlaneSlot :=
  (s.slots.find? (fun x => x.1 == s.front.sid && x.2.1 == shadow && x.2.2.bank == bank)).map (·.2.2)

/-! ### Sums (R100) -/

/-- The weight (k, c) of a slot: its code times its scale, exactly. -/
def weightNum (f : Fmt) (g : Nat) (p : PlaneSlot) (k c : Nat) : Num :=
  let x := decodeNum f 0 false (p.wts.getD (32 * k + c) 0).toNat
  if narrow f then (applyScale x (decodeNum (scaleFmt f) 0 false (p.scl.getD (32 * (k / g) + c) 0).toNat)).1 else x

/-- The exact sum of products with its special cases (R100). -/
def dotNum (xs ys : List Num) : Num × Flags :=
  let ps := (xs.zip ys).map (fun p => (mulNum p.1 p.2).1)
  let isInf (n : Bool) : Num → Bool := fun x => match x with
    | .inf m => m == n
    | _ => false
  let nan := ps.any Num.isNaN
  if nan || (ps.any (isInf true) && ps.any (isInf false)) then (.nan false, flagNV)
  else if ps.any (isInf false) then (.inf false, 0)
  else if ps.any (isInf true) then (.inf true, 0)
  else
    let s := ps.foldl (fun a x => (addNum false a x).1) (.zero false)
    (if s.isZero then .zero false else s, 0)

/-- acc + s rounded once to f32 (R100). -/
def accumulate (r : Rnd) (acc : Nat) (s : Num) : Nat × Flags :=
  match Fmt.f32.fp with
  | some p =>
    let (x, f1) := addNum (r.rm == .rdn) (p.decode .f32 r.ftz acc) s
    let (y, f2) := toFloat p .f32 r x
    (y, f1 ||| f2)
  | none => (acc, 0)

/-! ### mma (R264) -/

/-- What one `mma` works with: its windows, the format of its activations and of the weights, KB. -/
structure MmaCx where
  carry : Carry
  act : Fmt
  masked : Bool
  rm : Rm
  kb : Nat
  wfmt : Fmt
  group : Nat
  /-- Number and salt of the random bits (R93). -/
  key : Nat
  salt : Word

/-- k-blocks an `mma` takes (R90). -/
def MmaCx.depth (x : MmaCx) : Nat := if narrow x.wfmt then 2 else 1

/-- One row of an activation tile: 32 codes of matrix row i1 of tile (r, kk). -/
def actRow (e : Eye) (m : MatShape) (f : Fmt) (r kk i1 : Nat) : M (List Num) := do
  let va := m.va r kk i1 0
  if m.t0 = f.bytes ∧ va % (32 * f.bytes) = 0 then
    let bs ← readVa e va (32 * f.bytes) f.bytes
    pure ((codesOf f bs 32).map (fun c => decodeNum f 0 false c.toNat))
  else
    (List.range 32).mapM (fun i0 => do
      let c ← readAt e f (m.va r kk i1 i0) 0
      pure (decodeNum f 0 false c))

/-- Row i1 of the activation tiles (r, KB) to (r, KB + d − 1), k ascending (R255). -/
def actRows (e : Eye) (x : MmaCx) (m : MatShape) (r i1 : Nat) : M (List Num) := do
  let rows ← (List.range x.depth).mapM (fun d => actRow e m x.act r (x.kb + d) i1)
  pure rows.flatten

/-- The result of one output element, before it is written. -/
def mmaValue (e : Eye) (x : MmaCx) (p : PlaneSlot) (row : List Num) (elem i0 : Nat) (va : Nat) : M (Nat × Flags) := do
  let acc ← readVa e va 4 4
  let s ← get
  let (d, f1) := dotNum row ((List.range (32 * x.depth)).map (fun k => weightNum x.wfmt x.group p k i0))
  let r := mkRnd x.carry s.front.sid x.key x.salt x.rm false elem
  let (y, f2) := accumulate r (bytesNat acc) d
  pure (y, f1 ||| f2)

/-- Whether element `elem` is unmasked: bit `elem` of the mask window, not limited by VL. -/
def mmaActive (e : Eye) (x : MmaCx) (elem : Nat) : M Bool :=
  if x.masked then do
    let p := flatVa (x.carry.win 4).d .bit elem
    let b ← readAt e .bit p.1 p.2
    pure (b == 1)
  else pure true

/-- One output element: the tile's owner and column, the mask, the sum, the write. Every accumulator sector
is shelved (R266). -/
def mmaItem (e : Eye) (x : MmaCx) (o : MatShape) (rows : List (Except Stop (List Num))) (b : Bcast) (r c i1 i0 : Nat) : M (Flags × Option Nat) := do
  let t0 := 1024 * (c + o.e2 * r)
  let elem := t0 + 32 * i1 + i0
  let own ← tileOwner e t0 (o.va r c 0 0)
  let s ← get
  match slotAt s false own with
  | none => trapM (mkTrap causeMapSpan 0 t0 (o.va r c 0 0))
  | some p =>
    if p.col ≠ c then trapM (mkTrap causeMapSpan 0 t0 (o.va r c 0 0))
    else
      let e := { e with elem := elem }
      if ← mmaActive e x elem then
        match rows.getD i1 (.error .wait) with
        | .error (.trap t) => trapM { t with elem := elem }
        | .error st => throw st
        | .ok row =>
          let va := o.va r c i1 i0
          let d ← destAddr e false 0 { d := BitVec.ofNat 128 (va % 2 ^ 56), idx := 0, scl := 0 } .f32 0
          markWalks d.walked
          let (y, fl) ← mmaValue e x p row elem i0 va
          let s ← get
          performWrite e none b.isn (isExempt s b elem) .f32 d y
          pure (fl, none)
      else pure (0, none)

/-- The items of an `mma` once its records are read and its slot is loaded. Its own panel meets R256 too, whatever slot
is active (R261). -/
def mmaPlan (e : Eye) (x : MmaCx) : M (List Item) := do
  let o ← readMat e (x.carry.win 0).d 1 true
  let a ← readMat e (x.carry.win 1).d 2 false
  if a.e3 ≠ o.e3 ∨ a.e2 < x.kb + x.depth then trapM (matTrap 2 0 (Desc.base (x.carry.win 1).d))
  else
    let wb := x.carry.win 2
    let pf := (Desc.fmt wb.d).getD x.wfmt
    checkGroup pf wb.d
    checkPanel pf wb.d wb.scl
    let ts ← o.tiles.mapM (fun p => do
      let rows ← (List.range 32).mapM (fun i1 => captured (actRows e x a p.1 i1))
      pure ((List.range 1024).map (fun k =>
        ({ no := 1024 * (p.2 + o.e2 * p.1) + k, elem := 1024 * (p.2 + o.e2 * p.1) + k, own := fun _ => pure (some 0),
           run := (mmaItem e x o rows · p.1 p.2 (k / 32) (k % 32)) } : Item))))
    pure ts.flatten

/-! ### Records (R258, R259) -/

def invalidate : SlotState → SlotState
  | .valid => .invalid
  | s => s

/-- The cast record of an `mload` from what it carries. -/
def castOf (fmt : Fmt) (kb : Nat) (c : Carry) : CastRec :=
  { wb := (c.win 2).d, out := (c.win 2).idx, scl := (c.win 2).scl, fmt := fmt, kb := kb }

def recsMload (fmt : Fmt) (kb : Nat) (b : Bcast) (r : PairRec) (ok : Bool) : PairRec :=
  if ok then { r with shd := some (castOf fmt kb b.carry), shdSt := .valid } else { r with shdSt := invalidate r.shdSt }

def recsSwap (r : PairRec) : PairRec := { r with act := r.shd, shd := r.act, actSt := r.shdSt, shdSt := r.actSt }

def recsMma (m : MArgs) (b : Bcast) (r : PairRec) (ok : Bool) : PairRec :=
  if ok then
    { r with mma := some { carry := b.carry, fmt := m.fmt, wm := m.wm != 0, rm := m.rm, kb := m.kb.toNat },
             actSt := if r.actSt = .invalid then .valid else r.actSt }
  else r

def recsRecast (shadow : Bool) (r : PairRec) (ok : Bool) : PairRec :=
  let st : SlotState := if ok then .valid else .invalid
  if shadow then (if r.shd.isSome then { r with shdSt := st } else r)
  else (if r.act.isSome then { r with actSt := st } else r)

def recsInval (shadow : Bool) (r : PairRec) : PairRec :=
  if shadow then { r with shdSt := invalidate r.shdSt } else { r with actSt := invalidate r.actSt }

/-! ### Bodies -/

/-- A matrix instruction with one piece of work at element 0. -/
def matBody (m : Eye → Bcast → M Unit) (recs : Bcast → PairRec → Bool → PairRec) : Body where
  foot _ _ := pure (some [])
  plan e _ _ := pure [{ no := 0, elem := 0, own := fun _ => pure (some 0), run := fun b => do
    m e b
    pure (0, none) }]
  root _ _ := (0, 0)
  result := none
  recs := recs

def bodyMload (fmt : Fmt) (kb : Nat) : Body :=
  matBody (fun e b => loadInto e true (castOf fmt kb b.carry)) (recsMload fmt kb)

def bodyMswap : Body := matBody (fun _ _ => modify swapSlots) (fun _ r _ => recsSwap r)

def bodyMrecast (shadow : Bool) : Body :=
  matBody (fun e _ => do
    let s ← get
    match (if shadow then s.front.planes.shd else s.front.planes.act) with
    | some r => loadInto e shadow r
    | none => pure ()) (fun _ r ok => recsRecast shadow r ok)

def bodyMinval (shadow : Bool) : Body :=
  matBody (fun _ _ => modify (fun s =>
    if (if shadow then s.front.planes.shdSt else s.front.planes.actSt) = .valid then putSlot s shadow [] else s))
    (fun _ r _ => recsInval shadow r)

/-- `mma`: loads an INVALID active slot, then adds tile by tile. -/
def bodyMma (m : MArgs) : Body where
  foot _ _ := pure none
  plan e _ b := do
    let s ← get
    match s.front.planes.act with
    | none => pure []
    | some r =>
      if s.front.planes.actSt = .invalid then loadInto { e with elem := 0 } false r
      mmaPlan e { carry := b.carry, act := m.fmt, masked := m.wm != 0, rm := m.rm, kb := m.kb.toNat, wfmt := r.fmt,
                  group := Desc.group r.wb, key := b.isn, salt := 0 }
  root _ _ := (0, 0)
  result := none
  recs := recsMma m

/-! ### Checks at the front (R252, R261) -/

/-- Pairings of R90. -/
def pairsWith (w a : Fmt) : Bool :=
  if narrow w then a.isP8 || a == .bf16 else if w.isP8 then a.isP8 else w == .bf16 && a == .bf16

def pairHeld (s : State) (pair : Bool) : Bool := s.front.plane && s.front.pair == pair

/-- A weights window and what it names (R256): FMT, MODE, IDX; the scale window in mode 0 or 1. -/
def panelBad (s : State) (wb : WReg) : Bool :=
  let d := s.rdW wb
  let o := s.rdW (Desc.idx d)
  Desc.mode d != 0 || Desc.idx d == 0 || Desc.idx d == wb
    || (match Desc.fmt d with
        | some f => !weightFmt f || (f.isS && Desc.scl d != 0 && Desc.mode (s.rdW (Desc.scl d)) > 1)
        | none => true)
    || Desc.fmt o != some .f32 || Desc.mode o != 3

/-- The scale window of a narrow panel breaks R85. -/
def panelScaleBad (s : State) (wb : WReg) : Bool :=
  let d := s.rdW wb
  match Desc.fmt d with
  | some f => f.isS && (Desc.grp d > 3 || (f == .e2m1 && Desc.grp d != 1) || Desc.scl d == 0
                || Desc.fmt (s.rdW (Desc.scl d)) != some (scaleFmt f))
  | none => false

/-- Windows a weights window reaches (R165). -/
def panelReached (s : State) (wb : WReg) : List WReg :=
  let d := s.rdW wb
  Desc.idx d :: (match Desc.fmt d with
    | some f => if f.isS then [Desc.scl d] else []
    | none => [])

/-- Rows of R261 that depend on windows, each in its format and mode, and on the mask: codes 15, 11 and 9. -/
def matRows (s : State) (wb : WReg) (wins : List (WReg × Fmt × Nat)) (wm : WReg) : Option TrapInfo :=
  if panelBad s wb || wins.any (fun p => Desc.fmt (s.rdW p.1) != some p.2.1 || Desc.mode (s.rdW p.1) != p.2.2) then some (operandTrap 15)
  else if maskBad s wm then some (operandTrap 11)
  else if panelScaleBad s wb then some (operandTrap 9)
  else none

/-- Presence of windows, then PLANE_NONE, then the rows. -/
def matChecks (s : State) (pair : Bool) (wb : WReg) (direct : List WReg) (wins : List (WReg × Fmt × Nat)) (wm : WReg) : Option TrapInfo :=
  if direct.any (· == 0) then some (operandTrap 0)
  else
    match lowestAbsent s (direct ++ [wm]) with
    | some w => some (mkTrap causeWindowAbsent w.toNat)
    | none =>
      match lowestAbsent s (panelReached s wb) with
      | some w => some (mkTrap causeWindowAbsent w.toNat)
      | none => if !pairHeld s pair then some (mkTrap causePlaneNone 0) else matRows s wb wins wm

def checkMload (s : State) (fmt : Fmt) (wb : WReg) (pair : Bool) : Option TrapInfo := matChecks s pair wb [wb] [(wb, fmt, 0)] 0

/-- The checks of `mma` that rest on the active slot (codes 5 to 7). -/
def checkActive (s : State) (m : MArgs) : Option TrapInfo :=
  match s.front.planes.act, s.front.planes.actSt with
  | _, .empty => some (matTrap 5)
  | none, _ => some (matTrap 5)
  | some r, _ =>
    if Desc.base r.wb ≠ Desc.base (s.rdW m.wb) ∨ r.kb ≠ m.kb.toNat ∨ Desc.base r.out ≠ Desc.base (s.rdW m.wd) then some (matTrap 6)
    else if !pairsWith r.fmt m.fmt then some (matTrap 7)
    else none

/-- Commands whose follow-on action is outstanding: neither completed nor cancelled (R247). -/
def actionsOut (s : State) : List Cmd := s.front.cmds.filter (fun c => c.proj.isSome && !c.finished && !c.cancelled)

/-- Commands with a follow-on action that are outstanding themselves: their tokens are unwritten (R247, R270). -/
def actionCmds (s : State) : List Cmd := s.front.cmds.filter (fun c => c.proj.isSome)

/-- The checks of `mma`; those that rest on the active slot are made once no command with an action is outstanding, for
it waits till then (R270). -/
def checkMma (s : State) (m : MArgs) : Option TrapInfo :=
  match matChecks s m.pair m.wb [m.wd, m.wa, m.wb] [(m.wd, .f32, 3), (m.wa, m.fmt, 3)] m.wm with
  | some t => some t
  | none => if (actionCmds s).isEmpty then checkActive s m else none

end Sys2Proof.Machine
end

