-- ==== Sys2Proof/Machine/Accum.lean ====
section
/-! DEFINITION. Accumulates and atomics at their homes (spec/17_accumulate.md): messages, quotas, residual
tiles, accumulation windows, the places of atomics, and the bodies of `vacc`, `vamo`, `adecl`, `amerge`. -/

namespace Sys2Proof.Machine

/-! ### Homes and scopes -/

/-- Home of a byte for accumulates (R335): its owner, or 65,536 + the peer; none for host memory. -/
def homeOf (s : State) (k : Key) : Option Nat :=
  match keyCls k with
  | .pr => some (65536 + (k - 2 ^ 54) / 2 ^ 52)
  | _ => ownerOf s k

/-- Whether a home lies in the memory of a scope's instance centred on a stream (R317); `beta` holds the owners of the
locations of the synchronising access. -/
def scopeMem (f : Front) (sc : Scope) (beta : List Nat) (home : Nat) : Bool :=
  match sc with
  | .stream => false
  | .bank => beta.contains home
  | .cell => home < 65536 && inDomain f.cell.toNat 0 home
  | .die => home < 65536 && inDomain (f.cell.toNat / 16 * 16) 4 home
  | .domain => home < 65536 && inDomain f.domBase.toNat f.domLog.toNat home
  | .module => home < 65536
  | .pod => true
  | .system => true

/-! ### Partials (R335, R337) -/

/-- Two partials combined: R89, or modulo 2^width. -/
def partAdd (f : Fmt) (x y : BitVec 128) : BitVec 128 :=
  if f = .wf96 then BitVec.ofNat 128 (addW96 false (W96.ofBits x.toNat) (W96.ofBits y.toNat)).bits
  else BitVec.ofNat 128 ((x.toNat + y.toNat) % 2 ^ f.bits)

/-- One partial joins the partials of a sector. -/
def addPart (f : Fmt) (p : Nat × BitVec 128) : List (Nat × BitVec 128) → List (Nat × BitVec 128)
  | [] => [p]
  | q :: r => if q.1 = p.1 then (p.1, partAdd f q.2 p.2) :: r else q :: addPart f p r

def addParts (f : Fmt) (ps qs : List (Nat × BitVec 128)) : List (Nat × BitVec 128) := qs.foldl (fun a q => addPart f q a) ps

/-- The 32 bytes of a sector with partials combined into its elements. -/
def addBytes (f : Fmt) (ps : List (Nat × BitVec 128)) (bs : List Byte) : List Byte :=
  ps.foldl (fun bs p =>
    let n := f.bytes
    let old := bytesNat ((bs.drop (p.1 * n)).take n)
    bs.take (p.1 * n) ++ wordBytes n (partAdd f (BitVec.ofNat 128 old) p.2).toNat ++ bs.drop (p.1 * n + n)) bs

/-- Bytes of a sector that partials touch. -/
def partKeys (f : Fmt) (sector : Nat) (ps : List (Nat × BitVec 128)) : List Key :=
  ps.flatMap (fun p => keysFrom (32 * sector + p.1 * f.bytes) f.bytes)

/-! ### A home performs and answers (R336 to R338) -/

/-- Raises the watch hit of a message at its stream (R401). -/
def reportWatch (s : State) (sid : BitVec 16) (w : Option TrapInfo) : State :=
  match w with
  | none => s
  | some t => s.mapStreams (fun f => if f.sid == sid && f.status != .idle then { f with pwatch := some t } else f)

/-- Frames of the places that accesses, pulls, accumulate messages and residuals under way will reach (R294). -/
def framesUsed (s : State) : List Nat :=
  s.streams.flatMap (fun f => (f.accesses.filter (fun a => a.done.isNone)).map (fun a => a.key / 2 ^ 14)
    ++ (f.pulls.filter (fun p => p.phase == .sent || p.phase == .parked)).map (fun p => p.sector / 2 ^ 9))
    ++ (s.msgs ++ s.homeQ).map (fun m => m.sector / 2 ^ 9) ++ s.residuals.map (fun r => r.sector / 2 ^ 9)

/-- Remap entries that SRMRET has retired go, once no access redirected through them is under way (R294). -/
def sweepRemaps (s : State) : State :=
  if s.stk.toList.all (fun r => r.retiring.isEmpty) then s
  else
    let used := framesUsed s
    { s with stk := mapVec (fun r =>
      let busy (e : Nat × Nat) : Bool := used.contains (remapped s (e.2 * 2 ^ 14) / 2 ^ 14)
      let stays (f : Nat) : Bool := r.remap.any (fun e => e.1 == f && busy e)
      { r with remap := r.remap.filter (fun e => !r.retiring.contains e.1 || busy e), retiring := r.retiring.filter stays }) s.stk }

/-- An accepted message is performed once, in memory and in every shelf entry of the sector; one whose
sector is uncorrectable is discarded and logged. -/
def performMsg (s : State) (m : AccMsg) : State :=
  let all := keysFrom (32 * m.sector) 32
  sweepRemaps <| if all.any (fun k => s.poison.contains (k / 8)) then s.event 6 0 [32 * m.sector % 2 ^ 53, m.sid.toNat]
  else
    let new := addBytes m.fmt m.parts (s.mem.gets all)
    let touched := partKeys m.fmt m.sector m.parts
    let s := s.store ((all.zip new).filter (fun p => touched.contains p.1))
    let s := { s with shelves := s.shelves.map (fun r => if r.sector == m.sector then { r with bytes := addBytes m.fmt m.parts r.bytes } else r) }
    reportWatch s m.sid m.watch

/-- Home number that stands for every home not listed in `quotaAt`. -/
def anyHome : Nat := 2 ^ 20

/-- QUOTA of a home's present interval (R336). -/
def quotaOf (s : State) (home : Nat) : Nat :=
  match s.quotaAt.find? (fun p => p.1 == home || p.1 == anyHome) with
  | some p => p.2.toNat
  | none => s.regs.quota.toNat

def sentTo (s : State) (home sender : Nat) : Nat :=
  ((s.quotas.find? (fun q => q.home == home && q.sender == sender)).map (·.count)).getD 0

/-- Entries of a home's ordinary accumulate queue (R336). -/
def queueDepth : Nat := 32

/-- Messages queued at a home. -/
def queuedAt (s : State) (home : Nat) : Nat := (s.homeQ.filter (fun m => m.home == home)).length

/-- A home answers a message: true is ACCEPT. A must-accept message goes ahead of those that are queued; an ordinary
one is counted and queued, unless its sender has reached QUOTA or the queue is full. A home on a peer module answers by
the peer's own AQUOTA (log entry 84). -/
def answerMsg (s : State) (m : AccMsg) : State × Bool :=
  if m.must then (performMsg s m, true)
  else if m.peer.isSome then
    let t := { s with drawn := s.drawn + 1 }
    if Config.peerAccepts s.drawn then ({ t with homeQ := t.homeQ ++ [m] }, true) else (t, false)
  else
    let n := sentTo s m.home m.sender
    if quotaOf s m.home ≤ n ∨ queueDepth ≤ queuedAt s m.home then (s, false)
    else
      let rest := s.quotas.filter (fun q => !(q.home == m.home && q.sender == m.sender))
      ({ s with quotas := { home := m.home, sender := m.sender, count := n + 1 } :: rest, homeQ := s.homeQ ++ [m] }, true)

/-- A home performs the oldest message in its queue. -/
def homeTurn (s : State) (home : Nat) : State :=
  match s.homeQ.find? (fun m => m.home == home) with
  | some m => performMsg { s with homeQ := s.homeQ.erase m } m
  | none => s

/-- Queued messages that satisfy `p` are performed, oldest first. -/
def drainQueues (s : State) (p : AccMsg → Bool) : State :=
  (s.homeQ.filter p).foldl performMsg { s with homeQ := s.homeQ.filter (fun m => !p m) }

/-! ### The residual tile (R339 to R341) -/

def Residual.msg (r : Residual) : AccMsg :=
  { sid := r.sid, sender := r.bank, home := r.home, sector := r.sector, peer := r.peer, fmt := r.fmt, frac := r.frac,
    parts := r.parts, must := true, watch := r.watch, answer := none }

def AccMsg.entry (m : AccMsg) : Residual :=
  { bank := m.sender, sid := m.sid, sector := m.sector, home := m.home, peer := m.peer, fmt := m.fmt, frac := m.frac,
    parts := m.parts, watch := m.watch }

/-- An entry of the sender for the stream and sector; `same` when format and FRAC agree as well. -/
def entryFor (m : AccMsg) (r : Residual) : Bool := r.bank == m.sender && r.sid == m.sid && r.sector == m.sector && r.peer == m.peer
def entryMatches (m : AccMsg) (r : Residual) : Bool := entryFor m r && r.fmt == m.fmt && r.frac == m.frac

/-- A must-accept message is performed; entries are kept most recently used first. -/
def mustSend (s : State) (r : Residual) : State := performMsg s r.msg

/-- Folding (R340): into the matching entry, or a fresh one, evicting the least recently used of a full set. -/
def foldMsg (s : State) (m : AccMsg) : State :=
  match s.residuals.find? (entryMatches m) with
  | some r =>
    { s with residuals := { r with parts := addParts m.fmt r.parts m.parts, watch := r.watch <|> m.watch } :: s.residuals.filter (fun q => !entryMatches m q) }
  | none =>
    let inSet (r : Residual) : Bool := r.bank == m.sender && r.sector % 32 == m.sector % 32
    let set := s.residuals.filter inSet
    let s := if set.length < 4 then s else
      match set.getLast? with
      | some old => mustSend { s with residuals := s.residuals.filter (fun r => r != old) } old
      | none => s
    { s with residuals := m.entry :: s.residuals }

/-- The answer reaches the sender: a refused message is folded (R340). -/
def takeAnswer (s : State) (m : AccMsg) (ok : Bool) : State := if ok then s else foldMsg s m

/-- Riding (R340): entries of the sector with another format go first as must-accept messages; the matching
entry joins the message. -/
def rideMsg (s : State) (m : AccMsg) : State × AccMsg :=
  let other := s.residuals.filter (fun r => entryFor m r && !entryMatches m r)
  let s := other.foldl mustSend { s with residuals := s.residuals.filter (fun r => !(entryFor m r && !entryMatches m r)) }
  match s.residuals.find? (entryMatches m) with
  | some r => ({ s with residuals := s.residuals.filter (fun q => !entryMatches m q) },
      { m with parts := addParts m.fmt r.parts m.parts, watch := r.watch <|> m.watch })
  | none => (s, m)

/-- One message answered and done with: its home has performed what was in its queue. -/
def settleMsg (s : State) (m : AccMsg) : State :=
  match m.answer with
  | some ok => takeAnswer s m ok
  | none =>
    let (s, ok) := answerMsg s m
    takeAnswer (drainQueues s (fun q => q.home == m.home)) m ok

/-- Messages that satisfy `p` are answered, oldest first, and what their homes have accepted is performed. -/
def settleMsgs (s : State) (p : AccMsg → Bool) : State :=
  drainQueues ((s.msgs.filter p).foldl settleMsg { s with msgs := s.msgs.filter (fun m => !p m) }) p

/-- A sender sends an ordinary message: its own home performs it at once; in lockstep the answer comes back
at once; otherwise it travels. A bank holds at most 32 that await an answer (R340). -/
def sendMsg (s : State) (m : AccMsg) : State :=
  if m.home = m.sender then performMsg s m
  else
    let (s, m) := rideMsg s m
    if s.pace = .lockstep then settleMsg s m
    else
      let mine := s.msgs.filter (fun q => q.sender == m.sender)
      let s := if mine.length ≥ 32 then
          match mine.head? with
          | some q => settleMsg { s with msgs := s.msgs.erase q } q
          | none => s
        else s
      { s with msgs := s.msgs ++ [m] }

/-- Delivers the front stream's messages and residual entries for homes that satisfy `p` (R341, R348). -/
def deliverResiduals (s : State) (p : Nat → Bool) : State :=
  let s := settleMsgs s (fun m => m.sid == s.front.sid && p m.home)
  let mine := s.residuals.filter (fun r => r.sid == s.front.sid && p r.home)
  mine.reverse.foldl mustSend { s with residuals := s.residuals.filter (fun r => !(r.sid == s.front.sid && p r.home)) }

/-! ### Places of atomics (R349) -/

inductive AtomOp where
  | add | and_ | or_ | xor_ | min_ | max_ | minn | maxn | swap | cas
  deriving DecidableEq, Repr

/-- Result of an operation on `w`-bit values (R151); `x` is the expected value of `cas`. -/
def AtomOp.new (o : AtomOp) (w old y x : Nat) : Nat :=
  match o with
  | .add => (old + y) % 2 ^ w
  | .and_ => old &&& y
  | .or_ => old ||| y
  | .xor_ => old ^^^ y
  | .min_ => if sextInt w old ≤ sextInt w y then old else y
  | .max_ => if sextInt w old ≤ sextInt w y then y else old
  | .minn => min old y
  | .maxn => max old y
  | .swap => y
  | .cas => if old = x then y else old

/-- SUB of the ATOM record of a scalar atomic (R359). -/
def AtomOp.sub (o : AtomOp) : Nat := if o = .cas then 2 else 1

/-- The place of an atomic accepts the operation (R349). -/
def atomPlaceOk (o : AtomOp) (pl : Place) : Bool :=
  let apl := pteApl pl.leaf
  let sysa := pteSysa pl.leaf
  match pteCls pl.leaf with
  | .bm | .sm => apl != 2 || sysa
  | .hm => (apl == 1 && !sysa) || (apl == 2 && sysa && (o == .add || o == .swap || o == .cas))
  | .pr => apl == 0

/-- Shelf entries hold an atomic back (R349): another stream's of the sector, those of its follow-on actions among them,
or the stream's above its stamp. -/
def atomBlocked (s : State) (st : Nat) (k : Key) : Bool :=
  s.shelves.any (fun r => r.sector == k / 32 && (r.sid != s.front.sid || (!r.action && st < r.isn)))

/-- An atomic at its place, indivisibly: the old value. `sub` and `elem` name it in the log. The elements of a `vamo`
that stand beside a diverging one complete without their records (R370; DEDUCED, log entry 112). -/
def doAtom (o : AtomOp) (sub : Nat) (e : Eye) (shelve : Bool) (ks : List Key) (va y x : Nat) : M Nat := do
  let s ← get
  let k := ks.headD 0
  let w := 8 * ks.length
  if atomBlocked s e.stamp k then waitM
  else if unreadable s ks then trapM (mkTrap causeDataError 0 e.elem (errorAt ks va))
  else
    let old := bytesNat (s.mem.gets ks)
    let b := e.stamp + at_ 48 e.elem
    if !(sub == 0 && s.front.strayed) then
      let _ ← admitOp 2 sub (objMem k) (fun r => r.b.toNat == b % 2 ^ 64) (some old) e.elem
    modify fun s =>
      let s := (record s 2 sub (objMem k) old b).touch ks
      if o = .cas ∧ old ≠ x then s
      else s.storeAt e.stamp shelve (ks.zip (wordBytes ks.length (o.new w old y x)))
    pure old

/-! ### Accumulation windows (R346, R347) -/

/-- PLOC: the STRIDE field as a local offset. -/
def plocOf (d : Desc) : Nat := fld 64 32 d.toNat

def declaredAs (s : State) (d : Desc) : Option AccDecl := s.front.decls.find? (fun a => a.desc == d)

/-- Format of an accumulation window. -/
def declFmt (d : Desc) : Fmt := (Desc.fmt d).getD .i64

/-- Whether `adecl` of a window of length `n` breaks R346. -/
def declBad (s : State) (d : Desc) (n : Nat) : Bool :=
  let ok := match Desc.fmt d with
    | some f => Desc.mode d == 0 && (f == .wf96 || homeFmt f) && plocOf d % 32 == 0 && 1 ≤ n && plocOf d + n * f.bytes ≤ 2 ^ 18
    | none => false
  !ok || s.front.decls.length ≥ 4 || (declaredAs s d).isSome

/-- The private copies of a declaration: a key's element and bank, when it lies in one. -/
def copyAt (s : State) (d : Desc) (n : Nat) (k : Key) : Option (Nat × Nat) :=
  let bank := (k - 2 ^ 53) / 2 ^ 18
  let loc := (k - 2 ^ 53) % 2 ^ 18
  let size := (declFmt d).bytes
  if keyCls k = .bm ∧ inDomain s.front.domBase.toNat s.front.domLog.toNat bank ∧ plocOf d ≤ loc ∧ loc < plocOf d + n * size then
    some ((loc - plocOf d) / size, bank)
  else none

/-- Zeroes every bank's private copy. -/
def zeroCopies (s : State) (d : Desc) (n : Nat) : State :=
  { s.notedIn (fun k => (copyAt s d n k).isSome) with
           mem := s.mem.filter (fun c => (copyAt s d n c.1).isNone),
           poison := s.poison.filter (fun w => (copyAt s d n (8 * w)).isNone) }

/-- The private elements that are not zero: (element, bank, value), by bank and element. -/
def copyElems (s : State) (d : Desc) (n : Nat) : List (Nat × Nat × BitVec 128) :=
  let f := declFmt d
  let at_ := (s.mem.filterMap (fun c => copyAt s d n c.1)).dedup
  (at_.map (fun p => (p.1, p.2, BitVec.ofNat 128 (s.mem.num (bmKey p.2 (plocOf d + p.1 * f.bytes)) f.bytes)))).filter
    (fun p => f != .wf96 || (W96.ofBits p.2.2.toNat).cnt != 0)

/-- Home of element `i` of a window in format `f`: keys, with the faults of R211; PLACEMENT where `ok` refuses the
page. -/
def homePlace (e : Eye) (vl : Nat) (w : Win) (f : Fmt) (perm : Perm) (ok : Place → Bool) (i : Nat) : M (Nat × Place × List Key) := do
  let (va, _) ← elemVa e vl w f i
  let pl ← xlate e.agent va perm i
  let ks ← keysM pl va f.bytes i
  need (ok pl) (mkTrap causePlacement 0 i va)
  need (va % f.bytes == 0) (mkTrap causeAlign 0 i va)
  pure (va, pl, ks)

/-- A place that takes accumulates: host memory has no home (R335). -/
def accPlace (pl : Place) : Bool := pteCls pl.leaf != .hm

/-- Place of a fault at a destination, and at a source, in the order of R211. -/
def destRank (t : TrapInfo) : Nat := if t.cause.toNat = causePlacement then 1 else if t.cause.toNat = causeAlign then 2 else 0
def srcRank (t : TrapInfo) : Nat := if t.cause.toNat = causePlacement then 1 else 3

/-- Two checks of one element: of two faults the first in the order of R211, the first check's on a tie. -/
def bothOf {α β : Type} (a : M α) (b : M β) (rank : TrapInfo → Nat) : M (α × β) := do
  match ← captured a, ← captured b with
  | .ok x, .ok y => pure (x, y)
  | .error (.trap t), .error (.trap u) => trapM (if destRank t ≤ rank u then t else u)
  | .error (.trap _), .error y => throw y
  | .error x, _ => throw x
  | .ok _, .error y => throw y

/-- The lowest faulting element of several checks, each at an element. -/
def lowestFault : List (Nat × M Unit) → M (Option (Nat × Stop))
  | [] => pure none
  | (i, m) :: r => do
    let x ← captured m
    let y ← lowestFault r
    match x, y with
    | .ok _, y => pure y
    | .error a, some (j, b) => if i ≤ j then pure (some (i, a)) else pure (some (j, b))
    | .error a, none => pure (some (i, a))

/-- A watch hit at a home: precise when the sender is the home, else reported by it (R401, R402). -/
def homeWatch (e : Eye) (sender : Nat) (va : Nat) (ks : List Key) (rd exempt : Bool) (precise : Bool := true) : M (Option TrapInfo) := do
  let s ← get
  let m := watchMask e.watch va ks.length rd true
  if m = 0 ∨ exempt then pure none
  else if precise && (ks.head?.bind (homeOf s)) == some sender then trapM (watchTrap 1 m e.elem va)
  else pure (some (mkTrap causeWatch (1 + 16 * 3 + 256 * m + 65536 * s.front.sid.toNat) 0 (va / 32 * 32)))

/-- How merges treat a watch hit: an instruction's traps where the home is the sender, but at an exempt element; those of
a context switch are all reported. -/
inductive MergeWatch where
  | traps (exempt : Nat → Bool)
  | reports

/-- Home of an element of a private copy: its sender, its keys, and its watch hit. -/
def mergePlace (e : Eye) (mw : MergeWatch) (d : Desc) (p : Nat × Nat × BitVec 128) : M (List Key × Option TrapInfo) := do
  let e := { e with elem := p.1 }
  let (va, _, ks) ← homePlace e 0 { d := d, idx := 0, scl := 0 } (declFmt d) .write accPlace p.1
  let w ← match mw with
    | .traps exempt => homeWatch e p.2.1 va ks false (exempt p.1)
    | .reports => homeWatch e p.2.1 va ks false false false
  pure (ks, w)

/-- Messages of one sender to one sector become one (R344, R347). -/
def gather1 (m : AccMsg) : List AccMsg → List AccMsg
  | [] => [m]
  | q :: r =>
    if q.sender = m.sender ∧ q.sector = m.sector then
      { q with parts := addParts m.fmt q.parts m.parts, watch := q.watch <|> m.watch } :: r
    else q :: gather1 m r

/-- An element of a bank's private copy as part of a must-accept message to its home. -/
def mergeOne (mw : MergeWatch) (d : Desc) (e : Eye) (p : Nat × Nat × BitVec 128) : M (List AccMsg) := do
  let f := declFmt d
  let (ks, w) ← mergePlace e mw d p
  let s ← get
  match ks with
  | [] => pure []
  | k :: _ =>
    match homeOf s k with
    | some h => pure [{ sid := s.front.sid, sender := p.2.1, home := h, sector := k / 32, peer := none, fmt := f, frac := BitVec.ofNat 7 (Desc.frac d),
                        parts := [(k % 32 / f.bytes, p.2.2)], must := true, watch := w, answer := none }]
    | none => pure []

/-- The two phases of `amerge` (R342, R347): homes and their watchpoints first, then the copies merged and zeroed. The
declaration stays. -/
def mergeCopies (e : Eye) (mw : MergeWatch) (a : AccDecl) : M Unit := do
  let s ← get
  let es := copyElems s a.desc a.len
  match ← lowestFault (es.map (fun p => (p.1, do
      let _ ← mergePlace e mw a.desc p
      pure ()))) with
  | some (_, st) => throw st
  | none => do
    let ms ← es.mapM (mergeOne mw a.desc e)
    modify (fun s => zeroCopies ((ms.flatten.foldl (fun l m => gather1 m l) []).foldl performMsg s) a.desc a.len)

/-- Merges the copies of every accumulation window (R347). -/
def mergeAll (e : Eye) (mw : MergeWatch) : List AccDecl → M Unit
  | [] => pure ()
  | a :: r => do
    mergeCopies e mw a
    mergeAll e mw r

/-! ### vacc (R343, R344) -/

/-- Addend formats a home format takes (R343). -/
def addendOk (home : Fmt) (a : Fmt) : Bool :=
  if home = .wf96 then a.isINF || a.isP8 || a == .wf96 else a == home

/-- The sender of element `i`: the owner of its addend, with the fault of a missing translation. -/
def senderOf (e : Eye) (c : Carry) (f : Fmt) (i : Nat) (on : Bool) : M Nat := do
  let (va, _) ← elemVa e c.vl.toNat (c.win 1) f i
  let (pl, _) ← lookup e.agent va false i
  let s ← get
  if on && pteCls pl.leaf != .bm then trapM (mkTrap causePlacement 0 i va)
  else
    match keyOf s pl va with
    | none => if on then trapM (mkTrap causePlacement 0 i va) else pure 0
    | some k => pure ((ownerOf s k).getD 0)

/-- Phase 1 of an active element of `vacc`: the converted addend. Its faults go in the order of R211, the watchpoints of
its home after its source. An addend in wf96 that carries U = 1 raises RU as one that is clamped does, as `vcvt` would
(DESIGN CHOICE, log entry 92: R88 names only the clamp, an infinity and a NaN). `mask` is the reading of its mask bit,
whose fault counts as one of a source. -/
def vaccActive (v : VArgs) (mask : M Unit) (e : Eye) (b : Bcast) (i : Nat) : M (Flags × List (Nat × Nat)) := do
  let c := b.carry
  let af := (Desc.fmt (c.win 1).d).getD v.fmt
  let s ← get
  let home : M (Option (Nat × Place × List Key)) :=
    if (declaredAs s (c.win 0).d).isSome then pure none else some <$> homePlace e c.vl.toNat (c.win 0) v.fmt .write accPlace i
  let (h, own) ← bothOf home (senderOf e c af i true) srcRank
  mask
  let (x, _) ← operandA e c { v with fmt := af } af i
  match h with
  | some (va, _, ks) => do
    let _ ← homeWatch e own va ks false (isExempt s b i)
  | none => pure ()
  if v.fmt = .wf96 then
    let (y, fl) := convert { src := af, dst := .wf96, srcFrac := Desc.frac (c.win 1).d, dstFrac := Desc.frac (c.win 0).d }
      { rm := .rne, sat := false, ftz := c.ftz, rbits := 0 } x (decodeNum af (Desc.frac (c.win 1).d) c.ftz x)
    pure (fl, [(i, y)])
  else pure (0, [(i, x)])

/-- One element of a phase 1: `on` for an active one, with what its mask bit raises, and `off` for another. A mask bit
that cannot be read leaves the element's addresses to be checked first (R211). -/
def phaseElem (e : Eye) (c : Carry) (masked : Bool) (i : Nat) (on : M Unit → M (Flags × List (Nat × Nat))) (off : M Unit) :
    M (Flags × List (Nat × Nat)) := do
  match ← captured (active e c masked i) with
  | .ok true => on (pure ())
  | .ok false => do
    off
    pure (0, [])
  | .error (.trap t) => on (trapM t)
  | .error st => throw st

/-- Phase 1 of an element of `vacc`. -/
def vaccPhase1 (v : VArgs) (e : Eye) (b : Bcast) (i : Nat) : M (Flags × List (Nat × Nat)) :=
  let e := { e with elem := i }
  let c := b.carry
  phaseElem e c (v.wm != 0) i (fun mask => vaccActive v mask e b i) (do
    let _ ← senderOf e c ((Desc.fmt (c.win 1).d).getD v.fmt) i false)

/-- Records that the banks check before phase 1 (R164): `always` of windows whose addresses give the owners, and, where
some element is active, of the others. -/
def homeRecords (masked : Bool) (first always last : List Nat) (e : Eye) (b : Bcast) : M Unit := do
  let some_ (ks : List Nat) : M Unit := do
    if shaped b ks then
      if ← someNeeds (fun i => active { e with elem := i } b.carry masked i) (List.range b.carry.real) then ks.forM (shapeReady e b)
  if b.carry.vl.toNat = 0 then pure ()
  else do
    some_ first
    always.forM (shapeReady e b)
    some_ last

/-- All the elements of a phase 1, in order. -/
def phaseAll (g : Nat → M (Flags × List (Nat × Nat))) (n : Nat) : M (Flags × List (Nat × Nat)) := do
  let rs ← (List.range n).mapM g
  pure (rs.foldl (fun a r => a ||| r.1) 0, rs.flatMap (·.2))

/-- An addend of phase 2 as a message of one part. -/
def vaccMsg (v : VArgs) (e : Eye) (b : Bcast) (p : Nat × Nat) : M AccMsg := do
  let e := { e with elem := p.1 }
  let c := b.carry
  let own ← senderOf e c ((Desc.fmt (c.win 1).d).getD v.fmt) p.1 true
  let (va, _, ks) ← homePlace e c.vl.toNat (c.win 0) v.fmt .write accPlace p.1
  let s ← get
  let w ← homeWatch e own va ks false (isExempt s b p.1)
  let k := ks.headD 0
  let peer : Option (BitVec 6) := if keyCls k = .pr then some (BitVec.ofNat 6 ((k - 2 ^ 54) / 2 ^ 52)) else none
  pure { sid := s.front.sid, sender := own, home := (homeOf s k).getD 0, sector := k / 32, peer := peer, fmt := v.fmt,
         frac := if v.fmt = .wf96 then BitVec.ofNat 7 (Desc.frac (c.win 0).d) else 0,
         parts := [(k % 32 / v.fmt.bytes, BitVec.ofNat 128 p.2)], must := false, watch := w, answer := none }

/-- An addend joins its sender's private copy. -/
def intoCopy (v : VArgs) (e : Eye) (b : Bcast) (p : Nat × Nat) : M Unit := do
  let c := b.carry
  let own ← senderOf { e with elem := p.1 } c ((Desc.fmt (c.win 1).d).getD v.fmt) p.1 true
  modify fun s =>
    let k := bmKey own (plocOf (c.win 0).d + p.1 * v.fmt.bytes)
    let old := BitVec.ofNat 128 (s.mem.num k v.fmt.bytes)
    s.write k v.fmt.bytes (partAdd v.fmt old (BitVec.ofNat 128 p.2)).toNat

/-- `vacc`: phase 2 sends everything as one item; nothing in it can stop. -/
def bodyVacc (v : VArgs) : Body where
  foot _ _ := pure none
  ready e b := homeRecords (v.wm != 0) [0] [1] [] e b
  phase1 e b := phaseAll (vaccPhase1 v e b) b.carry.vl.toNat
  plan e _ _ := pure [{ no := 0, elem := 0, own := fun _ => pure (some 0), run := fun b => do
    let s ← get
    if (declaredAs s (b.carry.win 0).d).isSome then
      b.leaves.forM (intoCopy v e b)
    else
      let ms ← b.leaves.mapM (vaccMsg v e b)
      modify (fun s => (ms.foldl (fun l m => gather1 m l) []).foldl sendMsg s)
    pure (0, none) }]
  root _ _ := (0, 0)
  result := none
  recs _ r _ := r

/-- The check of R346 at the front: VL beyond DL. -/
def vaccDeclBad (s : State) (wd : WReg) : Bool :=
  match declaredAs s (s.rdW wd) with
  | some a => s.front.csr.vl.toNat > a.len
  | none => false

/-! ### vamo (R350 to R352) -/

/-- Phase 1 of an active element of `vamo`: its operand. Both addresses are translated before their places and
alignments are checked (R351); watchpoints come after the source, as R211 has them. Nothing is written, and no tag is
updated. -/
def vamoActive (o : AtomOp) (v : VArgs) (mask : M Unit) (e : Eye) (b : Bcast) (i : Nat) : M (Flags × List (Nat × Nat)) := do
  let c := b.carry
  let vl := c.vl.toNat
  let ((va, _, ks), d) ← bothOf (homePlace e vl (c.win 0) v.fmt .both (atomPlaceOk o) i) (destAddr e false vl (c.win 2) v.fmt i) destRank
  markWalks d.walked
  mask
  let s ← get
  let own := (d.keys.head?.bind (ownerOf s)).getD 0
  let (y, _) ← operandA e c v v.fmt i
  let _ ← homeWatch e own va ks true (isExempt s b i)
  writeChecks e (isExempt s b i) v.fmt d
  pure (0, [(i, y)])

/-- Phase 1 of an element of `vamo`. -/
def vamoPhase1 (o : AtomOp) (v : VArgs) (e : Eye) (b : Bcast) (i : Nat) : M (Flags × List (Nat × Nat)) :=
  let e := { e with elem := i }
  phaseElem e b.carry (v.wm != 0) i (fun mask => vamoActive o v mask e b i) (do
    let (va, _) ← elemVa e b.carry.vl.toNat (b.carry.win 2) v.fmt i
    let _ ← lookup e.agent va false i)

/-- The entries under F + 1 that the old values of a `vamo` need, element after element: R199 is met in phase 1, for
phase 2 runs to completion (R342; DESIGN CHOICE, log entry 91). -/
def vamoShelf (v : VArgs) (e : Eye) (fp : Option (List Range)) (b : Bcast) : List (Nat × Nat) → List (Nat × Nat) → M Unit
  | [], _ => pure ()
  | p :: ps, need_ => do
    let d ← destAddr { e with elem := p.1 } false b.carry.vl.toNat (b.carry.win 2) v.fmt p.1
    let s ← get
    match d.keys.head?.bind (ownerOf s) with
    | some o =>
      if needsShelf s fp b.isn d then
        let need_ := (need_ ++ (sectorsOf d.keys).map (fun c => (o, c))).dedup
        if shelfSize o < (need_.filter (fun q => q.1 == o)).length then trapM (mkTrap causeIllegalOperand (16 * 7) p.1 0)
        else vamoShelf v e fp b ps need_
      else vamoShelf v e fp b ps need_
    | none => vamoShelf v e fp b ps need_

/-- Phase 1 of a `vamo`. -/
def vamoAll (o : AtomOp) (v : VArgs) (fp : M (Option (List Range))) (e : Eye) (b : Bcast) : M (Flags × List (Nat × Nat)) := do
  let r ← phaseAll (vamoPhase1 o v e b) b.carry.vl.toNat
  let f ← fp
  vamoShelf v e f b r.2 []
  pure r

/-- Keeps the lowest failed element of a `vamo` (R352, R370). -/
def noteLate (t : TrapInfo) : M Unit :=
  modify fun s =>
    let keep : Bool := match s.front.late with
      | some u => u.elem ≤ t.elem
      | none => false
    let s := { s with front := { s.front with strayed := s.front.strayed || t.cause.toNat == causeDiverge } }
    if keep then s else { s with front := { s.front with late := some t } }

/-- The old value of an element goes to WB by perform(i), once its record has an index (R363) and there is room for the
shelf entry it may need (R196, R198). -/
def writeOld (v : VArgs) (e : Eye) (fp : Option (List Range)) (b : Bcast) (d : Dest) (i old : Nat) : M Unit := do
  let s ← get
  let shelve := needsShelf s fp b.isn d
  if atomHeld s b.isn i || (shelve && !shelfRoom s d.keys b.isn) then
    set { s with front := { s.front with olds := (i, old) :: s.front.olds.filter (fun q => q.1 != i) } }
    waitM
  else
    raceMark e.race d.place d.keys true
    modify (fun s => { s.storeAt b.isn shelve (codeBytes s v.fmt d old) with front := { s.front with olds := s.front.olds.filter (fun q => q.1 != i) } })

/-- Phase 2 of an element: the atomic at its place, then the old value to WB. -/
def vamoElem (o : AtomOp) (v : VArgs) (e : Eye) (fp : Option (List Range)) (b : Bcast) (p : Nat × Nat) : M Unit := do
  let vl := b.carry.vl.toNat
  let (va, _, ks) ← homePlace e vl (b.carry.win 0) v.fmt .both (atomPlaceOk o) p.1
  let d ← destAddr e false vl (b.carry.win 2) v.fmt p.1
  let s ← get
  match s.front.olds.find? (fun q => q.1 == p.1) with
  | some q => writeOld v e fp b d p.1 q.2
  | none => do
    let w ← homeWatch e ((d.keys.head?.bind (ownerOf s)).getD 0) va ks true (isExempt s b p.1)
    let old ← doAtom o 0 { e with stamp := b.isn } false ks va p.2 0
    modify (fun s => reportWatch s s.front.sid w)
    writeOld v e fp b d p.1 old

/-- An element that fails changes nothing and is kept for the stop after the instruction (R352). -/
def vamoItem (o : AtomOp) (v : VArgs) (e : Eye) (fp : Option (List Range)) (b : Bcast) (p : Nat × Nat) : M (Flags × Option Nat) := do
  match ← captured (vamoElem o v { e with elem := p.1 } fp b p) with
  | .error (.trap t) => noteLate t
  | .error st => throw st
  | .ok _ => pure ()
  pure (0, none)

/-- Owner that stands for the front where its own turn performs the items of a broadcast. -/
def frontOwn : Nat := 2 ^ 14

/-- Footprint of a `vamo`: its operands, its mask, and the index windows of its two destinations (R196). -/
def vamoFoot (v : VArgs) : Eye → Bcast → M (Option (List Range)) := footQuiet (footOf [1] [0, 2] (v.wm != 0))

def bodyVamo (o : AtomOp) (v : VArgs) : Body where
  foot := vamoFoot v
  ready e b := homeRecords (v.wm != 0) [0] [2] [1] e b
  phase1 e b := vamoAll o v (vamoFoot v e b) e b
  plan e fp b := pure (b.leaves.map (fun p => { no := p.1, elem := p.1, own := fun _ => pure (some frontOwn), run := (vamoItem o v e fp · p) }))
  apart := true
  root _ _ := (0, 0)
  result := none
  recs _ r _ := r

/-- Owners of the locations of a `vamo`'s active elements, as its addresses now translate (R317). -/
def vamoHomes (v : VArgs) (e : Eye) (b : Bcast) (s : State) : List Nat :=
  ((List.range b.carry.vl.toNat).filterMap (fun i =>
    match (M.exec (do
        let on ← active { e with elem := i } b.carry (v.wm != 0) i
        let (_, _, ks) ← homePlace { e with elem := i } b.carry.vl.toNat (b.carry.win 0) v.fmt .both (fun _ => true) i
        pure (on, ks)) s).1 with
    | .ok (true, k :: _) => homeOf s k
    | _ => none)).dedup

/-! ### adecl, amerge -/

/-- A body of one item that runs `m` at element 0. -/
def oneBody (m : Eye → Bcast → M Unit) : Body := matBody m (fun _ r _ => r)

def bodyAdecl : Body := oneBody (fun _ b => modify (fun s =>
  let d := (b.carry.win 1).d
  let n := b.carry.vl.toNat
  let s := zeroCopies s d n
  { s with front := { s.front with decls := s.front.decls ++ [{ desc := d, len := n }] } }))

def bodyAmerge : Body := oneBody (fun e b => do
  let s ← get
  match declaredAs s (b.carry.win 1).d with
  | none => pure ()
  | some a =>
    mergeCopies e (.traps (isExempt s b)) a
    modify (fun s => { s with front := { s.front with decls := s.front.decls.filter (fun x => x.desc != a.desc) } }))

end Sys2Proof.Machine
end

