-- ==== Sys2Proof/Machine/Bcasts.lean ====
section
/-! DEFINITION. For every broadcast instruction: the checks of the front, what the broadcast carries, and the
body its owners run. Issue, the banks' own steps and a restart all read it here. -/

namespace Sys2Proof.Machine

/-- What the front and the owners do with a broadcast. -/
structure BInfo where
  /-- The checks of the front (R70, R165, R166, R207, R261), first fault first. -/
  check : State → Option TrapInfo
  /-- What it carries from issue (R57, R99, R160). -/
  carry : State → Carry
  body : Body
  /-- Fencing (R191). -/
  fencing : Bool
  /-- The scope at which the instruction releases before it issues (R351). -/
  release : Option Scope := none
  /-- The owners of the locations where it synchronises (R317). -/
  homes : Eye → Bcast → State → List Nat := fun _ _ _ => []
  /-- The windows it writes, as the carry numbers them (R237). -/
  dests : List Nat := [0]

/-- A window of a required format. -/
def inFmt (w : WReg) (f : Fmt) : Option Use := some { w := w, fmt := some f, mode := none }

/-- A window of a required format in a required mode. -/
def inMode (w : WReg) (f : Fmt) (m : Nat) : Option Use := some { w := w, fmt := some f, mode := some m }

/-- Scalar B as carried (R57). -/
def scalarOf (s : State) (v : VArgs) : Word := if v.sb then s.rd ((0 : BitVec 1) ++ v.wb) else 0

/-- Operand B as a window, unless it is a scalar. -/
def useB (v : VArgs) : Option Use := if v.sb then none else inFmt v.wb v.fmt

/-- A vector broadcast from the windows it uses (R207). -/
def vecInfo (v : VArgs) (ud ua ub uc : Option Use) (body : Body) (blockDest : Bool := false) (oneFrac : Bool := true) : BInfo where
  check s := checkUses s (ud.toList ++ ua.toList ++ ub.toList ++ uc.toList) v.wm (if blockDest then some v.wd else none) oneFrac
  carry s := mkCarry s (ud.map (·.w)) (ua.map (·.w)) (ub.map (·.w)) (uc.map (·.w)) (if v.wm = 0 then none else some v.wm) (scalarOf s v)
  body := body
  fencing := false

/-- Destination and sources in the format of the word. -/
def infoAB (v : VArgs) (body : Body) : BInfo := vecInfo v (inFmt v.wd v.fmt) (inFmt v.wa v.fmt) (useB v) none body
def infoABC (v : VArgs) (body : Body) : BInfo := vecInfo v (inFmt v.wd v.fmt) (inFmt v.wa v.fmt) (useB v) (inFmt v.wc v.fmt) body
def infoA (v : VArgs) (body : Body) : BInfo := vecInfo v (inFmt v.wd v.fmt) (inFmt v.wa v.fmt) none none body
def infoCmp (v : VArgs) (body : Body) : BInfo := vecInfo v (inFmt v.wd .bit) (inFmt v.wa v.fmt) (useB v) none body
def infoD (v : VArgs) (body : Body) : BInfo := vecInfo v (inFmt v.wd v.fmt) none none none body
def infoSel (v : VArgs) (body : Body) : BInfo := vecInfo v (inFmt v.wd v.fmt) (inFmt v.wa v.fmt) (useB v) (inFmt v.wc .bit) body
def infoAC (v : VArgs) (body : Body) : BInfo := vecInfo v (inFmt v.wd v.fmt) (inFmt v.wa v.fmt) none (inFmt v.wc .bit) body
def infoRed (v : VArgs) (body : Body) : BInfo := vecInfo v none (inFmt v.wa v.fmt) none none body

def infoVadd (v : VArgs) : BInfo := infoAB v (bodyArith .add false true v)
def infoVsub (v : VArgs) : BInfo := infoAB v (bodyArith .sub false false v)
def infoVmul (v : VArgs) : BInfo := infoAB v (bodyArith .mul false true v)
def infoVfma (v : VArgs) : BInfo := infoABC v (bodyArith .fma true true v)
def infoVfms (v : VArgs) : BInfo := infoABC v (bodyArith .fms true false v)
def infoVfnma (v : VArgs) : BInfo := infoABC v (bodyArith .fnma true false v)
def infoVmin (v : VArgs) : BInfo := infoAB v (bodyMinMax false v)
def infoVmax (v : VArgs) : BInfo := infoAB v (bodyMinMax true v)
def infoVabs (v : VArgs) : BInfo := infoA v (bodyUnary .abs v)
def infoVneg (v : VArgs) : BInfo := infoA v (bodyUnary .neg v)
def infoVrcp (v : VArgs) : BInfo := infoA v (bodyUnary .rcp v)
def infoVrsq (v : VArgs) : BInfo := infoA v (bodyUnary .rsq v)
def infoVexp2 (v : VArgs) : BInfo := infoA v (bodyUnary .exp2 v)
def infoVlog2 (v : VArgs) : BInfo := infoA v (bodyUnary .log2 v)
def infoVand (v : VArgs) : BInfo := infoAB v (bodyLogic (fun x y => x &&& y) v)
def infoVor (v : VArgs) : BInfo := infoAB v (bodyLogic (fun x y => x ||| y) v)
def infoVxor (v : VArgs) : BInfo := infoAB v (bodyLogic (fun x y => x ^^^ y) v)
def infoVnot (v : VArgs) : BInfo := infoA v (bodyNot v)
def infoVsll (v : VArgs) : BInfo := infoAB v (bodyShift .sll v)
def infoVsrl (v : VArgs) : BInfo := infoAB v (bodyShift .srl v)
def infoVsra (v : VArgs) : BInfo := infoAB v (bodyShift .sra v)
def infoVceq (v : VArgs) : BInfo := infoCmp v (bodyCompare .eq v)
def infoVcne (v : VArgs) : BInfo := infoCmp v (bodyCompare .ne v)
def infoVclt (v : VArgs) : BInfo := infoCmp v (bodyCompare .lt v)
def infoVcle (v : VArgs) : BInfo := infoCmp v (bodyCompare .le v)
def infoVsel (v : VArgs) : BInfo := infoSel v (bodySel v)

/-- `vcvt` (R207, R222): the frame of a block-scaled destination is R223's. -/
def infoVcvt (sf : Fmt) (v : VArgs) : BInfo :=
  vecInfo v (inFmt v.wd v.fmt) (inFmt v.wa sf) none none (bodyCvt sf v) v.fmt.isS (v.fmt != .wf96 || sf != .wf96)

def infoVmov (v : VArgs) : BInfo := infoA v (bodyMov v)
def infoVfill (v : VArgs) : BInfo := infoD v (bodyFill v)
def infoViota (v : VArgs) : BInfo := infoD v (bodyIota v)
def infoVredAdd (v : VArgs) : BInfo := infoRed v (bodyRed .add v)
def infoVredMax (v : VArgs) : BInfo := infoRed v (bodyRed .max v)
def infoVredMin (v : VArgs) : BInfo := infoRed v (bodyRed .min v)
def infoVscanAdd (v : VArgs) : BInfo := infoA v (bodyScan .add v)
def infoVscanMax (v : VArgs) : BInfo := infoA v (bodyScan .max v)
def infoVscanMin (v : VArgs) : BInfo := infoA v (bodyScan .min v)
def infoVgather (v : VArgs) : BInfo := vecInfo v (inFmt v.wd v.fmt) (inMode v.wa v.fmt 2) none none (bodyMov v)
def infoVscatter (v : VArgs) : BInfo := vecInfo v (inMode v.wd v.fmt 2) (inFmt v.wa v.fmt) none none (bodyMov v)
def infoVcompact (v : VArgs) : BInfo := infoAC v (bodyCompact v)
def infoVexpand (v : VArgs) : BInfo := infoAC v (bodyExpand v)
def infoLanex (v : VArgs) : BInfo := vecInfo v (inFmt v.wd v.fmt) (some { w := v.wa, fmt := none, mode := none }) none none (bodyLanex v)

/-! ### Homes (R343, R350, R347) -/

/-- `vacc`: the addend's format is one of R343, and VL is within DL of a declared window (R346). -/
def infoVacc (v : VArgs) : BInfo :=
  let r := vecInfo v (inFmt v.wd v.fmt) (some { w := v.wa, fmt := none, mode := none }) none none (bodyVacc v) false false
  { r with
    fencing := true
    check := fun s =>
      match r.check s with
      | some t => some t
      | none =>
        if !((Desc.fmt (s.rdW v.wa)).map (addendOk v.fmt)).getD false then some (operandTrap 15)
        else if vaccDeclBad s v.wd then some (operandTrapHi 12)
        else none }

/-- `vamo`; one with release order waits before it issues (R351). -/
def infoVamo (o : AtomOp) (v : VArgs) (ord : MemOrder) (sc : Scope) : BInfo :=
  { vecInfo v (inFmt v.wd v.fmt) (inFmt v.wa v.fmt) (inFmt v.wb v.fmt) none (bodyVamo o v) with
    fencing := true
    release := if ord = .rel then some sc else none
    homes := vamoHomes v
    dests := [0, 2] }

def infoVamoAdd (v : VArgs) (ord : MemOrder) (sc : Scope) : BInfo := infoVamo .add v ord sc
def infoVamoAnd (v : VArgs) (ord : MemOrder) (sc : Scope) : BInfo := infoVamo .and_ v ord sc
def infoVamoOr (v : VArgs) (ord : MemOrder) (sc : Scope) : BInfo := infoVamo .or_ v ord sc
def infoVamoXor (v : VArgs) (ord : MemOrder) (sc : Scope) : BInfo := infoVamo .xor_ v ord sc
def infoVamoMin (v : VArgs) (ord : MemOrder) (sc : Scope) : BInfo := infoVamo .min_ v ord sc
def infoVamoMax (v : VArgs) (ord : MemOrder) (sc : Scope) : BInfo := infoVamo .max_ v ord sc
def infoVamoMinn (v : VArgs) (ord : MemOrder) (sc : Scope) : BInfo := infoVamo .minn v ord sc
def infoVamoMaxn (v : VArgs) (ord : MemOrder) (sc : Scope) : BInfo := infoVamo .maxn v ord sc
def infoVamoSwap (v : VArgs) (ord : MemOrder) (sc : Scope) : BInfo := infoVamo .swap v ord sc

/-- The checks of R165 and R166 of an instruction with one window, then its own. -/
def checkWin (s : State) (wa : WReg) (rest : Option TrapInfo) : Option TrapInfo :=
  match checkUses s [{ w := wa, fmt := none, mode := none }] 0 none false with
  | some t => some t
  | none => rest

def infoAdecl (wa : WReg) : BInfo where
  check s := checkWin s wa (if declBad s (s.rdW wa) s.front.csr.vl.toNat then some (operandTrapHi 12) else none)
  carry s := mkCarry s none (some wa) none none none 0
  body := bodyAdecl
  fencing := true

def infoAmerge (wa : WReg) : BInfo where
  check s := checkWin s wa (if (declaredAs s (s.rdW wa)).isNone then some (operandTrapHi 12) else none)
  carry s := mkCarry s none (some wa) none none none 0
  body := bodyAmerge
  fencing := true
  dests := [1]

/-! ### Bank-condition branches (R178, R179) -/

def checkCond (s : State) (wa : WReg) : Option TrapInfo :=
  if wa = 0 then some (operandTrap 0)
  else if !wpresent s wa then some (mkTrap causeWindowAbsent wa.toNat)
  else if !stripOk s.front.csr then some (operandTrap 8)
  else if Desc.fmt (s.rdW wa) != some .bit || Desc.mode (s.rdW wa) != 0 then some (operandTrap 11)
  else none

def infoCond (c : Cond) (wa : WReg) : BInfo where
  check s := checkCond s wa
  carry s := mkCarry s none (some wa) none none none 0
  body := bodyCond c
  fencing := true

def infoBany (wa : WReg) : BInfo := infoCond .any wa
def infoBall (wa : WReg) : BInfo := infoCond .all wa
def infoBnone (wa : WReg) : BInfo := infoCond .none_ wa

/-! ### Plane arrays (R261 to R267) -/

/-- What a matrix instruction carries: the panel in the WB slot with its output and scale windows. -/
def matCarry (s : State) (wd wa : Option WReg) (wb : Option WReg) (wm : WReg) : Carry :=
  let c := mkCarry s wd wa none none (if wm = 0 then none else some wm) 0
  match wb with
  | none => c
  | some w =>
    let d := s.rdW w
    let narrowPanel : Bool := match Desc.fmt d with
      | some f => f.isS
      | none => false
    { c with descs := ((c.descs.set 2 d).set 7 (s.rdW (Desc.idx d))).set 11 (if narrowPanel then s.rdW (Desc.scl d) else 0) }

def checkPair (s : State) (pair : Bool) : Option TrapInfo := if pairHeld s pair then none else some (mkTrap causePlaneNone 0)

def infoMload (fmt : Fmt) (wb : WReg) (pair : Bool) (kb : BitVec 16) : BInfo where
  check s := checkMload s fmt wb pair
  carry s := matCarry s none none (some wb) 0
  body := bodyMload fmt kb.toNat
  fencing := false

def infoMswap (pair : Bool) : BInfo where
  check s := checkPair s pair
  carry s := matCarry s none none none 0
  body := bodyMswap
  fencing := false

def infoMma (m : MArgs) : BInfo where
  check s := checkMma s m
  carry s := matCarry s (some m.wd) (some m.wa) (some m.wb) m.wm
  body := bodyMma m
  fencing := false

def infoMrecast (pair shadow : Bool) : BInfo where
  check s := checkPair s pair
  carry s := matCarry s none none none 0
  body := bodyMrecast shadow
  fencing := false

def infoMinval (pair shadow : Bool) : BInfo where
  check s := checkPair s pair
  carry s := matCarry s none none none 0
  body := bodyMinval shadow
  fencing := false

/-- The broadcast an instruction is, if it is one (R9, R261). -/
def infoOf : Instr → Option BInfo
  | .vadd v => some (infoVadd v)
  | .vsub v => some (infoVsub v)
  | .vmul v => some (infoVmul v)
  | .vfma v => some (infoVfma v)
  | .vfms v => some (infoVfms v)
  | .vfnma v => some (infoVfnma v)
  | .vmin v => some (infoVmin v)
  | .vmax v => some (infoVmax v)
  | .vabs v => some (infoVabs v)
  | .vneg v => some (infoVneg v)
  | .vrcp v => some (infoVrcp v)
  | .vrsq v => some (infoVrsq v)
  | .vexp2 v => some (infoVexp2 v)
  | .vlog2 v => some (infoVlog2 v)
  | .vand v => some (infoVand v)
  | .vor v => some (infoVor v)
  | .vxor v => some (infoVxor v)
  | .vnot v => some (infoVnot v)
  | .vsll v => some (infoVsll v)
  | .vsrl v => some (infoVsrl v)
  | .vsra v => some (infoVsra v)
  | .vceq v => some (infoVceq v)
  | .vcne v => some (infoVcne v)
  | .vclt v => some (infoVclt v)
  | .vcle v => some (infoVcle v)
  | .vsel v => some (infoVsel v)
  | .vmov v => some (infoVmov v)
  | .vfill v => some (infoVfill v)
  | .viota v => some (infoViota v)
  | .vredAdd v => some (infoVredAdd v)
  | .vredMax v => some (infoVredMax v)
  | .vredMin v => some (infoVredMin v)
  | .vscanAdd v => some (infoVscanAdd v)
  | .vscanMax v => some (infoVscanMax v)
  | .vscanMin v => some (infoVscanMin v)
  | .vgather v => some (infoVgather v)
  | .vscatter v => some (infoVscatter v)
  | .vcompact v => some (infoVcompact v)
  | .vexpand v => some (infoVexpand v)
  | .lanex v => some (infoLanex v)
  | .vcvt sf v => some (infoVcvt sf v)
  | .vacc v => some (infoVacc v)
  | .vamoAdd v ord sc => some (infoVamoAdd v ord sc)
  | .vamoAnd v ord sc => some (infoVamoAnd v ord sc)
  | .vamoOr v ord sc => some (infoVamoOr v ord sc)
  | .vamoXor v ord sc => some (infoVamoXor v ord sc)
  | .vamoMin v ord sc => some (infoVamoMin v ord sc)
  | .vamoMax v ord sc => some (infoVamoMax v ord sc)
  | .vamoMinn v ord sc => some (infoVamoMinn v ord sc)
  | .vamoMaxn v ord sc => some (infoVamoMaxn v ord sc)
  | .vamoSwap v ord sc => some (infoVamoSwap v ord sc)
  | .adecl wa => some (infoAdecl wa)
  | .amerge wa => some (infoAmerge wa)
  | .bany wa _ => some (infoBany wa)
  | .ball wa _ => some (infoBall wa)
  | .bnone wa _ => some (infoBnone wa)
  | .mload f wb p kb => some (infoMload f wb p kb)
  | .mswap p => some (infoMswap p)
  | .mma m => some (infoMma m)
  | .mrecast p sh => some (infoMrecast p sh)
  | .minval p sh => some (infoMinval p sh)
  | _ => none

/-- The instruction a word is, read without a second word. -/
def instrOf (w : Word) : Option Instr :=
  match decode w 0 with
  | .ok i => some i
  | .illegal _ => none

/-- The broadcast in a queued word. -/
def infoOfWord (w : Word) : Option BInfo := (instrOf w).bind infoOf

/-- First word of an instruction. -/
def wordOf (i : Instr) : Word := (encode i).headD 0

end Sys2Proof.Machine
end

