-- ==== Sys2Proof/Machine/Perform.lean ====
section
/-! DEFINITION. Performing broadcasts and scalar accesses at their owners, whole or what is left of them, and
what happens when the floor reaches a broadcast (R72, R73, R139, R189, R199, R342). -/

namespace Sys2Proof.Machine

/-- An eye of the stream's owners at a stamp, when every earlier broadcast has been performed: translations
go through the domain's first bank. -/
def eyeAt (s : State) (stamp : Nat) : Eye :=
  { agent := 64 * s.front.domBase.toNat, who := none, stamp := stamp, bufs := [], elem := 0, race := none, watch := s.front.csr.watches }

/-- The same for a broadcast, checked as at its issue. -/
def eyeOf (s : State) (b : Bcast) : Eye := { eyeAt s (b.isn - 1) with race := b.race, watch := b.watch }

/-! ### Items -/

/-- Whether an owner has performed an item already: it has retired the instruction, or begun it and no longer
has the item to do (R188). -/
def itemDone (s : State) (b : Bcast) (own no : Nat) : Bool :=
  s.front.progress.any (fun p => p.own == own && b.isn ≤ p.retired)
    || s.front.works.any (fun w => w.own == own && w.isn == b.isn && !w.todo.contains no)

/-- The items of a broadcast from ESTART, and those that are formed again whatever it holds (R211, R224). -/
def startItems (b : Bcast) (items : List Item) : List Item := items.filter (fun it => it.again || b.estart ≤ it.elem)

/-- The items still to perform. -/
def restItems (s : State) (b : Bcast) (items : List Item) : List Item :=
  let xs := startItems b items
  if s.front.works.isEmpty && s.front.progress.isEmpty then xs
  else xs.filter (fun it =>
    match (M.exec (it.own b) s).1 with
    | .ok (some o) => !itemDone s b o it.no
    | .ok none => false
    | .error _ => true)

/-- A broadcast with the flags and the leaf of one item. -/
def Bcast.took (b : Bcast) (it : Item) (r : Flags × Option Nat) : Bcast :=
  { b with flags := b.flags ||| r.1, leaves := match r.2 with
      | some x => b.leaves ++ [(it.elem, x)]
      | none => b.leaves }

/-- A run is active at an engine: it performs no later element of the stream (R290). -/
def runActive (s : State) (own n : Nat) : Bool :=
  s.front.cmds.any (fun c => !c.readDone && c.stamp < n && c.runs.any (fun r => r.started && 8192 + r.pc == own))

/-- An item's owner is an engine at a run of an earlier command. -/
def heldByRun (s : State) (b : Bcast) (it : Item) : Bool :=
  s.front.cmds.any (fun c => !c.readDone && c.runs != []) &&
    (match (M.exec (it.own b) s).1 with
      | .ok (some o) => runActive s o b.isn
      | _ => false)

/-- Items in order; a stop comes with the element it stands at. -/
def runItems : List Item → State → Bcast → State × Bcast × Option (Nat × Stop)
  | [], s, b => (s, b, none)
  | it :: r, s, b =>
    if heldByRun s b it then (s, b, some (it.elem, .wait))
    else
    match M.exec (it.run b) s with
    | (.ok x, s') => runItems r s' (b.took it x)
    | (.error st, s') => (s', b, some (it.elem, st))

def setWork (s : State) (w : Work) : State :=
  { s with front := { s.front with works := w :: s.front.works.filter (fun x => !(x.own == w.own && x.isn == w.isn)) } }

/-- Items each by itself: the numbers of those that wait. The state keeps the object of the first. -/
def runApart : List Item → State → Bcast → List Nat → State × Bcast × List Nat
  | [], s, b, left => (s, b, left)
  | it :: r, s, b, left =>
    match M.exec (it.run b) s with
    | (.ok x, s') => runApart r s' (b.took it x) left
    | (.error _, s') => runApart r { s' with front := { s'.front with waitObj := s.front.waitObj <|> s'.front.waitObj } } b (left ++ [it.no])

/-- What is left of a broadcast whose items do not hold each other back; the front keeps the numbers of those that
wait. -/
def performApart (s : State) (b : Bcast) (items : List Item) : State × Bcast × Option Stop :=
  match runApart (restItems s b items) { s with front := { s.front with waitObj := none } } b [] with
  | (s, b, []) => (s, b, none)
  | (s, b, left) => (setWork s { own := frontOwn, isn := b.isn, todo := left, bufs := [] }, b, some .wait)

/-- The element at ESTART of a reissued broadcast is no longer exempt from watchpoints (R392). -/
def State.unexempt (s : State) (n : Nat) : State :=
  { s with front := { s.front with exemptAt := s.front.exemptAt.filter (· != n) } }

/-- The fault of R199. -/
def shelfFull (t : TrapInfo) : Bool := t.cause.toNat == causeIllegalOperand && t.tinfo == 0x70

/-- Stored bytes above ISN `k` are performed again in stamp order: in memory, and in the pre-images that they belong
before (R327, R385 step 4). -/
def rewriteAbove (s : State) (k : Nat) : State :=
  (sortBy (fun (a b : Access) => a.stamp ≤ b.stamp) (s.front.accesses.filter (fun a => k < a.stamp))).foldl (fun s a => rewrite s a.stamp a.wrote) s

/-- The restore of R199 at instruction `n`: every bank rolls back to the one before (R200), and nothing of `n` is
performed. Stores stamped `n` or later stay performed, as R386 has them performed before the restart (DEDUCED, log
entry 93). -/
def undoB (s : State) (n : Nat) : State :=
  let s := rewriteAbove (rollback s (n - 1)) (n - 1)
  { s with front := { s.front with
    works := s.front.works.filter (fun w => w.isn < n)
    progress := s.front.progress.map (fun p => { p with retired := min p.retired (n - 1) }) } }

/-- What is left of a broadcast, item after item. -/
def performInOrder (s : State) (b : Bcast) (items : List Item) : State × Bcast × Option Stop :=
  match runItems (restItems s b items) s b with
  | (s, b, none) => (s, b, none)
  | (s, c, some (k, .wait)) =>
    (if k = b.estart then s else s.unexempt b.isn, { c with estart := k }, some .wait)
  | (s, b, some (k, .need ps)) => (s, { b with estart := k, leaves := [] }, some (.need ps))
  | (s, b, some (k, .trap t)) =>
    if shelfFull t then (undoB s b.isn, { b with estart := 0, leaves := [] }, some (.trap t))
    else (s, { b with estart := k, leaves := [] }, some (.trap t))

/-- Performs what is left of a broadcast. A fault leaves ESTART as R211, R199 and R342 give it. -/
def performB (s : State) (b : Bcast) (body : Body) : State × Bcast × Option Stop :=
  let e := eyeOf s b
  let (p1, s) := if b.leaves.isEmpty then M.exec (do body.ready e b; body.phase1 e b) s else (.ok (0, b.leaves), s)
  match p1 with
  | .error st => (s, { b with estart := 0, leaves := [] }, some st)
  | .ok (fl, lv) =>
    let b := { b with flags := b.flags ||| fl, leaves := lv }
    let fp := match (M.exec (body.foot e b) s).1 with
      | .ok r => r
      | .error _ => none
    match M.exec (body.plan e fp b) s with
    | (.error st, s) => (s, { b with estart := 0, leaves := [] }, some st)
    | (.ok items, s) => if body.apart then performApart s b items else performInOrder s b items

/-- The floor reaches a broadcast: its flags enter FFLAGS (R99), the tree's result is written (R224), the
front's plane records move on (R258), and entries under it are freed (R197). The broadcast's result comes
back. Its retirement is traced (R434). -/
def finishB (s : State) (b : Bcast) (body : Body) : State × Word :=
  let (fl, w) := body.root s.front.sid b
  let s := s.orFlags (b.flags ||| fl)
  let s := match body.result with
    | some r => s.wr r w
    | none => s
  let s := s.mapCsr (fun c => { c with floor := BitVec.ofNat 48 b.isn })
  let s := { s with front := { s.front with
    planes := body.recs b s.front.planes true
    bcasts := s.front.bcasts.filter (fun x => x.isn != b.isn)
    works := s.front.works.filter (fun x => x.isn != b.isn)
    progress := s.front.progress.filter (fun p => b.isn < p.retired) } }
  (shelfFree ((s.unexempt b.isn).traced 2 b.isn 0 0) b.isn, w)

/-! ### Scalar accesses that are under way (R138 to R142) -/

/-- An `srel` in flight (R321). -/
def Access.isRel (a : Access) : Bool :=
  match a.kind with
  | .rel _ => true
  | _ => false

/-- Keys an access touches. -/
def Access.keys (a : Access) : List Key := keysFrom a.key a.size

/-! Sync blocks at their homes (R319) -/

/-- Word `i` of a block. -/
def blockWord (s : State) (ks : List Key) (i : Nat) : Nat := bytesNat (s.mem.gets ((ks.drop (8 * i)).take 8))

/-- A home writes word `i` of a block for an operation stamped `st`. -/
def putBlock (s : State) (st : Nat) (ks : List Key) (i v : Nat) : State :=
  s.storeAt st false (((ks.drop (8 * i)).take 8).zip (wordBytes 8 v))

/-- The clock record of a sync block (R319). -/
def blockClock (s : State) (ks : List Key) : List (Nat × Nat) :=
  ((List.range 256).map (fun k => (k, bytesNat (s.mem.gets ((ks.drop (512 + 2 * k)).take 2))))).filter (fun p => p.2 != 0)

def putClock (s : State) (st : Nat) (ks : List Key) (v : List (Nat × Nat)) : State :=
  v.foldl (fun s p => s.storeAt st false (((ks.drop (512 + 2 * p.1)).take 2).zip (wordBytes 2 p.2))) s

/-- The home of a block performs an `srel` stamped `st` that adds `inc` with the clock it carries, none under EN = 0:
FLAG, CLOCK and the SYNC record; the old FLAG. -/
def relAtHome (s : State) (st : Nat) (ks : List Key) (inc : Nat) (clock : Option (List (Nat × Nat))) : State × Nat :=
  let old := blockWord s ks 0
  let s := record s 1 0 (objMem (ks.headD 0)) old inc
  let s := putBlock s st ks 0 ((old + inc) % 2 ^ 64)
  (match clock with
    | some v => putClock s st ks (clockJoin (blockClock s ks) v)
    | none => s, old)

/-- An `srel` in flight reaches its home, which may have no room for its record (R363). -/
def performRel (s : State) (a : Access) : State × Access :=
  let full : Bool := s.front.logMode == 1 && (match s.logCtx s.front.logId with
    | some c => homeFull s c (objMem a.key)
    | none => false)
  if full then (s, a)
  else
    let (s, old) := relAtHome s a.stamp (keysFrom a.key a.size) a.data.toNat a.clock
    (s, { a with done := some (BitVec.ofNat 64 old) })

/-- An access is performed at its owner, as part of the instruction it is stamped with (R139); a store that needs a
shelf entry waits for room (R198). -/
def performAccess (s : State) (a : Access) : State × Access :=
  match a.done with
  | some _ => (s, a)
  | none =>
    match a.kind with
    | .load _ _ => (s.touch a.keys, { a with done := some (BitVec.ofNat 64 (bytesNat (a.keys.map (byteAt s a.stamp)))) })
    | .store =>
      let kbs := a.keys.zip (wordBytes a.size a.data.toNat)
      let above := s.floor < a.stamp
      if above && !shelfRoom s a.keys a.stamp then (s, a)
      else (s.storeAt a.stamp above kbs, { a with done := some 0, wrote := if above then kbs else [] })
    | .atom _ _ => (s, { a with done := some 0 })
    | .rel _ => performRel s a

/-- Value of a load as its register takes it (R149). -/
def loadValue (sg : Bool) (size : Nat) (v : Nat) : Word :=
  if sg then BitVec.ofInt 64 (sextInt (8 * size) v) else BitVec.ofNat 64 v

/-- The reply of a performed access reaches the front (R142). -/
def replyAccess (s : State) (a : Access) : State :=
  match a.done, a.kind with
  | some v, .load sg sd => s.wr sd (loadValue sg a.size v.toNat)
  | some v, .rel sd => s.wr sd v
  | _, _ => s

/-- Performs, in program order, the accesses that satisfy `p`. -/
def performWhere (p : Access → Bool) (s : State) : State :=
  let (s, l) := s.front.accesses.foldl (fun (acc : State × List Access) a =>
    if p a then let (s, a) := performAccess acc.1 a; (s, acc.2 ++ [a]) else (acc.1, acc.2 ++ [a])) (s, [])
  sweepRemaps { s with front := { s.front with accesses := l } }

/-- Every access that satisfies `p` is performed. -/
def allPerformed (p : Access → Bool) (s : State) : Bool := s.front.accesses.all (fun a => a.done.isSome || !p a)

/-- Every access but an `srel` in flight is answered once all are performed; stores above the floor are kept for a
rollback. -/
def settleAccesses (s : State) : State :=
  let s := performWhere (fun a => !a.isRel) s
  let s := s.front.accesses.foldl (fun s a => if a.acked || a.isRel then s else replyAccess s a) s
  { s with front := { s.front with accesses :=
      (s.front.accesses.filter (fun a => a.isRel || (a.wrote != [] && s.floor < a.stamp))).map (fun a => { a with acked := !a.isRel }) } }

/-- An `srel` in flight when a die's reset stops the stream is performed, and its reply taken (R321). -/
def landRels (s : State) : State :=
  let s := performWhere Access.isRel s
  s.front.accesses.foldl (fun s a => if a.isRel then replyAccess s a else s) s

/-- Releases in flight. -/
def relsOut (f : Front) : Nat := (f.accesses.filter Access.isRel).length

/-- Loads and atomics not yet answered, and stores not yet acknowledged (R142). -/
def loadsOut (f : Front) : Nat := (f.accesses.filter (fun a => match a.kind with
  | .store | .rel _ => false
  | _ => true)).length
def storesOut (f : Front) : Nat := (f.accesses.filter (fun a => a.kind == .store && !a.acked)).length

/-- Registers that wait for a load (R135). -/
def loadRegs (f : Front) : List SReg := f.accesses.filterMap (fun a => match a.kind with
  | .load _ sd => some sd
  | .atom _ sd => some sd
  | .rel sd => some sd
  | .store => none)

/-! ### Settling what lies at or below a horizon (R385 step 2) -/

/-- How settling comes out: all is performed, a fault is found at a broadcast, or something waits, at a shelf that
has no room or at a home. -/
inductive Settled where
  | done
  | fault (b : Bcast) (t : TrapInfo)
  | waits

/-- A broadcast takes the place of the one with its ISN. -/
def putB (s : State) (b : Bcast) : State :=
  { s with front := { s.front with bcasts := s.front.bcasts.map (fun x => if x.isn == b.isn then b else x) } }

/-- A broadcast is performed to its end, and the floor reaches it. -/
def settleB (s : State) (b : Bcast) (info : Body) : State × Settled :=
  match performB s b info with
  | (s, b, none) => ((finishB s b info).1, .done)
  | (s, b, some (.trap t)) => (putB s b, .fault b t)
  | (s, b, some _) => (putB s b, .waits)

/-- Completes the broadcasts up to ISN `h`, oldest first, each with the scalar accesses before it. -/
def settleTo (h : Nat) : List Bcast → State → State × Settled
  | [], s => (s, .done)
  | b :: r, s =>
    if h < b.isn then (s, .done)
    else
      let s := performWhere (fun a => a.stamp < b.isn && !a.isRel) s
      if !allPerformed (fun a => a.stamp < b.isn) s then (s, .waits)
      else
        match infoOfWord b.word with
        | none => settleTo h r s
        | some info =>
          match settleB s b info.body with
          | (s, .done) => settleTo h r s
          | x => x

end Sys2Proof.Machine
end

