-- ==== Sys2Proof/Machine/Copyops.lean ====
section
/-! DEFINITION. Copy-class commands as their engines perform them (spec/11_copy.md, spec/14_stack.md): what
each reads and where it writes, sector order, faults and tokens; microprogram runs and pointer chases; and
follow-on matrix actions (spec/12_matrix.md). -/

namespace Sys2Proof.Machine

/-- The nine command kinds of format FC. -/
inductive CmdKind where
  | cpy | cpyt | cpyg | cpys | cpyf | cpym | sprog | srun | chase
  deriving DecidableEq, Repr

/-- Kind and fields of a command's word. -/
def cmdOf (w : Word) : Option (CmdKind × CArgs) :=
  match instrOf w with
  | some (.cpy c) => some (.cpy, c)
  | some (.cpyt c) => some (.cpyt, c)
  | some (.cpyg c) => some (.cpyg, c)
  | some (.cpys c) => some (.cpys, c)
  | some (.cpyf c) => some (.cpyf, c)
  | some (.cpym c) => some (.cpym, c)
  | some (.sprog c) => some (.sprog, c)
  | some (.srun c) => some (.srun, c)
  | some (.chase c) => some (.chase, c)
  | _ => none

/-! ### Tokens (R244) -/

/-- Cause code, of the model alone, of a range outside the footprint (R238); it reaches no register. -/
def causeFootprint : Nat := 0xF0

/-- STATUS of a fault. -/
def statusOf (t : TrapInfo) : Nat :=
  match t.cause.toNat with
  | 0x04 => 2
  | 0x05 => 3
  | 0x06 => 5
  | 0x0D => 6
  | 0x0E => 7
  | 0x0B => 8
  | 0xF0 => 9
  | 0x10 => 10
  | _ => 4

/-- The token of an ended command. -/
def tokenOf (c : Cmd) : Word :=
  BitVec.ofNat 64 (2 ^ 63 + at_ 62 (boolNat c.fault) + at_ 56 c.status.toNat + at_ 32 c.tag.toNat + c.count % 2 ^ 32)

/-! ### What a command reads and where it writes (R235, R238) -/

/-- An eye of the stream's copy engine at a command's stamp (R241). -/
def copyEye (s : State) (c : Cmd) : Eye :=
  { agent := copyAgent s.front, who := none, stamp := c.stamp, bufs := [], elem := 0, race := c.race, watch := c.watch }

/-- Real elements. -/
def Cmd.len (c : Cmd) : Nat := c.carry.real

/-- The bytes a footprint window declares. -/
def declared (d : Desc) (va n : Nat) : Bool := Desc.base d ≤ va && va + n ≤ Desc.base d + (Desc.stride d).toNat

/-- The carried windows of a command: 0 WD, 1 WS, 2 WX, 3 the footprint window. -/
def Cmd.win (c : Cmd) (k : Nat) : Win := c.carry.win k

/-- The format that a command moves. -/
def Cmd.fmt (c : Cmd) : Fmt := (Desc.fmt (c.win 0).d).getD .n8

/-- The code of element `i`. -/
def cmdSource (k : CmdKind) (c : Cmd) (e : Eye) (i : Nat) : M Nat := do
  let f := c.fmt
  let ws := c.win 1
  let vl := c.carry.vl.toNat
  let bounded (va : Nat) : M Nat :=
    if declared (c.win 3).d va f.bytes then readAt e f va 0 else trapM (mkTrap causeFootprint 0 i va)
  match k with
  | .cpyf => pure (c.fill.toNat % 2 ^ f.bits)
  | .cpyt => do
    let r ← readShape e (c.win 2).d vl
    bounded (wrapNat 64 ((Desc.base ws.d : Int) + ({ r with base := 0 } : Shape).addr i))
  | .cpyg => do
    let x ← readIndex e (c.win 2).d i
    bounded (wrapNat 64 ((Desc.base ws.d : Int) + x * Desc.stride ws.d))
  | _ => readElem e vl ws f i

/-- Virtual address and bit offset of element `i` of replica `r`. -/
def cmdDest (k : CmdKind) (c : Cmd) (e : Eye) (step r i : Nat) : M (Nat × Nat) := do
  let wd := c.win 0
  match k with
  | .cpys => do
    let x ← readIndex e (c.win 2).d i
    pure (wrapNat 64 ((Desc.base wd.d : Int) + x * Desc.stride wd.d), 0)
  | .cpym =>
    let p := flatVa wd.d c.fmt i
    pure ((p.1 + r * step * 1024) % 2 ^ 64, p.2)
  | _ => elemVa e c.carry.vl.toNat wd c.fmt i

/-- The place of bytes that the engine writes: translation, placement, and DATA_ERROR at an absent stack address
(R293). -/
def destKeys (e : Eye) (i va n : Nat) : M (Place × List Key) := do
  let pl ← xlate e.agent va .write i
  let ks ← keysM pl va n i
  let s ← get
  if ks.any (fun k => keyCls k == .sm && !smPresent s k) then trapM (mkTrap causeDataError 0 i (va / 32 * 32))
  else pure (pl, ks)

/-- A destination can be written by the engine: footprint, its place, alignment. -/
def checkDest (k : CmdKind) (c : Cmd) (e : Eye) (i va n : Nat) : M Unit := do
  if k = .cpys ∧ !declared (c.win 3).d va n then trapM (mkTrap causeFootprint 0 i va)
  else
    let _ ← destKeys e i va (if c.fmt.packed then 1 else n)
    if !c.fmt.packed && va % n != 0 then trapM (mkTrap causeAlign 0 i va)
    else pure ()

/-- The two bytes of a packed element that crosses a byte boundary are of one owner (R84). -/
def checkSplit (k : CmdKind) (c : Cmd) (e : Eye) (i va : Nat) : M Unit := do
  checkDest k c e i (va + 1) 1
  let a ← destKeys e i va 1
  let b ← destKeys e i (va + 1) 1
  let s ← get
  need (a.2.head?.bind (ownerOf s) == b.2.head?.bind (ownerOf s)) (mkTrap causeAlign 0 i va)

/-- What the engine has gathered of a command: sectors in order of first touch, bytes to write in element
order, and the lowest faulting sector with its fault. -/
structure Gather where
  sectors : List Nat
  writes : List (Nat × List Byte)
  fault : Option (Nat × TrapInfo)

def Gather.empty : Gather := { sectors := [], writes := [], fault := none }

/-- Index of a sector in the order, appended when new. -/
def Gather.touch (g : Gather) (sec : Nat) : Gather × Nat :=
  if g.sectors.contains sec then (g, g.sectors.idxOf sec) else ({ g with sectors := g.sectors ++ [sec] }, g.sectors.length)

def Gather.fail (g : Gather) (k : Nat) (t : TrapInfo) : Gather :=
  match g.fault with
  | some (j, _) => if j ≤ k then g else { g with fault := some (k, t) }
  | none => { g with fault := some (k, t) }

/-- A byte as the command will leave it: gathered already, or present. -/
def Gather.byte (g : Gather) (e : Eye) (va : Nat) : M Byte := do
  match g.writes.reverse.find? (fun w => w.1 == va) with
  | some w => pure (w.2.headD 0)
  | none =>
    let pl ← lookup e.agent va true e.elem
    let ks ← keysM pl.1 va 1 e.elem
    let s ← get
    pure (s.mem.get (ks.headD 0))

/-- The pieces an element writes: whole bytes, or single bytes with its bits put in (R75, R84). -/
def cmdPieces (c : Cmd) (g : Gather) (e : Eye) (va bo x : Nat) : M (List (Nat × List Byte)) := do
  let f := c.fmt
  if f.packed then
    let n := (bo + f.bits + 7) / 8
    let olds ← (List.range n).mapM (fun j => g.byte e (va + j))
    let old := bytesNat olds
    let new := fld 0 bo old + at_ bo (x % 2 ^ f.bits) + at_ (bo + f.bits) (old / 2 ^ (bo + f.bits))
    pure ((wordBytes n new).zipIdx.map (fun p => (va + p.2, [p.1])))
  else pure [(va, wordBytes f.bytes x)]

/-- Gathers one element of one replica. An element in two destination sectors that faults in either is reported at the
first, and writes neither (DESIGN CHOICE, log entry 96). -/
def gatherOne (k : CmdKind) (c : Cmd) (e : Eye) (step r : Nat) (g : Gather) (i : Nat) : M Gather := do
  let e := { e with elem := i }
  match ← captured (cmdDest k c e step r i) with
  | .error (.trap t) => pure (g.fail g.sectors.length t)
  | .error st => throw st
  | .ok (va, bo) =>
    let n := if c.fmt.packed then (bo + c.fmt.bits + 7) / 8 else c.fmt.bytes
    let (g, k1) := g.touch (va / 32)
    let (g, _) := g.touch ((va + n - 1) / 32)
    match ← captured (do
        let x ← cmdSource k c e i
        checkDest k c e i va n
        if c.fmt.packed && n = 2 then checkSplit k c e i va
        cmdPieces c g e va bo x) with
    | .error (.trap t) => pure (g.fail k1 t)
    | .error st => throw st
    | .ok ps => pure { g with writes := g.writes ++ ps }

def gatherAll (k : CmdKind) (c : Cmd) (e : Eye) (step r : Nat) : List Nat → Gather → M Gather
  | [], g => pure g
  | i :: is, g => do
    let g ← gatherOne k c e step r g i
    gatherAll k c e step r is g

/-- Replicas of a command: one, or the cells of a multicast mask, ascending (R243, R244). -/
def replicas (k : CmdKind) (c : Cmd) : List Nat :=
  if k = .cpym then (List.range 128).filter (fun b => c.mask.getLsbD b) else [0]

def gatherReplicas (k : CmdKind) (c : Cmd) (e : Eye) (step : Nat) : List Nat → Gather → M Gather
  | [], g => pure g
  | r :: rs, g => do
    let g ← gatherAll k c e step r (List.range c.len) g
    gatherReplicas k c e step rs g

/-- Writes of sectors below a fault, sector by sector in the order (R245). -/
def Gather.held (g : Gather) : List CopyWrite :=
  let upto := match g.fault with
    | some (k, _) => k
    | none => g.sectors.length
  ((g.sectors.take upto).zipIdx).flatMap (fun sec =>
    (g.writes.filter (fun w => w.1 / 32 == sec.1)).map (fun w => { ord := sec.2, va := BitVec.ofNat 64 w.1, bytes := w.2 }))

/-- A command whose reading is done: what it will write and how it will end. -/
def Cmd.gathered (c : Cmd) (g : Gather) : Cmd :=
  match g.fault with
  | some (k, t) => { c with readDone := true, held := g.held, sectors := g.sectors, fault := true, status := BitVec.ofNat 6 (statusOf t), count := k }
  | none => { c with readDone := true, held := g.held, sectors := g.sectors, fault := false, status := 0, count := g.sectors.length }

/-- A command that ended before any sector (R244). -/
def Cmd.failed (c : Cmd) (k : Nat) (t : TrapInfo) : Cmd :=
  { c with readDone := true, held := [], fault := true, status := BitVec.ofNat 6 (statusOf t), count := k }

/-! ### sprog (R287) -/

/-- Stores `ws` from word `first` of the store of a pseudo-channel. -/
def putMicro (s : State) (pc first : Nat) (ws : List Nat) : State :=
  let p : BitVec 10 := BitVec.ofNat 10 pc
  let inside (m : MicroWord) : Bool := m.pc == p && first ≤ m.index.toNat && m.index.toNat < first + ws.length
  let new := (ws.zipIdx.filter (fun x => x.1 != 0)).map (fun x =>
    ({ pc := p, index := BitVec.ofNat 9 (first + x.2), word := BitVec.ofNat 64 x.1 } : MicroWord))
  { s with micro := s.micro.filter (fun m => !inside m) ++ new }

def microAt (s : State) (pc i : Nat) : Word :=
  ((s.micro.find? (fun m => m.pc.toNat == pc && m.index.toNat == i)).map (·.word)).getD 0

/-- Pseudo-channels a selector names. -/
def selected (c : Cmd) (e : Eye) : M (List Nat) := do
  let bs ← (List.range 1024).mapM (fun j => do
    let p := flatVa (c.win 2).d .bit j
    let x ← readAt e .bit p.1 p.2
    pure (j, x))
  pure ((bs.filter (fun p => p.2 == 1)).map (·.1))

/-- A run is active at the engine of a pseudo-channel: it has started, and its command has not ended it (R287, R290). -/
def runsAt (s : State) (pc : Nat) : Bool :=
  s.streams.any (fun f => f.cmds.any (fun c => !c.readDone && c.runs.any (fun r => r.started && r.pc == pc)))

/-- The store write waits while a run is active at a selected engine (R287). -/
def runSprog (c : Cmd) (first : Nat) : M Cmd := do
  let s ← get
  let e := copyEye s c
  match ← captured (do
      let ps ← selected c e
      let ws ← (List.range c.len).mapM (fun i => readElem { e with elem := i } c.carry.vl.toNat (c.win 1) .n64 i)
      pure (ps, ws)) with
  | .ok (ps, ws) =>
    if ps.any (runsAt s) then waitM
    else
      modify (fun s => ps.foldl (fun s p => putMicro s p first ws) s)
      pure { c with readDone := true, count := ps.length }
  | .error (.trap t) => pure (c.failed 0 t)
  | .error st => throw st

/-! ### srun (R288 to R290) -/

/-- Machine of one pseudo-channel's run. -/
structure RunSt where
  row : Nat
  col : Nat
  xi : Nat
  yi : Nat
  l : List Nat
  acc : List (List Num)
  opened : Option Nat
  outs : List (Nat × BitVec 32)
  flags : BitVec 6

/-- What a run reads: its pseudo-channel, the format of its weights, RNDS.FTZ as at issue, x, and the physical pages of the weight extent with
their first and last byte in it. -/
structure RunCx where
  pc : Nat
  wf : Fmt
  ftz : Bool
  xs : List Num
  pages : List (Nat × Nat × Nat)

/-- Physical address of the sector at (bank, row, column) of a pseudo-channel (R275). -/
def sectorOf (s : State) (pc bank row col : Nat) : Option Nat :=
  ((List.range 64).map (fun x => at_ 36 (pc / 64) + at_ 5 (col % 4) + at_ 7 x + at_ 13 (col / 4) + at_ 16 bank + at_ 22 row)).find?
    (fun p => dramPc (dramOf s p) == pc)

/-- A whole sector lies in the weight extent. One that the extent covers in part makes its pseudo-channel run (R288),
but a MAC of it is FOOTPRINT (DESIGN CHOICE, log entry 111). -/
def inExtent (cx : RunCx) (p : Nat) : Bool :=
  cx.pages.any (fun g => g.1 ≤ p && p < g.1 + 2 ^ 14 && g.2.1 ≤ p - g.1 && p - g.1 + 32 ≤ g.2.2)

def microFault : TrapInfo := mkTrap causePlacement 0

/-- Unit `m` takes one sector into accumulator `a`. -/
def macUnit (s : State) (cx : RunCx) (r : RunSt) (row col xoff a m : Nat) : Except TrapInfo RunSt :=
  match sectorOf s cx.pc m row col with
  | none => .error (mkTrap causeFootprint 0)
  | some p =>
    if !inExtent cx p then .error (mkTrap causeFootprint 0)
    else if unreadable s (keysFrom p 32) then .error (mkTrap causeDataError 0)
    else
      let n := 32 / cx.wf.bytes
      let ws := codesOf cx.wf (s.mem.gets (keysFrom (smKey p) 32)) n
      let sum := ws.zipIdx.foldl (fun z w =>
        (addNum false z (mulNum (decodeNum cx.wf 0 false w.1.toNat) (cx.xs.getD ((r.xi + xoff + w.2) % 4096) (.zero false))).1).1)
        ((r.acc.getD m []).getD a (.zero false))
      .ok { r with acc := r.acc.set m ((r.acc.getD m []).set a sum) }

def macAll (s : State) (cx : RunCx) (row col xoff a : Nat) : List Nat → RunSt → Except TrapInfo RunSt
  | [], r => .ok r
  | m :: ms, r => match macUnit s cx r row col xoff a m with
    | .ok r => macAll s cx row col xoff a ms r
    | .error t => .error t

/-- OUT at unit `m`, with the flush of R78. A sum that is exactly zero has no sign in the manual: it gives +0 in every
mode (DESIGN CHOICE, log entry 109). -/
def outUnit (cx : RunCx) (r : RunSt) (rm : Rm) (yoff ystep a m : Nat) : RunSt :=
  let z := (r.acc.getD m []).getD a (.zero false)
  let z := if z.isZero then .zero false else z
  let j := (r.yi + yoff + m * ystep) % 4096
  match Fmt.f32.fp with
  | none => r
  | some p =>
    let (x, fl) := toFloat p .f32 { rm := rm, sat := false, ftz := cx.ftz, rbits := 0 } z
    { r with outs := r.outs.filter (fun o => o.1 != j) ++ [(j, BitVec.ofNat 32 x)], flags := r.flags ||| fl ||| flagIf z.isNaN flagNV,
             acc := r.acc.set m ((r.acc.getD m []).set a (.zero false)) }

/-- Bits of a microword outside those its OP uses are zero (R288). -/
def microBits (op : Nat) : Nat :=
  match op with
  | 1 => 0x3FFF
  | 2 => 0x3FFF001F
  | 3 => 0x1FFFFFFF
  | 4 => 0xFFFF0007
  | 5 => 0xFFFF0003
  | 6 => 0x01FF0003
  | _ => 0

/-- A microword that is no fault: OP, unused bits, and the register of ADD, of which the manual gives codes 0 to 3 (a
higher code is a fault: DESIGN CHOICE, log entry 110). -/
def microOk (w : Nat) : Bool :=
  let op := fld 60 4 w
  op ≤ 6 && fld 0 60 w == fld 0 60 w &&& microBits op && (op != 4 || fld 0 3 w ≤ 3)

/-- Microwords from `i` until END, at most `n` of them. -/
def runMicro (s : State) (cx : RunCx) : Nat → Nat → RunSt → Except TrapInfo RunSt
  | 0, _, _ => .error microFault
  | n + 1, i, r =>
    if i ≥ 512 then .error microFault
    else
      let w := (microAt s cx.pc i).toNat
      if !microOk w then .error microFault
      else
        match fld 60 4 w with
        | 0 => .ok r
        | 1 => runMicro s cx n (i + 1) { r with opened := some ((r.row + fld 0 14 w) % 2 ^ 14) }
        | 2 =>
          match r.opened with
          | none => .error microFault
          | some row =>
            match macAll s cx row ((r.col + fld 0 5 w) % 32) (fld 16 12 w) (fld 28 2 w) (List.range 64) r with
            | .ok r => runMicro s cx n (i + 1) r
            | .error t => .error t
        | 3 =>
          match Rm.ofCode (BitVec.ofNat 3 (fld 26 3 w)) with
          | some .rsr => .error microFault
          | some .dyn => .error microFault
          | none => .error microFault
          | some rm => runMicro s cx n (i + 1) ((List.range 64).foldl (fun r m => outUnit cx r rm (fld 0 12 w) (fld 12 12 w) (fld 24 2 w) m) r)
        | 4 =>
          let inc := sextInt 16 (fld 16 16 w)
          let up (width v : Nat) : Nat := wrapNat width ((v : Int) + inc)
          runMicro s cx n (i + 1) (match fld 0 3 w with
            | 0 => { r with row := up 14 r.row }
            | 1 => { r with col := up 5 r.col }
            | 2 => { r with xi := up 12 r.xi }
            | _ => { r with yi := up 12 r.yi })
        | 5 => runMicro s cx n (i + 1) { r with l := r.l.set (fld 0 2 w) (fld 16 16 w) }
        | _ =>
          let k := fld 0 2 w
          let v := r.l.getD k 0
          if v = 0 then runMicro s cx n (i + 1) r else runMicro s cx n (fld 16 9 w) { r with l := r.l.set k (v - 1) }

/-- The pages of the weight extent: frame, first and end byte of the extent in it. -/
def extentPages (c : Cmd) (e : Eye) : M (List (Nat × Nat × Nat)) := do
  let d := (c.win 2).d
  let lo := Desc.base d
  let hi := lo + (Desc.stride d).toNat
  let ps := (List.range ((hi + 2 ^ 14 - 1) / 2 ^ 14 - lo / 2 ^ 14)).map (fun i => (lo / 2 ^ 14 + i) * 2 ^ 14)
  let fs ← ps.mapM (fun va => do
    let pl ← xlate e.agent va .read 0
    let ks ← keysM pl va 1 0
    pure (ks.headD 0, max lo va - va, min hi (va + 2 ^ 14) - va))
  pure (fs.filter (fun g => keyCls g.1 == .sm))

/-- Pseudo-channels that hold a sector of the extent, ascending. -/
def extentChannels (s : State) (pages : List (Nat × Nat × Nat)) : List Nat :=
  let cs := pages.flatMap (fun g => ((List.range 512).filter (fun j => g.2.1 < 32 * j + 32 && 32 * j < g.2.2)).map (fun j => dramPc (dramOf s (g.1 + 32 * j))))
  (List.range 1024).filter (fun p => cs.contains p)

/-- x, the extent's pages and the running pseudo-channels. -/
def runContext (c : Cmd) (e : Eye) : M (List Num × List (Nat × Nat × Nat) × List Nat) := do
  let xf := (Desc.fmt (c.win 1).d).getD .bf16
  let xs ← (List.range c.len).mapM (fun k => do
    let x ← readElem { e with elem := 0 } c.carry.vl.toNat (c.win 1) xf k
    pure (decodeNum xf 0 false x))
  let pages ← extentPages c e
  let s ← get
  pure (xs, pages, extentChannels s pages)

/-- The run of the pseudo-channel of rank `rank`. -/
def runOne (s : State) (c : Cmd) (imm : BitVec 16) (xs : List Num) (pages : List (Nat × Nat × Nat)) (rank pc : Nat) : Run :=
  let cx : RunCx := { pc := pc, wf := (Desc.fmt (c.win 2).d).getD .bf16, ftz := c.carry.ftz, xs := xs, pages := pages }
  let r0 : RunSt := { row := 0, col := 0, xi := 0, yi := rank * fld 9 7 imm.toNat % 4096, l := [0, 0, 0, 0],
                      acc := List.replicate 64 (List.replicate 4 (.zero false)), opened := none, outs := [], flags := 0 }
  match runMicro s cx (2 ^ 32) (fld 0 9 imm.toNat) r0 with
  | .ok r => { pc := pc, rank := rank, outs := r.outs, flags := r.flags, started := true, fault := none }
  | .error t => { pc := pc, rank := rank, outs := [], flags := 0, started := true, fault := some (rank, t) }

/-- The outputs of a rank that stand beside those of the ranks below: on one element the value of either remains
(R289). -/
def ownOuts (s : State) (below : List Nat) (outs : List (Nat × BitVec 32)) : State × List (Nat × BitVec 32) :=
  outs.foldl (fun (acc : State × List (Nat × BitVec 32)) o =>
    if below.contains o.1 then
      let s := { acc.1 with drawn := acc.1.drawn + 1 }
      (s, if Config.runPick acc.1.drawn then acc.2 ++ [o] else acc.2)
    else (acc.1, acc.2 ++ [o])) (s, [])

/-- The outputs of a run in ascending element, with their addresses; the fault of the first that cannot be
written. -/
def runWrites (c : Cmd) (e : Eye) (r : Run) : M (List CopyWrite) :=
  (sortBy (fun (a b : Nat × BitVec 32) => a.1 ≤ b.1) r.outs).mapM (fun o => do
    let va := (flatVa (c.win 0).d .f32 o.1).1
    checkDest .cpy c { e with elem := 0 } 0 va 4
    pure { ord := r.rank, va := BitVec.ofNat 64 va, bytes := wordBytes 4 o.2.toNat })

/-- Ranks ascending, up to the first that faults: what they write, and that fault (R245, R289). -/
def rankWrites (c : Cmd) (e : Eye) : List Run → M (List Run × List CopyWrite × Option (Nat × TrapInfo))
  | [] => pure ([], [], none)
  | r :: rs =>
    match r.fault with
    | some f => pure ([], [], some f)
    | none => do
      match ← captured (runWrites c e r) with
      | .error (.trap t) => pure ([], [], some (r.rank, t))
      | .error st => throw st
      | .ok ws => do
        let (good, all, f) ← rankWrites c e rs
        pure (r :: good, ws ++ all, f)

/-- Runs without the outputs in whose place another rank's remain. -/
def pickOuts : List Run → List Nat → State → State × List Run
  | [], _, s => (s, [])
  | r :: rs, below, s =>
    let (s, outs) := ownOuts s below r.outs
    let (s, rest) := pickOuts rs (below ++ r.outs.map (·.1)) s
    (s, { r with outs := outs } :: rest)

/-- Ends the runs: the lowest faulting rank stops the command, and the ranks below it write, rank by rank (R245,
R289). -/
def endRuns (c : Cmd) (rs : List Run) : M Cmd := do
  let s ← get
  let (s, picked) := pickOuts rs [] s
  set s
  let (good, ws, bad) ← rankWrites c (copyEye s c) picked
  let c := { c with
    flags := good.foldl (fun a (r : Run) => a ||| r.flags) c.flags, runs := rs, readDone := true, held := ws
    sectors := (ws.map (fun (w : CopyWrite) => w.va.toNat / 32)).dedup }
  match bad with
  | some (k, t) => pure { c with fault := true, status := BitVec.ofNat 6 (statusOf t), count := k }
  | none => pure { c with count := c.sectors.length }

/-- Runs at pseudo-channels wake them, and their ACTs close the rows that hints have opened there (R278, R280). -/
def State.runAt (s : State) (pcs : List Nat) : State :=
  { s with asleep := s.asleep.filter (fun p => !pcs.contains p.toNat), rows := s.rows.filter (fun r => !pcs.contains r.pc.toNat) }

/-- Starts every run that has not started. -/
def startRuns (c : Cmd) (imm : BitVec 16) (only : Option Nat) : M Cmd := do
  let s ← get
  let e := copyEye s c
  match ← captured (runContext c e) with
  | .error (.trap t) => pure (c.failed 0 t)
  | .error st => throw st
  | .ok (xs, pages, pcs) =>
    let s ← get
    let want (r : Run) : Bool := !r.started && (only == none || only == some r.pc)
    let all := if c.runs.isEmpty then pcs.zipIdx.map (fun p => ({ pc := p.1, rank := p.2, outs := [], flags := 0, started := false, fault := none } : Run)) else c.runs
    set (s.runAt ((all.filter want).map (·.pc)))
    pure { c with runs := all.map (fun r => if want r then runOne s c imm xs pages r.rank r.pc else r) }

def runSrun (c : Cmd) (imm : BitVec 16) : M Cmd := do
  let c ← startRuns c imm none
  if c.fault then pure c else endRuns c c.runs

/-! ### chase (R291) -/

/-- One hop: the result of element i × H + h, or all ones for the rest, and the chase afterwards. The copy engine
translates hop 0, and the badger of the pseudo-channel that held the sector before translates the others. -/
def hopOne (imm : BitVec 16) (e : Eye) (h : Chase) : M (List (Nat × Nat) × Chase) := do
  let hops := fld 0 6 imm.toNat + 1
  let el := h.idx * hops + h.hop
  if h.addr = 0 then
    pure ((List.range (hops - h.hop)).map (fun j => (el + j, 2 ^ 64 - 1)), { h with live := false })
  else if h.addr.toNat % 32 ≠ 0 then trapM (mkTrap causeAlign 0 el h.addr.toNat)
  else
    let pl ← xlate h.agent h.addr.toNat .read el
    if pteCls pl.leaf ≠ .sm then trapM (mkTrap causePlacement 0 el h.addr.toNat)
    else
      let ks ← keysM pl h.addr.toNat 32 el
      let bs ← readKeys { e with agent := h.agent, elem := el } pl ks h.addr.toNat
      let s ← get
      let word (k : Nat) : Nat := bytesNat ((bs.drop (8 * k)).take 8)
      pure ([(el, word (fld 8 2 imm.toNat))],
        { h with
          hop := h.hop + 1, addr := BitVec.ofNat 64 (word (fld 6 2 imm.toNat)), live := h.hop + 1 < hops
          agent := 8192 + dramPc (dramOf s (ks.headD 0)) })

/-- Results of a hop enter the gathered writes. -/
def gatherHop (c : Cmd) (e : Eye) (g : Gather) (rs : List (Nat × Nat)) : M Gather :=
  rs.foldlM (fun g (r : Nat × Nat) => do
    let va := (flatVa (c.win 0).d .n64 r.1).1
    let (g, k) := g.touch (va / 32)
    match ← captured (checkDest .cpy c { e with elem := r.1 } r.1 va 8) with
    | .ok _ => pure { g with writes := g.writes ++ [(va, wordBytes 8 r.2)] }
    | .error (.trap t) => pure (g.fail k t)
    | .error st => throw st) g

/-- All hops of a chase. -/
def chaseHops (c : Cmd) (imm : BitVec 16) (e : Eye) : Nat → Chase → Gather → M Gather
  | 0, _, g => pure g
  | n + 1, h, g => do
    if !h.live then pure g
    else
      match ← captured (hopOne imm e h) with
      | .ok (rs, h) => do
        let g ← gatherHop c e g rs
        chaseHops c imm e n h g
      | .error (.trap t) =>
        let va := (flatVa (c.win 0).d .n64 t.elem).1
        let (g, k) := g.touch (va / 32)
        pure (g.fail k t)
      | .error st => throw st

def runChase (c : Cmd) (imm : BitVec 16) : M Cmd := do
  let s ← get
  let e := copyEye s c
  let rec go : List Nat → Gather → M Gather
    | [], g => pure g
    | i :: is, g => do
      match ← captured (readElem { e with elem := i } c.carry.vl.toNat (c.win 1) .n64 i) with
      | .ok a => do
        let g ← chaseHops c imm e 64 { idx := i, hop := 0, addr := BitVec.ofNat 64 a, live := true, agent := e.agent } g
        go is g
      | .error (.trap t) =>
        let va := (flatVa (c.win 0).d .n64 (i * (fld 0 6 imm.toNat + 1))).1
        let (g, k) := g.touch (va / 32)
        go is (g.fail k t)
      | .error st => throw st
  let g ← go (List.range c.len) Gather.empty
  pure (c.gathered g)

/-! ### The reading part of a command -/

/-- Reads everything a command reads and works out what it writes; one that moves nothing ends EMPTY (R244). -/
def readCmd (c : Cmd) : M Cmd := do
  match cmdOf c.word with
  | none => pure { c with readDone := true }
  | some (k, a) =>
    if c.len = 0 ∨ replicas k c = [] then pure { c with readDone := true, status := 1 }
    else
      match k with
      | .sprog => runSprog c (fld 0 9 a.imm.toNat)
      | .srun => runSrun c a.imm
      | .chase => runChase c a.imm
      | _ => do
        let s ← get
        let g ← gatherReplicas k c (copyEye s c) a.imm.toNat (replicas k c) Gather.empty
        pure (c.gathered g)

/-- Bytes written above the floor are kept for a rollback, as those of a scalar store are (R385 step 4). -/
def keepWrote (s : State) (stamp : Nat) (pc : Word) (kbs : List (Key × Byte)) : State :=
  if s.floor < stamp then
    let a : Access := { kind := .store, va := 0, key := 0, size := 0, data := 0, stamp := stamp, pc := pc, done := some 0, wrote := kbs, acked := true }
    { s with front := { s.front with accesses := s.front.accesses ++ [a] } }
  else s

/-- A held write at its owner, which may find WATCH there (R401). -/
def placeWrite (e : Eye) (x : CopyWrite) : M (CopyWrite × Place × List Key) := do
  let (pl, ks) ← destKeys e 0 x.va.toNat x.bytes.length
  let m := watchMask e.watch x.va.toNat x.bytes.length false true
  if m ≠ 0 then trapM (watchTrap 1 m 0 x.va.toNat) else pure (x, pl, ks)

/-- The first held sector of a command, or the first rank of a `srun`, is written whole or not at all (R241, R245):
its place, WATCH and RACE come first. `shelve` says that bytes above the floor need shelf entries and wait for
them (R198). -/
def writeSector (shelve : Bool) (c : Cmd) : M Cmd := do
  match c.held with
  | [] => pure c
  | w :: _ =>
    let s ← get
    let e := copyEye s c
    match ← captured (do
        let ws ← (c.held.filter (fun x => x.ord == w.ord)).mapM (placeWrite e)
        let s ← get
        if shelve && s.floor < c.stamp && !shelfRoom s (ws.flatMap (·.2.2)) c.stamp then waitM
        else
          ws.forM (fun p => raceCheck c.race p.2.1 p.2.2 true 0 p.1.va.toNat)
          pure (ws.flatMap (fun p => p.2.2.zip p.1.bytes))) with
    | .ok kbs => do
      modify (fun s => keepWrote (s.storeAt c.stamp (shelve && s.floor < c.stamp) kbs) c.stamp c.pc kbs)
      pure { c with held := c.held.filter (fun x => x.ord != w.ord) }
    | .error (.trap t) => do
      modify (fun u => { u with tags := s.tags })
      pure { c with held := [], fault := true, status := BitVec.ofNat 6 (statusOf t), count := w.ord }
    | .error st => throw st

/-- Held sectors in order, until one waits. -/
def writeAll (shelve : Bool) : Nat → State → Cmd → State × Cmd
  | 0, s, c => (s, c)
  | n + 1, s, c =>
    if c.held.isEmpty then (s, c)
    else
      match M.exec (writeSector shelve c) s with
      | (.ok c, s) => writeAll shelve n s c
      | (.error _, _) => (s, c)

/-! ### Follow-on actions (R268 to R272) -/

def followOf (c : Cmd) : Nat :=
  match cmdOf c.word with
  | some (_, a) => a.follow.toNat % 8
  | none => 0

/-- The cast record an action fills the shadow from. -/
def nextCast (r : CastRec) : CastRec := { r with kb := r.kb + (if narrow r.fmt then 2 else 1) }

/-- The records as an action leaves them (R258); none when R269 is not met. -/
def projectRecs (f : Nat) (r : PairRec) : Option PairRec :=
  match r.act with
  | none => if f = 0 then some r else none
  | some a =>
    let a' := nextCast a
    let swapped : PairRec := { r with act := some a', shd := some a, actSt := .valid, shdSt := r.actSt }
    let sameMma : Bool := match r.mma with
      | some m => m.kb == a.kb && Desc.base (m.carry.win 2).d == Desc.base a.wb
      | none => false
    match f with
    | 0 => some r
    | 1 => some swapped
    | 2 => if sameMma then some { swapped with mma := r.mma.map (fun m => { m with kb := a'.kb }) } else none
    | _ => if sameMma then some { r with actSt := if r.actSt = .invalid then .valid else r.actSt } else none

/-- The eye of an action: its pulls are stamped as its command is (R268). -/
def actionEye (s : State) (c : Cmd) : Eye := { eyeAt s c.stamp with race := c.race, watch := c.watch }

/-- The `mma` of an action as it follows from the records: on the active slot, with what the command carries (R268). -/
def actionCx (c : Cmd) (m : MmaRec) (a : CastRec) : MmaCx :=
  { carry := { m.carry with seed := c.carry.seed, rm := c.carry.rm, ftz := c.carry.ftz }
    act := m.fmt, masked := m.wm, rm := m.rm, kb := a.kb, wfmt := a.fmt, group := Desc.group a.wb, key := c.stamp, salt := followSalt }

/-- Some element of sector `j` of a tile whose first element is `t0` is unmasked, or its mask bit cannot be read. -/
def sectorWritten (e : Eye) (x : MmaCx) (t0 j : Nat) : M Bool :=
  (List.range 8).anyM (fun i => do
    match ← captured (mmaActive e x (t0 + 8 * j + i)) with
    | .ok b => pure b
    | .error _ => pure true)

/-- Sectors of the accumulators that an action's `mma` writes, with their owners (R266). -/
def actionSectors (s : State) (c : Cmd) : List (Nat × Nat) :=
  if followOf c = 1 then []
  else
    match s.front.planes.mma, s.front.planes.act with
    | some m, some a =>
      (match (M.exec (do
          let e := actionEye s c
          let x := actionCx c m a
          let o ← readMat e (x.carry.win 0).d 1 true
          o.tiles.mapM (fun p => do
            let js ← (List.range 128).filterM (sectorWritten e x (1024 * (p.2 + o.e2 * p.1)))
            js.mapM (fun j => do
              let va := (o.va p.1 p.2 0 0 + 32 * j) % 2 ^ 64
              let (pl, _) ← lookup e.agent va true 0
              let ks ← keysM pl va 1 0
              pure (ks.headD 0)))) s).1 with
        | .ok ks => ks.flatten.filterMap (fun k => (ownerOf s k).map (fun o => (o, k / 32)))
        | .error _ => [])
    | _, _ => []

/-- Entries that an action needs at an owner. -/
def needsAt (ss : List (Nat × Nat)) (o : Nat) : Nat := (ss.filter (fun p => p.1 == o)).length

/-- Some bank's shelf is too small for an action, which is over the bound of two tiles (R266). -/
def overBound (ss : List (Nat × Nat)) : Bool := ((ss.map (·.1)).dedup).any (fun o => shelfSize o < needsAt ss o)

/-- The `mma` of an action, all or nothing; its flags. The pairing is checked as R90 has it, and its writes are
shelved under the action alone (R266). One that needs more entries than a shelf holds faults as R199 has an `mma` fault
(DEDUCED, log entry 95). -/
def actionMma (c : Cmd) : M Flags := do
  let s ← get
  match s.front.planes.mma, s.front.planes.act with
  | some m, some a =>
    need (pairsWith a.fmt m.fmt) (matTrap 7)
    need (!overBound (actionSectors s c)) (operandTrap 7)
    let x := actionCx c m a
    let b : Bcast := { word := 0, isn := 0, carry := x.carry, pc := 0, estart := 2 ^ 32, flags := 0, leaves := [], race := c.race, watch := c.watch }
    let e := actionEye s c
    if s.front.planes.actSt = .invalid then loadInto e false a
    let items ← mmaPlan e x
    let s ← get
    match runItems items s b with
    | (s, b, none) => do set s; pure b.flags
    | (_, _, some (_, st)) => throw st
  | _, _ => pure 0

/-- A fault of an action ends its command (R272). -/
def actionFault (c : Cmd) (t : TrapInfo) : Cmd :=
  { c with fault := true, cancelled := true, status := BitVec.ofNat 6 (statusOf t) }

def invalidateBoth (r : PairRec) : PairRec := { r with actSt := invalidate r.actSt, shdSt := invalidate r.shdSt }

/-- Performs the action of a command whose writes are done. -/
def doAction (c : Cmd) : M Cmd := do
  let f := followOf c
  let s ← get
  if f = 0 ∨ c.fault ∨ c.status ≠ 0 then pure { c with cancelled := f != 0 }
  else if c.cancelled then pure { c with fault := true, status := 4 }
  else
    let old := s.front.planes
    match old.act with
    | none => pure (actionFault c (mkTrap causePlacement 0))
    | some a =>
      let fills := f == 1 || f == 2
      let loaded ← captured (if fills then loadInto (actionEye s c) true (nextCast a) else pure ())
      match loaded with
      | .error (.trap t) => do
        modify (fun s => { s with front := { s.front with planes := { old with shdSt := invalidate old.shdSt } } })
        pure (actionFault c t)
      | .error st => throw st
      | .ok _ =>
        let new := (projectRecs f old).getD old
        if fills then modify swapSlots
        modify (fun s => { s with front := { s.front with planes := { new with actSt := if f = 3 then old.actSt else new.actSt } } })
        if f = 1 then pure c
        else
          match ← captured (actionMma c) with
          | .ok fl => do
            modify (fun s => { s with front := { s.front with planes := new } })
            pure { c with flags := c.flags ||| fl }
          | .error (.trap t) => do
            modify (fun s =>
              let s := { s with front := { s.front with planes := if fills then invalidateBoth old else old } }
              if fills then putSlot (putSlot s false []) true [] else s)
            pure (actionFault c t)
          | .error st => throw st

/-! ### Commands by slot, and their ends -/

def cmdAt (s : State) (slot : Nat) : Option Cmd := s.front.cmds.find? (fun c => c.slot == slot)

/-- The action of a command that has faulted or moved nothing is cancelled (R250), and with it every later one whose
projection rests on an action that is cancelled now (R258); `was` holds the slots of those cancelled before. -/
def cancelled (was : List Nat) : Bool → List Cmd → List Cmd
  | _, [] => []
  | hit, c :: r =>
    let off := c.proj.isSome && !c.finished && (hit || c.fault || c.status != 0)
    let c := if off then { c with cancelled := true } else c
    c :: cancelled was (hit || (c.proj.isSome && c.cancelled && !was.contains c.slot)) r

/-- The stream's commands as they now stand, with the actions cancelled that fall with others. -/
def State.setCmds (s : State) (cs : List Cmd) : State :=
  let was := (s.front.cmds.filter (·.cancelled)).map (·.slot)
  { s with front := { s.front with cmds := cancelled was false cs } }

/-- A command takes the place of the one in its slot. -/
def putCmd (s : State) (c : Cmd) : State := s.setCmds (s.front.cmds.map (fun x => if x.slot == c.slot then c else x))

/-- An earlier command of the stream will write the same register (R246). -/
def tokenBehind (s : State) (c : Cmd) : Bool := (s.front.cmds.takeWhile (fun x => x.slot != c.slot)).any (fun x => x.tok == c.tok)

/-- Number under which the entries kept for the action of a slot stand; it is no ISN. -/
def actionIsn (slot : Nat) : Nat := 2 ^ 48 + slot

/-- A slot is free again, with the entries kept for its action (R233, R266); the trace unit is told of the token
(R434). -/
def freeSlotOf (s : State) (c : Cmd) : State :=
  let s := { s with shelves := s.shelves.filter (fun e => !(e.action && e.sid == s.front.sid && e.isn == actionIsn c.slot)) }
  ({ s with front := { s.front with cmds := s.front.cmds.filter (fun x => x.slot != c.slot) } } : State).traced 4 c.stamp (at_ 32 c.tag.toNat)
    (tokenOf c).toNat

/-- The token is written, the flags of the command enter FFLAGS, and its slot is free (R244, R99). -/
def putToken (s : State) (c : Cmd) : State := freeSlotOf ((s.wr c.tok (tokenOf c)).orFlags c.flags) c

/-- Runs `m` on a command; one that waits leaves everything as it was. -/
def runCmdM (m : M Cmd) (c : Cmd) (s : State) : State × Cmd :=
  match M.exec m s with
  | (.ok c, t) => (t, c)
  | (.error _, _) => (s, c)

/-- The actions of the stream's earlier commands are over: the next one is held until then (R270). -/
def actionsBefore (s : State) (c : Cmd) : Bool :=
  (s.front.cmds.takeWhile (fun x => x.slot != c.slot)).all (fun x => followOf x == 0 || x.finished)

/-- A command as far as it goes without its owners' leave: to its end, but for the token, or to where it waits. -/
def wholeCmd (c : Cmd) (s : State) : State × Cmd :=
  let (s, c) := if c.readDone then (s, c) else runCmdM (readCmd c) c s
  let (s, c) := writeAll false (c.held.length + 1) s c
  if !c.readDone || !c.held.isEmpty || c.finished || (followOf c != 0 && !actionsBefore s c) then (s, c)
  else runCmdM (do let c ← doAction c; pure { c with finished := true }) c s

/-- The command of a slot as far as it goes; its token is written unless an earlier one's comes first. -/
def settleSlot (s : State) (slot : Nat) : State :=
  match cmdAt s slot with
  | none => s
  | some c =>
    let (s, c) := wholeCmd c s
    let s := putCmd s c
    match cmdAt s slot with
    | some c => if c.finished && !tokenBehind s c then putToken s c else s
    | none => s

/-- Commands that satisfy `p` are taken to their end, in issue order. -/
def settleCmds (p : Cmd → Bool) (s : State) : State := ((s.front.cmds.filter p).map (·.slot)).foldl settleSlot s

/-- Commands with an action stamped `h` or less, whose tokens a precise stop waits for, and those whose tokens come
before them (R246, R270). -/
def stopOwes (h : Nat) (s : State) (c : Cmd) : Bool :=
  c.stamp ≤ h && (followOf c != 0 || s.front.cmds.any (fun d => followOf d != 0 && d.stamp ≤ h && d.tok == c.tok))

/-! ### Footprint edges (R237 to R239) -/

/-- Sectors in common. -/
def rangesMeet (a b : List Range) : Bool :=
  a.any (fun x => b.any (fun y => x.lo / 32 * 32 < (y.hi + 31) / 32 * 32 && y.lo / 32 * 32 < (x.hi + 31) / 32 * 32))

/-- An edge of R239 holds an instruction that reads and writes the given ranges. -/
def edgeHeld (s : State) (reads writes : List Range) : Bool :=
  s.front.cmds.any (fun c => rangesMeet reads c.dsts || rangesMeet writes c.dsts || (!c.readDone && rangesMeet writes c.srcs))

/-- All addresses. -/
def allRange : Range := { lo := 0, hi := 2 ^ 57 }

/-- Range of a window over `n` elements as R237 counts it. -/
def winRange (d : Desc) (n : Nat) : List Range :=
  match Desc.fmt d with
  | none => []
  | some f => if Desc.mode d ≥ 2 then [allRange] else if n = 0 then [] else [flatRange d f n]

/-- Registers a command's token makes pending (R135, R246). -/
def tokenRegs (f : Front) : List SReg := f.cmds.map (·.tok)

/-- Matrix tile operations outstanding (R247). -/
def matOut (s : State) : Nat :=
  (actionsOut s).length
    + (s.front.bcasts.filter (fun b => 0x30 ≤ b.word.toNat / 2 ^ 58 && b.word.toNat / 2 ^ 58 ≤ 0x37)).length

end Sys2Proof.Machine
end

