-- ==== Sys2Proof/Machine/Ops.lean ====
section
/-! DEFINITION. The front's shared operations: the precise stop (R385), taking an exception (R387) and a
stream without a handler (R389), the return from one (R392), running a front instruction, issuing a
broadcast, and what releases and fences wait for (R321, R323). -/

namespace Sys2Proof.Machine

/-! ### Taking an exception -/

/-- A step of the debugger has performed its instruction: the halt lands when the floor reaches `n` (R431). -/
def landAt (d : DebugRun) (n : Nat) : DebugRun := if d = .free then .free else .land n

/-- A debugger's step has landed (R431). -/
def landed (s : State) : Bool :=
  match s.front.dbg with
  | .land n => n ≤ s.floor
  | _ => false

/-- Trap entry (R387): the trap registers are written, MODE and IE are saved and changed, PC becomes TVEC,
and the stop window opens. TISN is the commit ISN, at which FLOOR stands. -/
def enterTrap (s : State) (t : TrapInfo) (tpc : Word) : State :=
  let s := s.mapCsr (fun c => { c with
    cause := t.cause, int := t.int, tpc := tpc, tisn := c.floor, telem := BitVec.ofNat 32 t.elem, taddr := t.addr,
    tinfo := t.tinfo, pmode := c.mode, mode := true, pie := c.ie, ie := false })
  { s with front := { s.front with
    pc := (0 : BitVec 8) ++ s.front.csr.tvec ++ (0 : BitVec 3), stopWin := true, resumed := false, exempt := false, exemptAt := none
    dbg := landAt s.front.dbg s.floor } }

/-- What a trace record of a fault at an element holds in dword 2: the element, and the module-wide bank that found it,
zero for a channel engine (R434). -/
def faultPlace (s : State) (b : Bcast) (t : TrapInfo) : Nat :=
  let own : Option Nat := match infoOfWord b.word with
    | none => none
    | some info =>
      match (M.exec (info.body.plan (eyeOf s b) none b) s).1 with
      | .error _ => none
      | .ok items => (items.find? (fun it => it.elem == t.elem)).bind (fun it =>
          match (M.exec (it.own b) s).1 with
          | .ok o => o
          | .error _ => none)
  t.elem % 2 ^ 32 + at_ 48 ((own.filter (· < 8192)).getD 0)

/-- A cause that is an interrupt, with its TINFO (R383). -/
def interruptInfo (cause info : Nat) : TrapInfo := { mkTrap cause info with int := true }

/-- Die of a stream's sequencer. -/
def dieOf (f : Front) : Nat := f.cell.toNat / 16

/-- A cause met by a stream without a handler ends it, as an OP 2 record does, and is logged (R389). -/
def endStream (s : State) (t : TrapInfo) (tpc : Word) : State :=
  let f := s.front
  retireFront (s.event 10 (dieOf f) [f.sid.toNat + at_ 16 t.cause.toNat, tpc.toNat, f.csr.floor.toNat, t.elem, t.addr.toNat])

/-- Delivers a cause after the stop has been recorded: trap entry, or the end of a stream whose TVEC is 0. -/
def deliver (s : State) (t : TrapInfo) (tpc : Word) : State :=
  if s.front.csr.tvec = 0 then endStream s t tpc else enterTrap s t tpc

/-- Return from a trap (R392): MODE and IE are restored and the stop window closes; PC becomes TPC. With RQ = 0 the
front instruction there is exempt from watchpoints. -/
def leaveTrap (rq : Bool) (s : State) : State :=
  let s := s.mapCsr (fun c => { c with mode := c.pmode, ie := c.pie })
  { s with front := { s.front with
    pc := s.front.csr.tpc, icache := [], stopWin := false, exempt := !rq
    dbg := landAt s.front.dbg s.floor } }

/-- With no broadcast under way and none in the queue, every one has retired (R189): a die reset empties the queue
and leaves FLOOR behind (R398). -/
def caughtUp (s : State) : State :=
  if s.front.bcasts.isEmpty && s.front.queue.isEmpty then s.mapCsr (fun c => { c with floor := c.isn }) else s

/-- The issue queue is reissued, its first entry from ESTART, exempt there, with the flags the banks hold of it (R392).
An entry carries no watchpoints: it is checked against those that stand at its reissue (DEDUCED, log entry 94). -/
def reissue (s : State) : State :=
  let w := s.front.csr.watches
  let q := s.front.queue.zipIdx.map (fun p =>
    if p.2 = 0 then { p.1 with estart := s.front.csr.estart.toNat, flags := p.1.flags ||| s.front.heldFlags, watch := w } else { p.1 with estart := 0, watch := w })
  caughtUp { s with front := { s.front with
    bcasts := s.front.bcasts ++ q, queue := [], heldFlags := 0, exemptAt := (s.front.queue.head?.map (·.isn)).orElse (fun _ => s.front.exemptAt) } }

/-! ### The precise stop (R385) -/

/-- Waits of the stream at homes are withdrawn (R127, R131, R322), and its messages are answered: a `vacc` in
phase 2 runs to completion (R342). -/
def withdrawWaits (s : State) : State :=
  let sid := s.front.sid
  let s := settleMsgs s (fun m => m.sid == sid)
  { s with
    front := { s.front with
      waiting := false, waitObj := none, atGroup := none
      accesses := s.front.accesses.filter (fun a => !(keyCls a.key == .hm && a.kind != .store)) }
    waiters := s.waiters.filter (fun w => w.sid != sid)
    monitors := s.monitors.filter (fun m => m.sid != sid)
    groups := s.groups.map (fun g => { g with arrived := g.arrived.filter (· != sid) }) }

/-- The horizon: the highest stamp that has left the front, or FLOOR in a stop window (R387). -/
def horizonOf (s : State) : Nat := if s.front.stopWin then s.floor else max s.front.horizon s.floor

/-- A stamp leaves the front. -/
def State.leave (s : State) : State := { s with front := { s.front with horizon := max s.front.horizon s.stamp } }

/-- Actions of commands stamped above `h` are cancelled (R270). -/
def cancelAbove (s : State) (h : Nat) : State :=
  { s with front := { s.front with cmds := s.front.cmds.map (fun c => if h < c.stamp then { c with cancelled := true } else c) } }

/-- Word of a bank-condition branch. -/
def isCondWord (w : Word) : Bool := w.toNat / 2 ^ 58 == 0x10

/-- A bank-condition branch whose result has not returned is withdrawn: ISN returns to the one before, and TPC names
the branch (R179). -/
def withdrawBranch (s : State) (tpc : Word) : State × Word :=
  match s.front.bcasts.find? (fun b => isCondWord b.word) with
  | none => (s, tpc)
  | some b =>
    (({ s with front := { s.front with bcasts := s.front.bcasts.filter (fun x => x.isn < b.isn) } } : State).mapCsr
      (fun c => { c with isn := BitVec.ofNat 48 (b.isn - 1) }), b.pc)

/-- Steps 4 and 5: memory rolled back to `h` + 1, and the broadcasts above `h` become the issue queue, the
first from `first`. With none above `h`, a queue already held stays and ESTART is 0. Commands stamped above `h`
are performed before the elements that a restart repeats (R386). -/
def recordStop (s : State) (h first : Nat) : State :=
  let above := s.front.bcasts.filter (fun b => h < b.isn)
  let s := settleCmds (fun c => h < c.stamp) (cancelAbove s h)
  let s := rewriteAbove (rollback s (h + 1)) (h + 1)
  let q := above.zipIdx.map (fun p =>
    if p.2 = 0 then { p.1 with estart := first, leaves := [] } else { p.1 with estart := 0, flags := 0, leaves := [] })
  let s := s.mapCsr (fun c => { c with floor := BitVec.ofNat 48 h, tisn := BitVec.ofNat 48 h, estart := if q.isEmpty then 0 else BitVec.ofNat 32 first })
  { s with front := { s.front with
    queue := if q.isEmpty then s.front.queue else q, bcasts := [], works := [], pulls := [], progress := [], found := none,
    accesses := [], horizon := h, tlbOp := .none, olds := [] } }

/-- How a stop comes out: recorded, with the cause and the TPC to deliver, or held up at a shelf that has no room or
at a home, as far as it has got. -/
inductive StopOut where
  | stopped (s : State) (t : TrapInfo) (pc : Word)
  | waits (s : State)

/-- A stop that has been recorded is traced (R434); the ISN of its record is TISN (DEDUCED, log entry 104). -/
def stopRecorded (s : State) (t : TrapInfo) (tpc : Word) : StopOut := .stopped (s.traced 5 s.floor 0 tpc.toNat) t tpc

/-- The cause of a recorded stop is delivered; one held up is tried again in the stream's next turn. -/
def deliverStop : StopOut → State
  | .stopped s t pc => deliver s t pc
  | .waits s => s

/-- The stop for fault `t` at a broadcast, whose entry stands in the front: its records move on as R259 gives.
A bank-condition branch is withdrawn, and ISN returns to the one before (R179). -/
def stopFault (s : State) (b : Bcast) (t : TrapInfo) (tpc : Word) : StopOut :=
  let s := settleAccesses s
  if !allPerformed (fun _ => true) s || relsOut s.front != 0 then .waits s
  else
    let s := settleCmds (stopOwes (b.isn - 1) s) s
    if s.front.cmds.any (fun c => followOf c != 0 && c.stamp < b.isn) then .waits s
    else
    let s := match infoOfWord b.word with
      | some info => { s with front := { s.front with planes := info.body.recs b s.front.planes false } }
      | none => s
    let s := s.traced 3 b.isn (faultPlace s b t) t.addr.toNat
    if isCondWord b.word then
      let (s, tpc) := withdrawBranch s tpc
      stopRecorded (recordStop s (b.isn - 1) 0) t tpc
    else stopRecorded (recordStop s (b.isn - 1) b.estart) t tpc

/-- The sector of some destination element lies within a broadcast's source footprint (R196). -/
def selfOverlap (s : State) (b : Bcast) (fp : Option (List Range)) : Bool :=
  let n := b.carry.vl.toNat
  let inFoot (w : Win) (f : Fmt) (i : Nat) : Bool :=
    match (M.exec (destAddr { eyeOf s b with elem := i } true n w f i) s).1 with
    | .ok d => (sectorSpans s d).any (fun r => meets fp r.lo r.hi)
    | .error _ => false
  let w := b.carry.win 0
  match Desc.fmt w.d with
  | none => false
  | some f =>
    (List.range n).any (inFoot w f)
      || (f.isS && (List.range ((n + Desc.group w.d - 1) / Desc.group w.d)).any (inFoot w.scale (scaleFmt f)))

/-- Whether a broadcast is completed by a stop that finds it begun: it is in phase 2, or its destination lies
within its own source footprint (R385 step 3). -/
def runsToEnd (s : State) (b : Bcast) (info : BInfo) : Bool :=
  info.fencing ||
    (match (M.exec (info.body.foot (eyeOf s b) b) s).1 with
      | .ok fp => selfOverlap s b fp
      | .error _ => true)

/-- The least element that some owner has not performed, or VL. -/
def leastLeft (s : State) (b : Bcast) (info : BInfo) : Nat :=
  match (M.exec (info.body.plan (eyeOf s b) none b) s).1 with
  | .ok items => ((restItems s b items).head?.map (·.elem)).getD b.carry.vl.toNat
  | .error _ => 0

/-- Step 3 for an interrupt: broadcasts just above the horizon that must run to completion do. -/
def completeNext : Nat → State → State × Settled
  | 0, s => (s, .done)
  | n + 1, s =>
    match s.front.bcasts with
    | [] => (s, .done)
    | b :: _ =>
      match infoOfWord b.word with
      | none => (s, .done)
      | some info =>
        if runsToEnd s b info then
          match settleB s b info.body with
          | (s, .done) => completeNext n s
          | x => x
        else (s, .done)

/-- Steps 2 to 5 of a stop once its broadcasts are settled. A `vamo` completed on the way, an element of which has
failed, makes that failure the cause (R352). -/
def recordSettled (s : State) (t : TrapInfo) (tpc : Word) : StopOut :=
  let s := settleAccesses s
  if !allPerformed (fun _ => true) s || relsOut s.front != 0 then .waits s
  else
    let h := max (horizonOf s) s.floor
    let s := settleCmds (stopOwes h s) s
    if s.front.cmds.any (fun c => followOf c != 0 && c.stamp ≤ h) then .waits s
    else
    let first := match s.front.bcasts.head? with
      | some b => (match infoOfWord b.word with
        | some info => leastLeft s b info
        | none => 0)
      | none => 0
    let late := s.front.late
    stopRecorded (recordStop { s with front := { s.front with late := none, strayed := false } } h first) (late.getD t) tpc

/-- A stop not caused by a broadcast, for cause `t` with TPC `tpc`, or that of the branch it withdraws. A fault found
among the broadcasts it completes becomes the cause. -/
def settleStop (s : State) (t : TrapInfo) (tpc : Word) : StopOut :=
  let (s, tpc) := withdrawBranch (withdrawWaits s) tpc
  match settleTo (horizonOf s) s.front.bcasts s with
  | (s, .fault b t') => stopFault s b t' tpc
  | (s, .waits) => .waits s
  | (s, .done) =>
    match completeNext s.front.bcasts.length s with
    | (s, .fault b t') => stopFault s b t' tpc
    | (s, .waits) => .waits s
    | (s, .done) => recordSettled s t tpc

/-- The whole of a stop and the delivery of its cause. -/
def stopTrap (s : State) (t : TrapInfo) (tpc : Word) : State := deliverStop (settleStop s t tpc)

/-- The same for a fault at a broadcast. -/
def stopAtB (s : State) (b : Bcast) (t : TrapInfo) : State :=
  let s := withdrawWaits s
  let tpc := s.front.pc
  match settleTo (b.isn - 1) s.front.bcasts s with
  | (s, .fault b' t') => deliverStop (stopFault s b' t' tpc)
  | (s, .waits) => s
  | (s, .done) => deliverStop (stopFault (putB s b) b t tpc)

/-! ### Running a front instruction -/

/-- The instruction traps at its own address (R69, R152). -/
def trapHere (t : TrapInfo) (s : State) : Out := .next (stopTrap s t s.front.pc)

/-- Past the instruction: the next one is no longer exempt from watchpoints (R392). -/
def State.goto (s : State) (a : Word) : State :=
  { s with front := { s.front with pc := a, exempt := false, issued := s.front.issued + 1, waiting := false, tlbOp := .none, waitObj := none, atGroup := none, dbg := landAt s.front.dbg s.floor } }

/-- Past an 8-byte instruction. -/
def State.done (s : State) : State := s.goto (s.front.pc + 8)

/-- Runs a computation of the front: it ends, traps at the instruction, or waits there. -/
def frontM (m : M Unit) (s : State) : Out :=
  match M.exec m s with
  | (.ok _, s) => .next s
  | (.error (.trap t), s) => trapHere t s
  | (.error _, s) => .next s

/-- Supervisor mode is needed (R384). -/
def supervisor : M Unit := do
  let s ← get
  need s.front.csr.mode (operandTrapHi 10)

/-! ### What instructions wait for -/

/-- The floor has reached the ISN register; in a stop window FLOOR is the target (R387). -/
def floorMet (s : State) : Bool := s.front.stopWin || s.floor == s.isn

/-- Every scalar access is answered, and none is waited for (R136). -/
def accessesDone (s : State) : Bool := loadsOut s.front == 0 && storesOut s.front == 0 && relsOut s.front == 0

/-- Every shared command has written its token (R251). -/
def sharedDone (s : State) : Bool := !s.front.cmds.any (·.shared)

/-- A release may be performed (R150, R321). -/
def releaseReady (s : State) : Bool := floorMet s && accessesDone s && sharedDone s

/-- Waits until `b`. -/
def waitFor (b : Bool) : M Unit := if b then pure () else waitM

/-- What a release does before it is performed: it waits, and delivers the residuals its scope covers
(R333). -/
def releaseM (sc : Scope) (beta : List Nat) : M Unit := do
  let s ← get
  waitFor (releaseReady s)
  modify (fun s => deliverResiduals s (scopeMem s.front sc beta))

/-- How far the `tlbinv`, `pmig` or `logsync` at the pc has got. -/
def setTlbOp (o : TlbOp) : M Unit := modify (fun s => { s with front := { s.front with tlbOp := o } })

/-- Held reply of a recording stream whose record has no index yet (R363, R365). -/
def repliesM : M Unit := do
  let s ← get
  waitFor (!replyHeld s s.front)

/-! ### Issuing a broadcast (R69 to R71, R187 to R191, R390) -/

/-- ISN of a new broadcast is 2^48 or more (R187). -/
def isnSpent (s : State) : Bool := s.isn + 1 ≥ 2 ^ 48

/-- The faults of the front for a broadcast, first fault first (R390, R70, R187). -/
def issueFault (info : BInfo) (s : State) : Option TrapInfo :=
  if s.front.queue ≠ [] then some (operandTrapHi 14)
  else
    match info.check s with
    | some t => some t
    | none => if isnSpent s then some (operandTrap 6) else none

def isMatrix (i : Instr) : Bool :=
  match i with
  | .mload _ _ _ _ | .mswap _ | .mma _ | .mrecast _ _ | .minval _ _ => true
  | _ => false

/-- A state whose window k reads as k + 1. -/
def markedState (s : State) : State :=
  { s with front := { s.front with w := Vector.ofFn (fun (k : Fin 32) => BitVec.ofNat 128 (k.val + 1)) } }

/-- The windows that an instruction names, by slot of what it carries. -/
def slotWindows (info : BInfo) (s : State) : List (Nat × WReg) :=
  let c := info.carry (markedState s)
  (List.range 5).filterMap (fun k =>
    let n := ((c.descs.toList).getD k 0).toNat
    if n = 0 ∨ 32 < n then none else some (k, BitVec.ofNat 5 (n - 1)))

/-- Ranges a broadcast reads and writes, as the footprint table compares them: those of the windows it names, with the
index and scale windows it carries for them (R237). An index window is a source; the scale window of a destination
is written. -/
def bcastRanges (info : BInfo) (s : State) : List Range × List Range :=
  let c := info.carry s
  let n := c.vl.toNat
  let side (d : Desc) : List Range := if d = 0 then [] else winRange d n
  let both (k : Nat) : List Range := winRange (c.win k).d n ++ side (c.win k).scl
  let used := (slotWindows info s).map (·.1)
  let dests := used.filter (fun k => info.dests.contains k)
  ((used.filter (fun k => !info.dests.contains k)).flatMap both ++ used.flatMap (fun k => side (c.win k).idx), dests.flatMap both)

/-- Whether a broadcast may issue now: R136, R187, fencing, matrix order (R247, R270), the stamped accesses before one
that is performed as it issues (R139), and footprint edges. -/
def mayIssue (i : Instr) (info : BInfo) (s : State) : Bool :=
  let f := s.front
  loadsOut f == 0 && s.isn + 1 - s.floor ≤ 64
    && (f.bcasts.isEmpty || (s.pace == .runAhead && !info.fencing && !isMatrix i))
    && (!(info.fencing || isMatrix i) || allPerformed (fun _ => true) s)
    && (!isMatrix i || (matOut s < 64 && (actionCmds s).isEmpty))
    && (f.cmds.isEmpty || !edgeHeld s (bcastRanges info s).1 (bcastRanges info s).2)

/-- The broadcast as it issues. -/
def newB (i : Instr) (info : BInfo) (s : State) : Bcast :=
  { word := wordOf i, isn := s.isn + 1, carry := info.carry s, pc := s.front.pc, estart := 0, flags := 0, leaves := [],
    race := s.front.race, watch := s.front.csr.watches }

/-- A broadcast takes its ISN and the front goes on; the issue is traced (R434). -/
def takeIsn (b : Bcast) (s : State) : State :=
  let s := s.traced 1 b.isn 0 b.pc.toNat
  let s := (s.mapCsr (fun c => { c with isn := BitVec.ofNat 48 b.isn })).goto (s.front.pc + 8)
  { s with front := { s.front with dbg := landAt s.front.dbg b.isn } }

/-- A `vamo` some of whose elements failed stops after itself (R352, R370). -/
def lateStop (s : State) : State :=
  match s.front.late with
  | none => s
  | some t => stopTrap s t s.front.pc

/-- Performs a broadcast that stands in the front to its end, its stop, or a wait; the tree's result comes
back when it has ended. A `vacc` with messages under way has nothing left to perform but is not retired until
they are answered (R344). -/
def driveB (s : State) (b : Bcast) (info : BInfo) : State × Option Word :=
  match performB s b info.body with
  | (s, b, none) =>
    if s.msgs.any (fun m => m.sid == s.front.sid) then (putB s { b with estart := 2 ^ 17, leaves := [(0, 0)] }, none)
    else let (s, w) := finishB s b info.body; (lateStop s, some w)
  | (s, b, some (.trap t)) => (stopAtB (putB s b) b t, none)
  | (s, b, some _) => (putB s b, none)

/-- A broadcast that may issue: it takes its ISN; at once, in lockstep, for fencing and matrix instructions,
its owners perform it; else it waits for their steps. -/
def issueNow (i : Instr) (info : BInfo) (s : State) : State × Option Word :=
  let b := newB i info s
  let s := takeIsn b s
  let s := { s with front := { s.front with bcasts := s.front.bcasts ++ [b] } }
  if s.pace = .lockstep ∨ info.fencing ∨ isMatrix i then driveB s b info else (s, none)

/-- What a broadcast waits for before it may issue: its own turn, and the release it makes (R351). -/
def issueReady (i : Instr) (info : BInfo) (s : State) : Bool :=
  mayIssue i info s && (match info.release with
    | some _ => releaseReady s
    | none => true)

/-- The release of an instruction about to issue, over the memory of its locations' owners at scope BANK. -/
def beforeIssue (i : Instr) (info : BInfo) (s : State) : State :=
  match info.release with
  | some sc =>
    let b := newB i info s
    (deliverResiduals s (scopeMem s.front sc (info.homes (eyeOf s b) b s))).nextInterval
  | none => s

/-- The meaning of a broadcast at the front. -/
def broadcast (i : Instr) (info : BInfo) (s : State) : Out :=
  match issueFault info s with
  | some t => trapHere t s
  | none =>
    if issueReady i info s then .next (issueNow i info (beforeIssue i info s)).1
    else .next s

/-- A bank-condition branch at `pc` is taken by the tree's result, once that has returned (R179). -/
def takeBranch (pc : Word) (off : BitVec 32) (r : State × Option Word) : State :=
  match r.2 with
  | some w => if w = 0 then r.1 else r.1.setPc (pc + 8 * off.signExtend 64)
  | none => r.1

/-- Offset of a bank-condition branch's word. -/
def branchOffset (w : Word) : Option (BitVec 32) :=
  match instrOf w with
  | some (.bany _ off) => some off
  | some (.ball _ off) => some off
  | some (.bnone _ off) => some off
  | _ => none

/-- The meaning of a bank-condition branch: it is taken by the tree's result (R179). -/
def condBranch (i : Instr) (info : BInfo) (off : BitVec 32) (s : State) : Out :=
  match issueFault info s with
  | some t => trapHere t s
  | none =>
    if issueReady i info s then .next (takeBranch s.front.pc off (issueNow i info s)) else .next s

/-- The oldest broadcast of a stream goes on, when the front's own turn performs it. -/
def resumeB (s : State) : State :=
  match s.front.bcasts with
  | [] => s
  | b :: _ =>
    match infoOfWord b.word with
    | none => { s with front := { s.front with bcasts := s.front.bcasts.tail } }
    | some info =>
      let r := driveB s b info
      (match branchOffset b.word with
        | some off => takeBranch b.pc off r
        | none => r.1)

end Sys2Proof.Machine
end

