-- ==== Sys2Proof/Machine/Alu.lean ====
section
/-! DEFINITION. Scalar ALU instructions, `ldk`, branches and jumps, `nop` (spec/06_scalar.md). -/

namespace Sys2Proof.Machine

/-- Bits of an operand width (R46). -/
def Width.bits : Width → Nat
  | .w64 => 64
  | .w32 => 32
  | .w16 => 16
  | .w8 => 8

/-- Operand B before it is cut to the width: a register, or the sign-extended immediate (R146). -/
def aluB (s : State) (b : AluB) : Word :=
  match b with
  | .reg r => s.rd r
  | .imm i => i.signExtend 64

/-- The low `w` bits of a word, unsigned and signed (R146). -/
def lowN (w : Nat) (x : Word) : Nat := x.toNat % 2 ^ w
def lowI (w : Nat) (x : Word) : Int := sextInt w x.toNat

/-- A `w`-bit result as the register takes it: sign-extended from bit w - 1 (R146). -/
def extendRes (w : Nat) (r : Nat) : Word := BitVec.ofInt 64 (sextInt w r)

/-- A binary scalar operation: its `w`-bit result from the operands a and b (R146). -/
def aluOp (f : Nat → Word → Word → Nat) (w : Width) (sd sa : SReg) (b : AluB) (s : State) : Out :=
  let n := Width.bits w
  .next ((s.wr sd (extendRes n (f n (s.rd sa) (aluB s b)))).done)

/-- A unary scalar operation. -/
def aluUn (f : Nat → Word → Nat) (w : Width) (sd sa : SReg) (s : State) : Out :=
  let n := Width.bits w
  .next ((s.wr sd (extendRes n (f n (s.rd sa)))).done)

/-! ### Results (R147), `w` bits -/

def resAdd (w : Nat) (a b : Word) : Nat := (lowN w a + lowN w b) % 2 ^ w
def resSub (w : Nat) (a b : Word) : Nat := (lowN w a + 2 ^ w - lowN w b) % 2 ^ w
def resMul (w : Nat) (a b : Word) : Nat := lowN w a * lowN w b % 2 ^ w
def resMulh (w : Nat) (a b : Word) : Nat := wrapNat (2 * w) (lowI w a * lowI w b) / 2 ^ w
def resMulhn (w : Nat) (a b : Word) : Nat := lowN w a * lowN w b / 2 ^ w

/-- Signed quotient, truncated toward zero; all ones for a zero divisor. -/
def resDiv (w : Nat) (a b : Word) : Nat :=
  if lowI w b = 0 then 2 ^ w - 1 else wrapNat w (Int.tdiv (lowI w a) (lowI w b))
def resDivn (w : Nat) (a b : Word) : Nat := if lowN w b = 0 then 2 ^ w - 1 else lowN w a / lowN w b
def resRem (w : Nat) (a b : Word) : Nat :=
  if lowI w b = 0 then lowN w a else wrapNat w (lowI w a - lowI w b * Int.tdiv (lowI w a) (lowI w b))
def resRemn (w : Nat) (a b : Word) : Nat := if lowN w b = 0 then lowN w a else lowN w a % lowN w b

def resAnd (w : Nat) (a b : Word) : Nat := lowN w (a &&& b)
def resOr (w : Nat) (a b : Word) : Nat := lowN w (a ||| b)
def resXor (w : Nat) (a b : Word) : Nat := lowN w (a ^^^ b)
def resAndn (w : Nat) (a b : Word) : Nat := lowN w (a &&& ~~~b)
def resSll (w : Nat) (a b : Word) : Nat := lowN w a * 2 ^ (lowN w b % w) % 2 ^ w
def resSrl (w : Nat) (a b : Word) : Nat := lowN w a / 2 ^ (lowN w b % w)
def resSra (w : Nat) (a b : Word) : Nat := wrapNat w (lowI w a / 2 ^ (lowN w b % w))
def resSlt (w : Nat) (a b : Word) : Nat := if lowI w a < lowI w b then 1 else 0
def resSltn (w : Nat) (a b : Word) : Nat := if lowN w a < lowN w b then 1 else 0
def resMin (w : Nat) (a b : Word) : Nat := if lowI w a ≤ lowI w b then lowN w a else lowN w b
def resMax (w : Nat) (a b : Word) : Nat := if lowI w a ≤ lowI w b then lowN w b else lowN w a
def resMinn (w : Nat) (a b : Word) : Nat := min (lowN w a) (lowN w b)
def resMaxn (w : Nat) (a b : Word) : Nat := max (lowN w a) (lowN w b)

/-- Leading zero bits of `w` bits. -/
def resClz (w : Nat) (a : Word) : Nat := if lowN w a = 0 then w else w - 1 - Nat.log2 (lowN w a)

/-- Trailing zero bits: the zeros below the lowest 1 among `n` bits. -/
def trailZeros : Nat → Nat → Nat
  | 0, _ => 0
  | n + 1, x => if x % 2 = 1 then 0 else trailZeros n (x / 2) + 1
def resCtz (w : Nat) (a : Word) : Nat := trailZeros w (lowN w a)
def resPopc (w : Nat) (a : Word) : Nat := ((List.range w).filter (fun i => a.getLsbD i)).length
def resSext (w : Nat) (a : Word) : Nat := lowN w a

/-! ### Instructions (R147, R148) -/

def execAdd (w : Width) (sd sa : SReg) (b : AluB) (s : State) : Out := aluOp resAdd w sd sa b s
def execSub (w : Width) (sd sa : SReg) (b : AluB) (s : State) : Out := aluOp resSub w sd sa b s
def execMul (w : Width) (sd sa : SReg) (b : AluB) (s : State) : Out := aluOp resMul w sd sa b s
def execMulh (w : Width) (sd sa : SReg) (b : AluB) (s : State) : Out := aluOp resMulh w sd sa b s
def execMulhn (w : Width) (sd sa : SReg) (b : AluB) (s : State) : Out := aluOp resMulhn w sd sa b s
def execDiv (w : Width) (sd sa : SReg) (b : AluB) (s : State) : Out := aluOp resDiv w sd sa b s
def execDivn (w : Width) (sd sa : SReg) (b : AluB) (s : State) : Out := aluOp resDivn w sd sa b s
def execRem (w : Width) (sd sa : SReg) (b : AluB) (s : State) : Out := aluOp resRem w sd sa b s
def execRemn (w : Width) (sd sa : SReg) (b : AluB) (s : State) : Out := aluOp resRemn w sd sa b s
def execAnd (w : Width) (sd sa : SReg) (b : AluB) (s : State) : Out := aluOp resAnd w sd sa b s
def execOr (w : Width) (sd sa : SReg) (b : AluB) (s : State) : Out := aluOp resOr w sd sa b s
def execXor (w : Width) (sd sa : SReg) (b : AluB) (s : State) : Out := aluOp resXor w sd sa b s
def execAndn (w : Width) (sd sa : SReg) (b : AluB) (s : State) : Out := aluOp resAndn w sd sa b s
def execSll (w : Width) (sd sa : SReg) (b : AluB) (s : State) : Out := aluOp resSll w sd sa b s
def execSrl (w : Width) (sd sa : SReg) (b : AluB) (s : State) : Out := aluOp resSrl w sd sa b s
def execSra (w : Width) (sd sa : SReg) (b : AluB) (s : State) : Out := aluOp resSra w sd sa b s
def execSlt (w : Width) (sd sa : SReg) (b : AluB) (s : State) : Out := aluOp resSlt w sd sa b s
def execSltn (w : Width) (sd sa : SReg) (b : AluB) (s : State) : Out := aluOp resSltn w sd sa b s
def execMin (w : Width) (sd sa : SReg) (b : AluB) (s : State) : Out := aluOp resMin w sd sa b s
def execMax (w : Width) (sd sa : SReg) (b : AluB) (s : State) : Out := aluOp resMax w sd sa b s
def execMinn (w : Width) (sd sa : SReg) (b : AluB) (s : State) : Out := aluOp resMinn w sd sa b s
def execMaxn (w : Width) (sd sa : SReg) (b : AluB) (s : State) : Out := aluOp resMaxn w sd sa b s

def execClz (w : Width) (sd sa : SReg) (s : State) : Out := aluUn resClz w sd sa s
def execCtz (w : Width) (sd sa : SReg) (s : State) : Out := aluUn resCtz w sd sa s
def execPopc (w : Width) (sd sa : SReg) (s : State) : Out := aluUn resPopc w sd sa s
def execSext (w : Width) (sd sa : SReg) (s : State) : Out := aluUn resSext w sd sa s

/-- `zext` (R146): zero-extended, not sign-extended. -/
def execZext (w : Width) (sd sa : SReg) (s : State) : Out :=
  .next ((s.wr sd (BitVec.ofNat 64 (lowN (Width.bits w) (s.rd sa)))).done)

/-- `ldk` (R148): two words. -/
def execLdk (sd : SReg) (k : Word) (s : State) : Out := .next ((s.wr sd k).goto (s.front.pc + 16))

def execNop (s : State) : Out := .next s.done

/-! ### Branches and jumps (R153, R154) -/

/-- PC + 8 × OFFSET. -/
def branchTo (s : State) (off : BitVec 32) : Word := s.front.pc + 8 * off.signExtend 64

def branchIf (c : Bool) (off : BitVec 32) (s : State) : Out := .next (if c then s.goto (branchTo s off) else s.done)

def execBeq (sa sb : SReg) (off : BitVec 32) (s : State) : Out := branchIf (s.rd sa == s.rd sb) off s
def execBne (sa sb : SReg) (off : BitVec 32) (s : State) : Out := branchIf (s.rd sa != s.rd sb) off s
def execBlt (sa sb : SReg) (off : BitVec 32) (s : State) : Out := branchIf ((s.rd sa).slt (s.rd sb)) off s
def execBge (sa sb : SReg) (off : BitVec 32) (s : State) : Out := branchIf (!(s.rd sa).slt (s.rd sb)) off s
def execBltn (sa sb : SReg) (off : BitVec 32) (s : State) : Out := branchIf ((s.rd sa).ult (s.rd sb)) off s
def execBgen (sa sb : SReg) (off : BitVec 32) (s : State) : Out := branchIf (!(s.rd sa).ult (s.rd sb)) off s

/-- `jal`: the link is the address after the jump. -/
def execJal (sd : SReg) (off : BitVec 32) (s : State) : Out :=
  .next ((s.wr sd (s.front.pc + 8)).goto (branchTo s off))

/-- `jalr`: the target is taken before the link is written; ALIGN when it is no multiple of 8. -/
def execJalr (sd sa : SReg) (imm : BitVec 32) (s : State) : Out :=
  let t := s.rd sa + imm.signExtend 64
  if t.toNat % 8 ≠ 0 then trapHere (mkTrap causeAlign 0 0 t.toNat) s
  else .next ((s.wr sd (s.front.pc + 8)).goto t)

end Sys2Proof.Machine
end

