-- ==== Sys2Proof/Machine/Memory.lean ====
section
/-! DEFINITION. Scalar loads, stores and atomics (spec/06_scalar.md, spec/17_accumulate.md). -/

namespace Sys2Proof.Machine

/-- Bytes of an access. -/
def Width.bytes (w : Width) : Nat := Width.bits w / 8

/-- s[SA] + sext64(IMM32) (R149). -/
def scalarVa (s : State) (sa : SReg) (off : BitVec 32) : Nat := (s.rd sa + off.signExtend 64).toNat

/-- The front's eye for a scalar access: its own translations, at its stamp (R138). -/
def scalarEye (s : State) : Eye := { agent := seqAgent s.front, who := none, stamp := s.stamp, bufs := [], elem := 0, race := s.front.race }

/-- ALIGN, XLATE_MISSING, XLATE_PERM, PLACEMENT of a scalar access, in the order of R152. `ok` is the test
of an atomic's place (R349). -/
def scalarPlace (va n : Nat) (p : Perm) (ok : Place → Bool) : M (Place × List Key) := do
  if va % n ≠ 0 then trapM (mkTrap causeAlign 0 0 va)
  else
    let s ← get
    let pl ← xlate (seqAgent s.front) va p 0
    let ks ← keysM pl va n 0
    need (ok pl) (mkTrap causePlacement 0 0 va)
    pure (pl, ks)

/-- WATCH at the front, before the access is sent (R152, R399, R402). -/
def scalarWatch (va n : Nat) (rd wr : Bool) : M Unit := do
  let s ← get
  let m := watchMask s.front.csr.watches va n rd wr
  need (m == 0 || s.front.exempt) (watchTrap 2 m 0 va)

/-- Bytes of an access as ranges (R237). -/
def accRange (va n : Nat) : List Range := [{ lo := va, hi := va + n }]

/-- Whether a plain access may leave the front without waiting: owners keep their own pace, no race is
checked, and its bytes lie at one owner of the domain, readable, in one run (R139, R142, R144). -/
def mayPost (s : State) (ks : List Key) : Bool :=
  let k := ks.headD 0
  s.pace == .runAhead && !s.front.stopWin && !s.front.csr.raceEn && ks == keysFrom k ks.length && !unreadable s ks
    && (match ownerOf s k with
      | some o => inDomain s.front.domBase.toNat s.front.domLog.toNat o
      | none => false)

/-- An access joins those under way. -/
def post (kind : AccKind) (va : Nat) (ks : List Key) (data : Word) : M Unit :=
  modify fun s =>
    let a : Access := { kind := kind, va := BitVec.ofNat 64 va, key := ks.headD 0, size := ks.length, data := data, stamp := s.stamp,
                        pc := s.front.pc, done := none, wrote := [], acked := false, order := s.front.issued, bits := pageBits s va }
    ({ s with front := { s.front with accesses := s.front.accesses ++ [a] } }).leave

/-- Waits for earlier loads and atomics (R136), for the floor, for earlier accesses to the same bytes (R141), for
footprint edges (R239), and, at a peer, for class 0 to be open (R405, R411). -/
def scalarReady (s : State) (ks : List Key) (reads writes : List Range) : Bool :=
  ks.all (fun k => peerOpen s k 0) && loadsOut s.front == 0 && floorMet s && s.front.bcasts.isEmpty
    && s.front.accesses.all (fun a => a.done.isSome || !a.keys.any (fun k => ks.contains k))
    && (s.front.cmds.isEmpty || !edgeHeld s reads writes)

/-- A read of host memory whose completion is awaited (R417). -/
def hostRead (a : Access) : Bool := keyCls a.key == .hm && a.kind != .store

/-- A read or an atomic of host memory is performed when its completion has come back (R417): where owners keep
their own pace, the first turn sends the request, and a later one takes the completion, which may be an
error. -/
def hostAnswer (kind : AccKind) (va : Nat) (ks : List Key) (reads writes : List Range) : M Unit := do
  let s ← get
  if s.pace == .runAhead && keyCls (ks.headD 0) == .hm then
    match s.front.accesses.find? (fun a => hostRead a && a.pc == s.front.pc && a.key == ks.headD 0) with
    | none => do
      waitFor (scalarReady s ks reads writes)
      modify (fun s =>
        let a : Access := { kind := kind, va := BitVec.ofNat 64 va, key := ks.headD 0, size := ks.length, data := 0, stamp := s.stamp,
                            pc := s.front.pc, done := none, wrote := [], acked := false, order := s.front.issued, bits := pageBits s va }
        { s with front := { s.front with accesses := s.front.accesses ++ [a] } })
      waitM
    | some a =>
      if a.done.isNone && !a.acked then waitM
      else do
        modify (fun s => { s with front := { s.front with accesses := s.front.accesses.filter (fun a => !hostRead a) } })
        need a.done.isSome (mkTrap causeDataError 0 0 va)
  else pure ()

/-- The bytes a load reads: RACE, then DATA_ERROR (R152). -/
def scalarRead (pl : Place) (ks : List Key) (va : Nat) : M Nat := do
  let s ← get
  raceCheck s.front.race pl ks false 0 va
  need (!unreadable s ks) (mkTrap causeDataError 0 0 (errorAt ks va))
  modify (fun s => s.touch ks)
  let s ← get
  pure (bytesNat (ks.map (byteAt s s.stamp)))

/-- `ld` (R149, R150). -/
def loadM (sg : Bool) (ord : MemOrder) (w : Width) (sd sa : SReg) (off : BitVec 32) : M Unit := do
  let s ← get
  let va := scalarVa s sa off
  let n := Width.bytes w
  let (pl, ks) ← scalarPlace va n .read (fun _ => true)
  scalarWatch va n true false
  let s ← get
  if mayPost s ks && ord == .plain && loadsOut s.front < 64 && (s.front.cmds.isEmpty || !edgeHeld s (accRange va n) []) then do
    post (.load sg sd) va ks 0
    modify State.done
  else do
    hostAnswer (.load sg sd) va ks (accRange va n) []
    let s ← get
    waitFor (scalarReady s ks (accRange va n) [])
    let v ← scalarRead pl ks va
    modify (fun s => ((s.wr sd (loadValue sg n v)).leave).done)

/-- `st` (R149, R150). A releasing store waits and delivers residuals as a release. The 65th outstanding store waits
(R142). -/
def storeM (ord : MemOrder) (sc : Scope) (w : Width) (sb sa : SReg) (off : BitVec 32) : M Unit := do
  let s ← get
  let va := scalarVa s sa off
  let n := Width.bytes w
  let (pl, ks) ← scalarPlace va n .write (fun _ => true)
  scalarWatch va n false true
  let s ← get
  let data := s.rd sb
  if mayPost s ks && ord == .plain && storesOut s.front < 64 && loadsOut s.front == 0
      && (s.front.cmds.isEmpty || !edgeHeld s [] (accRange va n)) then do
    post .store va ks data
    modify State.done
  else do
    waitFor (storesOut s.front < 64 && scalarReady s ks [] (accRange va n))
    if ord = .rel then releaseM sc (ownerOf s (ks.headD 0)).toList
    let s ← get
    raceCheck s.front.race pl ks true 0 va
    modify fun s =>
      let s := (s.storeAt s.stamp (s.floor < s.stamp) (ks.zip (wordBytes n data.toNat))).leave
      (if ord = .rel then s.nextInterval else s).done

/-- Scalar atomics (R151, R349): `y` is the operand, `x` what `scas` expects. -/
def atomM (o : AtomOp) (a : AtomArgs) : M Unit := do
  let s ← get
  let va := scalarVa s a.sa a.off
  let n := Width.bytes a.w
  let (_, ks) ← scalarPlace va n .both (atomPlaceOk o)
  scalarWatch va n true true
  hostAnswer (.atom a.sg a.sd) va ks (accRange va n) (accRange va n)
  let s ← get
  waitFor (scalarReady s ks (accRange va n) (accRange va n))
  if a.ord = .rel then releaseM a.sc (ownerOf s (ks.headD 0)).toList
  let s ← get
  let old ← doAtom o (AtomOp.sub o) (scalarEye s) (s.floor < s.stamp) ks va (lowN (8 * n) (s.rd a.sb)) (lowN (8 * n) (s.rd a.sd))
  modify fun s =>
    let s := (s.wr a.sd (loadValue a.sg n old)).leave
    (if a.ord = .rel then s.nextInterval else s).done

def execLd (sg : Bool) (ord : MemOrder) (_sc : Scope) (w : Width) (sd sa : SReg) (off : BitVec 32) (s : State) : Out :=
  frontM (loadM sg ord w sd sa off) s

def execSt (ord : MemOrder) (sc : Scope) (w : Width) (sb sa : SReg) (off : BitVec 32) (s : State) : Out :=
  frontM (storeM ord sc w sb sa off) s

def execScas (a : AtomArgs) (s : State) : Out := frontM (atomM .cas a) s
def execSamoAdd (a : AtomArgs) (s : State) : Out := frontM (atomM .add a) s
def execSamoAnd (a : AtomArgs) (s : State) : Out := frontM (atomM .and_ a) s
def execSamoOr (a : AtomArgs) (s : State) : Out := frontM (atomM .or_ a) s
def execSamoXor (a : AtomArgs) (s : State) : Out := frontM (atomM .xor_ a) s
def execSamoMin (a : AtomArgs) (s : State) : Out := frontM (atomM .min_ a) s
def execSamoMax (a : AtomArgs) (s : State) : Out := frontM (atomM .max_ a) s
def execSamoMinn (a : AtomArgs) (s : State) : Out := frontM (atomM .minn a) s
def execSamoMaxn (a : AtomArgs) (s : State) : Out := frontM (atomM .maxn a) s
def execSamoSwap (a : AtomArgs) (s : State) : Out := frontM (atomM .swap a) s

end Sys2Proof.Machine
end

