-- ==== Sys2Proof/Machine/Sync.lean ====
section
/-! DEFINITION. Fences, sync blocks, groups and hardware queues (spec/16_ordering.md, spec/05_streams.md). -/

namespace Sys2Proof.Machine

/-! ### Blocks at their homes -/

/-- The place of a block of `n` bytes: ALIGN, XLATE_MISSING, XLATE_PERM, PLACEMENT outside bank and stack memory
(R130, R321). Every instruction at a block needs R and W on its page, also one that writes nothing there (DESIGN
CHOICE, log entry 73). -/
def blockPlace (va n : Nat) : M (List Key) := do
  if va % n ≠ 0 then trapM (mkTrap causeAlign 0 0 va)
  else
    let s ← get
    let pl ← xlate (seqAgent s.front) va .both 0
    let c := pteCls pl.leaf
    need (c == .bm || c == .sm) (mkTrap causePlacement 0 0 va)
    keysM pl va n 0

/-- Accesses of the stream to the bytes that are under way go first (R141): an `srel` in flight to the block is one. -/
def blockFree (ks : List Key) : M Unit := do
  let s ← get
  waitFor (s.front.accesses.all (fun a => a.done.isSome || !a.keys.any (fun k => ks.contains k)))

/-- What a sync operation reads of a block: FLAG, and CLOCK when EN is 1 (R319, R321, R322). -/
def syncKeys (s : State) (ks : List Key) : List Key := ks.take 8 ++ (if s.front.csr.raceEn then ks.drop 512 else [])

/-- DATA_ERROR where words that a home reads of a block are uncorrectable (R143). -/
def blockSound (ks : List Key) (va : Nat) : M Unit := do
  let s ← get
  need (!unreadable s ks) (mkTrap causeDataError 0 0 (errorAt ks va))

/-- The stream waits at the block, once (R130, R322). -/
def waitAtBlock {α : Type} (k : Key) (word : Word) : M α := do
  modify (fun s =>
    if s.waiters.any (fun w => w.sid == s.front.sid) then s
    else { s with waiters := s.waiters ++ [{ block := k, sid := s.front.sid, word := word }] })
  waitM

/-- The stream no longer waits. -/
def leaveBlock : M Unit := modify (fun s => { s with waiters := s.waiters.filter (fun w => w.sid != s.front.sid) })

/-! ### srel and sacq (R321, R322) -/

/-- Takes FLAG and the clock record once FLAG has reached the threshold. -/
def sacqM (sd sa sb : SReg) (sc : Scope) : M Unit := do
  let s ← get
  waitFor (loadsOut s.front == 0)
  let va := (s.rd sa).toNat
  let ks ← blockPlace va 1024
  blockSound (syncKeys s ks) va
  blockFree ks
  let s ← get
  let k := ks.headD 0
  let flag := blockWord s ks 0
  let short := decide (flag < (s.rd sb).toNat)
  let _ ← admitOp 1 1 (objMem k) (fun _ => true) (some flag) 0 (fun _ => short)
  if short then waitAtBlock k (wordOf (.sacq sd sa sb sc))
  else
    leaveBlock
    modify fun s =>
      let s := record s 1 1 (objMem k) flag 0
      let s := if s.front.csr.raceEn then { s with front := s.front.acquire (blockClock s ks) } else s
      ((s.wr sd (BitVec.ofNat 64 flag)).leave).done

/-- The clock that a release carries: V, under EN (R321). -/
def relClock (f : Front) : Option (List (Nat × Nat)) := if f.csr.raceEn then some f.clock else none

/-- An `srel` may leave the front and be in flight: owners keep their own pace and the log imposes no order (R321,
R370). A block in bytes that do not follow each other at one owner is operated on at once. -/
def mayFly (s : State) (ks : List Key) : Bool :=
  s.pace == .runAhead && !s.front.stopWin && s.front.logMode != 2 && ks == keysFrom (ks.headD 0) ks.length

/-- Adds to FLAG and joins the clock record, at once or in flight. -/
def srelM (sd sa : SReg) (sc : Scope) (imm : BitVec 31) : M Key := do
  let s ← get
  waitFor (loadsOut s.front == 0)
  let va := (s.rd sa).toNat
  let ks ← blockPlace va 1024
  let k := ks.headD 0
  releaseM sc (ownerOf s k).toList
  blockSound (syncKeys s ks) va
  let s ← get
  let inc := (imm.signExtend 64).toNat
  if mayFly s ks then
    modify fun s =>
      let a : Access := { kind := .rel sd, va := BitVec.ofNat 64 va, key := k, size := 1024, data := BitVec.ofNat 64 inc, stamp := s.stamp,
                          pc := s.front.pc, done := none, wrote := [], acked := false, clock := relClock s.front, bits := pageBits s va }
      ((({ s with front := { s.front with accesses := s.front.accesses ++ [a] } }).leave).nextInterval).done
  else
    let _ ← admitOp 1 0 (objMem k) (fun _ => true) (some (blockWord s ks 0))
    modify fun s =>
      let (s, old) := relAtHome s s.stamp ks inc (relClock s.front)
      (((s.wr sd (BitVec.ofNat 64 old)).leave).nextInterval).done
  pure k

/-! ### Queues (R128 to R131) -/

/-- Queue operations. -/
inductive QOp where
  | push (sb : SReg)
  | pop (sb : SReg)
  | drain (discard : Bool)
  deriving DecidableEq, Repr

/-- SUB of the QOP record (R359). -/
def QOp.sub : QOp → Nat
  | .push _ => 0
  | .pop _ => 1
  | .drain false => 2
  | .drain true => 3

/-- A queue block as it stands. -/
structure QBlock where
  head : Nat
  tail : Nat
  ring : Nat
  size : Nat

/-- The fields of a block, and whether they keep R128. -/
def queueBlock (s : State) (ks : List Key) : QBlock × Bool :=
  let w (i : Nat) : Nat := blockWord s ks i
  ({ head := w 0, tail := w 1, ring := w 2, size := w 3 % 32 },
   3 ≤ w 3 && w 3 ≤ 20 && w 2 % 8 == 0 && w 4 == 0 && w 5 == 0 && w 6 == 0 && w 7 == 0)

def QBlock.used (q : QBlock) : Nat := (q.tail + 2 ^ 64 - q.head) % 2 ^ 64

/-- Address of entry `c`. -/
def QBlock.entry (q : QBlock) (c : Nat) : Nat := (q.ring + 8 * (c % 2 ^ q.size)) % 2 ^ 64

/-- A pop waits at the block. -/
def popWaits (s : State) (k : Key) : Bool :=
  s.waiters.any (fun w => w.block == k && (match instrOf w.word with
    | some (.qpop _ _ _ _) => true
    | _ => false))

/-- Whether the operation cannot be performed yet. -/
def QOp.held (o : QOp) (s : State) (k : Key) (q : QBlock) : Bool :=
  match o with
  | .push _ => q.used == 2 ^ q.size
  | .pop _ => q.used == 0
  | .drain false => q.used != 0 || popWaits s k
  | .drain true => false

/-- Keys of the entry the operation names, with its faults (R130). -/
def QOp.place (o : QOp) (q : QBlock) : M (List Key) := do
  let s ← get
  let at_ (c : Nat) (p : Perm) : M (List Key) := do
    let pl ← xlate (seqAgent s.front) (q.entry c) p 0
    keysM pl (q.entry c) 8 0
  match o with
  | .push _ => at_ q.tail .write
  | .pop _ => at_ q.head .read
  | .drain _ => pure []

/-- What the operation returns (R129), as its record names it. -/
def QOp.result (o : QOp) (q : QBlock) : Nat :=
  match o with
  | .push _ => q.tail
  | .pop _ => q.head
  | .drain false => q.tail
  | .drain true => q.used

/-- The pusher of entry `c` (R324, R362). -/
def pusherOf (s : State) (k : Key) (c : Nat) : Option Pushed := s.pushed.find? (fun p => p.block == k && p.index.toNat == c)

/-- A register takes the entry and another HEAD; the same register takes either (R129). -/
def popRegs (s : State) (sd sb : SReg) (entry head : Nat) : State :=
  let e := BitVec.ofNat 64 entry
  let h := BitVec.ofNat 64 head
  if sd = sb then
    let t := { s with drawn := s.drawn + 1 }
    t.wr sd (if Config.popPick s.drawn then h else e)
  else (s.wr sd e).wr sb h

/-- The effect at the home (R129, R130). -/
def QOp.perform (o : QOp) (ks es : List Key) (q : QBlock) (sd : SReg) (s : State) : State :=
  let k := ks.headD 0
  match o with
  | .push sb =>
    let v := (s.rd sb).toNat
    let s := record s 3 0 (objMem k) q.tail v
    let s := putBlock (s.storeAt s.stamp false (es.zip (wordBytes 8 v))) s.stamp ks 1 ((q.tail + 1) % 2 ^ 64)
    let me : Pushed := { block := k, index := BitVec.ofNat 64 q.tail, sid := s.front.sid, ivl := if s.front.csr.raceEn then s.front.csr.ivl else 0 }
    ({ s with pushed := me :: s.pushed.filter (fun p => !(p.block == k && p.index == me.index)) }.wr sd (BitVec.ofNat 64 q.tail)).nextInterval
  | .pop sb =>
    let v := bytesNat (s.mem.gets es)
    let by_ := pusherOf s k q.head
    let s := record s 3 1 (objMem k) q.head ((by_.map (·.sid.toNat)).getD 0)
    let s := putBlock s s.stamp ks 0 ((q.head + 1) % 2 ^ 64)
    let s := match by_ with
      | some p => { s with
          front := s.front.acquire (if p.ivl = 0 then [] else [(p.sid.toNat % 256, p.ivl.toNat)])
          pushed := s.pushed.filter (fun x => !(x.block == k && x.index == p.index)) }
      | none => s
    popRegs s sd sb v q.head
  | .drain false => (record s 3 2 (objMem k) q.tail 0).wr sd (BitVec.ofNat 64 q.tail)
  | .drain true =>
    let s := record s 3 3 (objMem k) q.used 0
    let s := { s with pushed := s.pushed.filter (fun p => p.block != k) }
    (putBlock s s.stamp ks 0 q.tail).wr sd (BitVec.ofNat 64 q.used)

/-- A queue instruction; the key of the block comes back once it has been performed. DATA_ERROR of the block comes
after PLACEMENT and before code 4, that of the entry when a pop reads it (DESIGN CHOICE, log entry 73). -/
def queueM (o : QOp) (i : Instr) (sd sa : SReg) (sc : Scope) : M Key := do
  let s ← get
  waitFor (loadsOut s.front == 0)
  let va := (s.rd sa).toNat
  let ks ← blockPlace va 64
  blockSound ks va
  blockFree ks
  let s ← get
  let (q, ok) := queueBlock s ks
  need ok (operandTrap 4)
  let es ← o.place q
  match o with
  | .push _ => releaseM sc (ownerOf s (ks.headD 0)).toList
  | .pop _ => do
    let t ← get
    need (o.held t (ks.headD 0) q || !unreadable t es) (mkTrap causeDataError 0 0 (q.entry q.head / 32 * 32))
  | .drain _ => pure ()
  let s ← get
  let k := ks.headD 0
  let held := o.held s k q
  let _ ← admitOp 3 o.sub (objMem k) (fun _ => true) (some (o.result q)) 0 (fun _ => held)
    (fun r => match o with
      | .pop _ => fld 0 16 r.b.toNat == ((pusherOf s k q.head).map (·.sid.toNat)).getD 0
      | _ => true)
  if held then waitAtBlock k (wordOf i)
  else
    leaveBlock
    modify (fun s => ((o.perform ks es q sd s).leave).done)
    pure k

/-! ### A home goes on with those that wait -/

/-- The operation a waiter waits in. -/
def waiterM (w : Waiter) : M Unit :=
  match instrOf w.word with
  | some (.sacq sd sa sb sc) => sacqM sd sa sb sc
  | some (.qpush sd sa sb sc) => do let _ ← queueM (.push sb) (.qpush sd sa sb sc) sd sa sc
  | some (.qpop sd sa sb sc) => do let _ ← queueM (.pop sb) (.qpop sd sa sb sc) sd sa sc
  | some (.qdrainWait sd sa sc) => do let _ ← queueM (.drain false) (.qdrainWait sd sa sc) sd sa sc
  | _ => pure ()

/-- One waiter tries its operation in its own stream; a fault is taken there. -/
def tryWaiter (s : State) (w : Waiter) : State :=
  s.onStream w.sid (fun s => match frontM (waiterM w) s with
    | .next t => t
    | _ => s)

/-- Tries waiters in order of arrival until one has gone. -/
def firstReady : List Waiter → State → State × Bool
  | [], s => (s, false)
  | w :: r, s =>
    let t := tryWaiter s w
    if t.waiters.any (fun x => x.sid == w.sid) then firstReady r t else (t, true)

/-- The home admits the waiters of a block, first come first served, as long as one can go (R130, R322). -/
def wakeBlock : Nat → Key → State → State
  | 0, _, s => s
  | n + 1, k, s =>
    let (t, gone) := firstReady (s.waiters.filter (fun w => w.block == k)) s
    if gone then wakeBlock n k t else t

/-- An operation of the front at a block, after which the home looks at those that wait there. -/
def homeOp (m : M Key) (s : State) : Out :=
  match M.exec m s with
  | (.ok k, s) => .next (wakeBlock (s.waiters.length + 1) k s)
  | (.error (.trap t), s) => trapHere t s
  | (.error _, s) => .next s

/-- A stream that already waits at a home leaves it to the home to go on; else `m` runs. -/
def unlessWaiting (m : State → Out) (s : State) : Out :=
  match s.waiters.find? (fun w => w.sid == s.front.sid) with
  | some w => .next (wakeBlock (s.waiters.length + 1) w.block s)
  | none => m s

/-- `fence` waits as a release does (R323), and is one of the releases of R324 that raise the interval (log entry 9). -/
def execFence (sc : Scope) (s : State) : Out :=
  frontM (do
    let s ← get
    waitFor (loadsOut s.front == 0)
    releaseM sc []
    modify (fun s => s.nextInterval.done)) s

def execSrel (sd sa : SReg) (sc : Scope) (imm : BitVec 31) (s : State) : Out := homeOp (srelM sd sa sc imm) s

def execSacq (sd sa sb : SReg) (sc : Scope) (s : State) : Out :=
  unlessWaiting (frontM (sacqM sd sa sb sc)) s

def execQpush (sd sa sb : SReg) (sc : Scope) (s : State) : Out :=
  unlessWaiting (homeOp (queueM (.push sb) (.qpush sd sa sb sc) sd sa sc)) s

def execQpop (sd sa sb : SReg) (sc : Scope) (s : State) : Out :=
  unlessWaiting (homeOp (queueM (.pop sb) (.qpop sd sa sb sc) sd sa sc)) s

def execQdrainWait (sd sa : SReg) (sc : Scope) (s : State) : Out :=
  unlessWaiting (homeOp (queueM (.drain false) (.qdrainWait sd sa sc) sd sa sc)) s

def execQdrainDiscard (sd sa : SReg) (sc : Scope) (s : State) : Out :=
  homeOp (queueM (.drain true) (.qdrainDiscard sd sa sc) sd sa sc) s

/-! ### Groups (R124 to R127) -/

/-- g = s[SA] + sext(IMM31); ILLEGAL_OPERAND with TINFO[7:4] = 1 beyond 1,023 (R126). -/
def groupNum (sa : SReg) (imm : BitVec 31) : M (BitVec 10) := do
  let s ← get
  let g := (s.rd sa + imm.signExtend 64).toNat
  need (g < 1024) (operandTrap 1)
  pure (BitVec.ofNat 10 g)

/-- SD receives the members counted and pending. -/
def groupSize (sd : SReg) (g : BitVec 10) : M Unit :=
  modify (fun s => (s.wr sd (BitVec.ofNat 64 (s.group g).size)).done)

def hasSlot (f : Front) : Bool := f.grps.toList.any (fun x => !slotValid x)

def gjoinM (sd sa : SReg) (imm : BitVec 31) : M Unit := do
  let g ← groupNum sa imm
  let s ← get
  let r := s.group g
  if r.member s.front.sid then groupSize sd g
  else
    need (hasSlot s.front && r.size < 256) (operandTrap 2)
    let n := r.arrived.length
    let _ ← admitOp 4 (if n = 0 then 0 else 1) (objGroup g.toNat) (fun q => q.a == r.episode && fld 0 16 q.b.toNat == n) none 0
      (fun q => q.a == r.episode && n < fld 0 16 q.b.toNat)
    modify (fun s => joinGroup s g)
    groupSize sd g

def gleaveM (sd sa : SReg) (imm : BitVec 31) : M Unit := do
  let g ← groupNum sa imm
  let s ← get
  if (s.group g).member s.front.sid then
    admitLeave g
    modify (fun s => leaveGroup s g)
    groupSize sd g
  else groupSize sd g

/-- The group's next MEMB record names the open episode with at most the arrivals now held (R369): an arrival
waits for that join or leave. -/
def membFirst (s : State) (g : BitVec 10) : Bool :=
  match s.myLog with
  | none => false
  | some c =>
    let r := s.group g
    c.replay && (match ((windowOf (readHead s c)).map (recordAt s c)).find? (fun q => q.obj.toNat == objGroup g.toNat && q.type == 4) with
      | some q => q.a == r.episode && fld 0 16 q.b.toNat ≤ r.arrived.length
      | none => false)

/-- The record of an episode that a context of the stream has not yet given an index (R363). -/
def episodeHeld (s : State) (g : BitVec 10) : Bool :=
  s.front.logMode == 1 && (match s.logCtx s.front.logId with
    | some c => c.held.any (fun r => r.type == 1 && r.sub == 2 && r.obj.toNat == objGroup g.toNat)
    | none => false)

/-- Number of the completed episode that the stream has not yet taken. -/
def releasedAt (s : State) (g : BitVec 10) : Option Word := ((s.group g).released.find? (fun p => p.1 == s.front.sid)).map (·.2)

/-- The stream takes the number of its completed episode. -/
def takeEpisode (sd : SReg) (g : BitVec 10) : M Unit := do
  let s ← get
  match releasedAt s g with
  | none => waitM
  | some e =>
    waitFor (!episodeHeld s g)
    modify fun s =>
      let r := s.group g
      let s := s.setGroup { r with released := r.released.filter (fun p => p.1 != s.front.sid) }
      (s.wr sd e).done

/-- Arrival: the clock record is joined and the interval raised (R324, R329). -/
def arrive (s : State) (g : BitVec 10) : State :=
  let r := s.group g
  let r := { r with arrived := r.arrived ++ [s.front.sid], clock := if s.front.csr.raceEn then clockJoin r.clock s.front.clock else r.clock }
  completeEpisode s.nextInterval r

def gbarM (sd sa : SReg) (sc : Scope) (imm : BitVec 31) : M Unit := do
  let g ← groupNum sa imm
  let s ← get
  let r := s.group g
  let sid := s.front.sid
  if (releasedAt s g).isSome then takeEpisode sd g
  else
    need (r.member sid) (operandTrap 3)
    waitFor (loadsOut s.front == 0)
    modify (fun s => { s with front := { s.front with atGroup := some g } })
    if r.arrived.contains sid || r.pending.contains sid then
      if r.met && r.arrived.contains sid then admitEpisode (objGroup g.toNat) r.episode.toNat r.arrived.length
      modify (fun s => completeEpisode s (s.group g))
      takeEpisode sd g
    else
      releaseM sc []
      let s ← get
      if membFirst s g then waitAt (objGroup g.toNat)
      else
        let n := r.arrived.length + 1
        if wouldComplete r.counted.length n then admitEpisode (objGroup g.toNat) r.episode.toNat n
        modify (fun s => arrive s g)
        takeEpisode sd g

def execGjoin (sd sa : SReg) (imm : BitVec 31) (s : State) : Out := frontM (gjoinM sd sa imm) s
def execGleave (sd sa : SReg) (imm : BitVec 31) (s : State) : Out := frontM (gleaveM sd sa imm) s
def execGbar (sd sa : SReg) (sc : Scope) (imm : BitVec 31) (s : State) : Out := frontM (gbarM sd sa sc imm) s

/-- A wait of the stream that a home has already satisfied: its barrier has completed. The stop lands after
it (R127). -/
def waitSatisfied (s : State) : Bool := s.groups.any (fun g => g.released.any (fun p => p.1 == s.front.sid))

end Sys2Proof.Machine
end

