-- ==== Sys2Proof/Machine/Logging.lean ====
section
/-! DEFINITION. `logctl`, `logmark`, `logsync`, and the steps of the log writer and the replay engine
(spec/19_order_log.md). -/

namespace Sys2Proof.Machine

/-! ### logctl (R373) -/

/-- SD receives LOGC as it then stands. -/
def giveLogc (sd : SReg) (s : State) : State := (s.wr sd (logcOf s s.front)).done

/-- The context of a stream that has one, or ILLEGAL_OPERAND with TINFO[11:8] = 13. -/
def needLog : M LogCtx := do
  let s ← get
  match s.myLog with
  | some c => pure c
  | none => trapM (operandTrapHi 13)

/-- CTL in the block takes a field. -/
def putCtl (s : State) (c : LogCtx) (lo len v : Nat) : State :=
  let x := s.num (c.block + 32) 8
  s.putNum (c.block + 32) 8 (x - at_ lo (fld lo len x) + at_ lo (v % 2 ^ len))

def execLogctlStatus (sd _sa : SReg) (s : State) : Out := .next (giveLogc sd s)

def execLogctlPolicy (sd sa : SReg) (s : State) : Out :=
  frontM (do
    let c ← needLog
    modify (fun s =>
      let gap := (s.rd sa).getLsbD 0
      giveLogc sd (putCtl (s.setLog { c with policyGap := gap }) c 0 1 (boolNat gap)))) s

def execLogctlBudget (sd sa : SReg) (s : State) : Out :=
  frontM (do
    let c ← needLog
    let v := fld 0 5 (s.rd sa).toNat
    need (10 ≤ v) (operandTrapHi 13)
    modify (fun s => giveLogc sd (putCtl (s.setLog { c with budget := BitVec.ofNat 5 v }) c 2 5 v))) s

/-! ### logmark, logsync (R374, R375) -/

/-- Every earlier recorded operation of the stream has completed. -/
def recordedDone (s : State) : Bool :=
  accessesDone s && !s.front.bcasts.any (fun b => ((infoOfWord b.word).map (·.fencing)).getD false) && !replyHeld s s.front

/-- `logmark`: the record's index, or all ones without a context. A record that waits at the writer gives its index
when it has one, and the stream waits for it. -/
def logmarkM (sd sa : SReg) (imm : BitVec 31) : M Unit := do
  let s ← get
  waitFor (recordedDone s)
  let a := s.rd sa
  let sub := fld 0 1 imm.toNat
  let obj := objStream s.front.sid (fld 1 30 imm.toNat)
  match s.myLog with
  | none => modify (fun s => (s.wr sd (BitVec.allOnes 64)).done)
  | some c =>
    let i ← admitOp 7 sub obj (fun r => r.obj.toNat == obj && r.a == a) none
    if c.replay then modify (fun s => (s.wr sd (i.getD (BitVec.allOnes 64))).done)
    else
      modify (fun s =>
        let r : LogRec := { type := 7, sub := BitVec.ofNat 4 sub, sid := s.front.sid, obj := BitVec.ofNat 64 obj, a := a, b := BitVec.ofNat 64 s.isn, reply := sd }
        let (s, c, i) := writerTake s c r
        (i.elim (s.setLog c) (s.setLog c |>.wr sd ·)).done)

def execLogmark (sd sa : SReg) (imm : BitVec 31) (s : State) : Out := frontM (logmarkM sd sa imm) s

/-- `logsync`: HEAD, or TAIL; 0 without a context. The writer writes a record as it gives it its index, so every record
given one so far is written. -/
def logsyncM (sd : SReg) : M Unit := do
  let s ← get
  if !recordedDone s then
    setTlbOp .waiting
    waitM
  match s.myLog with
  | none => modify (fun s => (s.wr sd 0).done)
  | some c =>
    if c.replay then modify (fun s => ((s.putTail c).wr sd c.tail).done)
    else modify (fun s => ((s.putHead c).wr sd c.head).done)

def execLogsync (sd : SReg) (s : State) : Out := frontM (logsyncM sd) s

/-! ### The writer (R363 to R365) -/

/-- The writer gives its first waiting record an index, when it can. -/
def writerStep (s : State) (c : LogCtx) : State :=
  match c.held with
  | [] => s
  | r :: rs =>
    match giveIndex s c r with
    | (s, c, none) => s.setLog c
    | (s, c, some i) =>
      let s := replyIndex s r i
      let c := { c with held := rs, stalled := !rs.isEmpty }
      (if rs.isEmpty then s.putStat c else s).putLog c

def execLogRecord (ctx : BitVec 16) (s : State) : Out :=
  .next (match s.logCtx ctx with
    | some c => if c.replay then s else writerStep s c
    | none => s)

def execLogTailPoll (ctx : BitVec 16) (s : State) : Out := .next (logPoll s ctx)

/-! ### The replay engine (R368, R370) -/

/-- A GAP record at TAIL stops the engine; else consumed records are passed and TAIL is written. -/
def replayStep (s : State) (c : LogCtx) : State :=
  let c := if c.tail = c.headSeen then readHead s c else c
  if c.tail ≠ c.headSeen ∧ !c.stopped ∧ (recordAt s c c.tail).type = 6 then markDiverged s c c.tail
  else
    let (s, c) := advanceTail (c.consumed.length + 1) s c
    s.setLog c

def execReplayConsume (ctx : BitVec 16) (s : State) : Out :=
  .next (match s.logCtx ctx with
    | some c => if c.replay then replayStep s c else s
    | none => s)

def execReplayHeadPoll (ctx : BitVec 16) (s : State) : Out :=
  .next (match s.logCtx ctx with
    | some c => if c.replay then s.setLog (readHead s c) else s
    | none => s)

/-- Some stream of the context is pre-empted, or halted by a debugger: no cycle counts toward a budget (R371). -/
def budgetRests (s : State) (c : LogCtx) : Bool :=
  s.streams.any (fun f => f.status != .idle && f.logMode != 0 && f.logId == c.id && (f.status == .out || f.halted))

/-- The lowest element of a `vamo` in phase 2 that waits at its place for its record, and the object it waits at. -/
def waitingElem (s : State) : Option (Bcast × Item × Word) :=
  match s.front.bcasts with
  | [] => none
  | b :: _ =>
    match infoOfWord b.word with
    | none => none
    | some info =>
      if !info.body.apart || b.leaves.isEmpty then none
      else
        match (M.exec (info.body.plan (eyeOf s b) none b) s).1 with
        | .error _ => none
        | .ok items => (restItems s b items).findSome? (fun it =>
            match M.exec (it.run b) { s with front := { s.front with waitObj := none } } with
            | (.error _, t) => t.front.waitObj.map (fun o => (b, it, o))
            | (.ok _, _) => none)

/-- Index and TYPE of the record that an object's next operation needs. -/
def wantedRec (s : State) (c : LogCtx) (o : Word) : Word × Nat :=
  match nextFor s c o with
  | some (i, r) => (i, r.type.toNat)
  | none => (c.headSeen, 0)

/-- An element of a `vamo` has waited beyond the budget: it is given up, and the others go on (R370). -/
def elemOut (s : State) (c : LogCtx) (b : Bcast) (it : Item) (o : Word) : State :=
  let (i, ty) := wantedRec s c o
  let s := if c.stopped then s else markDiverged s c i
  let s := { s with front := { s.front with works := s.front.works.map (fun w =>
    if w.own == frontOwn && w.isn == b.isn then { w with todo := w.todo.erase it.no } else w) } }
  (M.exec (noteLate (divergeTrap 2 ty i it.elem)) s).2

/-- REPLAY_DIVERGE with cause 2 at the stream whose turn it is: its operation has waited beyond the budget (R370). A
stream that has ended raises nothing more; its leave goes on without order. -/
def budgetOut (s : State) : State :=
  match s.myLog with
  | none => s
  | some c =>
    if !c.replay || budgetRests s c then s
    else
      match waitingElem s, s.front.waitObj with
      | some (b, it, o), _ => elemOut s c b it o
      | none, none => s
      | none, some o =>
        let (i, ty) := wantedRec s c o
        let t := if c.stopped then s else markDiverged s c i
        let t := { t with front := { t.front with waitObj := none } }
        if t.front.retiring then retireFront (match (myGroups t.front).head? with
          | some g => leaveGroup t g
          | none => t)
        else
          match settleStop t (divergeTrap 2 ty i) t.front.pc with
          | .stopped t x pc => deliver t x pc
          | .waits _ => s

def execReplayBudgetExpiry (sid : BitVec 16) (s : State) : Out := .next (s.onStream sid budgetOut)

end Sys2Proof.Machine
end

