-- ==== Sys2Proof/Machine/Owners.lean ====
section
/-! DEFINITION. What banks and channel engines know of a stream's broadcasts and have still to perform (spec/08_banks.md),
and the hand-over of elements whose owner a migration changes (R312). -/

namespace Sys2Proof.Machine

/-! ### What an owner knows (R188 to R190) -/

/-- Last ISN an owner has retired for the stream, and the floor last delivered to it. -/
def retiredOf (s : State) (own : Nat) : Nat := ((s.front.progress.find? (fun p => p.own == own)).map (·.retired)).getD s.floor
def floorAt (s : State) (own : Nat) : Nat := ((s.front.progress.find? (fun p => p.own == own)).map (·.floor)).getD s.floor

def setRetired (s : State) (own n : Nat) : State :=
  let p : Progress := { own := own, retired := n, floor := floorAt s own }
  { s with front := { s.front with progress := p :: s.front.progress.filter (fun q => q.own != own) } }

/-- Every scalar access stamped `n` or less that belongs to an owner has been performed there (R139, R189). -/
def accessesAt (s : State) (own n : Nat) : Bool :=
  s.front.accesses.all (fun a => a.done.isSome || n < a.stamp || ownerOf s a.key != some own)

/-- The stream runs and its owners keep their own pace. -/
def paced (s : State) : Bool := s.front.status == .running && s.pace == .runAhead

/-- Broadcasts that the front's own turn performs: the fencing and the matrix ones. -/
def frontDriven (w : Word) : Bool :=
  match instrOf w with
  | some i => isMatrix i || ((infoOf i).map (·.fencing)).getD false
  | none => true

/-- The broadcast with an ISN, when its owners perform it by themselves. -/
def bcastAt (s : State) (n : Nat) : Option (Bcast × BInfo) :=
  match s.front.bcasts.find? (fun b => b.isn == n) with
  | none => none
  | some b => if frontDriven b.word then none else (infoOfWord b.word).map (fun i => (b, i))

/-! ### What is left to perform -/

/-- Owners of the items of the stream's broadcasts, as places now stand: ISN, item, owner. -/
def itemOwners (s : State) : List (Nat × Nat × Nat) :=
  s.front.bcasts.flatMap (fun b =>
    match bcastAt s b.isn with
    | none => []
    | some (b, info) =>
      match (M.exec (info.body.plan (eyeOf s b) none b) s).1 with
      | .error _ => []
      | .ok items => (startItems b items).filterMap (fun it =>
        match (M.exec (it.own b) s).1 with
        | .ok (some o) => some (b.isn, it.no, o)
        | _ => none))

/-- Those still to perform. -/
def itemsLeft (s : State) : List (Nat × Nat × Nat) :=
  (itemOwners s).filter (fun x => (s.front.bcasts.find? (fun b => b.isn == x.1)).any (fun b => !itemDone s b x.2.2 x.2.1))

/-- An item becomes an owner's to perform. An owner that has retired the instruction has it open again, with nothing
else left to do of it or of those after it. -/
def giveItem (s : State) (own isn no : Nat) : State :=
  match s.front.works.find? (fun w => w.own == own && w.isn == isn) with
  | some w => setWork s { w with todo := w.todo ++ [no] }
  | none =>
    let r := retiredOf s own
    if r < isn then s
    else
      let later := (List.range (r - isn)).map (fun j => ({ own := own, isn := isn + 1 + j, todo := [], bufs := [] } : Work))
      let s := { s with front := { s.front with works := s.front.works ++ later } }
      setRetired (setWork s { own := own, isn := isn, todo := [no], bufs := [] }) own (isn - 1)

/-- Elements that had another owner before a page moved are given to the present one (R312). -/
def handOver (before : List (Nat × Nat × Nat)) (s : State) : State :=
  let now := itemOwners s
  before.foldl (fun s x =>
    match now.find? (fun y => y.1 == x.1 && y.2.1 == x.2.1) with
    | some y => if y.2.2 = x.2.2 then s else giveItem s y.2.2 x.1 x.2.1
    | none => s) s

/-! ### Drain (R311) -/

/-- A broadcast may write a page that is in a migration table. -/
def writesMoving (s : State) (b : Bcast) (info : BInfo) : Bool :=
  s.migrating.any (fun m => m.asid == s.front.asid &&
    (info.dests.flatMap (fun k => winRange (b.carry.win k).d b.carry.vl.toNat ++ winRange (b.carry.win k).scl b.carry.vl.toNat)).any
      (fun r => r.lo < m.base + 2 ^ m.bits && m.base < r.hi))

/-- A store to a page that is in a migration table: it waits for the floor, and no owner waits for it to retire its
stamp (DEDUCED, log entry 83). -/
def drained (s : State) (a : Access) : Bool := a.kind == .store && pageMoving s s.front.asid a.va.toNat

/-- Every scalar access stamped `n` or less that an owner waits for has been performed there (R189). -/
def owedAt (s : State) (own n : Nat) : Bool :=
  s.front.accesses.all (fun a => a.done.isSome || n < a.stamp || ownerOf s a.key != some own || drained s a)

/-! ### Acknowledgements (R307, R308) -/

/-- A shoot-down names the page of 2^bits bytes that holds an address. -/
def namesPage (va len a bits : Nat) : Bool := named va len (a / 2 ^ bits * 2 ^ bits) bits

/-- Every agent reached has acknowledged a shoot-down: no scalar access, pull or accumulate of a stream of the space
that uses a matching translation is under way, and no fencing instruction between its phases. A pull that its owner has
refused has been translated and not been served (R308). -/
def acked (s : State) (reach : Nat → Bool) (asid : BitVec 12) (va len : Nat) : Bool :=
  s.streams.all (fun f =>
    f.status == .idle || f.asid != asid
      || (f.accesses.all (fun a => a.done.isSome || !reach (seqAgent f) || !namesPage va len a.va.toNat a.bits)
          && f.pulls.all (fun p => p.phase.served || !reach p.from_ || !named va len p.base p.bits)
          && !(s.msgs ++ s.homeQ).any (fun m => m.sid == f.sid)
          && !f.bcasts.any (fun b => frontDriven b.word && b.leaves != [])))

end Sys2Proof.Machine
end

