-- ==== Sys2Proof/Machine/Control.lean ====
section
/-! DEFINITION. Control and status registers (R66, R155), `wait` and `halt`, windows, `setvl`, `strip` and
`ownq` (spec/06_scalar.md, spec/07_windows.md, spec/08_banks.md). -/

namespace Sys2Proof.Machine

/-! ### Reading registers -/

def Watch.mask (w : Watch) : Nat := w.len.toNat + at_ 16 w.bmask.toNat

/-- Maps defined in the stream's domain, as MAPV (R116). -/
def mapv (f : Front) : Nat := ((List.range 16).filter (fun m => (mapOf f m).isSome)).foldl (fun a m => a + 2 ^ m) 0

def sidReg (f : Front) : Nat := f.sid.toNat + at_ 16 f.lidx.toNat + at_ 20 f.lcnt.toNat + at_ 24 f.cell.toNat + at_ 31 (boolNat f.seq)

def domReg (f : Front) : Nat :=
  f.domBase.toNat + at_ 7 f.domLog.toNat + at_ 10 (boolNat f.plane) + at_ 11 (boolNat f.pair) + at_ 12 (mapv f) + at_ 32 f.domId.toNat

def grpsReg (f : Front) : Nat :=
  (f.grps.get 0).toNat + at_ 16 (f.grps.get 1).toNat + at_ 32 (f.grps.get 2).toNat + at_ 48 (f.grps.get 3).toNat

/-- CNT (R248). -/
def cntNumber : BitVec 12 := 0x021

def cntReg (s : State) : Nat := s.front.cmds.length + at_ 10 (matOut s) + at_ 17 (loadsOut s.front) + at_ 24 (storesOut s.front)

def causeReg (f : Front) : Nat :=
  let c := f.csr
  c.cause.toNat + at_ 8 (boolNat c.int) + at_ 16 (boolNat c.mode) + at_ 17 (boolNat c.pmode) + at_ 18 (boolNat c.ie) + at_ 19 (boolNat c.pie)
    + at_ 20 (boolNat f.ppre) + at_ 21 (boolNat f.phost.isSome)

/-- STALLP (R435). -/
def stallReg (f : Front) : Nat :=
  match f.stalls[f.csr.stallIdx.toNat]? with
  | none => 0
  | some p => (match f.csr.stallWord.toNat with
    | 0 => p.cpc.toNat
    | 1 => p.ppc.toNat
    | 2 => p.cycles
    | _ => p.lag.toNat + at_ 32 p.waits.toNat)

/-- The value of a register (R66). -/
def csrNum (s : State) (n : Nat) : Nat :=
  let f := s.front
  let c := f.csr
  if 0x080 ≤ n ∧ n ≤ 0x087 then (c.wp.get (Fin.ofNat 8 (n - 0x080))).base.toNat
  else if 0x088 ≤ n ∧ n ≤ 0x08F then Watch.mask (c.wp.get (Fin.ofNat 8 (n - 0x088)))
  else
    match n with
    | 0x000 => c.vl.toNat
    | 0x001 => c.vfmt.toNat
    | 0x002 => c.vblk.toNat
    | 0x003 => c.vpad.toNat
    | 0x004 => c.estart.toNat
    | 0x005 => c.isn.toNat
    | 0x006 => c.floor.toNat
    | 0x007 => c.skew.toNat
    | 0x010 => c.share.toNat + at_ 8 c.prio.toNat
    | 0x011 => sidReg f
    | 0x012 => domReg f
    | 0x013 => grpsReg f
    | 0x020 => c.ctag.toNat
    | 0x021 => cntReg s
    | 0x030 => c.wdirty.toNat
    | 0x031 => c.wpres.toNat
    | 0x040 => c.rm.toNat + at_ 3 (boolNat c.ftz)
    | 0x041 => c.seed.toNat
    | 0x042 => c.fflags.toNat
    | 0x050 => boolNat c.raceEn + at_ 1 (boolNat c.raceSat) + at_ 8 (slotOf f) + at_ 16 c.ivl.toNat + at_ 32 c.lost.toNat
    | 0x051 => (logcOf s f).toNat
    | 0x060 => causeReg f
    | 0x061 => c.tpc.toNat
    | 0x062 => c.tisn.toNat
    | 0x063 => c.telem.toNat
    | 0x064 => c.taddr.toNat
    | 0x065 => c.tinfo.toNat + at_ 63 (boolNat c.disc)
    | 0x066 => at_ 3 c.tvec.toNat
    | 0x067 => c.tctx.toNat
    | 0x070 => c.wpEn.toNat + at_ 8 c.wpRd.toNat + at_ 16 c.wpWr.toNat
    | 0x090 => boolNat c.stallEn + at_ 1 (boolNat c.stallTrc) + at_ 8 c.stallIdx.toNat + at_ 13 c.stallWord.toNat
    | 0x091 => stallReg f
    | _ => 0

def csrRead (s : State) (n : BitVec 12) : Word := BitVec.ofNat 64 (csrNum s n.toNat)

/-! ### Writing registers (R6, R155) -/

def blkLen (n : Nat) : Bool := n == 1 || n == 16 || n == 32 || n == 64 || n == 128

/-- Changes watchpoint `k`. -/
def setWatch (c : Csrs) (k : Nat) (f : Watch → Watch) : Csrs :=
  { c with wp := c.wp.set (k % 8) (f (c.wp.get (Fin.ofNat 8 k))) (Nat.mod_lt k (by decide)) }

/-- The registers of a stream after a write: read-only and reserved fields keep their values, sticky bits
are only cleared, and a value out of a field's range leaves the field. -/
def csrPut (c : Csrs) (n : Nat) (v : Word) : Csrs :=
  let x := v.toNat
  if 0x080 ≤ n ∧ n ≤ 0x087 then
    setWatch c (n - 0x080) (fun w => { w with base := v.extractLsb' 0 56 })
  else if 0x088 ≤ n ∧ n ≤ 0x08F then
    setWatch c (n - 0x088) (fun w => { w with len := v.extractLsb' 0 12, bmask := v.extractLsb' 16 8 })
  else
    match n with
    | 0x000 => if fld 0 17 x ≤ 65536 then { c with vl := v.extractLsb' 0 17 } else c
    | 0x001 => if (Fmt.ofCode (v.extractLsb' 0 5)).isSome then { c with vfmt := v.extractLsb' 0 5 } else c
    | 0x002 => if blkLen (fld 0 8 x) then { c with vblk := v.extractLsb' 0 8 } else c
    | 0x003 => { c with vpad := v.extractLsb' 0 7 }
    | 0x004 => { c with estart := v.extractLsb' 0 32 }
    | 0x007 => if 1 ≤ fld 0 7 x ∧ fld 0 7 x ≤ 64 then { c with skew := v.extractLsb' 0 7 } else c
    | 0x010 => if fld 0 8 x ≠ 0 then { c with share := v.extractLsb' 0 8 } else c
    | 0x020 => { c with ctag := v.extractLsb' 0 16 }
    | 0x030 => { c with wdirty := v.extractLsb' 0 32 &&& 0xFFFFFFFE }
    | 0x031 => { c with wpres := v.extractLsb' 0 32 &&& 0xFFFFFFFE }
    | 0x040 => { c with rm := if fld 0 3 x < 6 then v.extractLsb' 0 3 else c.rm, ftz := v.getLsbD 3 }
    | 0x041 => { c with seed := v }
    | 0x042 => { c with fflags := c.fflags &&& v.extractLsb' 0 6 }
    | 0x050 => { c with raceEn := v.getLsbD 0, raceSat := c.raceSat && v.getLsbD 1, lost := v.extractLsb' 32 16 }
    | 0x060 => { c with cause := v.extractLsb' 0 8, int := v.getLsbD 8, pmode := v.getLsbD 17, ie := v.getLsbD 18, pie := v.getLsbD 19 }
    | 0x061 => { c with tpc := v }
    | 0x062 => { c with tisn := v.extractLsb' 0 48 }
    | 0x063 => { c with telem := v.extractLsb' 0 32 }
    | 0x064 => { c with taddr := v }
    | 0x065 => { c with tinfo := v.extractLsb' 0 63, disc := c.disc && v.getLsbD 63 }
    | 0x066 => { c with tvec := v.extractLsb' 3 53 }
    | 0x067 => { c with tctx := v }
    | 0x070 => { c with wpEn := v.extractLsb' 0 8, wpRd := v.extractLsb' 8 8, wpWr := v.extractLsb' 16 8 }
    | 0x090 => { c with stallEn := v.getLsbD 0, stallTrc := v.getLsbD 1, stallIdx := v.extractLsb' 8 5, stallWord := v.extractLsb' 13 2 }
    | _ => c

/-- A write of a register; STALLC.CLR empties the pair table (R435). -/
def csrWrite (s : State) (n : BitVec 12) (v : Word) : State :=
  let s := s.mapCsr (fun c => csrPut c n.toNat v)
  if n = 0x090 ∧ v.getLsbD 2 then { s with front := { s.front with stalls := [] } } else s

/-- Registers no user stream may name (R384). -/
def csrSupervisor (n : Nat) : Bool := n == 0x030 || n == 0x031 || (0x060 ≤ n && n ≤ 0x067) || n == 0x070 || (0x080 ≤ n && n ≤ 0x08F)

/-- A CSR instruction: the mode check, the wait of FFLAGS and of RACE for the floor (R67, R99, R330), the old value to
SD, the write. A read of CNT does not wait for loads (R248): the rule of the one register goes before R136's for CSR
instructions (DEDUCED, log entry 98). `new` is none when nothing is written. -/
def csrOp (sd : SReg) (n : BitVec 12) (new : Word → Option Word) (s : State) : Out :=
  let old := csrRead s n
  let w := new old
  if !s.front.csr.mode && (csrSupervisor n.toNat || (n == 0x004 && w.isSome)) then trapHere (operandTrapHi 10) s
  else if (loadsOut s.front ≠ 0 ∧ !(n == cntNumber && w.isNone)) ∨ ((n = 0x042 ∨ n = 0x050) ∧ !floorMet s) then .next s
  else
    let s' := match w with
      | some v => csrWrite s n v
      | none => s
    .next ((s'.wr sd old).done)

def execCsrr (sd : SReg) (csr : BitVec 12) (s : State) : Out := csrOp sd csr (fun _ => none) s
def execCsrw (sd sa : SReg) (csr : BitVec 12) (s : State) : Out := csrOp sd csr (fun _ => some (s.rd sa)) s
def execCsrs (sd sa : SReg) (csr : BitVec 12) (s : State) : Out :=
  csrOp sd csr (fun old => if sa = 0 then none else some (old ||| s.rd sa)) s
def execCsrc (sd sa : SReg) (csr : BitVec 12) (s : State) : Out :=
  csrOp sd csr (fun old => if sa = 0 then none else some (old &&& ~~~ s.rd sa)) s

/-! ### wait and halt (R156, R157) -/

/-- The four counts are within those of IMM32 (R58, R156). -/
def waitMet (s : State) (imm : BitVec 32) : Bool :=
  loadsOut s.front ≤ (imm.extractLsb' 0 8).toNat && storesOut s.front ≤ (imm.extractLsb' 8 8).toNat
    && s.front.cmds.length ≤ (imm.extractLsb' 16 10).toNat && matOut s ≤ (imm.extractLsb' 26 6).toNat

def execWait (imm : BitVec 32) (s : State) : Out := .next (if waitMet s imm then s.done else s)

/-- Everything of the stream is complete but its residuals (R157). -/
def allDone (s : State) : Bool := floorMet s && accessesDone s && s.front.cmds.isEmpty && s.front.bcasts.isEmpty

/-- The leaves of `halt` as recorded operations, in their logged places in replay (R122, R359, R369). -/
def leaveAll : List (BitVec 10) → M Unit
  | [] => pure ()
  | g :: r => do
    admitLeave g
    modify (fun s => leaveGroup s g)
    leaveAll r

/-- `halt`: waits, merges the accumulation windows, delivers every residual, and retires the stream. -/
def execHalt (s : State) : Out :=
  frontM (do
    let s ← get
    waitFor (allDone s)
    mergeAll (eyeAt s s.stamp) (.traps (fun _ => s.front.exempt)) s.front.decls
    modify (fun s => deliverResiduals { s with front := { s.front with decls := [] } } (fun _ => true))
    leaveAll (myGroups s.front)
    modify retireFront) s

/-! ### Windows (R167) -/

/-- A window is written whole: present and dirty (R165). -/
def putWin (s : State) (w : WReg) (d : Desc) : State :=
  (s.wrW w (Desc.clean d)).mapCsr (fun c => { c with
    wpres := c.wpres ||| (1 : BitVec 32) <<< w.toNat, wdirty := c.wdirty ||| (1 : BitVec 32) <<< w.toNat })

def execWset (wd : WReg) (sa sb : SReg) (s : State) : Out :=
  if wd = 0 then trapHere (operandTrap 0) s else .next ((putWin s wd (s.rd sb ++ s.rd sa)).done)

/-- A window is read: not w0, and present. -/
def winFault (s : State) (w : WReg) : Option TrapInfo :=
  if w = 0 then some (operandTrap 0) else if !wpresent s w then some (mkTrap causeWindowAbsent w.toNat) else none

def execWget (sd : SReg) (wa : WReg) (hi : Bool) (s : State) : Out :=
  match winFault s wa with
  | some t => trapHere t s
  | none => .next ((s.wr sd (if hi then (s.rdW wa).extractLsb' 64 64 else (s.rdW wa).extractLsb' 0 64)).done)

def execWcpy (wd wa : WReg) (s : State) : Out :=
  if wd = 0 then trapHere (operandTrap 0) s
  else
    match winFault s wa with
    | some t => trapHere t s
    | none => .next ((putWin s wd (s.rdW wa)).done)

/-! ### Strips (R168 to R174) -/

def Blk.len : Blk → Nat
  | .b1 => 1
  | .b16 => 16
  | .b32 => 32
  | .b64 => 64
  | .b128 => 128

/-- grant(r, B) of R170: VL and VPAD. -/
def grant (r b : Nat) : Nat × Nat :=
  if r = 0 then (0, 0) else if r < b then (b, b - r) else (min r 65536 / b * b, 0)

def setGrant (s : State) (g : Nat × Nat) : State :=
  s.mapCsr (fun c => { c with vl := BitVec.ofNat 17 g.1, vpad := BitVec.ofNat 7 g.2 })

def execSetvl (sd sa : SReg) (fmt : Fmt) (blk : Blk) (s : State) : Out :=
  let g := grant (s.rd sa).toNat (Blk.len blk)
  let s := (setGrant s g).mapCsr (fun c => { c with vfmt := fmt.code, vblk := BitVec.ofNat 8 (Blk.len blk) })
  .next ((s.wr sd (BitVec.ofNat 64 (g.1 - g.2))).done)

/-- advance(w, c): the new BASE, or none when it leaves a partial byte (R173). -/
def advanceBase (d : Desc) (c : Nat) : Option Nat :=
  match Desc.mode d with
  | 0 =>
    let bits := c * ((Desc.fmt d).map Fmt.bits).getD 0
    if bits % 8 ≠ 0 then none else some ((Desc.base d + bits / 8) % 2 ^ 56)
  | 1 => some (wrapNat 56 ((Desc.base d : Int) + c * Desc.stride d))
  | _ => some (Desc.base d)

/-- Windows that `strip` advances. -/
def stripWins (v : Word) : List WReg := ((List.range 32).filter (fun k => k != 0 && v.getLsbD k)).map (BitVec.ofNat 5)

/-- The checks of `strip`, first fault first (R172). -/
def stripFault (s : State) (ws : List WReg) (real : Nat) : Option TrapInfo :=
  match ws.find? (fun w => !wpresent s w) with
  | some w => some (mkTrap causeWindowAbsent w.toNat)
  | none =>
    if ws.any (fun w => Desc.mode (s.rdW w) == 0 && (Desc.fmt (s.rdW w)).isNone) then some (operandTrap 9)
    else if ws.any (fun w => (advanceBase (s.rdW w) real).isNone) then some (operandTrap 13)
    else none

/-- The leaf that maps an address for the sequencer: what its TLB holds, or what the tables hold. -/
def seqLeaf (s : State) (va : Nat) : Option Nat :=
  match tlbHit s (seqAgent s.front) s.front.asid va, walk s s.front.root s.front.rclass va with
  | some e, _ => some e.leaf.toNat
  | none, .leaf e _ _ _ => some e
  | none, _ => none

/-- First and last byte of an element of a window that `strip` advances: mode 0 with its format, mode 1 whatever the
format. -/
def stripVas (d : Desc) (i : Nat) : List Nat :=
  let ends (va n : Nat) : List Nat := [va, (va + n - 1) % 2 ^ 64]
  match Desc.mode d, Desc.fmt d with
  | 0, some f =>
    let p := flatVa d f i
    ends p.1 ((p.2 + f.bits + 7) / 8)
  | 1, f => ends (wrapNat 64 ((Desc.base d : Int) + i * Desc.stride d)) ((f.map Fmt.bytes).getD 1)
  | _, _ => []

/-- Strip-ahead hints of a window whose BASE lies in stack memory (R174): the rows of stack memory that its next
elements touch, where the sequencer's TLB holds the translation. Of more than 16 rows the first 16 in element order are
taken (DESIGN CHOICE, log entry 97). -/
def hintsOf (s : State) (d : Desc) (n : Nat) : List Hint :=
  if (seqLeaf s (Desc.base d)).map pteCls ≠ some .sm then []
  else
    let hs := ((List.range n).flatMap (stripVas d)).filterMap (fun va =>
      match tlbHit s (seqAgent s.front) s.front.asid va with
      | some e =>
        (match keyOf s { leaf := e.leaf.toNat, leafAt := e.leafAt, base := e.base, bits := e.bits } va with
          | some k =>
            if keyCls k = .sm then
              let r := dramOf s k
              some ({ pc := BitVec.ofNat 10 (dramPc r), bank := BitVec.ofNat 6 r.bank, row := BitVec.ofNat 14 r.row } : Hint)
            else none
          | none => none)
      | none => none)
    hs.dedup.take 16

/-- Each channel takes at most 8 hints that wait; the rest are dropped (R278). -/
def sendHints (s : State) (hs : List Hint) : State :=
  hs.foldl (fun s h => if (s.hints.filter (fun x => x.pc == h.pc)).length < 8 then { s with hints := s.hints ++ [h] } else s) s

/-- `strip` (R172). Register writes can leave VPAD above VL, and the manual does not say how many elements are then real:
none (DESIGN CHOICE, log entry 72). -/
def execStrip (sa sb : SReg) (off : BitVec 32) (s : State) : Out :=
  let real := s.front.csr.vl.toNat - s.front.csr.vpad.toNat
  let ws := stripWins (s.rd sb)
  match stripFault s ws real with
  | some t => trapHere t s
  | none =>
    let a := (s.rd sa).toNat
    let rem := if a > real then a - real else 0
    let t := ws.foldl (fun t w => putWin t w (Desc.setBase (t.rdW w) ((advanceBase (t.rdW w) real).getD 0))) s
    let t := t.wr sa (BitVec.ofNat 64 rem)
    if rem = 0 then .next t.done
    else
      let t := setGrant t (grant rem t.front.csr.vblk.toNat)
      let n := t.front.csr.vl.toNat - t.front.csr.vpad.toNat
      let t := ws.foldl (fun t w => sendHints t (hintsOf t (t.rdW w) n)) t
      .next (t.goto (branchTo s off))

/-! ### ownq (R202) -/

def execOwnq (sd sa : SReg) (map : BitVec 4) (s : State) : Out :=
  match mapOf s.front map.toNat with
  | none => trapHere (operandTrap 5) s
  | some m =>
    let j := stripeOwner m (s.rd sa).toNat
    .next ((s.wr sd (BitVec.ofNat 64 (at_ 16 (64 * s.front.domBase.toNat + j) + j))).done)

end Sys2Proof.Machine
end

