-- ==== Sys2Proof/Machine/Image.lean ====
section
/-! DEFINITION. Switching a stream out and in (R395 to R397): the image, what the device reads back from it,
and giving up and taking a sequencer. -/

namespace Sys2Proof.Machine

/-! ### The image -/

/-- Runs `m` in supervisor mode: the device's own accesses to an image are not bound by the U bit. -/
def asSupervisor {α : Type} (m : M α) : M α := do
  let s ← get
  let mode := s.front.csr.mode
  modify (fun s => s.mapCsr (fun c => { c with mode := true }))
  let r ← captured m
  modify (fun s => s.mapCsr (fun c => { c with mode := mode }))
  match r with
  | .ok x => pure x
  | .error e => throw e

/-- The two pages of an image: the key of the first byte of each, in stack or host memory (R381). -/
def imagePages (p : Perm) : M (Key × Key) := do
  let s ← get
  let page (va : Nat) : M Key := do
    let pl ← xlate deviceAgent va p 0
    let c := pteCls pl.leaf
    need (c == .sm || c == .hm) (mkTrap causePlacement 0 0 va)
    let ks ← keysM pl va 1 0
    pure (ks.headD 0)
  let a := s.front.simg.toNat
  let k0 ← page a
  let k1 ← page (a + 2 ^ 14)
  pure (k0, k1)

/-- Key of an offset in an image. -/
def imageKey (ks : Key × Key) (o : Nat) : Key := if o < 2 ^ 14 then ks.1 + o else ks.2 + (o - 2 ^ 14)

/-- Registers of the image by offset (R396). -/
def imageCsrs : List (Nat × Nat) :=
  [(0x208, 0x005), (0x210, 0x006), (0x218, 0x007), (0x220, 0x010), (0x228, 0x020), (0x230, 0x040), (0x238, 0x041), (0x240, 0x042),
   (0x248, 0x050), (0x250, 0x070), (0x258, 0x090), (0x260, 0x060), (0x268, 0x061), (0x270, 0x062), (0x278, 0x063), (0x280, 0x064),
   (0x288, 0x065), (0x290, 0x066), (0x298, 0x067)]
    ++ (List.range 16).map (fun k => (0x2A0 + 8 * k, 0x080 + k))

/-- Offset of the SHARE slot. -/
def shareSlot : Nat := 0x220

/-- The words of an image: registers, the PC to resume at, control registers. -/
def imageWords (s : State) (pc : Word) : List (Nat × Nat) :=
  (List.range 64).map (fun r => (8 * r, (s.rd (BitVec.ofNat 6 r)).toNat))
    ++ [(0x200, pc.toNat)] ++ imageCsrs.map (fun p => (p.1, csrNum s p.2))

/-- Bytes of an image the device writes outside its reserved parts. -/
def imageBytes (s : State) (ks : Key × Key) (pc : Word) : List (Key × Byte) :=
  (imageWords s pc).flatMap (fun w => (keysFrom (imageKey ks w.1) 8).zip (wordBytes 8 w.2))
    ++ (List.range 256).flatMap (fun k => (keysFrom (imageKey ks (0x400 + 2 * k)) 2).zip (wordBytes 2 (clockGet s.front.clock k)))

/-- The parts reserved to the device take what it keeps there: `whole` when it saves for a stream without a
handler (R389). -/
def imageReserved (s : State) (ks : Key × Key) (whole : Bool) : State :=
  let n := s.drawn
  let m := s.mem.overlay (imageKey ks 0x600) 0xA00 (fun i => Config.imageByte n (0x600 + i))
  let m := if whole then
      (m.overlay (imageKey ks 0x1000) 0x3000 (fun i => Config.imageByte n (0x1000 + i))).overlay (imageKey ks 0x4000) 0x4000
        (fun i => Config.imageByte n (0x4000 + i))
    else m
  let on (k a b : Nat) : Bool := a ≤ k && k < b
  { s.notedIn (fun k => on k (ks.1 + 0x600) (ks.1 + if whole then 0x4000 else 0x1000) || (whole && on k ks.2 (ks.2 + 0x4000))) with
    mem := m, drawn := n + 1 }

/-- Writes the image; a fault leaves nothing changed (R395). -/
def writeImage (pc : Word) (whole : Bool) : M Unit := asSupervisor (do
  let ks ← imagePages .write
  modify (fun s => imageReserved (s.store (imageBytes s ks pc)) ks whole))

/-! ### Giving up the sequencer (R119, R122) -/

/-- The launch of the stream is ending by an OP 2 record. -/
def doomed (s : State) (f : Front) : Bool := s.launches.any (fun l => l.sid0 == f.launch && l.killers != [])

/-- The stream leaves its sequencer, slots and pair; one of a launch that is being terminated is discarded. -/
def giveUp (s : State) : State :=
  if doomed s s.front then retireFront s
  else
    let f := { s.front with status := .out, outAt := s.placements, preempt := false, waiting := false, waitObj := none }
    ({ s with front := f, placements := s.placements + 1, slots := s.slots.filter (fun p => p.1 != f.sid) }).numbered

/-! ### Resumption (R397) -/

/-- A control register as an image gives it back. -/
def imageCsr (c : Csrs) (n : Nat) (v : Word) : Csrs :=
  match n with
  | 0x005 => { c with isn := v.extractLsb' 0 48 }
  | 0x006 => { c with floor := v.extractLsb' 0 48 }
  | 0x010 => { c with share := v.extractLsb' 0 8, prio := v.extractLsb' 8 3 }
  | 0x042 => { c with fflags := v.extractLsb' 0 6 }
  | 0x050 => { c with raceEn := v.getLsbD 0, raceSat := v.getLsbD 1, ivl := v.extractLsb' 16 16, lost := v.extractLsb' 32 16 }
  | 0x060 => { csrPut c n v with mode := v.getLsbD 16 }
  | 0x065 => { c with tinfo := v.extractLsb' 0 63, disc := v.getLsbD 63 }
  | _ => csrPut c n v

/-- The clock vector of an image. -/
def imageClock (s : State) (ks : Key × Key) : List (Nat × Nat) :=
  ((List.range 256).map (fun k => (k, s.mem.num (imageKey ks (0x400 + 2 * k)) 2))).filter (fun p => p.2 != 0)

/-- Step 1: the image is read into the front. The pc holds a multiple of 8 (R43), so the low three bits of the
image's PC are dropped (DESIGN CHOICE, log entry 18). -/
def readImage (s : State) (ks : Key × Key) : State :=
  let w (o : Nat) : Word := BitVec.ofNat 64 (s.mem.num (imageKey ks o) 8)
  let f := s.front
  { s with front := { f with
    s := Vector.ofFn (fun (r : Fin 64) => if r.val = 0 then 0 else w (8 * r.val))
    pc := w 0x200 &&& ~~~7
    csr := imageCsrs.foldl (fun c p => imageCsr c p.2 (w p.1)) f.csr
    clock := imageClock s ks } }

/-- Keys of a discardable page of the stream that holds an address; none for any other entry. -/
def discardKeys (s : State) (va : Nat) : Option (List Key) :=
  match walk s s.front.root s.front.rclass va with
  | .leaf e k base bits =>
    if pteCls e = .bm ∧ pteDisc e then
      some ((List.range (2 ^ bits)).filterMap (fun i => keyOf s { leaf := e, leafAt := k, base := base, bits := bits } (base + i)))
    else none
  | _ => none

/-- Zeroes one page of the drop list and sets TINFO.DISC. -/
def discardPage (s : State) (va : Nat) : State :=
  match discardKeys s va with
  | none => s
  | some ks =>
    let s := { s.notedIn ks.contains with mem := s.mem.filter (fun c => !ks.contains c.1), poison := s.poison.filter (fun w => !ks.contains (8 * w)) }
    s.mapCsr (fun c => { c with disc := true })

/-- Step 2: the drop list. -/
def dropPages (s : State) (ks : Key × Key) : State :=
  let n := min 27 (s.mem.num (imageKey ks 0x320) 8)
  let s := ((List.range n).map (fun i => s.mem.num (imageKey ks (0x328 + 8 * i)) 8)).foldl discardPage s
  s.write (imageKey ks 0x320) 8 0

/-- Step 3: the strip registers and windows are cleared. -/
def clearWindows (s : State) : State :=
  let s := s.mapCsr (fun c => { c with wpres := 0, wdirty := 0, vl := 0, vfmt := 0, vpad := 0, vblk := 1, estart := 0 })
  { s with front := { s.front with w := Vector.replicate 32 0 } }

/-- Steps 4 to 6, on a sequencer. -/
def startAgain (s : State) (cell : BitVec 7) (seq : Bool) : State :=
  let f := s.front
  let s := f.decls.foldl (fun s a => zeroCopies s a.desc a.len) s
  let s := f.heldToks.foldl (fun s k => match s.front.cmds.find? (fun c => c.slot == k) with
    | some c => putToken s c
    | none => s) s
  { s with
    front := { s.front with
      status := .running, cell := cell, seq := seq, icache := [], progress := [], heldToks := [], resumed := true, byDevice := false
      planes := { f.planes with actSt := invalidate f.planes.actSt, shdSt := invalidate f.planes.shdSt }
      placedAt := s.placements
      stalls := [], charges := [] }
    placements := s.placements + 1 }

/-- An owner among the banks of a forge die. -/
def ofDie (die own : Nat) : Bool := own < 8192 && own / 1024 == die

/-- DIE_RESET (R398): the stop at FLOOR, with the issue queue emptied and nothing rolled back on the die. A
bank-condition branch is withdrawn (R179). What the die's banks held of the plane slots is gone. A stream in the middle
of a `tlbinv` or `pmig` takes it when that has completed (R307, R311). -/
def dieStop (die : Nat) (s : State) : State :=
  if s.front.tlbOp ≠ .none then { s with front := { s.front with pdie := some (BitVec.ofNat 3 die) } }
  else
  let s := settleAccesses (landRels (withdrawWaits s))
  let s := settleCmds (stopOwes s.floor s) s
  let (s, tpc) := withdrawBranch s s.front.pc
  let s := recordStop { s with shelves := s.shelves.filter (fun e => !(e.sid == s.front.sid && ofDie die e.own)) } s.floor 0
  let s := s.mapCsr (fun c => { c with estart := 0 })
  let p := s.front.planes
  let s := { s with front := { s.front with
    queue := [], heldFlags := 0, pdie := none
    planes := { p with actSt := invalidate p.actSt, shdSt := invalidate p.shdSt } } }
  deliverStop (stopRecorded s (mkTrap causeDieReset die) tpc)

/-- The reset of a die of the domain that came while the stream was away. -/
def lateDieStop (s : State) : State :=
  match s.front.pdie with
  | some d => dieStop d.toNat s
  | none => s

/-- Resumption of the stream whose turn it is, on a sequencer; recorded by its context (R123). One the device
switched out keeps what a handler would have saved, and its queue is reissued (R389). An image that cannot be
read leaves the stream where it is. -/
def resumeFront (cell : BitVec 7) (seq : Bool) (s : State) : State :=
  match M.exec (asSupervisor (imagePages .both)) s with
  | (.error _, _) => s
  | (.ok ks, s) =>
    let own := s.front.byDevice
    let s := dropPages (readImage s ks) ks
    let s := startAgain (if own then s else clearWindows s) cell seq
    let s := if own then
        reissue s
      else s
    lateDieStop (record s 5 2 (objCtx s.front.logId) (cell.toNat + at_ 7 (boolNat seq)) s.front.csr.tisn.toNat).numbered

/-! ### Pre-emption of a stream without a handler (R389) -/

/-- At a context switch every bank merges the stream's private copies, keeping the declarations, and delivers its
residuals (R341, R347). -/
def switchSums : M Unit := do
  let s ← get
  mergeAll (eyeAt s s.stamp) .reports s.front.decls
  modify (fun s => deliverResiduals s (fun _ => true))

/-- The device saves the stream; a fault of the image, or of its sums' homes, withdraws the pre-emption at once, but an OP 2 record's
pre-emption is not withdrawn (R122). Accessed and dirty bits that the walks have set, and sums that have reached their homes,
stay (R302, R347). -/
def deviceSave (s : State) (pc : Word) : State :=
  let t := { s with front := { s.front with pc := pc, byDevice := true } }
  match M.exec (do switchSums; writeImage pc true) t with
  | (.ok _, t) => giveUp t
  | (.error _, t) =>
    let s := { t with front := { t.front with byDevice := s.front.byDevice } }
    if doomed s s.front then giveUp s
    else
    let s := reissue { s with front := { s.front with pc := pc, preempt := false } }
    (s.event 9 (dieOf s.front) [s.front.sid.toNat]).numbered

/-! ### Tokens of a stream that is away (R396) -/

/-- A command's token goes to the register's image slot, and its flags to the image's FFLAGS; when that faults,
the engine holds token and slot, and Porvex logs the image address. -/
def tokenAway (s : State) (c : Cmd) : State :=
  match M.exec (asSupervisor (imagePages .write)) s with
  | (.ok ks, s) =>
    let k := imageKey ks (8 * c.tok.toNat)
    let s := if c.tok = 0 then s else s.store ((keysFrom k 8).zip (wordBytes 8 (tokenOf c).toNat))
    let fl := imageKey ks 0x240
    freeSlotOf (s.write fl 1 (s.mem.num fl 1 ||| c.flags.toNat)) c
  | (.error _, s) =>
    let s := { s with front := { s.front with heldToks := s.front.heldToks ++ [c.slot] } }
    s.event 6 0 [s.front.simg.toNat + 8 * c.tok.toNat, s.front.sid.toNat]

end Sys2Proof.Machine
end

