-- ==== Sys2Proof/Machine/System.lean ====
section
/-! DEFINITION. Interrupts (R388, R389), `trap`, `eret`, `wfe`, `wsave`, `wrest`, `isave`, `irest`
(spec/21_traps.md). -/

namespace Sys2Proof.Machine

/-! ### Interrupts -/

/-- An interrupt is pending: PREEMPT, HOST, or a watch hit reported by a home (R388, R401). -/
def interruptPending (f : Front) : Bool := f.ppre || f.phost.isSome || f.pwatch.isSome

/-- PREEMPT is pending, and the context has room for the record of its point at its home (R123, R363). -/
def preemptDue (s : State) : Bool :=
  s.front.ppre && !(s.front.logMode == 1 && ((s.logCtx s.front.logId).map (fun c => homeFull s c (objCtx c.id))).getD false)

/-- The element at ESTART of a reissued queue has still to be performed (R392). -/
def estartDue (s : State) : Bool :=
  match s.front.bcasts.find? (fun b => s.front.exemptAt == some b.isn) with
  | none => false
  | some b =>
    match infoOfWord b.word with
    | none => false
    | some info =>
      match (M.exec (info.body.plan (eyeOf s b) none b) s).1 with
      | .ok items => (restItems s b items).any (fun it => it.elem == b.estart)
      | .error _ => true

/-- One is taken before the next issue (R388, R392, R401). A broadcast that must run to completion goes first
(R385 step 3), and so does the element at ESTART of a reissued queue. -/
def interruptDue (s : State) : Bool :=
  let f := s.front
  (f.pwatch.isSome || (f.csr.ie && (preemptDue s || f.phost.isSome)))
    && !estartDue s
    && !f.bcasts.any (fun b => !isCondWord b.word && ((infoOfWord b.word).map (·.fencing)).getD false)

/-- The point of a pre-emption is recorded by the context (R123). -/
def recordPreempt (s : State) (pc : Word) : State := record s 5 1 (objCtx s.front.logId) pc.toNat s.floor

/-- PREEMPT is taken: the stop, its record, and the handler or the device's own save. A fault the stop finds
becomes the trap, and the interrupt stays pending. -/
def takePreempt (s : State) : State :=
  match settleStop s (interruptInfo causePreempt 0) s.front.pc with
  | .waits t => t
  | .stopped t c pc =>
    if c.int then
      let t := recordPreempt { t with front := { t.front with ppre := false } } pc
      if t.front.csr.tvec = 0 then deviceSave t pc else enterTrap t c pc
    else deliver { t with front := { t.front with ppre := true } } c pc

/-- HOST is taken; a stream without a handler discards it (R389). -/
def takeHost (s : State) (m : BitVec 16) : State :=
  if s.front.csr.tvec = 0 then { s with front := { s.front with phost := none } }
  else
    match settleStop s (interruptInfo causeHost m.toNat) s.front.pc with
    | .waits t => t
    | .stopped t c pc => if c.int then enterTrap { t with front := { t.front with phost := none } } c pc else deliver t c pc

/-- The pending interrupt is taken: a reported watch hit, then PREEMPT, then HOST. -/
def takeInterrupt (s : State) : State :=
  match s.front.pwatch with
  | some w =>
    (match settleStop s w s.front.pc with
      | .waits t => t
      | .stopped t c pc => deliver (if c = w then { t with front := { t.front with pwatch := none } } else t) c pc)
  | none =>
    if preemptDue s then takePreempt s
    else
      match s.front.phost with
      | some m => takeHost s m
      | none => s

/-! ### trap, eret, wfe -/

/-- `trap` (R391): BREAK, TPC the address after it. -/
def execTrap (imm : BitVec 31) (s : State) : Out := .next (stopTrap s (mkTrap causeBreak imm.toNat) (s.front.pc + 8))

/-- `eret` (R392). A TPC that is no multiple of 8 is a transfer that is not taken (R43). -/
def execEret (rq : Bool) (s : State) : Out :=
  frontM (do
    supervisor
    let s ← get
    need (s.front.queue.isEmpty || rq) (operandTrapHi 14)
    need (s.front.csr.tpc.toNat % 8 == 0) (mkTrap causeAlign 0 0 s.front.csr.tpc.toNat)
    waitFor (!s.front.resumed || s.front.cmds.isEmpty)
    modify (fun s => if rq then reissue (leaveTrap rq s) else caughtUp (leaveTrap rq s))) s

/-- Keys of the 64-byte block that holds an address (R395). -/
def watchedKeys (va : Nat) : M (List Key) := do
  let s ← get
  let pl ← xlate (seqAgent s.front) (va / 64 * 64) .read 0
  keysM pl (va / 64 * 64) 64 0

/-- `wfe` WAIT ends with 1 for an interrupt and 2 for a write to the watched block; else the front idles. -/
def wfeWaitM (sd sa : SReg) : M Unit := do
  let s ← get
  let mine (m : Monitor) : Bool := m.sid == s.front.sid
  let finish (v : Word) : M Unit :=
    modify (fun s => (({ s with monitors := s.monitors.filter (fun m => !mine m) }).wr sd v).done)
  if interruptPending s.front then finish 1
  else
    match s.monitors.find? mine with
    | some m => if m.hit then finish 2 else waitM
    | none => do
      if sa ≠ 0 then
        let ks ← watchedKeys (s.rd sa).toNat
        modify (fun s => { s with monitors := s.monitors ++ [{ sid := s.front.sid, keys := ks, hit := false }] })
      modify (fun s => { s with front := { s.front with waiting := true } })
      waitM

def execWfeWait (sd sa : SReg) (s : State) : Out := frontM (wfeWaitM sd sa) s

/-- `wfe` YIELD (R395): accesses complete, copies are merged and residuals delivered, the image is written, the
sequencer is given up. On resumption SD reads 1. -/
def wfeYieldM (sd : SReg) : M Unit := do
  supervisor
  let s ← get
  need s.front.queue.isEmpty (operandTrapHi 14)
  if !s.front.preempt then modify (fun s => (s.wr sd 0).done)
  else
    waitFor (accessesDone s && s.front.bcasts.isEmpty)
    switchSums
    let s ← get
    let pc := s.front.pc + 8
    set (s.wr sd 1)
    match ← captured (writeImage pc false) with
    | .ok _ => modify giveUp
    | .error e => do
      set s
      throw e

def execWfeYield (sd _sa : SReg) (s : State) : Out := frontM (wfeYieldM sd) s

/-! ### Areas of memory that system instructions use -/

/-- The pages of an area: (first address, end, place), each translated before any byte is touched, with the
faults of R393. -/
def areaPages (va n al : Nat) (p : Perm) : M (List (Nat × Nat × Place)) := do
  let s ← get
  if va % al ≠ 0 then trapM (mkTrap causeAlign 0 0 va)
  else
    let starts := (List.range ((va + n + 2 ^ 14 - 1) / 2 ^ 14 - va / 2 ^ 14)).map (fun i => max va ((va / 2 ^ 14 + i) * 2 ^ 14))
    starts.mapM (fun a => do
      let pl ← xlate (seqAgent s.front) a p 0
      let hi := min (va + n) ((a / 2 ^ 14 + 1) * 2 ^ 14)
      let _ ← keysM pl a (if pteCls pl.leaf == .bm then hi - a else 1) 0
      pure (a, hi, pl))

/-- Keys of `n` bytes of an area within one of its pages. -/
def areaKeys (s : State) (ps : List (Nat × Nat × Place)) (va n : Nat) : List Key :=
  match ps.find? (fun p => p.1 ≤ va && va < p.2.1) with
  | some p => (keysOf s p.2.2 va n).getD []
  | none => []

def areaWord (s : State) (ps : List (Nat × Nat × Place)) (va : Nat) : Nat := bytesNat (s.mem.gets (areaKeys s ps va 8))

/-- DATA_ERROR where bytes an instruction reads are uncorrectable (R143). -/
def areaSound (ps : List (Nat × Nat × Place)) (va n : Nat) : M Unit := do
  let s ← get
  need (!unreadable s (areaKeys s ps va n)) (mkTrap causeDataError 0 0 (errorAt (areaKeys s ps va n) va))

/-- RACE when an access to `n` bytes of an area is one (R330). -/
def areaRace (s : State) (ps : List (Nat × Nat × Place)) (wr : Bool) (va n : Nat) : Option TrapInfo :=
  match ps.find? (fun p => p.1 ≤ va && va < p.2.1) with
  | none => none
  | some p =>
    if raced s.front.race p.2.2 then
      (raceAt { s.front with clock := s.front.race.getD [] } s.tag (areaKeys s ps va n) wr va).map (fun r => mkTrap causeRace r.1 0 r.2)
    else none

/-- The faults of the data of `n` bytes that an instruction accesses, nothing being performed: a race, and of bytes
read, what `areaSound` finds first. -/
def areaFree (ps : List (Nat × Nat × Place)) (wr : Bool) (va n : Nat) : M Unit := do
  if !wr then areaSound ps va n
  let s ← get
  match areaRace s ps wr va n with
  | some t => trapM t
  | none => pure ()

/-- The tags of an area's pieces are updated as they are accessed. -/
def areaMark (ps : List (Nat × Nat × Place)) (wr : Bool) (va n : Nat) : M Unit := do
  let s ← get
  match ps.find? (fun p => p.1 ≤ va && va < p.2.1) with
  | some p => raceMark s.front.race p.2.2 (areaKeys s ps va n) wr
  | none => pure ()

/-- Stores a word of an area, at FLOOR or at the ISN register as scalar stores are stamped (R387). -/
def putArea (ps : List (Nat × Nat × Place)) (s : State) (va v : Nat) : State :=
  s.storeAt s.stamp (s.floor < s.stamp) ((areaKeys s ps va 8).zip (wordBytes 8 v))

/-- An area is read or written in its turn of the stream's order: after earlier loads (R136), broadcasts and stamped
accesses (R139). -/
def areaReady (s : State) : Bool := loadsOut s.front == 0 && floorMet s && s.front.bcasts.isEmpty && allPerformed (fun _ => true) s

/-! ### wsave, wrest (R394) -/

/-- Windows a mask selects. -/
def maskWins (m : Nat) : List WReg := ((List.range 32).filter (fun k => k != 0 && m.testBit k)).map (BitVec.ofNat 5)

def winMask (ws : List WReg) : Word := BitVec.ofNat 64 (ws.foldl (fun a w => a + 2 ^ w.toNat) 0)

def clearDirty (s : State) (w : WReg) : State :=
  s.mapCsr (fun c => { c with wdirty := c.wdirty &&& ~~~((1 : BitVec 32) <<< w.toNat) })

def wsaveM (sd sa sb : SReg) : M Unit := do
  supervisor
  let s ← get
  waitFor (areaReady s)
  let a := (s.rd sa).toNat
  let ps ← areaPages a 512 512 .write
  let ws := (maskWins (s.rd sb).toNat).filter (wpresent s)
  ws.forM (fun w => areaFree ps true (a + 16 * w.toNat) 16)
  ws.forM (fun w => areaMark ps true (a + 16 * w.toNat) 16)
  modify fun s =>
    let save (s : State) (w : WReg) : State :=
      let d := (s.rdW w).toNat
      clearDirty (putArea ps (putArea ps s (a + 16 * w.toNat) (fld 0 64 d)) (a + 16 * w.toNat + 8) (fld 64 64 d)) w
    (((ws.foldl save s).wr sd (winMask ws)).leave).done

def wrestM (sd sa sb : SReg) : M Unit := do
  supervisor
  let s ← get
  waitFor (areaReady s)
  let a := (s.rd sa).toNat
  let ps ← areaPages a 512 512 .read
  let ws := maskWins (s.rd sb).toNat
  ws.forM (fun w => areaFree ps false (a + 16 * w.toNat) 16)
  ws.forM (fun w => areaMark ps false (a + 16 * w.toNat) 16)
  modify fun s =>
    let load (t : State) (w : WReg) : State :=
      let d := areaWord s ps (a + 16 * w.toNat) + at_ 64 (areaWord s ps (a + 16 * w.toNat + 8))
      let t := t.wrW w (Desc.clean (BitVec.ofNat 128 d))
      clearDirty (t.mapCsr (fun c => { c with wpres := c.wpres ||| (1 : BitVec 32) <<< w.toNat })) w
    (((ws.foldl load s).wr sd (winMask ws)).leave).done

def execWsave (sd sa sb : SReg) (s : State) : Out := frontM (wsaveM sd sa sb) s
def execWrest (sd sa sb : SReg) (s : State) : Out := frontM (wrestM sd sa sb) s

/-! ### isave, irest (R393) -/

/-- The words of a queue entry. -/
def entryWords (b : Bcast) : List Nat :=
  let c := b.carry
  [b.word.toNat, b.isn % 2 ^ 48, c.seed.toNat,
   c.vl.toNat + at_ 17 c.vfmt.toNat + at_ 22 c.vpad.toNat + at_ 29 c.vblk.toNat + at_ 37 c.skew.toNat + at_ 44 c.rm.toNat
     + at_ 47 (boolNat c.ftz) + at_ 48 c.share.toNat,
   c.scalarB.toNat, 0] ++ c.descs.toList.flatMap (fun d => [fld 0 64 d.toNat, fld 64 64 d.toNat])

/-- An entry from its 32 words. The image holds neither EN nor V as at the entry's issue: it is checked as the stream
stands when `irest` reads it (DESIGN CHOICE, log entry 81). -/
def entryOf (v : Option (List (Nat × Nat))) (w : Nat → Nat) : Bcast :=
  let k := w 3
  let d (i : Nat) : Desc := Desc.clean (BitVec.ofNat 128 (w (6 + 2 * i) + at_ 64 (w (7 + 2 * i))))
  let c : Carry :=
    { seed := BitVec.ofNat 64 (w 2), vl := BitVec.ofNat 17 k, vfmt := BitVec.ofNat 5 (fld 17 5 k), vpad := BitVec.ofNat 7 (fld 22 7 k),
      vblk := BitVec.ofNat 8 (fld 29 8 k), skew := BitVec.ofNat 7 (fld 37 7 k), rm := BitVec.ofNat 3 (fld 44 3 k), ftz := fld 47 1 k == 1,
      share := BitVec.ofNat 8 (fld 48 8 k), scalarB := BitVec.ofNat 64 (w 4),
      descs := #v[d 0, d 1, d 2, d 3, d 4, d 5, d 6, d 7, d 8, d 9, d 10, d 11, d 12] }
  { word := BitVec.ofNat 64 (w 0), isn := fld 0 48 (w 1), carry := c, pc := 0, estart := 0, flags := 0, leaves := [], race := v }

/-- `n` with the `len` bits at `lo` replaced. -/
def setFld (lo len v n : Nat) : Nat := n - fld lo len n * 2 ^ lo + v % 2 ^ len * 2 ^ lo

/-- The word of an entry with a window of its own in each slot that names one, so that descriptors carried for one
window in two slots stay apart: slot k, of WD, WA, WB, WC and WM, names w(k + 1). -/
def slotWord (w : Word) (slots : List (Nat × WReg)) : Word :=
  BitVec.ofNat 64 (slots.foldl (fun n p => if p.2 = 0 then n else setFld (47 - 5 * p.1) 5 (p.1 + 1) n) w.toNat)

/-- The descriptor carried in slot k with an index and a scale window of its own, w(6 + k) and w(11 + k). IDX goes on
naming w0, or the window `own` of the slot itself. -/
def slotDesc (k : Nat) (own : WReg) (d : Desc) : Desc :=
  let ix := if Desc.idx d = 0 then 0 else if Desc.idx d = own then k + 1 else 6 + k
  let sc := if Desc.scl d = 0 then 0 else 11 + k
  BitVec.ofNat 128 (setFld 96 5 ix (setFld 101 5 sc d.toNat))

/-- A front that holds what an entry carries, for the checks of issue of `slotWord`. -/
def carriedState (s : State) (i : Instr) (slots : List (Nat × WReg)) (c : Carry) : State :=
  let ds := c.descs.toList
  let base : State := { s with front := { s.front with
    w := Vector.replicate 32 0, plane := true
    pair := match i with
      | .mload _ _ p _ | .mswap p | .mrecast p _ | .minval p _ => p
      | .mma m => m.pair
      | _ => s.front.pair } }
  let base := base.mapCsr (fun r => { r with wpres := 0xFFFFFFFE, vl := c.vl, vfmt := c.vfmt, vpad := c.vpad, vblk := c.vblk })
  slots.foldl (fun t p =>
    let k := p.1
    let t := t.wrW (BitVec.ofNat 5 (k + 1)) (slotDesc k p.2 (ds.getD k 0))
    if k < 4 then (t.wrW (BitVec.ofNat 5 (6 + k)) (ds.getD (5 + k) 0)).wrW (BitVec.ofNat 5 (11 + k)) (ds.getD (9 + k) 0) else t) base

/-- What an entry carries passes the checks of issue at each slot (R393). -/
def carriedOk (s : State) (b : Bcast) (info : BInfo) : Bool :=
  let slots := slotWindows info s
  match instrOf (slotWord b.word slots) with
  | none => false
  | some i => (match infoOf i with
    | none => false
    | some info => (match info.check (carriedState s i slots b.carry) with
      | some t => !(t.cause.toNat == causeIllegalOperand && t.tinfo.toNat < 256)
      | none => true))

/-- Requirements of an entry of `irest` (R393): its ISN, its word, and what it carries. -/
def entryOk (s : State) (n : Nat) (b : Bcast) : Bool :=
  b.isn == s.floor + 1 + n && !isCondWord b.word
    && (match infoOfWord b.word with
      | none => false
      | some info => carriedOk s b info)

def isaveM (sd sa : SReg) : M Unit := do
  supervisor
  let s ← get
  waitFor (areaReady s)
  let a := (s.rd sa).toNat
  let ps ← areaPages a 16384 256 .write
  (List.range s.front.queue.length).forM (fun i => areaFree ps true (a + 256 * i) 256)
  (List.range s.front.queue.length).forM (fun i => areaMark ps true (a + 256 * i) 256)
  modify fun s =>
    let q := s.front.queue
    let put (s : State) (p : Bcast × Nat) : State :=
      (entryWords p.1).zipIdx.foldl (fun s w => putArea ps s (a + 256 * p.2 + 8 * w.2) w.1) s
    let s := q.zipIdx.foldl put s
    let fl := (q.head?.map (·.flags)).getD 0
    let s := { s with front := { s.front with queue := [], heldFlags := s.front.heldFlags ||| fl } }
    ((s.wr sd (BitVec.ofNat 64 q.length)).leave).done

def irestM (sd sa : SReg) : M Unit := do
  supervisor
  let s ← get
  waitFor (areaReady s)
  let n := (s.rd sd).toNat
  need (s.front.queue.isEmpty && n ≤ 64 && n + s.floor == s.isn) (operandTrapHi 15)
  let a := (s.rd sa).toNat
  let ps ← areaPages a 16384 256 .read
  (List.range n).forM (fun i => areaFree ps false (a + 256 * i) 256)
  let s ← get
  let es := (List.range n).map (fun i => entryOf s.front.race (fun j => areaWord s ps (a + 256 * i + 8 * j)))
  need (es.zipIdx.all (fun p => entryOk s p.2 p.1)) (operandTrapHi 15)
  (List.range n).forM (fun i => areaMark ps false (a + 256 * i) 256)
  modify (fun s => (({ s with front := { s.front with queue := es } } : State).leave).done)

def execIsave (sd sa : SReg) (s : State) : Out := frontM (isaveM sd sa) s
def execIrest (sd sa : SReg) (s : State) : Out := frontM (irestM sd sa) s

end Sys2Proof.Machine
end

