-- ==== Sys2Proof/Machine/Paging.lean ====
section
/-! DEFINITION. Page walks, shoot-downs, migration and promotion (spec/15_translation.md). -/

namespace Sys2Proof.Machine

/-! ### Walks and TLBs -/

/-- Entries an agent's TLB holds (R303). -/
def tlbSize (agent : Nat) : Nat := if agent < 8192 then 512 else if agent < 9216 then 64 else if agent < 9472 then 128 else if agent < noTlb then 1024 else 0

/-- A translation enters an agent's TLB; the oldest leaves a full one. -/
def tlbFill (s : State) (e : TlbEntry) : State :=
  let mine := s.tlb.filter (fun x => x.agent == e.agent)
  let tlb := if mine.length < tlbSize e.agent then s.tlb else match mine.getLast? with
    | some old => s.tlb.erase old
    | none => s.tlb
  { s with tlb := e :: tlb }

/-- A walker serves a miss of an agent for a stream (R301, R302): A and D, then the TLB. A walk that fails or is
refused changes nothing; the access that needs it faults by itself. Its reads wake the pseudo-channels of the tables
(R280). -/
def walkFor (agent va : Nat) (wr : Bool) (s : State) : State :=
  if pageHeld s s.front.asid va || tlbSize agent == 0 then s
  else
    match M.exec (xlate agent va (if wr then .write else .read) 0) s with
    | (.ok pl, t) =>
      if (tlbHit s agent s.front.asid va).isSome && (!wr || pteD pl.leaf) then t
      else tlbFill { t with tlb := t.tlb.filter (fun e => !(e.agent == agent && e.asid == s.front.asid && e.base == pl.base)) }
        { agent := agent, asid := s.front.asid, base := pl.base, bits := pl.bits, leaf := BitVec.ofNat 64 (t.mem.num pl.leafAt 8), leafAt := pl.leafAt }
    | (.error _, t) => t

def execPageWalk (sid : BitVec 16) (agent : BitVec 15) (va : Word) (wr : Bool) (s : State) : Out :=
  .next (s.onStream sid (walkFor agent.toNat va.toNat wr))

/-- An agent receives a shoot-down, drops what matches and acknowledges (R308, R309). -/
def execShootdownReceive (agent : BitVec 15) (asid : BitVec 12) (va len : Word) (s : State) : Out :=
  .next (shootDown s (fun a => a == agent.toNat) asid va.toNat len.toNat)

/-- Agents that a shoot-down under DOMAIN reaches (R307). -/
def domainAgent (f : Front) (a : Nat) : Bool :=
  let cell (c : Nat) : Bool := inDomain f.domBase.toNat f.domLog.toNat (64 * c)
  if a < 9216 then inDomain f.domBase.toNat f.domLog.toNat a
  else if a < 9472 then cell ((a - 9216) / 2)
  else cell (a - 9472)

/-- What `tlbinv` and `pmig` wait for (R307). -/
def quietReady (s : State) : Bool := floorMet s && accessesDone s && s.front.cmds.isEmpty

/-- `tlbinv` (R306, R307): it waits, sends the shoot-down, and completes when every agent reached has acknowledged. -/
def tlbinvM (sd sa sb : SReg) (sc : Scope) : M Unit := do
  supervisor
  let s ← get
  let asid := if sd = 0 then s.front.asid else (s.rd sd).extractLsb' 0 12
  let reach := if sc = .domain then domainAgent s.front else fun _ => true
  let va := (s.rd sa).toNat
  let len := (s.rd sb).toNat
  if s.front.tlbOp ≠ .sent then
    setTlbOp .waiting
    waitFor (quietReady s)
    setTlbOp .sent
    modify (fun s => shootDown s reach asid va len)
  let s ← get
  waitFor (acked s reach asid va len)
  modify (fun s => s.leave.done)

def execTlbinv (sd sa sb : SReg) (sc : Scope) (s : State) : Out := frontM (tlbinvM sd sa sb sc) s

/-- `tlbprb` (R305): the leaf a walk reaches, or 0. -/
def tlbprbM (sd sa : SReg) : M Unit := do
  let s ← get
  waitFor (loadsOut s.front == 0 && storesOut s.front == 0)
  modify (fun s => s.walked (s.rd sa).toNat)
  let v ← (match walk s s.front.root s.front.rclass (s.rd sa).toNat with
    | .leaf e _ _ _ => pure e
    | .missing _ => pure 0
    | .bad k => trapM (badTable 0 k))
  modify (fun s => (s.wr sd (BitVec.ofNat 64 v)).done)

def execTlbprb (sd sa : SReg) (s : State) : Out := frontM (tlbprbM sd sa) s

/-! ### Moving bytes from one frame to another (R311) -/

/-- Where a byte goes: pairs of old and new keys. -/
def movedKey (ps : List (Key × Key)) (k : Key) : Key := ((ps.find? (fun p => p.1 == k)).map (·.2)).getD k

/-- A shelf entry that holds bytes of the page goes with them: each new sector takes the pre-image of the bytes
it receives, over what it holds, and the uncorrectable words among them. `shelf` gives the shelf it goes to, from its owner and that of the new sector. -/
def moveShelf (shelf : Nat → Nat → Nat) (ps : List (Key × Key)) (s : State) (e : Shelf) : State :=
  let mine := ps.filter (fun p => p.1 / 32 == e.sector)
  if mine.isEmpty then { s with shelves := s.shelves ++ [e] }
  else
    ((mine.map (fun p => p.2 / 32)).dedup).foldl (fun s n =>
      let same (x : Shelf) : Bool := x.sid == e.sid && x.sector == n && x.isn == e.isn && x.action == e.action
      let base := ((s.shelves.find? same).map (·.bytes)).getD (sectorBytes s n)
      let bad := ((mine.filter (fun p => p.2 / 32 == n && e.bad.contains (p.1 / 8))).map (fun p => p.2 / 8)).dedup
      let bs := (mine.filter (fun p => p.2 / 32 == n)).foldl (fun l p => l.set (p.2 % 32) (e.bytes.getD (p.1 % 32) 0)) base
      let bad := (((s.shelves.find? same).map (·.bad)).getD [] ++ bad).dedup
      let x : Shelf := { e with own := shelf e.own ((ownerOf s (32 * n)).getD e.own), sector := n, bytes := bs, bad := bad }
      { s with shelves := s.shelves.filter (fun y => !same y) ++ [x] }) s

/-- Race tags travel with their sectors (R311 step 4). -/
def moveTags (ps : List (Key × Key)) (s : State) : State :=
  { s with tags := s.tags.map (fun t => match ps.find? (fun p => p.1 / 32 == t.sector) with
      | some p => { t with sector := p.2 / 32 }
      | none => t) }

/-- What is at work on a place goes with it: accesses under way, waiters, pushed entries,
watched blocks, and table entries that translations and migrations name. -/
def moveWork (ps : List (Key × Key)) (s : State) : State :=
  let mv := movedKey ps
  let s := s.mapStreams (fun f => { f with accesses := f.accesses.map (fun a => { a with key := mv a.key, wrote := a.wrote.map (fun p => (mv p.1, p.2)) }) })
  { s with
    waiters := s.waiters.map (fun w => { w with block := mv w.block })
    pushed := s.pushed.map (fun p => { p with block := mv p.block })
    tlb := s.tlb.map (fun e => { e with leafAt := mv e.leafAt })
    monitors := s.monitors.map (fun m => { m with keys := m.keys.map mv })
    migrating := s.migrating.map (fun m => { m with leafAt := mv m.leafAt }) }

/-- Residual entries and messages for the sectors of a page are delivered (R311 step 3). -/
def deliverFor (s : State) (secs : List Nat) : State :=
  let s := settleMsgs s (fun m => secs.contains m.sector)
  let mine := s.residuals.filter (fun r => secs.contains r.sector)
  mine.reverse.foldl mustSend { s with residuals := s.residuals.filter (fun r => !secs.contains r.sector) }

/-- Steps 4 and 5: shelf entries, tags and bytes go to the new frame. -/
def moveBytes (shelf : Nat → Nat → Nat) (ps : List (Key × Key)) (s : State) : State :=
  let bytes := ps.map (fun p => (p.2, s.mem.get p.1))
  let old := s.shelves
  let s := { s.notedIn (fun k => ps.any (fun p => p.2 == k)) with mem := s.mem.sets bytes, shelves := [], poison := s.poison.filter (fun w => !ps.any (fun p => p.2 / 8 == w)) }
  moveWork ps (moveTags ps (old.foldl (moveShelf shelf ps) s))

/-! ### pmig (R310, R311) -/

/-- The new leaf: the old one with the template's CLASS, MAPID, PEER and FRAME. -/
def newLeaf (old t : Nat) : Nat := fld 0 14 old + at_ 14 (fld 14 50 t)

/-- The template of `pmig` can be used (R310). -/
def templateOk (s : State) (sc : Scope) (pl : Place) (t : Nat) : Bool :=
  let e := newLeaf pl.leaf t
  let np : Place := { pl with leaf := e }
  pteSize pl.leaf == 1 && fld 0 14 t == 0 && leafOk e && e != pl.leaf
    && (pteCls e != .sm || smPresent s (pteFrame e * 2 ^ 14))
    && (keysOf s np pl.base (if pteCls e == .bm then 2 ^ 14 else 1)).isSome
    && ((pteCls e != .pr && pteCls pl.leaf != .pr) || sc == .pod)

/-- The checks of `pmig` (R310), in order; the leaf that it changes. -/
def pmigChecks (sa sb : SReg) (sc : Scope) : M Place := do
  let s ← get
  let va := (s.rd sa).toNat
  modify (fun s => s.walked va)
  let pl ← (match walk s s.front.root s.front.rclass va with
    | .leaf e k base bits => pure { leaf := e, leafAt := k, base := base, bits := bits : Place }
    | .missing info => trapM (mkTrap causeXlateMissing info 0 va)
    | .bad k => trapM (badTable 0 k))
  need (templateOk s sc pl (s.rd sb).toNat) (operandTrapHi 11)
  need ((keysOf s pl pl.base (2 ^ 14)).isSome) (mkTrap causePlacement 0 0 va)
  pure pl

/-- The page that a stream migrates, in the table. -/
def pmigEntry (s : State) : Option Migrating := s.migrating.find? (fun m => m.stack.isNone && m.sid == s.front.sid)

/-- Pages in the migration engine's table, which has room for 16 (R311). -/
def pmigCount (s : State) : Nat := (s.migrating.filter (fun m => m.stack.isNone)).length

/-- Elements left to the owners of every stream, by the places that the tables give before a page moves. -/
def elementsLeft (s : State) : List (BitVec 16 × List (Nat × Nat × Nat)) :=
  ((s.streams.filter (fun f => f.status == .running && f.bcasts != [])).map (·.sid)).map (fun sid =>
    (sid, itemsLeft (match s.streams.find? (fun f => f.status != .idle && f.sid == sid) with
      | some f => { s with front := f, migrating := [] }
      | none => s)))

/-- They go to the owners that the page's new place gives them (R312). -/
def handAll (left : List (BitVec 16 × List (Nat × Nat × Nat))) (s : State) : State :=
  left.foldl (fun s p => s.onStream p.1 (handOver p.2)) s

/-- Steps 4 to 6 of R311: shelf entries go to the engine's side shelf, bytes to the new frame, and the entry changes
at `leafAt` to `leaf`; what is at work on the page goes on there. -/
def movePage (m : Migrating) (shelf : Nat → Nat → Nat) (ps : List (Key × Key)) (leafAt : Key) (leaf : Nat) (s : State) : State :=
  let left := elementsLeft s
  let s := moveBytes shelf ps { s with migrating := s.migrating.erase m }
  handAll left (s.write (movedKey ps leafAt) 8 leaf)

/-- `pmig` (R310, R311): its checks; its wait and its place in the table, where the page drains; the hold; the move.
Uncorrectable data is found before anything has moved. Before the move the leaf is read again: another migration of the
page may have changed it since, and what the checks then find ends the instruction (DEDUCED, log entry 107). -/
def pmigM (sd sa sb : SReg) (sc : Scope) : M Unit := do
  supervisor
  let s ← get
  waitFor (loadsOut s.front == 0)
  let va := (s.rd sa).toNat
  match pmigEntry s with
  | none => do
    let pl ← pmigChecks sa sb sc
    setTlbOp .waiting
    waitFor (quietReady s && pmigCount s < 16)
    setTlbOp .sent
    modify (fun s =>
      let m : Migrating := { sid := s.front.sid, stack := none, asid := s.front.asid, base := pl.base, bits := 14, leaf := pl.leaf, leafAt := pl.leafAt, held := false }
      shootDown { s with migrating := s.migrating ++ [m] } (fun _ => true) m.asid va 0)
    waitM
  | some m => do
    if !m.held then
      waitFor (acked s (fun _ => true) m.asid m.base (2 ^ 14))
      modify (fun s => shootDown { s with migrating := s.migrating.map (fun x => if x = m then { m with held := true } else x) } (fun _ => true) m.asid va 0)
    let s ← get
    waitFor (acked s (fun _ => true) m.asid m.base (2 ^ 14))
    let m := { m with held := true }
    let out (s : State) : State := { s with migrating := s.migrating.erase m }
    match ← captured (pmigChecks sa sb sc) with
    | .error e => do
      modify out
      throw e
    | .ok pl =>
    let ko := (keysOf s pl pl.base (2 ^ 14)).getD []
    modify (fun s => deliverFor s (sectorsOf ko))
    let s ← get
    match (ko.zipIdx).find? (fun p => unreadable s [p.1]) with
    | some p => do
      modify out
      trapM (mkTrap causeDataError 0 0 ((pl.base + p.2) / 32 * 32))
    | none => do
      let t := (s.rd sb).toNat
      let kn := (keysOf s { pl with leaf := newLeaf pl.leaf t } pl.base (2 ^ 14)).getD []
      let old := s.mem.num pl.leafAt 8
      modify (fun s => ((movePage m (fun _ _ => sideShelf) (ko.zip kn) pl.leafAt (newLeaf old t) s).wr sd (BitVec.ofNat 64 old)).leave.done)

def execPmig (sd sa sb : SReg) (sc : Scope) (s : State) : Out := frontM (pmigM sd sa sb sc) s

/-! ### Promotion (R313, R314) -/

/-- The 128 leaves of the level-0 table that a level-1 entry points to. -/
def smallLeaves (s : State) (e1 : Nat) : List Nat :=
  let t := tableKey (fld 14 2 e1) (at_ 10 (fld 22 42 e1))
  (List.range 128).map (fun i => s.num (t + 8 * i) 8)

/-- A leaf without its frame and its A and D bits. -/
def leafAttrs (e : Nat) : Nat := fld 0 7 e + at_ 9 (fld 9 17 e)

def levelOne : Level := { num := 1, shift := 21, width := 9, leaf := 2, next := 10 }

/-- The level-1 entry, or a leaf of the table that it points to, is uncorrectable or absent (R314). -/
def promotionBad (s : State) (n : Nat) : Bool :=
  let at1 := s.phys (smKey (s.stack n).prment.toNat)
  let e1 := s.mem.num at1 8
  unreadable s (keysFrom at1 8)
    || (pteV e1 && pteSize e1 == 0 && pointerOk levelOne e1
        && (List.range 128).any (fun i => unreadable s (keysFrom (s.phys (tableKey (fld 14 2 e1) (at_ 10 (fld 22 42 e1)) + 8 * i)) 8)))

/-- RESULT of the checks made before step 2: 0 when they pass. A stack held in reset has no frame in service (R20, log
entry 78). -/
def promotionCheck (s : State) (n : Nat) : Nat :=
  let r := s.stack n
  let e1 := s.num (smKey r.prment.toNat) 8
  if dieHeld s (8 + n % 16) then 4
  else if promotionBad s n then 6
  else if !(pteV e1 && pteSize e1 == 0 && pointerOk levelOne e1) then 2
  else
    let ls := smallLeaves s e1
    let one (e : Nat) : Bool := pteV e && pteSize e == 1 && pteCls e == .sm && leafOk e && leafAttrs e == leafAttrs (ls.headD 0)
    if !ls.all one then 3
    else
      let here (p : Nat) : Bool := fld 36 16 p == n % 16
      let chunks := (List.range 8).map (fun i => r.prmdst.toNat + i * 2 ^ 18)
      if !ls.all (fun e => here (pteFrame e * 2 ^ 14)) || !here r.prmdst.toNat || !chunks.all (smPresent s) then 4 else 0

/-- The bytes that move: 128 frames to the target in order. -/
def promotionMove (s : State) (ls : List Nat) (dst : Nat) : List (Key × Key) :=
  ls.zipIdx.flatMap (fun p => (List.range (2 ^ 14)).map (fun i =>
    (remapped s (pteFrame p.1 * 2 ^ 14 + i), remapped s (dst + p.2 * 2 ^ 14 + i))))

/-- The 129 entries without A and D. -/
def promotionSeen (s : State) (n : Nat) : List Nat :=
  let e1 := s.num (smKey (s.stack n).prment.toNat) 8
  e1 :: (smallLeaves s e1).map (fun e => leafAttrs e + at_ 26 (e / 2 ^ 26))

/-- The record that Porvex writes when BUSY clears (R313): R444 gives it neither a TYPE nor contents, so both are free
values (DESIGN CHOICE, log entry 28). -/
def promotionEvent (s : State) (n : Nat) : State :=
  let w (i : Nat) : Nat := (Config.promotionEvent s.drawn i).toNat
  ({ s with drawn := s.drawn + 1 } : State).event (w 0 % 256) (8 + n) ((List.range 7).map (fun i => w (i + 1)))

/-- BUSY clears with a RESULT; the held walks go on. -/
def endPromotion (s : State) (n : Nat) (result : BitVec 3) : State :=
  promotionEvent ({ s with migrating := s.migrating.filter (fun m => m.stack != some n) }.setStack n
    { s.stack n with prmBusy := false, prmResult := result, prmSeen := [] }) n

/-- The region of a stack's promotion, in its table. -/
def promotionEntry (s : State) (n : Nat) (held : Bool) : Migrating :=
  let r := s.stack n
  let at1 := s.phys (smKey r.prment.toNat)
  { sid := 0, stack := some n, asid := r.prmAsid, base := r.prmva.toNat, bits := 21, leaf := s.mem.num at1 8, leafAt := at1, held := held }

/-- A promotion starts, and its region drains; or it ends at once when a check fails. -/
def startPromotion (s : State) (n : Nat) : State :=
  let r := s.stack n
  match promotionCheck s n with
  | 0 =>
    let s := { s with migrating := s.migrating ++ [promotionEntry s n false] }
    shootDown (s.setStack n { r with prmBusy := true, prmResult := 0, prmSeen := promotionSeen s n }) (fun _ => true) r.prmAsid r.prmva.toNat (2 ^ 21)
  | c => endPromotion s n (BitVec.ofNat 3 c)

/-- Frames of the region's leaves. -/
def inFrames (s : State) (ls : List Nat) (k : Key) : Bool :=
  keyCls k == .sm && ls.any (fun e => remapped s (pteFrame e * 2 ^ 14) / 2 ^ 14 == k / 2 ^ 14)

/-- The side shelf of a stack's promotion engine takes the entries whose sector changes its owner (R315). -/
def promotionShelf (n own new : Nat) : Nat := if own = new then own else sideShelf + 1 + n

/-- Shelf entries that a move puts on a promotion's side shelf, with those it holds. -/
def sideCount (s : State) (n : Nat) (ps : List (Key × Key)) : Nat :=
  let moves (e : Shelf) : Bool := ps.any (fun p => p.1 / 32 == e.sector && ownerOf s p.2 != some e.own)
  (s.shelves.filter (fun e => e.own == sideShelf + 1 + n || moves e)).length

/-- Steps 4 to 6 of a promotion, once every agent has acknowledged the hold (R314). -/
def promotionSteps (s : State) (n : Nat) : State :=
  let r := s.stack n
  let ls := (s.stack n).prmSeen.drop 1
  let secs := (s.residuals.filter (fun x => inFrames s ls (32 * x.sector))).map (·.sector)
    ++ ((s.msgs ++ s.homeQ).filter (fun x => inFrames s ls (32 * x.sector))).map (·.sector)
  let s := deliverFor s secs
  if (s.shelves.any (fun e => inFrames s ls (32 * e.sector))) && 8192 < sideCount s n (promotionMove s ls r.prmdst.toNat) then endPromotion s n 5
  else if s.poison.any (fun w => inFrames s ls (8 * w)) || ls.any (fun e => !smPresent s (remapped s (pteFrame e * 2 ^ 14))) then endPromotion s n 6
  else if promotionBad s n then endPromotion s n 6
  else if promotionSeen s n ≠ r.prmSeen then endPromotion s n 3
  else
    let now := smallLeaves s (s.num (smKey r.prment.toNat) 8)
    let ad := now.foldl (fun a e => a ||| (e &&& 0x180)) 0
    let leaf := (leafAttrs (now.headD 0) - 2 + 4) + ad + at_ 26 (r.prmdst.toNat / 2 ^ 14)
    let m := promotionEntry s n true
    endPromotion (movePage m (promotionShelf n) (promotionMove s ls r.prmdst.toNat) m.leafAt leaf s) n 1

/-- A promotion goes on to its end: its region is held, and the steps after that follow when every agent has
acknowledged (R314). -/
def finishPromotion (s : State) (n : Nat) : State :=
  let r := s.stack n
  let ready (s : State) : Bool := acked s (fun _ => true) r.prmAsid r.prmva.toNat (2 ^ 21)
  if !r.prmBusy || !ready s || dieHeld s (8 + n % 16) then s
  else
    let s := shootDown { s with migrating := s.migrating.map (fun m => if m.stack = some n then { m with held := true } else m) }
      (fun _ => true) r.prmAsid r.prmva.toNat (2 ^ 21)
    promotionSteps s n

/-- PRMCTL (R313): ASID while not BUSY, then GO. -/
def writePrmctl (s : State) (n : Nat) (v : Word) : State :=
  let r := s.stack n
  if r.prmBusy then s
  else
    let s := s.setStack n { r with prmAsid := v.extractLsb' 16 12 }
    if v.getLsbD 0 then startPromotion s n else s

def execPrmctlGo (stack : BitVec 4) (v : Word) (s : State) : Out :=
  .next (if s.regs.fail then s else writePrmctl s stack.toNat v)
def execPromotionDone (stack : BitVec 4) (s : State) : Out := .next (finishPromotion s stack.toNat)

end Sys2Proof.Machine
end

