-- ==== Sys2Proof/Machine/Dist.lean ====
section
/-! DEFINITION. The distributor: launch queues and records, placement, pre-emption, the run list, time slices,
OP 1 and OP 2 (spec/05_streams.md R104 to R123, spec/19_order_log.md R355). -/

namespace Sys2Proof.Machine

/-! ### Launch queues -/

def State.lq (s : State) (q : BitVec 6) : LQueue := s.lqueues.get q.toFin

def State.setLq (s : State) (q : BitVec 6) (r : LQueue) : State := { s with lqueues := s.lqueues.set q.toNat r q.isLt }

/-- Records beyond the ring set OVR and clear EN (R105). -/
def LQueue.checked (r : LQueue) : LQueue :=
  if 2 ^ r.size.toNat < (r.tail - r.head).toNat then { r with ovr := true, en := false } else r

/-- LQTAIL (R104). -/
def writeTail (s : State) (q : BitVec 6) (v : BitVec 32) : State := s.setLq q ({ s.lq q with tail := v } : LQueue).checked

/-- LQCFG (R105). -/
def writeLqcfg (s : State) (q : BitVec 6) (v : Word) : State :=
  let r := s.lq q
  let size := v.extractLsb' 2 5
  s.setLq q ({ r with
    en := v.getLsbD 0 && 4 ≤ size.toNat && size.toNat ≤ 16, cls := v.getLsbD 1, size := size, pcap := v.extractLsb' 8 3,
    vec := v.extractLsb' 12 11, irq := v.getLsbD 23, ovr := r.ovr && v.getLsbD 24 } : LQueue).checked

/-- Above offset 0x0FFF nothing responds after a FAIL (R415, R438). -/
def unlessFailed (s t : State) : Out := .next (if s.regs.fail then s else t)

def execLqtailWrite (q : BitVec 6) (v : BitVec 32) (s : State) : Out := unlessFailed s (writeTail s q v)
def execLqcfgWrite (q : BitVec 6) (v : Word) (s : State) : Out := unlessFailed s (writeLqcfg s q v)

/-- A physical address in the class of a ring (R104). -/
def ringKey (cls : Bool) (a : Nat) : Key := if cls then smKey (a % 2 ^ 40) else hmKey (a % 2 ^ 52)

/-- Key of the record at the head of a queue. -/
def headKey (r : LQueue) : Key := ringKey r.cls (r.base.toNat * 64 + 64 * (r.head.toNat % 2 ^ r.size.toNat))

/-! ### Records (R108, R109) -/

structure LRec where
  entry : Nat
  args : Nat
  mapsAt : Nat
  domLog : Nat
  streams : Nat
  prio : Nat
  share : Nat
  planes : Nat
  nmaps : Nat
  group : Nat
  gvalid : Bool
  logMode : Nat
  op : Nat
  logId : Nat
  logBlk : Nat
  target : Nat

def recOf (w : List Nat) : LRec :=
  let x := w.getD 3 0
  { entry := w.getD 0 0, args := w.getD 1 0, mapsAt := w.getD 2 0, domLog := fld 0 3 x, streams := fld 8 5 x, prio := fld 13 3 x,
    share := fld 16 8 x, planes := fld 24 2 x, nmaps := fld 28 5 x, group := fld 33 10 x, gvalid := fld 43 1 x == 1,
    logMode := fld 44 2 x, op := fld 46 2 x, logId := fld 48 16 x, logBlk := w.getD 4 0, target := fld 0 16 (w.getD 5 0) }

/-- BADFIELD (R110). -/
def badField (r : LRec) (w : List Nat) (pcap : Nat) : Bool :=
  let x := w.getD 3 0
  fld 3 5 x != 0 || fld 26 2 x != 0 || fld 16 48 (w.getD 5 0) != 0 || w.getD 6 0 != 0
    || r.streams == 0 || min 16 (2 * 2 ^ r.domLog) < r.streams || r.share == 0 || min 2 r.streams < r.planes || 16 < r.nmaps
    || r.op == 3 || r.logMode == 3 || pcap < r.prio || r.entry % 8 != 0 || (r.nmaps != 0 && r.mapsAt % 16 != 0)

/-- Map entry `m` of a block (R109); none when it breaks the layout. -/
def mapEntry (s : State) (k : Key) (banks m : Nat) : Option OwnMap :=
  let a := k + 528 * m
  let gran := s.num (a + 8) 1
  let len := s.num (a + 10) 2
  let stripe := (List.range 256).map (fun i => s.num (a + 16 + 2 * i) 2)
  let log := if gran = 0xFF then 12 else gran
  if ((2 ≤ gran && gran ≤ 12) || gran == 0xFF) && s.num a 8 % 2 ^ log == 0 && s.num (a + 9) 1 == 0 && 1 ≤ len && len ≤ 256 && s.num (a + 12) 4 == 0
      && (stripe.take len).all (fun e => e < banks) && (stripe.drop len).all (· == 0) then
    some { id := BitVec.ofNat 4 m, origin := BitVec.ofNat 64 (s.num a 8), gran := BitVec.ofNat 8 gran,
           stripe := (stripe.take len).map (BitVec.ofNat 16) }
  else none

/-- The maps of a record, or none for BADMAP. -/
def mapsOf (s : State) (r : LRec) (cls : Bool) : Option (List OwnMap) :=
  (List.range r.nmaps).foldr (fun m acc => match mapEntry s (ringKey cls r.mapsAt) (64 * 2 ^ r.domLog) m, acc with
    | some x, some l => some (x :: l)
    | _, _ => none) (some [])

/-! ### What is free (R112, R113) -/

def State.running (s : State) : List Front := s.streams.filter (fun f => f.status == .running)

/-- The stream's domain contains a cell. -/
def covers (f : Front) (c : Nat) : Bool := f.domBase.toNat ≤ c && c < f.domBase.toNat + 2 ^ f.domLog.toNat

/-- The cell is in service (R21, R110, R439). -/
def cellOk (s : State) (c : Nat) : Bool := s.regs.dies.getLsbD (c / 16) && !s.cellsOut.contains (BitVec.ofNat 7 c)

/-- The cell takes streams: in service, with no repair under way (R440) and its die not in reset (R426). -/
def cellFree (s : State) (c : Nat) : Bool :=
  cellOk s c && !s.repairs.any (fun r => (if r.1 then r.2.toNat / 2 else r.2.toNat / 64) == c)
    && (s.dies.get (Fin.ofNat 26 (c / 16))).state == 2

def blockCells (b lg : Nat) : List Nat := (List.range (2 ^ lg)).map (b + ·)

/-- Free sequencers of a block by (sequencer, cell), with the streams of `gone` away. -/
def freeSeqs (rs : List Front) (b lg : Nat) : List (Nat × Bool) :=
  [false, true].flatMap (fun q => ((blockCells b lg).filter (fun c =>
    !rs.any (fun f => f.cell.toNat == c && f.seq == q))).map (fun c => (c, q)))

/-- Pair numbers free in every bank of a block. -/
def freePairs (rs : List Front) (b lg : Nat) : List Bool :=
  [false, true].filter (fun p => !rs.any (fun f => f.plane && f.pair == p && (blockCells b lg).any (covers f)))

/-- The block can hold the record beside the running streams `rs`. -/
def fits (s : State) (rs : List Front) (n p b lg : Nat) : Bool :=
  (blockCells b lg).all (fun c => cellFree s c && (rs.filter (fun f => covers f c)).length + n ≤ 16)
    && n ≤ (freeSeqs rs b lg).length && p ≤ (freePairs rs b lg).length

/-- Aligned blocks. -/
def blocks (lg : Nat) : List Nat := (List.range (128 / 2 ^ lg)).map (· * 2 ^ lg)

/-- Two aligned blocks share a cell. -/
def blocksMeet (b lg c lh : Nat) : Bool := b < c + 2 ^ lh && c < b + 2 ^ lg

/-- A victim of the record has neither saved nor been let go (R119, R120). -/
def holdPending (s : State) (t : Taken) : Bool := s.running.any (fun f => f.preempt && t.victims.contains f.sid)

/-- The victims of a record have all saved or been let go: its hold is over, and it is the next to be looked at
(R119 to R121). -/
def ripe (s : State) (t : Taken) : Bool := t.hold.isSome && !holdPending s t

/-- Blocks held for other records against priority `prio`, while their victims are at their saves (R120, R121). -/
def heldAgainst (s : State) (me : Option (BitVec 6)) (prio b lg : Nat) : Bool :=
  (List.range 64).any (fun i =>
    let q := BitVec.ofNat 6 i
    if me = some q then false
    else match (s.lq q).taken with
      | some t => (match t.hold with
        | some h =>
          let r := recOf t.words
          holdPending s t && blocksMeet b lg h.toNat r.domLog && (prio < r.prio || (t.slice && prio == r.prio))
        | none => false)
      | none => false)

/-- The block R113 chooses: the most free sequencers, then the lowest. -/
def chooseBlock (s : State) (me : Option (BitVec 6)) (r : LRec) (rs : List Front) : Option Nat :=
  ((blocks r.domLog).filter (fun b => fits s rs r.streams r.planes b r.domLog && !heldAgainst s me r.prio b r.domLog)).foldl
    (fun best b => match best with
      | none => some b
      | some a => if (freeSeqs rs a r.domLog).length < (freeSeqs rs b r.domLog).length then some b else some a) none

/-- The lowest SID from 1 with `n` unused in a row (R113). -/
def lowestSid (s : State) (n : Nat) : Option Nat :=
  let used := (s.streams.filter (fun f => f.status != .idle)).map (fun f => f.sid.toNat)
  ((0 :: used).map (· + 1)).foldl (fun best x =>
    if 1 ≤ x ∧ x + n ≤ 2 ^ 16 ∧ (List.range n).all (fun j => !used.contains (x + j)) then
      (match best with
        | none => some x
        | some y => some (min x y))
    else best) none

/-! ### Log contexts (R355, R356) -/

/-- A log block as it would open a context; none when it breaks R356. -/
def openCtx (s : State) (id : BitVec 16) (mode blk : Nat) : Option LogCtx :=
  let w (i : Nat) : Nat := s.num (smKey (blk + 8 * i)) 8
  let size := w 1
  let ctl := w 4
  let budget := fld 2 5 ctl
  if 12 ≤ size && size ≤ 30 && w 0 % 2 ^ size == 0 && w 0 < 2 ^ 40 && smPresent s (w 0) && smPresent s (w 0 + 2 ^ size - 1)
      && fld 20 44 ctl == 0 && (budget == 0 || 10 ≤ budget) && (w 2 + 2 ^ 64 - w 3) % 2 ^ 64 ≤ 2 ^ size / 32 then
    some { id := id, replay := mode == 2, block := smKey blk, base := smKey (w 0), size := BitVec.ofNat 5 size,
           head := BitVec.ofNat 64 (w 2), tail := BitVec.ofNat 64 (w 3), policyGap := fld 0 1 ctl == 1, chkv := fld 1 1 ctl == 1,
           budget := if budget = 0 then 20 else BitVec.ofNat 5 budget, vec := BitVec.ofNat 11 (fld 8 11 ctl), irq := fld 19 1 ctl == 1,
           rvalid := mode == 1 || fld 0 1 (w 5) == 1, diverged := false, stalled := false, from_ := BitVec.allOnes 64,
           dividx := BitVec.allOnes 64, held := [], gap := none, gapNew := false, dropped := 0, lastRel := [], consumed := [],
           stopped := false, headSeen := BitVec.ofNat 64 (w 2), members := [] }
  else none

/-- The context a record joins or would create; none for BADLOG. -/
def ctxFor (s : State) (r : LRec) : Option LogCtx :=
  let id := BitVec.ofNat 16 r.logId
  if r.logBlk % 64 ≠ 0 ∨ !smPresent s r.logBlk then none
  else
    match s.logCtx id with
    | some c => if c.block = smKey r.logBlk ∧ c.replay = (r.logMode == 2) then some c else none
    | none => if 64 ≤ (s.logs.filter (fun c => !c.members.isEmpty)).length then none else openCtx s id r.logMode r.logBlk

/-- The context's streams have all retired, and its writer has records left to write: a launch that names it waits
until it has gone (R367, log entry 74). -/
def lingers (s : State) (id : BitVec 16) : Bool := ((s.logCtx id).map (·.members.isEmpty)).getD false

/-- What a context says of the distributor's next operation in it: in replay its next SCHED record (R123), in record
mode whether its home has room (R363). -/
def schedNext (s : State) (c : LogCtx) : Due :=
  if !c.replay then (if homeFull s c (objCtx c.id) then .wait else .free)
  else
    match dueAt s c (BitVec.ofNat 64 (objCtx c.id)) with
    | .next c i r => if r.type = 5 then .next c i r else .wait
    | d => d

/-- Stores a context, new or known. -/
def putCtx (s : State) (c : LogCtx) : State :=
  if (s.logCtx c.id).isSome then s.setLog c else (({ s with logs := s.logs ++ [c] } : State).putStat c)

/-! ### Placement (R113, R115) -/

/-- A stream as it starts. -/
def newStream (q : LQueue) (r : LRec) (maps : List OwnMap) (b sid0 j : Nat) (at_ : Nat × Bool) (pair : Option Bool) (dom : BitVec 16) (now : Nat) : Front :=
  let simg : BitVec 56 := BitVec.ofNat 56 (q.save.toNat * 2 ^ 15 + 32768 * j)
  let sid : BitVec 16 := BitVec.ofNat 16 (sid0 + j)
  { Front.idle with
    status := .running,
    s := ((Front.idle.s.set 1 (BitVec.ofNat 64 r.args)).set 2 (BitVec.ofNat 64 j)).set 3 (BitVec.ofNat 64 r.streams),
    pc := BitVec.ofNat 64 r.entry,
    csr := { Csrs.reset with share := BitVec.ofNat 8 r.share, prio := BitVec.ofNat 3 r.prio, mode := q.supv, tvec := q.tvec, tctx := simg.setWidth 64 },
    sid := sid, lidx := BitVec.ofNat 4 j, lcnt := BitVec.ofNat 4 (r.streams - 1), cell := BitVec.ofNat 7 at_.1, seq := at_.2,
    domBase := BitVec.ofNat 7 b, domLog := BitVec.ofNat 3 r.domLog, plane := pair.isSome, pair := pair.getD false, domId := dom, maps := maps,
    launch := BitVec.ofNat 16 sid0, asid := q.asid, root := q.root, rclass := q.rclass, simg := simg, pasid := q.pasid, pen := q.pen, link := q.link,
    logMode := BitVec.ofNat 2 r.logMode, logId := if r.logMode = 0 then 0 else BitVec.ofNat 16 r.logId,
    clock := [(sid.toNat % 256, 1)], placedAt := now }

/-- The launch's join (R115): at once, or, in replay, with the group full, or with no room for its record at the
group's home (R363), in the stream's own first turn. -/
def firstJoin (r : LRec) (s : State) (sid : BitVec 16) : State :=
  let g := BitVec.ofNat 10 r.group
  let room : Bool := r.logMode == 0 || ((s.logCtx (BitVec.ofNat 16 r.logId)).map (fun c => !homeFull s c (objGroup g.toNat))).getD true
  if r.logMode = 2 ∨ !room ∨ 256 ≤ (s.group g).size then s.onStream sid (fun s => { s with front := { s.front with joining := some g } })
  else s.onStream sid (fun s => joinGroup s g)

/-- A of a placement record (R362). -/
def placeA (r : LRec) (b sid0 : Nat) (pair : Option Bool) : Nat :=
  sid0 + at_ 16 r.streams + at_ 21 b + at_ 28 (boolNat pair.isSome) + at_ 29 (boolNat (pair.getD false))

/-- The queue goes on to its next record, LSTAT written (R106). -/
def finishRecord (s : State) (q : BitVec 6) (v : Nat) : State :=
  let r := s.lq q
  let s := putLstat s q (headKey r + 56) (BitVec.ofNat 64 v)
  s.setLq q { r with head := r.head + 1, taken := none }

/-- Places a record on block `b` from SID `sid0` with the pair numbers `ps`; the domain takes the maps as they now
stand (R109). -/
def place (s : State) (q : BitVec 6) (maps : List OwnMap) (r : LRec) (ctx : Option LogCtx) (b sid0 : Nat) (ps : List Bool) : State :=
  let lq := s.lq q
  let dom := s.nextDom + 1
  let rs := s.running
  let seqs := freeSeqs rs b r.domLog
  let fs : List Front := (List.range r.streams).map (fun j =>
    newStream lq r maps b sid0 j (seqs.getD j (0, false)) (if j < r.planes then ps[j]? else none) dom s.placements)
  let lst := 1 + at_ 16 sid0 + at_ 32 dom.toNat
  let l : Launch := { sid0 := BitVec.ofNat 16 sid0, count := r.streams, left := fs.map (fun (f : Front) => f.sid), queue := q, lstatAt := headKey lq + 56,
                      lstat := BitVec.ofNat 64 lst, domId := dom, killers := [] }
  let s := match ctx with
    | some c => putCtx s { c with members := c.members ++ fs.map (fun (f : Front) => f.sid) }
    | none => s
  let s := { s with fronts := s.fronts ++ fs, launches := s.launches ++ [l], placements := s.placements + 1, nextDom := dom }
  let s := finishRecord s q lst
  let s := if r.logMode = 1 then
      recordIn s (BitVec.ofNat 16 r.logId)
        { type := 5, sub := 0, sid := BitVec.ofNat 16 sid0, obj := BitVec.ofNat 64 (objCtx (BitVec.ofNat 16 r.logId)),
          a := BitVec.ofNat 64 (placeA r b sid0 (if r.planes = 0 then none else ps[0]?)), b := BitVec.ofNat 64 dom.toNat }
    else s
  if r.gvalid then fs.foldl (fun s f => firstJoin r s f.sid) s else s

/-- A placement in replay takes the block, SIDs and pairs its record names, once they are free (R123). A record that
names another number of streams, or other pairs than PLANES gives, is another launch's. -/
def placeLogged (s : State) (q : BitVec 6) (maps : List OwnMap) (r : LRec) (c : LogCtx) (i : Word) (a : Nat) : Option State :=
  let b := fld 21 7 a
  let sid0 := fld 0 16 a
  let p0 := fld 29 1 a == 1
  let free := freePairs s.running b r.domLog
  let ps := [p0, !p0].take r.planes
  if fld 16 5 a == r.streams && (fld 28 1 a == 1) == (r.planes != 0) && !(p0 && r.planes != 1)
      && fits s s.running r.streams r.planes b r.domLog && !heldAgainst s (some q) r.prio b r.domLog && b % 2 ^ r.domLog == 0 && ps.all free.contains && 1 ≤ sid0
      && (List.range r.streams).all (fun j => !s.live (BitVec.ofNat 16 (sid0 + j))) then
    let s := putCtx s c
    let (s, c) := consume s c i
    some (place (s.setLog c) q maps r (some c) b sid0 ps)
  else none

/-! ### Pre-emption (R118, R119) -/

/-- PREEMPT is raised at a stream that has not ended. -/
def raisePreempt (s : State) (sid : BitVec 16) : State :=
  s.mapStreams (fun f => if f.status == .running && f.sid == sid && !f.retiring then { f with ppre := true, preempt := true } else f)

/-- Streams that the distributor never takes as victims: those the log alone pre-empts (R123), and those that have
ended. -/
def spared (f : Front) : Bool := f.logMode == 2 || f.retiring

/-- Victims for a block, in the order given, one at a time until it fits. -/
def victimsFor (s : State) (r : LRec) (b : Nat) (rs : List Front) : List Front → List Front → Option (List Front)
  | vs, [] => if fits s rs r.streams r.planes b r.domLog then some vs else none
  | vs, c :: cs =>
    if fits s rs r.streams r.planes b r.domLog then some vs
    else victimsFor s r b (rs.filter (fun f => f.sid != c.sid)) (vs ++ [c]) cs

/-- R118's order: lowest priority, latest placement, highest SID. -/
def victimBefore (f g : Front) : Bool :=
  f.csr.prio.toNat < g.csr.prio.toNat
    || (f.csr.prio == g.csr.prio && (g.placedAt < f.placedAt || (f.placedAt == g.placedAt && g.sid.toNat ≤ f.sid.toNat)))

/-- R121's order: longest running, then highest SID. -/
def sliceBefore (f g : Front) : Bool := f.placedAt < g.placedAt || (f.placedAt == g.placedAt && g.sid.toNat ≤ f.sid.toNat)

/-- The block that needs the fewest victims, on a tie the lowest, with its victims. -/
def fewestVictims (s : State) (q : BitVec 6) (r : LRec) (cands : List Front) (before : Front → Front → Bool) : Option (Nat × List Front) :=
  (blocks r.domLog).foldl (fun best b =>
    if heldAgainst s (some q) r.prio b r.domLog then best
    else
      let mine := sortBy before (cands.filter (fun f => (blockCells b r.domLog).any (covers f)))
      match victimsFor s r b s.running [] mine, best with
      | some vs, some (a, us) => if vs.length < us.length then some (b, vs) else some (a, us)
      | some vs, none => some (b, vs)
      | none, x => x) none

/-- The record pre-empts, and its block is held for it. -/
def preemptFor (s : State) (q : BitVec 6) (t : Taken) (slice : Bool) (b : Nat) (vs : List Front) : State :=
  let s := s.setLq q { s.lq q with taken := some { t with hold := some (BitVec.ofNat 7 b), victims := vs.map (·.sid), slice := slice } }
  vs.foldl (fun s f => raisePreempt s f.sid) s

/-! ### OP 1 and OP 2 (R117, R122) -/

/-- A stream takes a new SHARE; the image of one that is away takes it too (R117). -/
def takeShare (share : Nat) (s : State) : State :=
  let s := s.mapCsr (fun c => { c with share := BitVec.ofNat 8 share })
  if s.front.status = .out then
    match M.exec (asSupervisor (imagePages .write)) s with
    | (.ok ks, s) => s.write (imageKey ks shareSlot) 8 (csrNum s 0x010)
    | (.error _, _) => s
  else s

def opLstat (l : Launch) : Nat := at_ 16 l.sid0.toNat + at_ 32 l.domId.toNat

/-- OP 1; none while its record is not next in replay. -/
def opShare (s : State) (q : BitVec 6) (l : Launch) (share : Nat) : Option State :=
  let f := s.streams.find? (fun f => f.status != .idle && l.left.contains f.sid)
  let ctx := f.bind (fun f => if f.logMode = 0 then none else s.logCtx f.logId)
  let go (s : State) : State :=
    let s := l.left.foldl (fun s sid => s.onStream sid (takeShare share)) s
    let s := match ctx with
      | some c => recordIn s c.id { type := 5, sub := 3, sid := l.sid0, obj := BitVec.ofNat 64 (objCtx c.id), a := BitVec.ofNat 64 share, b := 0 }
      | none => s
    finishRecord s q (4 + opLstat l)
  match ctx with
  | none => some (go s)
  | some c => (match schedNext s c with
    | .free => some (go s)
    | .wait => none
    | .next c i r => if r.sub = 3 ∧ r.sid = l.sid0 then
        let (s, c) := consume s c i
        some (go (s.setLog c))
      else none)

/-- The streams of a launch that is being terminated: those away are discarded, the others pre-empted. -/
def killLaunch (s : State) (l : Launch) : State :=
  l.left.foldl (fun s sid =>
    match s.streams.find? (fun f => f.status != .idle && f.sid == sid) with
    | some f => if f.status = .out then (if f.retiring then s else s.onStream sid retireFront) else if f.preempt then s else raisePreempt s sid
    | none => s) s

/-- OP 2. -/
def opEnd (s : State) (q : BitVec 6) (l : Launch) : State :=
  let k := headKey (s.lq q) + 56
  let s := finishRecord s q (opLstat l)
  let l' := { l with killers := l.killers ++ [(q, k, BitVec.ofNat 64 (opLstat l))] }
  killLaunch { s with launches := s.launches.map (fun m => if m.sid0 == l.sid0 then l' else m) } l'

/-! ### Serving a queue (R106) -/

/-- Rejected with a reason (R110, R355). -/
def reject (s : State) (q : BitVec 6) (reason : Nat) : State := finishRecord s q (2 + at_ 4 reason)

/-- A placement record with its maps: placed, rejected, pre-empting, or none while it waits. `may` allows
pre-emption. Where several reasons to reject apply, the first in the order BADFIELD, BADMAP, NOFIT, BADLOG is
written (DESIGN CHOICE, log entry 73). -/
def servePlace (s : State) (q : BitVec 6) (t : Taken) (maps : List OwnMap) (r : LRec) (may : Bool) : Option State :=
  if !(blocks r.domLog).any (fun b => (blockCells b r.domLog).all (cellOk s)) then some (reject s q 3)
  else if r.logMode ≠ 0 ∧ lingers s (BitVec.ofNat 16 r.logId) then none
  else if r.logMode ≠ 0 ∧ (ctxFor s r).isNone then some (reject s q 5)
  else
    let ctx := if r.logMode = 0 then none else ctxFor s r
    match (match ctx with
      | some c => schedNext s c
      | none => .free) with
    | .wait => none
    | .next c i x => if x.sub = 0 then placeLogged s q maps r c i x.a.toNat else none
    | .free =>
      match chooseBlock s (some q) r s.running, lowestSid s r.streams with
      | some b, some sid0 => some (place s q maps r ctx b sid0 (freePairs s.running b r.domLog))
      | _, _ =>
        if !may || holdPending s t then none
        else
          let cands := s.running.filter (fun f => f.csr.prio.toNat < r.prio && !spared f)
          match fewestVictims s q r cands victimBefore with
          | some (b, vs) => if vs.isEmpty then none else some (preemptFor s q t false b vs)
          | none => none

/-- What a queue's head record leads to; none while it waits. -/
def serveTaken (s : State) (q : BitVec 6) (t : Taken) (may : Bool) : Option State :=
  let r := recOf t.words
  if badField r t.words (s.lq q).pcap.toNat then some (reject s q 1)
  else if r.op = 0 then
    match mapsOf s r (s.lq q).cls with
    | none => some (reject s q 2)
    | some maps => servePlace s q t maps r may
  else
    match s.launches.find? (fun l => l.sid0.toNat == r.target) with
    | none => some (reject s q 4)
    | some l => if r.op = 1 then opShare s q l r.share else some (opEnd s q l)

/-- A queue has a record the distributor may take. -/
def queueOpen (s : State) (q : BitVec 6) : Bool := (s.lq q).en && (s.lq q).head != (s.lq q).tail

/-- The record at a queue's head: read once (R106) and numbered as it is taken (R114). -/
def takeHead (s : State) (q : BitVec 6) : State × Taken :=
  match (s.lq q).taken with
  | some t => (s, t)
  | none =>
    let k := headKey (s.lq q)
    let t : Taken := { words := (List.range 8).map (fun i => s.num (k + 8 * i) 8), epoch := s.epoch + 1, hold := none, victims := [], slice := false }
    (s.numbered.setLq q { s.lq q with taken := some t }, t)

/-- Numbers that the standby hub has not confirmed (R114): those of the records that are taken. -/
def unconfirmed (s : State) : List (BitVec 32) := s.lqueues.toList.filterMap (fun r => r.taken.map (·.epoch))

/-! ### The run list (R120) -/

def runListBefore (f g : Front) : Bool := g.csr.prio.toNat < f.csr.prio.toNat || (f.csr.prio == g.csr.prio && f.outAt ≤ g.outAt)

def runList (s : State) : List Front := sortBy runListBefore (s.streams.filter (fun f => f.status == .out && !f.retiring))

/-- Where a stream that is away can be resumed, with the streams `rs` running. -/
def resumeAt (s : State) (f : Front) (rs : List Front) : Option (Nat × Bool) :=
  let b := f.domBase.toNat
  let lg := f.domLog.toNat
  if f.heldBack || heldAgainst s none f.csr.prio.toNat b lg
      || !(blockCells b lg).all (fun c => cellFree s c && (rs.filter (fun g => covers g c)).length < 16)
      || (f.plane && !(freePairs rs b lg).contains f.pair) then none
  else (freeSeqs rs b lg).head?

/-- Resumes a stream when it can be; in replay on the sequencer its record names (R123). -/
def tryResume (s : State) (f : Front) : Option State :=
  let on (s : State) (at_ : Nat × Bool) : State := s.onStream f.sid (resumeFront (BitVec.ofNat 7 at_.1) at_.2)
  let moved (t : State) : Option State :=
    if t.streams.any (fun g => g.sid == f.sid && g.status == .out) then none else some t
  match resumeAt s f s.running with
  | none => none
  | some p =>
    match (if f.logMode = 0 then none else s.logCtx f.logId) with
    | none => moved (on s p)
    | some c => (match schedNext s c with
      | .free => moved (on s p)
      | .wait => none
      | .next c i r =>
        let w := (fld 0 7 r.a.toNat, fld 7 1 r.a.toNat == 1)
        if r.sub = 2 ∧ r.sid = f.sid ∧ (freeSeqs s.running f.domBase.toNat f.domLog.toNat).contains w then
          moved (let (s, c) := consume s c i
            on (s.setLog c) w)
        else none)

/-- The first stream of a list that can be resumed is. -/
def resumeFirst (s : State) (fs : List Front) : Option State := fs.findSome? (tryResume s)

/-! ### A turn of the distributor -/

/-- Priority of a record that is taken. -/
def takenPrio (t : Taken) : Nat := (recOf t.words).prio

/-- A record that is taken: the run list is walked before it (R120). One whose victims have gone is to have their
block, so that streams of its priority or higher alone go before it, and where a time slice has freed the block those of
higher priority alone (R120, R121). -/
def recordTurn (s : State) (q : BitVec 6) (t : Taken) (may : Bool) : Option State :=
  let first (f : Front) : Bool :=
    !ripe s t || takenPrio t < f.csr.prio.toNat || (takenPrio t == f.csr.prio.toNat && !t.slice)
  match resumeFirst s ((runList s).filter first) with
  | some u => some u
  | none =>
    if ripe s t then
      let t := { t with hold := none, victims := [] }
      let s := s.setLq q { s.lq q with taken := some t }
      some ((serveTaken s q t may).getD s)
    else serveTaken s q t may

/-- One queue's turn. The record stays taken while it waits, and the turn passes on once it is finished with. -/
def queueServed (s : State) (q : BitVec 6) : Option State :=
  if queueOpen s q then
    let (s', t) := takeHead s q
    match recordTurn s' q t true with
    | some u => some { u with queueTurn := if (u.lq q).head = (s.lq q).head then u.queueTurn else q + 1 }
    | none => if (s.lq q).taken.isNone then some s' else none
  else none

/-- A stream that has ended goes on leaving its groups, when it can. -/
def retireOn (s : State) (f : Front) : Option State :=
  if f.retiring then
    let t := s.onStream f.sid retireFront
    if t.streams.any (fun g => g.sid == f.sid && g.status != .idle && g.grps == f.grps) then none else some t
  else none

/-- The record at a queue's head is ripe. -/
def ripeHead (s : State) (q : BitVec 6) : Bool := ((s.lq q).taken.map (ripe s)).getD false

/-- The next thing the distributor has to do, if any: streams that have ended, a record whose victims have gone, the run
list, then queues in turn from the one after the last served. -/
def distributor (s : State) : Option State :=
  if !s.regs.ready then none
  else if s.lqueues.toList.all (fun r => !r.en || r.head == r.tail) && s.streams.all (fun f => f.status != .out && !f.retiring) then none
  else
    match s.streams.findSome? (retireOn s) with
    | some t => some t
    | none =>
      let turns := (List.range 64).map (fun i => s.queueTurn + BitVec.ofNat 6 i)
      match (turns.filter (ripeHead s)).findSome? (queueServed s) with
      | some t => some t
      | none =>
        match resumeFirst s (runList s) with
        | some t => some t
        | none => turns.findSome? (queueServed s)

def execLaunchRecord (q : BitVec 6) (s : State) : Out :=
  .next (if s.regs.ready then (queueServed s q).getD s else s)

/-- A waiting record that has become feasible is placed (R113). -/
def execPlaceLaunch (q : BitVec 6) (s : State) : Out :=
  .next (match (s.lq q).taken with
    | none => s
    | some _ =>
      let (_, t) := takeHead s q
      if s.regs.ready && queueOpen s q && (recOf t.words).op == 0 then (recordTurn s q t false).getD s else s)

/-- A launch that an OP 2 record ends (R122). -/
def execTerminateLaunch (target : BitVec 16) (s : State) : Out :=
  .next (match s.launches.find? (fun l => l.sid0 == target && l.killers != []) with
    | some l => killLaunch s l
    | none => s)

/-- A victim that has not saved in time keeps running (R119). One that an OP 2 record or a repair stops is not
let go (R122, R440). The withdrawal takes a number of its own (DESIGN CHOICE, log entry 88). -/
def execPretmoExpiry (sid : BitVec 16) (s : State) : Out :=
  .next (s.onStream sid (fun s =>
    if s.front.preempt ∧ s.front.status = .running ∧ !doomed s s.front ∧ !s.front.heldBack then
      let s := { s with front := { s.front with preempt := false, ppre := false } }
      (s.event 9 (dieOf s.front) [sid.toNat]).numbered
    else s))

def execStreamResume (sid : BitVec 16) (s : State) : Out :=
  .next (match s.streams.find? (fun f => f.status == .out && f.sid == sid) with
    | some f => (tryResume s f).getD s
    | none => s)

/-! ### Time slices (R121) -/

/-- Victims in order until a stream that is away can be resumed. -/
def sliceVictims (s : State) (f : Front) (rs : List Front) : List Front → List Front → Option (List Front)
  | vs, [] => if (resumeAt s f rs).isSome then some vs else none
  | vs, c :: cs =>
    if (resumeAt s f rs).isSome then some vs else sliceVictims s f (rs.filter (fun g => g.sid != c.sid)) (vs ++ [c]) cs

/-- The records that wait at the heads of queues, with their queues. -/
def waitingRecs (s : State) : List (BitVec 6 × Taken) :=
  ((List.range 64).map (BitVec.ofNat 6)).filterMap (fun q => if queueOpen s q then (s.lq q).taken.map (fun t => (q, t)) else none)

/-- The rotation of equal priorities. Victims that are still at their saves are on their way out. -/
def timeSlice (s : State) : State :=
  let rl := runList s
  let waits := waitingRecs s
  let prios := rl.map (fun f => f.csr.prio.toNat) ++ waits.map (fun w => takenPrio w.2)
  let p := prios.foldl max 0
  let rs := s.running
  if prios.isEmpty || rs.isEmpty || rs.any (fun f => f.csr.prio.toNat < p) || !rs.any (fun f => f.csr.prio.toNat == p) then s
  else
    let cands := sortBy sliceBefore (rs.filter (fun f => f.csr.prio.toNat == p && !spared f && !f.preempt))
    match rl.find? (fun f => f.csr.prio.toNat == p) with
    | some f =>
      let near := cands.filter (fun g => (blockCells f.domBase.toNat f.domLog.toNat).any (covers g))
      (match sliceVictims s f (rs.filter (fun g => !g.preempt)) [] near with
        | some vs => vs.foldl (fun s g => raisePreempt s g.sid) s
        | none => s)
    | none => (match waits.find? (fun w => takenPrio w.2 == p) with
      | none => s
      | some (q, t) =>
        if holdPending s t then s
        else match fewestVictims s q (recOf t.words) cands sliceBefore with
          | some (b, vs) => preemptFor s q t true b vs
          | none => s)

def execTimeSlice (s : State) : Out := .next (if s.regs.ready then timeSlice s else s)

end Sys2Proof.Machine
end

