-- ==== Sys2Proof/Machine/Banks.lean ====
section
/-! DEFINITION. Banks and channel engines at their own pace (spec/08_banks.md, spec/06_scalar.md): beginning and
retiring a broadcast, pulls, the floor, and scalar accesses at their owners. -/

namespace Sys2Proof.Machine

/-! ### Work on a broadcast -/

/-- The translating agent of an owner: a bank's TLB is its own, a channel engine has none (R303). -/
def ownerAgent (own : Nat) : Nat := if own < 8192 then own else noTlb + (own - 8192)

/-- An owner's eye on its sources (R192). -/
def ownerEye (own : Nat) (b : Bcast) (bufs : List (Nat × List Byte × RaceTag)) : Eye :=
  { agent := ownerAgent own, who := some own, stamp := b.isn - 1, bufs := bufs, elem := 0, race := b.race, watch := b.watch }

/-- Numbers of the items of a broadcast. Which of them are an owner's it finds as it comes to them, from index bytes
and shape records as at the end of the instruction before (R192). -/
def itemsOf (s : State) (b : Bcast) (info : BInfo) (own : Nat) : List Nat :=
  match (M.exec (info.body.plan (ownerEye own b []) none b) s).1 with
  | .error _ => []
  | .ok items => (startItems b items).map (·.no)

/-- An owner's items in order, the others' passed over; one that stops leaves nothing behind but the bits that its
walks have set (R302). -/
def workItems (own : Nat) : List Item → State → Bcast → List Nat → State × Bcast × List Nat × Option (Nat × Stop)
  | [], s, b, todo => (s, b, todo, none)
  | it :: r, s, b, todo =>
    match (M.exec (it.own b) s).1 with
    | .error st => (s, b, todo, some (it.elem, st))
    | .ok o =>
      if o ≠ some own then workItems own r s b (todo.filter (· != it.no))
      else
        match M.exec (it.run b) s with
        | (.ok x, s') => workItems own r s' (b.took it x) (todo.filter (· != it.no))
        | (.error st, s') => (s', b, todo, some (it.elem, st))

/-- Pulls under way from an owner, of every stream. -/
def pullsOut (s : State) (own : Nat) : Nat := ((s.streams.flatMap (·.pulls)).filter (fun q => q.from_ == own)).length

/-- Pulls an element needs: one for each sector under a stamp, at most 64 of an owner (R192). -/
def sendPulls (s : State) (own : Nat) (b : Bcast) (elem : Nat) (ws : List Want) : State :=
  ws.foldl (fun s w =>
    let same (q : Pull) : Bool := q.from_ == own && q.isn == b.isn && q.sector == w.sector && q.base == w.base
    if s.front.pulls.any same then
      { s with front := { s.front with pulls := s.front.pulls.map (fun q => if same q then { q with lo := min q.lo w.lo, hi := max q.hi w.hi } else q) } }
    else if 64 ≤ pullsOut s own then s
    else
      let q : Pull := { own := w.own, from_ := own, isn := b.isn, elem := elem, sector := w.sector, lo := w.lo, hi := w.hi,
                        base := w.base, bits := w.bits, stamp := b.isn - 1, age := s.pullAge, phase := .sent }
      { s with pullAge := s.pullAge + 1, front := { s.front with pulls := s.front.pulls ++ [q] } }) s

/-- Keeps the lowest fault the owners have found, that of R199 before any other of its instruction (R211). -/
def noteFound (s : State) (n : Nat) (t : TrapInfo) : State :=
  let keep : Bool := match s.front.found with
    | some (m, u) => m < n || (m == n && (shelfFull u || (!shelfFull t && u.elem ≤ t.elem)))
    | none => false
  if keep then s else { s with front := { s.front with found := some (n, t) } }

/-- What stops an owner at an element: it pulls, waits, or reports its fault (R192, R198, R204, R211). -/
def stopped (s : State) (own : Nat) (b : Bcast) (elem : Nat) (st : Stop) : State :=
  match st with
  | .need ws => sendPulls s own b elem ws
  | .wait => s
  | .trap t => noteFound s b.isn t

/-- An owner goes on with its items until one stops, after it has checked its shape records (R164); an engine at a run
keeps what its pulls bring. -/
def goOn (s : State) (b : Bcast) (info : BInfo) (w : Work) : State :=
  if runActive s w.own b.isn then setWork s w
  else
  let fp := match (M.exec (info.body.foot (eyeOf s b) b) s).1 with
    | .ok r => r
    | .error _ => none
  let e := ownerEye w.own b w.bufs
  match M.exec (do info.body.ready e b; info.body.plan e fp b) (setWork s w) with
  | (.error st, s) => stopped s w.own b 0 st
  | (.ok items, s) =>
    let (s, b, todo, st) := workItems w.own (items.filter (fun it => w.todo.contains it.no)) s b w.todo
    let s := setWork (putB s b) { w with todo := todo }
    match st with
    | none => s
    | some (k, st) => stopped s w.own b k st

/-- A bank may begin the broadcast after the one it has retired (R188); one that writes a page in migration when the
floor is at the one before (R311). -/
def mayBegin (s : State) (own : Nat) (b : Bcast) (info : BInfo) : Bool :=
  b.isn == retiredOf s own + 1 && b.isn ≤ floorAt s own + b.carry.skew.toNat && accessesAt s own (b.isn - 1)
    && !runActive s own b.isn && (b.isn == floorAt s own + 1 || !writesMoving s b info)

/-- A bank or engine of the domain begins its next broadcast, or goes on with one it has begun. -/
def bankWork (own : Nat) (s : State) : State :=
  if !paced s || !inDomain s.front.domBase.toNat s.front.domLog.toNat own then s
  else
    match bcastAt s (retiredOf s own + 1) with
    | none => s
    | some (b, info) =>
      match s.front.works.find? (fun w => w.own == own && w.isn == b.isn) with
      | some w => goOn s b info w
      | none =>
        if mayBegin s own b info then goOn s b info { own := own, isn := b.isn, todo := itemsOf s b info own, bufs := [] }
        else s

def execBankBeginBroadcast (sid : BitVec 16) (own : BitVec 14) (s : State) : Out := .next (s.onStream sid (bankWork own.toNat))

/-- A bank retires a broadcast it has begun, once its elements and the accesses stamped with it are performed
(R189). -/
def bankRetire (own : Nat) (s : State) : State :=
  let n := retiredOf s own + 1
  match s.front.works.find? (fun w => w.own == own && w.isn == n) with
  | none => s
  | some w =>
    if paced s && w.todo.isEmpty && owedAt s own n then
      setRetired { s with front := { s.front with works := s.front.works.filter (fun x => !(x.own == own && x.isn == n)) } } own n
    else s

def execBankRetire (sid : BitVec 16) (own : BitVec 14) (s : State) : Out := .next (s.onStream sid (bankRetire own.toNat))

/-! ### The floor (R189, R197, R224) -/

/-- Every owner of a broadcast's elements has retired it, and the accesses stamped with it are performed. An
owner of none retires it at once (R9). -/
def allRetired (s : State) (b : Bcast) (info : BInfo) : Bool :=
  s.front.accesses.all (fun a => a.done.isSome || b.isn < a.stamp || drained s a)
    && (match (M.exec (info.body.plan (eyeOf s b) none b) s).1 with
      | .error _ => false
      | .ok items => (startItems b items).all (fun it =>
          match (M.exec (it.own b) s).1 with
          | .ok (some o) => b.isn ≤ retiredOf s o
          | .ok none => true
          | .error _ => false))

/-- The floor moves past as many broadcasts as it can, but past none that follows a debugger's step (R431). -/
def floorSteps : Nat → State → State
  | 0, s => s
  | n + 1, s =>
    match s.front.bcasts with
    | [] => s
    | b :: _ =>
      if landed s then s
      else if frontDriven b.word then (if b.estart = 2 ^ 17 then resumeB s else s)
      else
        match infoOfWord b.word with
        | none => s
        | some info => if allRetired s b info then floorSteps n (finishB s b info.body).1 else s

/-- Every owner hears the floor; stores that lie at or below it are beyond a rollback. -/
def floorHeard (s : State) : State :=
  { s with front := { s.front with
    progress := s.front.progress.map (fun p => { p with floor := s.floor })
    accesses := s.front.accesses.filter (fun a => !(a.acked && a.stamp ≤ s.floor)) } }

def deliverFloor (s : State) : State := if paced s then floorHeard (floorSteps s.front.bcasts.length s) else s

def execFloorDelivery (sid : BitVec 16) (s : State) : Out := .next (s.onStream sid deliverFloor)

/-- The tree returns the oldest broadcast's result (R179, R224). -/
def returnResult (s : State) : State :=
  match s.front.bcasts with
  | [] => s
  | b :: _ =>
    match infoOfWord b.word with
    | none => s
    | some info =>
      if paced s && !landed s && info.body.result.isSome && !frontDriven b.word && allRetired s b info then floorHeard (finishB s b info.body).1 else s

def execTreeResultReturn (sid : BitVec 16) (s : State) : Out := .next (s.onStream sid returnResult)

/-! ### Pulls (R193, R194) -/

def setPull (s : State) (k : Nat) (p : Pull) : State := { s with front := { s.front with pulls := s.front.pulls.set k p } }

/-- The owner can answer: it has retired the stamp, and the accesses up to it are performed. -/
def pullReady (s : State) (p : Pull) : Bool := p.stamp ≤ retiredOf s p.own && accessesAt s p.own p.stamp

/-- Pulls parked at an owner, of every stream. -/
def parkedAt (s : State) (own : Nat) : List Pull := (s.streams.flatMap (·.pulls)).filter (fun p => p.own == own && p.phase == .parked)

/-- An older pull of any stream that is parked at the same owner goes first. -/
def olderReady (s : State) (p : Pull) : Bool :=
  s.streams.any (fun f => f.pulls.any (fun q => q.own == p.own && q.phase == .parked && q.age < p.age && pullReady { s with front := f } q))

/-- The sector as at the end of the stamp's instruction (R193). -/
def pullBytes (s : State) (p : Pull) : List Byte := (keysFrom (32 * p.sector) 32).map (byteAt s p.stamp)

/-- The requester begins to charge a wait of its pull to the instruction that its owner has still to retire: the lag is
what that has left to perform there (R436). -/
def chargeWait (s : State) (p : Pull) : State :=
  let r := retiredOf s p.own + 1
  let pcOf (n : Nat) : Option Word := (s.front.bcasts.find? (fun b => b.isn == n)).map (·.pc)
  match s.front.csr.stallEn, pcOf p.isn, pcOf r with
  | true, some cpc, some ppc =>
    let lag := BitVec.ofNat 32 ((itemsLeft s).filter (fun x => x.1 == r && x.2.2 == p.own)).length
    let same (c : Charge) : Bool := c.own == p.from_ && c.cpc == cpc && c.ppc == ppc
    let new : Charge := { own := p.from_, cpc := cpc, ppc := ppc, lag := lag, waits := 1 }
    { s with front := { s.front with
      charges :=
        if s.front.charges.any same then
          s.front.charges.map (fun c => if same c then { c with lag := if c.lag < lag then lag else c.lag, waits := c.waits + 1 } else c)
        else s.front.charges ++ [new] } }
  | _, _, _ => s

/-- An owner receives a pull, or looks again at one it has parked. Its reply brings the sector's race tag as it stands
(R330). -/
def servePull (k : Nat) (s : State) : State :=
  match s.front.pulls[k]? with
  | none => s
  | some p =>
    if p.phase == .sent || p.phase == .parked then
      if pullReady s p && !olderReady s p then sweepRemaps (setPull s k { p with phase := .replied (pullBytes s p) (s.tag p.sector) })
      else if p.phase == .parked then s
      else if (parkedAt s p.own).length < 128 then setPull (chargeWait s p) k { p with phase := .parked }
      else setPull (chargeWait s p) k { p with phase := .refused (retiredOf s p.own) }
    else s

def execPullRequest (sid : BitVec 16) (k : BitVec 16) (s : State) : Out := .next (s.onStream sid (servePull k.toNat))

/-- A reply reaches the requester, whose waiting elements go on. -/
def takePull (k : Nat) (s : State) : State :=
  match s.front.pulls[k]? with
  | none => s
  | some p =>
    match p.phase with
    | .replied bs tag =>
      let s := { s with front := { s.front with pulls := s.front.pulls.eraseIdx k } }
      (match s.front.works.find? (fun w => w.own == p.from_ && w.isn == p.isn), bcastAt s p.isn with
        | some w, some (b, info) => goOn s b info { w with bufs := w.bufs ++ [(p.sector, bs, tag)] }
        | _, _ => s)
    | _ => s

def execPullReply (sid : BitVec 16) (k : BitVec 16) (s : State) : Out := .next (s.onStream sid (takePull k.toNat))

/-- A refused pull is sent again when the requester has heard a floor of its stamp. -/
def resendPull (k : Nat) (s : State) : State :=
  match s.front.pulls[k]? with
  | none => s
  | some p =>
    match p.phase with
    | .refused _ => if p.stamp ≤ floorAt s p.from_ then setPull s k { p with phase := .sent } else s
    | _ => s

def execPullResend (sid : BitVec 16) (k : BitVec 16) (s : State) : Out := .next (s.onStream sid (resendPull k.toNat))

/-! ### Scalar accesses (R139, R142) -/

/-- An owner performs an access after its own elements of the stamp's instruction, in program order; a store to a page
in migration when the floor has reached the stamp (R311). -/
def accessTurn (s : State) (k : Nat) (a : Access) : Bool :=
  a.done.isNone && (a.stamp ≤ s.floor || !drained s a)
    && (match ownerOf s a.key with
      | none => false
      | some o =>
        !(s.front.accesses.take k).any (fun q => q.done.isNone && ownerOf s q.key == some o)
          && (a.stamp ≤ retiredOf s o
            || (a.stamp == retiredOf s o + 1 && s.front.works.any (fun w => w.own == o && w.isn == a.stamp && w.todo.isEmpty))))

def performAt (k : Nat) (s : State) : State :=
  match s.front.accesses[k]? with
  | none => s
  | some a =>
    if accessTurn s k a then
      let (s, b) := performAccess s a
      let s := sweepRemaps { s with front := { s.front with accesses := s.front.accesses.set k b } }
      if a.isRel && b.done.isSome then wakeBlock (s.waiters.length + 1) a.key s else s
    else s

def execScalarAccess (sid : BitVec 16) (k : BitVec 7) (s : State) : Out := .next (s.onStream sid (performAt k.toNat))

/-- The value or the acknowledgement reaches the front; that of an `srel` once its record has an index (R363). A store
above the floor is kept for a rollback. -/
def replyAt (k : Nat) (s : State) : State :=
  match s.front.accesses[k]? with
  | none => s
  | some a =>
    if a.done.isNone || a.acked || (ownerOf s a.key).isNone || (a.isRel && relHeld s a.key) then s
    else
      let s := replyAccess s a
      let l := if a.wrote ≠ [] ∧ s.floor < a.stamp then s.front.accesses.set k { a with acked := true } else s.front.accesses.eraseIdx k
      { s with front := { s.front with accesses := l } }

def execScalarReply (sid : BitVec 16) (k : BitVec 7) (s : State) : Out := .next (s.onStream sid (replyAt k.toNat))

/-- A sub-bank at rest drops to retention voltage and keeps its data (R186). -/
def execSubbankDrowsy (bank : BitVec 13) (sub : BitVec 4) (s : State) : Out :=
  let n := 16 * bank.toNat + sub.toNat
  .next (if s.drowsy.contains n then s else { s with drowsy := n :: s.drowsy })

/-! ### Stops (R385, R388) -/

/-- The stop for the fault of R199 at instruction `n`: it takes precedence over what lower elements would find, and
the instruction is undone (R199, R211). -/
def stopShelf (s : State) (n : Nat) (t : TrapInfo) : State :=
  match settleTo (n - 1) s.front.bcasts s with
  | (s, .fault b t) => deliverStop (stopFault s b t s.front.pc)
  | (s, .waits) => s
  | (s, .done) =>
    match s.front.bcasts.find? (fun b => b.isn == n) with
    | none => { s with front := { s.front with found := none } }
    | some b =>
      let b := { b with estart := 0, leaves := [] }
      deliverStop (stopFault (putB (undoB s n) b) b t s.front.pc)

/-- The stop for a fault the owners have found: what is left of the faulting instruction below the fault is
performed first, which may find a lower one. -/
def stopFound (s : State) : State :=
  match s.front.found with
  | none => s
  | some (n, t) =>
    let s := withdrawWaits s
    if shelfFull t then stopShelf s n t
    else
    match settleTo n s.front.bcasts s with
    | (s, .fault b t) => deliverStop (stopFault s b t s.front.pc)
    | (s, .done) => { s with front := { s.front with found := none } }
    | (s, .waits) => s

/-- A `vamo` has ended with a failed element, and its stop is still to come (R352). -/
def lateDue (s : State) : Bool := s.front.late.isSome && !s.front.bcasts.any (fun b => frontDriven b.word)

/-- An interrupt may be taken now: no debugger's step is under way (R431), nothing the stream waits for has come, and no
`tlbinv` or `pmig` is under way. -/
def mayInterrupt (s : State) : Bool :=
  s.front.status == .running && !s.front.halted && !s.front.retiring && s.front.dbg == .free && interruptDue s && !s.front.waiting && !waitSatisfied s
    && s.front.tlbOp == .none

def execPreciseStop (sid : BitVec 16) (s : State) : Out :=
  .next (s.onStream sid (fun s => if s.front.status = .running then stopFound s else s))

def execInterruptTaken (sid : BitVec 16) (s : State) : Out := .next (s.onStream sid (fun s => if mayInterrupt s then takeInterrupt s else s))

end Sys2Proof.Machine
end

