-- ==== Sys2Proof/Machine/Copy.lean ====
section
/-! DEFINITION. Copy-class commands at the front (spec/11_copy.md, spec/14_stack.md): their checks, their
footprints, and their issue. -/

namespace Sys2Proof.Machine

/-! ### Windows and checks (R236, R285) -/

/-- Number of the footprint window. -/
def footWin (c : CArgs) : WReg := c.imm.extractLsb' 0 5

/-- Windows a command uses, the destination first. -/
def cmdWins (k : CmdKind) (c : CArgs) : List WReg :=
  match k with
  | .cpy | .cpym | .chase => [c.wd, c.ws]
  | .cpyt | .cpyg | .cpys => [c.wd, c.ws, c.wx, footWin c]
  | .cpyf => [c.wd]
  | .sprog => [c.ws, c.wx]
  | .srun => [c.wd, c.ws, c.wx]

/-- The descriptor check of one window by itself: code 9 of R166, without what it says of another window (R236). -/
def loneBad (d : Desc) : Bool :=
  match Desc.fmt d with
  | none => true
  | some f =>
    (f.packed && Desc.mode d != 0) || (f.isS && (Desc.grp d > 3 || (f == .e2m1 && Desc.grp d != 1) || Desc.scl d == 0))
      || (f == .wf96 && Desc.frac d > 80)

/-- Formats that `cpyf` and the modes other than 0 do not take. -/
def tight (f : Option Fmt) : Bool := f == some .bit || f == some .q4 || f == some .q3 || f == some .e2m1

/-- The footprint window has format n8, mode 1, STRIDE at least 1. -/
def footBad (d : Desc) : Bool := Desc.fmt d != some .n8 || Desc.mode d != 1 || Desc.stride d < 1

/-- Index window `x` of table `w` breaks R162. -/
def idxBad (s : State) (x w : WReg) : Bool := x == w || Desc.mode (s.rdW x) > 1 || !((Desc.fmt (s.rdW x)).map indexFmt).getD false

/-- Windows that a command reaches: the index window of an indexed source, which `cpys` alone may have (R165). -/
def cmdReached (s : State) (k : CmdKind) (c : CArgs) : List WReg :=
  if k = .cpys ∧ Desc.mode (s.rdW c.ws) = 2 then [Desc.idx (s.rdW c.ws)] else []

/-- The table of R236 for the copies, in its order. -/
def copyTable (s : State) (k : CmdKind) (c : CArgs) : Option TrapInfo :=
  let d := s.rdW c.wd
  let w := s.rdW c.ws
  let x := s.rdW c.wx
  let small (w : WReg) : Bool := tight (Desc.fmt (s.rdW w))
  let two := k != .cpyf
  let table := k == .cpyg
  let into := k == .cpys
  let foot := k == .cpyt || k == .cpyg || k == .cpys
  let plain := k == .cpy || k == .cpym
  if two && Desc.fmt d != Desc.fmt w then some (operandTrap 15)
  else if !two && (tight (Desc.fmt d) || Desc.fmt d == some .wf96) then some (operandTrap 15)
  else if plain && Desc.mode w > 1 then some (operandTrap 15)
  else if !(Desc.mode d ≤ 1 || (k == .cpyt && Desc.mode d == 3)) then some (operandTrap 15)
  else if (table && Desc.mode w != 1) || (into && Desc.mode d != 1) then some (operandTrap 15)
  else if k == .cpyt && Desc.mode w != 0 then some (operandTrap 15)
  else if k == .cpyt && Desc.mode x != 3 then some (operandTrap 15)
  else if (cmdWins k c).any small && !(plain && Desc.mode d == 0 && Desc.mode w == 0) then some (operandTrap 15)
  else if (table && idxBad s c.wx c.ws) || (into && (idxBad s c.wx c.wd || (Desc.mode w == 2 && idxBad s (Desc.idx w) c.ws))) then some (operandTrap 10)
  else if foot && footBad (s.rdW (footWin c)) then some (operandTrap 15)
  else if !stripOk s.front.csr then some (operandTrap 8)
  else none

/-- Hops of a `chase`. -/
def hopsOf (c : CArgs) : Nat := fld 0 6 c.imm.toNat + 1

/-- The checks of R284 and R285. -/
def engineTable (s : State) (k : CmdKind) (c : CArgs) : Option TrapInfo :=
  let d := s.rdW c.wd
  let w := s.rdW c.ws
  let x := s.rdW c.wx
  let n := s.front.csr.vl.toNat - s.front.csr.vpad.toNat
  let is (d : Desc) (f : Fmt) (m : Nat) : Bool := Desc.fmt d == some f && Desc.mode d ≤ m
  let shape : Bool := match k with
    | .sprog => is w .n64 0 && is x .bit 0
    | .srun =>
      let fp8 (d : Desc) : Bool := Desc.fmt d == some .e4m3 || Desc.fmt d == some .e5m2
      is d .f32 1 && (fp8 w || Desc.fmt w == some .bf16) && Desc.mode w ≤ 1 && Desc.mode x == 1
        && (fp8 x || Desc.fmt x == some .bf16) && !(Desc.fmt x == some .bf16 && fp8 w)
    | _ => is d .n64 0 && is w .n64 1
  let long : Bool := match k with
    | .sprog => decide (512 < fld 0 9 c.imm.toNat + n)
    | .srun => decide (4096 < n)
    | _ => decide (65536 < n * hopsOf c)
  if !shape then some (operandTrap 15)
  else if !stripOk s.front.csr then some (operandTrap 8)
  else if long then some (operandTrapHi 9)
  else none

def isEngine (k : CmdKind) : Bool := k == .sprog || k == .srun || k == .chase

/-- The mask of `cpym` (R243). -/
def maskOf (s : State) (c : CArgs) : BitVec 128 :=
  let r : SReg := c.mcast.extractLsb' 0 6
  s.rd (r + 1) ++ s.rd r

/-- Lowest cell of a mask outside the domain. -/
def maskOutside (s : State) (m : BitVec 128) : Option Nat :=
  (List.range 128).find? (fun b => m.getLsbD b && 2 ^ s.front.domLog.toNat ≤ b)

/-- Records a follow-on action is projected from: those of the last outstanding action (R258, R269). -/
def projBase (s : State) : PairRec := (((actionsOut s).filterMap (·.proj)).getLast?).getD s.front.planes

/-- The faults of the front for a command that need no memory, first fault first. -/
def cmdFault (k : CmdKind) (c : CArgs) (s : State) : Option TrapInfo :=
  let ws := cmdWins k c
  let f := c.follow.toNat % 8
  if ws.any (· == 0) then some (operandTrap 0)
  else
    match lowestAbsent s ws <|> lowestAbsent s (cmdReached s k c) with
    | some w => some (mkTrap causeWindowAbsent w.toNat)
    | none =>
      if f ≠ 0 ∧ !pairHeld s (c.follow.getLsbD 3) then some (mkTrap causePlaneNone 0)
      else if ws.any (fun w => loneBad (s.rdW w)) then some (operandTrap 9)
      else
        match (if isEngine k then engineTable s k c else copyTable s k c) with
        | some t => some t
        | none =>
          match (if k = .cpym then maskOutside s (maskOf s c) else none) with
          | some b => some (mkTrap causePartition b)
          | none => if f ≠ 0 ∧ (projectRecs f (projBase s)).isNone then some (operandTrapHi 8) else none

/-- A selector bit names a pseudo-channel of a stack not in service (R285). -/
def selectorBad (s : State) (c : Cmd) : Bool :=
  match (M.exec (selected c (copyEye s c)) s).1 with
  | .ok ps => ps.any (fun p => !s.regs.stackMask.getLsbD (p / 64))
  | .error _ => false

/-! ### Footprints (R237, R286) -/

/-- Bytes a footprint window declares, or an extent. -/
def extRange (d : Desc) : Range := { lo := Desc.base d, hi := Desc.base d + (Desc.stride d).toNat }

/-- Bytes of `n` elements of a window in mode 0 or 1; all addresses in other modes. -/
def cmdSrcs (s : State) (k : CmdKind) (c : CArgs) (n : Nat) : List Range :=
  match k with
  | .cpy | .cpym => winRange (s.rdW c.ws) n
  | .cpyt => [extRange (s.rdW (footWin c))]
  | .cpyg => extRange (s.rdW (footWin c)) :: winRange (s.rdW c.wx) n
  | .cpys => winRange (s.rdW c.ws) n ++ winRange (s.rdW c.wx) n
  | .cpyf => []
  | .sprog => winRange (s.rdW c.ws) n ++ winRange (s.rdW c.wx) 1024
  | .srun => extRange (s.rdW c.wx) :: winRange (s.rdW c.ws) n
  | .chase => [allRange]

/-- Destination ranges; those of `cpym` run from the lowest replica to the highest named. -/
def cmdDsts (s : State) (k : CmdKind) (c : CArgs) (n : Nat) : List Range :=
  match k with
  | .cpym =>
    let top := ((List.range 128).filter (fun b => (maskOf s c).getLsbD b)).getLast?.getD 0
    (winRange (s.rdW c.wd) n).map (fun r => { r with hi := r.hi + top * c.imm.toNat * 1024 })
  | .cpys => [extRange (s.rdW (footWin c))]
  | .sprog => []
  | .srun => winRange (s.rdW c.wd) 4096
  | .chase => winRange (s.rdW c.wd) (n * hopsOf c)
  | _ => winRange (s.rdW c.wd) n

/-! ### Issue -/

/-- The least free slot (R233). -/
def freeSlot (s : State) : Option Nat := (List.range 512).find? (fun k => !s.front.cmds.any (fun c => c.slot == k))

/-- The command as it issues in a slot (R241, R249). -/
def newCmd (i : Instr) (k : CmdKind) (c : CArgs) (slot : Nat) (s : State) : Cmd :=
  let n := s.front.csr.vl.toNat - s.front.csr.vpad.toNat
  let opt (b : Bool) (w : WReg) : Option WReg := if b then some w else none
  { slot := slot, word := wordOf i, pc := s.front.pc, tok := c.st, tag := s.front.csr.ctag, stamp := s.stamp, shared := c.sc != .stream,
    race := s.front.race, watch := s.front.csr.watches
    carry := mkCarry s (opt (k != .sprog) c.wd) (opt (k != .cpyf) c.ws) (opt ((cmdWins k c).length > 2 || k == .sprog) c.wx)
      (opt ((cmdWins k c).length > 3) (footWin c)) none 0,
    fill := if k = .cpyf then s.rd ((0 : BitVec 1) ++ c.ws) else 0, mask := if k = .cpym then maskOf s c else 0,
    srcs := cmdSrcs s k c n, dsts := cmdDsts s k c n, next := 0, sectors := [], held := [], readDone := false, finished := false,
    status := 0, fault := false, count := 0, flags := 0, runs := [], chases := [],
    proj := if c.follow = 0 then none else projectRecs (c.follow.toNat % 8) (projBase s), cancelled := false, reserved := false }

/-- A command may issue: no load is waited for, the floor stands at its stamp when the front performs it itself or, for
`sprog`, reads its selector, no footprint edge holds it, and `srun` finds no earlier `sprog` (R233, R239, R247, R285,
R286). -/
def cmdReady (k : CmdKind) (c : CArgs) (s : State) : Bool :=
  let n := s.front.csr.vl.toNat - s.front.csr.vpad.toNat
  loadsOut s.front == 0 && ((s.pace == .runAhead && k != .sprog) || (floorMet s && s.front.bcasts.isEmpty && allPerformed (fun _ => true) s))
    && !edgeHeld s (cmdSrcs s k c n) (cmdDsts s k c n)
    && (c.follow == 0 || matOut s < 64)
    && (k != .srun || !s.front.cmds.any (fun x => ((cmdOf x.word).map (·.1)) == some .sprog))

/-- The front takes a slot and a tag, and goes on. -/
def takeSlot (x : Cmd) (s : State) : State :=
  let s := (s.mapCsr (fun r => { r with ctag := r.ctag + 1 })).leave
  ({ s with front := { s.front with cmds := s.front.cmds ++ [x] } }).done

/-- The engine's part at issue: in lockstep the whole command; else nothing yet. -/
def startCmd (x : Cmd) (s : State) : State :=
  if s.pace = .lockstep then settleCmds (fun c => c.slot == x.slot) s else s

/-- The meaning of a command at the front. -/
def command (i : Instr) (k : CmdKind) (c : CArgs) (s : State) : Out :=
  match cmdFault k c s with
  | some t => trapHere t s
  | none =>
    match freeSlot s with
    | none => .next s
    | some slot =>
      let x := newCmd i k c slot s
      if !cmdReady k c s then .next s
      else if k = .sprog ∧ selectorBad s x then trapHere (mkTrap causePlacement 0) s
      else .next (startCmd x (takeSlot x s))

def execCpy (c : CArgs) (s : State) : Out := command (.cpy c) .cpy c s
def execCpyt (c : CArgs) (s : State) : Out := command (.cpyt c) .cpyt c s
def execCpyg (c : CArgs) (s : State) : Out := command (.cpyg c) .cpyg c s
def execCpys (c : CArgs) (s : State) : Out := command (.cpys c) .cpys c s
def execCpyf (c : CArgs) (s : State) : Out := command (.cpyf c) .cpyf c s
def execCpym (c : CArgs) (s : State) : Out := command (.cpym c) .cpym c s
def execSprog (c : CArgs) (s : State) : Out := command (.sprog c) .sprog c s
def execSrun (c : CArgs) (s : State) : Out := command (.srun c) .srun c s
def execChase (c : CArgs) (s : State) : Out := command (.chase c) .chase c s

end Sys2Proof.Machine
end

