-- ==== Sys2Proof/Machine/Engine.lean ====
section
/-! DEFINITION. The copy engine's own steps (spec/11_copy.md, spec/12_matrix.md, spec/14_stack.md): sectors, held
writes, follow-on actions, runs, chases, and tokens. -/

namespace Sys2Proof.Machine

/-! ### Commands by slot -/

/-- Runs `m` on the command in a slot; one that stops leaves everything as it was. -/
def onCmd (slot : Nat) (p : State → Cmd → Bool) (m : Cmd → M Cmd) (s : State) : State :=
  match cmdAt s slot with
  | none => s
  | some c =>
    if p s c then
      match M.exec (m c) s with
      | (.ok c, t) => putCmd t c
      | (.error _, _) => s
    else s

def kindOf (c : Cmd) : Option CmdKind := (cmdOf c.word).map (·.1)
def immOf (c : Cmd) : BitVec 16 := ((cmdOf c.word).map (·.2.imm)).getD 0

/-- Everything stamped `n` or less has been performed, at every owner (R241). -/
def stampMet (s : State) (n : Nat) : Bool := n ≤ s.floor && s.front.accesses.all (fun a => a.done.isSome || n < a.stamp)

/-- An owner has performed everything stamped `n` or less (R241, R282). -/
def ownerMet (s : State) (own : Option Nat) (n : Nat) : Bool :=
  match own with
  | none => stampMet s n
  | some o =>
    if inDomain s.front.domBase.toNat s.front.domLog.toNat o then n ≤ retiredOf s o && accessesAt s o n else stampMet s n

/-! ### Reading and writing (R232, R241) -/

/-- Owner of a virtual address, when its place has one. -/
def ownerAt (s : State) (va : Nat) (wr : Bool) : Option Nat :=
  match (M.exec (do
      let pl ← lookup (copyAgent s.front) va wr 0
      let ks ← keysM pl.1 va 1 0
      pure (ks.headD 0)) s).1 with
  | .ok k => ownerOf s k
  | .error _ => none

/-- A copy's flits to a peer go while class 4 is open (R405, R411). -/
def peerMet (s : State) (va : Nat) : Bool :=
  match (M.exec (do
      let pl ← lookup (copyAgent s.front) va true 0
      keysM pl.1 va 1 0) s).1 with
  | .ok ks => ks.all (fun k => peerOpen s k 4)
  | .error _ => true

/-- The owners of the first held sector, or rank, have retired the stamp; for a page in migration the floor has reached
it (R241, R311). -/
def writeMet (s : State) (c : Cmd) : Bool :=
  match c.held with
  | [] => false
  | w :: _ => c.readDone && (c.held.filter (fun x => x.ord == w.ord)).all (fun x =>
      ownerMet s (ownerAt s x.va.toNat true) c.stamp && peerMet s x.va.toNat && (c.stamp ≤ s.floor || !pageMoving s s.front.asid x.va.toNat))

/-- The first held sector is written once its owner has retired the stamp. -/
def writeNext (slot : Nat) (s : State) : State := onCmd slot writeMet (writeSector true) s

/-- A command that a step of its engine reads whole: every one but a `srun` or a `chase` with something to do. -/
def readWhole (c : Cmd) : Bool := c.len == 0 || (kindOf c != some .srun && kindOf c != some .chase)

/-- The engine serves a command: what it reads first, then a sector at a time. -/
def serveSector (slot : Nat) (s : State) : State :=
  match cmdAt s slot with
  | none => s
  | some c =>
    if c.readDone then writeNext slot s
    else onCmd slot (fun s c => stampMet s c.stamp && readWhole c) readCmd s

def execCopySector (sid : BitVec 16) (slot : BitVec 9) (s : State) : Out := .next (s.onStream sid (serveSector slot.toNat))
def execCopyWritePerform (sid : BitVec 16) (slot : BitVec 9) (s : State) : Out := .next (s.onStream sid (writeNext slot.toNat))

/-! ### Follow-on actions (R250, R266, R268 to R272) -/

/-- The copy of a command is done and its action is next among the stream's. -/
def actionDue (s : State) (c : Cmd) : Bool :=
  followOf c != 0 && c.readDone && c.held.isEmpty && !c.finished && stampMet s c.stamp
    && actionsBefore s c

/-- Every bank has room for the entries the action needs there. -/
def roomFor (s : State) (ss : List (Nat × Nat)) : Bool :=
  ((ss.map (·.1)).dedup).all (fun o => shelfCount s o + needsAt ss o ≤ shelfSize o)

/-- The reservation of an action is filled once there is room at every bank (R266). One over the bound, which will fault,
takes no entry. -/
def reserveAction (slot : Nat) (s : State) : State :=
  match cmdAt s slot with
  | none => s
  | some c =>
    let ss := if overBound (actionSectors s c) then [] else actionSectors s c
    if actionDue s c && !c.reserved && roomFor s ss then
      ss.foldl (fun s p => shelfPut s p.1 p.2 (actionIsn slot) true) (putCmd s { c with reserved := true })
    else s

def execActionReserve (sid : BitVec 16) (slot : BitVec 9) (s : State) : Out := .next (s.onStream sid (reserveAction slot.toNat))

/-- The action is performed, or found to be cancelled. -/
def performAction (slot : Nat) (s : State) : State :=
  onCmd slot (fun s c => actionDue s c && (c.reserved || c.cancelled || c.fault || c.status != 0)) (fun c => do
    let c ← doAction c
    pure { c with finished := true }) s

def execFollowOnAction (sid : BitVec 16) (slot : BitVec 9) (s : State) : Out := .next (s.onStream sid (performAction slot.toNat))

/-! ### Tokens (R233, R244, R246, R396) -/

/-- A command has ended, and no earlier one will write the same register. -/
def tokenDue (s : State) (c : Cmd) : Bool :=
  c.readDone && c.held.isEmpty && (followOf c == 0 || c.finished) && !s.front.heldToks.contains c.slot && !tokenBehind s c

/-- The token is written, to the register or to the image of a stream that is away. -/
def writeToken (slot : Nat) (s : State) : State :=
  match cmdAt s slot with
  | none => s
  | some c => if tokenDue s c then (if s.front.status = .out then tokenAway s c else putToken s c) else s

def execTokenWrite (sid : BitVec 16) (slot : BitVec 9) (s : State) : Out := .next (s.onStream sid (writeToken slot.toNat))

/-! ### Runs (R288 to R290) -/

/-- The owners of x have performed everything up to the stamp: a run pulls it (R193, R288). -/
def vectorMet (s : State) (c : Cmd) : Bool :=
  let f := (Desc.fmt (c.win 1).d).getD .bf16
  (List.range c.len).all (fun k => ownerMet s (ownerAt s (flatVa (c.win 1).d f k).1 false) c.stamp)

/-- A run starts at a pseudo-channel once its engine has retired the stamp, or, outside the engine set, the floor has
reached it, and x is there (R290). -/
def startRun (slot pc : Nat) (s : State) : State :=
  onCmd slot (fun s c => kindOf c == some .srun && c.len != 0 && !c.readDone && ownerMet s (some (8192 + pc)) c.stamp && vectorMet s c)
    (fun c => startRuns c (immOf c) (some pc)) s

def execSrunStart (sid : BitVec 16) (slot : BitVec 9) (pc : BitVec 10) (s : State) : Out :=
  .next (s.onStream sid (startRun slot.toNat pc.toNat))

/-- Number of no pseudo-channel. -/
def noChannel : Nat := 1024

/-- The last of a command's runs has ended: their outputs are gathered (R289). A command whose extent no
pseudo-channel holds ends with none. -/
def endRun (slot : Nat) (s : State) : State :=
  onCmd slot (fun s c => kindOf c == some .srun && c.len != 0 && !c.readDone && stampMet s c.stamp) (fun c => do
    let c ← if c.runs.isEmpty then startRuns c (immOf c) (some noChannel) else pure c
    if c.fault || !c.runs.all (·.started) then pure c else endRuns c c.runs) s

def execSrunEnd (sid : BitVec 16) (slot : BitVec 9) (_pc : BitVec 10) (s : State) : Out := .next (s.onStream sid (endRun slot.toNat))

/-! ### Chases (R291) -/

/-- A fault with a given STATUS. -/
def trapOf (status : Nat) : TrapInfo :=
  mkTrap (match status with
    | 2 => 0x04
    | 3 => 0x05
    | 5 => 0x06
    | 6 => 0x0D
    | 7 => 0x0E
    | 8 => 0x0B
    | 9 => 0xF0
    | 10 => 0x10
    | _ => 0x07) 0

/-- What a chase command has gathered so far. -/
def gatheredOf (c : Cmd) : Gather :=
  { sectors := c.sectors, writes := c.held.map (fun w => (w.va.toNat, w.bytes)), fault := if c.fault then some (c.count, trapOf c.status.toNat) else none }

def withGathered (c : Cmd) (g : Gather) : Cmd :=
  let c := { c with sectors := g.sectors, held := g.writes.map (fun w => { ord := 0, va := BitVec.ofNat 64 w.1, bytes := w.2 }) }
  match g.fault with
  | some (k, t) => { c with fault := true, status := BitVec.ofNat 6 (statusOf t), count := k }
  | none => c

/-- The hop under way, or the first of the next chase; none when all are done. -/
def nextHop (c : Cmd) (e : Eye) : M (Option (Cmd × Except Stop Chase)) :=
  match c.chases with
  | h :: _ => pure (some (c, .ok h))
  | [] =>
    if c.next < c.len then do
      match ← captured (readElem { e with elem := c.next } c.carry.vl.toNat (c.win 1) .n64 c.next) with
      | .ok a => pure (some ({ c with next := c.next + 1 }, .ok { idx := c.next, hop := 0, addr := BitVec.ofNat 64 a, live := true, agent := e.agent }))
      | .error (.trap t) => pure (some ({ c with next := c.next + 1 }, .error (.trap { t with elem := c.next * (fld 0 6 (immOf c).toNat + 1) })))
      | .error st => throw st
    else pure none

/-- One hop: its sector, its field, and the next address. -/
def chaseStep (c : Cmd) : M Cmd := do
  let s ← get
  let e := copyEye s c
  match ← nextHop c e with
  | none => pure (c.gathered (gatheredOf c))
  | some (c, .error (.trap t)) =>
    let (g, k) := (gatheredOf c).touch ((flatVa (c.win 0).d .n64 t.elem).1 / 32)
    pure (withGathered { c with chases := [] } (g.fail k t))
  | some (_, .error st) => throw st
  | some (c, .ok h) =>
    match ← captured (hopOne (immOf c) e h) with
    | .ok (rs, h) => do
      let g ← gatherHop c e (gatheredOf c) rs
      pure (withGathered { c with chases := if h.live then [h] else [] } g)
    | .error (.trap t) =>
      let (g, k) := (gatheredOf c).touch ((flatVa (c.win 0).d .n64 t.elem).1 / 32)
      pure (withGathered { c with chases := [] } (g.fail k t))
    | .error st => throw st

def serveHop (slot : Nat) (s : State) : State :=
  onCmd slot (fun s c => kindOf c == some .chase && c.len != 0 && !c.readDone && stampMet s c.stamp) chaseStep s

def execChaseHop (sid : BitVec 16) (slot : BitVec 9) (s : State) : Out := .next (s.onStream sid (serveHop slot.toNat))

/-! ### Accumulates that travel (R336 to R341) -/

/-- A home answers a message: ACCEPT or REFUSE. Numbers past the messages under way name those that homes have
accepted: the home of one performs the oldest in its queue (R337). -/
def answerAt (k : Nat) (s : State) : State :=
  match s.msgs[k]? with
  | none =>
    (match s.homeQ[k - s.msgs.length]? with
      | some m => homeTurn s m.home
      | none => s)
  | some m =>
    match m.answer with
    | some _ => s
    | none =>
      let (s, ok) := answerMsg s m
      { s with msgs := s.msgs.set k { m with answer := some ok } }

def execAccumMessage (k : BitVec 16) (s : State) : Out := .next (answerAt k.toNat s)

/-- The answer reaches the sender; a refused message is folded (R340). -/
def answerTaken (k : Nat) (s : State) : State :=
  match s.msgs[k]? with
  | none => s
  | some m =>
    match m.answer with
    | none => s
    | some ok => takeAnswer { s with msgs := s.msgs.eraseIdx k } m ok

def execAccumAnswer (k : BitVec 16) (s : State) : Out := .next (answerTaken k.toNat s)

/-- A residual entry that has lain idle goes as a must-accept message (R341). -/
def execResidualIdleExpiry (bank : BitVec 13) (k : BitVec 7) (s : State) : Out :=
  .next (match (s.residuals.filter (fun r => r.bank == bank.toNat))[k.toNat]? with
    | none => s
    | some r => mustSend { s with residuals := s.residuals.erase r } r)

/-- A home begins a new interval under the QUOTA now in force (R336). -/
def execQuotaInterval (home : BitVec 14) (s : State) : Out :=
  let h := home.toNat
  .next { s with quotas := s.quotas.filter (fun q => q.home != h), quotaAt := (h, s.regs.quota) :: s.quotaAt.filter (fun p => p.1 != h) }

end Sys2Proof.Machine
end

