-- ==== Sys2Proof/Machine/Stack.lean ====
section
/-! DEFINITION. The stacks' controllers (spec/14_stack.md): hints, refresh, self-refresh, failed layers and the
remap table. -/

namespace Sys2Proof.Machine

/-! ### Rows, refresh and sleep (R278 to R280) -/

/-- Where the requests under way at a pseudo-channel lie: scalar accesses, and pulls not answered, of any stream. -/
def requestsAt (s : State) (pc : Nat) : List Dram :=
  ((s.streams.flatMap (fun f =>
    (f.accesses.filter (fun a => a.done.isNone)).map (·.key)
      ++ (f.pulls.filter (fun p => p.phase == .sent || p.phase == .parked)).map (fun p => 32 * p.sector))).filter
    (fun k => keyCls k == .sm)).map (dramOf s) |>.filter (fun d => dramPc d == pc)

/-- A hint opens its row, or is dropped: a bank whose open row has requests queued, a pseudo-channel in self-refresh,
or an absent address takes none (R278, R293). A request queued at a bank opens its row there as it arrives (DEDUCED, log
entry 108). -/
def takeHint (pc : BitVec 10) (s : State) : State :=
  match s.hints.find? (fun h => h.pc == pc) with
  | none => s
  | some h =>
    let s := { s with hints := s.hints.erase h }
    let there := s.regs.stackMask.getLsbD (pc.toNat / 64) && (s.stack (pc.toNat / 64)).layers.getLsbD (h.bank.toNat / 4)
    let queued := (requestsAt s pc.toNat).any (fun d => d.bank == h.bank.toNat)
    if s.asleep.contains pc || !there || queued then s
    else { s with rows := { pc := pc, bank := h.bank, row := h.row, hinted := true } :: s.rows.filter (fun r => !(r.pc == pc && r.bank == h.bank)) }

def execHintActivate (pc : BitVec 10) (s : State) : Out := .next (takeHint pc s)

/-- A hinted row that no request has touched is closed. -/
def execHintRowClose (pc : BitVec 10) (bank : BitVec 6) (s : State) : Out :=
  .next { s with rows := s.rows.filter (fun r => !(r.pc == pc && r.bank == bank && r.hinted)) }

def postponedOf (s : State) (pc : BitVec 10) (bank : BitVec 6) : Nat :=
  ((s.postponed.find? (fun p => p.pc == pc && p.bank == bank)).map (fun p => p.count.toNat)).getD 0

/-- A refresh falls due (R279): while the row is in use it is postponed, at most PMAX times; else the bank is
refreshed, and a row in use is opened again. -/
def refresh (pc : BitVec 10) (bank : BitVec 6) (busy : Bool) (s : State) : State :=
  let n := postponedOf s pc bank
  let rest := s.postponed.filter (fun p => !(p.pc == pc && p.bank == bank))
  if busy && n < (s.stack (pc.toNat / 64)).pmax.toNat then
    { s with postponed := { pc := pc, bank := bank, count := BitVec.ofNat 4 (n + 1) } :: rest }
  else if busy then { s with postponed := rest }
  else { s with postponed := rest, rows := s.rows.filter (fun r => !(r.pc == pc && r.bank == bank)) }

def execRefreshDue (pc : BitVec 10) (bank : BitVec 6) (busy : Bool) (s : State) : Out := .next (refresh pc bank busy s)

/-- Pseudo-channels at which a chase is active: that whose badger translates its next address, and that which holds
the sector there (R291). -/
def chaseAt (s : State) (f : Front) (h : Chase) : List Nat :=
  let next : Option Key := match (M.exec (lookup h.agent h.addr.toNat false 0) { s with front := f }).1 with
    | .ok pl => keyOf { s with front := f } pl.1 h.addr.toNat
    | .error _ => none
  (if 8192 ≤ h.agent && h.agent < 9216 then [h.agent - 8192] else []) ++ ((next.filter (fun k => keyCls k == .sm)).map (fun k => dramPc (dramOf s k))).toList

/-- A run or a chase is active at the engines of a pseudo-channel. -/
def engineBusy (s : State) (pc : Nat) : Bool :=
  runsAt s pc || s.streams.any (fun f => f.cmds.any (fun c => !c.readDone && c.chases.any (fun h => h.live && (chaseAt s f h).contains pc)))

/-- The idle timer expires (R280): entry needs that nothing is queued or active there, and a request in the same cycle
wins. -/
def sleepChannel (pc : BitVec 10) (request : Bool) (s : State) : State :=
  if request || (s.stack (pc.toNat / 64)).sridle == 0 || !(requestsAt s pc.toNat).isEmpty || engineBusy s pc.toNat || s.asleep.contains pc then s
  else { s with asleep := pc :: s.asleep, rows := s.rows.filter (fun r => r.pc != pc) }

def execSelfRefreshEntry (pc : BitVec 10) (request : Bool) (s : State) : Out := .next (sleepChannel pc request s)

def execSelfRefreshExit (pc : BitVec 10) (s : State) : Out := .next { s with asleep := s.asleep.filter (· != pc) }

/-! ### Failed layers (R292 to R294) -/

/-- Frames of a layer, ascending. -/
def layerFrames (st layer : Nat) : List Nat :=
  (List.range (2 ^ 18)).map (fun i => at_ 36 st + at_ 22 (i / 16) + at_ 18 layer + at_ 14 (i % 16))

/-- Key of the spare-frame list: stack memory below 2^40, host memory above. -/
def listKey (a : Nat) : Key := if a < 2 ^ 40 then smKey a else hmKey a

/-- HOTREMOVE (R444): the old frame, the new one or 0, the stack. -/
def hotRemove (s : State) (st old new : Nat) : State := s.event 5 (8 + st) [old, new, st]

/-- One frame is copied to the next spare frame and redirected, or lost (R293). -/
def evacuate (st : Nat) (s : State) (p : Nat) : State :=
  let r := s.stack st
  let new := s.num (listKey r.sflist.toNat + 8 * r.sfTaken) 8 / 2 ^ 14 * 2 ^ 14 % 2 ^ 40
  if s.poison.any (fun w => 8 * w / 2 ^ 14 * 2 ^ 14 == smKey p) || new == 0 || 256 ≤ r.remap.length then hotRemove s st p 0
  else
    let ks := keysFrom (smKey p) (2 ^ 14)
    let s := moveBytes (fun _ new => new) (ks.zip (keysFrom (smKey new) (2 ^ 14))) (deliverFor s (sectorsOf ks))
    let r := s.stack st
    hotRemove (s.setStack st { r with remap := r.remap ++ [(p / 2 ^ 14, new / 2 ^ 14)], sfTaken := r.sfTaken + 1 }) st p new

/-- The layer goes absent: its bit clears, and the capacities fall. -/
def dropLayer (st layer : Nat) (s : State) : State :=
  let r := s.stack st
  let gone (k : Key) : Bool := keyCls k == .sm && fld 36 4 k == st && fld 18 4 k == layer
  let s := s.setStack st { r with layers := r.layers &&& ~~~((1 : BitVec 16) <<< layer), gib := r.gib - 4 }
  { s with regs := { s.regs with smgib := s.regs.smgib - 4 }, mem := s.mem.filter (fun c => !gone c.1), poison := s.poison.filter (fun w => !gone (8 * w)) }

/-- The first failed layer of a stack moves to the spare layer, a later one is mapped out, which is a loss of capacity
(R292, R439). Elements that owners have still to perform go to the owners of the new frames. -/
def failLayer (st layer : Nat) (s : State) : State :=
  let r := s.stack st
  if !s.regs.stackMask.getLsbD st || !r.layers.getLsbD layer then s
  else if !r.spareU then
    ({ s.setStack st { r with spareU := true } with regs := { s.regs with spares := s.regs.spares ||| 4 } } : State).event 3 (8 + st)
      [2, 16 * st + layer, 0]
  else
    let left := elementsLeft s
    let t := dropLayer st layer (handAll left ((layerFrames st layer).foldl (evacuate st) s))
    t.event 4 (8 + st) [2, 16 * st + layer, mcfg t]

def execLayerFailure (stack layer : BitVec 4) (s : State) : Out := .next (failLayer stack.toNat layer.toNat s)

/-- SRMRET (R294): the entry for FRAME goes, once no access redirected through it is under way. A write that names no
entry does nothing. -/
def retireRemap (st : Nat) (v : Word) (s : State) : State :=
  let r := s.stack st
  let f := (v.extractLsb' 14 38).toNat
  if v.getLsbD 63 && r.remap.any (fun e => e.1 == f) then sweepRemaps (s.setStack st { r with retiring := r.retiring ++ [f] }) else s

def execSrmret (stack : BitVec 4) (v : Word) (s : State) : Out := unlessFailed s (retireRemap stack.toNat v s)

end Sys2Proof.Machine
end

