-- ==== Sys2Proof/Machine/Debug.lean ====
section
/-! DEFINITION. Debug halts, steps and accesses, the debug master, trace records and stall attribution
(spec/25_debug.md). -/

namespace Sys2Proof.Machine

/-! ### Results (R432) -/

/-- A command ends with its RESULT. -/
def dbgDone (res : Nat) (s : State) : State := { s with regs := { s.regs with dbgBusy := false, dbgResult := BitVec.ofNat 3 res } }

/-- A command names a stream. -/
def dbgName (sid : BitVec 16) (s : State) : State := { s with regs := { s.regs with dbgNamed := some sid } }

def isHalted (s : State) (sid : BitVec 16) : Bool := s.streams.any (fun f => f.status != .idle && f.sid == sid && f.halted)

/-- HALTED: the last stream named is halted now, or was as its peer last answered. -/
def dbgIsHalted (s : State) : Bool :=
  match s.regs.dbgNamed with
  | some sid => isHalted s sid
  | none => s.regs.dbgHalted

/-- DBGSTAT. -/
def dbgStat (s : State) : Nat := boolNat s.regs.dbgBusy + at_ 1 s.regs.dbgResult.toNat + at_ 4 (boolNat (dbgIsHalted s))

/-- SIDs of the live streams. -/
def liveSids (s : State) : List (BitVec 16) := (s.streams.filter (fun f => f.status != .idle)).map (·.sid)

/-- SID that names every live stream, for halt and resume. -/
def everySid : BitVec 16 := 0xFFFF

/-! ### Halting (R430) -/

/-- A cause of the model alone: the stop is a halt's. -/
def haltCause : TrapInfo := interruptInfo 0 0

/-- The stream whose turn it is halts at its precise-stop pair. A fault that the stop finds is delivered first,
and the halt lands at its handler; a stop held up leaves the halt pending. -/
def haltFront (s : State) : State :=
  let win := s.front.stopWin
  match settleStop s haltCause s.front.pc with
  | .waits t => { t with front := { t.front with haltPend := true } }
  | .stopped t c pc =>
  if c.int then
    let t := t.mapCsr (fun r => { r with tisn := s.front.csr.tisn })
    { t with front := { t.front with pc := pc, halted := true, haltPend := false, dbg := .free, stopWin := true,
                                     haltWin := !win, haltQueue := !t.front.queue.isEmpty && (!win || s.front.queue.isEmpty) } }
  else
    let t := deliver t c pc
    if t.front.status = .idle then t
    else { t with front := { t.front with halted := true, haltPend := false, dbg := .free, haltWin := false, haltQueue := false } }

/-- A halt may land: no fault is due first, no `tlbinv`, `pmig` or `logsync` is under way, nothing has come that the instruction
at the pc waited for, and no reply is held for its record (R127, R307, R311, R363, R375, R430). -/
def haltable (s : State) : Bool :=
  s.front.status == .running && s.front.tlbOp == .none && s.front.found.isNone && !lateDue s && s.front.pdie.isNone && !waitSatisfied s
    && !replyHeld s s.front

/-- A halt or the end of a step is due. -/
def mayHalt (s : State) : Bool := (s.front.haltPend || landed s) && haltable s

/-- A halt aimed at a stream: one that is away halts at its resumption, one that must do something first in its next
turns. -/
def haltStream (s : State) : State :=
  if s.front.halted then s
  else if haltable s then haltFront s
  else { s with front := { s.front with haltPend := true } }

/-- A command for one stream or for all, unless another is in progress. -/
def dbgEach (sid : BitVec 16) (f : State → State) (s : State) : State :=
  if s.regs.dbgBusy then s
  else if sid = everySid then dbgDone 0 ((liveSids s).foldl (fun s x => s.onStream x f) s)
  else if s.live sid then dbgDone 0 ((dbgName sid s).onStream sid f)
  else dbgDone 1 (dbgName sid s)

def execDebugHalt (sid : BitVec 16) (s : State) : Out := .next (dbgEach sid haltStream s)

/-! ### Resuming and stepping (R431) -/

/-- The queue that the halt formed is reissued, and the stop window that it opened closes. -/
def resumeHalted (s : State) : State :=
  let f := s.front
  let s := if f.haltQueue then reissue s else s
  { s with front := { s.front with halted := false, stopWin := f.stopWin && !f.haltWin, haltWin := false, haltQueue := false } }

/-- A command that needs a halted stream. -/
def dbgHaltedOp (sid : BitVec 16) (f : State → State) (s : State) : State :=
  if s.regs.dbgBusy then s
  else if !s.live sid then dbgDone 1 (dbgName sid s)
  else if !isHalted s sid then dbgDone 2 (dbgName sid s)
  else f (dbgName sid s)

def dbgResume (sid : BitVec 16) (s : State) : State :=
  let go (s : State) : State := if s.front.halted then resumeHalted s else s
  if sid = everySid then dbgEach sid go s
  else dbgHaltedOp sid (fun s => dbgDone 0 (s.onStream sid go)) s

def execDebugResume (sid : BitVec 16) (s : State) : Out := .next (dbgResume sid s)

/-- One instruction: the first reissued broadcast, or the next of the front. -/
def stepHalted (s : State) : State :=
  let s := resumeHalted s
  match s.front.bcasts.head? with
  | some b => { s with front := { s.front with dbg := .land b.isn } }
  | none => { s with front := { s.front with dbg := .one } }

/-- The step itself is the stream's next turn; it halts again when it lands. -/
def dbgStep (sid : BitVec 16) (s : State) : State := dbgHaltedOp sid (fun s => dbgDone 0 (s.onStream sid stepHalted)) s

def execDebugStep (sid : BitVec 16) (s : State) : Out := .next (dbgStep sid s)

/-! ### Registers -/

/-- The value at a register index. -/
def dbgRegister (s : State) (n : Nat) : Word :=
  if n < 64 then s.rd (BitVec.ofNat 6 n)
  else if 0x1000 ≤ n ∧ n < 0x2000 then csrRead s (BitVec.ofNat 12 (n - 0x1000))
  else if 0x2000 ≤ n ∧ n < 0x2040 then
    (let d := s.rdW (BitVec.ofNat 5 ((n - 0x2000) / 2)); if n % 2 = 1 then d.extractLsb' 64 64 else d.extractLsb' 0 64)
  else if 0x3000 ≤ n ∧ n < 0x3000 + 32 * 64 then
    (match s.front.queue[(n - 0x3000) / 32]? with
      | some b => BitVec.ofNat 64 ((entryWords b).getD ((n - 0x3000) % 32) 0)
      | none => 0)
  else 0

/-- A write by index, under the field rules of R155. A window half makes its window present and dirty. -/
def dbgSetRegister (n : Nat) (v : Word) (s : State) : State :=
  if n < 64 then s.wr (BitVec.ofNat 6 n) v
  else if 0x1000 ≤ n ∧ n < 0x2000 then csrWrite s (BitVec.ofNat 12 (n - 0x1000)) v
  else if 0x2002 ≤ n ∧ n < 0x2040 then
    (let w : WReg := BitVec.ofNat 5 ((n - 0x2000) / 2)
     let d := s.rdW w
     putWin s w (if n % 2 = 1 then v ++ d.extractLsb' 0 64 else d.extractLsb' 64 64 ++ v))
  else s

/-- Value of a computation of a stream, by SID. -/
def ofStream (s : State) (sid : BitVec 16) (f : State → Word) : Word :=
  match s.streams.find? (fun g => g.status != .idle && g.sid == sid) with
  | some g => f { s with front := g }
  | none => 0

def dbgReadReg (sid : BitVec 16) (s : State) : State :=
  dbgHaltedOp sid (fun s => dbgDone 0
    { s with regs := { s.regs with dbgData := ofStream s sid (fun s => dbgRegister s s.regs.dbgAddr.toNat) } }) s

def dbgWriteReg (sid : BitVec 16) (s : State) : State :=
  dbgHaltedOp sid (fun s => dbgDone 0 (s.onStream sid (dbgSetRegister s.regs.dbgAddr.toNat s.regs.dbgData))) s

def execDebugReadRegister (sid : BitVec 16) (s : State) : Out := .next (dbgReadReg sid s)
def execDebugWriteRegister (sid : BitVec 16) (s : State) : Out := .next (dbgWriteReg sid s)

/-! ### Memory -/

/-- Keys of the aligned word a memory command names. -/
def dbgWord (va : Nat) (p : Perm) : M (List Key) := do
  let s ← get
  if va % 8 ≠ 0 then trapM (mkTrap causeAlign 0 0 va)
  else
    let pl ← xlate (seqAgent s.front) va p 0
    keysM pl va 8 0

def dbgReadM (va : Nat) : M Unit := do
  let ks ← dbgWord va .read
  let s ← get
  if unreadable s ks then trapM (mkTrap causeDataError 0 0 va)
  else set { s with regs := { s.regs with dbgData := BitVec.ofNat 64 (bytesNat (ks.map (byteAt s s.floor))) } }

def dbgWriteM (va : Nat) : M Unit := do
  let ks ← dbgWord va .write
  modify (fun s => s.storeAt s.floor false (ks.zip (wordBytes 8 s.regs.dbgData.toNat)))

/-- A memory command is performed, or fails with RESULT 3; the accessed and dirty bits that its walk has set stay set
(R302). -/
def dbgMemory (m : M Unit) (s : State) : State :=
  match M.exec m s with
  | (.ok _, s) => dbgDone 0 s
  | (.error _, s) => dbgDone 3 s

def dbgReadMem (sid : BitVec 16) (s : State) : State :=
  dbgHaltedOp sid (fun s => s.onStream sid (dbgMemory (dbgReadM s.regs.dbgAddr.toNat))) s

def dbgWriteMem (sid : BitVec 16) (s : State) : State :=
  dbgHaltedOp sid (fun s => s.onStream sid (dbgMemory (dbgWriteM s.regs.dbgAddr.toNat))) s

def execDebugReadMemory (sid : BitVec 16) (s : State) : Out := .next (dbgReadMem sid s)
def execDebugWriteMemory (sid : BitVec 16) (s : State) : Out := .next (dbgWriteMem sid s)

/-! ### The debug master and its peers (R433) -/

/-- A command for another module: the master sends it over the first pair of that peer, unless the peer is not attested or
no pair carries its traffic. -/
def forward (v : Word) (s : State) : State :=
  let p := v.extractLsb' 20 6
  if s.regs.dbgBusy || !v.getLsbD 26 || p == s.regs.pod then s
  else if !s.regs.dbgMaster then dbgDone 5 s
  else if !s.regs.podatt.getLsbD p.toNat || (pairFor s p.toNat 0).isNone then dbgDone 4 s
  else { s with regs := { s.regs with dbgBusy := true, dbgSent := some p } }

def execDebugPeerTimeout (p : BitVec 6) (s : State) : Out :=
  .next (if s.regs.dbgSent = some p then dbgDone 4 { s with regs := { s.regs with dbgSent := none } } else s)

def execDebugPeerReply (p : BitVec 6) (res : BitVec 3) (halted : Bool) (d : Word) (s : State) : Out :=
  .next (if s.regs.dbgSent = some p then
      dbgDone res.toNat { s with regs := { s.regs with dbgSent := none, dbgData := d, dbgNamed := none, dbgHalted := halted } }
    else s)

/-- A write of DBGCMD (R432): its operation here, or at another module. -/
def dbgCommand (v : Word) (s : State) : State :=
  let sid := v.extractLsb' 0 16
  if !v.getLsbD 26 || s.regs.dbgBusy then s
  else if v.extractLsb' 20 6 ≠ s.regs.pod then forward v s
  else match (v.extractLsb' 16 4).toNat with
    | 1 => dbgEach sid haltStream s
    | 2 => dbgResume sid s
    | 3 => dbgStep sid s
    | 4 => dbgReadReg sid s
    | 5 => dbgWriteReg sid s
    | 6 => dbgReadMem sid s
    | 7 => dbgWriteMem sid s
    | _ => s

/-- A command that another module has forwarded here is performed as a local one, and DBGSTAT and DBGDATA go back. The
master's DBGADDR and DBGDATA come with it and take the place of this module's (DESIGN CHOICE, log entry 99). -/
def serveCommand (v addr data : Word) (s : State) : State :=
  if v.extractLsb' 20 6 ≠ s.regs.pod then s
  else
    let s := dbgCommand v { s with regs := { s.regs with dbgAddr := addr, dbgData := data } }
    { s with regs := { s.regs with dbgReply := some (BitVec.ofNat 64 (dbgStat s), s.regs.dbgData) } }

def execDebugForward (m : DebugMsg) (s : State) : Out :=
  .next (match m with
    | .sent v => forward v s
    | .arrived v addr data => serveCommand v addr data s)

/-! ### Trace (R434) -/

/-- Records the ring still takes. -/
def traceRoom (s : State) : Nat := 2 ^ s.regs.trcSize.toNat / 32 - (s.regs.trcHead - s.regs.trcTail).toNat

/-- Once space has returned, one record counts those that were lost. -/
def traceFlush (s : State) : State :=
  if s.regs.trcLost ≠ 0 ∧ 1 ≤ traceRoom s then
    ({ s with drawn := s.drawn + 1, regs := { s.regs with trcLost := 0 } } : State).traceWords
      (6 + at_ 24 (Config.cycleCount s.drawn).toNat) 0 s.regs.trcLost.toNat 0
  else s

/-- The four words of a record (R434). -/
def TraceRec.words (r : TraceRec) : List Word := [r.cycle ++ r.sid ++ 0#4 ++ r.type, 0#16 ++ r.isn, r.w2, r.w3]

/-- The trace unit receives the record of these words, if one is on its way: it is written, after one for those lost
before it, or lost. -/
def traceIn (r0 r1 r2 r3 : Word) (s : State) : State :=
  match s.traceQ.find? (fun r => r.words == [r0, r1, r2, r3]) with
  | none => s
  | some r => (traceFlush { s with traceQ := s.traceQ.erase r }).traceWords r0.toNat r1.toNat r2.toNat r3.toNat

def execTraceRecord (r0 r1 r2 r3 : Word) (s : State) : Out := .next (traceIn r0 r1 r2 r3 s)

/-! ### Stall attribution (R436) -/

/-- Entries in descending cycles. -/
def sortStalls (l : List StallPair) : List StallPair := sortBy (fun a b => b.cycles ≤ a.cycles) l

/-- A report joins the pair table. -/
def addStall (r : StallPair) (l : List StallPair) : List StallPair :=
  let same (p : StallPair) : Bool := p.cpc == r.cpc && p.ppc == r.ppc
  if l.any same then
    sortStalls (l.map (fun p => if same p then
      { p with cycles := (p.cycles + r.cycles) % 2 ^ 64, lag := if p.lag < r.lag then r.lag else p.lag, waits := p.waits + r.waits } else p))
  else if l.length < 32 then sortStalls (l ++ [r])
  else
    match l.getLast? with
    | some p => if p.cycles < r.cycles then sortStalls (l.dropLast ++ [r]) else l
    | none => l

/-- A pull of an agent still waits for the instruction at a PC. -/
def stillWaits (s : State) (c : Charge) : Bool :=
  s.front.pulls.any (fun p => p.from_ == c.own && !p.phase.served && p.phase != .sent
    && s.front.bcasts.any (fun b => b.isn == p.isn && b.pc == c.cpc))

/-- An agent reports its charge to a pair of instructions, with the cycles of it: a wait that goes on is charged further. -/
def reportStall (own : Nat) (cpc ppc : Word) (cycles : Nat) (s : State) : State :=
  match s.front.charges.find? (fun c => c.own == own && c.cpc == cpc && c.ppc == ppc) with
  | none => s
  | some c =>
    { s with front := { s.front with
      stalls := addStall { cpc := c.cpc, ppc := c.ppc, cycles := cycles, lag := c.lag, waits := c.waits } s.front.stalls
      charges := if stillWaits s c then s.front.charges.map (fun x => if x = c then { c with waits := 0 } else x) else s.front.charges.erase c } }

def execStallReport (sid : BitVec 16) (own : BitVec 14) (cpc ppc : Word) (parked refused : BitVec 32) (s : State) : Out :=
  .next (s.onStream sid (reportStall own.toNat cpc ppc (parked.toNat + refused.toNat)))

end Sys2Proof.Machine
end

