-- ==== Sys2Proof/Machine/Trust.lean ====
section
/-! DEFINITION. Dies, attestation, link directions and their keys, re-keying, and the reset of a die
(spec/24_trust.md, spec/21_traps.md R398). -/

namespace Sys2Proof.Machine

/-! ### Dies (R418 to R422) -/

/-- Stacks of `ks` leave service (R421): their STACKS bits and what they hold of SMGIB. -/
def dropStacks (s : State) (ks : List Nat) : State :=
  ks.foldl (fun s k =>
    if s.regs.stackMask.getLsbD k then
      { s with regs := { s.regs with
        stackMask := s.regs.stackMask &&& ~~~((1 : BitVec 16) <<< k)
        smgib := s.regs.smgib - (s.stack k).gib.setWidth 12 } }
    else s) s

/-- Cells of a forge die in service. -/
def cellsIn (s : State) (d : Nat) : Nat := ((List.range 16).filter (fun c => cellOk s (16 * d + c))).length

/-- What a quarantined die takes with it (R421). -/
def outOfService (s : State) (k : Nat) : State :=
  if k < 8 then
    let n := cellsIn s k
    let s := { s with regs := { s.regs with dies := s.regs.dies &&& ~~~((1 : BitVec 8) <<< k), cells := s.regs.cells - BitVec.ofNat 8 n } }
    dropStacks s [2 * k, 2 * k + 1]
  else if k < 24 then dropStacks s [k - 8]
  else { s with regs := { s.regs with hubSby := false } }

/-- A die fails attestation at a step: it is held in reset, its links stay dark, and Porvex logs it. -/
def quarantine (s : State) (k step : Nat) : State :=
  let s := s.setDie k { s.die k with state := 3, failStep := BitVec.ofNat 4 step }
  (outOfService s k).event 7 k [k, step]

/-- A signature (R419): a leaf of the current block, or of a new block of 64; none when both are spent. -/
def Die.sign (d : Die) : Option Die :=
  if d.leaves ≠ 0 then some { d with leaves := d.leaves - 1 }
  else if d.blkLeft ≠ 0 then some { d with blkLeft := d.blkLeft - 1, leaves := 63 }
  else none

/-- `n` signatures, or how many there were leaves for. -/
def Die.signs : Nat → Die → Die × Nat
  | 0, d => (d, 0)
  | n + 1, d => match d.sign with
    | none => (d, 0)
    | some d => let (d, k) := Die.signs n d; (d, k + 1)

/-- The order of R420. -/
def attestOrder : List Nat := 25 :: List.range 24

/-- The die the root attests now during bring-up: the first that is still attesting. -/
def nextToAttest (s : State) : Option Nat := attestOrder.find? (fun k => (s.die k).state == 1)

/-- The root may run the exchange with a die now: in its turn in phase 3, or after its reset from then on, unless a trip
holds it (R420, R426, R442). -/
def mayAttest (s : State) (k : Nat) : Bool :=
  k < 26 && k != activeHub s && !s.regs.fail
    && ((s.regs.phase == 3 && nextToAttest s == some k) || ((s.die k).state == 4 && 3 ≤ s.regs.phase.toNat && !s.regs.tripped))

/-- Phase 4 follows the last attestation (R437). -/
def afterAttest (s : State) : State :=
  if s.regs.phase = 3 ∧ (nextToAttest s).isNone then { s with regs := { s.regs with phase := 4 } } else s

/-- The image that runs, and its reference measurements of a die (R420, R429). -/
def runningImage (s : State) : Image := s.images.get (if s.regs.slot then 1 else 0)
def referenceOf (s : State) (k : Nat) : List (BitVec 256) := ((runningImage s).refs.drop (4 * k)).take 4

/-- The exchange of R420 by what the die answers: the step that fails, 8 when none does, and how many signatures the die
has made on the way, one each at steps 5 and 6. A die without a leaf refuses to sign. -/
def exchange (s : State) (k : Nat) (r : SpdmReply) : Nat × Nat :=
  let leaves := ((s.die k).signs 2).2
  if r.version ≠ some true then (1, 0)
  else if r.caps ≠ some (BitVec.allOnes 7) then (2, 0)
  else if r.algs ≠ some (BitVec.allOnes 4) then (3, 0)
  else if r.cert ≠ some (Config.dieUid k, true) then (4, 0)
  else if leaves = 0 ∨ r.challenge = none then (5, 0)
  else if r.challenge ≠ some true then (5, 1)
  else if leaves = 1 ∨ r.meas = none then (6, 1)
  else if r.meas ≠ some (true, referenceOf s k) ∨ (referenceOf s k).length ≠ 4 then (6, 2)
  else if r.psk ≠ some true then (7, 2)
  else (8, 2)

/-- The exchange ends at step `n`, 8 when every step passes, the die having signed as often as it was `asked`. -/
def attestEnd (s : State) (k n asked : Nat) : State :=
  let s := s.setDie k ((s.die k).signs asked).1
  let s := if n = 8 then
      let s := s.setDie k { s.die k with state := 2, failStep := 0, gen := (s.die k).gen + 1 }
      if 24 ≤ k then { s with regs := { s.regs with hubSby := true } } else s
    else quarantine s k n
  afterAttest s

/-- A step of R420 by number; a number outside the table counts as the nearest. -/
def stepOf (n : BitVec 4) : Nat := max 1 (min 7 n.toNat)

/-- Leaves that an exchange takes which ends in silence at step `n`: those of the steps before, and that of step `n`
itself, which the die may have used (R419: DESIGN CHOICE, log entry 105). -/
def silentSigns (n : Nat) : Nat := if n < 5 then 0 else if n = 5 then 1 else 2

def execAttestation (die : BitVec 5) (offer : SpdmOffer) (proof : SpdmProof) (s : State) : Out :=
  .next (if mayAttest s die.toNat then
      let x := exchange s die.toNat { toSpdmOffer := offer, toSpdmProof := proof }
      attestEnd s die.toNat x.1 x.2
    else s)

/-- No response within 100 ms (R420). -/
def execAttestTimeout (die : BitVec 5) (failStep : BitVec 4) (s : State) : Out :=
  .next (if mayAttest s die.toNat then attestEnd s die.toNat (stepOf failStep) (silentSigns (stepOf failStep)) else s)

/-! ### Link directions (R405, R423) -/

def dirKind (d : BitVec 32) : Nat := (d.extractLsb' 24 8).toNat
def dirSrc (d : BitVec 32) : Nat := (d.extractLsb' 16 8).toNat
def dirDst (d : BitVec 32) : Nat := (d.extractLsb' 8 8).toNat
def dirIn (d : BitVec 32) : Nat := (d.extractLsb' 0 8).toNat

/-- The die of an endpoint: cells, hubs, and stacks under the numbers they take here. -/
def endDie (e : Nat) : Nat := if e < 128 then e / 16 else if e < 130 then e - 104 else e - 122

/-- The end of an electrical link at forge die `d`: the manual numbers the stack's end alone; the die's is its
first cell (DESIGN CHOICE, log entry 14). -/
def dieEnd (d : Nat) : Nat := 16 * d

/-- A stack and its near die. -/
def nearPair (a b : Nat) : Bool := 130 ≤ a && a < 146 && b == dieEnd ((a - 130) / 2)

/-- DIR names a direction of the module. -/
def dirValid (s : State) (d : BitVec 32) : Bool :=
  if dirKind d = 0 then
    dirIn d == 0 && ((dirSrc d < 130 && dirDst d < 130 && dirSrc d != dirDst d) || nearPair (dirSrc d) (dirDst d) || nearPair (dirDst d) (dirSrc d))
  else dirKind d == 1 && dirIn d ≤ 1 && dirSrc d == s.regs.pod.toNat

/-- A home channel, that of an endpoint of the light layer, is a hub's. -/
def hubChannel (ch : Nat) : Bool := ch == 128 || ch == 129

/-- A direction carries flits of a class: both ends attested, or, on a fibre, the peer; class 5 crosses a fibre
before that, and in the module hub channels alone; class 7 is none (R405, R420, R428). -/
def dirUp (s : State) (d : BitVec 32) (cls : Nat) : Bool :=
  dirValid s d && cls < 7
    && (if dirKind d = 0 then attested s (endDie (dirSrc d)) && attested s (endDie (dirDst d)) && (cls != 5 || hubChannel (dirDst d))
          && !s.guidesOut.contains (BitVec.ofNat 8 (dirDst d))
        else attested s (dirDst d / 32) && fibreCarries s (dirDst d)
          && (cls == 5 || s.regs.podatt.getLsbD (s.fibre (dirDst d)).peer.toNat))

def State.dir (s : State) (d : BitVec 32) : LinkDir := (s.links.find? (fun l => l.dir == d)).getD (LinkDir.fresh d)

/-- Stores a direction; one as it was first keyed is not listed. -/
def State.setDir (s : State) (l : LinkDir) : State :=
  let rest := s.links.filter (fun m => m.dir != l.dir)
  { s with links := if l = LinkDir.fresh l.dir then rest else l :: rest }

/-- Die at the receiving end. -/
def dirDie (d : BitVec 32) : Nat := if dirKind d = 0 then endDie (dirDst d) else dirDst d / 32

/-- Where the link secret of a direction stands among those that have been drawn: resets of the module, attestations of
the dies at its ends, or sessions with the peer, and re-keys (R423, R426, R428). -/
def secretPlace (s : State) (d : BitVec 32) : List Nat :=
  let l := s.dir d
  if dirKind d = 0 then [s.era, (s.die (endDie (dirSrc d))).gen.toNat, (s.die (endDie (dirDst d))).gen.toNat, l.rekeys.toNat]
  else
    let p := (s.fibre (dirDst d)).peer
    [s.era, (s.die (dirDst d / 32)).gen.toNat, (s.sessions.filter (· == p)).length, l.rekeys.toNat]

/-- LS of a direction (R423). -/
def State.secret (s : State) (d : BitVec 32) : BitVec 256 := Config.linkSecret d (secretPlace s d)

/-- Key g (R423). -/
def linkKey (ls : BitVec 256) (d : BitVec 32) : Nat → BitVec 256
  | 0 => Config.hkdfLink ls d
  | g + 1 => Config.hkdfNext (linkKey ls d g)

/-- A flit's tag verifies under generation `g` (R424). -/
def tagOk (s : State) (d : BitVec 32) (g : Nat) (f : Flit) : Bool :=
  let nonce : BitVec 96 := d ++ BitVec.ofNat 32 g ++ f.tag.extractLsb' 96 32
  f.tag.extractLsb' 0 96 == Config.gcmTag (linkKey (s.secret d) d g) nonce f.head f.payload

/-- A re-key (R427): a fresh secret, generation 0, the flits the receiver has not taken sent again; logged. -/
def rekey (s : State) (d : BitVec 32) : State :=
  let l := s.dir d
  (s.setDir { LinkDir.fresh d with rekeys := l.rekeys + 1, seqs := l.seqs }).event 8 (dirDie d) [d.toNat]

/-- Receiver's buffers of a home channel: one flit of a class is taken out (R405, R408). -/
def State.token (s : State) (c : BitVec 8) : Token := (s.tokens.find? (fun t => t.ch == c)).getD (Token.fresh c)

def State.setToken (s : State) (t : Token) : State :=
  let rest := s.tokens.filter (fun u => u.ch != t.ch)
  { s with tokens := if t = Token.fresh t.ch then rest else t :: rest }

def Token.bump (t : Token) (c : Nat) (f : BitVec 7 → BitVec 7) : Token :=
  if h : c < 7 then { t with free := t.free.set c (f (t.free.get ⟨c, h⟩)) h } else t

/-- A direction takes tokens: between dies, over the light layer (R409). -/
def takesToken (d : BitVec 32) : Bool := dirKind d == 0 && dirSrc d < 130 && dirDst d < 130 && endDie (dirSrc d) != endDie (dirDst d)

/-- The receiver has dealt with a flit, taken or discarded, and its place in the class's buffer is free. -/
def takeFlit (s : State) (d : BitVec 32) (cls : Nat) : State :=
  if takesToken d then
    let t := s.token (d.extractLsb' 8 8)
    s.setToken (t.bump cls (fun n => if n < 64 then n + 1 else n))
  else s

/-- SEQ expected next of a source and class, and flits of them that are discarded (R407). -/
def LinkDir.expected (l : LinkDir) (src : BitVec 8) (cls : BitVec 3) : BitVec 16 :=
  ((l.seqs.find? (fun x => x.1 == src && x.2.1 == cls)).map (·.2.2)).getD 0

def LinkDir.expect (l : LinkDir) (src : BitVec 8) (cls : BitVec 3) (n : BitVec 16) : LinkDir :=
  let rest := l.seqs.filter (fun x => !(x.1 == src && x.2.1 == cls))
  { l with seqs := if n = 0 then rest else (src, cls, n) :: rest }

def LinkDir.discards (l : LinkDir) (src : BitVec 8) (cls : BitVec 3) : LinkDir :=
  { l with discard := if l.discard.contains (src, cls) then l.discard else l.discard ++ [(src, cls)] }

def LinkDir.resends (l : LinkDir) (src : BitVec 8) (cls : BitVec 3) : LinkDir := { l with discard := l.discard.filter (· != (src, cls)) }

/-- Generation under which the receiver opens a flit: that of its KPH, while it has the key (R425). -/
def LinkDir.genOf (l : LinkDir) (kph : Bool) : Option Nat :=
  if kph == l.kph then some l.gen.toNat
  else if l.oldKey then some (l.gen.toNat - 1)
  else if l.roll ≠ 0 then some (l.gen.toNat + 1)
  else none

/-- CTR from which a rollover is wanted, and from which the sender stops (R425). -/
def rollFrom : Nat := 2 ^ 30
def stopFrom : Nat := 2 ^ 31

/-- The sender has sent up to CTR `n`. -/
def LinkDir.sent (l : LinkDir) (n : Nat) : LinkDir :=
  { l with ctr := BitVec.ofNat 32 n, ordered := l.ordered || (rollFrom ≤ n && l.roll == 0) }

/-- Flits the sender may still send before the next rollover. -/
def LinkDir.room (l : LinkDir) : Nat := stopFrom - l.ctr.toNat

/-- A flit that does not open is discarded with what follows it of its source and class; the 16th in a row re-keys
(R407, R427). -/
def failFlit (s : State) (d : BitVec 32) (f : Flit) : State :=
  let l := s.dir d
  if l.fails.toNat + 1 ≥ 16 then rekey s d else s.setDir (({ l with fails := l.fails + 1 } : LinkDir).discards f.src f.cls)

/-- A flit whose tag has verified: what it shows of its sender, and, on a fibre, the classes that the far end can receive
(R411, R424, R425). -/
def openedFlit (s : State) (d : BitVec 32) (f : Flit) : State :=
  let l := s.dir d
  let cur := f.kph == l.kph
  let l := { l with fails := 0, newFlits := if l.oldKey && cur && l.newFlits < 4096 then l.newFlits + 1 else l.newFlits }
  let s := s.setDir (if cur && l.ctr ≤ f.ctr then l.sent (f.ctr.toNat + 1) else l)
  if dirKind d = 1 ∧ dirIn d = 1 then s.setFibre { s.fibre (dirDst d) with opn := f.opn } else s

/-- A flit is opened under the key of its KPH (R425, R427): one under an erased key re-keys the direction, at
generation 0, where no key has been erased, it fails to open. The flag says that it has opened. -/
def openFlit (s : State) (d : BitVec 32) (f : Flit) : State × Bool :=
  match (s.dir d).genOf f.kph with
  | none => (if (s.dir d).gen = 0 then failFlit s d f else rekey s d, false)
  | some g => if tagOk s d g f then (openedFlit s d f, true) else (failFlit s d f, false)

/-- A flit arrives (R407): opened, it is taken in SEQ order of its source and class, or discarded with what follows. -/
def receiveFlit (s : State) (d : BitVec 32) (f : Flit) : State :=
  if !dirUp s d f.cls.toNat then s
  else
    let (s, ok) := openFlit s d f
    let s := takeFlit s d f.cls.toNat
    let l := s.dir d
    if !ok then s
    else if l.discard.contains (f.src, f.cls) || f.seq != l.expected f.src f.cls then s.setDir (l.discards f.src f.cls)
    else s.setDir (l.expect f.src f.cls (f.seq + 1))

def execFlitReceive (dir : BitVec 32) (route : BitVec 48) (fields : BitVec 80) (payload : BitVec 512) (tag : BitVec 128) (s : State) : Out :=
  .next (receiveFlit s dir { route := route, fields := fields, payload := payload, tag := tag })

/-- The sender resends from the first flit discarded (R407). -/
def execFlitResend (dir : BitVec 32) (lane : BitVec 8 × BitVec 3) (s : State) : Out :=
  .next (s.setDir ((s.dir dir).resends lane.1 lane.2))

/-- A rollover goes a step on (R425): the receiver has installed the next key; the sender has been told; the sender goes
over to the other KPH. One ordered before the one before is complete waits. -/
def rollover (s : State) (d : BitVec 32) : State :=
  let l := s.dir d
  if !dirUp s d 0 then s
  else match l.roll.toNat with
    | 0 => if l.oldKey then s.setDir { l with ordered := true } else s.setDir { l with roll := 1, ordered := false }
    | 1 => s.setDir { l with roll := 2 }
    | _ => s.setDir { l with roll := 0, gen := l.gen + 1, kph := !l.kph, ctr := 0, oldKey := true, newFlits := 0 }

def execKeyRollover (dir : BitVec 32) (s : State) : Out := .next (rollover s dir)

/-- After 4,096 flits under the new key the receiver erases the old one (R425), and a rollover that waits begins. -/
def eraseOld (s : State) (d : BitVec 32) : State :=
  let l := s.dir d
  if l.oldKey ∧ l.newFlits = 4096 then
    s.setDir { l with oldKey := false, newFlits := 0, roll := if l.ordered then 1 else l.roll, ordered := false }
  else s

def execKeyErase (dir : BitVec 32) (s : State) : Out := .next (eraseOld s dir)

/-- Every direction that is up, in ascending DIR. -/
def everyDir (s : State) : List (BitVec 32) :=
  let ends := List.range 146
  let light := ends.flatMap (fun a => ends.map (fun b => BitVec.ofNat 32 (at_ 16 a + at_ 8 b)))
  let fib := (List.range 256).flatMap (fun k => [0, 1].map (fun i => BitVec.ofNat 32 (2 ^ 24 + at_ 16 s.regs.pod.toNat + at_ 8 k + i)))
  (light ++ fib).filter (fun d => dirUp s d 0)

/-- LKREKEY (R427). -/
def writeLkrekey (s : State) (v : Word) : State :=
  let d := v.extractLsb' 0 32
  let s := { s with regs := { s.regs with lkrekeyLow := d } }
  if !v.getLsbD 32 then s
  else if d = BitVec.allOnes 32 then (everyDir s).foldl rekey s
  else if dirUp s d 0 then rekey s d
  else s

def execLkrekey (v : Word) (s : State) : Out := .next (writeLkrekey s v)

/-! ### Peers (R428) -/

/-- The keys of the fibres to a peer go. -/
def dropFibreKeys (s : State) (p : BitVec 6) : State :=
  { s with links := s.links.filter (fun l => !(dirKind l.dir == 1 && (s.fibre (dirDst l.dir)).peer == p)) }

/-- The module asks, in the exchange with a peer, when its pod number is the lower (R428). -/
def requester (s : State) (p : BitVec 6) : Bool := s.regs.pod < p

/-- The first fibre pair of a peer carries class 5: it stands, its die is attested, and the far end takes the class
(R411, R428). -/
def peerReached (s : State) (p : BitVec 6) : Bool :=
  (pairFor s p.toNat 0).any (fun k => attested s (k / 32) && openAt s k 5)

/-- A peer is attested over class 5, once the module's own dies are; hub die 0 signs for the module, as requester or as
responder. A session gives the fibres to it fresh secrets. -/
def attestPeer (s : State) (p : BitVec 6) (pass : Bool) : State :=
  if !s.regs.ready || p == s.regs.pod || !peerReached s p || (attestOrder.any (fun k => (s.die k).state == 1 || (s.die k).state == 4)) then s
  else
    match (s.die 24).sign with
    | none => s
    | some d =>
      let s := s.setDie 24 d
      if pass then { s with regs := { s.regs with podatt := s.regs.podatt ||| ((1 : Word) <<< p.toNat) }, sessions := p :: s.sessions } else s

def losePeer (s : State) (p : BitVec 6) : State :=
  dropFibreKeys { s with regs := { s.regs with podatt := s.regs.podatt &&& ~~~((1 : Word) <<< p.toNat) } } p

def execPeerAttestation (p : BitVec 6) (pass : Bool) (s : State) : Out := .next (attestPeer s p pass)
def execPeerReset (p : BitVec 6) (s : State) : Out := .next (losePeer s p)

/-! ### The reset of a die (R398, R426) -/

/-- Die of a key: the forge die of a bank, or the die of a stack. -/
def keyDie (k : Key) : Option Nat :=
  match keyCls k with
  | .bm => some ((k - 2 ^ 53) / 2 ^ 28)
  | .sm => some (8 + fld 36 4 k)
  | _ => none

/-- The directions that end at a die lose their keys. -/
def eraseKeys (s : State) (k : Nat) : State :=
  { s with links := s.links.filter (fun l =>
      !(if dirKind l.dir = 0 then endDie (dirSrc l.dir) == k || endDie (dirDst l.dir) == k else dirDst l.dir / 32 == k)) }

/-- Bytes of an element of format `f` that begins at a bit offset. -/
def spanBytes (f : Fmt) (bo : Nat) : Nat := if f.packed then (bo + f.bits + 7) / 8 else f.bytes

/-- Bytes that reading index `i` of an index window touches: address and count. -/
def indexReads (d : Desc) (i : Nat) : List (Nat × Nat) :=
  match Desc.fmt d with
  | some f => let p := flatVa d f i; [(p.1, spanBytes f p.2)]
  | none => []

/-- Bytes that reading element `i` of a window touches, with those of its index or its shape record. -/
def elemReads (s : State) (e : Eye) (vl : Nat) (w : Win) (f : Fmt) (i : Nat) : List (Nat × Nat) :=
  (match Desc.mode w.d with
    | 2 => indexReads w.idx i
    | 3 => [(Desc.base w.d, 128)]
    | _ => [])
  ++ (match (M.exec (elemVa e vl w f i) s).1 with
    | .ok p => [(p.1, spanBytes f p.2)]
    | .error _ => [])

/-- Bytes that the hops of a chase read, as the list stands now. -/
def chaseReads (imm : BitVec 16) (e : Eye) : Nat → State → Chase → List (Nat × Nat)
  | 0, _, _ => []
  | n + 1, s, h =>
    if !h.live || h.addr == 0 then []
    else (h.addr.toNat, 32) :: (match M.exec (hopOne imm e h) s with
      | (.ok (_, h), s) => chaseReads imm e n s h
      | (.error _, _) => [])

/-- Bytes that a command reads: its elements, its indices and its records (R235, R287, R288, R291). -/
def cmdReads (s : State) (c : Cmd) : List (Nat × Nat) :=
  let e := copyEye s c
  let vl := c.carry.vl.toNat
  let each (g : Nat → List (Nat × Nat)) : List (Nat × Nat) := (List.range c.len).flatMap g
  let ws := c.win 1
  let wx := (c.win 2).d
  let from_ (x : Int) : List (Nat × Nat) := [(wrapNat 64 ((Desc.base ws.d : Int) + x), c.fmt.bytes)]
  match cmdOf c.word with
  | none => []
  | some (k, a) =>
    match k with
    | .cpy | .cpym => each (elemReads s e vl ws c.fmt)
    | .cpyf => []
    | .cpyt => (Desc.base wx, 128) :: (match (M.exec (readShape e wx vl) s).1 with
        | .ok r => each (fun i => from_ (({ r with base := 0 } : Shape).addr i))
        | .error _ => [])
    | .cpyg => each (fun i => indexReads wx i ++ (match (M.exec (readIndex e wx i) s).1 with
        | .ok x => from_ (x * Desc.stride ws.d)
        | .error _ => []))
    | .cpys => each (fun i => indexReads wx i ++ elemReads s e vl ws c.fmt i)
    | .sprog => (List.range 1024).map (fun j => ((flatVa wx .bit j).1, 1)) ++ each (elemReads s e vl ws .n64)
    | .srun =>
      (List.range ((Desc.stride wx).toNat / 32 + 1)).map (fun j => (Desc.base wx + min (32 * j) ((Desc.stride wx).toNat - 1), 1))
        ++ each (elemReads s e vl ws ((Desc.fmt ws.d).getD .bf16))
    | .chase => each (fun i => elemReads s e vl ws .n64 i ++ (match (M.exec (readElem { e with elem := i } vl ws .n64 i) s).1 with
        | .ok x => chaseReads a.imm e 64 s { idx := i, hop := 0, addr := BitVec.ofNat 64 x, live := true, agent := e.agent }
        | .error _ => []))

/-- Sectors that a command writes, by virtual sector: those it has come to, or will as memory stands. -/
def cmdWrites (s : State) (c : Cmd) : List Nat :=
  if c.readDone then c.sectors
  else match (M.exec (readCmd c) s).1 with
    | .ok c => c.sectors
    | .error _ => []

/-- Dies whose engines a command drives: those of the pseudo-channels that `sprog` selects (R287). -/
def cmdEngines (s : State) (c : Cmd) : List Nat :=
  match cmdOf c.word with
  | some (.sprog, _) => (match (M.exec (selected c (copyEye s c)) s).1 with
    | .ok ps => ps.map (fun p => 8 + p / 64)
    | .error _ => [])
  | _ => []

/-- A byte at a virtual address lies on a die. -/
def byteOn (s : State) (die va : Nat) : Bool :=
  match (M.exec (lookup (copyAgent s.front) va false 0) s).1 with
  | .ok (pl, _) => ((keyOf s pl va).bind keyDie) == some die
  | .error _ => false

/-- A command reads or writes a die (R244). -/
def cmdOn (s : State) (die : Nat) (c : Cmd) : Bool :=
  (cmdReads s c).any (fun r => (List.range r.2).any (fun i => byteOn s die (r.1 + i)))
    || (cmdWrites s c).any (fun v => byteOn s die (32 * v)) || (cmdEngines s c).contains die

/-- Index at which a command fails now: its first unwritten sector. One that has written all of its own has failed
in its action, and counts them (R244). -/
def failedAt (c : Cmd) : Nat :=
  match c.held with
  | w :: _ => w.ord
  | [] => if c.readDone then c.count else 0

/-- The stream's commands that read or write the die end with DIE_RESET (R244), but for those that have ended at
another fault already. -/
def failCmds (die : Nat) (s : State) : State :=
  s.setCmds (s.front.cmds.map (fun c =>
    if !c.finished && !(c.fault && c.held.isEmpty) && cmdOn s die c then c.failed (failedAt c) (mkTrap causeDieReset die) else c))

/-- Die of an owner: a bank, or a channel engine. -/
def ownerDie (o : Nat) : Nat := if o < 8192 then o / 1024 else 8 + (o - 8192) / 64

/-- Accumulates bound for homes on the die, and entries kept there, are discarded and logged (R341); those that a bank of
the die has sent and no home has accepted are lost with their flits (R426). -/
def dropAccs (s : State) (die : Nat) : State :=
  let on (o : Nat) : Bool := ownerDie o == die
  let bound (m : AccMsg) : Bool := m.peer.isNone && on m.home
  let kept (r : Residual) : Bool := on r.bank || (r.peer.isNone && on r.home)
  let gone := ((s.msgs ++ s.homeQ).filter bound).map (fun m => (m.sector, m.sid)) ++ (s.residuals.filter kept).map (fun r => (r.sector, r.sid))
  let s := { s with
    msgs := s.msgs.filter (fun m => !(bound m || (m.answer.isNone && on m.sender)))
    homeQ := s.homeQ.filter (fun m => !bound m)
    residuals := s.residuals.filter (fun r => !kept r) }
  gone.foldl (fun s g => s.event 6 die [32 * g.1 % 2 ^ 52, g.2.toNat]) s

/-- Die of a translating agent: a bank, a badger slice, a sequencer, a copy engine (R303). -/
def agentDie (a : Nat) : Option Nat :=
  if a < 8192 then some (a / 1024)
  else if a < 9216 then some (8 + (a - 8192) / 64)
  else if a < 9472 then some ((a - 9216) / 32)
  else if a < noTlb then some ((a - 9472) / 16)
  else none

/-- Bank memory of a forge die is lost: its bytes are free values (R398). Its TLBs are empty (R308). -/
def loseBanks (s : State) (d : Nat) : State :=
  let n := s.drawn
  { s with
    mem := s.mem.overlay (bmKey (1024 * d) 0) (2 ^ 28) (Config.lostByte n), drawn := n + 1
    poison := s.poison.filter (fun w => keyDie (8 * w) != some d)
    tags := s.tags.filter (fun t => keyDie (32 * t.sector) != some d)
    shelves := s.shelves.filter (fun e => !ofDie d e.own)
    slots := s.slots.filter (fun p => p.2.2.bank / 1024 != d)
    tlb := s.tlb.filter (fun e => agentDie e.agent != some d) }

/-- A stream has a bank of its domain on a forge die. -/
def onForge (d : Nat) (f : Front) : Bool := (blockCells f.domBase.toNat f.domLog.toNat).any (fun c => c / 16 == d)

/-- A stream meets the reset of a forge die. -/
def meetReset (d : Nat) (s : State) : State :=
  if s.front.retiring then s
  else if s.front.status = .running then
    if dieOf s.front = d then retireFront s
    else if onForge d s.front then dieStop d s
    else s
  else if onForge d s.front then { s with front := { s.front with pdie := some (BitVec.ofNat 3 d) } }
  else s

/-- Groups whose home cell lies on a forge die (R124, R127): the slots are empty, so no stream is a member (log entry
76), and members that wait in `gbar` there take DIE_RESET. An episode number already on its way is not lost. -/
def loseGroups (s : State) (d : Nat) : State :=
  let on (g : BitVec 10) : Bool := g.toNat / 128 == d
  let s := { s with groups := s.groups.filterMap (fun (r : Group) =>
    if !on r.id then some r
    else if r.released.isEmpty then none
    else some { Group.empty r.id with released := r.released }) }
  let s := s.mapStreams (fun f => f.mapGrps (fun x => if slotValid x && on (slotGroup x) then 0 else x))
  (liveSids s).foldl (fun s sid => s.onStream sid (fun s =>
    match s.front.atGroup with
    | some g => if s.front.status == .running && on g && (releasedAt s g).isNone then dieStop d s else s
    | none => s)) s

/-- A die is reset: commands, accumulates, groups, streams, memory, keys, and its state until it is attested again. -/
def resetDie (s : State) (k : Nat) : State :=
  if 26 ≤ k ∨ (s.die k).state ≠ 2 then s
  else
    let s := (liveSids s).foldl (fun s sid => s.onStream sid (failCmds k)) s
    let s := dropAccs s k
    let s := if k < 8 then (liveSids s).foldl (fun s sid => s.onStream sid (meetReset k)) s else s
    let s := if k < 8 then loseBanks (loseGroups s k) k else s
    let s := eraseKeys { s with tlb := s.tlb.filter (fun e => agentDie e.agent != some k) } k
    let s := if 24 ≤ k ∧ k ≠ activeHub s then { s with regs := { s.regs with hubSby := false } } else s
    s.setDie k { s.die k with state := 4 }

def execDieReset (die : BitVec 5) (s : State) : Out := .next (resetDie s die.toNat)

/-! ### HOSTINT (R388) -/

/-- HOST is raised at a live stream, in place of one it has not taken. -/
def writeHostint (s : State) (v : Word) : State :=
  let s := { s with regs := { s.regs with hostintLow := v.extractLsb' 0 32 } }
  if v.getLsbD 32 then
    s.onStream (v.extractLsb' 0 16) (fun s => { s with front := { s.front with phost := some (v.extractLsb' 16 16) } })
  else s

def execHostint (v : Word) (s : State) : Out := .next (writeHostint s v)

end Sys2Proof.Machine
end

