-- ==== Sys2Proof/Machine/Fabric.lean ====
section
/-! DEFINITION. Home channels and their tokens, governed clock regions, and the fibres (spec/23_fabric.md). -/

namespace Sys2Proof.Machine

/-! ### Tokens (R408, R409) -/

/-- The token passes its receiver: the spent bit clears, and a class is open while its buffer has 32 free. -/
def Token.atReceiver (t : Token) : Token :=
  { t with
    spent := false
    mask := BitVec.ofNat 7 (((List.range 7).filter (fun c => 32 ≤ (t.free.get (Fin.ofNat 7 c)).toNat)).foldl (fun a c => a + 2 ^ c) 0)
    prev := t.last, last := none }

/-- Flits of a class go on a home channel: class 5 on hub channels only, class 7 nowhere (R405). -/
def sendable (ch : Nat) (c : BitVec 3) : Bool := c != 7 && (c != 5 || hubChannel ch)

/-- Flits of the classes `want`, in order, that a burst takes: those of open classes, at most `n` (R408). -/
def Token.burst (t : Token) (ch n : Nat) (want : List (BitVec 3)) : List (BitVec 3) :=
  (want.filter (fun c => sendable ch c && t.mask.getLsbD c.toNat)).take n

/-- The token passes a writer that has flits to send: it is captured for one burst of at most 32 flits, all of open
classes, or the writer waits. A flit of a closed class holds back none of another. -/
def Token.atWriter (t : Token) (ep : BitVec 8) (n : Nat) (want : List (BitVec 3)) : Token × Nat :=
  let wait : Token := if t.waiting.contains ep then t else { t with waiting := t.waiting ++ [ep] }
  match want, t.burst t.ch.toNat (min n 32) want with
  | [], _ => (t, 0)
  | _, [] => (wait, 0)
  | _, b =>
    if t.spent || (t.prev == some ep && t.waiting.any (· != ep)) then (wait, 0)
    else
      ({ b.foldl (fun t c => t.bump c.toNat (fun f => f - 1)) t with spent := true, last := some ep, waiting := t.waiting.filter (· != ep) }, b.length)

/-- DIR of a light-layer direction. -/
def lightDir (src dst : BitVec 8) : BitVec 32 := (0 : BitVec 8) ++ src ++ dst ++ (0 : BitVec 8)

/-- The sender's CTR rises for every flit (R424). -/
def countFlits (s : State) (d : BitVec 32) (n : Nat) : State :=
  if n = 0 then s else s.setDir ((s.dir d).sent ((s.dir d).ctr.toNat + n))

/-- The token of a channel passes an endpoint. Cells of one die use the mesh and take no token (R409); a direction whose
CTR has come to 2^31 sends nothing (R425). The order in which it passes the endpoints comes with the events (log entry
102). -/
def passToken (s : State) (ch ep : BitVec 8) (want : List (BitVec 3)) : State :=
  if 130 ≤ ch.toNat ∨ 130 ≤ ep.toNat then s
  else if ep = ch then s.setToken (s.token ch).atReceiver
  else if !takesToken (lightDir ep ch) ∨ !dirUp s (lightDir ep ch) 0 then s
  else
    let (t, k) := (s.token ch).atWriter ep (s.dir (lightDir ep ch)).room want
    countFlits (s.setToken t) (lightDir ep ch) k

def execTokenPass (ch ep : BitVec 8) (replies requests : List (BitVec 3)) (s : State) : Out :=
  .next (passToken s ch ep (replies ++ requests))

/-! ### Governed clock regions (R410) -/

/-- Regions by number: the trees (0 to 25, one for each die), the light-layer ports (32 + endpoint), the fibre
ports (256 + pair). The manual numbers none (DESIGN CHOICE, log entry 15). -/
def regionMin (s : State) (r : Nat) : Option (BitVec 2) :=
  if r < 26 then some s.regs.treeMin
  else if 32 ≤ r ∧ r < 162 then some s.regs.llMin
  else if 256 ≤ r then some s.regs.fibMin
  else none

def levelOf (s : State) (r : BitVec 9) : BitVec 2 := ((s.levels.find? (fun p => p.1 == r)).map (·.2)).getD 3

def setLevel (s : State) (r : BitVec 9) (l : BitVec 2) : State :=
  let rest := s.levels.filter (fun p => p.1 != r)
  { s with levels := if l = 3 then rest else (r, l) :: rest }

/-- A governor raises or lowers its region by one level, within FGOV's bounds. -/
def moveLevel (s : State) (r : BitVec 9) (up : Bool) : State :=
  match regionMin s r.toNat with
  | none => s
  | some m =>
    let l := levelOf s r
    if s.regs.pin then s
    else if up then (if l = 3 then s else setLevel s r (l + 1))
    else if m < l then setLevel s r (l - 1)
    else s

def execGovernorLevel (region : BitVec 9) (up : Bool) (s : State) : Out := .next (moveLevel s region up)

/-- FGOV (R410): regions below a new lowest level rise to it, and PIN holds every region at level 3. -/
def writeFgov (s : State) (v : Word) : State :=
  let s := { s with regs := { s.regs with
    treeMin := v.extractLsb' 0 2, llMin := v.extractLsb' 2 2, fibMin := v.extractLsb' 4 2, pin := v.getLsbD 6 } }
  if s.regs.pin then { s with levels := [] }
  else s.levels.foldl (fun s p => match regionMin s p.1.toNat with
    | some m => if p.2 < m then setLevel s p.1 m else s
    | none => s) s

/-! ### Fibres (R411 to R414) -/

/-- DIR of the inbound fibre of a pair. -/
def fibreIn (s : State) (k : BitVec 8) : BitVec 32 := (1 : BitVec 8) ++ ((0 : BitVec 2) ++ s.regs.pod) ++ k ++ (1 : BitVec 8)

/-- An empty flit arrives with the classes the far end can receive; it is sealed like any other (R411, R424). -/
def takeEmpty (s : State) (k : BitVec 8) (f : Flit) : State :=
  if dirUp s (fibreIn s k) 5 then (openFlit s (fibreIn s k) f).1 else s

def execEmptyFlit (k : BitVec 8) (f : Flit) (s : State) : Out := .next (takeEmpty s k f)

/-- Classes that a receiver of a pair marks open, with `free` flits free in each buffer of 2,048 (R411). -/
def openMarks (trip free : Nat) : BitVec 7 := if trip + 320 ≤ free then 0x7F else 0

/-- Fewest active wavelengths (R413). -/
def minWaves (f : Fibre) : Nat := 2 ^ (f.minact.toNat + 1)

/-- The upper half of the active wavelengths is parked, while more than MINACT's count are active. -/
def parkFibre (f : Fibre) : Fibre :=
  if minWaves f < f.act.toNat ∧ !f.waking ∧ !f.dead then
    let on := (List.range 8).filter (fun w => !f.parked.getLsbD w)
    let keep := on.take (f.act.toNat / 2)
    { f with act := BitVec.ofNat 4 (f.act.toNat / 2),
             parked := BitVec.ofNat 8 (((List.range 8).filter (fun w => !keep.contains w)).foldl (fun a w => a + 2 ^ w) 0) }
  else f

def execFibrePark (k : BitVec 8) (s : State) : Out := .next (s.setFibre (parkFibre (s.fibre k.toNat)))

/-- Every parked wavelength is woken. -/
def wakeFibre (f : Fibre) : Fibre := if f.parked ≠ 0 ∧ !f.dead then { f with waking := true } else f

def execFibreWake (k : BitVec 8) (s : State) : Out := .next (s.setFibre (wakeFibre (s.fibre k.toNat)))

/-- The largest power of two of `n` wavelengths, of 2, 4 and 8. -/
def powerWaves (n : Nat) : Nat := if 8 ≤ n then 8 else if 4 ≤ n then 4 else 2

/-- The wake ends: wavelengths that have locked are active, as many as the largest power of two; the others stay
parked. -/
def lockFibre (f : Fibre) (locked : BitVec 8) : Fibre :=
  let on := (List.range 8).filter (fun w => !f.parked.getLsbD w || locked.getLsbD w)
  let keep := on.take (powerWaves on.length)
  { f with waking := false, act := BitVec.ofNat 4 (powerWaves on.length),
           parked := BitVec.ofNat 8 (((List.range 8).filter (fun w => !keep.contains w)).foldl (fun a w => a + 2 ^ w) 0) }

/-- A wake that leaves a wavelength unlocked is logged; of the events of R444 CAPLOSS of the fibre pair says it
(DESIGN CHOICE, log entry 16). -/
def endWake (s : State) (k : BitVec 8) (locked : BitVec 8) : State :=
  let f := s.fibre k.toNat
  if f.waking then
    let s' := s.setFibre (lockFibre f locked)
    if f.parked &&& ~~~locked = 0 then s' else s'.event 4 (k.toNat / 32) [4, k.toNat, mcfg s]
  else s

def execWakeLock (k : BitVec 8) (locked : BitVec 8) (s : State) : Out := .next (endWake s k locked)

end Sys2Proof.Machine
end

