-- ==== Sys2Proof/Machine/Service.lean ====
section
/-! DEFINITION. Bring-up, repairs, hub failover, throttling and trips, firmware update, and the loss of power
(spec/26_service.md). -/

namespace Sys2Proof.Machine

/-! ### Reset of the module (R437) -/

/-- Memory outside the module, which a reset of the module does not touch. -/
def outside (k : Key) : Bool := keyCls k == .hm || keyCls k == .pr

/-- A die after a module reset: its fuses and the leaves of its current block stay (R418, R419). -/
def resetOfDie (d : Die) : Die := { Die.reset with blkLeft := d.blkLeft, leaves := d.leaves, temp := d.temp, power := d.power }

/-- A stack after a module reset: failed layers stay replaced or mapped out (R292). -/
def resetOfStack (r : StackRegs) : StackRegs := { StackRegs.reset with gib := r.gib, layers := r.layers, spareU := r.spareU }

/-- The module after a reset: what repairs have done, the firmware slots and the fuses stay (R21, R439, R445). -/
def moduleReset (s : State) : State :=
  { State.reset with
    inbox := s.inbox, pace := s.pace, drawn := s.drawn
    mem := s.mem.filter (fun c => outside c.1), poison := s.poison.filter (fun w => outside (8 * w))
    stk := mapVec resetOfStack s.stk
    dies := mapVec resetOfDie s.dies
    era := s.era + 1
    images := s.images, committed := s.committed, staged := s.staged, burnt := s.burnt
    cellsOut := s.cellsOut, bankSpares := s.bankSpares, seqSpares := s.seqSpares, guideSpares := s.guideSpares, guidesOut := s.guidesOut
    fibres := s.fibres.map (fun f => { fibreFresh 0 f.id.toNat with dead := f.dead, stands := f.stands, peer := f.peer })
    regs := { Regs.reset with
      cells := 128 - BitVec.ofNat 8 s.cellsOut.length
      smgib := BitVec.ofNat 12 ((s.stk.toList.map (fun r => r.gib.toNat)).sum)
      spares := s.regs.spares
      mpwr := s.regs.mpwr } }

/-! ### Bring-up (R437, R438) -/

/-- Slots in the order in which they are tried: one staged before the reset, the one last committed, the other. -/
def bootOrder (s : State) : List Bool := s.staged.toList ++ [s.committed, !s.committed]

def slotImage (s : State) (b : Bool) : Image := s.images.get (if b then 1 else 0)

/-- A slot's image passes R429: signature and digest, and SVN not below the burnt bits. -/
def slotOk (s : State) (img0 img1 b : Bool) : Bool :=
  let i := slotImage s b
  i.valid && (if b then img1 else img0) && s.burnt.toNat ≤ i.svn.toNat

/-- Bring-up stops in a phase. -/
def bringFail (s : State) (n : Nat) : State :=
  { s with regs := { s.regs with phase := BitVec.ofNat 3 n, fail := true, fstep := BitVec.ofNat 3 n } }

/-- Phases 1 and 2, and phase 3 entered: the dies are attested next, each by its own event. A staged image that is not
the one to run is staged no more. -/
def bringUp (powerOk bootOk img0 img1 : Bool) (s : State) : State :=
  let slots := bootOrder s
  let s := moduleReset s
  if !powerOk then bringFail s 1
  else
    match (if bootOk then slots.find? (slotOk s img0 img1) else none) with
    | none => bringFail s 2
    | some b =>
      let s := s.setDie 24 { s.die 24 with state := 2 }
      { s with
        regs := { s.regs with slot := b, phase := 3, pod := Config.podNumber }
        staged := s.staged.filter (· == b) }

/-- A staged image that has brought the module to READY is committed, and an event reports it (R429, R445). -/
def commitStaged (s : State) : State :=
  match s.staged with
  | none => s
  | some b =>
    let i := slotImage s b
    let s := { s with
      burnt := if s.burnt < i.svn.setWidth 7 then i.svn.setWidth 7 else s.burnt
      committed := b, staged := none }
    s.event 12 (activeHub s) [i.svn.toNat, boolNat b, 1]

/-- Phase 5: every byte of bank and stack memory is zero, with fresh ECC; phase 6: READY. Not while a trip holds the dies
(R20, R442). -/
def initMemory (s : State) : State :=
  if s.regs.phase = 5 ∧ !s.regs.fail ∧ !s.regs.memgo ∧ !s.regs.tripped then
    commitStaged { s with
      mem := s.mem.filter (fun c => outside c.1), poison := s.poison.filter (fun w => outside (8 * w))
      regs := { s.regs with memgo := true, phase := 6, ready := true } }
  else s

def execMemgo (s : State) : Out := .next (initMemory s)

/-- Phase 5 has waited 100 ms for MEMGO. -/
def execMemgoTimeout (s : State) : Out := .next (initMemory s)

/-! ### Units and their spares (R12, R439, R440) -/

/-- Cell of a unit: a bank by module-wide number, or a sequencer as 2 × cell + number. -/
def unitCell (seq : Bool) (unit : Nat) : Nat := if seq then unit / 2 else unit / 64

/-- A spare is left for a unit of a cell: two banks, one sequencer, used or promised to a repair under way. -/
def spareLeft (s : State) (seq : Bool) (c : Nat) : Bool :=
  let used := (if seq then s.seqSpares else s.bankSpares).filter (fun x => x.toNat == c)
  let due := s.repairs.filter (fun r => r.1 == seq && unitCell r.1 r.2.toNat == c)
  used.length + due.length < (if seq then 1 else 2)

/-- Every stream whose domain contains the cell is pre-empted and held back. -/
def clearCell (s : State) (c : Nat) : State :=
  s.mapStreams (fun f =>
    if f.status != .idle && covers f c then
      { f with heldBack := true, ppre := f.ppre || (f.status == .running && !f.preempt), preempt := f.preempt || f.status == .running }
    else f)

/-- Sectors of a bank whose data is uncorrectable. -/
def badSectors (s : State) (bank : Nat) : List Nat :=
  ((s.poison.filter (fun w => 8 * w / 2 ^ 18 * 2 ^ 18 == bmKey bank 0)).map (· / 4)).dedup

/-- A sector carried over with uncorrectable check bits: each of its words. -/
def spoil (s : State) (sectors : List Nat) : State :=
  { s with poison := (s.poison ++ sectors.flatMap (fun c => (List.range 4).map (4 * c + ·))).dedup }

/-- The spare takes the unit's number, the cell returns to service, and its streams are let go. -/
def finishRepair (s : State) (seq : Bool) (unit : Nat) : State :=
  let c := unitCell seq unit
  if s.running.any (fun f => covers f c) then s
  else
    let bad := if seq then [] else badSectors s unit
    let s := spoil s bad
    let s := { s with
      repairs := s.repairs.filter (fun r => r != (seq, BitVec.ofNat 13 unit))
      bankSpares := if seq then s.bankSpares else BitVec.ofNat 7 c :: s.bankSpares
      seqSpares := if seq then BitVec.ofNat 7 c :: s.seqSpares else s.seqSpares
      regs := { s.regs with spares := s.regs.spares ||| (if seq then 2 else 1) } }
    let busy (f : Front) : Bool := s.repairs.any (fun r => covers f (unitCell r.1 r.2.toNat))
    let s := s.mapStreams (fun f => if f.heldBack && !busy f then { f with heldBack := false } else f)
    s.event 3 (c / 16) [boolNat seq, unit, bad.length]

/-- A unit without a spare leaves with its whole cell (R439). -/
def loseCell (s : State) (seq : Bool) (unit : Nat) : State :=
  let c := unitCell seq unit
  let s := clearCell s c
  let s := { s with
    cellsOut := BitVec.ofNat 7 c :: s.cellsOut
    repairs := s.repairs.filter (fun r => unitCell r.1 r.2.toNat != c)
    regs := { s.regs with cells := s.regs.cells - 1 } }
  s.event 4 (c / 16) [boolNat seq, unit, mcfg s]

/-- A bank or sequencer has failed: its cell takes no more streams, those whose domain holds it are pre-empted, and
once all are away the spare takes over. The event comes again until it does. -/
def repairUnit (s : State) (seq : Bool) (unit : Nat) : State :=
  let c := unitCell seq unit
  let key := (seq, BitVec.ofNat 13 unit)
  if 128 ≤ c ∨ !cellOk s c then s
  else if s.repairs.contains key then finishRepair (clearCell s c) seq unit
  else if spareLeft s seq c then finishRepair (clearCell { s with repairs := key :: s.repairs } c) seq unit
  else loseCell s seq unit

def execUnitRepair (seq : Bool) (unit : BitVec 13) (s : State) : Out := .next (repairUnit s seq unit.toNat)

/-- Keys of a fibre pair go. -/
def dropPair (s : State) (k : Nat) : State :=
  { s with links := s.links.filter (fun l => !(dirKind l.dir == 1 && dirDst l.dir == k)) }

/-- A failed fibre pair: one of pairs 252 to 255 takes its peer's place, or it is removed. -/
def repairFibre (s : State) (k : Nat) : State :=
  let f := s.fibre k
  if f.dead then s
  else
    let s := dropPair (s.setFibre { f with dead := true, waking := false }) k
    match (if f.spare && f.stands.isNone then none else [252, 253, 254, 255].find? (fun j => !(s.fibre j).dead && (s.fibre j).stands.isNone)) with
    | some j => (s.setFibre { s.fibre j with peer := f.peer, stands := some (f.stands.getD f.id) }).event 3 (k / 32) [4, k, 0]
    | none => s.event 4 (k / 32) [4, k, mcfg s]

/-- A failed waveguide: a spare waveguide of the light layer carries the channel; when none is left the channel leaves
service (R439). -/
def repairGuide (s : State) (c : Nat) : State :=
  if 130 ≤ c ∨ s.guidesOut.contains (BitVec.ofNat 8 c) then s
  else if s.guideSpares.length < Config.guideSpares then
    ({ s with guideSpares := BitVec.ofNat 8 c :: s.guideSpares } : State).event 3 (endDie c) [3, c, 0]
  else ({ s with guidesOut := BitVec.ofNat 8 c :: s.guidesOut } : State).event 4 (endDie c) [3, c, mcfg s]

def execSpareRepair (fibre : Bool) (unit : BitVec 8) (s : State) : Out :=
  .next (if fibre then repairFibre s unit.toNat else repairGuide s unit.toNat)

/-- Phase 4 (R437): a part that does not train is repaired or removed. -/
def repairPart (s : State) : Part → State
  | .unit seq n => repairUnit s seq n.toNat
  | .layer st l => failLayer st.toNat l.toNat s
  | .guide c => repairGuide s c.toNat
  | .pair k => repairFibre s k.toNat

/-- The round trip of a pair as its ends have measured it: one at which no class could ever be open fails training
(R411). -/
def trainPair (s : State) (k : BitVec 8) (trip : BitVec 12) : State :=
  let s := s.setFibre { s.fibre k.toNat with trip := trip }
  if openMarks trip.toNat 2048 = 0 then repairFibre s k.toNat else s

/-- Phase 4 ends, and phase 5 is entered and waits. -/
def calibrate (c : Calibration) (s : State) : State :=
  if s.regs.phase = 4 ∧ !s.regs.fail then
    let s := c.trips.foldl (fun s x => trainPair s x.1 x.2) (c.failed.foldl repairPart s)
    { s with regs := { s.regs with phase := 5 } }
  else s

def execBringUp (powerOk bootOk : Bool) (imgs : Bool × Bool) (cal : Option Calibration) (s : State) : Out :=
  .next (match cal with
    | none => bringUp powerOk bootOk imgs.1 imgs.2 s
    | some c => calibrate c s)

/-- Hub die 0 is silent (R441): hub die 1 takes over. The model carries out and confirms each item of the distributor in
the step that takes it, so that none is half done when it does; a record that still waits for its pre-emptions stays with
its queue and is placed once (DEDUCED, log entry 103). Without a standby the module leaves READY. -/
def failover (s : State) : State :=
  if s.regs.hubAct then s
  else if s.regs.hubSby then ({ s with regs := { s.regs with hubAct := true, hubSby := false } } : State).event 11 24 [1]
  else { s with regs := { s.regs with ready := false } }

def execHubFailover (s : State) : Out := .next (failover s)

/-! ### Sensors (R19, R20, R442) -/

def readSensors (s : State) (k : Nat) (temp : BitVec 8) (power watts : BitVec 16) : State :=
  let s := s.setDie k { s.die k with temp := temp, power := power }
  { s with regs := { s.regs with mpwr := watts } }

/-- One step down, to 0.9 GHz at the least; logged when the clock falls. -/
def slower (s : State) (k : Nat) : State :=
  let d := s.die k
  let m := if d.mhz < 1000 then 900 else d.mhz - 100
  if m = d.mhz then s
  else (s.setDie k { d with mhz := m }).event 1 k [d.temp.toNat, s.regs.mpwr.toNat, m.toNat]

/-- One step up, to the 1.8 GHz of the arithmetic clock at the most. -/
def faster (s : State) (k : Nat) : State :=
  let d := s.die k
  s.setDie k { d with mhz := if d.mhz < 1700 then d.mhz + 100 else 1800 }

/-- Every die but the active hub is held in reset, READY clears, and every stream is lost. -/
def tripModule (s : State) (k : Nat) : State :=
  let d := s.die k
  let s := s.event 2 k [d.temp.toNat, s.regs.mpwr.toNat, d.mhz.toNat]
  let lost := (List.range 8).foldl loseBanks s
  { lost with
    front := Front.idle, fronts := [], launches := [], groups := [], waiters := [], pushed := [], monitors := [], migrating := []
    msgs := [], homeQ := [], residuals := [], shelves := [], slots := [], tlb := [], logs := [], links := [], repairs := []
    dies := Vector.ofFn (fun (i : Fin 26) => if i.val = activeHub s then s.dies.get i else { s.dies.get i with state := 4 })
    regs := { s.regs with ready := false, hubSby := false, tripped := true } }

/-- The 1 ms control (R442): over a limit of the die or of the module its clock falls one step, and over the module's
every die's; 5 °C and 5% below both it rises one. -/
def control (s : State) (k : Nat) : State :=
  let d := s.die k
  if 4400 < s.regs.mpwr.toNat then (List.range 26).foldl slower s
  else if d.thr < d.temp then slower s k
  else if d.temp.toNat + 5 ≤ d.thr.toNat ∧ s.regs.mpwr.toNat ≤ 4180 then faster s k
  else s

/-- A reading: one over TRIP is a trip, whatever the throttle does. -/
def sense (s : State) (k : Nat) (temp : BitVec 8) (power watts : BitVec 16) : State :=
  if 26 ≤ k then s
  else
    let s := readSensors s k temp power watts
    if (s.die k).trip < temp then tripModule s k else control s k

def execThrottle (die : BitVec 5) (temp : BitVec 8) (watts : BitVec 16 × BitVec 16) (s : State) : Out :=
  .next (sense s die.toNat temp watts.1 watts.2)

/-- A sensor over TRIP; a reading at or below it changes the reading alone. -/
def execTrip (die : BitVec 5) (temp : BitVec 8) (watts : BitVec 16 × BitVec 16) (s : State) : Out :=
  .next (if 26 ≤ die.toNat then s
    else
      let s := readSensors s die.toNat temp watts.1 watts.2
      if (s.die die.toNat).trip < temp then tripModule s die.toNat else s)

/-! ### Firmware update (R445) -/

/-- UPDCTL: GO stages the image unless it is too large or another is being staged. -/
def writeUpdctl (s : State) (v : Word) : State :=
  if !v.getLsbD 0 || s.regs.updBusy then s
  else if 2 ^ 26 < s.regs.updLen.toNat then { s with regs := { s.regs with updResult := 4 } }
  else { s with regs := { s.regs with updBusy := true, updResult := 0 } }

def execUpdctlGo (v : Word) (s : State) : Out := .next (writeUpdctl s v)

/-- RESULT of a staging. -/
def stageResult (s : State) (readErr sigOk : Bool) (svn : BitVec 6) : Nat :=
  if readErr then 5 else if !sigOk then 2 else if svn.toNat < s.burnt.toNat then 3 else 1

/-- Staging ends: an image that passes R429 is in the slot that is not running. -/
def endStaging (s : State) (readErr sigOk : Bool) (i : Image) : State :=
  if !s.regs.updBusy then s
  else
    let r := stageResult s readErr sigOk i.svn
    let s := { s with regs := { s.regs with updBusy := false, updResult := BitVec.ofNat 3 r } }
    if r = 1 then { s with images := if s.regs.slot then s.images.set 0 i else s.images.set 1 i, staged := some (!s.regs.slot) } else s

def execImageStaged (readErr sigOk : Bool) (img : ImageHead) (s : State) : Out :=
  .next (endStaging s readErr sigOk { toImageHead := img, valid := true })

/-! ### Loss of power (R419) -/

/-- The leaves left in a die's block are never used. -/
def spendBlock (d : Die) : Die := { d with leaves := 0 }

/-- The module, or one die, loses power: volatile state goes as at a reset, and no block survives. -/
def powerOff (s : State) (whole : Bool) (die : Nat) : State :=
  if whole then
    let t := moduleReset s
    { t with dies := mapVec spendBlock t.dies }
  else if 26 ≤ die then s
  else resetDie (s.setDie die (spendBlock (s.die die))) die

def execPowerLoss (whole : Bool) (die : BitVec 5) (s : State) : Out := .next (powerOff s whole die.toNat)

end Sys2Proof.Machine
end

