-- ==== Sys2Proof/Machine/Hostlink.lean ====
section
/-! DEFINITION. The host's side (spec/23_fabric.md): BAR0 registers as they read and as writes take them, BAR2, and
completions of host memory. -/

namespace Sys2Proof.Machine

/-! ### Registers as they read -/

def lqcfgWord (r : LQueue) : Nat :=
  boolNat r.en + at_ 1 (boolNat r.cls) + at_ 2 r.size.toNat + at_ 8 r.pcap.toNat + at_ 12 r.vec.toNat + at_ 23 (boolNat r.irq) + at_ 24 (boolNat r.ovr)

/-- Launch queue registers by offset in their block (R104, R105, R295, R381, R417). -/
def queueWord (r : LQueue) (o : Nat) : Nat :=
  match o with
  | 0x00 => at_ 6 r.base.toNat
  | 0x08 => lqcfgWord r
  | 0x10 => r.head.toNat
  | 0x18 => r.tail.toNat
  | 0x20 => r.asid.toNat + at_ 16 r.root.toNat + at_ 52 (boolNat r.rclass)
  | 0x28 => boolNat r.supv + at_ 3 r.tvec.toNat
  | 0x30 => at_ 15 r.save.toNat
  | 0x38 => r.pasid.toNat + at_ 20 (boolNat r.pen) + at_ 21 (boolNat r.link)
  | _ => 0

/-- Stack registers by offset (R277, R313). -/
def stackWord (r : StackRegs) (o : Nat) : Nat :=
  match o with
  | 0x00 => r.gib.toNat + at_ 8 r.layers.toNat + at_ 24 (boolNat r.spareU) + at_ 25 r.remap.length
  | 0x08 => r.pmax.toNat + at_ 8 r.sridle.toNat
  | 0x10 => r.sflist.toNat
  | 0x18 => r.shmPc.toNat
  | 0x20 => (r.shmCh.get 0).toNat
  | 0x28 => (r.shmCh.get 1).toNat
  | 0x30 => (r.shmCh.get 2).toNat
  | 0x38 => (r.shmCh.get 3).toNat
  | 0x40 => (r.shmCh.get 4).toNat
  | 0x48 => r.prment.toNat
  | 0x50 => r.prmva.toNat
  | 0x58 => r.prmdst.toNat
  | 0x60 => at_ 1 (boolNat r.prmBusy) + at_ 2 r.prmResult.toNat + at_ 16 r.prmAsid.toNat
  | _ => 0

/-- FPk (R413). -/
def fibreWord (f : Fibre) : Nat :=
  f.act.toNat + at_ 4 f.parked.toNat + at_ 12 f.minact.toNat + at_ 14 (boolNat f.waking) + at_ 15 (boolNat f.spare) + at_ 16 f.peer.toNat

/-- DIESTk (R422). -/
def diestWord (d : Die) : Nat := d.state.toNat + at_ 8 d.failStep.toNat + at_ 16 d.blkLeft.toNat + at_ 32 d.gen.toNat

/-- SENSk (R442). -/
def sensWord (d : Die) : Nat := d.temp.toNat + at_ 8 d.thr.toNat + at_ 16 d.trip.toNat + at_ 24 d.power.toNat

/-- Module registers below 0x1000, each at its offset. -/
def moduleWord (s : State) (o : Nat) : Nat :=
  let r := s.regs
  match o with
  | 0x008 => boolNat r.ready + at_ 1 r.phase.toNat + at_ 5 (boolNat r.fail) + at_ 6 r.fstep.toNat + at_ 9 (boolNat r.slot)
  | 0x010 => mcfg s
  | 0x100 => boolNat r.distMode + at_ 8 r.tslice.toNat + at_ 32 r.pretmo.toNat
  | 0x200 => r.quota.toNat + at_ 16 32
  | 0x400 => r.treeMin.toNat + at_ 2 r.llMin.toNat + at_ 4 r.fibMin.toNat + at_ 6 (boolNat r.pin)
  | 0x500 => r.b2asid.toNat + at_ 12 r.vbase.toNat
  | 0x608 => r.podatt.toNat
  | 0x808 => dbgStat s
  | 0x810 => r.dbgAddr.toNat
  | 0x818 => r.dbgData.toNat
  | 0x820 => boolNat r.dbgMaster
  | 0x840 => r.trace.toNat
  | 0x848 => r.trcSize.toNat
  | 0x850 => r.trcHead.toNat
  | 0x858 => r.trcTail.toNat
  | 0x900 => r.evBase.toNat
  | 0x908 => r.evSize.toNat + at_ 5 (boolNat r.evEn) + at_ 6 r.evVec.toNat + at_ 17 (boolNat r.evIrq)
  | 0x910 => r.evHead.toNat + at_ 32 r.evLost.toNat
  | 0x918 => r.evTail.toNat
  | 0xAD0 => r.mpwr.toNat
  | 0xB00 => r.updAddr.toNat
  | 0xB08 => r.updLen.toNat
  | 0xB10 => at_ 1 (boolNat r.updBusy) + at_ 2 r.updResult.toNat
  | _ =>
    if 0x700 ≤ o ∧ o < 0x700 + 8 * 26 then diestWord (s.die ((o - 0x700) / 8))
    else if 0xA00 ≤ o ∧ o < 0xA00 + 8 * 26 then sensWord (s.die ((o - 0xA00) / 8))
    else 0

/-- Pending bits of 64 vectors. -/
def pendingWord (s : State) (n : Nat) : Nat := ((List.range 64).filter (fun i => s.msix.contains (BitVec.ofNat 11 (64 * n + i)))).foldl (fun a i => a + 2 ^ i) 0

/-- The register at an 8-byte offset of BAR0; zero where there is none (R415). -/
def bar0Word (s : State) (o : Nat) : Nat :=
  if o < 0x1000 then moduleWord s o
  else if 0x10000 ≤ o ∧ o < 0x11000 then queueWord (s.lq (BitVec.ofNat 6 ((o - 0x10000) / 64))) (o % 64)
  else if 0x20000 ≤ o ∧ o < 0x21000 then stackWord (s.stack ((o - 0x20000) / 256)) (o % 256)
  else if 0x30000 ≤ o ∧ o < 0x31000 ∧ o % 16 = 0 then fibreWord (s.fibre ((o - 0x30000) / 16))
  else if 0x1000000 ≤ o ∧ o < 0x1008000 then tableWord s o
  else if 0x1008000 ≤ o ∧ o < 0x1008100 then pendingWord s ((o - 0x1008000) / 8)
  else 0

/-- What a write of one half leaves in the other: fields that read as zero and take effect with a bit of the
upper half are held as last written. -/
def heldWord (s : State) (o : Nat) : Nat :=
  if o = 0x300 then s.regs.hostintLow.toNat
  else if o = 0x600 then s.regs.lkrekeyLow.toNat
  else if 0x20000 ≤ o ∧ o < 0x21000 ∧ o % 256 = 0x68 then (s.stack ((o - 0x20000) / 256)).srmretLow.toNat
  else bar0Word s o

/-! ### Writes -/

/-- DISTCFG (R107). -/
def writeDistcfg (s : State) (v : Word) : State :=
  let r := s.regs
  { s with regs := { r with
    distMode := if r.ready then r.distMode else v.getLsbD 0
    tslice := if v.extractLsb' 8 24 = 0 then r.tslice else v.extractLsb' 8 24
    pretmo := if v.extractLsb' 32 16 = 0 then r.pretmo else v.extractLsb' 32 16 } }

/-- AQUOTA (R336): a home keeps the quota of its present interval. -/
def writeQuota (s : State) (v : Word) : State :=
  let n := v.extractLsb' 0 8
  if n = 0 ∨ n = s.regs.quota then s
  else
    { s with
      quotaAt := if s.quotaAt.any (fun p => p.1 == anyHome) then s.quotaAt else s.quotaAt ++ [(anyHome, s.regs.quota)]
      regs := { s.regs with quota := n } }

/-- EVCFG (R444). -/
def writeEvcfg (s : State) (v : Word) : State :=
  let n := v.extractLsb' 0 5
  { s with regs := { s.regs with
    evSize := if 6 ≤ n.toNat ∧ n.toNat ≤ 16 then n else s.regs.evSize
    evEn := v.getLsbD 5, evVec := v.extractLsb' 6 11, evIrq := v.getLsbD 17 } }

/-- SENSk (R442): THR is taken first, under the TRIP before the write. -/
def writeSens (s : State) (k : Nat) (v : Word) : State :=
  let d := s.die k
  let thr := v.extractLsb' 8 8
  let trip := v.extractLsb' 16 8
  s.setDie k { d with thr := if d.trip < thr then d.thr else thr, trip := if 110 < trip.toNat then d.trip else trip }

/-- Launch queue registers. -/
def writeQueue (s : State) (q : BitVec 6) (o : Nat) (v : Word) : State :=
  let r := s.lq q
  match o with
  | 0x00 => s.setLq q { r with base := v.extractLsb' 6 58 }
  | 0x08 => writeLqcfg s q v
  | 0x18 => writeTail s q (v.extractLsb' 0 32)
  | 0x20 => s.setLq q { r with asid := v.extractLsb' 0 12, root := v.extractLsb' 16 36, rclass := v.getLsbD 52 }
  | 0x28 => s.setLq q { r with supv := v.getLsbD 0, tvec := v.extractLsb' 3 53 }
  | 0x30 => s.setLq q { r with save := v.extractLsb' 15 41 }
  | 0x38 => s.setLq q { r with pasid := v.extractLsb' 0 20, pen := v.getLsbD 20, link := v.getLsbD 21 }
  | _ => s

/-- A hash mask includes its slot bit and excludes the others of 7 to 12 (R276). -/
def maskOk (bit : Nat) (v : BitVec 36) : Bool :=
  v.getLsbD bit && ((List.range 6).all (fun i => 7 + i == bit || !v.getLsbD (7 + i)))

/-- A write of a hash mask before READY (R276). -/
def writeMask (s : State) (n o : Nat) (v : BitVec 36) : State :=
  let r := s.stack n
  if s.regs.ready then s
  else if o = 0x18 then (if maskOk 7 v then s.setStack n { r with shmPc := v } else s)
  else
    let k := (o - 0x20) / 8
    if maskOk (8 + k) v then s.setStack n { r with shmCh := r.shmCh.set (k % 5) v (Nat.mod_lt k (by decide)) } else s

/-- Stack registers. -/
def writeStack (s : State) (n o : Nat) (v : Word) : State :=
  let r := s.stack n
  match o with
  | 0x08 => s.setStack n { r with sridle := v.extractLsb' 8 16 }
  | 0x10 => s.setStack n { r with sflist := (clearLow 14 v).setWidth 52, sfTaken := 0 }
  | 0x18 | 0x20 | 0x28 | 0x30 | 0x38 | 0x40 => writeMask s n o (v.setWidth 36)
  | 0x48 => if r.prmBusy then s else s.setStack n { r with prment := (clearLow 3 v).setWidth 52 }
  | 0x50 => if r.prmBusy then s else s.setStack n { r with prmva := (clearLow 21 v).setWidth 56 }
  | 0x58 => if r.prmBusy then s else s.setStack n { r with prmdst := (clearLow 21 v).setWidth 52 }
  | 0x60 => writePrmctl s n v
  | 0x68 => retireRemap n v (s.setStack n { r with srmretLow := v.setWidth 32 })
  | _ => s

/-- FPk: MINACT, unless 3 is written (R413). -/
def writeFibre (s : State) (k : Nat) (v : Word) : State :=
  let m := v.extractLsb' 12 2
  if m = 3 then s else s.setFibre { s.fibre k with minact := m }

/-- Module registers below 0x1000. -/
def writeModule (s : State) (o : Nat) (v : Word) : State :=
  let r := s.regs
  let put (f : Regs) : State := { s with regs := f }
  match o with
  | 0x008 => if v.getLsbD 4 then initMemory s else s
  | 0x100 => writeDistcfg s v
  | 0x200 => writeQuota s v
  | 0x300 => writeHostint s v
  | 0x400 => writeFgov s v
  | 0x500 => put { r with b2asid := v.extractLsb' 0 12, b2vbase := clearLow r.b2size.toNat (v.extractLsb' 12 26) }
  | 0x600 => writeLkrekey s v
  | 0x800 => dbgCommand v s
  | 0x810 => put { r with dbgAddr := v }
  | 0x818 => put { r with dbgData := v }
  | 0x820 => put { r with dbgMaster := v.getLsbD 0 }
  | 0x840 => put { r with trcBase := clearLow r.trcSize.toNat v }
  | 0x848 => if 12 ≤ (v.extractLsb' 0 5).toNat ∧ (v.extractLsb' 0 5).toNat ≤ 30 then traceFlush (put { r with trcSize := v.extractLsb' 0 5 }) else s
  | 0x858 => traceFlush (put { r with trcTail := v })
  | 0x900 => put { r with evBase := (clearLow 6 v).setWidth 52 }
  | 0x908 => writeEvcfg s v
  | 0x918 => put { r with evTail := v.extractLsb' 0 32 }
  | 0xB00 => put { r with updAddr := v }
  | 0xB08 => put { r with updLen := v }
  | 0xB10 => writeUpdctl s v
  | _ => if 0xA00 ≤ o ∧ o < 0xA00 + 8 * 26 ∧ o % 8 = 0 then writeSens s ((o - 0xA00) / 8) v else s

/-- A word of the MSI-X table; of the second, only the mask bit of the upper half is no reserved bit. The message of a
vector that is unmasked leaves, and its pending bit clears. -/
def writeTable (s : State) (o : Nat) (v : Word) : State :=
  let v := if o % 16 = 8 then v &&& 0x1FFFFFFFF else v
  { s with
    msixTable := (o, v) :: s.msixTable.filter (fun e => e.1 != o)
    msix := if o % 16 = 8 && !v.getLsbD 32 then s.msix.filter (fun n => 0x1000008 + 16 * n.toNat != o) else s.msix }

/-- A whole register at an 8-byte offset takes a write under its field rules; where there is none it is ignored. -/
def writeBar0 (s : State) (o : Nat) (v : Word) : State :=
  if o < 0x1000 then writeModule s o v
  else if 0x10000 ≤ o ∧ o < 0x11000 then writeQueue s (BitVec.ofNat 6 ((o - 0x10000) / 64)) (o % 64) v
  else if 0x20000 ≤ o ∧ o < 0x21000 then writeStack s ((o - 0x20000) / 256) (o % 256) v
  else if 0x30000 ≤ o ∧ o < 0x31000 ∧ o % 16 = 0 then writeFibre s ((o - 0x30000) / 16) v
  else if 0x1000000 ≤ o ∧ o < 0x1008000 then writeTable s o v
  else s

/-- A write of 4 or 8 aligned bytes; any other is dropped, and so is one above 0x0FFF after a FAIL (R415). -/
def hostWrite (s : State) (o size : Nat) (v : Word) : State :=
  if s.regs.fail ∧ 0x1000 ≤ o then s
  else if size = 8 ∧ o % 8 = 0 then writeBar0 s o v
  else if size = 4 ∧ o % 4 = 0 then
    let b := o / 8 * 8
    let old : Word := BitVec.ofNat 64 (heldWord s b)
    let half := v.extractLsb' 0 32
    writeBar0 s b (if o % 8 = 0 then old.extractLsb' 32 32 ++ half else half ++ old.extractLsb' 0 32)
  else s

/-- A read of 4 or 8 aligned bytes answers with them, any other with Completer Abort; after a FAIL one above 0x0FFF answers
Unsupported Request (R415). -/
def hostLoad (s : State) (o size : Nat) : State :=
  let reply (r : HostReply) : State := { s with hostReply := some r }
  if s.regs.fail ∧ 0x1000 ≤ o then reply .unsupportedRequest
  else if (size = 8 ∨ size = 4) ∧ o % size = 0 then reply (.value (((wordBytes 8 (bar0Word s (o / 8 * 8))).drop (o % 8)).take size))
  else reply .completerAbort

def execRegisterWrite (off : BitVec 25) (size : BitVec 4) (v : Option Word) (s : State) : Out :=
  .next (match v with
    | some v => hostWrite s off.toNat size.toNat v
    | none => hostLoad s off.toNat size.toNat)

/-! ### BAR2 (R416) -/

/-- The host as it appears to the page tables: the space of BAR2CFG, with the root of the lowest launch queue whose
LQPT names it and the maps of a live stream in it (DESIGN CHOICE, log entry 17). -/
def hostFront (s : State) : Front :=
  let root := s.lqueues.toList.find? (fun r => r.asid == s.regs.b2asid)
  let f := (s.streams.find? (fun f => f.status != .idle && f.asid == s.regs.b2asid)).getD Front.idle
  { Front.idle with
    csr := { Csrs.reset with mode := true }
    asid := s.regs.b2asid, root := (root.map (·.root)).getD 0, rclass := (root.map (·.rclass)).getD false
    domBase := f.domBase, domLog := f.domLog, maps := f.maps }

/-- Runs a host access with the host in place of a stream. -/
def asHost {α : Type} (m : M α) (s : State) : Except Stop α × State :=
  let (r, t) := M.exec m { s with front := hostFront s }
  (r, { t with front := s.front })

/-- A key lies on no die that is held in reset (R20, R421, R426). -/
def reachable (s : State) (k : Key) : Bool :=
  match keyDie k with
  | some d => !dieHeld s d
  | none => true

/-- Place and key of each byte. No answer comes from a die that is held in reset: the access fails (log entry 78). -/
def hostKeys (va n : Nat) (p : Perm) : M (List (Place × Key)) :=
  (List.range n).mapM (fun i => do
    let s ← get
    let pl ← xlate hostAgent (va + i) p 0
    let ks ← keysM pl (va + i) 1 0
    need (reachable s pl.leafAt && reachable s (ks.headD 0)) (mkTrap causeDataError 0 0 (va + i))
    pure (pl, ks.headD 0))

def hostReadM (va n : Nat) : M (List Byte) := do
  let ks := (← hostKeys va n .read).map (·.2)
  let s ← get
  need (!unreadable s ks) (mkTrap causeDataError 0 0 va)
  modify (fun s => s.touch ks)
  pure (s.mem.gets ks)

def hostWriteM (va : Nat) (bs : List Byte) : M Unit := do
  let ks := (← hostKeys va bs.length .write).map (·.2)
  modify (fun s => s.put (ks.zip bs))

/-- The page of a host AtomicOp: bank or stack memory (R349). -/
def hostAtomOk (pl : Place) : Bool := pteCls pl.leaf == .bm || pteCls pl.leaf == .sm

/-- What a host AtomicOp to a page with SYSA = 0 stops with (R349). -/
def hostUnsupported (va : Nat) : TrapInfo := mkTrap causePlacement 1 0 va

def hostAtomM (op : AtomOp) (va n : Nat) (d e : Word) : M (List Byte) := do
  let pks ← hostKeys va n .both
  let ks := pks.map (·.2)
  let s ← get
  need (pks.all (fun p => pteSysa p.1.leaf)) (hostUnsupported va)
  need (va % n == 0 && pks.all (fun p => hostAtomOk p.1)) (mkTrap causePlacement 0 0 va)
  need (!unreadable s ks) (mkTrap causeDataError 0 0 va)
  let old := bytesNat (s.mem.gets ks)
  modify (fun s => s.put (ks.zip (wordBytes n (op.new (8 * n) old (lowN (8 * n) d) (lowN (8 * n) e)))))
  pure (wordBytes n old)

/-- A reply reaches the host: Unsupported Request for an AtomicOp to a page with SYSA = 0 (R349), Completer Abort for
any other access that fails (R416). The accessed and dirty bits that its walk has set stay set (R302). -/
def hostReplied (r : Except Stop (List Byte) × State) : State :=
  match r with
  | (.ok bs, t) => { t with hostReply := some (.value bs) }
  | (.error (.trap x), t) => { t with hostReply := some (if x = hostUnsupported x.addr.toNat then .unsupportedRequest else .completerAbort) }
  | (.error _, t) => { t with hostReply := some .completerAbort }

/-- Bytes of BAR2 (R415). -/
def bar2Bytes (s : State) : Nat := 2 ^ (30 + s.regs.b2size.toNat)

/-- The host gives BAR2 another size, of 1 GiB to 1 TiB (R415). -/
def resizeBar2 (s : State) (k : BitVec 4) : State := if k.toNat ≤ 10 then { s with regs := { s.regs with b2size := k } } else s

/-- A failed write is dropped and logged. -/
def hostWritten (va : Nat) (r : Except Stop Unit × State) : State :=
  match r with
  | (.ok _, t) => t
  | (.error _, t) => t.event 6 (activeHub t) [va / 32 * 32, 0]

/-- A host access at an offset of BAR2, none beyond its size. After a FAIL it is answered as an Unsupported Request, or
dropped (R438). -/
def bar2 (s : State) (o : Nat) (op : Bar2Op) (wide : Bool) (d e : Word) : State :=
  let va := s.regs.vbase.toNat * 2 ^ 30 + o
  let within (n : Nat) (t : State) : State := if o + n ≤ bar2Bytes s then t else s
  let answered (n : Nat) (m : M (List Byte)) : State :=
    within n (if s.regs.fail then { s with hostReply := some .unsupportedRequest } else hostReplied (asHost m s))
  let width : Nat := if wide then 8 else 4
  match op with
  | .read n => answered n.toNat (hostReadM va n.toNat)
  | .write bs => within bs.length (if s.regs.fail then s else hostWritten va (asHost (hostWriteM va bs) s))
  | .fetchAdd => answered width (hostAtomM .add va width d 0)
  | .swap => answered width (hostAtomM .swap va width d 0)
  | .cas => answered width (hostAtomM .cas va width d e)
  | .resize k => resizeBar2 s k

def execBar2Access (o : BitVec 40) (op : Bar2Op) (wide : Bool) (d e : Word) (s : State) : Out :=
  .next (bar2 s o.toNat op wide d e)

/-! ### Completions of host memory (R417) -/

/-- A completion reaches the access that waits for it: it may be performed, or it has failed. -/
def complete (k : Nat) (err : Bool) (s : State) : State :=
  match s.front.accesses[k]? with
  | none => s
  | some a =>
    if hostRead a && a.done.isNone && !a.acked then
      { s with front := { s.front with accesses := s.front.accesses.set k (if err then { a with acked := true } else { a with done := some 0 }) } }
    else s

/-- From now on reads of an aligned word of host memory complete with an error, or without (R417): whoever reads it, as
DATA_ERROR. -/
def markHost (s : State) (a : BitVec 52) (err : Bool) : State :=
  let w := hmKey a.toNat / 8
  { s with poison := if err then (if s.poison.contains w then s.poison else s.poison ++ [w]) else s.poison.filter (· != w) }

def execHostMemoryCompletion (sid : BitVec 16) (r : HostRead) (err : Bool) (s : State) : Out :=
  .next (match r with
    | .access k => s.onStream sid (complete k.toNat err)
    | .word a => markHost s a err)

end Sys2Proof.Machine
end

