-- ==== Sys2Proof/Machine/Vector.lean ====
section
/-! DEFINITION. Broadcast instructions at the front: vector instructions (spec/09_vector.md), `lanex`, matrix
instructions (spec/12_matrix.md), accumulates and element atomics (spec/17_accumulate.md), and branches on
bank conditions (spec/07_windows.md). What each does at its owners is its entry of `Bcasts`. -/

namespace Sys2Proof.Machine

def execVadd (v : VArgs) (s : State) : Out := broadcast (.vadd v) (infoVadd v) s
def execVsub (v : VArgs) (s : State) : Out := broadcast (.vsub v) (infoVsub v) s
def execVmul (v : VArgs) (s : State) : Out := broadcast (.vmul v) (infoVmul v) s
def execVfma (v : VArgs) (s : State) : Out := broadcast (.vfma v) (infoVfma v) s
def execVfms (v : VArgs) (s : State) : Out := broadcast (.vfms v) (infoVfms v) s
def execVfnma (v : VArgs) (s : State) : Out := broadcast (.vfnma v) (infoVfnma v) s
def execVmin (v : VArgs) (s : State) : Out := broadcast (.vmin v) (infoVmin v) s
def execVmax (v : VArgs) (s : State) : Out := broadcast (.vmax v) (infoVmax v) s
def execVabs (v : VArgs) (s : State) : Out := broadcast (.vabs v) (infoVabs v) s
def execVneg (v : VArgs) (s : State) : Out := broadcast (.vneg v) (infoVneg v) s
def execVrcp (v : VArgs) (s : State) : Out := broadcast (.vrcp v) (infoVrcp v) s
def execVrsq (v : VArgs) (s : State) : Out := broadcast (.vrsq v) (infoVrsq v) s
def execVexp2 (v : VArgs) (s : State) : Out := broadcast (.vexp2 v) (infoVexp2 v) s
def execVlog2 (v : VArgs) (s : State) : Out := broadcast (.vlog2 v) (infoVlog2 v) s
def execVand (v : VArgs) (s : State) : Out := broadcast (.vand v) (infoVand v) s
def execVor (v : VArgs) (s : State) : Out := broadcast (.vor v) (infoVor v) s
def execVxor (v : VArgs) (s : State) : Out := broadcast (.vxor v) (infoVxor v) s
def execVnot (v : VArgs) (s : State) : Out := broadcast (.vnot v) (infoVnot v) s
def execVsll (v : VArgs) (s : State) : Out := broadcast (.vsll v) (infoVsll v) s
def execVsrl (v : VArgs) (s : State) : Out := broadcast (.vsrl v) (infoVsrl v) s
def execVsra (v : VArgs) (s : State) : Out := broadcast (.vsra v) (infoVsra v) s
def execVceq (v : VArgs) (s : State) : Out := broadcast (.vceq v) (infoVceq v) s
def execVcne (v : VArgs) (s : State) : Out := broadcast (.vcne v) (infoVcne v) s
def execVclt (v : VArgs) (s : State) : Out := broadcast (.vclt v) (infoVclt v) s
def execVcle (v : VArgs) (s : State) : Out := broadcast (.vcle v) (infoVcle v) s
def execVsel (v : VArgs) (s : State) : Out := broadcast (.vsel v) (infoVsel v) s
def execVmov (v : VArgs) (s : State) : Out := broadcast (.vmov v) (infoVmov v) s
def execVfill (v : VArgs) (s : State) : Out := broadcast (.vfill v) (infoVfill v) s
def execViota (v : VArgs) (s : State) : Out := broadcast (.viota v) (infoViota v) s
def execVredAdd (v : VArgs) (s : State) : Out := broadcast (.vredAdd v) (infoVredAdd v) s
def execVredMax (v : VArgs) (s : State) : Out := broadcast (.vredMax v) (infoVredMax v) s
def execVredMin (v : VArgs) (s : State) : Out := broadcast (.vredMin v) (infoVredMin v) s
def execVscanAdd (v : VArgs) (s : State) : Out := broadcast (.vscanAdd v) (infoVscanAdd v) s
def execVscanMax (v : VArgs) (s : State) : Out := broadcast (.vscanMax v) (infoVscanMax v) s
def execVscanMin (v : VArgs) (s : State) : Out := broadcast (.vscanMin v) (infoVscanMin v) s
def execVgather (v : VArgs) (s : State) : Out := broadcast (.vgather v) (infoVgather v) s
def execVscatter (v : VArgs) (s : State) : Out := broadcast (.vscatter v) (infoVscatter v) s
def execVcompact (v : VArgs) (s : State) : Out := broadcast (.vcompact v) (infoVcompact v) s
def execVexpand (v : VArgs) (s : State) : Out := broadcast (.vexpand v) (infoVexpand v) s
def execLanex (v : VArgs) (s : State) : Out := broadcast (.lanex v) (infoLanex v) s
def execVcvt (sfmt : Fmt) (v : VArgs) (s : State) : Out := broadcast (.vcvt sfmt v) (infoVcvt sfmt v) s

def execMload (fmt : Fmt) (wb : WReg) (pair : Bool) (kb : BitVec 16) (s : State) : Out :=
  broadcast (.mload fmt wb pair kb) (infoMload fmt wb pair kb) s
def execMswap (pair : Bool) (s : State) : Out := broadcast (.mswap pair) (infoMswap pair) s
def execMma (m : MArgs) (s : State) : Out := broadcast (.mma m) (infoMma m) s
def execMrecast (pair shadow : Bool) (s : State) : Out := broadcast (.mrecast pair shadow) (infoMrecast pair shadow) s
def execMinval (pair shadow : Bool) (s : State) : Out := broadcast (.minval pair shadow) (infoMinval pair shadow) s

def execVacc (v : VArgs) (s : State) : Out := broadcast (.vacc v) (infoVacc v) s
def execVamoAdd (v : VArgs) (ord : MemOrder) (sc : Scope) (s : State) : Out :=
  broadcast (.vamoAdd v ord sc) (infoVamoAdd v ord sc) s
def execVamoAnd (v : VArgs) (ord : MemOrder) (sc : Scope) (s : State) : Out :=
  broadcast (.vamoAnd v ord sc) (infoVamoAnd v ord sc) s
def execVamoOr (v : VArgs) (ord : MemOrder) (sc : Scope) (s : State) : Out :=
  broadcast (.vamoOr v ord sc) (infoVamoOr v ord sc) s
def execVamoXor (v : VArgs) (ord : MemOrder) (sc : Scope) (s : State) : Out :=
  broadcast (.vamoXor v ord sc) (infoVamoXor v ord sc) s
def execVamoMin (v : VArgs) (ord : MemOrder) (sc : Scope) (s : State) : Out :=
  broadcast (.vamoMin v ord sc) (infoVamoMin v ord sc) s
def execVamoMax (v : VArgs) (ord : MemOrder) (sc : Scope) (s : State) : Out :=
  broadcast (.vamoMax v ord sc) (infoVamoMax v ord sc) s
def execVamoMinn (v : VArgs) (ord : MemOrder) (sc : Scope) (s : State) : Out :=
  broadcast (.vamoMinn v ord sc) (infoVamoMinn v ord sc) s
def execVamoMaxn (v : VArgs) (ord : MemOrder) (sc : Scope) (s : State) : Out :=
  broadcast (.vamoMaxn v ord sc) (infoVamoMaxn v ord sc) s
def execVamoSwap (v : VArgs) (ord : MemOrder) (sc : Scope) (s : State) : Out :=
  broadcast (.vamoSwap v ord sc) (infoVamoSwap v ord sc) s
def execAdecl (wa : WReg) (s : State) : Out := broadcast (.adecl wa) (infoAdecl wa) s
def execAmerge (wa : WReg) (s : State) : Out := broadcast (.amerge wa) (infoAmerge wa) s

/-- `rflush` (R348): waits for the floor, then delivers the residuals of the scope's memory. -/
def execRflush (sc : Scope) (s : State) : Out :=
  frontM (do
    let s ← get
    waitFor (floorMet s && loadsOut s.front == 0)
    modify (fun s => (deliverResiduals s (scopeMem s.front sc [])).done)) s

def execBany (wa : WReg) (off : BitVec 32) (s : State) : Out := condBranch (.bany wa off) (infoBany wa) off s
def execBall (wa : WReg) (off : BitVec 32) (s : State) : Out := condBranch (.ball wa off) (infoBall wa) off s
def execBnone (wa : WReg) (off : BitVec 32) (s : State) : Out := condBranch (.bnone wa off) (infoBnone wa) off s

end Sys2Proof.Machine
end

