-- ==== Sys2Proof/Machine/Dispatch.lean ====
section
/-! DEFINITION. One arm per instruction: each is a direct call of its meaning. -/

namespace Sys2Proof.Machine

def exec (i : Instr) (s : State) : Host.Outcome State Fault Refusal :=
  match i with
  | .add w sd sa b => Sys2Proof.Machine.execAdd w sd sa b s
  | .sub_ w sd sa b => Sys2Proof.Machine.execSub w sd sa b s
  | .mul w sd sa b => Sys2Proof.Machine.execMul w sd sa b s
  | .mulh w sd sa b => Sys2Proof.Machine.execMulh w sd sa b s
  | .mulhn w sd sa b => Sys2Proof.Machine.execMulhn w sd sa b s
  | .div w sd sa b => Sys2Proof.Machine.execDiv w sd sa b s
  | .divn w sd sa b => Sys2Proof.Machine.execDivn w sd sa b s
  | .rem w sd sa b => Sys2Proof.Machine.execRem w sd sa b s
  | .remn w sd sa b => Sys2Proof.Machine.execRemn w sd sa b s
  | .and_ w sd sa b => Sys2Proof.Machine.execAnd w sd sa b s
  | .or_ w sd sa b => Sys2Proof.Machine.execOr w sd sa b s
  | .xor_ w sd sa b => Sys2Proof.Machine.execXor w sd sa b s
  | .andn w sd sa b => Sys2Proof.Machine.execAndn w sd sa b s
  | .sll w sd sa b => Sys2Proof.Machine.execSll w sd sa b s
  | .srl w sd sa b => Sys2Proof.Machine.execSrl w sd sa b s
  | .sra w sd sa b => Sys2Proof.Machine.execSra w sd sa b s
  | .slt w sd sa b => Sys2Proof.Machine.execSlt w sd sa b s
  | .sltn w sd sa b => Sys2Proof.Machine.execSltn w sd sa b s
  | .min_ w sd sa b => Sys2Proof.Machine.execMin w sd sa b s
  | .max_ w sd sa b => Sys2Proof.Machine.execMax w sd sa b s
  | .minn w sd sa b => Sys2Proof.Machine.execMinn w sd sa b s
  | .maxn w sd sa b => Sys2Proof.Machine.execMaxn w sd sa b s
  | .clz w sd sa => Sys2Proof.Machine.execClz w sd sa s
  | .ctz w sd sa => Sys2Proof.Machine.execCtz w sd sa s
  | .popc w sd sa => Sys2Proof.Machine.execPopc w sd sa s
  | .sext w sd sa => Sys2Proof.Machine.execSext w sd sa s
  | .zext w sd sa => Sys2Proof.Machine.execZext w sd sa s
  | .ldk sd k => Sys2Proof.Machine.execLdk sd k s
  | .ld sg ord sc w sd sa off => Sys2Proof.Machine.execLd sg ord sc w sd sa off s
  | .st ord sc w sb sa off => Sys2Proof.Machine.execSt ord sc w sb sa off s
  | .scas a => Sys2Proof.Machine.execScas a s
  | .samoAdd a => Sys2Proof.Machine.execSamoAdd a s
  | .vamoAdd v ord sc => Sys2Proof.Machine.execVamoAdd v ord sc s
  | .samoAnd a => Sys2Proof.Machine.execSamoAnd a s
  | .vamoAnd v ord sc => Sys2Proof.Machine.execVamoAnd v ord sc s
  | .samoOr a => Sys2Proof.Machine.execSamoOr a s
  | .vamoOr v ord sc => Sys2Proof.Machine.execVamoOr v ord sc s
  | .samoXor a => Sys2Proof.Machine.execSamoXor a s
  | .vamoXor v ord sc => Sys2Proof.Machine.execVamoXor v ord sc s
  | .samoMin a => Sys2Proof.Machine.execSamoMin a s
  | .vamoMin v ord sc => Sys2Proof.Machine.execVamoMin v ord sc s
  | .samoMax a => Sys2Proof.Machine.execSamoMax a s
  | .vamoMax v ord sc => Sys2Proof.Machine.execVamoMax v ord sc s
  | .samoMinn a => Sys2Proof.Machine.execSamoMinn a s
  | .vamoMinn v ord sc => Sys2Proof.Machine.execVamoMinn v ord sc s
  | .samoMaxn a => Sys2Proof.Machine.execSamoMaxn a s
  | .vamoMaxn v ord sc => Sys2Proof.Machine.execVamoMaxn v ord sc s
  | .samoSwap a => Sys2Proof.Machine.execSamoSwap a s
  | .vamoSwap v ord sc => Sys2Proof.Machine.execVamoSwap v ord sc s
  | .beq sa sb off => Sys2Proof.Machine.execBeq sa sb off s
  | .bne sa sb off => Sys2Proof.Machine.execBne sa sb off s
  | .blt sa sb off => Sys2Proof.Machine.execBlt sa sb off s
  | .bge sa sb off => Sys2Proof.Machine.execBge sa sb off s
  | .bltn sa sb off => Sys2Proof.Machine.execBltn sa sb off s
  | .bgen sa sb off => Sys2Proof.Machine.execBgen sa sb off s
  | .jal sd off => Sys2Proof.Machine.execJal sd off s
  | .jalr sd sa imm => Sys2Proof.Machine.execJalr sd sa imm s
  | .wait imm => Sys2Proof.Machine.execWait imm s
  | .halt => Sys2Proof.Machine.execHalt s
  | .nop => Sys2Proof.Machine.execNop s
  | .csrr sd csr => Sys2Proof.Machine.execCsrr sd csr s
  | .csrw sd sa csr => Sys2Proof.Machine.execCsrw sd sa csr s
  | .csrs sd sa csr => Sys2Proof.Machine.execCsrs sd sa csr s
  | .csrc sd sa csr => Sys2Proof.Machine.execCsrc sd sa csr s
  | .wset wd sa sb => Sys2Proof.Machine.execWset wd sa sb s
  | .wget sd wa hi => Sys2Proof.Machine.execWget sd wa hi s
  | .wcpy wd wa => Sys2Proof.Machine.execWcpy wd wa s
  | .setvl sd sa fmt blk => Sys2Proof.Machine.execSetvl sd sa fmt blk s
  | .strip sa sb off => Sys2Proof.Machine.execStrip sa sb off s
  | .bany wa off => Sys2Proof.Machine.execBany wa off s
  | .ball wa off => Sys2Proof.Machine.execBall wa off s
  | .bnone wa off => Sys2Proof.Machine.execBnone wa off s
  | .ownq sd sa map => Sys2Proof.Machine.execOwnq sd sa map s
  | .lanex v => Sys2Proof.Machine.execLanex v s
  | .vadd v => Sys2Proof.Machine.execVadd v s
  | .vsub v => Sys2Proof.Machine.execVsub v s
  | .vmul v => Sys2Proof.Machine.execVmul v s
  | .vfma v => Sys2Proof.Machine.execVfma v s
  | .vfms v => Sys2Proof.Machine.execVfms v s
  | .vfnma v => Sys2Proof.Machine.execVfnma v s
  | .vmin v => Sys2Proof.Machine.execVmin v s
  | .vmax v => Sys2Proof.Machine.execVmax v s
  | .vabs v => Sys2Proof.Machine.execVabs v s
  | .vneg v => Sys2Proof.Machine.execVneg v s
  | .vrcp v => Sys2Proof.Machine.execVrcp v s
  | .vrsq v => Sys2Proof.Machine.execVrsq v s
  | .vexp2 v => Sys2Proof.Machine.execVexp2 v s
  | .vlog2 v => Sys2Proof.Machine.execVlog2 v s
  | .vand v => Sys2Proof.Machine.execVand v s
  | .vor v => Sys2Proof.Machine.execVor v s
  | .vxor v => Sys2Proof.Machine.execVxor v s
  | .vnot v => Sys2Proof.Machine.execVnot v s
  | .vsll v => Sys2Proof.Machine.execVsll v s
  | .vsrl v => Sys2Proof.Machine.execVsrl v s
  | .vsra v => Sys2Proof.Machine.execVsra v s
  | .vceq v => Sys2Proof.Machine.execVceq v s
  | .vcne v => Sys2Proof.Machine.execVcne v s
  | .vclt v => Sys2Proof.Machine.execVclt v s
  | .vcle v => Sys2Proof.Machine.execVcle v s
  | .vsel v => Sys2Proof.Machine.execVsel v s
  | .vmov v => Sys2Proof.Machine.execVmov v s
  | .vfill v => Sys2Proof.Machine.execVfill v s
  | .viota v => Sys2Proof.Machine.execViota v s
  | .vredAdd v => Sys2Proof.Machine.execVredAdd v s
  | .vredMax v => Sys2Proof.Machine.execVredMax v s
  | .vredMin v => Sys2Proof.Machine.execVredMin v s
  | .vscanAdd v => Sys2Proof.Machine.execVscanAdd v s
  | .vscanMax v => Sys2Proof.Machine.execVscanMax v s
  | .vscanMin v => Sys2Proof.Machine.execVscanMin v s
  | .vgather v => Sys2Proof.Machine.execVgather v s
  | .vscatter v => Sys2Proof.Machine.execVscatter v s
  | .vcompact v => Sys2Proof.Machine.execVcompact v s
  | .vexpand v => Sys2Proof.Machine.execVexpand v s
  | .vacc v => Sys2Proof.Machine.execVacc v s
  | .vcvt sfmt v => Sys2Proof.Machine.execVcvt sfmt v s
  | .mload fmt wb pair kb => Sys2Proof.Machine.execMload fmt wb pair kb s
  | .mswap pair => Sys2Proof.Machine.execMswap pair s
  | .mma m => Sys2Proof.Machine.execMma m s
  | .mrecast pair shadow => Sys2Proof.Machine.execMrecast pair shadow s
  | .minval pair shadow => Sys2Proof.Machine.execMinval pair shadow s
  | .adecl wa => Sys2Proof.Machine.execAdecl wa s
  | .amerge wa => Sys2Proof.Machine.execAmerge wa s
  | .rflush sc => Sys2Proof.Machine.execRflush sc s
  | .cpy c => Sys2Proof.Machine.execCpy c s
  | .cpyt c => Sys2Proof.Machine.execCpyt c s
  | .cpyg c => Sys2Proof.Machine.execCpyg c s
  | .cpys c => Sys2Proof.Machine.execCpys c s
  | .cpyf c => Sys2Proof.Machine.execCpyf c s
  | .cpym c => Sys2Proof.Machine.execCpym c s
  | .sprog c => Sys2Proof.Machine.execSprog c s
  | .srun c => Sys2Proof.Machine.execSrun c s
  | .chase c => Sys2Proof.Machine.execChase c s
  | .fence sc => Sys2Proof.Machine.execFence sc s
  | .srel sd sa sc imm => Sys2Proof.Machine.execSrel sd sa sc imm s
  | .sacq sd sa sb sc => Sys2Proof.Machine.execSacq sd sa sb sc s
  | .gjoin sd sa imm => Sys2Proof.Machine.execGjoin sd sa imm s
  | .gleave sd sa imm => Sys2Proof.Machine.execGleave sd sa imm s
  | .gbar sd sa sc imm => Sys2Proof.Machine.execGbar sd sa sc imm s
  | .qpush sd sa sb sc => Sys2Proof.Machine.execQpush sd sa sb sc s
  | .qpop sd sa sb sc => Sys2Proof.Machine.execQpop sd sa sb sc s
  | .qdrainWait sd sa sc => Sys2Proof.Machine.execQdrainWait sd sa sc s
  | .qdrainDiscard sd sa sc => Sys2Proof.Machine.execQdrainDiscard sd sa sc s
  | .trap imm => Sys2Proof.Machine.execTrap imm s
  | .eret rq => Sys2Proof.Machine.execEret rq s
  | .wfeWait sd sa => Sys2Proof.Machine.execWfeWait sd sa s
  | .wfeYield sd sa => Sys2Proof.Machine.execWfeYield sd sa s
  | .wsave sd sa sb => Sys2Proof.Machine.execWsave sd sa sb s
  | .wrest sd sa sb => Sys2Proof.Machine.execWrest sd sa sb s
  | .isave sd sa => Sys2Proof.Machine.execIsave sd sa s
  | .irest sd sa => Sys2Proof.Machine.execIrest sd sa s
  | .tlbinv sd sa sb sc => Sys2Proof.Machine.execTlbinv sd sa sb sc s
  | .tlbprb sd sa => Sys2Proof.Machine.execTlbprb sd sa s
  | .pmig sd sa sb sc => Sys2Proof.Machine.execPmig sd sa sb sc s
  | .logctlStatus sd sa => Sys2Proof.Machine.execLogctlStatus sd sa s
  | .logctlPolicy sd sa => Sys2Proof.Machine.execLogctlPolicy sd sa s
  | .logctlBudget sd sa => Sys2Proof.Machine.execLogctlBudget sd sa s
  | .logmark sd sa imm => Sys2Proof.Machine.execLogmark sd sa imm s
  | .logsync sd => Sys2Proof.Machine.execLogsync sd s
  | .lqtailWrite q v => Sys2Proof.Machine.execLqtailWrite q v s
  | .lqcfgWrite q v => Sys2Proof.Machine.execLqcfgWrite q v s
  | .launchRecord q => Sys2Proof.Machine.execLaunchRecord q s
  | .placeLaunch q => Sys2Proof.Machine.execPlaceLaunch q s
  | .terminateLaunch target => Sys2Proof.Machine.execTerminateLaunch target s
  | .pretmoExpiry sid => Sys2Proof.Machine.execPretmoExpiry sid s
  | .timeSlice => Sys2Proof.Machine.execTimeSlice s
  | .streamResume sid => Sys2Proof.Machine.execStreamResume sid s
  | .bankBeginBroadcast sid own => Sys2Proof.Machine.execBankBeginBroadcast sid own s
  | .bankRetire sid own => Sys2Proof.Machine.execBankRetire sid own s
  | .floorDelivery sid => Sys2Proof.Machine.execFloorDelivery sid s
  | .treeResultReturn sid => Sys2Proof.Machine.execTreeResultReturn sid s
  | .pullRequest sid k => Sys2Proof.Machine.execPullRequest sid k s
  | .pullReply sid k => Sys2Proof.Machine.execPullReply sid k s
  | .pullResend sid k => Sys2Proof.Machine.execPullResend sid k s
  | .scalarAccess sid k => Sys2Proof.Machine.execScalarAccess sid k s
  | .scalarReply sid k => Sys2Proof.Machine.execScalarReply sid k s
  | .subbankDrowsy bank sub => Sys2Proof.Machine.execSubbankDrowsy bank sub s
  | .preciseStop sid => Sys2Proof.Machine.execPreciseStop sid s
  | .interruptTaken sid => Sys2Proof.Machine.execInterruptTaken sid s
  | .hostint v => Sys2Proof.Machine.execHostint v s
  | .dieReset die => Sys2Proof.Machine.execDieReset die s
  | .copySector sid slot => Sys2Proof.Machine.execCopySector sid slot s
  | .copyWritePerform sid slot => Sys2Proof.Machine.execCopyWritePerform sid slot s
  | .followOnAction sid slot => Sys2Proof.Machine.execFollowOnAction sid slot s
  | .actionReserve sid slot => Sys2Proof.Machine.execActionReserve sid slot s
  | .tokenWrite sid slot => Sys2Proof.Machine.execTokenWrite sid slot s
  | .srunStart sid slot pc => Sys2Proof.Machine.execSrunStart sid slot pc s
  | .srunEnd sid slot pc => Sys2Proof.Machine.execSrunEnd sid slot pc s
  | .chaseHop sid slot => Sys2Proof.Machine.execChaseHop sid slot s
  | .accumMessage k => Sys2Proof.Machine.execAccumMessage k s
  | .accumAnswer k => Sys2Proof.Machine.execAccumAnswer k s
  | .residualIdleExpiry bank k => Sys2Proof.Machine.execResidualIdleExpiry bank k s
  | .quotaInterval home => Sys2Proof.Machine.execQuotaInterval home s
  | .hintActivate pc => Sys2Proof.Machine.execHintActivate pc s
  | .hintRowClose pc bank => Sys2Proof.Machine.execHintRowClose pc bank s
  | .refreshDue pc bank busy => Sys2Proof.Machine.execRefreshDue pc bank busy s
  | .selfRefreshEntry pc request => Sys2Proof.Machine.execSelfRefreshEntry pc request s
  | .selfRefreshExit pc => Sys2Proof.Machine.execSelfRefreshExit pc s
  | .layerFailure stack layer => Sys2Proof.Machine.execLayerFailure stack layer s
  | .srmret stack v => Sys2Proof.Machine.execSrmret stack v s
  | .pageWalk sid agent va wr => Sys2Proof.Machine.execPageWalk sid agent va wr s
  | .shootdownReceive agent asid va len => Sys2Proof.Machine.execShootdownReceive agent asid va len s
  | .prmctlGo stack v => Sys2Proof.Machine.execPrmctlGo stack v s
  | .promotionDone stack => Sys2Proof.Machine.execPromotionDone stack s
  | .logRecord ctx => Sys2Proof.Machine.execLogRecord ctx s
  | .logTailPoll ctx => Sys2Proof.Machine.execLogTailPoll ctx s
  | .replayConsume ctx => Sys2Proof.Machine.execReplayConsume ctx s
  | .replayHeadPoll ctx => Sys2Proof.Machine.execReplayHeadPoll ctx s
  | .replayBudgetExpiry sid => Sys2Proof.Machine.execReplayBudgetExpiry sid s
  | .flitReceive dir route fields payload tag => Sys2Proof.Machine.execFlitReceive dir route fields payload tag s
  | .flitResend dir lane => Sys2Proof.Machine.execFlitResend dir lane s
  | .tokenPass ch ep replies requests => Sys2Proof.Machine.execTokenPass ch ep replies requests s
  | .governorLevel region up => Sys2Proof.Machine.execGovernorLevel region up s
  | .emptyFlit k f => Sys2Proof.Machine.execEmptyFlit k f s
  | .fibrePark k => Sys2Proof.Machine.execFibrePark k s
  | .fibreWake k => Sys2Proof.Machine.execFibreWake k s
  | .wakeLock k locked => Sys2Proof.Machine.execWakeLock k locked s
  | .bar2Access o op wide d e => Sys2Proof.Machine.execBar2Access o op wide d e s
  | .hostMemoryCompletion sid r err => Sys2Proof.Machine.execHostMemoryCompletion sid r err s
  | .attestation die offer proof => Sys2Proof.Machine.execAttestation die offer proof s
  | .attestTimeout die failStep => Sys2Proof.Machine.execAttestTimeout die failStep s
  | .keyRollover dir => Sys2Proof.Machine.execKeyRollover dir s
  | .keyErase dir => Sys2Proof.Machine.execKeyErase dir s
  | .lkrekey v => Sys2Proof.Machine.execLkrekey v s
  | .peerAttestation p pass => Sys2Proof.Machine.execPeerAttestation p pass s
  | .debugHalt sid => Sys2Proof.Machine.execDebugHalt sid s
  | .debugResume sid => Sys2Proof.Machine.execDebugResume sid s
  | .debugStep sid => Sys2Proof.Machine.execDebugStep sid s
  | .debugReadRegister sid => Sys2Proof.Machine.execDebugReadRegister sid s
  | .debugWriteRegister sid => Sys2Proof.Machine.execDebugWriteRegister sid s
  | .debugReadMemory sid => Sys2Proof.Machine.execDebugReadMemory sid s
  | .debugWriteMemory sid => Sys2Proof.Machine.execDebugWriteMemory sid s
  | .debugForward m => Sys2Proof.Machine.execDebugForward m s
  | .debugPeerTimeout p => Sys2Proof.Machine.execDebugPeerTimeout p s
  | .traceRecord r0 r1 r2 r3 => Sys2Proof.Machine.execTraceRecord r0 r1 r2 r3 s
  | .stallReport sid own cpc ppc parked refused => Sys2Proof.Machine.execStallReport sid own cpc ppc parked refused s
  | .bringUp powerOk bootOk imgs cal => Sys2Proof.Machine.execBringUp powerOk bootOk imgs cal s
  | .memgo => Sys2Proof.Machine.execMemgo s
  | .memgoTimeout => Sys2Proof.Machine.execMemgoTimeout s
  | .unitRepair seq unit => Sys2Proof.Machine.execUnitRepair seq unit s
  | .spareRepair fibre unit => Sys2Proof.Machine.execSpareRepair fibre unit s
  | .hubFailover => Sys2Proof.Machine.execHubFailover s
  | .throttle die temp watts => Sys2Proof.Machine.execThrottle die temp watts s
  | .trip die temp watts => Sys2Proof.Machine.execTrip die temp watts s
  | .updctlGo v => Sys2Proof.Machine.execUpdctlGo v s
  | .registerWrite off size v => Sys2Proof.Machine.execRegisterWrite off size v s
  | .powerLoss whole die => Sys2Proof.Machine.execPowerLoss whole die s
  | .peerReset p => Sys2Proof.Machine.execPeerReset p s
  | .debugPeerReply p res halted d => Sys2Proof.Machine.execDebugPeerReply p res halted d s
  | .imageStaged readErr sigOk img => Sys2Proof.Machine.execImageStaged readErr sigOk img s

end Sys2Proof.Machine
end

