-- ==== Sys2Proof/Machine/Regs.lean ====
section
/-! DEFINITION. The scalar registers an instruction reads and writes, and which of them wait for a value (R135). -/

namespace Sys2Proof.Machine

def aluRegs (b : AluB) : List SReg :=
  match b with
  | .reg r => [r]
  | .imm _ => []

/-- A scalar B operand of a vector instruction (R49). -/
def vecRegs (v : VArgs) : List SReg := if v.sb then [(0 : BitVec 1) ++ v.wb] else []

/-- A reduction writes the scalar register its WD field names (R224). -/
def redRegs (v : VArgs) : List SReg := ((0 : BitVec 1) ++ v.wd) :: vecRegs v

/-- First of the two registers that hold the mask of `cpym` (R243). -/
def maskReg (c : CArgs) : SReg := c.mcast.extractLsb' 0 6

/-- Registers an instruction names as sources and destinations. -/
def Instr.regs (i : Instr) : List SReg :=
  match i with
  | .add _ sd sa b | .sub_ _ sd sa b | .mul _ sd sa b | .mulh _ sd sa b | .mulhn _ sd sa b | .div _ sd sa b
   | .divn _ sd sa b | .rem _ sd sa b | .remn _ sd sa b | .and_ _ sd sa b | .or_ _ sd sa b | .xor_ _ sd sa b
   | .andn _ sd sa b | .sll _ sd sa b | .srl _ sd sa b | .sra _ sd sa b | .slt _ sd sa b | .sltn _ sd sa b
   | .min_ _ sd sa b | .max_ _ sd sa b | .minn _ sd sa b | .maxn _ sd sa b =>
    [sd, sa] ++ aluRegs b
  | .clz _ sd sa | .ctz _ sd sa | .popc _ sd sa | .sext _ sd sa | .zext _ sd sa | .ld _ _ _ _ sd sa _ | .jalr sd sa _
   | .csrw sd sa _ | .csrs sd sa _ | .csrc sd sa _ | .setvl sd sa _ _ | .ownq sd sa _ | .srel sd sa _ _ | .gjoin sd sa _
   | .gleave sd sa _ | .gbar sd sa _ _ | .qdrainWait sd sa _ | .qdrainDiscard sd sa _ | .wfeWait sd sa | .wfeYield sd sa
   | .isave sd sa | .irest sd sa | .tlbprb sd sa | .logctlStatus sd sa | .logctlPolicy sd sa | .logctlBudget sd sa
   | .logmark sd sa _ =>
    [sd, sa]
  | .ldk sd _ | .jal sd _ | .csrr sd _ | .wget sd _ _ | .logsync sd =>
    [sd]
  | .st _ _ _ sb sa _ =>
    [sb, sa]
  | .scas a | .samoAdd a | .samoAnd a | .samoOr a | .samoXor a | .samoMin a | .samoMax a | .samoMinn a | .samoMaxn a
   | .samoSwap a =>
    [a.sd, a.sa, a.sb]
  | .vamoAdd v _ _ | .vamoAnd v _ _ | .vamoOr v _ _ | .vamoXor v _ _ | .vamoMin v _ _ | .vamoMax v _ _ | .vamoMinn v _ _
   | .vamoMaxn v _ _ | .vamoSwap v _ _ | .lanex v | .vadd v | .vsub v | .vmul v | .vfma v | .vfms v | .vfnma v | .vmin v
   | .vmax v | .vabs v | .vneg v | .vrcp v | .vrsq v | .vexp2 v | .vlog2 v | .vand v | .vor v | .vxor v | .vnot v
   | .vsll v | .vsrl v | .vsra v | .vceq v | .vcne v | .vclt v | .vcle v | .vsel v | .vmov v | .vfill v | .viota v
   | .vscanAdd v | .vscanMax v | .vscanMin v | .vgather v | .vscatter v | .vcompact v | .vexpand v | .vacc v | .vcvt _ v =>
    vecRegs v
  | .beq sa sb _ | .bne sa sb _ | .blt sa sb _ | .bge sa sb _ | .bltn sa sb _ | .bgen sa sb _ | .wset _ sa sb
   | .strip sa sb _ =>
    [sa, sb]
  | .wait .. | .halt | .nop | .wcpy .. | .bany .. | .ball .. | .bnone .. | .mload .. | .mswap .. | .mma .. | .mrecast ..
   | .minval .. | .adecl .. | .amerge .. | .rflush .. | .fence .. | .trap .. | .eret .. | .lqtailWrite ..
   | .lqcfgWrite .. | .launchRecord .. | .placeLaunch .. | .terminateLaunch .. | .pretmoExpiry .. | .timeSlice
   | .streamResume .. | .bankBeginBroadcast .. | .bankRetire .. | .floorDelivery .. | .treeResultReturn ..
   | .pullRequest .. | .pullReply .. | .pullResend .. | .scalarAccess .. | .scalarReply .. | .subbankDrowsy ..
   | .preciseStop .. | .interruptTaken .. | .hostint .. | .dieReset .. | .copySector .. | .copyWritePerform ..
   | .followOnAction .. | .actionReserve .. | .tokenWrite .. | .srunStart .. | .srunEnd .. | .chaseHop ..
   | .accumMessage .. | .accumAnswer .. | .residualIdleExpiry .. | .quotaInterval .. | .hintActivate ..
   | .hintRowClose .. | .refreshDue .. | .selfRefreshEntry .. | .selfRefreshExit .. | .layerFailure .. | .srmret ..
   | .pageWalk .. | .shootdownReceive .. | .prmctlGo .. | .promotionDone .. | .logRecord .. | .logTailPoll ..
   | .replayConsume .. | .replayHeadPoll .. | .replayBudgetExpiry .. | .flitReceive .. | .flitResend .. | .tokenPass ..
   | .governorLevel .. | .emptyFlit .. | .fibrePark .. | .fibreWake .. | .wakeLock .. | .bar2Access ..
   | .hostMemoryCompletion .. | .attestation .. | .attestTimeout .. | .keyRollover .. | .keyErase .. | .lkrekey ..
   | .peerAttestation .. | .debugHalt .. | .debugResume .. | .debugStep .. | .debugReadRegister ..
   | .debugWriteRegister .. | .debugReadMemory .. | .debugWriteMemory .. | .debugForward .. | .debugPeerTimeout ..
   | .traceRecord .. | .stallReport .. | .bringUp .. | .memgo | .memgoTimeout | .unitRepair .. | .spareRepair ..
   | .hubFailover | .throttle .. | .trip .. | .updctlGo .. | .registerWrite .. | .powerLoss .. | .peerReset ..
   | .debugPeerReply .. | .imageStaged .. =>
    []
  | .vredAdd v | .vredMax v | .vredMin v =>
    redRegs v
  | .cpy c | .cpyt c | .cpyg c | .cpys c | .sprog c | .srun c | .chase c =>
    [c.st]
  | .cpyf c =>
    [c.st, (0 : BitVec 1) ++ c.ws]
  | .cpym c =>
    [c.st, maskReg c, maskReg c + 1]
  | .sacq sd sa sb _ | .qpush sd sa sb _ | .qpop sd sa sb _ | .wsave sd sa sb | .wrest sd sa sb | .tlbinv sd sa sb _
   | .pmig sd sa sb _ =>
    [sd, sa, sb]

/-- A row of the table that is an event, not an instruction of a stream. -/
def isEvent (i : Instr) : Bool :=
  match i with
  | .lqtailWrite .. | .lqcfgWrite .. | .launchRecord .. | .placeLaunch .. | .terminateLaunch .. | .pretmoExpiry ..
   | .timeSlice | .streamResume .. | .bankBeginBroadcast .. | .bankRetire .. | .floorDelivery .. | .treeResultReturn ..
   | .pullRequest .. | .pullReply .. | .pullResend .. | .scalarAccess .. | .scalarReply .. | .subbankDrowsy ..
   | .preciseStop .. | .interruptTaken .. | .hostint .. | .dieReset .. | .copySector .. | .copyWritePerform ..
   | .followOnAction .. | .actionReserve .. | .tokenWrite .. | .srunStart .. | .srunEnd .. | .chaseHop ..
   | .accumMessage .. | .accumAnswer .. | .residualIdleExpiry .. | .quotaInterval .. | .hintActivate ..
   | .hintRowClose .. | .refreshDue .. | .selfRefreshEntry .. | .selfRefreshExit .. | .layerFailure .. | .srmret ..
   | .pageWalk .. | .shootdownReceive .. | .prmctlGo .. | .promotionDone .. | .logRecord .. | .logTailPoll ..
   | .replayConsume .. | .replayHeadPoll .. | .replayBudgetExpiry .. | .flitReceive .. | .flitResend .. | .tokenPass ..
   | .governorLevel .. | .emptyFlit .. | .fibrePark .. | .fibreWake .. | .wakeLock .. | .bar2Access ..
   | .hostMemoryCompletion .. | .attestation .. | .attestTimeout .. | .keyRollover .. | .keyErase .. | .lkrekey ..
   | .peerAttestation .. | .debugHalt .. | .debugResume .. | .debugStep .. | .debugReadRegister ..
   | .debugWriteRegister .. | .debugReadMemory .. | .debugWriteMemory .. | .debugForward .. | .debugPeerTimeout ..
   | .traceRecord .. | .stallReport .. | .bringUp .. | .memgo | .memgoTimeout | .unitRepair .. | .spareRepair ..
   | .hubFailover | .throttle .. | .trip .. | .updctlGo .. | .registerWrite .. | .powerLoss .. | .peerReset ..
   | .debugPeerReply .. | .imageStaged .. => true
  | .add .. | .sub_ .. | .mul .. | .mulh .. | .mulhn .. | .div .. | .divn .. | .rem .. | .remn .. | .and_ .. | .or_ ..
   | .xor_ .. | .andn .. | .sll .. | .srl .. | .sra .. | .slt .. | .sltn .. | .min_ .. | .max_ .. | .minn .. | .maxn ..
   | .clz .. | .ctz .. | .popc .. | .sext .. | .zext .. | .ldk .. | .ld .. | .st .. | .scas .. | .samoAdd ..
   | .vamoAdd .. | .samoAnd .. | .vamoAnd .. | .samoOr .. | .vamoOr .. | .samoXor .. | .vamoXor .. | .samoMin ..
   | .vamoMin .. | .samoMax .. | .vamoMax .. | .samoMinn .. | .vamoMinn .. | .samoMaxn .. | .vamoMaxn .. | .samoSwap ..
   | .vamoSwap .. | .beq .. | .bne .. | .blt .. | .bge .. | .bltn .. | .bgen .. | .jal .. | .jalr .. | .wait .. | .halt
   | .nop | .csrr .. | .csrw .. | .csrs .. | .csrc .. | .wset .. | .wget .. | .wcpy .. | .setvl .. | .strip ..
   | .bany .. | .ball .. | .bnone .. | .ownq .. | .lanex .. | .vadd .. | .vsub .. | .vmul .. | .vfma .. | .vfms ..
   | .vfnma .. | .vmin .. | .vmax .. | .vabs .. | .vneg .. | .vrcp .. | .vrsq .. | .vexp2 .. | .vlog2 .. | .vand ..
   | .vor .. | .vxor .. | .vnot .. | .vsll .. | .vsrl .. | .vsra .. | .vceq .. | .vcne .. | .vclt .. | .vcle ..
   | .vsel .. | .vmov .. | .vfill .. | .viota .. | .vredAdd .. | .vredMax .. | .vredMin .. | .vscanAdd ..
   | .vscanMax .. | .vscanMin .. | .vgather .. | .vscatter .. | .vcompact .. | .vexpand .. | .vacc .. | .vcvt ..
   | .mload .. | .mswap .. | .mma .. | .mrecast .. | .minval .. | .adecl .. | .amerge .. | .rflush .. | .cpy ..
   | .cpyt .. | .cpyg .. | .cpys .. | .cpyf .. | .cpym .. | .sprog .. | .srun .. | .chase .. | .fence .. | .srel ..
   | .sacq .. | .gjoin .. | .gleave .. | .gbar .. | .qpush .. | .qpop .. | .qdrainWait .. | .qdrainDiscard ..
   | .trap .. | .eret .. | .wfeWait .. | .wfeYield .. | .wsave .. | .wrest .. | .isave .. | .irest .. | .tlbinv ..
   | .tlbprb .. | .pmig .. | .logctlStatus .. | .logctlPolicy .. | .logctlBudget .. | .logmark .. | .logsync .. => false

/-- What the front issues while a scalar load or atomic is incomplete (R136), with a read of CNT, which never waits
(R248). -/
def inRetireWindow (i : Instr) : Bool :=
  match i with
  | .ld _ ord _ _ _ _ _ => ord == .plain
  | .csrr _ n => n == cntNumber
  | .csrs _ sa n | .csrc _ sa n => n == cntNumber && sa == 0
  | .add .. | .sub_ .. | .mul .. | .mulh .. | .mulhn .. | .div .. | .divn .. | .rem .. | .remn .. | .and_ .. | .or_ ..
   | .xor_ .. | .andn .. | .sll .. | .srl .. | .sra .. | .slt .. | .sltn .. | .min_ .. | .max_ .. | .minn .. | .maxn ..
   | .clz .. | .ctz .. | .popc .. | .sext .. | .zext .. | .ldk .. | .beq .. | .bne .. | .blt .. | .bge .. | .bltn ..
   | .bgen .. | .jal .. | .jalr .. | .nop => true
  | .st .. | .scas .. | .samoAdd .. | .vamoAdd .. | .samoAnd .. | .vamoAnd .. | .samoOr .. | .vamoOr .. | .samoXor ..
   | .vamoXor .. | .samoMin .. | .vamoMin .. | .samoMax .. | .vamoMax .. | .samoMinn .. | .vamoMinn .. | .samoMaxn ..
   | .vamoMaxn .. | .samoSwap .. | .vamoSwap .. | .wait .. | .halt | .csrw ..
   | .wset .. | .wget .. | .wcpy .. | .setvl .. | .strip .. | .bany .. | .ball .. | .bnone .. | .ownq .. | .lanex ..
   | .vadd .. | .vsub .. | .vmul .. | .vfma .. | .vfms .. | .vfnma .. | .vmin .. | .vmax .. | .vabs .. | .vneg ..
   | .vrcp .. | .vrsq .. | .vexp2 .. | .vlog2 .. | .vand .. | .vor .. | .vxor .. | .vnot .. | .vsll .. | .vsrl ..
   | .vsra .. | .vceq .. | .vcne .. | .vclt .. | .vcle .. | .vsel .. | .vmov .. | .vfill .. | .viota .. | .vredAdd ..
   | .vredMax .. | .vredMin .. | .vscanAdd .. | .vscanMax .. | .vscanMin .. | .vgather .. | .vscatter .. | .vcompact ..
   | .vexpand .. | .vacc .. | .vcvt .. | .mload .. | .mswap .. | .mma .. | .mrecast .. | .minval .. | .adecl ..
   | .amerge .. | .rflush .. | .cpy .. | .cpyt .. | .cpyg .. | .cpys .. | .cpyf .. | .cpym .. | .sprog .. | .srun ..
   | .chase .. | .fence .. | .srel .. | .sacq .. | .gjoin .. | .gleave .. | .gbar .. | .qpush .. | .qpop ..
   | .qdrainWait .. | .qdrainDiscard .. | .trap .. | .eret .. | .wfeWait .. | .wfeYield .. | .wsave .. | .wrest ..
   | .isave .. | .irest .. | .tlbinv .. | .tlbprb .. | .pmig .. | .logctlStatus .. | .logctlPolicy ..
   | .logctlBudget .. | .logmark .. | .logsync .. | .lqtailWrite .. | .lqcfgWrite .. | .launchRecord ..
   | .placeLaunch .. | .terminateLaunch .. | .pretmoExpiry .. | .timeSlice | .streamResume .. | .bankBeginBroadcast ..
   | .bankRetire .. | .floorDelivery .. | .treeResultReturn .. | .pullRequest .. | .pullReply .. | .pullResend ..
   | .scalarAccess .. | .scalarReply .. | .subbankDrowsy .. | .preciseStop .. | .interruptTaken .. | .hostint ..
   | .dieReset .. | .copySector .. | .copyWritePerform .. | .followOnAction .. | .actionReserve .. | .tokenWrite ..
   | .srunStart .. | .srunEnd .. | .chaseHop .. | .accumMessage .. | .accumAnswer .. | .residualIdleExpiry ..
   | .quotaInterval .. | .hintActivate .. | .hintRowClose .. | .refreshDue .. | .selfRefreshEntry ..
   | .selfRefreshExit .. | .layerFailure .. | .srmret .. | .pageWalk .. | .shootdownReceive .. | .prmctlGo ..
   | .promotionDone .. | .logRecord .. | .logTailPoll .. | .replayConsume .. | .replayHeadPoll ..
   | .replayBudgetExpiry .. | .flitReceive .. | .flitResend .. | .tokenPass .. | .governorLevel .. | .emptyFlit ..
   | .fibrePark .. | .fibreWake .. | .wakeLock .. | .bar2Access .. | .hostMemoryCompletion .. | .attestation ..
   | .attestTimeout .. | .keyRollover .. | .keyErase .. | .lkrekey .. | .peerAttestation .. | .debugHalt ..
   | .debugResume .. | .debugStep .. | .debugReadRegister .. | .debugWriteRegister .. | .debugReadMemory ..
   | .debugWriteMemory .. | .debugForward .. | .debugPeerTimeout .. | .traceRecord .. | .stallReport .. | .bringUp ..
   | .memgo | .memgoTimeout | .unitRepair .. | .spareRepair .. | .hubFailover | .throttle .. | .trip .. | .updctlGo ..
   | .registerWrite .. | .powerLoss .. | .peerReset .. | .debugPeerReply .. | .imageStaged .. => false

/-- Loads and atomics of earlier instructions that are incomplete: a read of host memory that the instruction at
the pc waits for is its own. -/
def earlierAccesses (f : Front) : List Access := f.accesses.filter (fun a => !(hostRead a && a.pc == f.pc))

/-- Registers whose writes are pending, tokens apart: loads and atomics not returned, and results of the combining
tree not returned (R135, R142, R224). -/
def otherRegs (f : Front) : List SReg :=
  loadRegs { f with accesses := earlierAccesses f } ++ f.bcasts.filterMap (fun b => (infoOfWord b.word).bind (·.body.result))

/-- The register that a command's token goes to. -/
def tokenReg (i : Instr) : Option SReg := (cmdOf (wordOf i)).map (·.2.st)

/-- The pending writes that an instruction waits for at a register: a token does not wait for the tokens of earlier
commands, which are written first (R246). -/
def awaited (f : Front) (i : Instr) (r : SReg) : Bool :=
  (otherRegs f).contains r || ((tokenRegs f).contains r && (tokenReg i != some r || ((Instr.regs i).drop 1).contains r))

/-- No incomplete load or atomic has 16 instructions issued after it, for one that waits for that (R136). -/
def windowOpen (f : Front) (i : Instr) : Bool :=
  match i with
  | .csrr _ _ | .csrs _ _ _ | .csrc _ _ _ => true
  | _ => f.accesses.all (fun a => (loadRegs { f with accesses := [a] }).isEmpty || a.isRel || f.issued - a.order ≤ 16)

/-- An instruction that names a register with a write pending waits (R135), and so does one outside the retire
window of an incomplete load (R136); s0 is never written. -/
def regsReady (s : State) (i : Instr) : Bool :=
  (let f := { s.front with accesses := earlierAccesses s.front }
   loadsOut f == 0 || (inRetireWindow i && windowOpen f i))
    && !(Instr.regs i).any (fun r => r != 0 && awaited s.front i r)

end Sys2Proof.Machine
end

