-- ==== Sys2Proof/Machine/Turn.lean ====
section
/-! DEFINITION. A turn of the front: fetching and decoding (R137), what goes before the next instruction, and how an
instruction is laid where the next fetch finds it. -/

namespace Sys2Proof.Machine

/-! ### Fetch (R137) -/

/-- The cached word of an address. -/
def cached (s : State) (va : Nat) : Option Word := (s.front.icache.find? (fun p => p.1 == va)).map (·.2)

def cacheWord (s : State) (va : Nat) (w : Word) : State :=
  { s with front := { s.front with icache := (va, w) :: s.front.icache.filter (fun p => p.1 != va) } }

/-- The word an instruction fetch returns: what memory holds, or, where a store has changed it since, what the
cache holds. -/
def pickWord (va : Nat) (w : Word) : M Word := do
  let s ← get
  match cached s va with
  | none => do
    set (cacheWord s va w)
    pure w
  | some c =>
    if c = w then pure w
    else do
      let old := Config.fetchOld s.drawn
      let s := { s with drawn := s.drawn + 1 }
      set (if old then s else cacheWord s va w)
      pure (if old then c else w)

/-- Fetch of one word: translation with permission X, then its bytes, whole. -/
def fetchWord (va : Nat) : M Word := do
  let s ← get
  let pl ← xlate (seqAgent s.front) va .exec 0
  let ks ← keysM pl va 8 0
  let s ← get
  need (!unreadable s ks) (mkTrap causeDataError 0 0 va)
  pickWord va (BitVec.ofNat 64 (bytesNat (s.mem.gets ks)))

/-- The instruction at the pc, with the word after it for `ldk`; ILLEGAL_INSN with the reason of R68. -/
def fetchM : M Instr := do
  let s ← get
  let x ← fetchWord s.front.pc.toNat
  let k ← if isLdk x then fetchWord (s.front.pc.toNat + 8) else pure 0
  match decode x k with
  | .ok i => pure i
  | .illegal r => trapM (mkTrap causeIllegalInsn r)

/-- Fetches, decodes and runs one instruction; one that names a pending register waits. -/
def runFront (s : State) : Out :=
  match M.exec fetchM s with
  | (.ok i, s) => if regsReady s i then exec i s else .next s
  | (.error (.trap t), s) => trapHere t s
  | (.error _, s) => .next s

/-! ### What goes before an instruction -/

/-- The launch's join of its group (R115): a full group traps as `gjoin` does. -/
def joinTurn (g : BitVec 10) (s : State) : Out :=
  let out (s : State) : State := { s with front := { s.front with joining := none } }
  if 256 ≤ (s.group g).size then trapHere (operandTrap 2) (out s)
  else
    let r := s.group g
    let n := r.arrived.length
    frontM (do
      let _ ← admitOp 4 (if n = 0 then 0 else 1) (objGroup g.toNat) (fun q => q.a == r.episode && fld 0 16 q.b.toNat == n) none 0
        (fun q => q.a == r.episode && n < fld 0 16 q.b.toNat)
      modify (fun s => out (joinGroup s g))) s

/-- A broadcast of the front's own stands first and goes on before anything new issues. -/
def resumes (s : State) : Bool :=
  match s.front.bcasts with
  | [] => false
  | b :: _ => s.pace == .lockstep || frontDriven b.word

/-- The step's instruction has issued: nothing more does before it lands. -/
def landing (s : State) : Bool :=
  match s.front.dbg with
  | .land _ => true
  | _ => false

/-- In replay, a stream is pre-empted where its context's next SCHED record says (R123): at this pc, with this
precise stop. -/
def loggedStop (s : State) : Option State :=
  if s.front.logMode ≠ 2 ∨ s.front.tlbOp ≠ .none then none
  else
    match (s.logCtx s.front.logId).map (schedNext s) with
    | some (.next c i r) =>
      if r.sub = 1 ∧ r.sid = s.front.sid ∧ r.a = s.front.pc then
        match settleStop s (interruptInfo causePreempt 0) s.front.pc with
        | .waits t => some t
        | .stopped t x pc =>
          if x.int ∧ pc = r.a ∧ t.floor = r.b.toNat then
            let (s, c) := consume s c i
            let s := s.setLog c
            some (takePreempt { s with front := { s.front with preempt := true } })
          else none
      else none
    | _ => none

/-- One turn of a running stream. A fault goes before a halt (R430), and so does what an instruction has waited for and
got (R127). -/
def frontTurn (s : State) : Out :=
  if s.front.pdie.isSome && s.front.tlbOp == .none then .next (lateDieStop s)
  else if s.front.found.isSome then .next (stopFound s)
  else if lateDue s then .next (lateStop s)
  else if mayHalt s then .next (haltFront s)
  else if replyHeld s s.front then .next s
  else if mayInterrupt s then .next (takeInterrupt s)
  else if resumes s then .next (resumeB s)
  else if landing s then .next s
  else
    match loggedStop s with
    | some t => .next t
    | none =>
      match s.front.joining, s.front.stopWin with
      | some g, false => joinTurn g s
      | _, _ => runFront s

/-- The stream whose turn it is can act. -/
def mayRun (s : State) : Bool := s.front.status == .running && !s.front.halted && !s.front.retiring

/-- The turn passes on. -/
def passTurn (o : Out) : Out :=
  match o with
  | .next s => .next s.rotate
  | o => o

/-- An event from outside or from an engine. Anything else in the inbox is dropped. -/
def takeEvent (e : Instr) (s : State) : Out := if isEvent e then exec e s else .next s

/-! ### Laying an instruction where the next fetch finds it -/

/-- The stream that fetches: the front if it runs, or a stream of its own, in neither case with anything to do
before its next instruction. -/
def readyFront (s : State) (pc : Word) : Front :=
  let f := if s.front.status = .running then s.front
    else { Front.idle with status := .running, sid := (BitVec.ofNat 16 ((lowestSid s 1).getD 1)), csr := { Csrs.reset with share := 1 } }
  { f with
    pc := pc, halted := false, haltPend := false, dbg := .free, joining := none, retiring := false, atGroup := none, found := none, ppre := false, phost := none
    pwatch := none, pdie := none, late := none, strayed := false, tlbOp := .none, bcasts := [], accesses := [], cmds := [], logMode := 0, icache := [], root := 1, rclass := false }

/-- Where the pc stands, or zero when no instruction of 16 bytes in one page can. -/
def codePc (s : State) : Word :=
  let a := s.front.pc.toNat
  if a < 2 ^ 56 ∧ a % 8 = 0 ∧ a % 2 ^ 14 ≤ 2 ^ 14 - 16 then s.front.pc else 0

/-- Entries that map the page of `va`: tables at 0x10000, 0x20000, 0x30000 and 0x31000 of stack 0, the page itself
at 0x34000, readable, writable and executable in either mode (R297 to R299). -/
def codeEntries (va : Nat) : List (Nat × Nat) :=
  let ptr (a : Nat) : Nat := 1 + at_ 14 1 + at_ 22 (a / 2 ^ 10)
  [(0x10000 + 8 * fld 43 13 va, ptr 0x20000), (0x20000 + 8 * fld 30 13 va, ptr 0x30000), (0x30000 + 8 * fld 21 9 va, ptr 0x31000),
   (0x31000 + 8 * fld 14 7 va, 1 + at_ 1 1 + at_ 3 0xF + at_ 14 1 + at_ 26 (0x34000 / 2 ^ 14))]

/-- The first layer of stack 0 is in service. -/
def withStack0 (s : State) : State :=
  let s := s.setStack 0 { s.stack 0 with layers := (s.stack 0).layers ||| 1 }
  { s with regs := { s.regs with stackMask := s.regs.stackMask ||| 1 } }

/-- The module with an instruction's bytes at the pc of a stream that has the turn and may run: no event waits, the
distributor has nothing to do, and the page translates. -/
def layWord (s : State) (w : Nat) : State :=
  let pc := codePc s
  let f := readyFront s pc
  let rest := if s.front.status = .running ∨ s.front.status = .idle then s.fronts else s.front :: s.fronts
  let s := withStack0 { s with
    inbox := [], front := f, fronts := rest.map (fun g => { g with heldBack := true, retiring := false })
    lqueues := mapVec (fun q => { q with en := false }) s.lqueues, tlb := s.tlb.filter (fun e => e.agent != seqAgent f)
    regs := { s.regs with ready := true } }
  let s := (codeEntries pc.toNat).foldl (fun s e => s.putNum (smKey e.1) 8 e.2) s
  let code := s.phys (smKey (0x34000 + pc.toNat % 2 ^ 14))
  let s := { s with mem := s.mem.putNum code 16 w }
  { s with poison := s.poison.filter (fun x => !(0x10000 ≤ 8 * x && 8 * x < 0x38000)) }

end Sys2Proof.Machine
end

