-- ==== Sys2Proof/Machine/Step.lean ====
section
/-! DEFINITION. One step of the module: the next event, else what the distributor has to do, else a turn of the
stream whose turn it is. -/

namespace Sys2Proof.Machine

def step (s : State) : Host.Outcome State Fault Refusal :=
  match s.inbox with
  | e :: r => takeEvent e { s with inbox := r }
  | [] =>
    match distributor s with
    | some t => .next t
    | none => if mayRun s then passTurn (frontTurn s) else .next s.rotate

/-- `s` with an instruction of `nbits` bits `w` where the next step fetches it; the bits above are zero. -/
def State.withFetchWord (s : State) (nbits w : Nat) : State := layWord s (w % 2 ^ nbits)

end Sys2Proof.Machine
end

