-- ==== Sys2Proof/Safety.lean ====
section
/-! DEFINITION. What a safe run of the module is, in the terms the statements use: a step goes on, and leaves a
state that keeps the invariants. -/

namespace Sys2Proof.Safety

open Sys2Proof.Machine

/-- The outcome is a next state: neither a fault nor a refusal. -/
def GoesOn (o : Out) : Prop := ∃ t, o = .next t

/-- Every next state of the outcome satisfies `P`. -/
def Ends (P : State → Prop) (o : Out) : Prop := ∀ t, o = .next t → P t

/-- Memory lists each key at most once, in rising order, and no byte that an unlisted key reads as. -/
def Canonical (s : State) : Prop := s.mem.wf = true

/-- A step keeps an invariant. -/
def Keeps (P : State → Prop) : Prop := ∀ s, P s → Ends P (Sys2Proof.Machine.step s)

/-! ### A step up to its instruction -/

/-- The running stream has nothing to do before its next instruction: no halt, join, stop, held reply, interrupt,
broadcast, failed element, die reset or logged pre-emption. -/
def nothingFirst (s : State) : Bool :=
  s.front.pdie.isNone && !s.front.haltPend && s.front.dbg == .free && s.front.joining.isNone && s.front.found.isNone && !lateDue s && !replyHeld s s.front
    && !mayInterrupt s && s.front.bcasts.isEmpty && (loggedStop s).isNone

/-- A fetch at `va` reads the word `x` (R137): the address translates for execution, its eight bytes are readable and
hold `x`, lowest address first, and the stream's cache holds no older word; `t` is what the fetch leaves. -/
def FetchesAt (s : State) (va : Nat) (x : Word) (t : State) : Prop :=
  ∃ (pl : Place) (ks : List Key) (s1 s2 : State),
    M.exec (xlate (seqAgent s.front) va .exec 0) s = (.ok pl, s1) ∧ M.exec (keysM pl va 8 0) s1 = (.ok ks, s2) ∧
    unreadable s2 ks = false ∧ bytesNat (s2.mem.gets ks) = x.toNat ∧ cached s2 va = none ∧ t = cacheWord s2 va x

/-! ### Scalar accesses -/

/-- A stream in lockstep with nothing of its own under way: no access, command or broadcast, the floor at the ISN
(or a stop window), and no log. -/
def Quiet (s : State) : Prop :=
  s.pace = .lockstep ∧ s.front.accesses = [] ∧ s.front.cmds = [] ∧ s.front.bcasts = [] ∧ floorMet s = true ∧ s.front.logMode = 0

/-- An access of `n` bytes at `va` passes the checks of R152: it is aligned, translates with permission `p` to the
distinct places `ks`, is not watched, not checked for races, and readable; `s1` is what the translation leaves. -/
def Reaches (s : State) (va n : Nat) (p : Perm) (pl : Place) (ks : List Key) (s1 : State) : Prop :=
  va % n = 0 ∧ M.exec (xlate (seqAgent s.front) va p 0) s = (.ok pl, s1) ∧ keysOf s1 pl va n = some ks ∧ ks.Nodup ∧
  unreadable s1 ks = false ∧ raced s1.front.race pl = false ∧
  (watchMask s.front.csr.watches va n (p != .write) (p != .read) = 0 ∨ s.front.exempt = true)

/-- Class 0 is open on the way to each place of an access that lies at a peer (R405, R411, R412). -/
def PeersOpen (s : State) (ks : List Key) : Prop := ks.all (fun k => peerOpen s k 0) = true

/-- A stream with no work under way: nothing for a stop to complete, cancel, answer or roll back. -/
def Still (s : State) : Prop :=
  s.front.bcasts = [] ∧ s.front.accesses = [] ∧ s.front.cmds = [] ∧ s.front.horizon ≤ s.floor ∧
  (∀ e ∈ s.shelves, e.sid ≠ s.front.sid) ∧ (∀ m ∈ s.msgs, m.sid ≠ s.front.sid) ∧ (∀ m ∈ s.homeQ, m.sid ≠ s.front.sid) ∧ s.front.late = none

/-! ### Shapes of instructions -/

/-- Instructions that touch scalar registers and the pc alone, with the register each writes. -/
def scalarOnly (i : Instr) : Option (Option SReg) :=
  match i with
  | .add _ sd _ _ | .sub_ _ sd _ _ | .mul _ sd _ _ | .mulh _ sd _ _ | .mulhn _ sd _ _ | .div _ sd _ _ | .divn _ sd _ _
   | .rem _ sd _ _ | .remn _ sd _ _ | .and_ _ sd _ _ | .or_ _ sd _ _ | .xor_ _ sd _ _ | .andn _ sd _ _ | .sll _ sd _ _
   | .srl _ sd _ _ | .sra _ sd _ _ | .slt _ sd _ _ | .sltn _ sd _ _ | .min_ _ sd _ _ | .max_ _ sd _ _ | .minn _ sd _ _
   | .maxn _ sd _ _ | .clz _ sd _ | .ctz _ sd _ | .popc _ sd _ | .sext _ sd _ | .zext _ sd _ | .ldk sd _ | .jal sd _
   | .jalr sd _ _ => some (some sd)
  | .nop | .beq .. | .bne .. | .blt .. | .bge .. | .bltn .. | .bgen .. => some none
  | _ => none

/-- Vector instructions that perform one operation per destination element: their operands, the format of the
destination, whether its elements may lie in stack memory, and the operation (R207, R283). -/
def elementOf (i : Instr) : Option (VArgs × Fmt × Bool × ElemFn) :=
  match i with
  | .vadd v => some (v, v.fmt, smFmt v.fmt, fnArith .add false v)
  | .vsub v => some (v, v.fmt, false, fnArith .sub false v)
  | .vmul v => some (v, v.fmt, smFmt v.fmt, fnArith .mul false v)
  | .vfma v => some (v, v.fmt, smFmt v.fmt, fnArith .fma true v)
  | .vfms v => some (v, v.fmt, false, fnArith .fms true v)
  | .vfnma v => some (v, v.fmt, false, fnArith .fnma true v)
  | .vmin v => some (v, v.fmt, false, fnTwo (fun c x y => minMax v.fmt c.ftz false x y) v)
  | .vmax v => some (v, v.fmt, false, fnTwo (fun c x y => minMax v.fmt c.ftz true x y) v)
  | .vabs v => some (v, v.fmt, false, fnUnary .abs v)
  | .vneg v => some (v, v.fmt, false, fnUnary .neg v)
  | .vrcp v => some (v, v.fmt, false, fnUnary .rcp v)
  | .vrsq v => some (v, v.fmt, false, fnUnary .rsq v)
  | .vexp2 v => some (v, v.fmt, false, fnUnary .exp2 v)
  | .vlog2 v => some (v, v.fmt, false, fnUnary .log2 v)
  | .vand v => some (v, v.fmt, false, fnTwo (fun _ x y => (x &&& y, 0)) v)
  | .vor v => some (v, v.fmt, false, fnTwo (fun _ x y => (x ||| y, 0)) v)
  | .vxor v => some (v, v.fmt, false, fnTwo (fun _ x y => (x ^^^ y, 0)) v)
  | .vnot v => some (v, v.fmt, false, fnNot v)
  | .vsll v => some (v, v.fmt, false, fnTwo (fun _ x y => (shiftCode .sll v.fmt.bits x y, 0)) v)
  | .vsrl v => some (v, v.fmt, false, fnTwo (fun _ x y => (shiftCode .srl v.fmt.bits x y, 0)) v)
  | .vsra v => some (v, v.fmt, false, fnTwo (fun _ x y => (shiftCode .sra v.fmt.bits x y, 0)) v)
  | .vceq v => some (v, .bit, false, fnTwo (fun c x y => (boolNat (compareCodes .eq v.fmt c.ftz x y).1, (compareCodes .eq v.fmt c.ftz x y).2)) v)
  | .vcne v => some (v, .bit, false, fnTwo (fun c x y => (boolNat (compareCodes .ne v.fmt c.ftz x y).1, (compareCodes .ne v.fmt c.ftz x y).2)) v)
  | .vclt v => some (v, .bit, false, fnTwo (fun c x y => (boolNat (compareCodes .lt v.fmt c.ftz x y).1, (compareCodes .lt v.fmt c.ftz x y).2)) v)
  | .vcle v => some (v, .bit, false, fnTwo (fun c x y => (boolNat (compareCodes .le v.fmt c.ftz x y).1, (compareCodes .le v.fmt c.ftz x y).2)) v)
  | .vsel v => some (v, v.fmt, false, fnSel v)
  | .vmov v => some (v, v.fmt, false, fnMov v)
  | .vgather v => some (v, v.fmt, false, fnMov v)
  | .vscatter v => some (v, v.fmt, false, fnMov v)
  | .vfill v => some (v, v.fmt, true, fnFill v)
  | .viota v => some (v, v.fmt, false, fnIota v)
  | .vcvt sf v => if v.fmt.isS then none else some (v, v.fmt, smCvt v.fmt && smCvt sf, fnCvt sf v)
  | .lanex v => some (v, v.fmt, false, fnLanex v)
  | _ => none

/-- Scans, with their operation (R225). -/
def scanOf (i : Instr) : Option (VArgs × RedOp) :=
  match i with
  | .vscanAdd v => some (v, .add)
  | .vscanMax v => some (v, .max)
  | .vscanMin v => some (v, .min)
  | _ => none

/-- Instructions that move elements by a selector, with the source element of each destination element (R228). -/
def movesOf (i : Instr) : Option (VArgs × Moves) :=
  match i with
  | .vcompact v => some (v, compactFrom)
  | .vexpand v => some (v, expandFrom)
  | _ => none

end Sys2Proof.Safety
end

