-- ==== Sys2Proof/Certificates/Slice0/Obligations.lean ====
section
/-! DEFINITION. The statements for the provers. -/

open Sys2Proof Sys2Proof.Machine Sys2Proof.Safety

/-- Decoding the bytes of a well-formed instruction gives it back, and leaves what follows (R43, R44, R45, R68). For every
well-formed instruction of a stream, with every operand at every value its word admits, the bytes it is stored as,
followed by any bytes, decode to it and leave those bytes. -/
def Obligations.DecodeInvertsEncode : Prop :=
  ∀ (i : Instr) (rest : List Byte), i.wellFormed = true → isEvent i = false →
    decodeBytes (i.bytes ++ rest) = .ok i rest

/-- A word that decodes is the one word of a well-formed instruction (R43, R44, R45, R68). Whatever word decodes, with the
word after it, decodes to a well-formed instruction of a stream whose encoding is that word (for ldk, the two words):
no two words mean one instruction, and no bit is read past. -/
def Obligations.DecodedWordEncodesBack : Prop :=
  ∀ (x k : Word) (i : Instr), decode x k = .ok i →
    i.wellFormed = true ∧ isEvent i = false ∧ encode i = (if isLdk x then [x, k] else [x])

/-- Words that the manual writes out decode to the instructions it names (R151, R154, R155, R156, R157, R158, R148). The
words 0x1E40_C510_0000_0000 (samo.add.i64 s3, s4, [s5]), 0x1AC0_C510_0000_0000 (scas.i64.acq), 0x0C0F_C000_0000_0005
(jal loop), 0x0C81_4000_0000_0006 (csrr s5, s0, FLOOR), 0x0C20_0000_0000_0000 (wait 0, 0, 0, 0), 0x0C30_0000_0000_0000
(halt) and 0x0C40_0000_0000_0000 (nop) decode to those instructions; the all-zero word decodes to none. -/
def Obligations.DecodesWrittenWords : Prop :=
  decode 0x1E40C51000000000 0 = .ok (.samoAdd { sg := true, ord := .plain, sc := .domain, w := .w64, sd := 3, sa := 5, sb := 4, off := 0 })
  ∧ decode 0x1AC0C51000000000 0 = .ok (.scas { sg := true, ord := .acq, sc := .domain, w := .w64, sd := 3, sa := 5, sb := 4, off := 0 })
  ∧ decode 0x0C0FC00000000005 0 = .ok (.jal 63 5)
  ∧ decode 0x0C81400000000006 0 = .ok (.csrr 5 6)
  ∧ decode 0x0C20000000000000 0 = .ok (.wait 0)
  ∧ decode 0x0C30000000000000 0 = .ok .halt
  ∧ decode 0x0C40000000000000 0 = .ok .nop
  ∧ (∀ k, decode 0 k = .illegal 2)

/-- A step runs the instruction whose bytes stand at the program counter (R43, R44, R135, R137). Where no event waits, the
distributor has nothing to do, the stream whose turn it is runs and has nothing to do before its next instruction, and
the words fetched at its pc decode to an instruction whose registers are ready, the step is exec of that instruction
at the state the fetch leaves, after which the turn passes on. Where a register it names has a write pending, the
stream waits and the turn passes on. (Turns and the inbox are the model's, log entry 3.) -/
def Obligations.StepRunsDecodedInstruction : Prop :=
  ∀ (s t u : State) (x k : Word) (i : Instr),
    s.inbox = [] → distributor s = none → mayRun s = true → nothingFirst s = true →
    FetchesAt s s.front.pc.toNat x t →
    (if isLdk x then FetchesAt t (s.front.pc.toNat + 8) k u else u = t) →
    decode x k = .ok i →
    step s = passTurn (if regsReady u i then exec i u else .next u)

/-- A word that is no instruction takes ILLEGAL_INSN at its address with its reason (R68, R69). Under the same conditions,
a fetched word that does not decode takes the exception ILLEGAL_INSN at the pc with the reason of R68 in TINFO and the
turn passes on; the reason is one of the numbers 1 to 5 that the manual assigns. (Turns are the model's, log entry 3.) -/
def Obligations.IllegalWordTakesTrap : Prop :=
  ∀ (s t : State) (x : Word) (r : Nat),
    s.inbox = [] → distributor s = none → mayRun s = true → nothingFirst s = true →
    FetchesAt s s.front.pc.toNat x t → isLdk x = false → decode x 0 = .illegal r →
    step s = passTurn (.next (stopTrap t (mkTrap causeIllegalInsn r) s.front.pc)) ∧ 1 ≤ r ∧ r ≤ 5

/-- Every step of every state answers a next state (R43, R137, R437). From every state, whatever the inbox holds and
whatever stands at the pc, the step answers a next state: no fault, no refusal. (The inbox is the model's, log entry
3.) -/
def Obligations.EveryStepGoesOn : Prop :=
  ∀ s : State, GoesOn (step s)

/-- The 22 binary scalar operations complete with the results of the table (R146, R147). At every width w, add, sub, mul,
mulh, mulhn, div, divn, rem, remn, and, or, xor, andn, sll, srl, sra, slt, sltn, min, max, minn and maxn go on to the
next instruction with the w-bit result of the table in SD, sign-extended from bit w - 1; the operands are the low w
bits of SA and of SB or the sign-extended immediate. Division by zero gives all ones and leaves the dividend as the
remainder; the most negative number divided by -1 gives itself. s0 as SD stays zero. -/
def Obligations.BinaryAluResults : Prop :=
  ∀ (w : Width) (sd sa : SReg) (b : AluB) (s : State),
    let n := Width.bits w
    let x : BitVec n := (s.rd sa).setWidth n
    let y : BitVec n := (match b with
      | .reg r => s.rd r
      | .imm i => i.signExtend 64 : Word).setWidth n
    let sh := y.toNat % n
    let go (r : BitVec n) : Out := .next ((s.wr sd (r.signExtend 64)).done)
    exec (.add w sd sa b) s = go (x + y) ∧
    exec (.sub_ w sd sa b) s = go (x - y) ∧
    exec (.mul w sd sa b) s = go (x * y) ∧
    exec (.mulh w sd sa b) s = go ((x.signExtend (2 * n) * y.signExtend (2 * n)).extractLsb' n n) ∧
    exec (.mulhn w sd sa b) s = go ((x.setWidth (2 * n) * y.setWidth (2 * n)).extractLsb' n n) ∧
    exec (.div w sd sa b) s = go (if y = 0 then BitVec.allOnes n else x.sdiv y) ∧
    exec (.divn w sd sa b) s = go (if y = 0 then BitVec.allOnes n else x / y) ∧
    exec (.rem w sd sa b) s = go (if y = 0 then x else x.srem y) ∧
    exec (.remn w sd sa b) s = go (if y = 0 then x else x % y) ∧
    exec (.and_ w sd sa b) s = go (x &&& y) ∧
    exec (.or_ w sd sa b) s = go (x ||| y) ∧
    exec (.xor_ w sd sa b) s = go (x ^^^ y) ∧
    exec (.andn w sd sa b) s = go (x &&& ~~~y) ∧
    exec (.sll w sd sa b) s = go (x <<< sh) ∧
    exec (.srl w sd sa b) s = go (x >>> sh) ∧
    exec (.sra w sd sa b) s = go (x.sshiftRight sh) ∧
    exec (.slt w sd sa b) s = go (if x.slt y then 1 else 0) ∧
    exec (.sltn w sd sa b) s = go (if x.ult y then 1 else 0) ∧
    exec (.min_ w sd sa b) s = go (if x.slt y then x else y) ∧
    exec (.max_ w sd sa b) s = go (if x.slt y then y else x) ∧
    exec (.minn w sd sa b) s = go (if x.ult y then x else y) ∧
    exec (.maxn w sd sa b) s = go (if x.ult y then y else x)

/-- clz, ctz, popc, sext, zext, ldk and nop complete with their results (R146, R147, R148, R158). For the low w bits x of
SA: clz gives the number c such that the top c bits of x are zero and the next, if there is one, is 1; ctz the same
from the bottom; popc the number of 1 bits; these and sext are sign-extended from bit w - 1 into SD, zext is zero-
extended. ldk writes its constant and skips its two words; nop changes nothing but goes on. -/
def Obligations.UnaryAluResults : Prop :=
  ∀ (w : Width) (sd sa : SReg) (k : Word) (s : State),
    let n := Width.bits w
    let x : BitVec n := (s.rd sa).setWidth n
    let go (r : BitVec n) : Out := .next ((s.wr sd (r.signExtend 64)).done)
    (∃ c ≤ n, exec (.clz w sd sa) s = go (BitVec.ofNat n c) ∧ (∀ j < c, x.getMsbD j = false) ∧ (c < n → x.getMsbD c = true)) ∧
    (∃ c ≤ n, exec (.ctz w sd sa) s = go (BitVec.ofNat n c) ∧ (∀ j < c, x.getLsbD j = false) ∧ (c < n → x.getLsbD c = true)) ∧
    exec (.popc w sd sa) s = go (BitVec.ofNat n ((List.finRange n).countP (fun j => x.getLsbD j.val))) ∧
    exec (.sext w sd sa) s = go x ∧
    exec (.zext w sd sa) s = .next ((s.wr sd (x.setWidth 64)).done) ∧
    exec (.ldk sd k) s = .next ((s.wr sd k).goto (s.front.pc + 16)) ∧
    exec .nop s = .next s.done

/-- Instructions on scalar registers alone leave all but their destination as it was; s0 reads as zero and discards writes
(R132, R146, R147, R148, R153, R154, R158). Where one of the scalar ALU instructions, ldk, nop, a branch, jal or jalr
goes on, and jalr does not raise ALIGN, every scalar register but the one destination (none for nop and the branches),
every window, every control and status register (the flags among them), every byte of memory, and the whole module
outside the front are as they were; the destination s0 still reads as zero. The pc may change. A write of a register
is what it then reads, for s0 zero; every other register, the windows, the pc and memory are as before; a write to s0
changes nothing at all. -/
def Obligations.RegisterOnlyFrame : Prop :=
  (∀ (i : Instr) (d : Option SReg) (s t : State), scalarOnly i = some d → exec i s = .next t →
      (∀ sd sa imm, i = .jalr sd sa imm → (s.rd sa + imm.signExtend 64).toNat % 8 = 0) →
      (∀ r, d ≠ some r → t.rd r = s.rd r) ∧ t.rd 0 = 0 ∧
      (∀ k, t.rdW k = s.rdW k) ∧ (∀ n, csrRead t n = csrRead s n) ∧ t.front.csr = s.front.csr ∧
      (∀ k, t.mem.get k = s.mem.get k) ∧ { t with front := s.front } = s) ∧
  (∀ (r q : SReg) (v : Word) (s : State),
    (s.wr r v).rd q = (if q = 0 then 0 else if q = r then v else s.rd q) ∧
    s.wr 0 v = s ∧ (s.wr r v).front.w = s.front.w ∧ (s.wr r v).front.pc = s.front.pc ∧ (s.wr r v).mem = s.mem)

/-- Branches compare the full registers and go to PC + 8 × OFFSET, or on; jal and jalr link the instruction after them
(R43, R132, R153, R154). beq, bne, blt, bge (signed), bltn and bgen (unsigned) compare all 64 bits of SA and SB;
taken, the pc becomes pc + 8 × OFFSET, else the instruction after; nothing else of the stream's registers changes.
OFFSET 0 branches to itself. jal writes pc + 8 to SD and goes to pc + 8 × OFFSET. jalr takes its target from SA before
it writes the link, so SD may be SA; with the target a multiple of 8 it writes pc + 8 to SD and goes there, else it
takes ALIGN at its own address with the target as TADDR and no link written. With SD = s0 nothing is linked. -/
def Obligations.BranchesAndJumps : Prop :=
  ∀ (sd sa sb : SReg) (off imm : BitVec 32) (s : State),
    let a := s.rd sa
    let b := s.rd sb
    let t := a + imm.signExtend 64
    let go (c : Prop) [Decidable c] : Out := .next (s.goto (if c then s.front.pc + 8 * off.signExtend 64 else s.front.pc + 8))
    exec (.beq sa sb off) s = go (a = b) ∧
    exec (.bne sa sb off) s = go (a ≠ b) ∧
    exec (.blt sa sb off) s = go (a.toInt < b.toInt) ∧
    exec (.bge sa sb off) s = go (b.toInt ≤ a.toInt) ∧
    exec (.bltn sa sb off) s = go (a.toNat < b.toNat) ∧
    exec (.bgen sa sb off) s = go (b.toNat ≤ a.toNat) ∧
    exec (.jal sd off) s = .next ((s.wr sd (s.front.pc + 8)).goto (s.front.pc + 8 * off.signExtend 64)) ∧
    (t.extractLsb' 0 3 = 0 → exec (.jalr sd sa imm) s = .next ((s.wr sd (s.front.pc + 8)).goto t)) ∧
    (t.extractLsb' 0 3 ≠ 0 → exec (.jalr sd sa imm) s =
      .next (stopTrap s { cause := 0x06, int := false, tinfo := 0, elem := 0, addr := t } s.front.pc)) ∧
    (∀ x, (s.goto x).front.pc = x ∧ (s.goto x).front.s = s.front.s ∧ (s.goto x).front.w = s.front.w ∧ (s.goto x).front.csr = s.front.csr ∧
      (s.goto x).mem = s.mem)

/-- csrr, csrw, csrs and csrc put the old value in SD and write the new one (R67, R99, R155, R330, R384). Where the
register may be named in the stream's mode, no load is awaited, and for FFLAGS and RACE the floor has reached the ISN,
csrr puts the register into SD; csrw also writes SA to it, csrs sets and csrc clears the bits of SA; all go on. csrs
and csrc with SA = s0 only read (the model's reading, log entry 20); SD = s0 is written nothing. -/
def Obligations.CsrInstructions : Prop :=
  ∀ (sd sa : SReg) (n : BitVec 12) (s : State),
    s.front.csr.mode = true ∨ (csrSupervisor n.toNat = false ∧ n ≠ 0x004) →
    loadsOut s.front = 0 → (n = 0x042 ∨ n = 0x050 → floorMet s = true) →
    let old := csrRead s n
    exec (.csrr sd n) s = .next ((s.wr sd old).done) ∧
    exec (.csrw sd sa n) s = .next (((csrWrite s n (s.rd sa)).wr sd old).done) ∧
    (sa ≠ 0 → exec (.csrs sd sa n) s = .next (((csrWrite s n (old ||| s.rd sa)).wr sd old).done)) ∧
    (sa ≠ 0 → exec (.csrc sd sa n) s = .next (((csrWrite s n (old &&& ~~~ s.rd sa)).wr sd old).done)) ∧
    exec (.csrs sd 0 n) s = .next ((s.wr sd old).done) ∧ exec (.csrc sd 0 n) s = .next ((s.wr sd old).done)

/-- What a control register reads after a write: its writable bits, its range rules, and nothing of the others (R96, R97,
R98, R116, R168, R190, R249, R328, R330, R382, R399, R435). After a write of v: VPAD, ESTART, CTAG, WDIRTY, WPRES,
SEED, TPC to TADDR, TVEC, TCTX, WPCTL and WPB0 to WPM7 read v in their writable bits and zero elsewhere; VL keeps its
value for more than 65,536, VBLK for a length other than 1, 16, 32, 64, 128, VFMT for a reserved format, SKEW outside
1 to 64 and SHARE for zero; RNDS keeps RM for 6 and 7; FFLAGS keeps only the flags that v keeps; TINFO keeps DISC only
if v does; MODE and the pending bits of TCAUSE, PRIO, RACE.SLOT and RACE.IVL and the read-only registers ISN, FLOOR,
SID, DOM, GRPS, CNT, LOGC and STALLP are as before. Every other register reads as before, but for STALLP after a write
of STALLC. -/
def Obligations.CsrWriteThenRead : Prop :=
  ∀ (s : State) (v : Word),
    let r (n : BitVec 12) : Word := csrRead (csrWrite s n v) n
    r 0x003 = v &&& 0x7F ∧ r 0x004 = v &&& 0xFFFFFFFF ∧ r 0x020 = v &&& 0xFFFF ∧
    r 0x030 = v &&& 0xFFFFFFFE ∧ r 0x031 = v &&& 0xFFFFFFFE ∧ r 0x041 = v ∧
    r 0x061 = v ∧ r 0x062 = v &&& 0xFFFFFFFFFFFF ∧ r 0x063 = v &&& 0xFFFFFFFF ∧ r 0x064 = v ∧
    r 0x066 = v &&& 0xFFFFFFFFFFFFF8 ∧ r 0x067 = v ∧ r 0x070 = v &&& 0xFFFFFF ∧
    (∀ k : Fin 8, r (BitVec.ofNat 12 (0x080 + k.val)) = v &&& 0xFFFFFFFFFFFFFF ∧
      r (BitVec.ofNat 12 (0x088 + k.val)) = v &&& 0xFF0FFF) ∧
    r 0x000 = (if (v &&& 0x1FFFF) ≤ 65536 then v &&& 0x1FFFF else csrRead s 0x000) ∧
    r 0x001 = (if (v &&& 0x1F) ≤ 0x12 then v &&& 0x1F else csrRead s 0x001) ∧
    r 0x002 = (if (v &&& 0xFF) ∈ ([1, 16, 32, 64, 128] : List Word) then v &&& 0xFF else csrRead s 0x002) ∧
    r 0x007 = (if 1 ≤ (v &&& 0x7F) ∧ (v &&& 0x7F) ≤ 64 then v &&& 0x7F else csrRead s 0x007) ∧
    r 0x010 = (csrRead s 0x010 &&& 0x700) ||| (if v &&& 0xFF = 0 then csrRead s 0x010 &&& 0xFF else v &&& 0xFF) ∧
    r 0x040 = (v &&& 8) ||| (if v &&& 7 < 6 then v &&& 7 else csrRead s 0x040 &&& 7) ∧
    r 0x042 = csrRead s 0x042 &&& v ∧
    r 0x050 = (csrRead s 0x050 &&& (0xFFFFFF00 ||| (v &&& 2))) ||| (v &&& 0xFFFF00000001) ∧
    r 0x060 = (csrRead s 0x060 &&& 0x310000) ||| (v &&& 0xE01FF) ∧
    r 0x065 = (v &&& 0x7FFFFFFFFFFFFFFF) ||| (csrRead s 0x065 &&& v &&& 0x8000000000000000) ∧
    r 0x090 = v &&& 0x7F03 ∧
    (∀ n ∈ ([0x005, 0x006, 0x011, 0x012, 0x013, 0x021, 0x051, 0x091] : List (BitVec 12)), r n = csrRead s n) ∧
    (∀ n m : BitVec 12, m ≠ n → (n = 0x090 → m ≠ 0x091) → csrRead (csrWrite s n v) m = csrRead s m)

/-- wait goes on when the four counts are within its operand, and holds the front unchanged until then (R58, R156, R248).
With at most l loads and atomics, s stores, c copy commands and m matrix operations outstanding, for the four fields
of IMM32, wait goes on and changes nothing but the pc; else the state is unchanged and the pc stays at the wait. -/
def Obligations.WaitGoesOnWhenCountsFall : Prop :=
  ∀ (imm : BitVec 32) (s : State),
    let met := loadsOut s.front ≤ imm.toNat % 2 ^ 8 ∧ storesOut s.front ≤ imm.toNat / 2 ^ 8 % 2 ^ 8 ∧
      s.front.cmds.length ≤ imm.toNat / 2 ^ 16 % 2 ^ 10 ∧ matOut s ≤ imm.toNat / 2 ^ 26
    (met → exec (.wait imm) s = .next s.done) ∧ (¬ met → exec (.wait imm) s = .next s)

/-- halt waits for all of the stream's work, then retires it and leaves nothing of it behind (R122, R157, R189, R341).
While the floor is below the ISN, or a scalar access, command or broadcast is outstanding, halt changes nothing. Once
none is, and with no accumulation window declared and no group joined, it retires the stream: the front holds no
stream any more, no waiter, monitor, migration under way for it, shelf entry, plane slot, message or residual of that
SID is left, and, with no message under way, no log and no launch whose record waits, memory is what performing each
of its residuals once at its home leaves. (Log entry 3: the wait leaves the pc at the halt.) -/
def Obligations.HaltRetiresStream : Prop :=
  ∀ s : State,
    (allDone s = false → exec .halt s = .next s) ∧
    (allDone s = true → s.front.decls = [] → myGroups s.front = [] → ∃ t, exec .halt s = .next t ∧
      t.front = Front.idle ∧ (∀ w ∈ t.waiters, w.sid ≠ s.front.sid) ∧ (∀ m ∈ t.monitors, m.sid ≠ s.front.sid) ∧
      (∀ m ∈ t.migrating, m.stack = none → m.sid ≠ s.front.sid) ∧ (∀ m ∈ t.msgs ++ t.homeQ, m.sid ≠ s.front.sid) ∧ (∀ e ∈ t.shelves, e.sid ≠ s.front.sid) ∧
      (∀ p ∈ t.slots, p.1 ≠ s.front.sid) ∧ (∀ x ∈ t.residuals, x.sid ≠ s.front.sid) ∧
      (s.msgs = [] → s.homeQ = [] → s.front.logMode = 0 → (∀ l ∈ s.launches, l.sid0 ≠ s.front.launch) →
        t.mem = ((s.residuals.filter (fun x => x.sid == s.front.sid)).reverse.foldl (fun u x => performMsg u x.msg)
          { s with residuals := s.residuals.filter (fun x => x.sid != s.front.sid) }).mem))

/-- wset, wget and wcpy write and read whole descriptors; w0 and absent windows trap (R7, R159, R165, R167). wset writes
SB : SA with reserved bits zero and sets the window's present and dirty bits; wget reads either half of a present
window; wcpy copies a present one; all go on, and another window, with its present and dirty bits, is as before.
Naming w0 takes ILLEGAL_OPERAND and reading an absent window WINDOW_ABSENT, with nothing else done. -/
def Obligations.WindowInstructions : Prop :=
  ∀ (wd wa w : WReg) (sd sa sb : SReg) (hi : Bool) (s : State),
    let reserved : Desc := 0xFFF00000000000008000000000000000
    let written (d : Desc) (t : State) : Prop :=
      t.rdW wd = d &&& ~~~reserved ∧ (∀ r, t.rd r = s.rd r) ∧ t.front.pc = s.front.pc + 8 ∧ t.mem = s.mem ∧
      (∀ k, t.front.csr.wpres.getLsbD k = (s.front.csr.wpres.getLsbD k || k == wd.toNat)) ∧
      (∀ k, t.front.csr.wdirty.getLsbD k = (s.front.csr.wdirty.getLsbD k || k == wd.toNat)) ∧
      (w ≠ wd → t.rdW w = s.rdW w)
    (wd ≠ 0 → ∃ t, exec (.wset wd sa sb) s = .next t ∧ written (s.rd sb ++ s.rd sa) t) ∧
    (wd ≠ 0 → wa ≠ 0 → wpresent s wa = true → ∃ t, exec (.wcpy wd wa) s = .next t ∧ written (s.rdW wa) t) ∧
    (wa ≠ 0 → wpresent s wa = true → exec (.wget sd wa hi) s =
      .next ((s.wr sd (if hi then (s.rdW wa).extractLsb' 64 64 else (s.rdW wa).extractLsb' 0 64)).done)) ∧
    exec (.wset 0 sa sb) s = .next (stopTrap s (operandTrap 0) s.front.pc) ∧
    exec (.wcpy 0 wa) s = .next (stopTrap s (operandTrap 0) s.front.pc) ∧
    exec (.wget sd 0 hi) s = .next (stopTrap s (operandTrap 0) s.front.pc) ∧
    (wa ≠ 0 → wpresent s wa = false → exec (.wget sd wa hi) s = .next (stopTrap s (mkTrap causeWindowAbsent wa.toNat) s.front.pc)) ∧
    (wd ≠ 0 → wa ≠ 0 → wpresent s wa = false → exec (.wcpy wd wa) s = .next (stopTrap s (mkTrap causeWindowAbsent wa.toNat) s.front.pc))

/-- setvl grants a consistent strip, at most the request and at least one real element of it (R168, R169, R170). setvl
goes on with VFMT and VBLK those of its operands; VL and VPAD are 0 and 0 for a request of 0, the block and the block
less the request below one block, else the request cut to 65,536 and to whole blocks, with no pad; SD holds VL - VPAD,
the real elements. The strip state is then consistent: VL is at most 65,536 and a multiple of the block, the pad is
below the block and not zero only in a single block. Windows, memory and the other registers are as before. -/
def Obligations.SetvlGrants : Prop :=
  ∀ (sd sa : SReg) (fmt : Fmt) (blk : Blk) (s : State), ∃ t, exec (.setvl sd sa fmt blk) s = .next t ∧
    let r := (s.rd sa).toNat
    let b := Blk.len blk
    let vl := t.front.csr.vl.toNat
    let pad := t.front.csr.vpad.toNat
    vl = (if r = 0 then 0 else if r < b then b else min r 65536 / b * b) ∧
    pad = (if 0 < r ∧ r < b then b - r else 0) ∧
    (t.rd sd).toNat = (if sd = 0 then 0 else vl - pad) ∧ vl - pad ≤ r ∧ (0 < r → 0 < vl - pad) ∧
    vl ≤ 65536 ∧ vl % b = 0 ∧ pad < b ∧ (pad ≠ 0 → vl = b) ∧
    t.front.csr.vfmt = fmt.code ∧ t.front.csr.vblk.toNat = b ∧
    (∀ q, q ≠ sd → t.rd q = s.rd q) ∧ t.front.w = s.front.w ∧ t.mem = s.mem ∧ t.front.pc = s.front.pc + 8

/-- strip advances the named windows by the real elements, counts down SA and regrants (R172, R173, R174). Where every
window that SB names is present and, in mode 0, has a format that leaves no partial byte, strip advances BASE of each,
modulo 2^56, by the real elements' size (mode 0) or that many strides (mode 1), in modes 2 and 3 not at all, marks it
present and dirty, takes the real elements from SA down to zero, and, while some remain, grants the next strip with
the same block and branches; else it goes on with VL and VPAD as they were. No other window, scalar register or byte
of memory changes. (Register writes can leave VPAD above VL: that no element is then real is the model's choice, log
entry 72.) -/
def Obligations.StripAdvances : Prop :=
  ∀ (sa sb : SReg) (off : BitVec 32) (s : State),
    let real := s.front.csr.vl.toNat - s.front.csr.vpad.toNat
    let named (k : WReg) : Bool := k != 0 && (s.rd sb).getLsbD k.toNat
    let size (d : Desc) : Nat := ((Desc.fmt d).map Fmt.bits).getD 0
    let rem := (s.rd sa).toNat - real
    (∀ k, named k = true → wpresent s k = true ∧
      (Desc.mode (s.rdW k) = 0 → (Desc.fmt (s.rdW k)).isSome ∧ real * size (s.rdW k) % 8 = 0)) →
    ∃ t, exec (.strip sa sb off) s = .next t ∧
      (∀ k, t.rdW k = (if named k then Desc.clean (Desc.setBase (s.rdW k)
        (if Desc.mode (s.rdW k) = 0 then (Desc.base (s.rdW k) + real * size (s.rdW k) / 8) % 2 ^ 56
         else if Desc.mode (s.rdW k) = 1 then (((Desc.base (s.rdW k) : Int) + real * Desc.stride (s.rdW k)) % 2 ^ 56).toNat
         else Desc.base (s.rdW k))) else s.rdW k)) ∧
      (∀ k : WReg, named k = true → wpresent t k = true ∧ t.front.csr.wdirty.getLsbD k.toNat = true) ∧
      (t.rd sa).toNat = (if sa = 0 then 0 else rem) ∧ (∀ q, q ≠ sa → t.rd q = s.rd q) ∧ t.mem = s.mem ∧
      (rem = 0 → t.front.pc = s.front.pc + 8 ∧ t.front.csr.vl = s.front.csr.vl ∧ t.front.csr.vpad = s.front.csr.vpad) ∧
      (rem ≠ 0 → t.front.pc = s.front.pc + 8 * off.signExtend 64 ∧
        (t.front.csr.vl.toNat, t.front.csr.vpad.toNat) = grant rem s.front.csr.vblk.toNat)

/-- ownq gives the bank that owns an address under a map; an undefined map traps (R180, R202). For a map m that the domain
defines, with a stripe table of banks of the domain, ownq puts into SD the entry j of the table that owns SA under it,
as 64 × DOM.BASE + j in bits 28:16 and j in bits 15:0, and goes on; the entry is that of the granule of SA counted
from ORIGIN, modulo the table's length. For a map the domain does not define it takes ILLEGAL_OPERAND with code 5. -/
def Obligations.OwnqNamesTheOwner : Prop :=
  ∀ (sd sa : SReg) (map : BitVec 4) (s : State),
    (∀ m : OwnMap, mapOf s.front map.toNat = some m →
      let g : Nat := if m.gran = 0xFF then 12 else m.gran.toNat
      let j := (m.stripe.getD (((s.rd sa - m.origin).toInt / 2 ^ g % (m.stripe.length : Int)).toNat) 0).toNat
      exec (.ownq sd sa map) s =
        .next ((s.wr sd (BitVec.ofNat 64 ((64 * s.front.domBase.toNat + j) * 2 ^ 16 + j))).done)) ∧
    (mapOf s.front map.toNat = none → exec (.ownq sd sa map) s = .next (stopTrap s (operandTrap 5) s.front.pc))

/-- ld reads its bytes as of its stamp, extends them, and changes no register but SD and no byte of memory (R138, R139,
R149, R150, R152, R405). For a stream with no earlier work under way, whose address is aligned, translates, is
readable, unwatched and unchecked for races, ld of every width, plain or acquiring, goes on with SD the little-endian
number of its bytes as of the stream's stamp, sign-extended for an i format and zero-extended for an n format (nothing
for s0). Every other register, the windows, the control registers and memory are as the translation left them. While
the class to the peer of its address is not open, the load waits. -/
def Obligations.LoadsReadMemory : Prop :=
  ∀ (sg : Bool) (ord : MemOrder) (sc : Scope) (w : Width) (sd sa : SReg) (off : BitVec 32) (s s1 : State) (pl : Place) (ks : List Key),
    let va := (s.rd sa + off.signExtend 64).toNat
    let n := Width.bits w / 8
    Quiet s → Reaches s va n .read pl ks s1 →
    (¬ PeersOpen s1 ks → exec (.ld sg ord sc w sd sa off) s = .next s1) ∧
    (PeersOpen s1 ks → ∃ t, exec (.ld sg ord sc w sd sa off) s = .next t ∧
      (let x : BitVec (8 * n) := BitVec.ofNat (8 * n) (bytesNat (ks.map (byteAt s1 s1.stamp)))
       t.rd sd = if sd = 0 then 0 else if sg then x.signExtend 64 else x.setWidth 64) ∧
      (∀ r, r ≠ sd → t.rd r = s.rd r) ∧ t.front.w = s.front.w ∧ t.front.csr = s.front.csr ∧
      t.mem = s1.mem ∧ t.shelves = s1.shelves ∧ t.front.pc = s.front.pc + 8)

/-- st writes the low bytes of its register at its address and no other byte; a release first delivers residuals (R138,
R139, R149, R150, R329, R333, R405). Under the same conditions, st of every width writes the low bytes of SB at the
bytes that the translated address names and leaves every other byte, every scalar register and every window as they
were; a releasing store, which waits for every earlier access and shared command, first delivers the stream's
residuals that its scope covers and begins the next interval after it. The bytes that it stores to are those the
translation of its address gives. While the class to the peer of its address is not open, the store waits. -/
def Obligations.StoresWriteMemory : Prop :=
  ∀ (ord : MemOrder) (sc : Scope) (w : Width) (sb sa : SReg) (off : BitVec 32) (s s1 : State) (pl : Place) (ks : List Key),
    let va := (s.rd sa + off.signExtend 64).toNat
    let n := Width.bits w / 8
    let s2 := if ord = .rel then deliverResiduals s1 (scopeMem s1.front sc (ownerOf s1 (ks.headD 0)).toList) else s1
    Quiet s → Reaches s va n .write pl ks s1 →
    (¬ PeersOpen s1 ks → exec (.st ord sc w sb sa off) s = .next s1) ∧
    (PeersOpen s1 ks → Canonical s2 → unreadable s2 ks = false → raced s2.front.race pl = false →
    ∃ t, exec (.st ord sc w sb sa off) s = .next t ∧
      t.mem.gets ks = wordBytes n (s.rd sb).toNat ∧ (∀ k, k ∉ ks → t.mem.get k = s2.mem.get k) ∧
      (∀ r, t.rd r = s.rd r) ∧ t.front.w = s.front.w ∧
      t.front.csr = (if ord = .rel then s2.nextInterval else s2).front.csr ∧ t.front.pc = s.front.pc + 8)

/-- samo and scas return the old value and write the new one, and no other byte (R138, R151, R349, R405). Under the same
conditions, on a page whose atomic place accepts the operation and a sector that no version shelf holds back, each
scalar atomic of 4 or 8 bytes, with old value x and operand y the low bits of SB, goes on with SD the old value,
extended by SG, and the place holding x + y (wrapping), x and y, x or y, x xor y, the signed or unsigned lesser or
greater of x and y, y for swap, and for scas y where x equals the low bits of SD and else x. No other byte of memory,
scalar register or window changes. A releasing form first delivers the residuals of its scope. While the class to the
peer of its address is not open, the atomic waits. -/
def Obligations.AtomicsAtTheirPlace : Prop :=
  ∀ (o : AtomOp) (a : AtomArgs) (s s1 : State) (pl : Place) (ks : List Key),
    let va := (s.rd a.sa + a.off.signExtend 64).toNat
    let n := Width.bits a.w / 8
    let s2 := if a.ord = .rel then deliverResiduals s1 (scopeMem s1.front a.sc (ownerOf s1 (ks.headD 0)).toList) else s1
    let x : BitVec (8 * n) := BitVec.ofNat (8 * n) (bytesNat (s2.mem.gets ks))
    let y : BitVec (8 * n) := (s.rd a.sb).setWidth (8 * n)
    let new : BitVec (8 * n) := match o with
      | .add => x + y
      | .and_ => x &&& y
      | .or_ => x ||| y
      | .xor_ => x ^^^ y
      | .min_ => if x.slt y then x else y
      | .max_ => if x.slt y then y else x
      | .minn => if x.ult y then x else y
      | .maxn => if x.ult y then y else x
      | .swap => y
      | .cas => if x = (s.rd a.sd).setWidth (8 * n) then y else x
    let i : Instr := match o with
      | .add => .samoAdd a
      | .and_ => .samoAnd a
      | .or_ => .samoOr a
      | .xor_ => .samoXor a
      | .min_ => .samoMin a
      | .max_ => .samoMax a
      | .minn => .samoMinn a
      | .maxn => .samoMaxn a
      | .swap => .samoSwap a
      | .cas => .scas a
    (a.w = .w64 ∨ a.w = .w32) → Quiet s → Reaches s va n .both pl ks s1 → atomPlaceOk o pl = true →
    (¬ PeersOpen s1 ks → exec i s = .next s1) ∧
    (PeersOpen s1 ks → Canonical s2 → unreadable s2 ks = false → atomBlocked s2 s2.stamp (ks.headD 0) = false →
    ∃ t, exec i s = .next t ∧
      t.rd a.sd = (if a.sd = 0 then 0 else if a.sg then x.signExtend 64 else x.setWidth 64) ∧
      t.mem.gets ks = wordBytes n new.toNat ∧ (∀ k, k ∉ ks → t.mem.get k = s2.mem.get k) ∧
      (∀ r, r ≠ a.sd → t.rd r = s.rd r) ∧ t.front.w = s.front.w ∧ t.front.pc = s.front.pc + 8)

/-- A misaligned scalar access takes ALIGN before anything else; a failed translation its own fault (R149, R151, R152).
ld, st and every scalar atomic at an address that is no multiple of their size take ALIGN with TADDR the address,
TINFO 0, at their own pc, whatever else is wrong with it; at an aligned address whose translation for the access traps
they take that trap at their own pc, with the state that the translation left. In neither case is anything loaded or
stored. -/
def Obligations.ScalarAccessFaults : Prop :=
  ∀ (sg : Bool) (ord : MemOrder) (sc : Scope) (w : Width) (sd sa sb : SReg) (off : BitVec 32) (s : State),
    let a : AtomArgs := { sg := sg, ord := ord, sc := sc, w := w, sd := sd, sa := sa, sb := sb, off := off }
    let va := (s.rd sa + off.signExtend 64).toNat
    let n := Width.bits w / 8
    let forms : List (Perm × Instr) := [(.read, .ld sg ord sc w sd sa off), (.write, .st ord sc w sb sa off),
      (.both, .scas a), (.both, .samoAdd a), (.both, .samoAnd a), (.both, .samoOr a), (.both, .samoXor a), (.both, .samoMin a),
      (.both, .samoMax a), (.both, .samoMinn a), (.both, .samoMaxn a), (.both, .samoSwap a)]
    ∀ f ∈ forms,
      (va % n ≠ 0 → exec f.2 s = .next (stopTrap s { cause := 0x06, int := false, tinfo := 0, elem := 0, addr := BitVec.ofNat 64 va } s.front.pc)) ∧
      (va % n = 0 → ∀ t s1, M.exec (xlate (seqAgent s.front) va f.1 0) s = (.error (.trap t), s1) →
        exec f.2 s = .next (stopTrap s1 t s1.front.pc))

/-- An address translates by the walk of its tables, with its permissions, and sets A and D in the leaf (R152, R278, R280,
R295, R297, R298, R299, R300, R301, R302, R311). For an address below 2^56 with no TLB entry, whose walk from the
stream's root finds the leaf e at place k: in user mode without the U bit, or without the permission, the translation
takes XLATE_PERM at the address; else the page is the leaf's and the leaf's A bit is set, with D for a write, in
memory and in every pre-image of it. Nothing else changes, but that the walk's reads wake the sub-banks and channels
they reach, rows that they touch are no longer a hint's, and a watched block notes the write. An address of 2^56 or
more takes XLATE_MISSING; a walk that ends at an invalid or malformed entry takes XLATE_MISSING with the level. While
a migration holds new walks of the page, an agent of the device waits and nothing changes. (That the host's walks go
on meanwhile is the model's inference, log entry 17.) -/
def Obligations.TranslationByTables : Prop :=
  ∀ (agent va elem : Nat) (p : Perm) (s : State) (e : Nat) (k : Key) (base bits : Nat),
    let writes := p = .write ∨ p = .both
    let allowed := (s.front.csr.mode = true ∨ e.testBit 6 = true) ∧
      (p = .read ∨ p = .both → e.testBit 3 = true) ∧ (writes → e.testBit 4 = true) ∧ (p = .exec → e.testBit 5 = true)
    let u := s.walked va
    (2 ^ 56 ≤ va → M.exec (xlate agent va p elem) s = (.error (.trap (mkTrap causeXlateMissing 0 elem va)), s)) ∧
    (∃ dr sl rw, u = { s with drowsy := dr, asleep := sl, rows := rw } ∧ (∀ x ∈ dr, x ∈ s.drowsy) ∧ (∀ x ∈ sl, x ∈ s.asleep) ∧
      rw.map (fun x => (x.pc, x.bank, x.row)) = s.rows.map (fun x => (x.pc, x.bank, x.row))) ∧
    (va < 2 ^ 56 → tlbHit s agent s.front.asid va = none → agent < hostAgent → pageHeld s s.front.asid va = true →
      M.exec (xlate agent va p elem) s = (.error .wait, s)) ∧
    (va < 2 ^ 56 → tlbHit s agent s.front.asid va = none → (hostAgent ≤ agent ∨ pageHeld s s.front.asid va = false) →
      (∀ info, walk s s.front.root s.front.rclass va = .missing info →
        M.exec (xlate agent va p elem) s = (.error (.trap (mkTrap causeXlateMissing info elem va)), u)) ∧
      (walk s s.front.root s.front.rclass va = .leaf e k base bits →
        (¬ allowed → M.exec (xlate agent va p elem) s = (.error (.trap (mkTrap causeXlatePerm 0 elem va)), u)) ∧
        (allowed → ∃ t, M.exec (xlate agent va p elem) s = (.ok { leaf := e, leafAt := k, base := base, bits := bits }, t) ∧
          (t = u ∨ ∃ sh mo, sh.map (fun x => (x.own, x.sid, x.sector, x.isn)) = s.shelves.map (fun x => (x.own, x.sid, x.sector, x.isn)) ∧
            mo.map (fun x => (x.sid, x.keys)) = s.monitors.map (fun x => (x.sid, x.keys)) ∧
            t = { u with mem := s.mem.putNum k 8 (s.mem.num k 8 ||| (if p = .write ∨ p = .both then 0x180 else 0x80)), shelves := sh, monitors := mo }) ∧
          (Canonical s → (t.mem.num k 8).testBit 7 = true ∧ ((p = .write ∨ p = .both) → (t.mem.num k 8).testBit 8 = true)))))

/-- A byte written is the byte then read, every other byte is as before, and memory keeps its canonical form (R1). For
memory in canonical form, at every key: reading the key written gives the byte, reading another gives what it gave;
the canonical form is kept, so that equal memories are equal lists; a number of n bytes written little-endian reads
back as itself modulo 2^(8n). (The canonical form is the model's own.) -/
def Obligations.MemoryReadAfterWrite : Prop :=
  ∀ (m : Memory) (k j n v : Nat) (b : Byte), m.wf = true →
    (m.set k b).get k = b ∧ (j ≠ k → (m.set k b).get j = m.get j) ∧ (m.set k b).wf = true ∧
    (m.putNum k n v).num k n = v % 2 ^ (8 * n) ∧ (m.putNum k n v).wf = true ∧
    (j < k ∨ k + n ≤ j → (m.putNum k n v).get j = m.get j)

/-- A broadcast whose elements are all performed completes: its ISN is the floor, its flags are in FFLAGS, its result in
its register (R99, R187, R189, R191, R224, R258). In lockstep, a broadcast other than a bank-condition branch that
passes the checks of the front and need not wait takes the next ISN with the state it carries; if the owners then
perform every one of its elements without a stop, with no accumulate unanswered and no element atomic failed, exec
answers the state they leave with FLOOR at its ISN, the flags its elements and its tree raised added to FFLAGS, a
reduction's value in its scalar register (nothing for s0 or another instruction), the plane records as the instruction
leaves them, and nothing else changed: memory is what the elements left. The broadcasts are vadd, vsub, vmul, vfma,
vfms, vfnma, vmin, vmax, vabs, vneg, vrcp, vrsq, vexp2, vlog2, vand, vor, vxor, vnot, vsll, vsrl, vsra, vceq, vcne,
vclt, vcle, vsel, vmov, vfill, viota, vredAdd, vredMax, vredMin, vscanAdd, vscanMax, vscanMin, vgather, vscatter,
vcompact, vexpand, lanex, vcvt, vacc, vamoAdd, vamoAnd, vamoOr, vamoXor, vamoMin, vamoMax, vamoMinn, vamoMaxn,
vamoSwap, adecl, amerge, mload, mswap, mma, mrecast and minval. (The pace is the model's, log entry 3.) -/
def Obligations.BroadcastsComplete : Prop :=
  ∀ (i : Instr) (info : BInfo) (s s2 : State) (b2 : Bcast),
    infoOf i = some info → isCondWord (wordOf i) = false → s.pace = .lockstep →
    issueFault info s = none → issueReady i info s = true →
    let s0 := beforeIssue i info s
    let b := newB i info s0
    let s1 := takeIsn b s0
    performB { s1 with front := { s1.front with bcasts := s1.front.bcasts ++ [b] } } b info.body = (s2, b2, none) →
    s2.msgs.any (fun m => m.sid == s2.front.sid) = false → s2.front.late = none →
    ∃ t, exec i s = .next t ∧ b2.isn = s0.isn + 1 ∧
      t.front.csr = { s2.front.csr with
        floor := BitVec.ofNat 48 b2.isn
        fflags := s2.front.csr.fflags ||| b2.flags ||| (info.body.root s2.front.sid b2).1 } ∧
      (∀ r, t.rd r = if r ≠ 0 ∧ info.body.result = some r then (info.body.root s2.front.sid b2).2 else s2.rd r) ∧
      t.mem = s2.mem ∧ t.front.w = s2.front.w ∧ t.front.pc = s2.front.pc ∧
      t.front.planes = info.body.recs b2 s2.front.planes true ∧ (∀ x ∈ t.front.bcasts, x.isn ≠ b2.isn)

/-- Where owners keep their own pace, a broadcast issues with what it carries and the front goes on (R99, R160, R187,
R188). In the pace where the banks run behind the front, a broadcast that is neither fencing nor a matrix instruction,
passes the checks of the front and need not wait, takes ISN + 1, joins the broadcasts under way with its word, its
address and a copy of the windows, strip state, rounding state and scalar operand it uses, and the front goes on to
the next instruction; no scalar register, window, control register but ISN, or byte of memory changes. A broadcast
that must wait changes nothing. (The pace is the model's, log entry 3.) -/
def Obligations.BroadcastsRunAhead : Prop :=
  ∀ (i : Instr) (info : BInfo) (s : State), infoOf i = some info → isCondWord (wordOf i) = false →
    issueFault info s = none →
    (issueReady i info s = false → exec i s = .next s) ∧
    (issueReady i info s = true → s.pace = .runAhead → info.fencing = false → isMatrix i = false →
      ∃ t b, exec i s = .next t ∧ t.front.bcasts = s.front.bcasts ++ [b] ∧
        b.word = wordOf i ∧ b.isn = s.isn + 1 ∧ b.carry = info.carry s ∧ b.pc = s.front.pc ∧ b.flags = 0 ∧ b.leaves = [] ∧
        t.front.csr = { s.front.csr with isn := BitVec.ofNat 48 (s.isn + 1) } ∧ t.front.pc = s.front.pc + 8 ∧
        t.front.s = s.front.s ∧ t.front.w = s.front.w ∧ t.mem = s.mem ∧ t.shelves = s.shelves ∧ t.fronts = s.fronts)

/-- bany, ball and bnone branch on the bits of all real elements, once the owners have read them (R153, R178, R179). In
lockstep, a bank-condition branch that passes the checks of the front takes an ISN; when the owners have read the bits
of its real elements without a stop, the branch is retired, FLOOR is its ISN, and the pc goes to pc + 8 × OFFSET where
any bit is 1 (bany), every bit is 1 (ball) or no bit is 1 (bnone), else it is what the issue left, the instruction
after; memory and the registers are as the reads left them. With no real element bany is not taken and the other two
are. -/
def Obligations.BankConditionBranches : Prop :=
  ∀ (c : Cond) (wa : WReg) (off : BitVec 32) (s s2 : State) (b2 : Bcast),
    let i : Instr := match c with
      | .any => .bany wa off
      | .all => .ball wa off
      | .none_ => .bnone wa off
    let info := infoCond c wa
    s.pace = .lockstep → issueFault info s = none → issueReady i info s = true →
    let b := newB i info s
    let s1 := takeIsn b s
    performB { s1 with front := { s1.front with bcasts := s1.front.bcasts ++ [b] } } b info.body = (s2, b2, none) →
    s2.msgs.any (fun m => m.sid == s2.front.sid) = false → s2.front.late = none →
    let bits := b2.leaves.map (·.2)
    let taken : Prop := match c with
      | .any => ∃ x ∈ bits, x = 1
      | .all => ∀ x ∈ bits, x = 1
      | .none_ => ∀ x ∈ bits, x ≠ 1
    ∃ t, exec i s = .next t ∧ (taken → t.front.pc = s.front.pc + 8 * off.signExtend 64) ∧
      (¬ taken → t.front.pc = s2.front.pc) ∧ t.front.csr.floor = BitVec.ofNat 48 b2.isn ∧ t.mem = s2.mem ∧
      (∀ r, t.rd r = s2.rd r) ∧ (b.carry.real = 0 → b2.leaves = [])

/-- Each vector instruction performs its operation once for each element of its destination (R73, R203, R207, R210, R212,
R219, R220, R221, R222, R225, R228, R283). The elements of vadd to vfnma, vmin, vmax, the unary, logic, shift and
compare instructions, vsel, vmov, vfill, viota, vgather, vscatter, lanex and vcvt to a format that is not block-scaled
are 0 to VL - 1 in order, and element i is the frame of R73 around the operation of that instruction: compares in
bits, all others in the word's format; only vadd, vmul, vfma, vfill and vcvt reach elements in stack memory. A scan
forms the leaf of each real element once, for every restart again, and folds at each of the elements 0 to VL - 1.
vcompact and vexpand do the same with each selector bit, and move at each destination the source element that
compaction and expansion give it, or none. vcvt to a block-scaled format performs the frame of each element 0 to VL -
1 and, for each group that begins below VL, the write of its scale. -/
def Obligations.ElementsOfVectorInstructions : Prop :=
  ∀ (i : Instr) (v : VArgs) (info : BInfo) (e : Eye) (fp : Option (List Range)) (b : Bcast) (s : State), infoOf i = some info →
    let vl := b.carry.vl.toNat
    (∀ (df : Fmt) (sm : Bool) (fn : ElemFn), elementOf i = some (v, df, sm, fn) →
      ∃ items, M.exec (info.body.plan e fp b) s = (.ok items, s) ∧ items.map (·.elem) = List.range vl ∧
        ∀ it ∈ items, it.again = false ∧ it.run = fun b' => frameItem sm (v.wm != 0) (b.carry.win 0) df fn e fp b' it.elem) ∧
    (∀ o : RedOp, scanOf i = some (v, o) →
      ∃ items, M.exec (info.body.plan e fp b) s = (.ok items, s) ∧
        (items.filter (·.again)).map (·.elem) = List.range b.carry.real ∧
        (items.filter (fun it => !it.again)).map (·.elem) = List.range vl ∧
        ∀ it ∈ items, it.run = fun b' => if it.again then scanLeaf o v e b' it.elem
          else frameItem false (v.wm != 0) (b.carry.win 0) v.fmt (fnScan o v) e fp b' it.elem) ∧
    (∀ mv : Moves, movesOf i = some (v, mv) →
      ∃ items, M.exec (info.body.plan e fp b) s = (.ok items, s) ∧
        (items.filter (·.again)).map (·.elem) = List.range b.carry.real ∧
        (items.filter (fun it => !it.again)).map (·.elem) = List.range vl ∧
        ∀ it ∈ items, it.run = fun b' => if it.again then selLeaf e b' it.elem else moveItem v mv e fp b' it.elem) ∧
    (∀ sf : Fmt, i = .vcvt sf v → v.fmt.isS = true →
      let n := Desc.group (b.carry.win 0).d
      ∃ items, M.exec (info.body.plan e fp b) s = (.ok items, s) ∧
        (items.filter (fun it => it.no < vl)).map (·.no) = List.range vl ∧
        (items.filter (fun it => vl ≤ it.no)).map (·.no) = (List.range ((vl + n - 1) / n)).map (vl + ·) ∧
        ∀ it ∈ items, it.run = fun b' => if it.no < vl then frameItem false false (b.carry.win 0) v.fmt (fnCvtBlock sf v) e fp b' it.no
          else scaleItem sf v e fp b' (it.no - vl))

/-- An active element writes its value's bytes at its destination and nothing else, keeping the old sector for pulls; an
inactive one writes nothing (R72, R73, R177, R196, R211). Where the destination of element i lies at the places d, the
element is active and its operation gives x with flags, on an unpacked format whose places are readable, unwatched,
unchecked and with room in the shelf, the item ends with those flags, the places hold the bytes of x, and every other
byte is as the reads, with A and D set for the destination, left it; where R196 asks for a version-shelf entry and
none covers the sector, a read as of the instruction before still sees the sector's old bytes. An element that is
masked off, or a pad element, writes nothing and raises no flag. -/
def Obligations.ElementWritten : Prop :=
  ∀ (sm masked : Bool) (k : Win) (f : Fmt) (fn : ElemFn) (e : Eye) (fp : Option (List Range)) (b : Bcast) (i : Nat)
    (s s1 s2 s3 : State) (d : Dest) (x : Nat) (fl : Flags),
    let e' : Eye := { e with elem := i }
    M.exec (destAddr e' sm b.carry.vl.toNat k f i) s = (.ok d, s1) →
    (M.exec (active e' b.carry masked i) s1 = (.ok false, s2) →
      M.exec (frameItem sm masked k f fn e fp b i) s = (.ok (0, none), s2)) ∧
    (M.exec (active e' b.carry masked i) s1 = (.ok true, s2) →
      M.exec (do markWalks d.walked; fn e' b i) s2 = (.ok (some x, fl), s3) →
      f.packed = false → d.keys.Nodup → Canonical s3 → unreadable s3 d.keys = false → raced e.race d.place = false →
      (watchMask e.watch d.va d.keys.length false true = 0 ∨ isExempt s3 b i = true) →
      (needsShelf s3 fp b.isn d = true → shelfRoom s3 d.keys b.isn = true ∧
        (b.isn = s3.floor + 1 → ∀ o, d.keys.head?.bind (ownerOf s3) = some o →
          shelfUnder s3 o b.isn + (freshAt s3 o d.keys b.isn).length ≤ shelfSize o)) → (d.keys.head?.bind (ownerOf s3)).isSome = true →
      ∃ t, M.exec (frameItem sm masked k f fn e fp b i) s = (.ok (fl, none), t) ∧
        t.mem.gets d.keys = wordBytes d.keys.length x ∧ (∀ q, q ∉ d.keys → t.mem.get q = s3.mem.get q) ∧
        (needsShelf s3 fp b.isn d = true → 0 < b.isn → ∀ q ∈ d.keys, (ownerOf s3 (32 * (q / 32))).isSome = true →
          s3.shelves.all (fun r => r.sid != s3.front.sid || r.sector != q / 32) = true →
          byteAt t (b.isn - 1) q = s3.mem.get q))

/-- Integer elements: exact results wrapped or clamped, minima, compares, shifts (R94, R212, R214, R215, R216, R217). For
every integer format of width n, signed or unsigned, and all codes x, y, z: the six arithmetic operations give the
exact integer result modulo 2^n, or clamped to the format's range under SAT, with no flag; vabs and vneg likewise;
vmin and vmax give the lesser and greater operand; the compares hold as the integers do; the shifts move x by y modulo
n, vsra copying the top bit in either kind of format. -/
def Obligations.IntegerElements : Prop :=
  ∀ (f : Fmt) (r : Rnd) (x y z : BitVec f.bits) (ftz : Bool), f.isIN = true →
    let val (a : BitVec f.bits) : Int := if f.isI then a.toInt else (a.toNat : Int)
    let lo : Int := if f.isI then -2 ^ (f.bits - 1) else 0
    let hi : Int := if f.isI then 2 ^ (f.bits - 1) - 1 else 2 ^ f.bits - 1
    let fit (i : Int) : Nat × Flags := ((BitVec.ofInt f.bits (if r.sat then max lo (min hi i) else i)).toNat, 0)
    let sh := y.toNat % f.bits
    arith .add f r x.toNat y.toNat z.toNat = fit (val x + val y) ∧
    arith .sub f r x.toNat y.toNat z.toNat = fit (val x - val y) ∧
    arith .mul f r x.toNat y.toNat z.toNat = fit (val x * val y) ∧
    arith .fma f r x.toNat y.toNat z.toNat = fit (val x * val y + val z) ∧
    arith .fms f r x.toNat y.toNat z.toNat = fit (val x * val y - val z) ∧
    arith .fnma f r x.toNat y.toNat z.toNat = fit (val z - val x * val y) ∧
    (f.isI = true → unaryElem .abs f r x.toNat = fit |val x| ∧ unaryElem .neg f r x.toNat = fit (- val x)) ∧
    minMax f ftz false x.toNat y.toNat = (if val x < val y then x.toNat else y.toNat, 0) ∧
    minMax f ftz true x.toNat y.toNat = (if val x < val y then y.toNat else x.toNat, 0) ∧
    compareCodes .eq f ftz x.toNat y.toNat = (decide (x = y), 0) ∧
    compareCodes .ne f ftz x.toNat y.toNat = (decide (x ≠ y), 0) ∧
    compareCodes .lt f ftz x.toNat y.toNat = (decide (val x < val y), 0) ∧
    compareCodes .le f ftz x.toNat y.toNat = (decide (val x ≤ val y), 0) ∧
    shiftCode .sll f.bits x.toNat y.toNat = (x <<< sh).toNat ∧
    shiftCode .srl f.bits x.toNat y.toNat = (x >>> sh).toNat ∧
    shiftCode .sra f.bits x.toNat y.toNat = (x.sshiftRight sh).toNat

/-- Each rounding mode rounds an exact dyadic value as its name says, and reports whether it changed (R53, R91, R93). For
the exact value v, a signed multiple of a power of two in units of the result's last place, the rounded integer w is:
for rne the nearest, ties to even; for rna the nearest, ties away from zero; for rtz the integer part; for rdn the
floor; for rup the ceiling; for rsr the neighbour above when the 32 random bits are below the fraction in units of
2^-32, else the one below. Inexact is reported exactly when w differs from v. -/
def Obligations.RoundingModes : Prop :=
  ∀ (r : Rnd) (neg : Bool) (m : Nat) (e q : Int),
    let n := (roundAt r neg m e false q).1
    let v : ℚ := (if neg then -1 else 1) * m * 2 ^ (e - q)
    let w : ℤ := if neg then -(n : ℤ) else n
    ((roundAt r neg m e false q).2 = true ↔ (w : ℚ) ≠ v) ∧
    (r.rm = .rne → |(w : ℚ) - v| ≤ 1 / 2 ∧ (|(w : ℚ) - v| = 1 / 2 → w % 2 = 0)) ∧
    (r.rm = .rna → |(w : ℚ) - v| ≤ 1 / 2 ∧ (|(w : ℚ) - v| = 1 / 2 → |v| < |(w : ℚ)|)) ∧
    (r.rm = .rtz → |(w : ℚ)| ≤ |v| ∧ |v| - |(w : ℚ)| < 1) ∧
    (r.rm = .rdn → w = ⌊v⌋) ∧ (r.rm = .rup → w = ⌈v⌉) ∧
    (r.rm = .rsr → r.rbits < 2 ^ 32 → w = ⌊v⌋ + (if (r.rbits : ℤ) < ⌊(v - ⌊v⌋) * 2 ^ 32⌋ then 1 else 0))

/-- The codes of E2M1, E8M0, Q4 and Q3 decode to the values of their tables (R81, R82, R83). Every E2M1 code is the value
of the table, with both zeros and no special value; E8M0 code e up to 0xFE is 2^(e - 127) and 0xFF is NaN, so that it
has no zero, sign or infinity; Q4 codes 0 to 7 are 0 to 7 and 8 to 15 are -8 to -1; Q3 codes 0 to 3 are 0 to 3 and 4
to 7 are -4 to -1. -/
def Obligations.SmallFormatValues : Prop :=
  (∀ c : Fin 16, ∃ n m e, decodeNum .e2m1 0 false c.val = .fin n m e false ∧ n = decide (8 ≤ c.val) ∧
    (m : ℚ) * 2 ^ e = ([0, 1/2, 1, 3/2, 2, 3, 4, 6] : List ℚ).getD (c.val % 8) 0) ∧
  (∀ c : Fin 255, ∃ m e, decodeNum .e8m0 0 false c.val = .fin false m e false ∧ (m : ℚ) * 2 ^ e = 2 ^ ((c.val : ℤ) - 127)) ∧
  decodeNum .e8m0 0 false 0xFF = .nan false ∧
  (∀ c : Fin 16, ∃ n m e, decodeNum .q4 0 false c.val = .fin n m e false ∧
    (if n then -1 else 1) * (m : ℚ) * 2 ^ e = if c.val < 8 then (c.val : ℚ) else (c.val : ℚ) - 16) ∧
  (∀ c : Fin 8, ∃ n m e, decodeNum .q3 0 false c.val = .fin n m e false ∧
    (if n then -1 else 1) * (m : ℚ) * 2 ^ e = if c.val < 4 then (c.val : ℚ) else (c.val : ℚ) - 8)

/-- Partials of accumulates combine the same in every order and grouping (R89, R213, R335). WF96 combination adds the
96-bit values modulo 2^96, adds the counts up to 65,535, and joins the range-unsafe marks, setting the mark when the
count passes 65,535; it is commutative and associative on elements with clear reserved bits, and so is the sum modulo
2^w of the integer formats: whatever order a home, a residual tile or a vadd combines them in, the result is one. -/
def Obligations.Wf96OrderDoesNotMatter : Prop :=
  ∀ (f : Fmt) (x y z : BitVec 128), f = .wf96 ∨ homeFmt f = true →
    partAdd f x y = partAdd f y x ∧ partAdd f (partAdd f x y) z = partAdd f x (partAdd f y z) ∧
    (f = .wf96 →
      (partAdd f x y).setWidth 96 = x.setWidth 96 + y.setWidth 96 ∧
      ((partAdd f x y).extractLsb' 96 16).toNat = min 65535 ((x.extractLsb' 96 16).toNat + (y.extractLsb' 96 16).toNat) ∧
      (partAdd f x y).getLsbD 112 = (x.getLsbD 112 || y.getLsbD 112 || decide (65535 < (x.extractLsb' 96 16).toNat + (y.extractLsb' 96 16).toNat))) ∧
    (f ≠ .wf96 → (partAdd f x y).toNat = (x.toNat + y.toNat) % 2 ^ f.bits)

/-- A reduction of integers is the sum, greatest or least of its active elements, and the identity when there is none
(R101, R224). For leaves of distinct elements below VL in an integer format: vred.add without saturation gives their
sum modulo 2^w, vred.max and vred.min the greatest and least, each extended to 64 bits; on format bit vred.add counts
the ones. With no active element the result is 0, the format's least or its greatest value. -/
def Obligations.IntegerReductions : Prop :=
  ∀ (v : VArgs) (sid : BitVec 16) (b : Bcast),
    (b.leaves.map (·.1)).Nodup → (∀ p ∈ b.leaves, p.1 < b.carry.vl.toNat ∧ p.2 < 2 ^ v.fmt.bits) →
    let vals : List Int := b.leaves.map (fun p => intOf v.fmt p.2)
    let n := v.fmt.bits
    let ext (x : Int) : Word := if v.fmt.isI then (BitVec.ofInt n x).signExtend 64 else (BitVec.ofInt n x).setWidth 64
    (v.fmt.isIN = true → v.sat = false → redRoot .add v sid b = (0, ext vals.sum)) ∧
    (v.fmt = .bit → redRoot .add v sid b = (0, BitVec.ofNat 64 ((b.leaves.filter (fun p => p.2 = 1)).length))) ∧
    (v.fmt.isIN = true → vals ≠ [] →
      (∃ m ∈ vals, redRoot .max v sid b = (0, ext m) ∧ ∀ x ∈ vals, x ≤ m) ∧
      (∃ m ∈ vals, redRoot .min v sid b = (0, ext m) ∧ ∀ x ∈ vals, m ≤ x)) ∧
    (v.fmt.isIN = true → vals = [] →
      redRoot .max v sid b = (0, ext (if v.fmt.isI then -2 ^ (n - 1) else 0)) ∧
      redRoot .min v sid b = (0, ext (if v.fmt.isI then 2 ^ (n - 1) - 1 else 2 ^ n - 1)))

/-- A user stream that executes a privileged instruction or names a privileged register takes ILLEGAL_OPERAND with code 10
(R384). In user mode, eret, wsave, wrest, isave, irest and wfe YIELD, every CSR instruction that names WDIRTY, WPRES,
TCAUSE to TCTX, WPCTL, WPB0 to WPB7 or WPM0 to WPM7, and every write that names ESTART (csrw, and csrs or csrc with SA
other than s0) take ILLEGAL_OPERAND with TINFO[11:8] = 10 at their own pc: the answer is the stop and trap entry from
the state as it stood, so that nothing of the instruction is performed. A read of ESTART completes. -/
def Obligations.UserStreamPrivileges : Prop :=
  ∀ (rq : Bool) (sd sa sb : SReg) (n : BitVec 12) (s : State), s.front.csr.mode = false →
    let traps (i : Instr) : Prop := exec i s =
      .next (stopTrap s { cause := 0x02, int := false, tinfo := 0xA00, elem := 0, addr := 0 } s.front.pc)
    traps (.eret rq) ∧ traps (.wsave sd sa sb) ∧ traps (.wrest sd sa sb) ∧ traps (.isave sd sa) ∧ traps (.irest sd sa) ∧
    traps (.wfeYield sd sa) ∧
    (n = 0x030 ∨ n = 0x031 ∨ (0x060 ≤ n ∧ n ≤ 0x067) ∨ n = 0x070 ∨ (0x080 ≤ n ∧ n ≤ 0x08F) →
      traps (.csrr sd n) ∧ traps (.csrw sd sa n) ∧ traps (.csrs sd sa n) ∧ traps (.csrc sd sa n)) ∧
    traps (.csrw sd sa 0x004) ∧ (sa ≠ 0 → traps (.csrs sd sa 0x004) ∧ traps (.csrc sd sa 0x004)) ∧
    (loadsOut s.front = 0 → exec (.csrr sd 0x004) s = .next ((s.wr sd (csrRead s 0x004)).done))

/-- While the issue queue is not empty, every broadcast takes ILLEGAL_OPERAND with code 14 before any other check (R71,
R390). In a state whose issue queue is not empty, each of the broadcast instructions, whatever its operands, takes
ILLEGAL_OPERAND with TINFO[11:8] = 14 at its pc, from the state as it stood: no ISN is taken and nothing performed.
With the queue empty, a broadcast whose own checks fail takes the trap that the first failing check gives. -/
def Obligations.BroadcastRefusedWhileQueued : Prop :=
  ∀ (i : Instr) (info : BInfo) (s : State), infoOf i = some info →
    (s.front.queue ≠ [] → exec i s =
      .next (stopTrap s { cause := 0x02, int := false, tinfo := 0xE00, elem := 0, addr := 0 } s.front.pc)) ∧
    (s.front.queue = [] → ∀ t, info.check s = some t → exec i s = .next (stopTrap s t s.front.pc))

/-- Taking an exception saves cause, pc, floor, element, address, mode and interrupt enable, and goes to TVEC in
supervisor mode with interrupts off (R383, R385, R387, R391). For a stream with a handler and no work under way, a
stop for any cause writes TCAUSE, TPC, TISN (the floor), TELEM, TADDR and TINFO, moves MODE to PMODE and IE to PIE,
sets MODE to 1, IE to 0 and ESTART to 0, opens the stop window and sets the pc to TVEC; no scalar register, window,
strip register, queue entry or byte of memory changes. trap completes with exactly this entry: cause BREAK, its code
in TINFO, and TPC the address after it. -/
def Obligations.TrapEntry : Prop :=
  ∀ (s : State) (ti : TrapInfo) (tpc : Word) (imm : BitVec 31), Still s → s.front.csr.tvec ≠ 0 →
    exec (.trap imm) s = .next (stopTrap s { cause := 0x0F, int := false, tinfo := imm.setWidth 63, elem := 0, addr := 0 } (s.front.pc + 8)) ∧
    let t := stopTrap s ti tpc
    t.front.csr = { s.front.csr with
      cause := ti.cause, int := ti.int, tinfo := ti.tinfo, telem := BitVec.ofNat 32 ti.elem, taddr := ti.addr, tpc := tpc
      tisn := s.front.csr.floor, pmode := s.front.csr.mode, mode := true, pie := s.front.csr.ie, ie := false, estart := 0 } ∧
    t.front.pc = BitVec.ofNat 64 (8 * s.front.csr.tvec.toNat) ∧ t.front.stopWin = true ∧
    t.front.s = s.front.s ∧ t.front.w = s.front.w ∧ t.front.queue = s.front.queue ∧ t.mem = s.mem ∧ t.shelves = s.shelves ∧
    t.fronts = s.fronts

/-- A cause other than an interrupt ends a stream whose TVEC is 0 (R114, R122, R389). For a stream with TVEC 0 and no work
under way, in no group and no log, a stop for any cause other than an interrupt leaves no stream in the front, no
shelf entry, residual, waiter or plane slot of its SID, and takes one number among the distributor's events; where the
event ring is off, the lost-event count goes up instead of a record. -/
def Obligations.StreamWithoutHandlerEnds : Prop :=
  ∀ (s : State) (ti : TrapInfo) (tpc : Word), ti.int = false → Still s → s.front.csr.tvec = 0 → myGroups s.front = [] → s.front.logMode = 0 →
    let t := stopTrap s ti tpc
    t.front = Front.idle ∧ t.epoch = s.epoch + 1 ∧ (∀ e ∈ t.shelves, e.sid ≠ s.front.sid) ∧ (∀ x ∈ t.residuals, x.sid ≠ s.front.sid) ∧
    (∀ w ∈ t.waiters, w.sid ≠ s.front.sid) ∧ (∀ p ∈ t.slots, p.1 ≠ s.front.sid) ∧
    (s.regs.evEn = false → t.regs.evLost = (if s.regs.evLost = 0xFFFF then 0xFFFF else s.regs.evLost + 1))

/-- eret restores mode, interrupt enable and pc, closes the stop window, and with RQ reissues the queue from ESTART (R43,
R392). In supervisor mode, with TPC a multiple of 8, the queue empty or RQ set, and no command outstanding if the
stream was resumed since its trap, eret sets MODE to PMODE, IE to PIE and the pc to TPC, closes the stop window and
empties the instruction cache; without RQ the instruction there is exempt from watchpoints, with RQ the element at
ESTART is, and the queue's entries join the broadcasts in order, the first from element ESTART and the others from 0,
and the queue is empty; where no broadcast is then left FLOOR is the ISN. Registers, windows and memory are as before.
A queue with RQ clear takes ILLEGAL_OPERAND code 14, a TPC that is no multiple of 8 ALIGN with it as TADDR. (That
FLOOR catches up there is the model's choice, log entry 46.) -/
def Obligations.EretReturns : Prop :=
  ∀ (rq : Bool) (s : State), s.front.csr.mode = true →
    (s.front.queue ≠ [] → rq = false → exec (.eret rq) s = .next (stopTrap s (operandTrapHi 14) s.front.pc)) ∧
    ((s.front.queue = [] ∨ rq = true) → s.front.csr.tpc.toNat % 8 ≠ 0 →
      exec (.eret rq) s = .next (stopTrap s (mkTrap causeAlign 0 0 s.front.csr.tpc.toNat) s.front.pc)) ∧
    ((s.front.queue = [] ∨ rq = true) → s.front.csr.tpc.toNat % 8 = 0 → (s.front.resumed = false ∨ s.front.cmds = []) →
      ∃ t, exec (.eret rq) s = .next t ∧ t.front.pc = s.front.csr.tpc ∧
        t.front.csr = { s.front.csr with
          mode := s.front.csr.pmode
          ie := s.front.csr.pie
          floor := if s.front.bcasts = [] ∧ s.front.queue = [] then s.front.csr.isn else s.front.csr.floor } ∧
        t.front.stopWin = false ∧ t.front.icache = [] ∧ t.front.exempt = !rq ∧
        (rq = true → ∀ b, s.front.queue.head? = some b → t.front.exemptAt = some b.isn) ∧ t.front.queue = [] ∧
        (t.front.bcasts.map (fun b => (b.word, b.isn, b.estart))) =
          s.front.bcasts.map (fun b => (b.word, b.isn, b.estart)) ++
            s.front.queue.zipIdx.map (fun p => (p.1.word, p.1.isn, if p.2 = 0 then s.front.csr.estart.toNat else 0)) ∧
        t.front.s = s.front.s ∧ t.front.w = s.front.w ∧ t.mem = s.mem)

/-- Rolling back to an instruction restores every sector that later ones wrote and forgets their entries (R193, R200,
R327). After a rollback to ISN k, every byte of the stream's shelved sectors with 32 recorded bytes reads what a pull
stamped k would have seen before it, every byte of a sector with no entry above k is as before, no entry of the stream
above k is left, those at or below k and those of follow-on actions stay, and every entry of another stream stays,
with the bytes that the rollback changed in its sector as they now are. -/
def Obligations.RollbackRestores : Prop :=
  ∀ (s : State) (k : Nat), Canonical s → (∀ e ∈ s.shelves, e.bytes.length = 32) →
    (∀ q : Key, (rollback s k).mem.get q = byteAt s k q) ∧
    (∀ e : Shelf, e.sid = s.front.sid → (e ∈ (rollback s k).shelves ↔ e ∈ s.shelves ∧ (e.isn ≤ k ∨ e.action = true))) ∧
    (∀ e ∈ s.shelves, e.sid ≠ s.front.sid → ∃ r ∈ (rollback s k).shelves,
      r.own = e.own ∧ r.sid = e.sid ∧ r.sector = e.sector ∧ r.isn = e.isn ∧ r.action = e.action ∧
      ∀ j < 32, r.bytes.getD j 0 = (if s.mem.get (32 * e.sector + j) = (rollback s k).mem.get (32 * e.sector + j) then e.bytes.getD j 0
        else (rollback s k).mem.get (32 * e.sector + j)))

/-- wfe WAIT ends with 1 for an interrupt and 2 for a write to the watched block; YIELD answers 0 with no pre-emption and
else saves the image and leaves (R389, R395). wfe WAIT with an interrupt pending goes on with SD = 1, else, once a
write has reached the watched block, with SD = 2, and its watch is dropped; else it stays, watching the 64-byte block
of SA where SA is not s0. In supervisor mode with an empty queue, YIELD goes on with SD = 0 when no pre-emption is in
force; with one in force, nothing under way and an image that can be written, the image is written with SD = 1 and the
pc after the wfe, and the stream leaves its sequencer: it is out, or, in a launch that is being ended and in no group,
gone. With the queue not empty YIELD takes ILLEGAL_OPERAND code 14. (That an interrupt comes before a write and that
the block needs read permission are the model's inferences, log entry 66.) -/
def Obligations.WfeWaitsAndYields : Prop :=
  ∀ (sd sa : SReg) (s : State),
    let mine (m : Monitor) : Bool := m.sid == s.front.sid
    let ends (v : Word) : Out := .next ((({ s with monitors := s.monitors.filter (fun m => !mine m) } : State).wr sd v).done)
    (interruptPending s.front = true → exec (.wfeWait sd sa) s = ends 1) ∧
    (interruptPending s.front = false → ∀ m, s.monitors.find? mine = some m →
      exec (.wfeWait sd sa) s = if m.hit then ends 2 else .next s) ∧
    (interruptPending s.front = false → s.monitors.find? mine = none →
      exec (.wfeWait sd 0) s = .next { s with front := { s.front with waiting := true } }) ∧
    (interruptPending s.front = false → s.monitors.find? mine = none → sa ≠ 0 → ∀ ks s1,
      M.exec (watchedKeys (s.rd sa).toNat) s = (.ok ks, s1) → exec (.wfeWait sd sa) s =
        .next { s1 with monitors := s1.monitors ++ [{ sid := s1.front.sid, keys := ks, hit := false }], front := { s1.front with waiting := true } }) ∧
    (s.front.csr.mode = true → s.front.queue ≠ [] → exec (.wfeYield sd sa) s = .next (stopTrap s (operandTrapHi 14) s.front.pc)) ∧
    (s.front.csr.mode = true → s.front.queue = [] → s.front.preempt = false → exec (.wfeYield sd sa) s = .next ((s.wr sd 0).done)) ∧
    (s.front.csr.mode = true → s.front.queue = [] → s.front.preempt = true → accessesDone s = true → s.front.bcasts = [] →
      s.front.decls = [] → ∀ s2, M.exec (writeImage (s.front.pc + 8) false) ((deliverResiduals s (fun _ => true)).wr sd 1) = (.ok (), s2) →
      (deliverResiduals s (fun _ => true)).front.pc = s.front.pc →
      ∃ t, exec (.wfeYield sd sa) s = .next t ∧
        (doomed s2 s2.front = false → t.mem = s2.mem ∧ t.front.status = .out ∧ t.front.preempt = false ∧ t.front.s = s2.front.s) ∧
        (doomed s2 s2.front = true → myGroups s2.front = [] → t.front = Front.idle))

/-- wsave stores the named present windows and clears their dirty bits; wrest loads the named windows, present and clean
(R165, R330, R394). In supervisor mode with no load awaited, the stream's turn reached and an aligned, translated area
with no race at the places named, wsave stores the two halves of every named present window k at byte 16 k of the
area, in window order, puts the mask of the windows saved into SD and clears their dirty bits; no window changes.
wrest reads each named window from its place, where the area is readable, sets its present bit and clears its dirty
bit, and puts the mask of the named windows into SD. All other registers and windows stay, and memory outside wsave's
stores. -/
def Obligations.WindowSaveAndRestore : Prop :=
  ∀ (sd sa sb : SReg) (s s1 : State) (ps : List (Nat × Nat × Place)), s.front.csr.mode = true → areaReady s = true →
    let a := (s.rd sa).toNat
    let named (w : WReg) : Bool := w != 0 && (s.rd sb).getLsbD w.toNat
    (∀ s2, M.exec (areaPages a 512 512 .write) s = (.ok ps, s1) →
      let ws := (maskWins (s.rd sb).toNat).filter (wpresent s)
      (∀ w ∈ ws, areaRace s1 ps true (a + 16 * w.toNat) 16 = none) →
      M.exec (ws.forM (fun w => areaMark ps true (a + 16 * w.toNat) 16)) s1 = (.ok (), s2) →
      ∃ t, exec (.wsave sd sa sb) s = .next t ∧
      (t.mem = (ws.foldl (fun u w => putArea ps (putArea ps u (a + 16 * w.toNat) ((s.rdW w).toNat % 2 ^ 64))
         (a + 16 * w.toNat + 8) ((s.rdW w).toNat / 2 ^ 64)) s2).mem) ∧
      (∀ w : WReg, (t.rd sd).getLsbD w.toNat = (sd != 0 && named w && wpresent s w)) ∧
      (∀ w : WReg, t.front.csr.wdirty.getLsbD w.toNat = (s.front.csr.wdirty.getLsbD w.toNat && !(named w && wpresent s w))) ∧
      t.front.w = s.front.w ∧ t.front.csr.wpres = s.front.csr.wpres ∧ (∀ r, r ≠ sd → t.rd r = s.rd r) ∧ t.front.pc = s.front.pc + 8) ∧
    (∀ s2, M.exec (areaPages a 512 512 .read) s = (.ok ps, s1) →
      (∀ w, named w = true → unreadable s1 (areaKeys s1 ps (a + 16 * w.toNat) 16) = false ∧ areaRace s1 ps false (a + 16 * w.toNat) 16 = none) →
      M.exec ((maskWins (s.rd sb).toNat).forM (fun w => areaMark ps false (a + 16 * w.toNat) 16)) s1 = (.ok (), s2) →
      ∃ t, exec (.wrest sd sa sb) s = .next t ∧ t.mem = s1.mem ∧
      (∀ w : WReg, t.rdW w = if named w then
        Desc.clean (BitVec.ofNat 128 (areaWord s2 ps (a + 16 * w.toNat) + 2 ^ 64 * areaWord s2 ps (a + 16 * w.toNat + 8))) else s.rdW w) ∧
      (∀ w : WReg, (t.rd sd).getLsbD w.toNat = (sd != 0 && named w)) ∧
      (∀ w : WReg, wpresent t w = (wpresent s w || named w)) ∧
      (∀ w : WReg, t.front.csr.wdirty.getLsbD w.toNat = (s.front.csr.wdirty.getLsbD w.toNat && !named w)) ∧
      (∀ r, r ≠ sd → t.rd r = s.rd r) ∧ t.front.pc = s.front.pc + 8)

/-- isave stores the issue queue and empties it; irest loads it back; an entry written and read is the same entry (R330,
R393). In supervisor mode with no load awaited, the stream's turn reached and an aligned, translated area with no race
at the entries' places, isave stores the 32 words of each queue entry, in order, 256 bytes apart, puts their number
into SD and leaves the queue empty. irest takes SD entries from the area into the empty queue, where SD is at most 64,
the ISN less the floor, the area readable and every entry lawful for its place; else it takes ILLEGAL_OPERAND code 15.
An entry's words, read back, give its word, ISN below 2^48 and carried state with the descriptors' reserved bits
clear. (Log entries 27 and 81 name what the model chose: the order of the checks of an entry, and the race vector that
one read back carries.) -/
def Obligations.QueueSaveAndRestore : Prop :=
  (∀ (sd sa : SReg) (s s1 : State) (ps : List (Nat × Nat × Place)), s.front.csr.mode = true → areaReady s = true →
    let a := (s.rd sa).toNat
    (∀ s2, M.exec (areaPages a 16384 256 .write) s = (.ok ps, s1) →
      (∀ i < s.front.queue.length, areaRace s1 ps true (a + 256 * i) 256 = none) →
      M.exec ((List.range s.front.queue.length).forM (fun i => areaMark ps true (a + 256 * i) 256)) s1 = (.ok (), s2) →
      ∃ t, exec (.isave sd sa) s = .next t ∧ t.front.queue = [] ∧
      t.mem = (s.front.queue.zipIdx.foldl (fun u p => (entryWords p.1).zipIdx.foldl
        (fun u w => putArea ps u (a + 256 * p.2 + 8 * w.2) w.1) u) s2).mem ∧
      t.rd sd = (if sd = 0 then 0 else BitVec.ofNat 64 s.front.queue.length) ∧ (∀ r, r ≠ sd → t.rd r = s.rd r) ∧
      t.front.w = s.front.w ∧ { t.front.csr with lost := s.front.csr.lost } = s.front.csr ∧ t.front.pc = s.front.pc + 8) ∧
    (let n := (s.rd sd).toNat
     let es := (List.range n).map (fun i => entryOf s.front.race (fun j => areaWord s1 ps (a + 256 * i + 8 * j)))
     (s.front.queue ≠ [] ∨ 64 < n ∨ n + s.floor ≠ s.isn → exec (.irest sd sa) s = .next (stopTrap s (operandTrapHi 15) s.front.pc)) ∧
     (s.front.queue = [] → n ≤ 64 → n + s.floor = s.isn → M.exec (areaPages a 16384 256 .read) s = (.ok ps, s1) →
      (∀ i < n, unreadable s1 (areaKeys s1 ps (a + 256 * i) 256) = false ∧ areaRace s1 ps false (a + 256 * i) 256 = none) →
      ((∃ p ∈ es.zipIdx, entryOk s1 p.2 p.1 = false) → exec (.irest sd sa) s = .next (stopTrap s1 (operandTrapHi 15) s1.front.pc)) ∧
      ((∀ p ∈ es.zipIdx, entryOk s1 p.2 p.1 = true) → ∃ t, exec (.irest sd sa) s = .next t ∧ t.front.queue = es ∧ t.mem = s1.mem ∧
        t.front.s = s.front.s ∧ t.front.w = s.front.w ∧ t.front.csr = s.front.csr ∧ t.front.pc = s.front.pc + 8)))) ∧
  (∀ (v : Option (List (Nat × Nat))) (b : Bcast), b.isn < 2 ^ 48 → entryOf v (fun j => (entryWords b).getD j 0) =
    { b with carry := { b.carry with descs := b.carry.descs.map Desc.clean }, pc := 0, estart := 0, flags := 0, leaves := [], race := v, watch := Watches.none_ })

/-- fence and rflush deliver what their scope covers and go on; srel adds to FLAG; sacq takes FLAG once it reaches the
threshold, else waits (R150, R319, R321, R322, R323, R329, R333, R348). For a stream with nothing under way, fence and
rflush deliver the residuals that their scope covers and go on, changing nothing else, but that a fence raises the
interval while RACE.EN is 1 (the model's reading, log entry 9). srel, at an aligned block with a readable FLAG and no
stream waiting there, first delivers the residuals of its scope, then adds the sign-extended IMM31 to FLAG modulo
2^64, puts the old FLAG into SD and goes on, no other byte changing (race checking off). sacq, whose stream does not
wait yet, puts FLAG into SD and goes on when FLAG is at least SB, unsigned; else the stream joins the waiters of the
block once, with its pc at the sacq. -/
def Obligations.ReleasesFencesAndSyncBlocks : Prop :=
  ∀ (sd sa sb : SReg) (sc : Scope) (imm : BitVec 31) (s s1 : State) (ks : List Key), Quiet s →
    exec (.fence sc) s = .next (deliverResiduals s (scopeMem s.front sc [])).nextInterval.done ∧
    exec (.rflush sc) s = .next (deliverResiduals s (scopeMem s.front sc [])).done ∧
    (M.exec (blockPlace (s.rd sa).toNat 1024) s = (.ok ks, s1) →
      let s2 := deliverResiduals s1 (scopeMem s1.front sc (ownerOf s (ks.headD 0)).toList)
      let flag (u : State) : Nat := bytesNat (u.mem.gets (ks.take 8))
      (unreadable s2 (ks.take 8) = false → s2.front.csr.raceEn = false → s2.front.logMode = 0 → (∀ w ∈ s2.waiters, w.block ≠ ks.headD 0) →
        ∃ t, exec (.srel sd sa sc imm) s = .next t ∧
          t.mem = s2.mem.sets ((ks.take 8).zip (wordBytes 8 ((flag s2 + (imm.signExtend 64).toNat) % 2 ^ 64))) ∧
          t.rd sd = (if sd = 0 then 0 else BitVec.ofNat 64 (flag s2)) ∧ (∀ r, r ≠ sd → t.rd r = s2.rd r) ∧
          t.front.w = s2.front.w ∧ t.front.csr = s2.front.csr ∧ t.front.pc = s2.front.pc + 8) ∧
      (unreadable s1 (syncKeys s1 ks) = false → (∀ w ∈ s.waiters, w.sid ≠ s.front.sid) →
        (s.rd sb).toNat ≤ flag s1 → ∃ t, exec (.sacq sd sa sb sc) s = .next t ∧ t.mem = s1.mem ∧
          t.rd sd = (if sd = 0 then 0 else BitVec.ofNat 64 (flag s1)) ∧ (∀ r, r ≠ sd → t.rd r = s.rd r) ∧
          t.front.csr = s.front.csr ∧ t.front.pc = s.front.pc + 8) ∧
      (unreadable s1 (syncKeys s1 ks) = false → (∀ w ∈ s.waiters, w.sid ≠ s.front.sid) → flag s1 < (s.rd sb).toNat →
        exec (.sacq sd sa sb sc) s = .next { s1 with
          waiters := s1.waiters ++ [{ block := ks.headD 0, sid := s1.front.sid, word := wordOf (.sacq sd sa sb sc) }] }))

/-- Where owners keep their own pace an srel leaves the front, its home adds to FLAG later, and only then is SD written
(R135, R321, R329). In the run-ahead pace, with nothing left to wait for and at a block whose bytes follow each other
at one owner, srel goes on with the operation in flight: memory, the other registers and the waiters are as the
delivery of its scope's residuals left them, no instruction that names SD is ready, and the stream counts one release
more under way. When the home performs the operation it adds the sign-extended IMM31 to FLAG modulo 2^64 as its stamp
orders it, joins CLOCK entrywise with the clock vector it carries where RACE.EN was 1, changes no other byte, and the
old FLAG is what SD will receive. (The pace is the model's, log entry 3.) -/
def Obligations.ReleaseInFlight : Prop :=
  ∀ (sd sa : SReg) (sc : Scope) (imm : BitVec 31) (s s1 : State) (ks : List Key),
    loadsOut s.front = 0 → M.exec (blockPlace (s.rd sa).toNat 1024) s = (.ok ks, s1) → releaseReady s1 = true →
    let s2 := deliverResiduals s1 (scopeMem s1.front sc (ownerOf s (ks.headD 0)).toList)
    unreadable s2 (syncKeys s2 ks) = false → mayFly s2 ks = true → (∀ w ∈ s2.waiters, w.block ≠ ks.headD 0) →
    ∃ t a, exec (.srel sd sa sc imm) s = .next t ∧ t.front.accesses = s2.front.accesses ++ [a] ∧ a.isRel = true ∧
      relsOut t.front = relsOut s2.front + 1 ∧ t.mem = s2.mem ∧ t.waiters = s2.waiters ∧ (∀ r, t.rd r = s2.rd r) ∧
      t.front.pc = s2.front.pc + 8 ∧ a.clock = (if s2.front.csr.raceEn then some s2.front.clock else none) ∧
      (sd ≠ 0 → ∀ i, regsReady t i = true → sd ∉ Instr.regs i) ∧
      (∀ u : State, u.front.logMode = 0 → unreadable u ks = false →
        let h := (performRel u a).1.mem
        let entry (k : Nat) : List Key := (ks.drop (512 + 2 * k)).take 2
        let flag := bytesNat (u.mem.gets (ks.take 8))
        (performRel u a).2 = { a with done := some (BitVec.ofNat 64 flag) } ∧
        h.gets (ks.take 8) = wordBytes 8 ((flag + (imm.signExtend 64).toNat) % 2 ^ 64) ∧
        (∀ x, x ∉ ks.take 8 → x ∉ ks.drop 512 → h.get x = u.mem.get x) ∧
        (a.clock = none → ∀ x ∈ ks.drop 512, h.get x = u.mem.get x) ∧
        (∀ v, a.clock = some v → ∀ k, k < 256 →
          bytesNat (h.gets (entry k)) = clockGet (clockJoin (blockClock u ks) v) k % 2 ^ 16))

/-- gjoin, gleave and gbar keep the group's members, arrivals and episode numbers (R124, R125, R126, R127). With logging
off and g = SA + IMM31: g above 1,023 takes ILLEGAL_OPERAND code 1 in all three. gjoin of a member only gives the size
in SD; of a stream with a free slot and a group below 256 members it joins, pending if an arrival is held and else
counted, and SD is the new size; without either it takes code 2. gleave makes a member no member, clears its slot and
gives the size that remains. gbar of no member takes code 3; of a member that has an episode number to take it goes on
with it in SD; the last arrival of a stream with nothing under way completes the episode: SD is its number, the next
episode is one higher with no arrival, and every other arrival has the number to take; an earlier arrival waits,
counted as arrived. -/
def Obligations.GroupInstructions : Prop :=
  ∀ (sd sa : SReg) (sc : Scope) (imm : BitVec 31) (s : State), s.front.logMode = 0 →
    let n := (s.rd sa + imm.signExtend 64).toNat
    let g := BitVec.ofNat 10 n
    let r := s.group g
    let sid := s.front.sid
    let stop (c : Nat) : Out := .next (stopTrap s (operandTrap c) s.front.pc)
    let size (u : State) (v : Nat) : Prop := u.rd sd = if sd = 0 then 0 else BitVec.ofNat 64 v
    (1024 ≤ n → exec (.gjoin sd sa imm) s = stop 1 ∧ exec (.gleave sd sa imm) s = stop 1 ∧ exec (.gbar sd sa sc imm) s = stop 1) ∧
    (n < 1024 →
      (r.member sid = true → exec (.gjoin sd sa imm) s = .next ((s.wr sd (BitVec.ofNat 64 r.size)).done)) ∧
      (r.member sid = false → hasSlot s.front = false ∨ 256 ≤ r.size → exec (.gjoin sd sa imm) s = stop 2) ∧
      (r.member sid = false → hasSlot s.front = true → r.size < 256 → ∃ t, exec (.gjoin sd sa imm) s = .next t ∧
        size t (r.size + 1) ∧ (t.group g).counted = r.counted ++ (if r.arrived = [] then [sid] else []) ∧
        (t.group g).pending = r.pending ++ (if r.arrived = [] then [] else [sid]) ∧ (t.group g).arrived = r.arrived ∧
        grpSlot (r.arrived != []) g ∈ t.front.grps.toList ∧ t.mem = s.mem ∧ t.front.pc = s.front.pc + 8) ∧
      (r.member sid = false → exec (.gleave sd sa imm) s = .next ((s.wr sd (BitVec.ofNat 64 r.size)).done)) ∧
      (r.member sid = true → ∃ t, exec (.gleave sd sa imm) s = .next t ∧
        size t ((r.counted.filter (· != sid)).length + (r.pending.filter (· != sid)).length) ∧ (t.group g).member sid = false ∧
        (∀ x ∈ t.front.grps.toList, slotValid x = true → slotGroup x ≠ g) ∧ t.front.pc = s.front.pc + 8) ∧
      (releasedAt s g = none → r.member sid = false → exec (.gbar sd sa sc imm) s = stop 3) ∧
      (∀ e, releasedAt s g = some e → ∃ t, exec (.gbar sd sa sc imm) s = .next t ∧ t.rd sd = (if sd = 0 then 0 else e) ∧
        releasedAt t g = none ∧ t.mem = s.mem ∧ t.front.pc = s.front.pc + 8) ∧
      (releasedAt s g = none → r.member sid = true → r.arrived.contains sid = false → r.pending.contains sid = false →
        Quiet s → (∀ x ∈ s.residuals, x.sid ≠ sid) → (∀ m ∈ s.msgs ++ s.homeQ, m.sid ≠ sid) → (∀ f ∈ s.streams, f.logMode = 0) →
        (r.counted.length = r.arrived.length + 1 → ∃ t, exec (.gbar sd sa sc imm) s = .next t ∧
          t.rd sd = (if sd = 0 then 0 else r.episode) ∧ (t.group g).episode = r.episode + 1 ∧ (t.group g).arrived = [] ∧
          (∀ x ∈ r.arrived, (x, r.episode) ∈ (t.group g).released) ∧ t.mem = s.mem ∧ t.front.pc = s.front.pc + 8) ∧
        (r.counted.length ≠ r.arrived.length + 1 → ∃ t, exec (.gbar sd sa sc imm) s = .next t ∧
          (t.group g).arrived = r.arrived ++ [sid] ∧ (t.group g).episode = r.episode ∧ t.mem = s.mem ∧ t.front.pc = s.front.pc)))

/-- qpush, qpop and the drains act on the queue block first come first served (R128, R129, R130, R131). For a stream with
nothing under way, logging and race checks off, at an aligned block in bank or stack memory that keeps R128 and at
which no stream waits: qpush of a queue with room writes SB at the entry TAIL names, raises TAIL by 1 and gives the
old TAIL in SD; qpop of a queue that is not empty gives the entry of HEAD in SD and HEAD in SB (SD other than SB) and
raises HEAD by 1; qdrain WAIT of an empty queue gives TAIL; qdrain DISCARD sets HEAD to TAIL and gives the number of
entries discarded. All go on and change no other byte. A push to a full, a pop from an empty, and a drain of a queue
with entries wait at the block. A block that breaks R128 takes ILLEGAL_OPERAND code 4, a pop of an entry that cannot
be read DATA_ERROR. (Log entries 26 and 73 name what the model chose.) -/
def Obligations.QueueInstructions : Prop :=
  ∀ (sd sa sb : SReg) (sc : Scope) (s s1 : State) (ks : List Key), Quiet s →
    M.exec (blockPlace (s.rd sa).toNat 64) s = (.ok ks, s1) → unreadable s1 ks = false → s1.front.csr.raceEn = false →
    (∀ x ∈ s1.residuals, x.sid ≠ s1.front.sid) → (∀ m ∈ s1.msgs ++ s1.homeQ, m.sid ≠ s1.front.sid) → s1.waiters = [] → s.waiters = [] →
    let q := (queueBlock s1 ks).1
    let k := ks.headD 0
    let done (o : Out) (u : State) (m : Memory) (v : Nat) : Prop := ∃ t, o = .next t ∧ t.mem = m ∧
      (sd ≠ sb → t.rd sd = if sd = 0 then 0 else BitVec.ofNat 64 v) ∧ (∀ r, r ≠ sd → r ≠ sb → t.rd r = u.rd r) ∧
      t.front.w = u.front.w ∧ t.front.pc = u.front.pc + 8 ∧ t.waiters = []
    let waits (i : Instr) (o : Out) (u : State) : Prop := o = .next { u with waiters := [{ block := k, sid := u.front.sid, word := wordOf i }] }
    let word (i v : Nat) : List (Key × Byte) := ((ks.drop (8 * i)).take 8).zip (wordBytes 8 v)
    ((queueBlock s1 ks).2 = false →
      exec (.qpush sd sa sb sc) s = .next (stopTrap s1 (operandTrap 4) s1.front.pc) ∧
      exec (.qpop sd sa sb sc) s = .next (stopTrap s1 (operandTrap 4) s1.front.pc) ∧
      exec (.qdrainWait sd sa sc) s = .next (stopTrap s1 (operandTrap 4) s1.front.pc) ∧
      exec (.qdrainDiscard sd sa sc) s = .next (stopTrap s1 (operandTrap 4) s1.front.pc)) ∧
    ((queueBlock s1 ks).2 = true →
      (∀ es s2, M.exec (QOp.place (.push sb) q) s1 = (.ok es, s2) → unreadable s2 (ks ++ es) = false →
        (q.used < 2 ^ q.size → done (exec (.qpush sd sa sb sc) s) s2
          ((s2.mem.sets (es.zip (wordBytes 8 (s2.rd sb).toNat))).sets (word 1 ((q.tail + 1) % 2 ^ 64))) q.tail) ∧
        (q.used = 2 ^ q.size → waits (.qpush sd sa sb sc) (exec (.qpush sd sa sb sc) s) s2)) ∧
      (∀ es s2, M.exec (QOp.place (.pop sb) q) s1 = (.ok es, s2) →
        (q.used ≠ 0 → unreadable s2 es = true → exec (.qpop sd sa sb sc) s =
          .next (stopTrap s2 (mkTrap causeDataError 0 0 (q.entry q.head / 32 * 32)) s2.front.pc)) ∧
        (q.used ≠ 0 → unreadable s2 (ks ++ es) = false → done (exec (.qpop sd sa sb sc) s) s2 (s2.mem.sets (word 0 ((q.head + 1) % 2 ^ 64))) (bytesNat (s2.mem.gets es)) ∧
          (sd ≠ sb → sb ≠ 0 → ∃ t, exec (.qpop sd sa sb sc) s = .next t ∧ t.rd sb = BitVec.ofNat 64 q.head)) ∧
        (q.used = 0 → waits (.qpop sd sa sb sc) (exec (.qpop sd sa sb sc) s) s2)) ∧
      (q.used = 0 → done (exec (.qdrainWait sd sa sc) s) s1 s1.mem q.tail) ∧
      (q.used ≠ 0 → waits (.qdrainWait sd sa sc) (exec (.qdrainWait sd sa sc) s) s1) ∧
      done (exec (.qdrainDiscard sd sa sc) s) s1 (s1.mem.sets (word 0 q.tail)) q.used)

/-- tlbinv drops the translations it names and waits for the agents, tlbprb reads the leaf, pmig drains, holds and moves a
page (R305, R306, R307, R308, R310, R311, R384). In supervisor mode tlbinv waits until nothing of the stream is
outstanding, then drops exactly the entries of the address space (SD, or the stream's own for s0) and pages (all for a
length of all ones, one page for 0) at the agents that its scope reaches, and goes on once each of them has
acknowledged. tlbprb gives the leaf that the walk reaches, or 0. pmig with a usable template first enters the page in
the migration table and drops its translations; once every agent has acknowledged, it holds new walks of the page,
drops its translations again, checks the page once more as at the start, delivers the residuals for the page, moves
its bytes with its shelf entries in the side shelf, writes the leaf with the template's CLASS, MAPID, PEER and FRAME,
leaves the table and gives the old leaf in SD; a page that cannot be read takes DATA_ERROR with the leaf as it was. In
user mode tlbinv and pmig take ILLEGAL_OPERAND code 10; a template that cannot be used takes code 11. (What a shoot-
down waits for is the model's inference, log entry 87, and so is the second check, log entry 107.) -/
def Obligations.PagingInstructions : Prop :=
  ∀ (sd sa sb : SReg) (sc : Scope) (s : State),
    let va := (s.rd sa).toNat
    let len := (s.rd sb).toNat
    let asid := if sd = 0 then s.front.asid else (s.rd sd).setWidth 12
    let reach := if sc = .domain then domainAgent s.front else fun _ => true
    let hit (e : TlbEntry) : Prop := (sc = .domain → domainAgent s.front e.agent = true) ∧ e.asid = asid ∧
      (len = 2 ^ 64 - 1 ∨ (len = 0 ∧ va / 2 ^ e.bits = e.base / 2 ^ e.bits) ∨
        (len ≠ 0 ∧ e.base < va + len ∧ va < e.base + 2 ^ e.bits))
    let at_ (o : TlbOp) : State := { s with front := { s.front with tlbOp := o } }
    (s.front.csr.mode = false → exec (.tlbinv sd sa sb sc) s = .next (stopTrap s (operandTrapHi 10) s.front.pc) ∧
      exec (.pmig sd sa sb sc) s = .next (stopTrap s (operandTrapHi 10) s.front.pc)) ∧
    (s.front.csr.mode = true → s.front.tlbOp ≠ .sent → quietReady s = false → exec (.tlbinv sd sa sb sc) s = .next (at_ .waiting)) ∧
    (s.front.csr.mode = true → s.front.tlbOp ≠ .sent → quietReady s = true → ∃ t, exec (.tlbinv sd sa sb sc) s = .next t ∧
      (∀ e, e ∈ t.tlb ↔ e ∈ s.tlb ∧ ¬ hit e) ∧ t.mem = s.mem ∧ t.front.s = s.front.s ∧ t.front.csr = s.front.csr ∧
      t.front.pc = (if acked s reach asid va len then s.front.pc + 8 else s.front.pc)) ∧
    (s.front.csr.mode = true → s.front.tlbOp = .sent → exec (.tlbinv sd sa sb sc) s =
      .next (if acked s reach asid va len then s.leave.done else s)) ∧
    (loadsOut s.front = 0 → storesOut s.front = 0 →
      (∀ e k base bits, walk s s.front.root s.front.rclass va = .leaf e k base bits →
        exec (.tlbprb sd sa) s = .next (((s.walked va).wr sd (BitVec.ofNat 64 e)).done)) ∧
      (∀ info, walk s s.front.root s.front.rclass va = .missing info → exec (.tlbprb sd sa) s = .next (((s.walked va).wr sd 0).done))) ∧
    (∀ e k base bits, s.front.csr.mode = true → loadsOut s.front = 0 → pmigEntry s = none →
      walk s s.front.root s.front.rclass va = .leaf e k base bits →
      let pl : Place := { leaf := e, leafAt := k, base := base, bits := bits }
      let mine : Migrating :=
        { sid := s.front.sid, stack := none, asid := s.front.asid, base := base, bits := 14, leaf := e, leafAt := k, held := false }
      (templateOk s sc pl len = false → exec (.pmig sd sa sb sc) s = .next (stopTrap (s.walked va) (operandTrapHi 11) s.front.pc)) ∧
      (templateOk s sc pl len = true → (keysOf s pl base (2 ^ 14)).isSome = true → (quietReady s && decide (pmigCount s < 16)) = false →
        exec (.pmig sd sa sb sc) s = .next { s.walked va with front := (at_ .waiting).front }) ∧
      (templateOk s sc pl len = true → (keysOf s pl base (2 ^ 14)).isSome = true → quietReady s = true → pmigCount s < 16 →
        ∃ t, exec (.pmig sd sa sb sc) s = .next t ∧ t.migrating = s.migrating ++ [mine] ∧ t.front = (at_ .sent).front ∧ t.mem = s.mem ∧
          (∀ x ∈ t.tlb, x ∈ s.tlb ∧ ¬ (x.asid = s.front.asid ∧ va / 2 ^ x.bits = x.base / 2 ^ x.bits)))) ∧
    (∀ m, s.front.csr.mode = true → loadsOut s.front = 0 → pmigEntry s = some m →
      let ready := acked s (fun _ => true) m.asid m.base (2 ^ 14)
      let held : Migrating := { m with held := true }
      let s1 := if m.held then s else
        shootDown { s with migrating := s.migrating.map (fun x => if x = m then held else x) } (fun _ => true) m.asid va 0
      (ready = false → exec (.pmig sd sa sb sc) s = .next s) ∧
      (ready = true → ∀ x u, M.exec (pmigChecks sa sb sc) s1 = (.error (.trap x), u) →
        exec (.pmig sd sa sb sc) s = .next (stopTrap { u with migrating := u.migrating.erase held } x u.front.pc)) ∧
      (ready = true → ∀ pl w, M.exec (pmigChecks sa sb sc) s1 = (.ok pl, w) →
        let ko := (keysOf w pl pl.base (2 ^ 14)).getD []
        let u := deliverFor w (sectorsOf ko)
        let kn := (keysOf u { pl with leaf := newLeaf pl.leaf len } pl.base (2 ^ 14)).getD []
        let moves := ko.zip kn
        let old := u.mem.num pl.leafAt 8
        (unreadable u ko = false → ∃ t, exec (.pmig sd sa sb sc) s = .next t ∧
          t.mem = (u.mem.sets (moves.map (fun p => (p.2, u.mem.get p.1)))).putNum (movedKey moves pl.leafAt) 8 (newLeaf old len) ∧
          t.migrating = (u.migrating.erase held).map (fun x => { x with leafAt := movedKey moves x.leafAt }) ∧
          (∀ x ∈ t.shelves, x ∈ u.shelves ∨ x.own = sideShelf) ∧
          t.rd sd = (if sd = 0 then 0 else BitVec.ofNat 64 old) ∧ (∀ r, r ≠ sd → t.rd r = u.rd r) ∧ t.front.pc = u.front.pc + 8) ∧
        (∀ p, (ko.zipIdx).find? (fun p => unreadable u [p.1]) = some p → exec (.pmig sd sa sb sc) s =
          .next (stopTrap { u with migrating := u.migrating.erase held } (mkTrap causeDataError 0 0 ((pl.base + p.2) / 32 * 32)) u.front.pc))))

/-- A walk fills the agent's TLB, a shoot-down empties it of what it names, a promotion checks, drains, moves and replaces
the entry (R301, R302, R303, R308, R311, R313, R314). A page walk for the stream whose turn it is, of a page whose
walks are not held and with no translation there, fills the TLB of an agent that has one with the page that the
translation reaches and keeps every other agent's entries. A received shoot-down drops exactly the agent's matching
entries. PRMCTL while not BUSY, in a module that has not failed, takes ASID; with GO it sets RESULT to the first
failing check, or becomes BUSY, enters the region in the table of migrations and drops its translations from every
agent. A promotion goes on once every agent has acknowledged, while its stack is not held in reset: with no message or
residual for the region, it ends with RESULT 5 where its shelf entries exceed the side shelf; with no shelf entry and
no bad word, with RESULT 6 where a frame or a table word cannot be read, with 3 where the 129 entries have changed,
and else moves the 128 frames in order, replaces the level-1 entry and gives RESULT 1. BUSY is then clear. (Log
entries 28, 29, 57, 78 and 87 name what the model chose, what a shoot-down waits for among it.) -/
def Obligations.PagingEvents : Prop :=
  ∀ (sid : BitVec 16) (agent : BitVec 15) (asid : BitVec 12) (va len v : Word) (wr : Bool) (st : BitVec 4) (s : State),
    let n := st.toNat
    let r := s.stack n
    (s.front.status ≠ .idle → s.front.sid = sid → pageHeld s s.front.asid va.toNat = false → tlbSize agent.toNat ≠ 0 →
      tlbHit s agent.toNat s.front.asid va.toNat = none →
      ∀ pl u, M.exec (xlate agent.toNat va.toNat (if wr then .write else .read) 0) s = (.ok pl, u) →
      ∃ t, exec (.pageWalk sid agent va wr) s = .next t ∧ t.mem = u.mem ∧ t.front = u.front ∧
        (∃ e ∈ t.tlb, e.agent = agent.toNat ∧ e.asid = s.front.asid ∧ e.base = pl.base ∧ e.bits = pl.bits ∧ e.leafAt = pl.leafAt) ∧
        (∀ e, e.agent ≠ agent.toNat → (e ∈ t.tlb ↔ e ∈ s.tlb))) ∧
    (∃ t, exec (.shootdownReceive agent asid va len) s = .next t ∧ t.mem = s.mem ∧
      ∀ e, e ∈ t.tlb ↔ e ∈ s.tlb ∧ ¬ (e.agent = agent.toNat ∧ e.asid = asid ∧
        (len.toNat = 2 ^ 64 - 1 ∨ (len = 0 ∧ va.toNat / 2 ^ e.bits = e.base / 2 ^ e.bits) ∨
          (len ≠ 0 ∧ e.base < va.toNat + len.toNat ∧ va.toNat < e.base + 2 ^ e.bits)))) ∧
    (r.prmBusy = true ∨ s.regs.fail = true → exec (.prmctlGo st v) s = .next s) ∧
    (r.prmBusy = false → s.regs.fail = false → v.getLsbD 0 = true → ∃ t, exec (.prmctlGo st v) s = .next t ∧ (t.stack n).prmAsid = v.extractLsb' 16 12 ∧
      (promotionCheck s n ≠ 0 → (t.stack n).prmBusy = false ∧ (t.stack n).prmResult = BitVec.ofNat 3 (promotionCheck s n)) ∧
      (promotionCheck s n = 0 → t.mem = s.mem ∧ (t.stack n).prmBusy = true ∧ (t.stack n).prmResult = 0 ∧
        (∃ m ∈ t.migrating, m.stack = some n ∧ m.asid = v.extractLsb' 16 12 ∧ m.base = r.prmva.toNat ∧ m.bits = 21 ∧ m.held = false) ∧
        ∀ e ∈ t.tlb, ¬ (e.asid = v.extractLsb' 16 12 ∧ e.base < r.prmva.toNat + 2 ^ 21 ∧ r.prmva.toNat < e.base + 2 ^ e.bits))) ∧
    (let ready := r.prmBusy && acked s (fun _ => true) r.prmAsid r.prmva.toNat (2 ^ 21) && !dieHeld s (8 + n)
     let ls := r.prmSeen.drop 1
     let at1 := s.phys (smKey r.prment.toNat)
     let now := smallLeaves s (s.mem.num at1 8)
     let moves := promotionMove s ls r.prmdst.toNat
     let readable := ls.all (fun e => smPresent s (remapped s (pteFrame e * 2 ^ 14))) && !promotionBad s n
     let ends (v : BitVec 3) (m : Memory) : Prop := ∃ t, exec (.promotionDone st) s = .next t ∧ (t.stack n).prmBusy = false ∧
       (t.stack n).prmResult = v ∧ (∀ x ∈ t.migrating, x.stack ≠ some n) ∧ (s.regs.evEn = false → t.mem = m)
     (ready = false → exec (.promotionDone st) s = .next s) ∧
     (ready = true → s.residuals = [] → s.msgs = [] → s.homeQ = [] →
       (s.shelves.any (fun e => inFrames s ls (32 * e.sector)) = true → 8192 < sideCount s n moves → ends 5 s.mem) ∧
       (s.shelves = [] → s.poison = [] →
         (readable = false → ends 6 s.mem) ∧
         (readable = true → promotionSeen s n ≠ r.prmSeen → ends 3 s.mem) ∧
         (readable = true → promotionSeen s n = r.prmSeen →
           ends 1 ((s.mem.sets (moves.map (fun p => (p.2, s.mem.get p.1)))).putNum (movedKey moves at1) 8
             (leafAttrs (now.headD 0) - 2 + 4 + (now.foldl (fun a e => a ||| (e &&& 0x180)) 0) + r.prmdst.toNat / 2 ^ 14 * 2 ^ 26))))))

/-- logctl, logmark and logsync set the context's policy and budget, take a record's index, and give HEAD or TAIL (R357,
R362, R363, R373, R374, R375). logctl STATUS gives LOGC and goes on. With a context, POLICY sets its policy to bit 0
of SA and BUDGET, for 10 or more, its budget to the low five bits; without one, or for a smaller budget, they take
ILLEGAL_OPERAND code 13. With its recorded operations complete, logmark gives all ones without a context; in a
recording context whose ring has room and that holds nothing back it takes the next index, gives it in SD and raises
HEAD by one. logsync gives 0 without a context, HEAD in a recording context, TAIL in replay, written into the block;
before that it waits, and only notes that a stop of the stream is put off until it ends. -/
def Obligations.LogInstructions : Prop :=
  ∀ (sd sa : SReg) (imm : BitVec 31) (s : State),
    exec (.logctlStatus sd sa) s = .next ((s.wr sd (csrRead s 0x051)).done) ∧
    (s.myLog = none →
      exec (.logctlPolicy sd sa) s = .next (stopTrap s (operandTrapHi 13) s.front.pc) ∧
      exec (.logctlBudget sd sa) s = .next (stopTrap s (operandTrapHi 13) s.front.pc) ∧
      (recordedDone s = true → exec (.logmark sd sa imm) s = .next ((s.wr sd (BitVec.allOnes 64)).done) ∧
        exec (.logsync sd) s = .next ((s.wr sd 0).done))) ∧
    (∀ c, s.myLog = some c →
      (∃ t c', exec (.logctlPolicy sd sa) s = .next t ∧ t.logCtx c.id = some c' ∧ c'.policyGap = (s.rd sa).getLsbD 0 ∧
        t.rd sd = (if sd = 0 then 0 else csrRead t 0x051) ∧ t.front.pc = s.front.pc + 8) ∧
      ((s.rd sa).toNat % 32 < 10 → exec (.logctlBudget sd sa) s = .next (stopTrap s (operandTrapHi 13) s.front.pc)) ∧
      (10 ≤ (s.rd sa).toNat % 32 → ∃ t c', exec (.logctlBudget sd sa) s = .next t ∧ t.logCtx c.id = some c' ∧
        c'.budget.toNat = (s.rd sa).toNat % 32 ∧ t.rd sd = (if sd = 0 then 0 else csrRead t 0x051) ∧ t.front.pc = s.front.pc + 8) ∧
      (recordedDone s = true → c.replay = false →
        (c.held = [] → c.gap = none → c.used < c.cap - 1 → ∃ t c', exec (.logmark sd sa imm) s = .next t ∧
          t.rd sd = (if sd = 0 then 0 else c.nextIndex) ∧ t.logCtx c.id = some c' ∧ c'.head = c.head + 1 ∧ c'.held = [] ∧
          t.front.pc = s.front.pc + 8) ∧
        exec (.logsync sd) s = .next (((s.putHead c).wr sd c.head).done)) ∧
      (recordedDone s = true → c.replay = true → exec (.logsync sd) s = .next (((s.putTail c).wr sd c.tail).done))) ∧
    (recordedDone s = false → exec (.logsync sd) s = .next { s with front := { s.front with tlbOp := .waiting } })

/-- The log writer writes what it holds in order, rereads TAIL and HEAD, and a replay that meets a gap or waits too long
diverges (R358, R363, R364, R365, R366, R368, R370). For a context with a live stream, the writer's step gives the
oldest record held back its index when the ring has room: one record fewer is held and HEAD is one higher; in a gap it
drops the record, which keeps its index; with a full ring under STALL it takes TAIL from the block and nothing else
changes. A poll of TAIL takes it from the block when the ring is full, and closes a gap once two slots are free. In
replay, a poll of HEAD takes it from the block, a step passes TAIL over every consumed record from it on, and a GAP
record at TAIL marks the context diverged with its index. When the budget of a waiting operation outside a broadcast
expires, with no stream of the context pre-empted or halted, the context diverges at the object's next record, or at
HEAD, and the stream takes REPLAY_DIVERGE with cause 2 at its pc, unless the stop must wait. (Log entries 56 and 63
name what the model chose.) -/
def Obligations.LogEvents : Prop :=
  ∀ (id sid : BitVec 16) (s : State) (c : LogCtx), s.logCtx id = some c →
    (c.replay = false → c.members ≠ [] → ∀ r rs, c.held = r :: rs →
      (c.gap = none → c.full = false → ∃ t c', exec (.logRecord id) s = .next t ∧ t.logCtx id = some c' ∧ c'.held = rs ∧ c'.head = c.head + 1) ∧
      (c.gap ≠ none → ∃ t c', exec (.logRecord id) s = .next t ∧ t.logCtx id = some c' ∧ c'.held = rs ∧ c'.head = c.head ∧
        c'.nextIndex = c.nextIndex + 1) ∧
      (c.gap = none → c.policyGap = false → c.full = true → (readTail s c).full = true →
        exec (.logRecord id) s = .next (s.setLog (readTail s c)))) ∧
    (c.replay = false → c.members ≠ [] → c.held = [] →
      (c.gap = none → ∃ t c', exec (.logTailPoll id) s = .next t ∧ t.logCtx id = some c' ∧
        c'.tail = (if c.full then BitVec.ofNat 64 (s.num (c.block + 24) 8) else c.tail) ∧ t.mem = s.mem) ∧
      (c.gap ≠ none → (readTail s c).used + 2 ≤ c.cap → ∃ t c', exec (.logTailPoll id) s = .next t ∧ t.logCtx id = some c' ∧
        c'.gap = none ∧ c'.gapNew = true ∧ c'.head = c.head + 1)) ∧
    (c.replay = true →
      (∃ t c', exec (.replayHeadPoll id) s = .next t ∧ t.logCtx id = some c' ∧
        c'.headSeen = BitVec.ofNat 64 (s.num (c.block + 16) 8) ∧ t.mem = s.mem) ∧
      (c.tail ≠ c.headSeen → c.stopped = false → (recordAt s c c.tail).type = 6 →
        ∃ t c', exec (.replayConsume id) s = .next t ∧ t.logCtx id = some c' ∧ c'.diverged = true ∧ c'.stopped = true ∧ c'.dividx = c.tail) ∧
      (c.tail ≠ c.headSeen → (recordAt s c c.tail).type ≠ 6 →
        ∃ t c', exec (.replayConsume id) s = .next t ∧ t.logCtx id = some c' ∧ c'.tail ∉ c'.consumed ∧
          (∀ i ∈ c'.consumed, i ∈ c.consumed) ∧ (c'.consumed.length + (c'.tail - c.tail).toNat ≤ c.consumed.length)) ∧
      (s.front.status ≠ .idle → s.front.sid = sid → s.front.logMode ≠ 0 → s.front.logId = id → s.front.retiring = false → s.front.bcasts = [] →
        c.stopped = false → budgetRests s c = false → ∀ o, s.front.waitObj = some o →
        let p := match nextFor s c o with
          | some q => (q.1, q.2.type.toNat)
          | none => (c.headSeen, 0)
        let m := markDiverged s c p.1
        let u : State := { m with front := { m.front with waitObj := none } }
        (∃ c', u.logCtx id = some c' ∧ c'.diverged = true ∧ c'.stopped = true ∧ c'.dividx = p.1) ∧
        (∀ v x pc, settleStop u (mkTrap causeDiverge (2 + 16 * p.2) 0 p.1.toNat) s.front.pc = .stopped v x pc →
          exec (.replayBudgetExpiry sid) s = .next (deliver v x pc)) ∧
        (∀ v, settleStop u (mkTrap causeDiverge (2 + 16 * p.2) 0 p.1.toNat) s.front.pc = .waits v →
          exec (.replayBudgetExpiry sid) s = .next s)))

/-- A command that passes its checks takes a slot and a tag and goes on; its engine reads, writes sector by sector, acts,
and writes the token (R233, R236, R241, R244, R249, R250, R246, R266, R272, R285, R290, R291). Each copy-class command
(cpy, cpyt, cpyg, cpys, cpyf, cpym, sprog, srun, chase) takes the trap of its first failing check at its own address.
One that passes, has a free slot and nothing to wait for goes on 8 bytes later with CTAG one higher: with owners at
their own pace it stands in the least free slot and nothing else changes; in lockstep it is taken to its end at once,
and unless it must wait or an earlier one's token comes first its slot is free again and its token register holds the
token. The engine's events act on the command in their slot, and on none where it is empty: a sector event first reads
all sources (or, when the reading is done and the owners have retired its stamp, writes the first held sector whole,
as the write event does, which leaves fewer held); an action is reserved at its banks, then performed and finished; a
run starts at a pseudo-channel, the last run's outputs are gathered, and a hop of a chase is made. The token event
writes the token of a command that has ended, joins its flags to FFLAGS and frees the slot. Element j of a copy in a
format of whole bytes goes to element j of WD (cpys: WD.BASE plus index j times STRIDE; cpym: element j of each
replica, R × 1024 × the step further on), with the code of element j of WS (cpyt: at WS.BASE plus the shape's
displacement; cpyg: WS.BASE plus index j times STRIDE; cpyf: FILL), and a sector that one write makes up then holds
these bytes and no other byte changes. (Log entries 3, 30 and 68 name what the model chose.) -/
def Obligations.CopyCommandsAndEvents : Prop :=
  ∀ (a : CArgs) (i : Instr) (k : CmdKind) (s : State),
    (i, k) ∈ [(Instr.cpy a, CmdKind.cpy), (.cpyt a, .cpyt), (.cpyg a, .cpyg), (.cpys a, .cpys), (.cpyf a, .cpyf), (.cpym a, .cpym),
      (.sprog a, .sprog), (.srun a, .srun), (.chase a, .chase)] →
    (∀ t, cmdFault k a s = some t → exec i s = .next (stopTrap s t s.front.pc)) ∧
    (∀ slot, cmdFault k a s = none → freeSlot s = some slot → cmdReady k a s = true → k = .sprog → selectorBad s (newCmd i k a slot s) = true →
      exec i s = .next (stopTrap s (mkTrap causePlacement 0) s.front.pc)) ∧
    (∀ slot, cmdFault k a s = none → freeSlot s = some slot → (k = .sprog → selectorBad s (newCmd i k a slot s) = false) → cmdReady k a s = true →
      let x := newCmd i k a slot s
      (s.pace = .runAhead → ∃ t, exec i s = .next t ∧ t.front.cmds = s.front.cmds ++ [x] ∧ t.front.csr.ctag = s.front.csr.ctag + 1 ∧
        t.front.pc = s.front.pc + 8 ∧ t.front.s = s.front.s ∧ t.front.w = s.front.w ∧ t.mem = s.mem ∧ t.shelves = s.shelves) ∧
      (s.pace = .lockstep → ∃ t, exec i s = .next t ∧
        let e := wholeCmd x (takeSlot x s)
        t.mem = e.1.mem ∧ t.micro = e.1.micro ∧ (e.2.finished = false → t = putCmd e.1 e.2) ∧
        (e.2.finished = true → (∀ c ∈ s.front.cmds, c.tok ≠ a.st) → t.rd a.st = (if a.st = 0 then 0 else tokenOf e.2) ∧
          (∀ r, r ≠ a.st → t.rd r = e.1.rd r) ∧ t.front.csr.fflags = e.1.front.csr.fflags ||| e.2.flags ∧
          (∀ c ∈ t.front.cmds, c.slot ≠ e.2.slot)))) ∧
    (∀ (sid : BitVec 16) (slot : BitVec 9) (pc : BitVec 10), s.front.status ≠ .idle → s.front.sid = sid →
      let acts (e : Instr) (m : M Cmd) : Prop := ∀ d u, M.exec m s = (.ok d, u) → exec e s = .next (putCmd u d)
      (cmdAt s slot.toNat = none → exec (.copySector sid slot) s = .next s ∧ exec (.tokenWrite sid slot) s = .next s) ∧
      (∀ c, cmdAt s slot.toNat = some c →
        (c.readDone = false → stampMet s c.stamp = true → readWhole c = true → acts (.copySector sid slot) (readCmd c)) ∧
        (writeMet s c = true →
          acts (.copySector sid slot) (writeSector true c) ∧ acts (.copyWritePerform sid slot) (writeSector true c) ∧
          (∀ d u, M.exec (writeSector true c) s = (.ok d, u) → d.held.length < c.held.length ∧ (∀ x ∈ d.held, x ∈ c.held) ∧
            (∀ x xs pl ks s1, c.held = x :: xs → (∀ y ∈ xs, y.ord ≠ x.ord) → d.fault = false → c.fault = false →
              M.exec (destKeys (copyEye s c) 0 x.va.toNat x.bytes.length) s = (.ok (pl, ks), s1) → ks.Nodup →
              u.mem.gets ks = x.bytes ∧ (∀ y, y ∉ ks → u.mem.get y = s1.mem.get y)))) ∧
        (actionDue s c = true → c.reserved = false → roomFor s (actionSectors s c) = true →
          ∃ t d, exec (.actionReserve sid slot) s = .next t ∧ cmdAt t slot.toNat = some d ∧
            { d with cancelled := c.cancelled } = { c with reserved := true } ∧ t.mem = s.mem) ∧
        (actionDue s c = true → c.reserved = true → ∀ d u, M.exec (doAction c) s = (.ok d, u) →
          exec (.followOnAction sid slot) s = .next (putCmd u { d with finished := true })) ∧
        (tokenDue s c = true → s.front.status = .running → ∃ t, exec (.tokenWrite sid slot) s = .next t ∧
          t.rd c.tok = (if c.tok = 0 then 0 else tokenOf c) ∧ (∀ r, r ≠ c.tok → t.rd r = s.rd r) ∧
          t.front.csr.fflags = s.front.csr.fflags ||| c.flags ∧ (∀ x, x ∈ t.front.cmds ↔ x ∈ s.front.cmds ∧ x.slot ≠ c.slot) ∧
          t.front.w = s.front.w ∧ t.mem = s.mem) ∧
        (kindOf c = some .srun → c.len ≠ 0 → c.readDone = false →
          (ownerMet s (some (8192 + pc.toNat)) c.stamp = true → vectorMet s c = true →
            acts (.srunStart sid slot pc) (startRuns c (immOf c) (some pc.toNat))) ∧
          (stampMet s c.stamp = true → c.runs ≠ [] → c.fault = false → (∀ r ∈ c.runs, r.started = true) →
            acts (.srunEnd sid slot pc) (endRuns c c.runs))) ∧
        (kindOf c = some .chase → c.len ≠ 0 → c.readDone = false → stampMet s c.stamp = true → acts (.chaseHop sid slot) (chaseStep c)))) ∧
    (∀ (c : Cmd) (e : Eye) (step r j : Nat) (g : Gather) (u u1 u2 u3 : State) (va x : Nat),
      k ∈ [CmdKind.cpy, .cpyt, .cpyg, .cpys, .cpyf, .cpym] → c.fmt.packed = false → e.elem = j →
      let f := c.fmt
      let vl := c.carry.vl.toNat
      let at_ (w : Win) (x : Int) : Nat := wrapNat 64 ((Desc.base w.d : Int) + x * Desc.stride w.d)
      let foot (p : Nat) : M Nat := if declared (c.win 3).d p f.bytes then readAt e f p 0 else trapM (mkTrap causeFootprint 0 j p)
      let dest : M Nat := match k with
        | .cpys => do let x ← readIndex e (c.win 2).d j; pure (at_ (c.win 0) x)
        | .cpym => pure (((flatVa (c.win 0).d f j).1 + r * step * 1024) % 2 ^ 64)
        | _ => do let p ← elemVa e vl (c.win 0) f j; pure p.1
      let source : M Nat := match k with
        | .cpyf => pure (c.fill.toNat % 2 ^ f.bits)
        | .cpyt => do let h ← readShape e (c.win 2).d vl; foot (wrapNat 64 ((Desc.base (c.win 1).d : Int) + ({ h with base := 0 } : Shape).addr j))
        | .cpyg => do let x ← readIndex e (c.win 2).d j; foot (at_ (c.win 1) x)
        | _ => readElem e vl (c.win 1) f j
      M.exec dest u = (.ok va, u1) → M.exec source u1 = (.ok x, u2) → M.exec (checkDest k c e j va f.bytes) u2 = (.ok (), u3) →
      ∃ g', M.exec (gatherOne k c e step r g j) u = (.ok g', u3) ∧ g'.writes = g.writes ++ [(va, wordBytes f.bytes x)] ∧
        g'.fault = g.fault ∧ va / 32 ∈ g'.sectors)

/-- Homes answer accumulate messages within their quota, idle residuals are sent, and the stacks' controllers open,
refresh, sleep, replace and drop (R278, R279, R280, R292, R293, R294, R335, R336, R337, R339, R340, R341). A home
answers an unanswered message once: an ordinary one under its quota is counted, queued and accepted while fewer than
32 are queued there, else refused with nothing else changed; a must-accept one is performed and accepted; a peer's
home may do either. Of the queued messages a home performs its oldest: its partials join the elements they name, there
and in each shelf entry of the sector, and no other byte changes; a sector that is uncorrectable is logged instead. An
accepted answer ends the message; a refused one is folded into the sender's residual tile. An idle entry is sent as a
must-accept message and leaves its tile. A new interval drops the home's counts and takes AQUOTA's QUOTA. A hint of a
present, awake channel opens its row, marked hinted, unless requests wait at the bank (log entry 108); closing drops a
hinted row. A refresh of a row in use is postponed and counted while fewer than PMAX are, else done: the count goes
and only an idle row closes. Self-refresh closes the channel's rows, unless a request, one queued, SRIDLE 0 or active
engines keep it awake; leaving it wakes it. The first failed layer of a stack takes its spare; a later one leaves
service, with 4 GiB of the stack and of the module, and its addresses are absent with no byte left. SRMRET with GO
drops the frame's remap entry once no access redirected through it is under way (what counts as one is log entry 64).
(Log entries 31, 32 and 84 name what the model chose.) -/
def Obligations.AccumulateAndStackEvents : Prop :=
  ∀ (k : BitVec 16) (bank : BitVec 13) (e : BitVec 7) (home : BitVec 14) (pc : BitVec 10) (db : BitVec 6) (busy : Bool) (st lay : BitVec 4)
    (v : Word) (s : State),
    let n := st.toNat
    let r := s.stack n
    (s.msgs[k.toNat]? = none → exec (.accumAnswer k) s = .next s ∧
      (s.homeQ[k.toNat - s.msgs.length]? = none → exec (.accumMessage k) s = .next s) ∧
      (∀ m, s.homeQ[k.toNat - s.msgs.length]? = some m → ∃ q, s.homeQ.find? (fun x => x.home == m.home) = some q ∧
        exec (.accumMessage k) s = .next (performMsg { s with homeQ := s.homeQ.erase q } q))) ∧
    (∀ m, s.msgs[k.toNat]? = some m →
      (m.answer = none → m.must = false → m.peer = none → quotaOf s m.home ≤ sentTo s m.home m.sender ∨ 32 ≤ queuedAt s m.home →
        exec (.accumMessage k) s = .next { s with msgs := s.msgs.set k.toNat { m with answer := some false } }) ∧
      (m.answer = none → m.must = false → m.peer = none → sentTo s m.home m.sender < quotaOf s m.home → queuedAt s m.home < 32 →
        ∃ t, exec (.accumMessage k) s = .next t ∧ t.mem = s.mem ∧ t.homeQ = s.homeQ ++ [m] ∧
          t.msgs[k.toNat]? = some { m with answer := some true } ∧ sentTo t m.home m.sender = sentTo s m.home m.sender + 1 ∧
          (∀ h x, h ≠ m.home ∨ x ≠ m.sender → sentTo t h x = sentTo s h x)) ∧
      (m.answer = none → m.must = false → m.peer ≠ none → ∃ t ok, exec (.accumMessage k) s = .next t ∧ t.mem = s.mem ∧
        t.homeQ = s.homeQ ++ (if ok then [m] else []) ∧ t.msgs[k.toNat]? = some { m with answer := some ok }) ∧
      (m.answer = none → m.must = true → ∃ t, exec (.accumMessage k) s = .next t ∧ t.mem = (performMsg s m).mem ∧ t.homeQ = s.homeQ ∧
        t.msgs[k.toNat]? = some { m with answer := some true } ∧ (∀ h x, sentTo t h x = sentTo s h x)) ∧
      (m.answer = some true → exec (.accumAnswer k) s = .next { s with msgs := s.msgs.eraseIdx k.toNat }) ∧
      (m.answer = some false → exec (.accumAnswer k) s = .next (foldMsg { s with msgs := s.msgs.eraseIdx k.toNat } m))) ∧
    (∀ m : AccMsg,
      let all := keysFrom (32 * m.sector) 32
      let sum := addBytes m.fmt m.parts
      let u := performMsg s m
      (all.any (fun y => s.poison.contains (y / 8)) = true →
        u = sweepRemaps (s.event 6 0 [32 * m.sector % 2 ^ 53, m.sid.toNat])) ∧
      (unreadable s all = false → (∀ p ∈ m.parts, (p.1 + 1) * m.fmt.bytes ≤ 32) →
        u.mem.gets all = sum (s.mem.gets all) ∧ (∀ y, y ∉ partKeys m.fmt m.sector m.parts → u.mem.get y = s.mem.get y) ∧
        u.shelves = s.shelves.map (fun x => if x.sector = m.sector then { x with bytes := sum x.bytes } else x) ∧
        (∀ l x, m.fmt = .n64 → m.parts = [(l, x)] →
          let at_ := keysFrom (32 * m.sector + 8 * l) 8
          bytesNat (u.mem.gets at_) = (bytesNat (s.mem.gets at_) + x.toNat) % 2 ^ 64))) ∧
    (∀ x, (s.residuals.filter (fun q => q.bank == bank.toNat))[e.toNat]? = some x →
      ∃ t, exec (.residualIdleExpiry bank e) s = .next t ∧ t.residuals = s.residuals.erase x ∧
        t.mem = (performMsg { s with residuals := s.residuals.erase x } x.msg).mem) ∧
    (∃ t, exec (.quotaInterval home) s = .next t ∧ quotaOf t home.toNat = s.regs.quota.toNat ∧ (∀ x, sentTo t home.toNat x = 0) ∧
      (∀ h x, h ≠ home.toNat → sentTo t h x = sentTo s h x) ∧ t.mem = s.mem ∧ t.front = s.front) ∧
    (s.hints.find? (fun h => h.pc == pc) = none → exec (.hintActivate pc) s = .next s) ∧
    (∀ h, s.hints.find? (fun h => h.pc == pc) = some h → ∃ t, exec (.hintActivate pc) s = .next t ∧ t.hints = s.hints.erase h ∧
      (let queued := ∃ d ∈ requestsAt s pc.toNat, d.bank = h.bank.toNat
       (queued → t.rows = s.rows) ∧
       (¬ queued → s.asleep.contains pc = false → s.regs.stackMask.getLsbD (pc.toNat / 64) = true →
        (s.stack (pc.toNat / 64)).layers.getLsbD (h.bank.toNat / 4) = true →
        { pc := pc, bank := h.bank, row := h.row, hinted := true } ∈ t.rows)) ∧
      (∀ x ∈ s.rows, x.pc ≠ pc ∨ x.bank ≠ h.bank → x ∈ t.rows) ∧ t.mem = s.mem ∧ t.front = s.front) ∧
    (∃ t, exec (.hintRowClose pc db) s = .next t ∧ (∀ x, x ∈ t.rows ↔ x ∈ s.rows ∧ ¬ (x.pc = pc ∧ x.bank = db ∧ x.hinted = true)) ∧
      t.mem = s.mem) ∧
    (∃ t, exec (.refreshDue pc db busy) s = .next t ∧ t.mem = s.mem ∧
      let c := postponedOf s pc db
      (busy = true → t.rows = s.rows ∧ (c < (s.stack (pc.toNat / 64)).pmax.toNat → postponedOf t pc db = c + 1) ∧
        ((s.stack (pc.toNat / 64)).pmax.toNat ≤ c → postponedOf t pc db = 0)) ∧
      (busy = false → postponedOf t pc db = 0 ∧ ∀ x, x ∈ t.rows ↔ x ∈ s.rows ∧ ¬ (x.pc = pc ∧ x.bank = db))) ∧
    (busy = true ∨ (s.stack (pc.toNat / 64)).sridle = 0 ∨ engineBusy s pc.toNat = true ∨ requestsAt s pc.toNat ≠ [] → exec (.selfRefreshEntry pc busy) s = .next s) ∧
    (busy = false → (s.stack (pc.toNat / 64)).sridle ≠ 0 → engineBusy s pc.toNat = false → requestsAt s pc.toNat = [] → s.asleep.contains pc = false →
      ∃ t, exec (.selfRefreshEntry pc busy) s = .next t ∧ pc ∈ t.asleep ∧ (∀ x, x ∈ t.rows ↔ x ∈ s.rows ∧ x.pc ≠ pc) ∧ t.mem = s.mem) ∧
    (∃ t, exec (.selfRefreshExit pc) s = .next t ∧ (∀ x, x ∈ t.asleep ↔ x ∈ s.asleep ∧ x ≠ pc) ∧ t.mem = s.mem) ∧
    (s.regs.stackMask.getLsbD n = false ∨ r.layers.getLsbD lay.toNat = false → exec (.layerFailure st lay) s = .next s) ∧
    (s.regs.stackMask.getLsbD n = true → r.layers.getLsbD lay.toNat = true →
      (r.spareU = false → ∃ t, exec (.layerFailure st lay) s = .next t ∧ t.stack n = { r with spareU := true } ∧ t.regs.stackMask = s.regs.stackMask ∧
        t.regs.spares = s.regs.spares ||| 4 ∧ t.front = s.front) ∧
      (r.spareU = true → ∃ t, exec (.layerFailure st lay) s = .next t ∧ (t.stack n).layers.getLsbD lay.toNat = false ∧
        (t.stack n).gib = r.gib - 4 ∧ t.regs.smgib = s.regs.smgib - 4 ∧
        (∀ p, p / 2 ^ 36 % 16 = n → p / 2 ^ 18 % 16 = lay.toNat → smPresent t p = false) ∧
        (∀ c ∈ t.mem, ¬ (c.1 < 2 ^ 52 ∧ c.1 / 2 ^ 36 % 16 = n ∧ c.1 / 2 ^ 18 % 16 = lay.toNat)))) ∧
    (let f := (v.extractLsb' 14 38).toNat
     (s.regs.fail = false → v.getLsbD 63 = true → (∃ x ∈ r.remap, x.1 = f) → ∃ t, exec (.srmret st v) s = .next t ∧ t.mem = s.mem ∧
       (∀ x ∈ (t.stack n).remap, x ∈ r.remap) ∧ (∀ x ∈ r.remap, x.1 ≠ f → x.1 ∉ r.retiring → x ∈ (t.stack n).remap) ∧
       (∀ x ∈ r.remap, x.1 = f → (x ∈ (t.stack n).remap ↔ remapped s (x.2 * 2 ^ 14) / 2 ^ 14 ∈ framesUsed s)) ∧
       (∀ x ∈ (t.stack n).remap, x.1 = f → f ∈ (t.stack n).retiring)) ∧
     (v.getLsbD 63 = false ∨ (∀ x ∈ r.remap, x.1 ≠ f) → exec (.srmret st v) s = .next s))

/-- The distributor takes a queue's record, rejects or places it, pre-empts for slices and terminations, and resumes what
it may (R104, R105, R106, R110, R113, R115, R119, R121, R122, R388, R397, R398). LQTAIL takes its value; more records
than the ring holds set OVR and clear EN. LQCFG takes its fields, EN only with SIZE 4 to 16, and is held to the same
fill. Where no stream that is away can be resumed, a record with a bad field writes LSTAT 2 + 16 × 1, and a placement
with a free block and SIDs (taken now, or waiting and now feasible) starts its streams with s1 to s3, pc, SHARE, PRIO,
MODE, TVEC, place and the maps as they now stand, raises HEAD and the domain counter, and writes LSTAT. A terminated
launch's running streams are pre-empted. A pre-emption that times out is withdrawn, which takes a number of its own
(log entry 88), unless the stream is doomed or held back. A time slice changes only pre-emptions, and pre-empts the
victims, beside those at their saves, that let the first stream that is away in. After a FAIL the queue registers do
nothing. A stream that is away and may be resumed takes its image's registers and pc, with windows cleared, on the
free sequencer. HOSTINT raises HOST at its stream. The reset of an attested die puts it in STATE 4 and erases the keys
of its links and the translations its agents hold. (Log entries 13, 18, 19, 22, 23, 24, 46 and 88 name what the model
chose.) -/
def Obligations.DistributorEvents : Prop :=
  ∀ (q : BitVec 6) (v32 : BitVec 32) (v : Word) (sid : BitVec 16) (die : BitVec 5) (s : State),
    let r := s.lq q
    let k := headKey r
    let spill (y : LQueue) : Bool := decide (2 ^ y.size.toNat < (y.tail - y.head).toNat)
    let held (y : LQueue) : LQueue := { y with ovr := y.ovr || spill y, en := y.en && !spill y }
    let first : Prop := ∀ f ∈ runList s, resumeAt s f s.running = none
    let start (e : Instr) (x : LRec) : Prop := ∀ b sid0 maps, x.op = 0 → x.logMode = 0 → x.gvalid = false → first →
      mapsOf s x r.cls = some maps →
      (∃ c ∈ blocks x.domLog, (blockCells c x.domLog).all (cellOk s) = true) →
      chooseBlock s (some q) x s.running = some b → lowestSid s x.streams = some sid0 →
      ∃ t, exec e s = .next t ∧ t.mem = (s.putNum (k + 56) 8 (1 + 2 ^ 16 * sid0 + 2 ^ 32 * (s.nextDom + 1).toNat)).mem ∧
        (t.lq q).head = r.head + 1 ∧ (t.lq q).taken = none ∧ t.nextDom = s.nextDom + 1 ∧ t.front = s.front ∧
        (∀ f ∈ s.fronts, f ∈ t.fronts) ∧
        (∀ j < x.streams, ∃ f ∈ t.fronts, f.status = .running ∧ f.sid = BitVec.ofNat 16 (sid0 + j) ∧ f.pc = BitVec.ofNat 64 x.entry ∧
          f.s.get 1 = BitVec.ofNat 64 x.args ∧ f.s.get 2 = BitVec.ofNat 64 j ∧ f.s.get 3 = BitVec.ofNat 64 x.streams ∧
          f.csr.share = BitVec.ofNat 8 x.share ∧ f.csr.prio = BitVec.ofNat 3 x.prio ∧ f.csr.mode = r.supv ∧ f.csr.tvec = r.tvec ∧
          f.domBase = BitVec.ofNat 7 b ∧ f.domLog = BitVec.ofNat 3 x.domLog ∧ f.maps = maps ∧ f.asid = r.asid ∧ f.root = r.root)
    (s.regs.fail = true → exec (.lqtailWrite q v32) s = .next s ∧ exec (.lqcfgWrite q v) s = .next s) ∧
    (s.regs.fail = false → ∃ t, exec (.lqtailWrite q v32) s = .next t ∧ (∀ p, p ≠ q → t.lq p = s.lq p) ∧ t.mem = s.mem ∧ t.front = s.front ∧
      t.lq q = held { r with tail := v32 }) ∧
    (s.regs.fail = false → ∃ t, exec (.lqcfgWrite q v) s = .next t ∧ (∀ p, p ≠ q → t.lq p = s.lq p) ∧ t.mem = s.mem ∧ t.front = s.front ∧
      t.lq q = held { r with
        en := v.getLsbD 0 && decide (4 ≤ (v.extractLsb' 2 5).toNat ∧ (v.extractLsb' 2 5).toNat ≤ 16), cls := v.getLsbD 1
        size := v.extractLsb' 2 5, pcap := v.extractLsb' 8 3, vec := v.extractLsb' 12 11, irq := v.getLsbD 23, ovr := r.ovr && v.getLsbD 24 }) ∧
    (s.regs.ready = false → exec (.launchRecord q) s = .next s ∧ exec (.placeLaunch q) s = .next s ∧ exec .timeSlice s = .next s) ∧
    (s.regs.ready = true → r.en = true → r.head ≠ r.tail →
      (r.taken = none →
        let w := (List.range 8).map (fun i => s.num (k + 8 * i) 8)
        (badField (recOf w) w r.pcap.toNat = true → first → ∃ t, exec (.launchRecord q) s = .next t ∧ t.mem = (s.putNum (k + 56) 8 18).mem ∧
          (t.lq q).head = r.head + 1 ∧ t.front = s.front ∧ t.fronts = s.fronts ∧ t.epoch = s.epoch + 1) ∧
        (badField (recOf w) w r.pcap.toNat = false → start (.launchRecord q) (recOf w))) ∧
      (∀ y, r.taken = some y → badField (recOf y.words) y.words r.pcap.toNat = false → start (.placeLaunch q) (recOf y.words))) ∧
    (s.launches.find? (fun l => l.sid0 == sid && l.killers != []) = none → exec (.terminateLaunch sid) s = .next s) ∧
    (∀ l, s.launches.find? (fun l => l.sid0 == sid && l.killers != []) = some l → (∀ f ∈ s.streams, f.sid ∈ l.left → f.status ≠ .out) →
      ∃ t, exec (.terminateLaunch sid) s = .next t ∧ t.mem = s.mem ∧
        ∀ x ∈ l.left, ∀ f, t.streams.find? (fun f => f.status != .idle && f.sid == x) = some f → f.retiring = false → f.preempt = true) ∧
    (s.front.status = .running → s.front.sid = sid →
      (s.front.preempt = true → doomed s s.front = false → s.front.heldBack = false → ∃ t, exec (.pretmoExpiry sid) s = .next t ∧
        t.front = { s.front with preempt := false, ppre := false } ∧ t.fronts = s.fronts ∧ t.epoch = s.epoch + 1 ∧
        (s.regs.evEn = false → t.mem = s.mem ∧ t.regs.evLost = if s.regs.evLost = 0xFFFF then 0xFFFF else s.regs.evLost + 1)) ∧
      (s.front.preempt = false ∨ doomed s s.front = true ∨ s.front.heldBack = true → exec (.pretmoExpiry sid) s = .next s) ∧
      (∃ t, exec (.hostint v) s = .next t ∧ t.mem = s.mem ∧ t.regs.hostintLow = v.extractLsb' 0 32 ∧
        (v.getLsbD 32 = false → t.front = s.front ∧ t.fronts = s.fronts) ∧
        (v.getLsbD 32 = true → v.extractLsb' 0 16 = sid →
          t.front = { s.front with phost := some (v.extractLsb' 16 16) } ∧ t.fronts = s.fronts))) ∧
    (s.regs.ready = true → ∃ t, exec .timeSlice s = .next t ∧ t.mem = s.mem ∧ t.launches = s.launches ∧
      t.streams.map (fun f => { f with ppre := false, preempt := false }) = s.streams.map (fun f => { f with ppre := false, preempt := false }) ∧
      ∀ f, (runList s).find? (fun g => g.csr.prio.toNat == f.csr.prio.toNat) = some f →
        (∀ g ∈ runList s, g.csr.prio.toNat ≤ f.csr.prio.toNat) → (∀ p, queueOpen s p = true → (s.lq p).taken = none) →
        (∀ g ∈ s.running, f.csr.prio.toNat ≤ g.csr.prio.toNat) → (∃ g ∈ s.running, g.csr.prio.toNat = f.csr.prio.toNat) →
        ∀ vs, sliceVictims s f (s.running.filter (fun g => !g.preempt)) []
          ((sortBy sliceBefore (s.running.filter (fun g => g.csr.prio.toNat == f.csr.prio.toNat && !spared g && !g.preempt))).filter
            (fun g => (blockCells f.domBase.toNat f.domLog.toNat).any (covers g))) = some vs →
        ∀ g ∈ vs, ∀ h ∈ t.streams, h.sid = g.sid → h.status = .running → h.retiring = false → h.preempt = true) ∧
    (s.streams.find? (fun f => f.status == .out && f.sid == sid) = none → exec (.streamResume sid) s = .next s) ∧
    (s.front.status = .out → s.front.sid = sid → s.front.logMode = 0 → s.front.byDevice = false → s.front.pdie = none → s.front.heldToks = [] →
      (∀ g ∈ s.fronts, g.sid = sid → g.status ≠ .out) → ∀ c ks u, resumeAt s s.front s.running = some c →
      M.exec (asSupervisor (imagePages .both)) s = (.ok ks, u) →
      ∃ t, exec (.streamResume sid) s = .next t ∧ t.front.status = .running ∧ t.front.cell = BitVec.ofNat 7 c.1 ∧ t.front.seq = c.2 ∧
        t.front.pc = BitVec.ofNat 64 (u.mem.num (imageKey ks 0x200) 8) &&& ~~~7 ∧
        (∀ x : SReg, x ≠ 0 → t.rd x = BitVec.ofNat 64 (u.mem.num (imageKey ks (8 * x.toNat)) 8)) ∧
        (∀ x : WReg, t.rdW x = 0) ∧ t.front.csr.wpres = 0 ∧ t.front.csr.vl = 0 ∧ t.front.icache = [] ∧ t.front.resumed = true) ∧
    (26 ≤ die.toNat ∨ (s.die die.toNat).state ≠ 2 → exec (.dieReset die) s = .next s) ∧
    (die.toNat < 26 → (s.die die.toNat).state = 2 → ∃ t, exec (.dieReset die) s = .next t ∧ (t.die die.toNat).state = 4 ∧
      (∀ l ∈ t.links, if dirKind l.dir = 0 then endDie (dirSrc l.dir) ≠ die.toNat ∧ endDie (dirDst l.dir) ≠ die.toNat
        else dirDst l.dir / 32 ≠ die.toNat) ∧
      (∀ e ∈ t.tlb, agentDie e.agent ≠ some die.toNat))

/-- At their own pace, banks begin and retire broadcasts, answer pulls and perform accesses; the floor and the results
follow; stops and interrupts are taken (R139, R142, R186, R188, R189, R192, R193, R194, R197, R211, R224, R388). For
the running stream, with owners at their own pace: an owner of the domain that may begin the next broadcast performs
its items, and then has none left to do; with none left and the accesses it waits for performed it retires the
broadcast. The floor passes the last broadcast when every owner of its elements has retired it, its flags enter
FFLAGS, and every owner hears the floor; a result of the tree is written. A pull is answered with the sector as of its
stamp, and its race tag as it stands, once its owner has retired that and no older pull parked there is ready, else
parked while the owner holds fewer than 128, and else refused with the ISN retired there; a reply reaches the
requester; a refused pull is sent again when its stamp's floor is heard. An access whose turn it is is performed at
its owner, a store above the floor when the shelf has room, and its reply writes a load's register. A sub-bank at rest
is drowsy. A found fault is delivered; PREEMPT and HOST enter the handler as interrupts with TPC the pc. (Log entries
3 and 62 name what the model chose.) -/
def Obligations.BankEvents : Prop :=
  ∀ (sid k : BitVec 16) (own : BitVec 14) (j : BitVec 7) (bank : BitVec 13) (sub : BitVec 4) (s : State),
    (∃ t, exec (.subbankDrowsy bank sub) s = .next t ∧ t.mem = s.mem ∧ t.front = s.front ∧
      ∀ n, n ∈ t.drowsy ↔ n ∈ s.drowsy ∨ n = 16 * bank.toNat + sub.toNat) ∧
    (s.front.status = .running → s.front.sid = sid →
      (∀ p, s.front.pulls[k.toNat]? = some p →
        let phase (o : Out) (u : State) (x : PullPhase) : Prop :=
          o = .next { u with front := { u.front with pulls := u.front.pulls.set k.toNat { p with phase := x } } }
        (p.phase = .sent ∨ p.phase = .parked → pullReady s p = true → olderReady s p = false →
          exec (.pullRequest sid k) s = .next (sweepRemaps (setPull s k.toNat
            { p with phase := .replied ((keysFrom (32 * p.sector) 32).map (byteAt s p.stamp)) (s.tag p.sector) }))) ∧
        (p.phase = .sent → pullReady s p = false ∨ olderReady s p = true → phase (exec (.pullRequest sid k) s) (chargeWait s p)
          (if (parkedAt s p.own).length < 128 then .parked else .refused (retiredOf s p.own))) ∧
        (p.phase = .parked → pullReady s p = false ∨ olderReady s p = true → exec (.pullRequest sid k) s = .next s) ∧
        (∀ bs tag, p.phase = .replied bs tag → ∃ t, exec (.pullReply sid k) s = .next t ∧
          let u : State := { s with front := { s.front with pulls := s.front.pulls.eraseIdx k.toNat } }
          ((∀ w ∈ s.front.works, ¬ (w.own = p.from_ ∧ w.isn = p.isn)) → t = u) ∧
          (∀ w b info, s.front.works.find? (fun w => w.own == p.from_ && w.isn == p.isn) = some w → bcastAt s p.isn = some (b, info) →
            t = goOn u b info { w with bufs := w.bufs ++ [(p.sector, bs, tag)] })) ∧
        (∀ r, p.phase = .refused r →
          (p.stamp ≤ floorAt s p.from_ → phase (exec (.pullResend sid k) s) s .sent) ∧
          (floorAt s p.from_ < p.stamp → exec (.pullResend sid k) s = .next s))) ∧
      (∀ a, s.front.accesses[j.toNat]? = some a →
        (accessTurn s j.toNat a = true → a.isRel = false → ∃ t a', exec (.scalarAccess sid j) s = .next t ∧ t.front.accesses[j.toNat]? = some a' ∧
          (∀ sg sd, a.kind = .load sg sd → a' = { a with done := some (BitVec.ofNat 64 (bytesNat ((keysFrom a.key a.size).map (byteAt s a.stamp)))) } ∧
            t.mem = s.mem) ∧
          (a.kind = .store → s.floor < a.stamp → shelfRoom s a.keys a.stamp = false → a' = a ∧ t.mem = s.mem) ∧
          (a.kind = .store → a.stamp ≤ s.floor ∨ shelfRoom s a.keys a.stamp = true → a'.done = some 0 ∧ (unreadable s (keysFrom a.key a.size) = false →
            t.mem = s.mem.sets ((keysFrom a.key a.size).zip (wordBytes a.size a.data.toNat))))) ∧
        (accessTurn s j.toNat a = false → exec (.scalarAccess sid j) s = .next s) ∧
        (∀ v, a.done = some v → a.acked = false → (ownerOf s a.key).isSome = true → a.wrote = [] → (a.isRel && relHeld s a.key) = false →
          ∃ t, exec (.scalarReply sid j) s = .next t ∧
          t.front.accesses = s.front.accesses.eraseIdx j.toNat ∧ t.mem = s.mem ∧
          (∀ sg sd, a.kind = .load sg sd → t.rd sd = (if sd = 0 then 0 else loadValue sg a.size v.toNat) ∧ ∀ r, r ≠ sd → t.rd r = s.rd r) ∧
          (∀ sd, a.kind = .rel sd → t.rd sd = (if sd = 0 then 0 else v) ∧ ∀ r, r ≠ sd → t.rd r = s.rd r))) ∧
      (s.front.found = none → exec (.preciseStop sid) s = .next s) ∧
      (∀ n ti, s.front.found = some (n, ti) → shelfFull ti = false → ∀ u b t, settleTo n (withdrawWaits s).front.bcasts (withdrawWaits s) = (u, .fault b t) →
        exec (.preciseStop sid) s = .next (deliverStop (stopFault u b t u.front.pc))) ∧
      (mayInterrupt s = false → exec (.interruptTaken sid) s = .next s) ∧
      (mayInterrupt s = true → Still s → s.front.csr.tvec ≠ 0 → s.front.pwatch = none → s.front.logMode = 0 →
        ∃ t, exec (.interruptTaken sid) s = .next t ∧ t.front.csr.int = true ∧ t.front.csr.tpc = s.front.pc ∧
          t.front.pc = BitVec.ofNat 64 (8 * s.front.csr.tvec.toNat) ∧ t.front.csr.mode = true ∧ t.front.csr.ie = false ∧ t.mem = s.mem ∧
          (s.front.ppre = true → t.front.csr.cause = 0x20 ∧ t.front.ppre = false ∧ t.front.phost = s.front.phost) ∧
          (∀ m, s.front.ppre = false → s.front.phost = some m →
            t.front.csr.cause = 0x21 ∧ t.front.csr.tinfo = m.setWidth 63 ∧ t.front.phost = none)) ∧
      (s.pace = .runAhead →
        (∀ b info, inDomain s.front.domBase.toNat s.front.domLog.toNat own.toNat = true → bcastAt s (retiredOf s own.toNat + 1) = some (b, info) →
          s.front.works.find? (fun w => w.own == own.toNat && w.isn == b.isn) = none →
          (mayBegin s own.toNat b info = false → exec (.bankBeginBroadcast sid own) s = .next s) ∧
          (mayBegin s own.toNat b info = true →
            let todo := itemsOf s b info own.toNat
            let e := ownerEye own.toNat b []
            let fp := match (M.exec (info.body.foot (eyeOf s b) b) s).1 with
              | .ok r => r
              | .error _ => none
            ∀ items u v c, M.exec (do info.body.ready e b; info.body.plan e fp b)
                (setWork s { own := own.toNat, isn := b.isn, todo := todo, bufs := [] }) = (.ok items, u) →
              workItems own.toNat (items.filter (fun it => todo.contains it.no)) u b todo = (v, c, [], none) →
              ∃ t, exec (.bankBeginBroadcast sid own) s = .next t ∧ t.mem = v.mem ∧ t.front.s = v.front.s ∧
                { own := own.toNat, isn := b.isn, todo := [], bufs := [] } ∈ t.front.works)) ∧
        (∀ w, s.front.works.find? (fun w => w.own == own.toNat && w.isn == retiredOf s own.toNat + 1) = some w →
          (w.todo = [] → owedAt s own.toNat (retiredOf s own.toNat + 1) = true → ∃ t, exec (.bankRetire sid own) s = .next t ∧
            retiredOf t own.toNat = retiredOf s own.toNat + 1 ∧ (∀ o, o ≠ own.toNat → retiredOf t o = retiredOf s o) ∧
            (∀ x ∈ t.front.works, ¬ (x.own = own.toNat ∧ x.isn = retiredOf s own.toNat + 1)) ∧ t.mem = s.mem) ∧
          (w.todo ≠ [] ∨ owedAt s own.toNat (retiredOf s own.toNat + 1) = false → exec (.bankRetire sid own) s = .next s)) ∧
        (∀ b info, landed s = false → s.front.bcasts = [b] → frontDriven b.word = false → infoOfWord b.word = some info → allRetired s b info = true →
          let out := info.body.root s.front.sid b
          (∃ t, exec (.floorDelivery sid) s = .next t ∧ t.front.csr.floor = BitVec.ofNat 48 b.isn ∧ t.front.bcasts = [] ∧
            t.front.csr.fflags = s.front.csr.fflags ||| (b.flags ||| out.1) ∧ (∀ p ∈ t.front.progress, p.floor = t.floor) ∧
            (∀ e ∈ t.shelves, e.action = true ∨ e.sid ≠ s.front.sid ∨ b.isn < e.isn) ∧ t.mem = s.mem) ∧
          (∀ r, info.body.result = some r → ∃ t, exec (.treeResultReturn sid) s = .next t ∧ t.rd r = (if r = 0 then 0 else out.2) ∧
            (∀ x, x ≠ r → t.rd x = s.rd x) ∧ t.front.csr.floor = BitVec.ofNat 48 b.isn ∧ t.front.bcasts = [] ∧ t.mem = s.mem))))

/-- Tokens, clock regions, fibres, attestation, sealed flits, keys and peers move as the fabric and trust rules say (R405,
R407, R408, R410, R411, R413, R414, R420, R424, R425, R427, R428). On a direction that is up a flit opens under the
generation of its KPH when its tag verifies: CTR follows it, on a fibre OPEN is taken, and with the SEQ expected of
its source and class it is taken and SEQ rises, else it and what follows are discarded. One that does not open
discards its source and class, and the sixteenth in a row re-keys, as does one under an erased key. A resend ends the
discarding. A rollover goes through three steps to the next generation, the other KPH and CTR 0, and keeps the old key
until 4,096 flits erase it; one ordered meanwhile waits. LKREKEY with GO re-keys one direction. A token at its
receiver is unspent and opens the classes with 32 free buffers; a writer of another die captures it for the flits of
open classes that it wants, at most 32, which CTR counts, or waits. A governor moves an unpinned region by one level
within its bounds. A fibre parks its upper half while above the minimum, wakes what is parked, and ends its wake with
what has locked; an empty flit brings OPEN. The die whose turn it is fails at the first step of the exchange whose
answer is wrong (STATE 3, FAILSTEP the step), having signed at steps 5 and 6 as far as it came, or passes (STATE 2,
GEN one higher). A peer that passes is attested, and its reset takes that and its keys away. (Log entries 14, 15, 16,
102 and 105 name what the model chose.) -/
def Obligations.FabricAndTrustEvents : Prop :=
  ∀ (d : BitVec 32) (x : Flit) (src : BitVec 8) (cls : BitVec 3) (up pass : Bool) (v : Word) (ch ep locked : BitVec 8) (rep req : List (BitVec 3))
    (rg : BitVec 9) (die : BitVec 5) (r : SpdmReply) (f4 : BitVec 4) (p : BitVec 6) (s : State),
    let l := s.dir d
    let f := s.fibre ch.toNat
    let tk := s.token ch
    let rekeyed (t : State) : Prop := (t.dir d).gen = 0 ∧ (t.dir d).kph = false ∧ (t.dir d).oldKey = false ∧ (t.dir d).roll = 0 ∧
      (t.dir d).rekeys = l.rekeys + 1 ∧ (t.dir d).seqs = l.seqs ∧ (t.dir d).discard = []
    (dirUp s d x.cls.toNat = false → exec (.flitReceive d x.route x.fields x.payload x.tag) s = .next s) ∧
    (dirUp s d x.cls.toNat = true →
      (l.genOf x.kph = none → l.gen ≠ 0 → ∃ t, exec (.flitReceive d x.route x.fields x.payload x.tag) s = .next t ∧ rekeyed t) ∧
      ((l.genOf x.kph = none ∧ l.gen = 0) ∨ (∃ g, l.genOf x.kph = some g ∧ tagOk s d g x = false) →
        (15 ≤ l.fails.toNat → ∃ t, exec (.flitReceive d x.route x.fields x.payload x.tag) s = .next t ∧ rekeyed t) ∧
        (l.fails.toNat < 15 → ∃ t, exec (.flitReceive d x.route x.fields x.payload x.tag) s = .next t ∧ t.mem = s.mem ∧
          t.dir d = ({ l with fails := l.fails + 1 } : LinkDir).discards x.src x.cls)) ∧
      (∀ g, l.genOf x.kph = some g → tagOk s d g x = true → ∃ t, exec (.flitReceive d x.route x.fields x.payload x.tag) s = .next t ∧ t.mem = s.mem ∧
        (t.dir d).fails = 0 ∧ (t.dir d).gen = l.gen ∧
        (t.dir d).ctr = (if x.kph = l.kph ∧ l.ctr.toNat ≤ x.ctr.toNat then x.ctr + 1 else l.ctr) ∧
        (dirKind d = 1 → dirIn d = 1 → (t.fibre (dirDst d)).opn = x.opn) ∧
        ((x.src, x.cls) ∉ l.discard → x.seq = l.expected x.src x.cls →
          (t.dir d).expected x.src x.cls = x.seq + 1 ∧ (t.dir d).discard = l.discard ∧
          ∀ a b, (a, b) ≠ (x.src, x.cls) → (t.dir d).expected a b = l.expected a b) ∧
        ((x.src, x.cls) ∈ l.discard ∨ x.seq ≠ l.expected x.src x.cls →
          (t.dir d).seqs = l.seqs ∧ (x.src, x.cls) ∈ (t.dir d).discard ∧ (∀ y ∈ l.discard, y ∈ (t.dir d).discard)))) ∧
    (∃ t, exec (.flitResend d (src, cls)) s = .next t ∧ t.dir d = { l with discard := l.discard.filter (· != (src, cls)) } ∧ t.mem = s.mem) ∧
    (dirUp s d 0 = true → ∃ t, exec (.keyRollover d) s = .next t ∧ t.mem = s.mem ∧
      (l.roll = 0 → l.oldKey = true → t.dir d = { l with ordered := true }) ∧
      (l.roll = 0 → l.oldKey = false → t.dir d = { l with roll := 1, ordered := false }) ∧
      (l.roll = 1 → t.dir d = { l with roll := 2 }) ∧
      (l.roll = 2 → t.dir d = { l with roll := 0, gen := l.gen + 1, kph := !l.kph, ctr := 0, oldKey := true, newFlits := 0 })) ∧
    (dirUp s d 0 = false → exec (.keyRollover d) s = .next s) ∧
    (l.oldKey = true → l.newFlits = 4096 → ∃ t, exec (.keyErase d) s = .next t ∧ t.mem = s.mem ∧
      t.dir d = { l with oldKey := false, newFlits := 0, roll := if l.ordered then 1 else l.roll, ordered := false }) ∧
    (l.oldKey = false ∨ l.newFlits ≠ 4096 → exec (.keyErase d) s = .next s) ∧
    (∃ t, exec (.lkrekey v) s = .next t ∧ t.front = s.front ∧ t.regs.lkrekeyLow = v.extractLsb' 0 32 ∧
      (v.getLsbD 32 = false → t.links = s.links ∧ t.mem = s.mem) ∧
      (v.getLsbD 32 = true → v.extractLsb' 0 32 = d → d ≠ BitVec.allOnes 32 → dirUp s d 0 = true → rekeyed t)) ∧
    (ch.toNat < 130 → ∃ t, exec (.tokenPass ch ch rep req) s = .next t ∧ t.mem = s.mem ∧ (t.token ch).spent = false ∧ (t.token ch).last = none ∧
      (t.token ch).prev = tk.last ∧ (t.token ch).free = tk.free ∧ (t.token ch).waiting = tk.waiting ∧
      ∀ y < 7, (t.token ch).mask.getLsbD y = decide (32 ≤ (tk.free.get (Fin.ofNat 7 y)).toNat)) ∧
    (ch.toNat < 130 → ep.toNat < 130 → endDie ep.toNat ≠ endDie ch.toNat → dirUp s (lightDir ep ch) 0 = true →
      let a := s.dir (lightDir ep ch)
      let want := rep ++ req
      let b := tk.burst ch.toNat (min a.room 32) want
      b.length ≤ 32 ∧ (∀ c ∈ b, c ∈ want ∧ tk.mask.getLsbD c.toNat = true ∧ c ≠ 7 ∧ (c = 5 → ch = 128 ∨ ch = 129)) ∧
      (tk.spent = false → tk.prev ≠ some ep ∨ (∀ w ∈ tk.waiting, w = ep) → b ≠ [] →
        ∃ t, exec (.tokenPass ch ep rep req) s = .next t ∧ t.mem = s.mem ∧ (t.token ch).spent = true ∧ (t.token ch).last = some ep ∧
          (t.token ch).waiting = tk.waiting.filter (· != ep) ∧ (t.dir (lightDir ep ch)).ctr = a.ctr + BitVec.ofNat 32 b.length ∧
          ∀ c < 7, (t.token ch).free.get (Fin.ofNat 7 c) = tk.free.get (Fin.ofNat 7 c) - BitVec.ofNat 7 (b.count (BitVec.ofNat 3 c))) ∧
      (tk.spent = true ∨ (tk.prev = some ep ∧ ∃ w ∈ tk.waiting, w ≠ ep) ∨ b = [] → want ≠ [] →
        ∃ t, exec (.tokenPass ch ep rep req) s = .next t ∧ t.links = s.links ∧ t.mem = s.mem ∧
          t.token ch = { tk with waiting := (t.token ch).waiting } ∧ ep ∈ (t.token ch).waiting ∧ (∀ w ∈ tk.waiting, w ∈ (t.token ch).waiting))) ∧
    (∃ t, exec (.governorLevel rg up) s = .next t ∧ t.mem = s.mem ∧
      (s.regs.pin = true ∨ regionMin s rg.toNat = none → t = s) ∧
      (∀ m, s.regs.pin = false → regionMin s rg.toNat = some m → levelOf t rg =
        (if up then (if levelOf s rg = 3 then 3 else levelOf s rg + 1) else if m < levelOf s rg then levelOf s rg - 1 else levelOf s rg))) ∧
    (dirUp s (fibreIn s ch) 5 = false → exec (.emptyFlit ch x) s = .next s) ∧
    (∀ g, dirUp s (fibreIn s ch) 5 = true → (s.dir (fibreIn s ch)).genOf x.kph = some g → tagOk s (fibreIn s ch) g x = true →
      ∃ t, exec (.emptyFlit ch x) s = .next t ∧ (t.fibre ch.toNat).opn = x.opn ∧ (t.dir (fibreIn s ch)).seqs = (s.dir (fibreIn s ch)).seqs ∧
        t.mem = s.mem) ∧
    (∃ t, exec (.fibrePark ch) s = .next t ∧ t.mem = s.mem ∧
      (2 ^ (f.minact.toNat + 1) < f.act.toNat → f.waking = false → f.dead = false →
        (t.fibre ch.toNat).act = BitVec.ofNat 4 (f.act.toNat / 2) ∧
        ∀ w < 8, (t.fibre ch.toNat).parked.getLsbD w =
          !(((List.range 8).filter (fun w => !f.parked.getLsbD w)).take (f.act.toNat / 2)).contains w) ∧
      (f.act.toNat ≤ 2 ^ (f.minact.toNat + 1) ∨ f.waking = true ∨ f.dead = true → t.fibre ch.toNat = f)) ∧
    (∃ t, exec (.fibreWake ch) s = .next t ∧ t.mem = s.mem ∧ (t.fibre ch.toNat).waking = (f.waking || (f.parked != 0 && !f.dead)) ∧
      (t.fibre ch.toNat).act = f.act ∧ (t.fibre ch.toNat).parked = f.parked) ∧
    (f.waking = true → ∃ t, exec (.wakeLock ch locked) s = .next t ∧ (t.fibre ch.toNat).waking = false ∧
      ((t.fibre ch.toNat).act = 2 ∨ (t.fibre ch.toNat).act = 4 ∨ (t.fibre ch.toNat).act = 8) ∧
      (f.parked &&& ~~~locked = 0 → t.mem = s.mem ∧ (t.fibre ch.toNat).act = 8 ∧ (t.fibre ch.toNat).parked = 0)) ∧
    (f.waking = false → exec (.wakeLock ch locked) s = .next s) ∧
    (mayAttest s die.toNat = false → exec (.attestation die r.toSpdmOffer r.toSpdmProof) s = .next s ∧ exec (.attestTimeout die f4) s = .next s) ∧
    (mayAttest s die.toNat = true →
      let k := die.toNat
      let e := s.die k
      let failed (o : Out) (step : BitVec 4) (signed : Nat) : Prop :=
        ∃ t, o = .next t ∧ t.die k = { (Die.signs signed e).1 with state := 3, failStep := step }
      let o := exec (.attestation die r.toSpdmOffer r.toSpdmProof) s
      let named := r.version = some true ∧ r.caps = some (BitVec.allOnes 7) ∧ r.algs = some (BitVec.allOnes 4) ∧ r.cert = some (Config.dieUid k, true)
      let measured := (Die.signs 2 e).2 = 2 ∧ r.challenge = some true ∧ r.meas = some (true, referenceOf s k) ∧ (referenceOf s k).length = 4
      (r.version ≠ some true → failed o 1 0) ∧
      (r.version = some true → r.caps ≠ some (BitVec.allOnes 7) → failed o 2 0) ∧
      (r.version = some true → r.caps = some (BitVec.allOnes 7) → r.algs ≠ some (BitVec.allOnes 4) → failed o 3 0) ∧
      (r.version = some true → r.caps = some (BitVec.allOnes 7) → r.algs = some (BitVec.allOnes 4) → r.cert ≠ some (Config.dieUid k, true) → failed o 4 0) ∧
      (named → (Die.signs 2 e).2 = 0 ∨ r.challenge = none → failed o 5 0) ∧
      (named → (Die.signs 2 e).2 ≠ 0 → r.challenge = some false → failed o 5 1) ∧
      (named → (Die.signs 2 e).2 = 2 → r.challenge = some true → r.meas = none → failed o 6 1) ∧
      (named → (Die.signs 2 e).2 = 2 → r.challenge = some true → (∃ m, r.meas = some m ∧ m ≠ (true, referenceOf s k)) → failed o 6 2) ∧
      (named → measured → r.psk ≠ some true → failed o 7 2) ∧
      (named → measured → r.psk = some true →
        ∃ t, o = .next t ∧ t.die k = { (Die.signs 2 e).1 with state := 2, failStep := 0, gen := e.gen + 1 }) ∧
      (1 ≤ f4.toNat → f4.toNat < 8 → failed (exec (.attestTimeout die f4) s) f4 (silentSigns f4.toNat))) ∧
    (s.regs.ready = true → p ≠ s.regs.pod → peerReached s p = true → (∀ k ∈ attestOrder, (s.die k).state ≠ 1 ∧ (s.die k).state ≠ 4) →
      ∀ e, (s.die 24).sign = some e →
      ∃ t, exec (.peerAttestation p pass) s = .next t ∧ t.mem = s.mem ∧ t.die 24 = e ∧ t.sessions = (if pass then p :: s.sessions else s.sessions) ∧
        ∀ y < 64, t.regs.podatt.getLsbD y = (s.regs.podatt.getLsbD y || (pass && y == p.toNat))) ∧
    (∃ t, exec (.peerReset p) s = .next t ∧ t.mem = s.mem ∧ (∀ y ∈ t.links, ¬ (dirKind y.dir = 1 ∧ (s.fibre (dirDst y.dir)).peer = p)) ∧
      (∀ y < 64, t.regs.podatt.getLsbD y = (s.regs.podatt.getLsbD y && y != p.toNat)))

/-- Debug commands halt, resume, step, read and write as R430 to R433 give; trace records are written or counted; charges
join the stall table (R430, R431, R432, R433, R434, R436). While no command is in progress: halting a stream with
nothing under way stops it at its pc in a stop window, TISN kept, RESULT 0, HALTED 1; a command for a SID that is not
live gives RESULT 1; one that needs a halted stream gives 2 for one that runs. On a halted stream: resume lets it run,
closing the window the halt opened, and reissues its queue with the first entry exempt; step lets one instruction run,
HALTED 0 until it lands; a register read gives DBGDATA the register DBGADDR names, a write changes it and no other
scalar register or window; a memory read gives the eight bytes of the aligned word, a write stores DBGDATA there and
at no other byte, and one whose address does not translate, or a read of a word that cannot be read, gives 3 and
leaves what the walk has set. A forward goes out from the master to an attested peer and ends with the peer's reply
or, with RESULT 4, its timeout; from no master it gives 5, for an unattested or unreachable peer 4. One that comes in
is performed as a local command and answered with DBGSTAT and DBGDATA. A busy command interface ignores commands. A
trace record on its way is written at the ring's HEAD while there is room, after one for those lost before, else
counted as lost. A charge of a bank that is reported adds to the entry of its pair. (Log entries 49, 67, 94 and 99
name what the model chose.) -/
def Obligations.DebugEvents : Prop :=
  ∀ (sid : BitVec 16) (v d adr dat : Word) (p : BitVec 6) (res : BitVec 3) (h : Bool) (r0 r1 r2 r3 : Word) (own : BitVec 14)
    (cpc ppc : Word) (parked refused : BitVec 32) (s : State),
    let cmds : List Instr := [.debugHalt sid, .debugResume sid, .debugStep sid, .debugReadRegister sid, .debugWriteRegister sid,
      .debugReadMemory sid, .debugWriteMemory sid]
    let ended (t : State) (r : BitVec 3) (x : Bool) : Prop := t.regs.dbgBusy = false ∧ t.regs.dbgResult = r ∧ dbgIsHalted t = x
    let ring (u : State) (r0 r1 r2 r3 : Nat) : State :=
      let a := u.regs.trace.toNat + 32 * (u.regs.trcHead.toNat % (2 ^ u.regs.trcSize.toNat / 32))
      (((u.putNum (smKey a) 8 r0).putNum (smKey (a + 8)) 8 r1).putNum (smKey (a + 16)) 8 r2).putNum (smKey (a + 24)) 8 r3
    (s.regs.dbgBusy = true → (∀ i ∈ cmds, exec i s = .next s) ∧ exec (.debugForward (.sent v)) s = .next s) ∧
    (s.regs.dbgBusy = false → sid ≠ 0xFFFF →
      (s.live sid = false → ∀ i ∈ cmds, ∃ t, exec i s = .next t ∧ ended t 1 false ∧ t.mem = s.mem ∧ t.front = s.front) ∧
      (s.live sid = true → isHalted s sid = false → ∀ i ∈ cmds.tail, ∃ t, exec i s = .next t ∧ ended t 2 false ∧ t.mem = s.mem ∧ t.front = s.front) ∧
      (s.front.status = .running → s.front.sid = sid → (∀ g ∈ s.fronts, g.status ≠ .idle → g.sid ≠ sid) →
        (s.front.halted = false → Still s → haltable s = true → ∃ t, exec (.debugHalt sid) s = .next t ∧ ended t 0 true ∧ t.front.halted = true ∧
          t.front.stopWin = true ∧ t.front.pc = s.front.pc ∧ t.front.s = s.front.s ∧ t.front.w = s.front.w ∧ t.front.csr.tisn = s.front.csr.tisn ∧ t.mem = s.mem) ∧
        (s.front.halted = true →
          let a : State := dbgName sid s
          (∃ t, exec (.debugResume sid) s = .next t ∧ ended t 0 false ∧ t.front.halted = false ∧ t.mem = s.mem ∧
            t.front.stopWin = (s.front.stopWin && !s.front.haltWin) ∧ t.front.pc = s.front.pc ∧ t.front.s = s.front.s ∧ t.front.w = s.front.w ∧
            (s.front.haltQueue = false → t.front =
              { s.front with halted := false, stopWin := s.front.stopWin && !s.front.haltWin, haltWin := false, haltQueue := false }) ∧
            (∀ b bs, s.front.haltQueue = true → s.front.queue = b :: bs → t.front.queue = [] ∧ t.front.exemptAt = some b.isn ∧
              t.front.bcasts.length = s.front.bcasts.length + bs.length + 1)) ∧
          (∃ t, exec (.debugStep sid) s = .next t ∧ ended t 0 false ∧ t.front.halted = false ∧ t.front.dbg ≠ .free ∧ t.front.pc = s.front.pc ∧
            t.front.s = s.front.s ∧ t.front.w = s.front.w ∧ t.mem = s.mem) ∧
          (∃ t, exec (.debugReadRegister sid) s = .next t ∧ ended t 0 true ∧ t.front = s.front ∧ t.mem = s.mem ∧
            (∀ r : SReg, s.regs.dbgAddr = r.setWidth 64 → t.regs.dbgData = s.rd r) ∧
            (∀ n : BitVec 12, s.regs.dbgAddr = 0x1000 + n.setWidth 64 → t.regs.dbgData = csrRead s n) ∧
            (∀ w : WReg, s.regs.dbgAddr = 0x2000 + 2 * w.setWidth 64 → t.regs.dbgData = (s.rdW w).extractLsb' 0 64) ∧
            (∀ w : WReg, s.regs.dbgAddr = 0x2001 + 2 * w.setWidth 64 → t.regs.dbgData = (s.rdW w).extractLsb' 64 64)) ∧
          (∃ t, exec (.debugWriteRegister sid) s = .next t ∧ ended t 0 true ∧ t.mem = s.mem ∧ t.front.pc = s.front.pc ∧
            (∀ r : SReg, s.regs.dbgAddr = r.setWidth 64 →
              (∀ x, t.rd x = if x = r ∧ x ≠ 0 then s.regs.dbgData else s.rd x) ∧ t.front.w = s.front.w ∧ t.front.csr = s.front.csr) ∧
            (∀ n : BitVec 12, s.regs.dbgAddr = 0x1000 + n.setWidth 64 → t.front = (csrWrite a n s.regs.dbgData).front) ∧
            (∀ w x : WReg, w ≠ 0 → s.regs.dbgAddr = 0x2000 + 2 * w.setWidth 64 → x ≠ w → t.rdW x = s.rdW x ∧ t.front.s = s.front.s)) ∧
          (∀ ks u, M.exec (dbgWord s.regs.dbgAddr.toNat .read) a = (.ok ks, u) → unreadable u ks = false →
            ∃ t, exec (.debugReadMemory sid) s = .next t ∧ t.regs.dbgResult = 0 ∧ t.mem = u.mem ∧ t.front = u.front ∧
              t.regs.dbgData = BitVec.ofNat 64 (bytesNat (ks.map (byteAt u u.floor)))) ∧
          (∀ ks u, M.exec (dbgWord s.regs.dbgAddr.toNat .write) a = (.ok ks, u) → unreadable u ks = false →
            ∃ t, exec (.debugWriteMemory sid) s = .next t ∧ t.regs.dbgResult = 0 ∧ t.mem = u.mem.sets (ks.zip (wordBytes 8 s.regs.dbgData.toNat)) ∧
              t.front.s = u.front.s ∧ t.front.pc = u.front.pc) ∧
          (∀ ks u, M.exec (dbgWord s.regs.dbgAddr.toNat .read) a = (.ok ks, u) → unreadable u ks = true →
            ∃ t, exec (.debugReadMemory sid) s = .next t ∧ t.regs.dbgResult = 3 ∧ t.mem = u.mem ∧ t.front = u.front) ∧
          (∀ perm x u, M.exec (dbgWord s.regs.dbgAddr.toNat perm) a = (.error x, u) →
            (perm = .read → ∃ t, exec (.debugReadMemory sid) s = .next t ∧ t.regs.dbgResult = 3 ∧ t.mem = u.mem ∧ t.front = u.front) ∧
            (perm = .write → ∃ t, exec (.debugWriteMemory sid) s = .next t ∧ t.regs.dbgResult = 3 ∧ t.mem = u.mem ∧ t.front = u.front))))) ∧
    (s.regs.dbgBusy = false → v.getLsbD 26 = true → v.extractLsb' 20 6 ≠ s.regs.pod →
      (s.regs.dbgMaster = false → ∃ t, exec (.debugForward (.sent v)) s = .next t ∧ ended t 5 (dbgIsHalted s) ∧ t.front = s.front ∧ t.mem = s.mem) ∧
      (s.regs.dbgMaster = true → s.regs.podatt.getLsbD (v.extractLsb' 20 6).toNat = false ∨ pairFor s (v.extractLsb' 20 6).toNat 0 = none →
        ∃ t, exec (.debugForward (.sent v)) s = .next t ∧ ended t 4 (dbgIsHalted s) ∧ t.front = s.front ∧ t.mem = s.mem) ∧
      (s.regs.dbgMaster = true → s.regs.podatt.getLsbD (v.extractLsb' 20 6).toNat = true → pairFor s (v.extractLsb' 20 6).toNat 0 ≠ none →
        exec (.debugForward (.sent v)) s = .next { s with regs := { s.regs with dbgBusy := true, dbgSent := some (v.extractLsb' 20 6) } })) ∧
    (v.extractLsb' 20 6 ≠ s.regs.pod → exec (.debugForward (.arrived v adr dat)) s = .next s) ∧
    (v.extractLsb' 20 6 = s.regs.pod → v.getLsbD 26 = true → s.regs.dbgBusy = false → v.extractLsb' 0 16 = sid →
      let a : State := { s with regs := { s.regs with dbgAddr := adr, dbgData := dat } }
      ∀ m i u, cmds[m]? = some i → v.extractLsb' 16 4 = BitVec.ofNat 4 (m + 1) → exec i a = .next u →
        exec (.debugForward (.arrived v adr dat)) s =
          .next { u with regs := { u.regs with dbgReply := some (BitVec.ofNat 64 (dbgStat u), u.regs.dbgData) } }) ∧
    (s.regs.dbgSent ≠ some p → exec (.debugPeerTimeout p) s = .next s ∧ exec (.debugPeerReply p res h d) s = .next s) ∧
    (s.regs.dbgSent = some p →
      (∃ t, exec (.debugPeerTimeout p) s = .next t ∧ ended t 4 (dbgIsHalted s) ∧ t.regs.dbgSent = none ∧ t.front = s.front ∧ t.mem = s.mem) ∧
      (∃ t, exec (.debugPeerReply p res h d) s = .next t ∧ ended t res h ∧ t.regs.dbgSent = none ∧ t.regs.dbgData = d ∧ t.front = s.front ∧
        t.mem = s.mem)) ∧
    (let is (r : TraceRec) : Prop := r0 = r.cycle ++ r.sid ++ 0#4 ++ r.type ∧ r1 = 0#16 ++ r.isn ∧ r2 = r.w2 ∧ r3 = r.w3
     ((∀ r ∈ s.traceQ, ¬ is r) → exec (.traceRecord r0 r1 r2 r3) s = .next s) ∧
     (∀ r ∈ s.traceQ, is r → ∃ t, exec (.traceRecord r0 r1 r2 r3) s = .next t ∧ t.traceQ = s.traceQ.erase r ∧ t.front = s.front ∧
      let put (u : State) : State := ring u r0.toNat r1.toNat r2.toNat r3.toNat
      (traceRoom s = 0 → t.mem = s.mem ∧ t.regs.trcHead = s.regs.trcHead ∧ t.regs.trcLost = s.regs.trcLost + 1) ∧
      (traceRoom s ≠ 0 → s.regs.trcLost = 0 → t.regs.trcHead = s.regs.trcHead + 1 ∧ t.regs.trcLost = 0 ∧ t.mem = (put s).mem) ∧
      (2 ≤ traceRoom s → s.regs.trcLost ≠ 0 → t.regs.trcHead = s.regs.trcHead + 2 ∧ t.regs.trcLost = 0 ∧
        ∃ c : BitVec 40, t.mem = (put (let u := ring s (6 + 2 ^ 24 * c.toNat) 0 s.regs.trcLost.toNat 0
          { u with regs := { u.regs with trcHead := u.regs.trcHead + 1 } })).mem))) ∧
    (s.front.status ≠ .idle → s.front.sid = sid →
      let mine (c : Charge) : Bool := c.own == own.toNat && c.cpc == cpc && c.ppc == ppc
      let cyc := parked.toNat + refused.toNat
      (s.front.charges.find? mine = none → exec (.stallReport sid own cpc ppc parked refused) s = .next s) ∧
      (∀ c, s.front.charges.find? mine = some c → ∃ t, exec (.stallReport sid own cpc ppc parked refused) s = .next t ∧
        t.mem = s.mem ∧ t.front.csr = s.front.csr ∧ (stillWaits s c = false → t.front.charges = s.front.charges.erase c) ∧
        (s.front.stalls = [] → t.front.stalls = [{ cpc := c.cpc, ppc := c.ppc, cycles := cyc, lag := c.lag, waits := c.waits }]) ∧
        (∀ x, s.front.stalls = [x] → x.cpc = c.cpc → x.ppc = c.ppc → t.front.stalls = [{ x with
          cycles := (x.cycles + cyc) % 2 ^ 64, lag := if x.lag < c.lag then c.lag else x.lag, waits := x.waits + c.waits }])))

/-- Bring-up, repairs, failover, sensors, updates, power, and the host's accesses act as the service and host rules say
(R415, R416, R417, R419, R429, R437, R438, R439, R440, R441, R442, R445). Bring-up stops with FAIL in phase 1 without
power, in 2 without an image, else waits in phase 3 in the first passing slot, die 24 attested, no stream left;
calibration takes phase 4 to 5, and a pair whose trip is over 1,728 is dead. MEMGO (or its timeout) in phase 5 gives
READY with bank and stack memory zero and commits a staged image. A unit with a spare in a cell without running
streams is replaced, one without leaves with its cell; a failed fibre pair is dead, a failed waveguide spared or, with
none left, its channel removed. Hub 1 takes over from hub 0, or READY clears. A reading over TRIP ends every stream,
READY and the standby; one over THR, or over 4,400 W every die's, lowers the clock a step, one 5 below with power in
margin raises it. UPDCTL GO and the staging's end set BUSY and RESULT. A power loss ends every stream and the leaves.
BAR0 accesses are of 4 or 8 aligned bytes, a half written keeps the other; after FAIL none above 0x0FFF. A BAR2 access
within its size acts at the bytes its address names, or is answered by Completer Abort, an AtomicOp to a page without
SYSA by Unsupported Request; a failed one stores nothing. A completion ends its access's wait or fails it, or marks a
word. (Log entries 17, 37 to 42, 45, 47, 48, 53 and 78 name what the model chose.) -/
def Obligations.ServiceAndHostEvents : Prop :=
  ∀ (power boot i0 i1 seq fib bad ok wide : Bool) (unit rn : BitVec 13) (un temp : BitVec 8) (die : BitVec 5) (pw watts sid : BitVec 16)
    (img : Image) (cal : Calibration) (trip : BitVec 12) (v d e : Word) (off : BitVec 25) (size b2 : BitVec 4) (o : BitVec 40) (bs : List Byte)
    (ha : BitVec 52) (k : BitVec 7) (q : BitVec 6) (s : State),
    let c := if seq then unit.toNat / 2 else unit.toNat / 64
    let n := die.toNat
    let old := s.die n
    let gone (t : State) : Prop := t.front = Front.idle ∧ t.fronts = [] ∧ t.regs.ready = false
    let failed (t : State) (x : BitVec 3) : Prop := gone t ∧ t.regs.phase = x ∧ t.regs.fail = true ∧ t.regs.fstep = x
    let slow (m : BitVec 12) : BitVec 12 := if m < 1000 then 900 else m - 100
    (∃ t, exec (.bringUp power boot (i0, i1) none) s = .next t ∧ gone t ∧ (∀ x ∈ t.mem, keyCls x.1 = .hm ∨ keyCls x.1 = .pr) ∧
      (power = false → failed t 1) ∧
      (power = true → boot = false ∨ (∀ b, slotOk s i0 i1 b = false) → failed t 2) ∧
      (power = true → boot = true → (∃ b, slotOk s i0 i1 b = true) → t.regs.phase = 3 ∧ t.regs.fail = false ∧
        (s.staged.toList ++ [s.committed, !s.committed]).find? (slotOk s i0 i1) = some t.regs.slot ∧ t.staged = s.staged.filter (· == t.regs.slot) ∧
        (t.die 24).state = 2 ∧ (∀ x < 26, x ≠ 24 → (t.die x).state = 1))) ∧
    (s.regs.phase ≠ 4 ∨ s.regs.fail = true → exec (.bringUp power boot (i0, i1) (some cal)) s = .next s) ∧
    (s.regs.phase = 4 → s.regs.fail = false → ∃ t, exec (.bringUp power boot (i0, i1) (some cal)) s = .next t ∧ t.regs.phase = 5 ∧
      (cal.failed = [] → cal.trips = [(un, trip)] → (t.fibre un.toNat).trip = trip ∧
        (t.fibre un.toNat).dead = (decide (1728 < trip.toNat) || (s.fibre un.toNat).dead))) ∧
    (∀ i ∈ [Instr.memgo, .memgoTimeout],
      (s.regs.phase ≠ 5 ∨ s.regs.fail = true ∨ s.regs.memgo = true ∨ s.regs.tripped = true → exec i s = .next s) ∧
      (s.regs.phase = 5 → s.regs.fail = false → s.regs.memgo = false → s.regs.tripped = false → ∃ t, exec i s = .next t ∧ t.regs.ready = true ∧
        t.regs.phase = 6 ∧ t.poison = s.poison.filter (fun w => outside (8 * w)) ∧ t.staged = none ∧
        (∀ b, s.staged = some b → t.committed = b ∧
          t.burnt = if s.burnt < (slotImage s b).svn.setWidth 7 then (slotImage s b).svn.setWidth 7 else s.burnt) ∧
        (s.staged = none → ∀ x, x ∈ t.mem ↔ x ∈ s.mem ∧ (keyCls x.1 = .hm ∨ keyCls x.1 = .pr)))) ∧
    (128 ≤ c ∨ cellOk s c = false → exec (.unitRepair seq unit) s = .next s) ∧
    (c < 128 → cellOk s c = true → s.repairs = [] →
      (spareLeft s seq c = true → (∀ f ∈ s.running, covers f c = false) → ∃ t, exec (.unitRepair seq unit) s = .next t ∧ t.repairs = [] ∧
        t.cellsOut = s.cellsOut ∧ (if seq then BitVec.ofNat 7 c ∈ t.seqSpares else BitVec.ofNat 7 c ∈ t.bankSpares) ∧
        t.regs.spares = s.regs.spares ||| (if seq then 2 else 1)) ∧
      (spareLeft s seq c = true → (∃ f ∈ s.running, covers f c = true) → ∃ t, exec (.unitRepair seq unit) s = .next t ∧
        t.repairs = [(seq, BitVec.ofNat 13 unit.toNat)] ∧ t.mem = s.mem ∧
        ∀ f ∈ t.streams, f.status = .running → covers f c = true → f.heldBack = true ∧ f.preempt = true) ∧
      (spareLeft s seq c = false → ∃ t, exec (.unitRepair seq unit) s = .next t ∧ t.cellsOut = BitVec.ofNat 7 c :: s.cellsOut ∧
        t.regs.cells = s.regs.cells - 1)) ∧
    (∃ t, exec (.spareRepair fib un) s = .next t ∧ t.front = s.front ∧ (fib = true → (t.fibre un.toNat).dead = true) ∧
      (fib = false → un.toNat < 130 → un ∉ s.guidesOut →
        if s.guideSpares.length < Config.guideSpares then un ∈ t.guideSpares ∧ t.guidesOut = s.guidesOut else un ∈ t.guidesOut)) ∧
    (∃ t, exec .hubFailover s = .next t ∧ t.front = s.front ∧ (s.regs.hubAct = true → t = s) ∧
      (s.regs.hubAct = false → s.regs.hubSby = true → t.regs.hubAct = true ∧ t.regs.hubSby = false ∧ t.regs.ready = s.regs.ready) ∧
      (s.regs.hubAct = false → s.regs.hubSby = false → t.regs.ready = false)) ∧
    (26 ≤ n → exec (.throttle die temp (pw, watts)) s = .next s ∧ exec (.trip die temp (pw, watts)) s = .next s ∧ exec (.powerLoss false die) s = .next s) ∧
    (n < 26 →
      (old.trip < temp → ∀ i ∈ [Instr.throttle die temp (pw, watts), .trip die temp (pw, watts)], ∃ t, exec i s = .next t ∧ gone t ∧
        (t.die n).temp = temp ∧ (t.die n).power = pw ∧ t.regs.mpwr = watts ∧ t.regs.hubSby = false ∧
        (∀ x < 26, x ≠ activeHub s → (t.die x).state = 4)) ∧
      (temp ≤ old.trip → ∃ t, exec (.trip die temp (pw, watts)) s = .next t ∧ t.die n = { old with temp := temp, power := pw } ∧
        t.regs.mpwr = watts ∧ t.front = s.front ∧ t.mem = s.mem) ∧
      (temp ≤ old.trip → ∃ t, exec (.throttle die temp (pw, watts)) s = .next t ∧ t.front = s.front ∧ t.regs.mpwr = watts ∧
        (t.die n).temp = temp ∧ (t.die n).power = pw ∧
        (4400 < watts.toNat → ∀ x < 26, (t.die x).mhz = slow (s.die x).mhz) ∧
        (watts.toNat ≤ 4400 → (t.die n).mhz =
          if old.thr < temp then slow old.mhz
          else if temp.toNat + 5 ≤ old.thr.toNat ∧ watts.toNat ≤ 4180 then (if old.mhz < 1700 then old.mhz + 100 else 1800)
          else old.mhz)) ∧
      (8 ≤ n → ∃ t, exec (.powerLoss false die) s = .next t ∧ (t.die n).leaves = 0 ∧ (old.state = 2 → (t.die n).state = 4))) ∧
    (∃ t, exec (.powerLoss true die) s = .next t ∧ gone t ∧ (∀ x < 26, (t.die x).leaves = 0) ∧
      (∀ x, x ∈ t.mem ↔ x ∈ s.mem ∧ (keyCls x.1 = .hm ∨ keyCls x.1 = .pr))) ∧
    (∃ t, exec (.updctlGo v) s = .next t ∧ t.front = s.front ∧ t.mem = s.mem ∧
      (v.getLsbD 0 = false ∨ s.regs.updBusy = true → t = s) ∧
      (v.getLsbD 0 = true → s.regs.updBusy = false →
        (2 ^ 26 < s.regs.updLen.toNat → t.regs.updBusy = false ∧ t.regs.updResult = 4) ∧
        (s.regs.updLen.toNat ≤ 2 ^ 26 → t.regs.updBusy = true ∧ t.regs.updResult = 0))) ∧
    (img.valid = true → ∃ t, exec (.imageStaged bad ok img.toImageHead) s = .next t ∧ t.front = s.front ∧ t.mem = s.mem ∧
      (s.regs.updBusy = false → t = s) ∧
      (s.regs.updBusy = true → t.regs.updBusy = false ∧
        t.regs.updResult = (if bad then 5 else if !ok then 2 else if img.svn.toNat < s.burnt.toNat then 3 else 1) ∧
        (t.regs.updResult = 1 → t.staged = some (!s.regs.slot) ∧ slotImage t (!s.regs.slot) = img ∧
          slotImage t s.regs.slot = slotImage s s.regs.slot) ∧
        (t.regs.updResult ≠ 1 → t.staged = s.staged ∧ t.images = s.images))) ∧
    ((size ≠ 4 ∧ size ≠ 8) ∨ off.toNat % size.toNat ≠ 0 ∨ (s.regs.fail = true ∧ 0x1000 ≤ off.toNat) →
      exec (.registerWrite off size (some v)) s = .next s ∧
      exec (.registerWrite off size none) s = .next { s with
        hostReply := some (if s.regs.fail = true ∧ 0x1000 ≤ off.toNat then .unsupportedRequest else .completerAbort) }) ∧
    (size = 4 ∨ size = 8 → off.toNat % size.toNat = 0 → s.regs.fail = false ∨ off.toNat < 0x1000 →
      exec (.registerWrite off size none) s = .next { s with
        hostReply := some (.value (((wordBytes 8 (bar0Word s (8 * (off.toNat / 8)))).drop (off.toNat % 8)).take size.toNat)) }) ∧
    (∃ t, exec (.registerWrite 0x810 8 (some v)) s = .next t ∧ t = { s with regs := { s.regs with dbgAddr := v } }) ∧
    (∃ t, exec (.registerWrite 0x810 4 (some v)) s = .next t ∧ t.regs.dbgAddr = s.regs.dbgAddr.extractLsb' 32 32 ++ v.extractLsb' 0 32) ∧
    (∃ t, exec (.registerWrite 0x814 4 (some v)) s = .next t ∧ t.regs.dbgAddr = v.extractLsb' 0 32 ++ s.regs.dbgAddr.extractLsb' 0 32) ∧
    (s.regs.fail = false → ∃ t, exec (.registerWrite (0x10000 + 64 * q.setWidth 25 + 0x20) 8 (some v)) s = .next t ∧
      t.lq q = { s.lq q with asid := v.extractLsb' 0 12, root := v.extractLsb' 16 36, rclass := v.getLsbD 52 } ∧
      (∀ p, p ≠ q → t.lq p = s.lq p) ∧ t.mem = s.mem ∧ t.front = s.front) ∧
    (∃ t, exec (.bar2Access o (.resize b2) wide d e) s = .next t ∧ t.regs.b2size = (if b2.toNat ≤ 10 then b2 else s.regs.b2size) ∧ t.mem = s.mem) ∧
    (let w := if wide then 8 else 4
     let va := s.regs.vbase.toNat * 2 ^ 30 + o.toNat
     let host : State := { s with front := hostFront s }
     let fits (m : Nat) : Prop := o.toNat + m ≤ 2 ^ (30 + s.regs.b2size.toNat)
     let atoms : List Bar2Op := [.fetchAdd, .swap, .cas]
     (¬ fits rn.toNat → exec (.bar2Access o (.read rn) wide d e) s = .next s) ∧ (¬ fits bs.length → exec (.bar2Access o (.write bs) wide d e) s = .next s) ∧
     (¬ fits w → ∀ op ∈ atoms, exec (.bar2Access o op wide d e) s = .next s) ∧
     (s.regs.fail = true → (fits rn.toNat → exec (.bar2Access o (.read rn) wide d e) s = .next { s with hostReply := some .unsupportedRequest }) ∧
       exec (.bar2Access o (.write bs) wide d e) s = .next s) ∧
     (s.regs.fail = false → fits rn.toNat →
       (∀ x u, M.exec (hostKeys va rn.toNat .read) host = (.error x, u) → (∀ a, x ≠ .trap (hostUnsupported a)) →
         exec (.bar2Access o (.read rn) wide d e) s = .next { u with front := s.front, hostReply := some .completerAbort }) ∧
       (∀ pks u, M.exec (hostKeys va rn.toNat .read) host = (.ok pks, u) →
         let ks := pks.map (·.2)
         (unreadable u ks = true → exec (.bar2Access o (.read rn) wide d e) s = .next { u with front := s.front, hostReply := some .completerAbort }) ∧
         (unreadable u ks = false → ∃ t, exec (.bar2Access o (.read rn) wide d e) s = .next t ∧ t.hostReply = some (.value (u.mem.gets ks)) ∧
           t.mem = u.mem ∧ t.front = s.front))) ∧
     (s.regs.fail = false → fits bs.length →
       (∀ x u, M.exec (hostKeys va bs.length .write) host = (.error x, u) → u.regs.evEn = false →
         ∃ t, exec (.bar2Access o (.write bs) wide d e) s = .next t ∧ t.mem = u.mem ∧ t.front = s.front) ∧
       (∀ pks u, M.exec (hostKeys va bs.length .write) host = (.ok pks, u) → unreadable u (pks.map (·.2)) = false →
         ∃ t, exec (.bar2Access o (.write bs) wide d e) s = .next t ∧ t.mem = u.mem.sets ((pks.map (·.2)).zip bs) ∧ t.front = s.front)) ∧
     (s.regs.fail = false → fits w →
       (∀ x u, M.exec (hostKeys va w .both) host = (.error x, u) → (∀ a, x ≠ .trap (hostUnsupported a)) →
         ∀ op ∈ atoms, exec (.bar2Access o op wide d e) s = .next { u with front := s.front, hostReply := some .completerAbort }) ∧
       (∀ pks u, M.exec (hostKeys va w .both) host = (.ok pks, u) →
         let ks := pks.map (·.2)
         let was := bytesNat (u.mem.gets ks)
         ((∃ x ∈ pks, pteSysa x.1.leaf = false) →
           ∀ op ∈ atoms, exec (.bar2Access o op wide d e) s = .next { u with front := s.front, hostReply := some .unsupportedRequest }) ∧
         (unreadable u ks = false → va % w = 0 → (∀ x ∈ pks, pteSysa x.1.leaf = true ∧ hostAtomOk x.1 = true) →
           ∀ op new, (op, new) ∈ [(Bar2Op.fetchAdd, (was + d.toNat % 2 ^ (8 * w)) % 2 ^ (8 * w)), (.swap, d.toNat % 2 ^ (8 * w)),
             (.cas, if was = e.toNat % 2 ^ (8 * w) then d.toNat % 2 ^ (8 * w) else was)] →
           ∃ t, exec (.bar2Access o op wide d e) s = .next t ∧ t.hostReply = some (.value (wordBytes w was)) ∧ t.front = s.front ∧
             t.mem = u.mem.sets (ks.zip (wordBytes w new)))))) ∧
    (∃ t, exec (.hostMemoryCompletion sid (.word ha) bad) s = .next t ∧ t.mem = s.mem ∧ t.front = s.front ∧
      ∀ y, y ∈ t.poison ↔ if y = (2 ^ 52 + ha.toNat) / 8 then bad = true else y ∈ s.poison) ∧
    (s.front.status ≠ .idle → s.front.sid = sid → ∀ a, s.front.accesses[k.toNat]? = some a →
      (hostRead a = true → a.done = none → a.acked = false → exec (.hostMemoryCompletion sid (.access k) bad) s = .next { s with front := { s.front with
        accesses := s.front.accesses.set k.toNat (if bad then { a with acked := true } else { a with done := some 0 }) } }) ∧
      (hostRead a = false ∨ a.done ≠ none ∨ a.acked = true → exec (.hostMemoryCompletion sid (.access k) bad) s = .next s))

/-- Every step keeps memory in its canonical form (R1, R137, R149). From every state whose memory lists each key at most
once, in rising order, and no byte that an unlisted key reads as, every step that answers a next state leaves such a
memory, whatever event, engine or instruction it runs; so equal memories are always equal lists. (The form is the
model's own: the manual gives memory no representation.) -/
def Obligations.StepKeepsCanonical : Prop :=
  Keeps Canonical

/-- At reset memory is canonical and empty, no stream runs, and the registers hold their reset values (R98, R107, R168,
R190, R249, R336, R382, R399, R422, R437, R438, R442). In State.reset memory is in canonical form and lists nothing,
no stream is live, the module is not READY, and MSTAT, MCFG, DISTCFG, AQUOTA, THR and TRIP read the reset values of
the register tables; a stream starts with VBLK 1, SKEW 16, every window present and clean, IE 1 and every watchpoint
off. (MCFG before READY and the empty memory are the model's choice, log entries 1, 2 and 5.) -/
def Obligations.ResetState : Prop :=
  Canonical State.reset ∧ State.reset.mem = [] ∧ (∀ f ∈ State.reset.streams, f.status = .idle) ∧ State.reset.regs.ready = false ∧
  bar0Word State.reset 0x008 = 0 ∧
  bar0Word State.reset 0x010 = 0xFF + 2 ^ 9 + 0xFFFF * 2 ^ 10 + 128 * 2 ^ 26 + 1024 * 2 ^ 34 ∧
  bar0Word State.reset 0x100 = 1000 * 2 ^ 8 + 1000 * 2 ^ 32 ∧ bar0Word State.reset 0x200 % 256 = 16 ∧
  (∀ k < 26, (State.reset.die k).state = 1 ∧ (State.reset.die k).thr = 95 ∧ (State.reset.die k).trip = 110) ∧
  csrRead State.reset 0x002 = 1 ∧ csrRead State.reset 0x007 = 16 ∧ csrRead State.reset 0x030 = 0 ∧ csrRead State.reset 0x031 = 0xFFFFFFFE ∧
  csrRead State.reset 0x060 = 0x40000 ∧ csrRead State.reset 0x070 = 0 ∧ csrRead State.reset 0x042 = 0 ∧ csrRead State.reset 0x020 = 0
end

