-- ==== Sys2Proof/Laws/Homes.lean ====
section
/-! SUPPORT. What homes do with messages: settling where nothing waits, and how a message is answered (R336, R337). -/

namespace Sys2Proof.Laws

open Sys2Proof.Machine

/-- Where no queued message satisfies `p`, none is performed. -/
theorem drainQueues_none (s : State) (p : AccMsg → Bool) (h : ∀ m ∈ s.homeQ, p m = false) : drainQueues s p = s := by
  have h1 : s.homeQ.filter p = [] := List.filter_eq_nil_iff.2 (by simpa using h)
  have h2 : s.homeQ.filter (fun m => !p m) = s.homeQ := List.filter_eq_self.2 (by simpa using h)
  simp [drainQueues, h1, h2]

/-- Where no message on its way or queued satisfies `p`, settling changes nothing. -/
theorem settleMsgs_none (s : State) (p : AccMsg → Bool) (hm : ∀ m ∈ s.msgs, p m = false) (hq : ∀ m ∈ s.homeQ, p m = false) :
    settleMsgs s p = s := by
  have h1 : s.msgs.filter p = [] := List.filter_eq_nil_iff.2 (by simpa using hm)
  have h2 : s.msgs.filter (fun m => !p m) = s.msgs := List.filter_eq_self.2 (by simpa using hm)
  simp [settleMsgs, h1, h2, drainQueues_none s p hq]

/-- Where no message or residual is for the sectors, delivering for them changes nothing (R311). -/
theorem deliverFor_none (s : State) (secs : List Nat) (hm : ∀ m ∈ s.msgs, m.sector ∉ secs) (hq : ∀ m ∈ s.homeQ, m.sector ∉ secs)
    (hr : ∀ r ∈ s.residuals, r.sector ∉ secs) : deliverFor s secs = s := by
  have h0 : settleMsgs s (fun m => secs.contains m.sector) = s := settleMsgs_none _ _ (by simpa using hm) (by simpa using hq)
  have h1 : s.residuals.filter (fun r => secs.contains r.sector) = [] := List.filter_eq_nil_iff.2 (by simpa using hr)
  have h2 : s.residuals.filter (fun r => !secs.contains r.sector) = s.residuals := List.filter_eq_self.2 (by simpa using hr)
  simp only [deliverFor, h0, h1, h2, List.reverse_nil, List.foldl_nil]

/-- A home performs a must-accept message at once, refuses an ordinary one at the quota or with its queue full, and
else counts and queues it; a peer's home answers by a free value (R336, R337). -/
theorem answerMsg_cases (s : State) (m : AccMsg) :
    (m.must = true ∧ answerMsg s m = (performMsg s m, true)) ∨
    (m.must = false ∧ m.peer.isSome = true ∧ ∃ ok, (answerMsg s m).2 = ok ∧
      (answerMsg s m).1 = { s with drawn := s.drawn + 1, homeQ := if ok then s.homeQ ++ [m] else s.homeQ }) ∨
    (m.must = false ∧ m.peer = none ∧ (quotaOf s m.home ≤ sentTo s m.home m.sender ∨ queueDepth ≤ queuedAt s m.home) ∧
      answerMsg s m = (s, false)) ∨
    (m.must = false ∧ m.peer = none ∧ sentTo s m.home m.sender < quotaOf s m.home ∧ queuedAt s m.home < queueDepth ∧
      (answerMsg s m).2 = true ∧ (answerMsg s m).1.homeQ = s.homeQ ++ [m] ∧ (answerMsg s m).1.mem = s.mem) := by
  cases hm : m.must with
  | true => exact .inl ⟨rfl, by simp [answerMsg, hm]⟩
  | false =>
    cases hp : m.peer with
    | some p =>
      refine .inr (.inl ⟨rfl, rfl, _, rfl, ?_⟩)
      simp only [answerMsg, hm, hp]
      cases Config.peerAccepts s.drawn <;> rfl
    | none =>
      by_cases h : quotaOf s m.home ≤ sentTo s m.home m.sender ∨ queueDepth ≤ queuedAt s m.home
      · exact .inr (.inr (.inl ⟨rfl, rfl, h, by simp [answerMsg, hm, hp, h]⟩))
      · refine .inr (.inr (.inr ⟨rfl, rfl, by omega, by omega, ?_⟩))
        simp [answerMsg, hm, hp, h]

end Sys2Proof.Laws
end

