-- ==== Sys2Proof/Laws/Links.lean ====
section
/-! SUPPORT. What opening and receiving a flit, an exchange with a die, and the receipt of a trace record can do (R407, R420, R424,
R425, R427, R434). -/

namespace Sys2Proof.Laws

open Sys2Proof Sys2Proof.Machine

/-- A flit whose key the receiver has and whose tag verifies opens. -/
theorem openFlit_ok {s : State} {d : BitVec 32} {x : Flit} {g : Nat} (hg : (s.dir d).genOf x.kph = some g) (ht : tagOk s d g x = true) :
    openFlit s d x = (openedFlit s d x, true) := by
  simp [openFlit, hg, ht]

/-- A flit that does not open leaves the direction one failure further, or re-keyed. -/
theorem openFlit_not {s : State} {d : BitVec 32} {x : Flit} (h : ∀ g, (s.dir d).genOf x.kph = some g → tagOk s d g x = false) :
    openFlit s d x = (failFlit s d x, false) ∨
      ((s.dir d).genOf x.kph = none ∧ (s.dir d).gen ≠ 0 ∧ openFlit s d x = (rekey s d, false)) := by
  unfold openFlit
  cases hg : (s.dir d).genOf x.kph with
  | none =>
    by_cases h0 : (s.dir d).gen = 0
    · exact .inl (by simp [h0])
    · exact .inr ⟨rfl, h0, by dsimp only; rw [if_neg h0]⟩
  | some g => exact .inl (by simp [h g hg])

theorem openFlit_bad {s : State} {d : BitVec 32} {x : Flit} {g : Nat} (hg : (s.dir d).genOf x.kph = some g) (ht : tagOk s d g x = false) :
    openFlit s d x = (failFlit s d x, false) := by
  simp [openFlit, hg, ht]

/-- A flit is looked at only on a direction that is up, and taken only when it opens and is the one expected. -/
theorem receiveFlit_cases (s : State) (d : BitVec 32) (x : Flit) :
    (dirUp s d x.cls.toNat = false ∧ receiveFlit s d x = s) ∨
    (dirUp s d x.cls.toNat = true ∧
      let o := openFlit s d x
      let t := takeFlit o.1 d x.cls.toNat
      let l := t.dir d
      (o.2 = false ∧ receiveFlit s d x = t) ∨
      (o.2 = true ∧ ((x.src, x.cls) ∈ l.discard ∨ x.seq ≠ l.expected x.src x.cls) ∧ receiveFlit s d x = t.setDir (l.discards x.src x.cls)) ∨
      (o.2 = true ∧ (x.src, x.cls) ∉ l.discard ∧ x.seq = l.expected x.src x.cls ∧
        receiveFlit s d x = t.setDir (l.expect x.src x.cls (x.seq + 1)))) := by
  unfold receiveFlit
  cases hu : dirUp s d x.cls.toNat with
  | false => exact .inl ⟨rfl, by simp⟩
  | true =>
    refine .inr ⟨rfl, ?_⟩
    rcases ho : openFlit s d x with ⟨u, ok⟩
    cases ok with
    | false => exact .inl ⟨rfl, by simp⟩
    | true =>
      dsimp only
      by_cases hd : (x.src, x.cls) ∈ ((takeFlit u d x.cls.toNat).dir d).discard
      · exact .inr (.inl ⟨rfl, .inl hd, by simp [hd]⟩)
      · by_cases hs : x.seq = ((takeFlit u d x.cls.toNat).dir d).expected x.src x.cls
        · exact .inr (.inr ⟨rfl, hd, hs, by simp [hd, ← hs]⟩)
        · exact .inr (.inl ⟨rfl, .inr hs, by simp [hs]⟩)

/-- A die with two leaves whose answers are all right passes, and has signed twice (R419, R420). -/
theorem exchange_passes {s : State} {k : Nat} {r : SpdmReply} (hv : r.version = some true) (hc : r.caps = some (BitVec.allOnes 7))
    (ha : r.algs = some (BitVec.allOnes 4)) (hu : r.cert = some (Config.dieUid k, true)) (hl : ((s.die k).signs 2).2 = 2)
    (hn : r.challenge = some true) (hm : r.meas = some (true, referenceOf s k)) (h4 : (referenceOf s k).length = 4) (hp : r.psk = some true) :
    exchange s k r = (8, 2) := by
  simp [exchange, hv, hc, ha, hu, hl, hn, hm, h4, hp]

/-- An exchange ends at one of its steps, or passes, after at most two signatures. -/
theorem exchange_le (s : State) (k : Nat) (r : SpdmReply) :
    1 ≤ (exchange s k r).1 ∧ (exchange s k r).1 ≤ 8 ∧ (exchange s k r).2 ≤ 2 := by
  unfold exchange
  dsimp only
  repeat' split
  all_goals decide

/-- Both halves of a concatenation can be told from it. -/
theorem append_inj {n m : Nat} {x y : BitVec n} {u v : BitVec m} (h : x ++ u = y ++ v) : x = y ∧ u = v :=
  ⟨BitVec.extractLsb'_append_eq_left.symm.trans ((congrArg (BitVec.extractLsb' m n) h).trans BitVec.extractLsb'_append_eq_left),
    BitVec.extractLsb'_append_eq_right.symm.trans ((congrArg (BitVec.extractLsb' 0 m) h).trans BitVec.extractLsb'_append_eq_right)⟩

/-- The words of a trace record tell its fields. -/
theorem words_inj {a b : TraceRec} (h : a.words = b.words) : a = b := by
  simp only [TraceRec.words, List.cons.injEq, and_true] at h
  obtain ⟨h0, h1, h2, h3⟩ := h
  obtain ⟨h0, ht⟩ := append_inj h0
  obtain ⟨h0, -⟩ := append_inj h0
  obtain ⟨hc, hs⟩ := append_inj h0
  obtain ⟨-, hi⟩ := append_inj h1
  cases a; cases b
  simp_all

/-- A record on its way is received by its own words, and no other record is taken for it. -/
theorem traceIn_words (s : State) {r : TraceRec} (h : r ∈ s.traceQ) {r0 r1 r2 r3 : Word} (hw : r.words = [r0, r1, r2, r3]) :
    traceIn r0 r1 r2 r3 s = (traceFlush { s with traceQ := s.traceQ.erase r }).traceWords r0.toNat r1.toNat r2.toNat r3.toNat := by
  unfold traceIn
  cases hf : s.traceQ.find? (fun x => x.words == [r0, r1, r2, r3]) with
  | none => exact absurd (by simp [hw]) (List.find?_eq_none.1 hf r h)
  | some x =>
    have hx : x.words = [r0, r1, r2, r3] := by simpa using List.find?_some hf
    rw [words_inj (hx.trans hw.symm)]

end Sys2Proof.Laws
end

