-- ==== Sys2Proof/Laws/Memory.lean ====
section
/-! SUPPORT. Memory: its canonical form, and that every operation on memory keeps it. -/

namespace Sys2Proof.Laws

open Sys2Proof.Machine

/-! ### The canonical form -/

theorem wf_cons (c : Host.Cell) (r : Memory) :
    Memory.wf (c :: r) = true ↔ c.2 ≠ Memory.unlisted ∧ (∀ d ∈ r.head?, c.1 < d.1) ∧ Memory.wf r = true := by
  cases r <;> simp [Memory.wf, and_assoc]

/-- The form, said of the whole list: keys strictly rising, no entry that reads as an unlisted one. -/
theorem wf_iff (m : Memory) : m.wf = true ↔ List.Pairwise (fun a b => a.1 < b.1) m ∧ ∀ c ∈ m, c.2 ≠ Memory.unlisted := by
  induction m with
  | nil => simp [Memory.wf]
  | cons c r ih =>
    rw [wf_cons, ih, List.pairwise_cons]
    constructor
    · rintro ⟨h1, h2, h3, h4⟩
      refine ⟨⟨?_, h3⟩, by simp only [List.mem_cons, forall_eq_or_imp]; exact ⟨h1, h4⟩⟩
      cases r with
      | nil => simp
      | cons d r =>
        have hd : c.1 < d.1 := h2 d (by simp)
        intro a ha
        rcases List.mem_cons.1 ha with rfl | ha
        · exact hd
        · exact lt_trans hd ((List.pairwise_cons.1 h3).1 a ha)
    · rintro ⟨⟨h1, h2⟩, h3⟩
      exact ⟨h3 c (by simp), fun d hd => h1 d (by cases r <;> simp_all), h2, fun a ha => h3 a (by simp [ha])⟩

/-- A write adds at most its own entry. -/
theorem mem_set {m : Memory} {k : Key} {b : Byte} {c : Host.Cell} (h : c ∈ m.set k b) : c ∈ m ∨ (c = (k, b) ∧ b ≠ Memory.unlisted) := by
  induction m with
  | nil => simp only [Memory.set] at h; split at h <;> simp_all
  | cons d r ih => simp only [Memory.set] at h; split_ifs at h <;> simp_all <;> tauto

/-! ### Operations keep it -/

theorem wf_set (m : Memory) (k : Key) (b : Byte) (h : m.wf = true) : (m.set k b).wf = true := by
  rw [wf_iff] at h ⊢
  refine ⟨?_, fun c hc => ?_⟩
  · obtain ⟨h, -⟩ := h
    induction m with
    | nil => simp only [Memory.set]; split <;> simp
    | cons d r ih =>
      rw [List.pairwise_cons] at h
      simp only [Memory.set]
      split_ifs with h1 h2 h3 h4
      · exact List.pairwise_cons.2 h
      · refine List.pairwise_cons.2 ⟨fun a ha => ?_, List.pairwise_cons.2 h⟩
        rcases List.mem_cons.1 ha with rfl | ha
        · exact h1
        · exact lt_trans h1 (h.1 a ha)
      · exact h.2
      · exact List.pairwise_cons.2 ⟨fun a ha => h3 ▸ h.1 a ha, h.2⟩
      · refine List.pairwise_cons.2 ⟨fun a ha => ?_, ih h.2⟩
        rcases mem_set ha with ha | ⟨rfl, -⟩
        · exact h.1 a ha
        · exact lt_of_le_of_ne (not_lt.1 h1) ‹_›
  · rcases mem_set hc with hc | ⟨rfl, hb⟩
    · exact h.2 c hc
    · exact hb

theorem wf_sets (l : List (Key × Byte)) : ∀ m : Memory, m.wf = true → (m.sets l).wf = true := by
  induction l with
  | nil => intro m h; exact h
  | cons p r ih => intro m h; obtain ⟨k, b⟩ := p; exact ih _ (wf_set m k b h)

theorem wf_filter (p : Host.Cell → Bool) (m : Memory) (h : m.wf = true) : Memory.wf (m.filter p) = true := by
  rw [wf_iff] at h ⊢
  exact ⟨h.1.filter p, fun c hc => h.2 c (List.mem_of_mem_filter hc)⟩

theorem wf_overlay (m : Memory) (k n : Nat) (f : Nat → Byte) (h : m.wf = true) : (m.overlay k n f).wf = true := by
  rw [wf_iff] at h ⊢
  simp only [Memory.overlay]
  refine ⟨?_, ?_⟩
  · rw [List.pairwise_append, List.pairwise_append]
    refine ⟨⟨h.1.filter _, ?_, ?_⟩, h.1.filter _, ?_⟩
    · rw [List.pairwise_filterMap]
      refine List.Pairwise.imp ?_ List.pairwise_lt_range
      intro i j hij a ha b hb
      simp at ha hb
      obtain ⟨-, rfl⟩ := ha; obtain ⟨-, rfl⟩ := hb
      simpa using hij
    · intro a ha b hb
      simp at ha hb
      obtain ⟨i, -, -, rfl⟩ := hb
      simp; omega
    · intro a ha b hb
      simp at ha hb
      rcases ha with ⟨-, ha⟩ | ⟨i, hi, -, rfl⟩
      · omega
      · simp; omega
  · intro c hc
    simp at hc
    rcases hc with ⟨hc, -⟩ | ⟨i, -, hi, rfl⟩ | ⟨hc, -⟩
    · exact h.2 c hc
    · exact hi
    · exact h.2 c hc

theorem wf_putNum (m : Memory) (k n v : Nat) (h : m.wf = true) : (m.putNum k n v).wf = true := wf_sets _ _ h

end Sys2Proof.Laws
end

