-- ==== Sys2Proof/Laws/PerInstr.lean ====
section
/-! SUPPORT. Family Size: an instruction that has words takes the bytes that its words fill (R43, R44). -/

namespace Sys2Proof.Laws.Size

/-- The bytes of an instruction that is stored in memory are as many as the front skips. -/
def Statement (i : Instr) : Prop := encode i ≠ [] → i.bytes.length = i.size

theorem add (w : Width) (sd sa : SReg) (b : AluB) : Statement (.add w sd sa b) := fun _ => rfl
theorem sub_ (w : Width) (sd sa : SReg) (b : AluB) : Statement (.sub_ w sd sa b) := fun _ => rfl
theorem mul (w : Width) (sd sa : SReg) (b : AluB) : Statement (.mul w sd sa b) := fun _ => rfl
theorem mulh (w : Width) (sd sa : SReg) (b : AluB) : Statement (.mulh w sd sa b) := fun _ => rfl
theorem mulhn (w : Width) (sd sa : SReg) (b : AluB) : Statement (.mulhn w sd sa b) := fun _ => rfl
theorem div (w : Width) (sd sa : SReg) (b : AluB) : Statement (.div w sd sa b) := fun _ => rfl
theorem divn (w : Width) (sd sa : SReg) (b : AluB) : Statement (.divn w sd sa b) := fun _ => rfl
theorem rem (w : Width) (sd sa : SReg) (b : AluB) : Statement (.rem w sd sa b) := fun _ => rfl
theorem remn (w : Width) (sd sa : SReg) (b : AluB) : Statement (.remn w sd sa b) := fun _ => rfl
theorem and_ (w : Width) (sd sa : SReg) (b : AluB) : Statement (.and_ w sd sa b) := fun _ => rfl
theorem or_ (w : Width) (sd sa : SReg) (b : AluB) : Statement (.or_ w sd sa b) := fun _ => rfl
theorem xor_ (w : Width) (sd sa : SReg) (b : AluB) : Statement (.xor_ w sd sa b) := fun _ => rfl
theorem andn (w : Width) (sd sa : SReg) (b : AluB) : Statement (.andn w sd sa b) := fun _ => rfl
theorem sll (w : Width) (sd sa : SReg) (b : AluB) : Statement (.sll w sd sa b) := fun _ => rfl
theorem srl (w : Width) (sd sa : SReg) (b : AluB) : Statement (.srl w sd sa b) := fun _ => rfl
theorem sra (w : Width) (sd sa : SReg) (b : AluB) : Statement (.sra w sd sa b) := fun _ => rfl
theorem slt (w : Width) (sd sa : SReg) (b : AluB) : Statement (.slt w sd sa b) := fun _ => rfl
theorem sltn (w : Width) (sd sa : SReg) (b : AluB) : Statement (.sltn w sd sa b) := fun _ => rfl
theorem min_ (w : Width) (sd sa : SReg) (b : AluB) : Statement (.min_ w sd sa b) := fun _ => rfl
theorem max_ (w : Width) (sd sa : SReg) (b : AluB) : Statement (.max_ w sd sa b) := fun _ => rfl
theorem minn (w : Width) (sd sa : SReg) (b : AluB) : Statement (.minn w sd sa b) := fun _ => rfl
theorem maxn (w : Width) (sd sa : SReg) (b : AluB) : Statement (.maxn w sd sa b) := fun _ => rfl
theorem clz (w : Width) (sd sa : SReg) : Statement (.clz w sd sa) := fun _ => rfl
theorem ctz (w : Width) (sd sa : SReg) : Statement (.ctz w sd sa) := fun _ => rfl
theorem popc (w : Width) (sd sa : SReg) : Statement (.popc w sd sa) := fun _ => rfl
theorem sext (w : Width) (sd sa : SReg) : Statement (.sext w sd sa) := fun _ => rfl
theorem zext (w : Width) (sd sa : SReg) : Statement (.zext w sd sa) := fun _ => rfl
theorem ldk (sd : SReg) (k : Word) : Statement (.ldk sd k) := fun _ => rfl
theorem ld (sg : Bool) (ord : MemOrder) (sc : Scope) (w : Width) (sd sa : SReg) (off : BitVec 32) : Statement (.ld sg ord sc w sd sa off) := fun _ => rfl
theorem st (ord : MemOrder) (sc : Scope) (w : Width) (sb sa : SReg) (off : BitVec 32) : Statement (.st ord sc w sb sa off) := fun _ => rfl
theorem scas (a : AtomArgs) : Statement (.scas a) := fun _ => rfl
theorem samoAdd (a : AtomArgs) : Statement (.samoAdd a) := fun _ => rfl
theorem samoAnd (a : AtomArgs) : Statement (.samoAnd a) := fun _ => rfl
theorem samoOr (a : AtomArgs) : Statement (.samoOr a) := fun _ => rfl
theorem samoXor (a : AtomArgs) : Statement (.samoXor a) := fun _ => rfl
theorem samoMin (a : AtomArgs) : Statement (.samoMin a) := fun _ => rfl
theorem samoMax (a : AtomArgs) : Statement (.samoMax a) := fun _ => rfl
theorem samoMinn (a : AtomArgs) : Statement (.samoMinn a) := fun _ => rfl
theorem samoMaxn (a : AtomArgs) : Statement (.samoMaxn a) := fun _ => rfl
theorem samoSwap (a : AtomArgs) : Statement (.samoSwap a) := fun _ => rfl
theorem beq (sa sb : SReg) (off : BitVec 32) : Statement (.beq sa sb off) := fun _ => rfl
theorem bne (sa sb : SReg) (off : BitVec 32) : Statement (.bne sa sb off) := fun _ => rfl
theorem blt (sa sb : SReg) (off : BitVec 32) : Statement (.blt sa sb off) := fun _ => rfl
theorem bge (sa sb : SReg) (off : BitVec 32) : Statement (.bge sa sb off) := fun _ => rfl
theorem bltn (sa sb : SReg) (off : BitVec 32) : Statement (.bltn sa sb off) := fun _ => rfl
theorem bgen (sa sb : SReg) (off : BitVec 32) : Statement (.bgen sa sb off) := fun _ => rfl
theorem jal (sd : SReg) (off : BitVec 32) : Statement (.jal sd off) := fun _ => rfl
theorem jalr (sd sa : SReg) (imm : BitVec 32) : Statement (.jalr sd sa imm) := fun _ => rfl
theorem wait (imm : BitVec 32) : Statement (.wait imm) := fun _ => rfl
theorem halt : Statement (.halt) := fun _ => rfl
theorem nop : Statement (.nop) := fun _ => rfl
theorem csrr (sd : SReg) (csr : BitVec 12) : Statement (.csrr sd csr) := fun _ => rfl
theorem csrw (sd sa : SReg) (csr : BitVec 12) : Statement (.csrw sd sa csr) := fun _ => rfl
theorem csrs (sd sa : SReg) (csr : BitVec 12) : Statement (.csrs sd sa csr) := fun _ => rfl
theorem csrc (sd sa : SReg) (csr : BitVec 12) : Statement (.csrc sd sa csr) := fun _ => rfl
theorem wset (wd : WReg) (sa sb : SReg) : Statement (.wset wd sa sb) := fun _ => rfl
theorem wget (sd : SReg) (wa : WReg) (hi : Bool) : Statement (.wget sd wa hi) := fun _ => rfl
theorem wcpy (wd wa : WReg) : Statement (.wcpy wd wa) := fun _ => rfl
theorem setvl (sd sa : SReg) (fmt : Fmt) (blk : Blk) : Statement (.setvl sd sa fmt blk) := fun _ => rfl
theorem strip (sa sb : SReg) (off : BitVec 32) : Statement (.strip sa sb off) := fun _ => rfl
theorem bany (wa : WReg) (off : BitVec 32) : Statement (.bany wa off) := fun _ => rfl
theorem ball (wa : WReg) (off : BitVec 32) : Statement (.ball wa off) := fun _ => rfl
theorem bnone (wa : WReg) (off : BitVec 32) : Statement (.bnone wa off) := fun _ => rfl
theorem ownq (sd sa : SReg) (map : BitVec 4) : Statement (.ownq sd sa map) := fun _ => rfl
theorem lanex (v : VArgs) : Statement (.lanex v) := fun _ => rfl
theorem vadd (v : VArgs) : Statement (.vadd v) := fun _ => rfl
theorem vsub (v : VArgs) : Statement (.vsub v) := fun _ => rfl
theorem vmul (v : VArgs) : Statement (.vmul v) := fun _ => rfl
theorem vfma (v : VArgs) : Statement (.vfma v) := fun _ => rfl
theorem vfms (v : VArgs) : Statement (.vfms v) := fun _ => rfl
theorem vfnma (v : VArgs) : Statement (.vfnma v) := fun _ => rfl
theorem vmin (v : VArgs) : Statement (.vmin v) := fun _ => rfl
theorem vmax (v : VArgs) : Statement (.vmax v) := fun _ => rfl
theorem vabs (v : VArgs) : Statement (.vabs v) := fun _ => rfl
theorem vneg (v : VArgs) : Statement (.vneg v) := fun _ => rfl
theorem vrcp (v : VArgs) : Statement (.vrcp v) := fun _ => rfl
theorem vrsq (v : VArgs) : Statement (.vrsq v) := fun _ => rfl
theorem vexp2 (v : VArgs) : Statement (.vexp2 v) := fun _ => rfl
theorem vlog2 (v : VArgs) : Statement (.vlog2 v) := fun _ => rfl
theorem vand (v : VArgs) : Statement (.vand v) := fun _ => rfl
theorem vor (v : VArgs) : Statement (.vor v) := fun _ => rfl
theorem vxor (v : VArgs) : Statement (.vxor v) := fun _ => rfl
theorem vnot (v : VArgs) : Statement (.vnot v) := fun _ => rfl
theorem vsll (v : VArgs) : Statement (.vsll v) := fun _ => rfl
theorem vsrl (v : VArgs) : Statement (.vsrl v) := fun _ => rfl
theorem vsra (v : VArgs) : Statement (.vsra v) := fun _ => rfl
theorem vceq (v : VArgs) : Statement (.vceq v) := fun _ => rfl
theorem vcne (v : VArgs) : Statement (.vcne v) := fun _ => rfl
theorem vclt (v : VArgs) : Statement (.vclt v) := fun _ => rfl
theorem vcle (v : VArgs) : Statement (.vcle v) := fun _ => rfl
theorem vsel (v : VArgs) : Statement (.vsel v) := fun _ => rfl
theorem vcvt (sfmt : Fmt) (v : VArgs) : Statement (.vcvt sfmt v) := fun _ => rfl
theorem vmov (v : VArgs) : Statement (.vmov v) := fun _ => rfl
theorem vfill (v : VArgs) : Statement (.vfill v) := fun _ => rfl
theorem viota (v : VArgs) : Statement (.viota v) := fun _ => rfl
theorem vredAdd (v : VArgs) : Statement (.vredAdd v) := fun _ => rfl
theorem vredMax (v : VArgs) : Statement (.vredMax v) := fun _ => rfl
theorem vredMin (v : VArgs) : Statement (.vredMin v) := fun _ => rfl
theorem vscanAdd (v : VArgs) : Statement (.vscanAdd v) := fun _ => rfl
theorem vscanMax (v : VArgs) : Statement (.vscanMax v) := fun _ => rfl
theorem vscanMin (v : VArgs) : Statement (.vscanMin v) := fun _ => rfl
theorem vgather (v : VArgs) : Statement (.vgather v) := fun _ => rfl
theorem vscatter (v : VArgs) : Statement (.vscatter v) := fun _ => rfl
theorem vcompact (v : VArgs) : Statement (.vcompact v) := fun _ => rfl
theorem vexpand (v : VArgs) : Statement (.vexpand v) := fun _ => rfl
theorem mload (fmt : Fmt) (wb : WReg) (pair : Bool) (kb : BitVec 16) : Statement (.mload fmt wb pair kb) := fun _ => rfl
theorem mswap (pair : Bool) : Statement (.mswap pair) := fun _ => rfl
theorem mma (m : MArgs) : Statement (.mma m) := fun _ => rfl
theorem mrecast (pair shadow : Bool) : Statement (.mrecast pair shadow) := fun _ => rfl
theorem minval (pair shadow : Bool) : Statement (.minval pair shadow) := fun _ => rfl
theorem vacc (v : VArgs) : Statement (.vacc v) := fun _ => rfl
theorem vamoAdd (v : VArgs) (ord : MemOrder) (sc : Scope) : Statement (.vamoAdd v ord sc) := fun _ => rfl
theorem vamoAnd (v : VArgs) (ord : MemOrder) (sc : Scope) : Statement (.vamoAnd v ord sc) := fun _ => rfl
theorem vamoOr (v : VArgs) (ord : MemOrder) (sc : Scope) : Statement (.vamoOr v ord sc) := fun _ => rfl
theorem vamoXor (v : VArgs) (ord : MemOrder) (sc : Scope) : Statement (.vamoXor v ord sc) := fun _ => rfl
theorem vamoMin (v : VArgs) (ord : MemOrder) (sc : Scope) : Statement (.vamoMin v ord sc) := fun _ => rfl
theorem vamoMax (v : VArgs) (ord : MemOrder) (sc : Scope) : Statement (.vamoMax v ord sc) := fun _ => rfl
theorem vamoMinn (v : VArgs) (ord : MemOrder) (sc : Scope) : Statement (.vamoMinn v ord sc) := fun _ => rfl
theorem vamoMaxn (v : VArgs) (ord : MemOrder) (sc : Scope) : Statement (.vamoMaxn v ord sc) := fun _ => rfl
theorem vamoSwap (v : VArgs) (ord : MemOrder) (sc : Scope) : Statement (.vamoSwap v ord sc) := fun _ => rfl
theorem adecl (wa : WReg) : Statement (.adecl wa) := fun _ => rfl
theorem amerge (wa : WReg) : Statement (.amerge wa) := fun _ => rfl
theorem rflush (sc : Scope) : Statement (.rflush sc) := fun _ => rfl
theorem cpy (c : CArgs) : Statement (.cpy c) := fun _ => rfl
theorem cpyt (c : CArgs) : Statement (.cpyt c) := fun _ => rfl
theorem cpyg (c : CArgs) : Statement (.cpyg c) := fun _ => rfl
theorem cpys (c : CArgs) : Statement (.cpys c) := fun _ => rfl
theorem cpyf (c : CArgs) : Statement (.cpyf c) := fun _ => rfl
theorem cpym (c : CArgs) : Statement (.cpym c) := fun _ => rfl
theorem sprog (c : CArgs) : Statement (.sprog c) := fun _ => rfl
theorem srun (c : CArgs) : Statement (.srun c) := fun _ => rfl
theorem chase (c : CArgs) : Statement (.chase c) := fun _ => rfl
theorem fence (sc : Scope) : Statement (.fence sc) := fun _ => rfl
theorem srel (sd sa : SReg) (sc : Scope) (imm : BitVec 31) : Statement (.srel sd sa sc imm) := fun _ => rfl
theorem sacq (sd sa sb : SReg) (sc : Scope) : Statement (.sacq sd sa sb sc) := fun _ => rfl
theorem gjoin (sd sa : SReg) (imm : BitVec 31) : Statement (.gjoin sd sa imm) := fun _ => rfl
theorem gleave (sd sa : SReg) (imm : BitVec 31) : Statement (.gleave sd sa imm) := fun _ => rfl
theorem gbar (sd sa : SReg) (sc : Scope) (imm : BitVec 31) : Statement (.gbar sd sa sc imm) := fun _ => rfl
theorem qpush (sd sa sb : SReg) (sc : Scope) : Statement (.qpush sd sa sb sc) := fun _ => rfl
theorem qpop (sd sa sb : SReg) (sc : Scope) : Statement (.qpop sd sa sb sc) := fun _ => rfl
theorem qdrainWait (sd sa : SReg) (sc : Scope) : Statement (.qdrainWait sd sa sc) := fun _ => rfl
theorem qdrainDiscard (sd sa : SReg) (sc : Scope) : Statement (.qdrainDiscard sd sa sc) := fun _ => rfl
theorem trap (imm : BitVec 31) : Statement (.trap imm) := fun _ => rfl
theorem eret (rq : Bool) : Statement (.eret rq) := fun _ => rfl
theorem wfeWait (sd sa : SReg) : Statement (.wfeWait sd sa) := fun _ => rfl
theorem wfeYield (sd sa : SReg) : Statement (.wfeYield sd sa) := fun _ => rfl
theorem wsave (sd sa sb : SReg) : Statement (.wsave sd sa sb) := fun _ => rfl
theorem wrest (sd sa sb : SReg) : Statement (.wrest sd sa sb) := fun _ => rfl
theorem isave (sd sa : SReg) : Statement (.isave sd sa) := fun _ => rfl
theorem irest (sd sa : SReg) : Statement (.irest sd sa) := fun _ => rfl
theorem tlbinv (sd sa sb : SReg) (sc : Scope) : Statement (.tlbinv sd sa sb sc) := fun _ => rfl
theorem tlbprb (sd sa : SReg) : Statement (.tlbprb sd sa) := fun _ => rfl
theorem pmig (sd sa sb : SReg) (sc : Scope) : Statement (.pmig sd sa sb sc) := fun _ => rfl
theorem logctlStatus (sd sa : SReg) : Statement (.logctlStatus sd sa) := fun _ => rfl
theorem logctlPolicy (sd sa : SReg) : Statement (.logctlPolicy sd sa) := fun _ => rfl
theorem logctlBudget (sd sa : SReg) : Statement (.logctlBudget sd sa) := fun _ => rfl
theorem logmark (sd sa : SReg) (imm : BitVec 31) : Statement (.logmark sd sa imm) := fun _ => rfl
theorem logsync (sd : SReg) : Statement (.logsync sd) := fun _ => rfl
theorem lqtailWrite (q : BitVec 6) (v : BitVec 32) : Statement (.lqtailWrite q v) := fun h => absurd rfl h
theorem lqcfgWrite (q : BitVec 6) (v : Word) : Statement (.lqcfgWrite q v) := fun h => absurd rfl h
theorem launchRecord (q : BitVec 6) : Statement (.launchRecord q) := fun h => absurd rfl h
theorem placeLaunch (q : BitVec 6) : Statement (.placeLaunch q) := fun h => absurd rfl h
theorem terminateLaunch (target : BitVec 16) : Statement (.terminateLaunch target) := fun h => absurd rfl h
theorem pretmoExpiry (sid : BitVec 16) : Statement (.pretmoExpiry sid) := fun h => absurd rfl h
theorem timeSlice : Statement (.timeSlice) := fun h => absurd rfl h
theorem streamResume (sid : BitVec 16) : Statement (.streamResume sid) := fun h => absurd rfl h
theorem bankBeginBroadcast (sid : BitVec 16) (own : BitVec 14) : Statement (.bankBeginBroadcast sid own) := fun h => absurd rfl h
theorem bankRetire (sid : BitVec 16) (own : BitVec 14) : Statement (.bankRetire sid own) := fun h => absurd rfl h
theorem floorDelivery (sid : BitVec 16) : Statement (.floorDelivery sid) := fun h => absurd rfl h
theorem treeResultReturn (sid : BitVec 16) : Statement (.treeResultReturn sid) := fun h => absurd rfl h
theorem pullRequest (sid : BitVec 16) (k : BitVec 16) : Statement (.pullRequest sid k) := fun h => absurd rfl h
theorem pullReply (sid : BitVec 16) (k : BitVec 16) : Statement (.pullReply sid k) := fun h => absurd rfl h
theorem pullResend (sid : BitVec 16) (k : BitVec 16) : Statement (.pullResend sid k) := fun h => absurd rfl h
theorem scalarAccess (sid : BitVec 16) (k : BitVec 7) : Statement (.scalarAccess sid k) := fun h => absurd rfl h
theorem scalarReply (sid : BitVec 16) (k : BitVec 7) : Statement (.scalarReply sid k) := fun h => absurd rfl h
theorem subbankDrowsy (bank : BitVec 13) (sub : BitVec 4) : Statement (.subbankDrowsy bank sub) := fun h => absurd rfl h
theorem preciseStop (sid : BitVec 16) : Statement (.preciseStop sid) := fun h => absurd rfl h
theorem interruptTaken (sid : BitVec 16) : Statement (.interruptTaken sid) := fun h => absurd rfl h
theorem hostint (v : Word) : Statement (.hostint v) := fun h => absurd rfl h
theorem dieReset (die : BitVec 5) : Statement (.dieReset die) := fun h => absurd rfl h
theorem copySector (sid : BitVec 16) (slot : BitVec 9) : Statement (.copySector sid slot) := fun h => absurd rfl h
theorem copyWritePerform (sid : BitVec 16) (slot : BitVec 9) : Statement (.copyWritePerform sid slot) := fun h => absurd rfl h
theorem followOnAction (sid : BitVec 16) (slot : BitVec 9) : Statement (.followOnAction sid slot) := fun h => absurd rfl h
theorem actionReserve (sid : BitVec 16) (slot : BitVec 9) : Statement (.actionReserve sid slot) := fun h => absurd rfl h
theorem tokenWrite (sid : BitVec 16) (slot : BitVec 9) : Statement (.tokenWrite sid slot) := fun h => absurd rfl h
theorem srunStart (sid : BitVec 16) (slot : BitVec 9) (pc : BitVec 10) : Statement (.srunStart sid slot pc) := fun h => absurd rfl h
theorem srunEnd (sid : BitVec 16) (slot : BitVec 9) (pc : BitVec 10) : Statement (.srunEnd sid slot pc) := fun h => absurd rfl h
theorem chaseHop (sid : BitVec 16) (slot : BitVec 9) : Statement (.chaseHop sid slot) := fun h => absurd rfl h
theorem accumMessage (k : BitVec 16) : Statement (.accumMessage k) := fun h => absurd rfl h
theorem accumAnswer (k : BitVec 16) : Statement (.accumAnswer k) := fun h => absurd rfl h
theorem residualIdleExpiry (bank : BitVec 13) (k : BitVec 7) : Statement (.residualIdleExpiry bank k) := fun h => absurd rfl h
theorem quotaInterval (home : BitVec 14) : Statement (.quotaInterval home) := fun h => absurd rfl h
theorem hintActivate (pc : BitVec 10) : Statement (.hintActivate pc) := fun h => absurd rfl h
theorem hintRowClose (pc : BitVec 10) (bank : BitVec 6) : Statement (.hintRowClose pc bank) := fun h => absurd rfl h
theorem refreshDue (pc : BitVec 10) (bank : BitVec 6) (busy : Bool) : Statement (.refreshDue pc bank busy) := fun h => absurd rfl h
theorem selfRefreshEntry (pc : BitVec 10) (request : Bool) : Statement (.selfRefreshEntry pc request) := fun h => absurd rfl h
theorem selfRefreshExit (pc : BitVec 10) : Statement (.selfRefreshExit pc) := fun h => absurd rfl h
theorem layerFailure (stack layer : BitVec 4) : Statement (.layerFailure stack layer) := fun h => absurd rfl h
theorem srmret (stack : BitVec 4) (v : Word) : Statement (.srmret stack v) := fun h => absurd rfl h
theorem pageWalk (sid : BitVec 16) (agent : BitVec 15) (va : Word) (wr : Bool) : Statement (.pageWalk sid agent va wr) := fun h => absurd rfl h
theorem shootdownReceive (agent : BitVec 15) (asid : BitVec 12) (va len : Word) : Statement (.shootdownReceive agent asid va len) := fun h => absurd rfl h
theorem prmctlGo (stack : BitVec 4) (v : Word) : Statement (.prmctlGo stack v) := fun h => absurd rfl h
theorem promotionDone (stack : BitVec 4) : Statement (.promotionDone stack) := fun h => absurd rfl h
theorem logRecord (ctx : BitVec 16) : Statement (.logRecord ctx) := fun h => absurd rfl h
theorem logTailPoll (ctx : BitVec 16) : Statement (.logTailPoll ctx) := fun h => absurd rfl h
theorem replayConsume (ctx : BitVec 16) : Statement (.replayConsume ctx) := fun h => absurd rfl h
theorem replayHeadPoll (ctx : BitVec 16) : Statement (.replayHeadPoll ctx) := fun h => absurd rfl h
theorem replayBudgetExpiry (sid : BitVec 16) : Statement (.replayBudgetExpiry sid) := fun h => absurd rfl h
theorem flitReceive (dir : BitVec 32) (route : BitVec 48) (fields : BitVec 80) (payload : BitVec 512) (tag : BitVec 128) : Statement (.flitReceive dir route fields payload tag) := fun h => absurd rfl h
theorem flitResend (dir : BitVec 32) (lane : BitVec 8 × BitVec 3) : Statement (.flitResend dir lane) := fun h => absurd rfl h
theorem tokenPass (ch ep : BitVec 8) (replies requests : List (BitVec 3)) : Statement (.tokenPass ch ep replies requests) := fun h => absurd rfl h
theorem governorLevel (region : BitVec 9) (up : Bool) : Statement (.governorLevel region up) := fun h => absurd rfl h
theorem emptyFlit (k : BitVec 8) (f : Flit) : Statement (.emptyFlit k f) := fun h => absurd rfl h
theorem fibrePark (k : BitVec 8) : Statement (.fibrePark k) := fun h => absurd rfl h
theorem fibreWake (k : BitVec 8) : Statement (.fibreWake k) := fun h => absurd rfl h
theorem wakeLock (k : BitVec 8) (locked : BitVec 8) : Statement (.wakeLock k locked) := fun h => absurd rfl h
theorem bar2Access (o : BitVec 40) (op : Bar2Op) (wide : Bool) (d e : Word) : Statement (.bar2Access o op wide d e) := fun h => absurd rfl h
theorem hostMemoryCompletion (sid : BitVec 16) (r : HostRead) (err : Bool) : Statement (.hostMemoryCompletion sid r err) := fun h => absurd rfl h
theorem attestation (die : BitVec 5) (offer : SpdmOffer) (proof : SpdmProof) : Statement (.attestation die offer proof) := fun h => absurd rfl h
theorem attestTimeout (die : BitVec 5) (failStep : BitVec 4) : Statement (.attestTimeout die failStep) := fun h => absurd rfl h
theorem keyRollover (dir : BitVec 32) : Statement (.keyRollover dir) := fun h => absurd rfl h
theorem keyErase (dir : BitVec 32) : Statement (.keyErase dir) := fun h => absurd rfl h
theorem lkrekey (v : Word) : Statement (.lkrekey v) := fun h => absurd rfl h
theorem peerAttestation (p : BitVec 6) (pass : Bool) : Statement (.peerAttestation p pass) := fun h => absurd rfl h
theorem debugHalt (sid : BitVec 16) : Statement (.debugHalt sid) := fun h => absurd rfl h
theorem debugResume (sid : BitVec 16) : Statement (.debugResume sid) := fun h => absurd rfl h
theorem debugStep (sid : BitVec 16) : Statement (.debugStep sid) := fun h => absurd rfl h
theorem debugReadRegister (sid : BitVec 16) : Statement (.debugReadRegister sid) := fun h => absurd rfl h
theorem debugWriteRegister (sid : BitVec 16) : Statement (.debugWriteRegister sid) := fun h => absurd rfl h
theorem debugReadMemory (sid : BitVec 16) : Statement (.debugReadMemory sid) := fun h => absurd rfl h
theorem debugWriteMemory (sid : BitVec 16) : Statement (.debugWriteMemory sid) := fun h => absurd rfl h
theorem debugForward (m : DebugMsg) : Statement (.debugForward m) := fun h => absurd rfl h
theorem debugPeerTimeout (p : BitVec 6) : Statement (.debugPeerTimeout p) := fun h => absurd rfl h
theorem traceRecord (r0 r1 r2 r3 : Word) : Statement (.traceRecord r0 r1 r2 r3) := fun h => absurd rfl h
theorem stallReport (sid : BitVec 16) (own : BitVec 14) (cpc ppc : Word) (parked refused : BitVec 32) : Statement (.stallReport sid own cpc ppc parked refused) := fun h => absurd rfl h
theorem bringUp (powerOk bootOk : Bool) (imgs : Bool × Bool) (cal : Option Calibration) : Statement (.bringUp powerOk bootOk imgs cal) := fun h => absurd rfl h
theorem memgo : Statement (.memgo) := fun h => absurd rfl h
theorem memgoTimeout : Statement (.memgoTimeout) := fun h => absurd rfl h
theorem unitRepair (seq : Bool) (unit : BitVec 13) : Statement (.unitRepair seq unit) := fun h => absurd rfl h
theorem spareRepair (fibre : Bool) (unit : BitVec 8) : Statement (.spareRepair fibre unit) := fun h => absurd rfl h
theorem hubFailover : Statement (.hubFailover) := fun h => absurd rfl h
theorem throttle (die : BitVec 5) (temp : BitVec 8) (watts : BitVec 16 × BitVec 16) : Statement (.throttle die temp watts) := fun h => absurd rfl h
theorem trip (die : BitVec 5) (temp : BitVec 8) (watts : BitVec 16 × BitVec 16) : Statement (.trip die temp watts) := fun h => absurd rfl h
theorem updctlGo (v : Word) : Statement (.updctlGo v) := fun h => absurd rfl h
theorem registerWrite (off : BitVec 25) (size : BitVec 4) (v : Option Word) : Statement (.registerWrite off size v) := fun h => absurd rfl h
theorem powerLoss (whole : Bool) (die : BitVec 5) : Statement (.powerLoss whole die) := fun h => absurd rfl h
theorem peerReset (p : BitVec 6) : Statement (.peerReset p) := fun h => absurd rfl h
theorem debugPeerReply (p : BitVec 6) (res : BitVec 3) (halted : Bool) (d : Word) : Statement (.debugPeerReply p res halted d) := fun h => absurd rfl h
theorem imageStaged (readErr sigOk : Bool) (img : ImageHead) : Statement (.imageStaged readErr sigOk img) := fun h => absurd rfl h

end Sys2Proof.Laws.Size
end

