-- ==== Sys2Proof/Laws/Places.lean ====
section
/-! SUPPORT. Where bytes of a page stand: redirection by the stacks' remap tables, and the keys of a run of
addresses. -/

namespace Sys2Proof.Laws

open Sys2Proof.Machine

/-- With no frame evacuated, nothing is redirected (R293). -/
theorem remapped_none (s : State) (p : Nat) (h : ∀ n, (s.stack n).remap = []) : remapped s p = p := by
  simp [remapped, redirectN, h]

theorem phys_none (s : State) (k : Key) (h : ∀ n, (s.stack n).remap = []) : s.phys k = k := by
  simp [State.phys, remapped_none s k h]

/-- The keys of a run of addresses, each of which has one. -/
theorem keysOf_of (s : State) (pl : Place) (va n : Nat) (f : Nat → Key) (h : ∀ i < n, keyOf s pl (va + i) = some (f i)) :
    keysOf s pl va n = some ((List.range n).map f) := by
  have key : ∀ l : List Nat, (∀ i ∈ l, i < n) →
      l.foldr (fun i acc => match keyOf s pl (va + i), acc with
        | some k, some ks => some (k :: ks)
        | _, _ => none) (some []) = some (l.map f) := by
    intro l
    induction l with
    | nil => intro _; rfl
    | cons i r ih =>
      intro hl
      rw [List.foldr_cons, ih (fun j hj => hl j (by simp [hj])), h i (hl i (by simp))]
      rfl
  exact key _ (fun i hi => List.mem_range.1 hi)

/-- A byte of stack memory, where nothing is redirected. -/
theorem keyOf_sm (s : State) (pl : Place) (va : Nat) (h : ∀ n, (s.stack n).remap = []) (hc : pteCls pl.leaf = .sm) :
    keyOf s pl va = some (smKey (pteFrame pl.leaf * 2 ^ 14 + (va - pl.base))) := by
  simp [keyOf, hc, remapped_none _ _ h]

/-! ### Stack registers -/

theorem stack_setStack (s : State) (n m : Nat) (r : StackRegs) : (s.setStack n r).stack m = if n % 16 = m % 16 then r else s.stack m := by
  simp only [State.stack, State.setStack, Vector.get, Vector.set, Fin.ofNat, Fin.cast, Array.getElem_set]

/-- A field that the new registers leave as it was is as it was at every stack. -/
theorem field_setStack {α : Type} (f : StackRegs → α) (s : State) (n m : Nat) (r : StackRegs) (h : f r = f (s.stack n)) :
    f ((s.setStack n r).stack m) = f (s.stack m) := by
  rw [stack_setStack]
  split
  · rename_i hm
    rw [h]
    simp only [State.stack, Fin.ofNat, hm]
  · rfl

/-- Where no redirection changes, neither do physical addresses and what stands there. -/
theorem phys_setStack (s : State) (n : Nat) (r : StackRegs) (h : r.remap = (s.stack n).remap) (k : Key) : (s.setStack n r).phys k = s.phys k := by
  have hr : ∀ f p, redirectN (s.setStack n r) f p = redirectN s f p := by
    intro f
    induction f with
    | zero => intro p; rfl
    | succ f ih => intro p; simp only [redirectN, field_setStack StackRegs.remap s n _ r h, ih]
  simp only [State.phys, remapped, hr]

theorem num_setStack (s : State) (n : Nat) (r : StackRegs) (h : r.remap = (s.stack n).remap) (k w : Nat) :
    (s.setStack n r).num k w = s.num k w := by
  simp only [State.num, phys_setStack s n r h]
  rfl

theorem smPresent_setStack (s : State) (n : Nat) (r : StackRegs) (h : r.layers = (s.stack n).layers) (p : Nat) :
    smPresent (s.setStack n r) p = smPresent s p := by
  simp only [smPresent, field_setStack StackRegs.layers s n _ r h]
  rfl

/-- Entering a promotion into a stack's registers changes neither what it has seen nor its checks (R313, R314). -/
theorem promotionSeen_setStack (s : State) (n : Nat) (r : StackRegs) (h : r.remap = (s.stack n).remap) (he : r.prment = (s.stack n).prment) :
    promotionSeen (s.setStack n r) n = promotionSeen s n := by
  simp only [promotionSeen, smallLeaves, field_setStack StackRegs.prment s n _ r he, num_setStack s n r h]

theorem unreadable_setStack (s : State) (n : Nat) (r : StackRegs) (h : r.layers = (s.stack n).layers) (ks : List Key) :
    unreadable (s.setStack n r) ks = unreadable s ks := by
  simp only [unreadable, smPresent_setStack s n r h]
  rfl

theorem promotionBad_setStack (s : State) (n : Nat) (r : StackRegs) (h : r.remap = (s.stack n).remap) (he : r.prment = (s.stack n).prment)
    (hl : r.layers = (s.stack n).layers) : promotionBad (s.setStack n r) n = promotionBad s n := by
  simp only [promotionBad, field_setStack StackRegs.prment s n _ r he, phys_setStack s n r h, unreadable_setStack s n r hl]
  rfl

theorem promotionCheck_setStack (s : State) (n : Nat) (r : StackRegs) (h : r.remap = (s.stack n).remap) (he : r.prment = (s.stack n).prment)
    (hd : r.prmdst = (s.stack n).prmdst) (hl : r.layers = (s.stack n).layers) : promotionCheck (s.setStack n r) n = promotionCheck s n := by
  have hp : smPresent (s.setStack n r) = smPresent s := funext (smPresent_setStack s n r hl)
  simp only [promotionCheck, promotionBad_setStack s n r h he hl, smallLeaves, field_setStack StackRegs.prment s n _ r he, field_setStack StackRegs.prmdst s n _ r hd,
    num_setStack s n r h, hp]
  rfl

end Sys2Proof.Laws
end

