-- ==== Sys2Proof/Laws/State.lean ====
section
/-! SUPPORT. What each update of the state changes, field by field. -/

namespace Sys2Proof.Machine

/-! ### Registers -/

@[simp] theorem wr_fronts (s : State) (r : SReg) (v : Word) : (s.wr r v).fronts = s.fronts := by unfold State.wr; split <;> rfl
@[simp] theorem wr_inbox (s : State) (r : SReg) (v : Word) : (s.wr r v).inbox = s.inbox := by unfold State.wr; split <;> rfl
@[simp] theorem wr_pace (s : State) (r : SReg) (v : Word) : (s.wr r v).pace = s.pace := by unfold State.wr; split <;> rfl
@[simp] theorem wr_drawn (s : State) (r : SReg) (v : Word) : (s.wr r v).drawn = s.drawn := by unfold State.wr; split <;> rfl
@[simp] theorem wr_mem (s : State) (r : SReg) (v : Word) : (s.wr r v).mem = s.mem := by unfold State.wr; split <;> rfl
@[simp] theorem wr_pullAge (s : State) (r : SReg) (v : Word) : (s.wr r v).pullAge = s.pullAge := by unfold State.wr; split <;> rfl
@[simp] theorem wr_poison (s : State) (r : SReg) (v : Word) : (s.wr r v).poison = s.poison := by unfold State.wr; split <;> rfl
@[simp] theorem wr_shelves (s : State) (r : SReg) (v : Word) : (s.wr r v).shelves = s.shelves := by unfold State.wr; split <;> rfl
@[simp] theorem wr_residuals (s : State) (r : SReg) (v : Word) : (s.wr r v).residuals = s.residuals := by unfold State.wr; split <;> rfl
@[simp] theorem wr_msgs (s : State) (r : SReg) (v : Word) : (s.wr r v).msgs = s.msgs := by unfold State.wr; split <;> rfl
@[simp] theorem wr_homeQ (s : State) (r : SReg) (v : Word) : (s.wr r v).homeQ = s.homeQ := by unfold State.wr; split <;> rfl
@[simp] theorem wr_quotas (s : State) (r : SReg) (v : Word) : (s.wr r v).quotas = s.quotas := by unfold State.wr; split <;> rfl
@[simp] theorem wr_quotaAt (s : State) (r : SReg) (v : Word) : (s.wr r v).quotaAt = s.quotaAt := by unfold State.wr; split <;> rfl
@[simp] theorem wr_tags (s : State) (r : SReg) (v : Word) : (s.wr r v).tags = s.tags := by unfold State.wr; split <;> rfl
@[simp] theorem wr_tlb (s : State) (r : SReg) (v : Word) : (s.wr r v).tlb = s.tlb := by unfold State.wr; split <;> rfl
@[simp] theorem wr_migrating (s : State) (r : SReg) (v : Word) : (s.wr r v).migrating = s.migrating := by unfold State.wr; split <;> rfl
@[simp] theorem wr_slots (s : State) (r : SReg) (v : Word) : (s.wr r v).slots = s.slots := by unfold State.wr; split <;> rfl
@[simp] theorem wr_drowsy (s : State) (r : SReg) (v : Word) : (s.wr r v).drowsy = s.drowsy := by unfold State.wr; split <;> rfl
@[simp] theorem wr_groups (s : State) (r : SReg) (v : Word) : (s.wr r v).groups = s.groups := by unfold State.wr; split <;> rfl
@[simp] theorem wr_waiters (s : State) (r : SReg) (v : Word) : (s.wr r v).waiters = s.waiters := by unfold State.wr; split <;> rfl
@[simp] theorem wr_pushed (s : State) (r : SReg) (v : Word) : (s.wr r v).pushed = s.pushed := by unfold State.wr; split <;> rfl
@[simp] theorem wr_monitors (s : State) (r : SReg) (v : Word) : (s.wr r v).monitors = s.monitors := by unfold State.wr; split <;> rfl
@[simp] theorem wr_lqueues (s : State) (r : SReg) (v : Word) : (s.wr r v).lqueues = s.lqueues := by unfold State.wr; split <;> rfl
@[simp] theorem wr_launches (s : State) (r : SReg) (v : Word) : (s.wr r v).launches = s.launches := by unfold State.wr; split <;> rfl
@[simp] theorem wr_epoch (s : State) (r : SReg) (v : Word) : (s.wr r v).epoch = s.epoch := by unfold State.wr; split <;> rfl
@[simp] theorem wr_placements (s : State) (r : SReg) (v : Word) : (s.wr r v).placements = s.placements := by unfold State.wr; split <;> rfl
@[simp] theorem wr_queueTurn (s : State) (r : SReg) (v : Word) : (s.wr r v).queueTurn = s.queueTurn := by unfold State.wr; split <;> rfl
@[simp] theorem wr_nextDom (s : State) (r : SReg) (v : Word) : (s.wr r v).nextDom = s.nextDom := by unfold State.wr; split <;> rfl
@[simp] theorem wr_stk (s : State) (r : SReg) (v : Word) : (s.wr r v).stk = s.stk := by unfold State.wr; split <;> rfl
@[simp] theorem wr_rows (s : State) (r : SReg) (v : Word) : (s.wr r v).rows = s.rows := by unfold State.wr; split <;> rfl
@[simp] theorem wr_hints (s : State) (r : SReg) (v : Word) : (s.wr r v).hints = s.hints := by unfold State.wr; split <;> rfl
@[simp] theorem wr_postponed (s : State) (r : SReg) (v : Word) : (s.wr r v).postponed = s.postponed := by unfold State.wr; split <;> rfl
@[simp] theorem wr_asleep (s : State) (r : SReg) (v : Word) : (s.wr r v).asleep = s.asleep := by unfold State.wr; split <;> rfl
@[simp] theorem wr_micro (s : State) (r : SReg) (v : Word) : (s.wr r v).micro = s.micro := by unfold State.wr; split <;> rfl
@[simp] theorem wr_logs (s : State) (r : SReg) (v : Word) : (s.wr r v).logs = s.logs := by unfold State.wr; split <;> rfl
@[simp] theorem wr_links (s : State) (r : SReg) (v : Word) : (s.wr r v).links = s.links := by unfold State.wr; split <;> rfl
@[simp] theorem wr_tokens (s : State) (r : SReg) (v : Word) : (s.wr r v).tokens = s.tokens := by unfold State.wr; split <;> rfl
@[simp] theorem wr_levels (s : State) (r : SReg) (v : Word) : (s.wr r v).levels = s.levels := by unfold State.wr; split <;> rfl
@[simp] theorem wr_fibres (s : State) (r : SReg) (v : Word) : (s.wr r v).fibres = s.fibres := by unfold State.wr; split <;> rfl
@[simp] theorem wr_dies (s : State) (r : SReg) (v : Word) : (s.wr r v).dies = s.dies := by unfold State.wr; split <;> rfl
@[simp] theorem wr_images (s : State) (r : SReg) (v : Word) : (s.wr r v).images = s.images := by unfold State.wr; split <;> rfl
@[simp] theorem wr_committed (s : State) (r : SReg) (v : Word) : (s.wr r v).committed = s.committed := by unfold State.wr; split <;> rfl
@[simp] theorem wr_staged (s : State) (r : SReg) (v : Word) : (s.wr r v).staged = s.staged := by unfold State.wr; split <;> rfl
@[simp] theorem wr_burnt (s : State) (r : SReg) (v : Word) : (s.wr r v).burnt = s.burnt := by unfold State.wr; split <;> rfl
@[simp] theorem wr_regs (s : State) (r : SReg) (v : Word) : (s.wr r v).regs = s.regs := by unfold State.wr; split <;> rfl
@[simp] theorem wr_msix (s : State) (r : SReg) (v : Word) : (s.wr r v).msix = s.msix := by unfold State.wr; split <;> rfl
@[simp] theorem wr_msixTable (s : State) (r : SReg) (v : Word) : (s.wr r v).msixTable = s.msixTable := by unfold State.wr; split <;> rfl
@[simp] theorem wr_hostReply (s : State) (r : SReg) (v : Word) : (s.wr r v).hostReply = s.hostReply := by unfold State.wr; split <;> rfl
@[simp] theorem wr_era (s : State) (r : SReg) (v : Word) : (s.wr r v).era = s.era := by unfold State.wr; split <;> rfl
@[simp] theorem wr_sessions (s : State) (r : SReg) (v : Word) : (s.wr r v).sessions = s.sessions := by unfold State.wr; split <;> rfl
@[simp] theorem wr_traceQ (s : State) (r : SReg) (v : Word) : (s.wr r v).traceQ = s.traceQ := by unfold State.wr; split <;> rfl
@[simp] theorem wr_guidesOut (s : State) (r : SReg) (v : Word) : (s.wr r v).guidesOut = s.guidesOut := by unfold State.wr; split <;> rfl
@[simp] theorem wr_cellsOut (s : State) (r : SReg) (v : Word) : (s.wr r v).cellsOut = s.cellsOut := by unfold State.wr; split <;> rfl
@[simp] theorem wr_repairs (s : State) (r : SReg) (v : Word) : (s.wr r v).repairs = s.repairs := by unfold State.wr; split <;> rfl
@[simp] theorem wr_bankSpares (s : State) (r : SReg) (v : Word) : (s.wr r v).bankSpares = s.bankSpares := by unfold State.wr; split <;> rfl
@[simp] theorem wr_seqSpares (s : State) (r : SReg) (v : Word) : (s.wr r v).seqSpares = s.seqSpares := by unfold State.wr; split <;> rfl
@[simp] theorem wr_guideSpares (s : State) (r : SReg) (v : Word) : (s.wr r v).guideSpares = s.guideSpares := by unfold State.wr; split <;> rfl
@[simp] theorem wr_front_status (s : State) (r : SReg) (v : Word) : (s.wr r v).front.status = s.front.status := by unfold State.wr; split <;> rfl
@[simp] theorem wr_front_w (s : State) (r : SReg) (v : Word) : (s.wr r v).front.w = s.front.w := by unfold State.wr; split <;> rfl
@[simp] theorem wr_front_pc (s : State) (r : SReg) (v : Word) : (s.wr r v).front.pc = s.front.pc := by unfold State.wr; split <;> rfl
@[simp] theorem wr_front_csr (s : State) (r : SReg) (v : Word) : (s.wr r v).front.csr = s.front.csr := by unfold State.wr; split <;> rfl
@[simp] theorem wr_front_sid (s : State) (r : SReg) (v : Word) : (s.wr r v).front.sid = s.front.sid := by unfold State.wr; split <;> rfl
@[simp] theorem wr_front_lidx (s : State) (r : SReg) (v : Word) : (s.wr r v).front.lidx = s.front.lidx := by unfold State.wr; split <;> rfl
@[simp] theorem wr_front_lcnt (s : State) (r : SReg) (v : Word) : (s.wr r v).front.lcnt = s.front.lcnt := by unfold State.wr; split <;> rfl
@[simp] theorem wr_front_cell (s : State) (r : SReg) (v : Word) : (s.wr r v).front.cell = s.front.cell := by unfold State.wr; split <;> rfl
@[simp] theorem wr_front_seq (s : State) (r : SReg) (v : Word) : (s.wr r v).front.seq = s.front.seq := by unfold State.wr; split <;> rfl
@[simp] theorem wr_front_domBase (s : State) (r : SReg) (v : Word) : (s.wr r v).front.domBase = s.front.domBase := by unfold State.wr; split <;> rfl
@[simp] theorem wr_front_domLog (s : State) (r : SReg) (v : Word) : (s.wr r v).front.domLog = s.front.domLog := by unfold State.wr; split <;> rfl
@[simp] theorem wr_front_plane (s : State) (r : SReg) (v : Word) : (s.wr r v).front.plane = s.front.plane := by unfold State.wr; split <;> rfl
@[simp] theorem wr_front_pair (s : State) (r : SReg) (v : Word) : (s.wr r v).front.pair = s.front.pair := by unfold State.wr; split <;> rfl
@[simp] theorem wr_front_domId (s : State) (r : SReg) (v : Word) : (s.wr r v).front.domId = s.front.domId := by unfold State.wr; split <;> rfl
@[simp] theorem wr_front_maps (s : State) (r : SReg) (v : Word) : (s.wr r v).front.maps = s.front.maps := by unfold State.wr; split <;> rfl
@[simp] theorem wr_front_grps (s : State) (r : SReg) (v : Word) : (s.wr r v).front.grps = s.front.grps := by unfold State.wr; split <;> rfl
@[simp] theorem wr_front_launch (s : State) (r : SReg) (v : Word) : (s.wr r v).front.launch = s.front.launch := by unfold State.wr; split <;> rfl
@[simp] theorem wr_front_asid (s : State) (r : SReg) (v : Word) : (s.wr r v).front.asid = s.front.asid := by unfold State.wr; split <;> rfl
@[simp] theorem wr_front_root (s : State) (r : SReg) (v : Word) : (s.wr r v).front.root = s.front.root := by unfold State.wr; split <;> rfl
@[simp] theorem wr_front_rclass (s : State) (r : SReg) (v : Word) : (s.wr r v).front.rclass = s.front.rclass := by unfold State.wr; split <;> rfl
@[simp] theorem wr_front_simg (s : State) (r : SReg) (v : Word) : (s.wr r v).front.simg = s.front.simg := by unfold State.wr; split <;> rfl
@[simp] theorem wr_front_pasid (s : State) (r : SReg) (v : Word) : (s.wr r v).front.pasid = s.front.pasid := by unfold State.wr; split <;> rfl
@[simp] theorem wr_front_pen (s : State) (r : SReg) (v : Word) : (s.wr r v).front.pen = s.front.pen := by unfold State.wr; split <;> rfl
@[simp] theorem wr_front_link (s : State) (r : SReg) (v : Word) : (s.wr r v).front.link = s.front.link := by unfold State.wr; split <;> rfl
@[simp] theorem wr_front_logMode (s : State) (r : SReg) (v : Word) : (s.wr r v).front.logMode = s.front.logMode := by unfold State.wr; split <;> rfl
@[simp] theorem wr_front_logId (s : State) (r : SReg) (v : Word) : (s.wr r v).front.logId = s.front.logId := by unfold State.wr; split <;> rfl
@[simp] theorem wr_front_clock (s : State) (r : SReg) (v : Word) : (s.wr r v).front.clock = s.front.clock := by unfold State.wr; split <;> rfl
@[simp] theorem wr_front_icache (s : State) (r : SReg) (v : Word) : (s.wr r v).front.icache = s.front.icache := by unfold State.wr; split <;> rfl
@[simp] theorem wr_front_bcasts (s : State) (r : SReg) (v : Word) : (s.wr r v).front.bcasts = s.front.bcasts := by unfold State.wr; split <;> rfl
@[simp] theorem wr_front_works (s : State) (r : SReg) (v : Word) : (s.wr r v).front.works = s.front.works := by unfold State.wr; split <;> rfl
@[simp] theorem wr_front_pulls (s : State) (r : SReg) (v : Word) : (s.wr r v).front.pulls = s.front.pulls := by unfold State.wr; split <;> rfl
@[simp] theorem wr_front_progress (s : State) (r : SReg) (v : Word) : (s.wr r v).front.progress = s.front.progress := by unfold State.wr; split <;> rfl
@[simp] theorem wr_front_found (s : State) (r : SReg) (v : Word) : (s.wr r v).front.found = s.front.found := by unfold State.wr; split <;> rfl
@[simp] theorem wr_front_queue (s : State) (r : SReg) (v : Word) : (s.wr r v).front.queue = s.front.queue := by unfold State.wr; split <;> rfl
@[simp] theorem wr_front_heldFlags (s : State) (r : SReg) (v : Word) : (s.wr r v).front.heldFlags = s.front.heldFlags := by unfold State.wr; split <;> rfl
@[simp] theorem wr_front_stopWin (s : State) (r : SReg) (v : Word) : (s.wr r v).front.stopWin = s.front.stopWin := by unfold State.wr; split <;> rfl
@[simp] theorem wr_front_resumed (s : State) (r : SReg) (v : Word) : (s.wr r v).front.resumed = s.front.resumed := by unfold State.wr; split <;> rfl
@[simp] theorem wr_front_exempt (s : State) (r : SReg) (v : Word) : (s.wr r v).front.exempt = s.front.exempt := by unfold State.wr; split <;> rfl
@[simp] theorem wr_front_exemptAt (s : State) (r : SReg) (v : Word) : (s.wr r v).front.exemptAt = s.front.exemptAt := by unfold State.wr; split <;> rfl
@[simp] theorem wr_front_issued (s : State) (r : SReg) (v : Word) : (s.wr r v).front.issued = s.front.issued := by unfold State.wr; split <;> rfl
@[simp] theorem wr_front_ppre (s : State) (r : SReg) (v : Word) : (s.wr r v).front.ppre = s.front.ppre := by unfold State.wr; split <;> rfl
@[simp] theorem wr_front_phost (s : State) (r : SReg) (v : Word) : (s.wr r v).front.phost = s.front.phost := by unfold State.wr; split <;> rfl
@[simp] theorem wr_front_pwatch (s : State) (r : SReg) (v : Word) : (s.wr r v).front.pwatch = s.front.pwatch := by unfold State.wr; split <;> rfl
@[simp] theorem wr_front_pdie (s : State) (r : SReg) (v : Word) : (s.wr r v).front.pdie = s.front.pdie := by unfold State.wr; split <;> rfl
@[simp] theorem wr_front_byDevice (s : State) (r : SReg) (v : Word) : (s.wr r v).front.byDevice = s.front.byDevice := by unfold State.wr; split <;> rfl
@[simp] theorem wr_front_preempt (s : State) (r : SReg) (v : Word) : (s.wr r v).front.preempt = s.front.preempt := by unfold State.wr; split <;> rfl
@[simp] theorem wr_front_heldBack (s : State) (r : SReg) (v : Word) : (s.wr r v).front.heldBack = s.front.heldBack := by unfold State.wr; split <;> rfl
@[simp] theorem wr_front_accesses (s : State) (r : SReg) (v : Word) : (s.wr r v).front.accesses = s.front.accesses := by unfold State.wr; split <;> rfl
@[simp] theorem wr_front_cmds (s : State) (r : SReg) (v : Word) : (s.wr r v).front.cmds = s.front.cmds := by unfold State.wr; split <;> rfl
@[simp] theorem wr_front_planes (s : State) (r : SReg) (v : Word) : (s.wr r v).front.planes = s.front.planes := by unfold State.wr; split <;> rfl
@[simp] theorem wr_front_decls (s : State) (r : SReg) (v : Word) : (s.wr r v).front.decls = s.front.decls := by unfold State.wr; split <;> rfl
@[simp] theorem wr_front_stalls (s : State) (r : SReg) (v : Word) : (s.wr r v).front.stalls = s.front.stalls := by unfold State.wr; split <;> rfl
@[simp] theorem wr_front_heldToks (s : State) (r : SReg) (v : Word) : (s.wr r v).front.heldToks = s.front.heldToks := by unfold State.wr; split <;> rfl
@[simp] theorem wr_front_charges (s : State) (r : SReg) (v : Word) : (s.wr r v).front.charges = s.front.charges := by unfold State.wr; split <;> rfl
@[simp] theorem wr_front_halted (s : State) (r : SReg) (v : Word) : (s.wr r v).front.halted = s.front.halted := by unfold State.wr; split <;> rfl
@[simp] theorem wr_front_haltPend (s : State) (r : SReg) (v : Word) : (s.wr r v).front.haltPend = s.front.haltPend := by unfold State.wr; split <;> rfl
@[simp] theorem wr_front_dbg (s : State) (r : SReg) (v : Word) : (s.wr r v).front.dbg = s.front.dbg := by unfold State.wr; split <;> rfl
@[simp] theorem wr_front_haltWin (s : State) (r : SReg) (v : Word) : (s.wr r v).front.haltWin = s.front.haltWin := by unfold State.wr; split <;> rfl
@[simp] theorem wr_front_haltQueue (s : State) (r : SReg) (v : Word) : (s.wr r v).front.haltQueue = s.front.haltQueue := by unfold State.wr; split <;> rfl
@[simp] theorem wr_front_waiting (s : State) (r : SReg) (v : Word) : (s.wr r v).front.waiting = s.front.waiting := by unfold State.wr; split <;> rfl
@[simp] theorem wr_front_tlbOp (s : State) (r : SReg) (v : Word) : (s.wr r v).front.tlbOp = s.front.tlbOp := by unfold State.wr; split <;> rfl
@[simp] theorem wr_front_olds (s : State) (r : SReg) (v : Word) : (s.wr r v).front.olds = s.front.olds := by unfold State.wr; split <;> rfl
@[simp] theorem wr_front_waitObj (s : State) (r : SReg) (v : Word) : (s.wr r v).front.waitObj = s.front.waitObj := by unfold State.wr; split <;> rfl
@[simp] theorem wr_front_atGroup (s : State) (r : SReg) (v : Word) : (s.wr r v).front.atGroup = s.front.atGroup := by unfold State.wr; split <;> rfl
@[simp] theorem wr_front_joining (s : State) (r : SReg) (v : Word) : (s.wr r v).front.joining = s.front.joining := by unfold State.wr; split <;> rfl
@[simp] theorem wr_front_retiring (s : State) (r : SReg) (v : Word) : (s.wr r v).front.retiring = s.front.retiring := by unfold State.wr; split <;> rfl
@[simp] theorem wr_front_late (s : State) (r : SReg) (v : Word) : (s.wr r v).front.late = s.front.late := by unfold State.wr; split <;> rfl
@[simp] theorem wr_front_strayed (s : State) (r : SReg) (v : Word) : (s.wr r v).front.strayed = s.front.strayed := by unfold State.wr; split <;> rfl
@[simp] theorem wr_front_placedAt (s : State) (r : SReg) (v : Word) : (s.wr r v).front.placedAt = s.front.placedAt := by unfold State.wr; split <;> rfl
@[simp] theorem wr_front_outAt (s : State) (r : SReg) (v : Word) : (s.wr r v).front.outAt = s.front.outAt := by unfold State.wr; split <;> rfl
@[simp] theorem wr_front_horizon (s : State) (r : SReg) (v : Word) : (s.wr r v).front.horizon = s.front.horizon := by unfold State.wr; split <;> rfl

@[simp] theorem wrW_fronts (s : State) (w : WReg) (d : Desc) : (s.wrW w d).fronts = s.fronts := rfl
@[simp] theorem wrW_inbox (s : State) (w : WReg) (d : Desc) : (s.wrW w d).inbox = s.inbox := rfl
@[simp] theorem wrW_pace (s : State) (w : WReg) (d : Desc) : (s.wrW w d).pace = s.pace := rfl
@[simp] theorem wrW_drawn (s : State) (w : WReg) (d : Desc) : (s.wrW w d).drawn = s.drawn := rfl
@[simp] theorem wrW_mem (s : State) (w : WReg) (d : Desc) : (s.wrW w d).mem = s.mem := rfl
@[simp] theorem wrW_pullAge (s : State) (w : WReg) (d : Desc) : (s.wrW w d).pullAge = s.pullAge := rfl
@[simp] theorem wrW_poison (s : State) (w : WReg) (d : Desc) : (s.wrW w d).poison = s.poison := rfl
@[simp] theorem wrW_shelves (s : State) (w : WReg) (d : Desc) : (s.wrW w d).shelves = s.shelves := rfl
@[simp] theorem wrW_residuals (s : State) (w : WReg) (d : Desc) : (s.wrW w d).residuals = s.residuals := rfl
@[simp] theorem wrW_msgs (s : State) (w : WReg) (d : Desc) : (s.wrW w d).msgs = s.msgs := rfl
@[simp] theorem wrW_homeQ (s : State) (w : WReg) (d : Desc) : (s.wrW w d).homeQ = s.homeQ := rfl
@[simp] theorem wrW_quotas (s : State) (w : WReg) (d : Desc) : (s.wrW w d).quotas = s.quotas := rfl
@[simp] theorem wrW_quotaAt (s : State) (w : WReg) (d : Desc) : (s.wrW w d).quotaAt = s.quotaAt := rfl
@[simp] theorem wrW_tags (s : State) (w : WReg) (d : Desc) : (s.wrW w d).tags = s.tags := rfl
@[simp] theorem wrW_tlb (s : State) (w : WReg) (d : Desc) : (s.wrW w d).tlb = s.tlb := rfl
@[simp] theorem wrW_migrating (s : State) (w : WReg) (d : Desc) : (s.wrW w d).migrating = s.migrating := rfl
@[simp] theorem wrW_slots (s : State) (w : WReg) (d : Desc) : (s.wrW w d).slots = s.slots := rfl
@[simp] theorem wrW_drowsy (s : State) (w : WReg) (d : Desc) : (s.wrW w d).drowsy = s.drowsy := rfl
@[simp] theorem wrW_groups (s : State) (w : WReg) (d : Desc) : (s.wrW w d).groups = s.groups := rfl
@[simp] theorem wrW_waiters (s : State) (w : WReg) (d : Desc) : (s.wrW w d).waiters = s.waiters := rfl
@[simp] theorem wrW_pushed (s : State) (w : WReg) (d : Desc) : (s.wrW w d).pushed = s.pushed := rfl
@[simp] theorem wrW_monitors (s : State) (w : WReg) (d : Desc) : (s.wrW w d).monitors = s.monitors := rfl
@[simp] theorem wrW_lqueues (s : State) (w : WReg) (d : Desc) : (s.wrW w d).lqueues = s.lqueues := rfl
@[simp] theorem wrW_launches (s : State) (w : WReg) (d : Desc) : (s.wrW w d).launches = s.launches := rfl
@[simp] theorem wrW_epoch (s : State) (w : WReg) (d : Desc) : (s.wrW w d).epoch = s.epoch := rfl
@[simp] theorem wrW_placements (s : State) (w : WReg) (d : Desc) : (s.wrW w d).placements = s.placements := rfl
@[simp] theorem wrW_queueTurn (s : State) (w : WReg) (d : Desc) : (s.wrW w d).queueTurn = s.queueTurn := rfl
@[simp] theorem wrW_nextDom (s : State) (w : WReg) (d : Desc) : (s.wrW w d).nextDom = s.nextDom := rfl
@[simp] theorem wrW_stk (s : State) (w : WReg) (d : Desc) : (s.wrW w d).stk = s.stk := rfl
@[simp] theorem wrW_rows (s : State) (w : WReg) (d : Desc) : (s.wrW w d).rows = s.rows := rfl
@[simp] theorem wrW_hints (s : State) (w : WReg) (d : Desc) : (s.wrW w d).hints = s.hints := rfl
@[simp] theorem wrW_postponed (s : State) (w : WReg) (d : Desc) : (s.wrW w d).postponed = s.postponed := rfl
@[simp] theorem wrW_asleep (s : State) (w : WReg) (d : Desc) : (s.wrW w d).asleep = s.asleep := rfl
@[simp] theorem wrW_micro (s : State) (w : WReg) (d : Desc) : (s.wrW w d).micro = s.micro := rfl
@[simp] theorem wrW_logs (s : State) (w : WReg) (d : Desc) : (s.wrW w d).logs = s.logs := rfl
@[simp] theorem wrW_links (s : State) (w : WReg) (d : Desc) : (s.wrW w d).links = s.links := rfl
@[simp] theorem wrW_tokens (s : State) (w : WReg) (d : Desc) : (s.wrW w d).tokens = s.tokens := rfl
@[simp] theorem wrW_levels (s : State) (w : WReg) (d : Desc) : (s.wrW w d).levels = s.levels := rfl
@[simp] theorem wrW_fibres (s : State) (w : WReg) (d : Desc) : (s.wrW w d).fibres = s.fibres := rfl
@[simp] theorem wrW_dies (s : State) (w : WReg) (d : Desc) : (s.wrW w d).dies = s.dies := rfl
@[simp] theorem wrW_images (s : State) (w : WReg) (d : Desc) : (s.wrW w d).images = s.images := rfl
@[simp] theorem wrW_committed (s : State) (w : WReg) (d : Desc) : (s.wrW w d).committed = s.committed := rfl
@[simp] theorem wrW_staged (s : State) (w : WReg) (d : Desc) : (s.wrW w d).staged = s.staged := rfl
@[simp] theorem wrW_burnt (s : State) (w : WReg) (d : Desc) : (s.wrW w d).burnt = s.burnt := rfl
@[simp] theorem wrW_regs (s : State) (w : WReg) (d : Desc) : (s.wrW w d).regs = s.regs := rfl
@[simp] theorem wrW_msix (s : State) (w : WReg) (d : Desc) : (s.wrW w d).msix = s.msix := rfl
@[simp] theorem wrW_msixTable (s : State) (w : WReg) (d : Desc) : (s.wrW w d).msixTable = s.msixTable := rfl
@[simp] theorem wrW_hostReply (s : State) (w : WReg) (d : Desc) : (s.wrW w d).hostReply = s.hostReply := rfl
@[simp] theorem wrW_era (s : State) (w : WReg) (d : Desc) : (s.wrW w d).era = s.era := rfl
@[simp] theorem wrW_sessions (s : State) (w : WReg) (d : Desc) : (s.wrW w d).sessions = s.sessions := rfl
@[simp] theorem wrW_traceQ (s : State) (w : WReg) (d : Desc) : (s.wrW w d).traceQ = s.traceQ := rfl
@[simp] theorem wrW_guidesOut (s : State) (w : WReg) (d : Desc) : (s.wrW w d).guidesOut = s.guidesOut := rfl
@[simp] theorem wrW_cellsOut (s : State) (w : WReg) (d : Desc) : (s.wrW w d).cellsOut = s.cellsOut := rfl
@[simp] theorem wrW_repairs (s : State) (w : WReg) (d : Desc) : (s.wrW w d).repairs = s.repairs := rfl
@[simp] theorem wrW_bankSpares (s : State) (w : WReg) (d : Desc) : (s.wrW w d).bankSpares = s.bankSpares := rfl
@[simp] theorem wrW_seqSpares (s : State) (w : WReg) (d : Desc) : (s.wrW w d).seqSpares = s.seqSpares := rfl
@[simp] theorem wrW_guideSpares (s : State) (w : WReg) (d : Desc) : (s.wrW w d).guideSpares = s.guideSpares := rfl
@[simp] theorem wrW_front_status (s : State) (w : WReg) (d : Desc) : (s.wrW w d).front.status = s.front.status := rfl
@[simp] theorem wrW_front_s (s : State) (w : WReg) (d : Desc) : (s.wrW w d).front.s = s.front.s := rfl
@[simp] theorem wrW_front_pc (s : State) (w : WReg) (d : Desc) : (s.wrW w d).front.pc = s.front.pc := rfl
@[simp] theorem wrW_front_csr (s : State) (w : WReg) (d : Desc) : (s.wrW w d).front.csr = s.front.csr := rfl
@[simp] theorem wrW_front_sid (s : State) (w : WReg) (d : Desc) : (s.wrW w d).front.sid = s.front.sid := rfl
@[simp] theorem wrW_front_lidx (s : State) (w : WReg) (d : Desc) : (s.wrW w d).front.lidx = s.front.lidx := rfl
@[simp] theorem wrW_front_lcnt (s : State) (w : WReg) (d : Desc) : (s.wrW w d).front.lcnt = s.front.lcnt := rfl
@[simp] theorem wrW_front_cell (s : State) (w : WReg) (d : Desc) : (s.wrW w d).front.cell = s.front.cell := rfl
@[simp] theorem wrW_front_seq (s : State) (w : WReg) (d : Desc) : (s.wrW w d).front.seq = s.front.seq := rfl
@[simp] theorem wrW_front_domBase (s : State) (w : WReg) (d : Desc) : (s.wrW w d).front.domBase = s.front.domBase := rfl
@[simp] theorem wrW_front_domLog (s : State) (w : WReg) (d : Desc) : (s.wrW w d).front.domLog = s.front.domLog := rfl
@[simp] theorem wrW_front_plane (s : State) (w : WReg) (d : Desc) : (s.wrW w d).front.plane = s.front.plane := rfl
@[simp] theorem wrW_front_pair (s : State) (w : WReg) (d : Desc) : (s.wrW w d).front.pair = s.front.pair := rfl
@[simp] theorem wrW_front_domId (s : State) (w : WReg) (d : Desc) : (s.wrW w d).front.domId = s.front.domId := rfl
@[simp] theorem wrW_front_maps (s : State) (w : WReg) (d : Desc) : (s.wrW w d).front.maps = s.front.maps := rfl
@[simp] theorem wrW_front_grps (s : State) (w : WReg) (d : Desc) : (s.wrW w d).front.grps = s.front.grps := rfl
@[simp] theorem wrW_front_launch (s : State) (w : WReg) (d : Desc) : (s.wrW w d).front.launch = s.front.launch := rfl
@[simp] theorem wrW_front_asid (s : State) (w : WReg) (d : Desc) : (s.wrW w d).front.asid = s.front.asid := rfl
@[simp] theorem wrW_front_root (s : State) (w : WReg) (d : Desc) : (s.wrW w d).front.root = s.front.root := rfl
@[simp] theorem wrW_front_rclass (s : State) (w : WReg) (d : Desc) : (s.wrW w d).front.rclass = s.front.rclass := rfl
@[simp] theorem wrW_front_simg (s : State) (w : WReg) (d : Desc) : (s.wrW w d).front.simg = s.front.simg := rfl
@[simp] theorem wrW_front_pasid (s : State) (w : WReg) (d : Desc) : (s.wrW w d).front.pasid = s.front.pasid := rfl
@[simp] theorem wrW_front_pen (s : State) (w : WReg) (d : Desc) : (s.wrW w d).front.pen = s.front.pen := rfl
@[simp] theorem wrW_front_link (s : State) (w : WReg) (d : Desc) : (s.wrW w d).front.link = s.front.link := rfl
@[simp] theorem wrW_front_logMode (s : State) (w : WReg) (d : Desc) : (s.wrW w d).front.logMode = s.front.logMode := rfl
@[simp] theorem wrW_front_logId (s : State) (w : WReg) (d : Desc) : (s.wrW w d).front.logId = s.front.logId := rfl
@[simp] theorem wrW_front_clock (s : State) (w : WReg) (d : Desc) : (s.wrW w d).front.clock = s.front.clock := rfl
@[simp] theorem wrW_front_icache (s : State) (w : WReg) (d : Desc) : (s.wrW w d).front.icache = s.front.icache := rfl
@[simp] theorem wrW_front_bcasts (s : State) (w : WReg) (d : Desc) : (s.wrW w d).front.bcasts = s.front.bcasts := rfl
@[simp] theorem wrW_front_works (s : State) (w : WReg) (d : Desc) : (s.wrW w d).front.works = s.front.works := rfl
@[simp] theorem wrW_front_pulls (s : State) (w : WReg) (d : Desc) : (s.wrW w d).front.pulls = s.front.pulls := rfl
@[simp] theorem wrW_front_progress (s : State) (w : WReg) (d : Desc) : (s.wrW w d).front.progress = s.front.progress := rfl
@[simp] theorem wrW_front_found (s : State) (w : WReg) (d : Desc) : (s.wrW w d).front.found = s.front.found := rfl
@[simp] theorem wrW_front_queue (s : State) (w : WReg) (d : Desc) : (s.wrW w d).front.queue = s.front.queue := rfl
@[simp] theorem wrW_front_heldFlags (s : State) (w : WReg) (d : Desc) : (s.wrW w d).front.heldFlags = s.front.heldFlags := rfl
@[simp] theorem wrW_front_stopWin (s : State) (w : WReg) (d : Desc) : (s.wrW w d).front.stopWin = s.front.stopWin := rfl
@[simp] theorem wrW_front_resumed (s : State) (w : WReg) (d : Desc) : (s.wrW w d).front.resumed = s.front.resumed := rfl
@[simp] theorem wrW_front_exempt (s : State) (w : WReg) (d : Desc) : (s.wrW w d).front.exempt = s.front.exempt := rfl
@[simp] theorem wrW_front_exemptAt (s : State) (w : WReg) (d : Desc) : (s.wrW w d).front.exemptAt = s.front.exemptAt := rfl
@[simp] theorem wrW_front_issued (s : State) (w : WReg) (d : Desc) : (s.wrW w d).front.issued = s.front.issued := rfl
@[simp] theorem wrW_front_ppre (s : State) (w : WReg) (d : Desc) : (s.wrW w d).front.ppre = s.front.ppre := rfl
@[simp] theorem wrW_front_phost (s : State) (w : WReg) (d : Desc) : (s.wrW w d).front.phost = s.front.phost := rfl
@[simp] theorem wrW_front_pwatch (s : State) (w : WReg) (d : Desc) : (s.wrW w d).front.pwatch = s.front.pwatch := rfl
@[simp] theorem wrW_front_pdie (s : State) (w : WReg) (d : Desc) : (s.wrW w d).front.pdie = s.front.pdie := rfl
@[simp] theorem wrW_front_byDevice (s : State) (w : WReg) (d : Desc) : (s.wrW w d).front.byDevice = s.front.byDevice := rfl
@[simp] theorem wrW_front_preempt (s : State) (w : WReg) (d : Desc) : (s.wrW w d).front.preempt = s.front.preempt := rfl
@[simp] theorem wrW_front_heldBack (s : State) (w : WReg) (d : Desc) : (s.wrW w d).front.heldBack = s.front.heldBack := rfl
@[simp] theorem wrW_front_accesses (s : State) (w : WReg) (d : Desc) : (s.wrW w d).front.accesses = s.front.accesses := rfl
@[simp] theorem wrW_front_cmds (s : State) (w : WReg) (d : Desc) : (s.wrW w d).front.cmds = s.front.cmds := rfl
@[simp] theorem wrW_front_planes (s : State) (w : WReg) (d : Desc) : (s.wrW w d).front.planes = s.front.planes := rfl
@[simp] theorem wrW_front_decls (s : State) (w : WReg) (d : Desc) : (s.wrW w d).front.decls = s.front.decls := rfl
@[simp] theorem wrW_front_stalls (s : State) (w : WReg) (d : Desc) : (s.wrW w d).front.stalls = s.front.stalls := rfl
@[simp] theorem wrW_front_heldToks (s : State) (w : WReg) (d : Desc) : (s.wrW w d).front.heldToks = s.front.heldToks := rfl
@[simp] theorem wrW_front_charges (s : State) (w : WReg) (d : Desc) : (s.wrW w d).front.charges = s.front.charges := rfl
@[simp] theorem wrW_front_halted (s : State) (w : WReg) (d : Desc) : (s.wrW w d).front.halted = s.front.halted := rfl
@[simp] theorem wrW_front_haltPend (s : State) (w : WReg) (d : Desc) : (s.wrW w d).front.haltPend = s.front.haltPend := rfl
@[simp] theorem wrW_front_dbg (s : State) (w : WReg) (d : Desc) : (s.wrW w d).front.dbg = s.front.dbg := rfl
@[simp] theorem wrW_front_haltWin (s : State) (w : WReg) (d : Desc) : (s.wrW w d).front.haltWin = s.front.haltWin := rfl
@[simp] theorem wrW_front_haltQueue (s : State) (w : WReg) (d : Desc) : (s.wrW w d).front.haltQueue = s.front.haltQueue := rfl
@[simp] theorem wrW_front_waiting (s : State) (w : WReg) (d : Desc) : (s.wrW w d).front.waiting = s.front.waiting := rfl
@[simp] theorem wrW_front_tlbOp (s : State) (w : WReg) (d : Desc) : (s.wrW w d).front.tlbOp = s.front.tlbOp := rfl
@[simp] theorem wrW_front_olds (s : State) (w : WReg) (d : Desc) : (s.wrW w d).front.olds = s.front.olds := rfl
@[simp] theorem wrW_front_waitObj (s : State) (w : WReg) (d : Desc) : (s.wrW w d).front.waitObj = s.front.waitObj := rfl
@[simp] theorem wrW_front_atGroup (s : State) (w : WReg) (d : Desc) : (s.wrW w d).front.atGroup = s.front.atGroup := rfl
@[simp] theorem wrW_front_joining (s : State) (w : WReg) (d : Desc) : (s.wrW w d).front.joining = s.front.joining := rfl
@[simp] theorem wrW_front_retiring (s : State) (w : WReg) (d : Desc) : (s.wrW w d).front.retiring = s.front.retiring := rfl
@[simp] theorem wrW_front_late (s : State) (w : WReg) (d : Desc) : (s.wrW w d).front.late = s.front.late := rfl
@[simp] theorem wrW_front_strayed (s : State) (w : WReg) (d : Desc) : (s.wrW w d).front.strayed = s.front.strayed := rfl
@[simp] theorem wrW_front_placedAt (s : State) (w : WReg) (d : Desc) : (s.wrW w d).front.placedAt = s.front.placedAt := rfl
@[simp] theorem wrW_front_outAt (s : State) (w : WReg) (d : Desc) : (s.wrW w d).front.outAt = s.front.outAt := rfl
@[simp] theorem wrW_front_horizon (s : State) (w : WReg) (d : Desc) : (s.wrW w d).front.horizon = s.front.horizon := rfl

@[simp] theorem setPc_fronts (s : State) (a : Word) : (s.setPc a).fronts = s.fronts := rfl
@[simp] theorem setPc_inbox (s : State) (a : Word) : (s.setPc a).inbox = s.inbox := rfl
@[simp] theorem setPc_pace (s : State) (a : Word) : (s.setPc a).pace = s.pace := rfl
@[simp] theorem setPc_drawn (s : State) (a : Word) : (s.setPc a).drawn = s.drawn := rfl
@[simp] theorem setPc_mem (s : State) (a : Word) : (s.setPc a).mem = s.mem := rfl
@[simp] theorem setPc_pullAge (s : State) (a : Word) : (s.setPc a).pullAge = s.pullAge := rfl
@[simp] theorem setPc_poison (s : State) (a : Word) : (s.setPc a).poison = s.poison := rfl
@[simp] theorem setPc_shelves (s : State) (a : Word) : (s.setPc a).shelves = s.shelves := rfl
@[simp] theorem setPc_residuals (s : State) (a : Word) : (s.setPc a).residuals = s.residuals := rfl
@[simp] theorem setPc_msgs (s : State) (a : Word) : (s.setPc a).msgs = s.msgs := rfl
@[simp] theorem setPc_homeQ (s : State) (a : Word) : (s.setPc a).homeQ = s.homeQ := rfl
@[simp] theorem setPc_quotas (s : State) (a : Word) : (s.setPc a).quotas = s.quotas := rfl
@[simp] theorem setPc_quotaAt (s : State) (a : Word) : (s.setPc a).quotaAt = s.quotaAt := rfl
@[simp] theorem setPc_tags (s : State) (a : Word) : (s.setPc a).tags = s.tags := rfl
@[simp] theorem setPc_tlb (s : State) (a : Word) : (s.setPc a).tlb = s.tlb := rfl
@[simp] theorem setPc_migrating (s : State) (a : Word) : (s.setPc a).migrating = s.migrating := rfl
@[simp] theorem setPc_slots (s : State) (a : Word) : (s.setPc a).slots = s.slots := rfl
@[simp] theorem setPc_drowsy (s : State) (a : Word) : (s.setPc a).drowsy = s.drowsy := rfl
@[simp] theorem setPc_groups (s : State) (a : Word) : (s.setPc a).groups = s.groups := rfl
@[simp] theorem setPc_waiters (s : State) (a : Word) : (s.setPc a).waiters = s.waiters := rfl
@[simp] theorem setPc_pushed (s : State) (a : Word) : (s.setPc a).pushed = s.pushed := rfl
@[simp] theorem setPc_monitors (s : State) (a : Word) : (s.setPc a).monitors = s.monitors := rfl
@[simp] theorem setPc_lqueues (s : State) (a : Word) : (s.setPc a).lqueues = s.lqueues := rfl
@[simp] theorem setPc_launches (s : State) (a : Word) : (s.setPc a).launches = s.launches := rfl
@[simp] theorem setPc_epoch (s : State) (a : Word) : (s.setPc a).epoch = s.epoch := rfl
@[simp] theorem setPc_placements (s : State) (a : Word) : (s.setPc a).placements = s.placements := rfl
@[simp] theorem setPc_queueTurn (s : State) (a : Word) : (s.setPc a).queueTurn = s.queueTurn := rfl
@[simp] theorem setPc_nextDom (s : State) (a : Word) : (s.setPc a).nextDom = s.nextDom := rfl
@[simp] theorem setPc_stk (s : State) (a : Word) : (s.setPc a).stk = s.stk := rfl
@[simp] theorem setPc_rows (s : State) (a : Word) : (s.setPc a).rows = s.rows := rfl
@[simp] theorem setPc_hints (s : State) (a : Word) : (s.setPc a).hints = s.hints := rfl
@[simp] theorem setPc_postponed (s : State) (a : Word) : (s.setPc a).postponed = s.postponed := rfl
@[simp] theorem setPc_asleep (s : State) (a : Word) : (s.setPc a).asleep = s.asleep := rfl
@[simp] theorem setPc_micro (s : State) (a : Word) : (s.setPc a).micro = s.micro := rfl
@[simp] theorem setPc_logs (s : State) (a : Word) : (s.setPc a).logs = s.logs := rfl
@[simp] theorem setPc_links (s : State) (a : Word) : (s.setPc a).links = s.links := rfl
@[simp] theorem setPc_tokens (s : State) (a : Word) : (s.setPc a).tokens = s.tokens := rfl
@[simp] theorem setPc_levels (s : State) (a : Word) : (s.setPc a).levels = s.levels := rfl
@[simp] theorem setPc_fibres (s : State) (a : Word) : (s.setPc a).fibres = s.fibres := rfl
@[simp] theorem setPc_dies (s : State) (a : Word) : (s.setPc a).dies = s.dies := rfl
@[simp] theorem setPc_images (s : State) (a : Word) : (s.setPc a).images = s.images := rfl
@[simp] theorem setPc_committed (s : State) (a : Word) : (s.setPc a).committed = s.committed := rfl
@[simp] theorem setPc_staged (s : State) (a : Word) : (s.setPc a).staged = s.staged := rfl
@[simp] theorem setPc_burnt (s : State) (a : Word) : (s.setPc a).burnt = s.burnt := rfl
@[simp] theorem setPc_regs (s : State) (a : Word) : (s.setPc a).regs = s.regs := rfl
@[simp] theorem setPc_msix (s : State) (a : Word) : (s.setPc a).msix = s.msix := rfl
@[simp] theorem setPc_msixTable (s : State) (a : Word) : (s.setPc a).msixTable = s.msixTable := rfl
@[simp] theorem setPc_hostReply (s : State) (a : Word) : (s.setPc a).hostReply = s.hostReply := rfl
@[simp] theorem setPc_era (s : State) (a : Word) : (s.setPc a).era = s.era := rfl
@[simp] theorem setPc_sessions (s : State) (a : Word) : (s.setPc a).sessions = s.sessions := rfl
@[simp] theorem setPc_traceQ (s : State) (a : Word) : (s.setPc a).traceQ = s.traceQ := rfl
@[simp] theorem setPc_guidesOut (s : State) (a : Word) : (s.setPc a).guidesOut = s.guidesOut := rfl
@[simp] theorem setPc_cellsOut (s : State) (a : Word) : (s.setPc a).cellsOut = s.cellsOut := rfl
@[simp] theorem setPc_repairs (s : State) (a : Word) : (s.setPc a).repairs = s.repairs := rfl
@[simp] theorem setPc_bankSpares (s : State) (a : Word) : (s.setPc a).bankSpares = s.bankSpares := rfl
@[simp] theorem setPc_seqSpares (s : State) (a : Word) : (s.setPc a).seqSpares = s.seqSpares := rfl
@[simp] theorem setPc_guideSpares (s : State) (a : Word) : (s.setPc a).guideSpares = s.guideSpares := rfl
@[simp] theorem setPc_front_status (s : State) (a : Word) : (s.setPc a).front.status = s.front.status := rfl
@[simp] theorem setPc_front_s (s : State) (a : Word) : (s.setPc a).front.s = s.front.s := rfl
@[simp] theorem setPc_front_w (s : State) (a : Word) : (s.setPc a).front.w = s.front.w := rfl
@[simp] theorem setPc_front_csr (s : State) (a : Word) : (s.setPc a).front.csr = s.front.csr := rfl
@[simp] theorem setPc_front_sid (s : State) (a : Word) : (s.setPc a).front.sid = s.front.sid := rfl
@[simp] theorem setPc_front_lidx (s : State) (a : Word) : (s.setPc a).front.lidx = s.front.lidx := rfl
@[simp] theorem setPc_front_lcnt (s : State) (a : Word) : (s.setPc a).front.lcnt = s.front.lcnt := rfl
@[simp] theorem setPc_front_cell (s : State) (a : Word) : (s.setPc a).front.cell = s.front.cell := rfl
@[simp] theorem setPc_front_seq (s : State) (a : Word) : (s.setPc a).front.seq = s.front.seq := rfl
@[simp] theorem setPc_front_domBase (s : State) (a : Word) : (s.setPc a).front.domBase = s.front.domBase := rfl
@[simp] theorem setPc_front_domLog (s : State) (a : Word) : (s.setPc a).front.domLog = s.front.domLog := rfl
@[simp] theorem setPc_front_plane (s : State) (a : Word) : (s.setPc a).front.plane = s.front.plane := rfl
@[simp] theorem setPc_front_pair (s : State) (a : Word) : (s.setPc a).front.pair = s.front.pair := rfl
@[simp] theorem setPc_front_domId (s : State) (a : Word) : (s.setPc a).front.domId = s.front.domId := rfl
@[simp] theorem setPc_front_maps (s : State) (a : Word) : (s.setPc a).front.maps = s.front.maps := rfl
@[simp] theorem setPc_front_grps (s : State) (a : Word) : (s.setPc a).front.grps = s.front.grps := rfl
@[simp] theorem setPc_front_launch (s : State) (a : Word) : (s.setPc a).front.launch = s.front.launch := rfl
@[simp] theorem setPc_front_asid (s : State) (a : Word) : (s.setPc a).front.asid = s.front.asid := rfl
@[simp] theorem setPc_front_root (s : State) (a : Word) : (s.setPc a).front.root = s.front.root := rfl
@[simp] theorem setPc_front_rclass (s : State) (a : Word) : (s.setPc a).front.rclass = s.front.rclass := rfl
@[simp] theorem setPc_front_simg (s : State) (a : Word) : (s.setPc a).front.simg = s.front.simg := rfl
@[simp] theorem setPc_front_pasid (s : State) (a : Word) : (s.setPc a).front.pasid = s.front.pasid := rfl
@[simp] theorem setPc_front_pen (s : State) (a : Word) : (s.setPc a).front.pen = s.front.pen := rfl
@[simp] theorem setPc_front_link (s : State) (a : Word) : (s.setPc a).front.link = s.front.link := rfl
@[simp] theorem setPc_front_logMode (s : State) (a : Word) : (s.setPc a).front.logMode = s.front.logMode := rfl
@[simp] theorem setPc_front_logId (s : State) (a : Word) : (s.setPc a).front.logId = s.front.logId := rfl
@[simp] theorem setPc_front_clock (s : State) (a : Word) : (s.setPc a).front.clock = s.front.clock := rfl
@[simp] theorem setPc_front_icache (s : State) (a : Word) : (s.setPc a).front.icache = s.front.icache := rfl
@[simp] theorem setPc_front_bcasts (s : State) (a : Word) : (s.setPc a).front.bcasts = s.front.bcasts := rfl
@[simp] theorem setPc_front_works (s : State) (a : Word) : (s.setPc a).front.works = s.front.works := rfl
@[simp] theorem setPc_front_pulls (s : State) (a : Word) : (s.setPc a).front.pulls = s.front.pulls := rfl
@[simp] theorem setPc_front_progress (s : State) (a : Word) : (s.setPc a).front.progress = s.front.progress := rfl
@[simp] theorem setPc_front_found (s : State) (a : Word) : (s.setPc a).front.found = s.front.found := rfl
@[simp] theorem setPc_front_queue (s : State) (a : Word) : (s.setPc a).front.queue = s.front.queue := rfl
@[simp] theorem setPc_front_heldFlags (s : State) (a : Word) : (s.setPc a).front.heldFlags = s.front.heldFlags := rfl
@[simp] theorem setPc_front_stopWin (s : State) (a : Word) : (s.setPc a).front.stopWin = s.front.stopWin := rfl
@[simp] theorem setPc_front_resumed (s : State) (a : Word) : (s.setPc a).front.resumed = s.front.resumed := rfl
@[simp] theorem setPc_front_exempt (s : State) (a : Word) : (s.setPc a).front.exempt = s.front.exempt := rfl
@[simp] theorem setPc_front_exemptAt (s : State) (a : Word) : (s.setPc a).front.exemptAt = s.front.exemptAt := rfl
@[simp] theorem setPc_front_issued (s : State) (a : Word) : (s.setPc a).front.issued = s.front.issued := rfl
@[simp] theorem setPc_front_ppre (s : State) (a : Word) : (s.setPc a).front.ppre = s.front.ppre := rfl
@[simp] theorem setPc_front_phost (s : State) (a : Word) : (s.setPc a).front.phost = s.front.phost := rfl
@[simp] theorem setPc_front_pwatch (s : State) (a : Word) : (s.setPc a).front.pwatch = s.front.pwatch := rfl
@[simp] theorem setPc_front_pdie (s : State) (a : Word) : (s.setPc a).front.pdie = s.front.pdie := rfl
@[simp] theorem setPc_front_byDevice (s : State) (a : Word) : (s.setPc a).front.byDevice = s.front.byDevice := rfl
@[simp] theorem setPc_front_preempt (s : State) (a : Word) : (s.setPc a).front.preempt = s.front.preempt := rfl
@[simp] theorem setPc_front_heldBack (s : State) (a : Word) : (s.setPc a).front.heldBack = s.front.heldBack := rfl
@[simp] theorem setPc_front_accesses (s : State) (a : Word) : (s.setPc a).front.accesses = s.front.accesses := rfl
@[simp] theorem setPc_front_cmds (s : State) (a : Word) : (s.setPc a).front.cmds = s.front.cmds := rfl
@[simp] theorem setPc_front_planes (s : State) (a : Word) : (s.setPc a).front.planes = s.front.planes := rfl
@[simp] theorem setPc_front_decls (s : State) (a : Word) : (s.setPc a).front.decls = s.front.decls := rfl
@[simp] theorem setPc_front_stalls (s : State) (a : Word) : (s.setPc a).front.stalls = s.front.stalls := rfl
@[simp] theorem setPc_front_heldToks (s : State) (a : Word) : (s.setPc a).front.heldToks = s.front.heldToks := rfl
@[simp] theorem setPc_front_charges (s : State) (a : Word) : (s.setPc a).front.charges = s.front.charges := rfl
@[simp] theorem setPc_front_halted (s : State) (a : Word) : (s.setPc a).front.halted = s.front.halted := rfl
@[simp] theorem setPc_front_haltPend (s : State) (a : Word) : (s.setPc a).front.haltPend = s.front.haltPend := rfl
@[simp] theorem setPc_front_dbg (s : State) (a : Word) : (s.setPc a).front.dbg = s.front.dbg := rfl
@[simp] theorem setPc_front_haltWin (s : State) (a : Word) : (s.setPc a).front.haltWin = s.front.haltWin := rfl
@[simp] theorem setPc_front_haltQueue (s : State) (a : Word) : (s.setPc a).front.haltQueue = s.front.haltQueue := rfl
@[simp] theorem setPc_front_waiting (s : State) (a : Word) : (s.setPc a).front.waiting = s.front.waiting := rfl
@[simp] theorem setPc_front_tlbOp (s : State) (a : Word) : (s.setPc a).front.tlbOp = s.front.tlbOp := rfl
@[simp] theorem setPc_front_olds (s : State) (a : Word) : (s.setPc a).front.olds = s.front.olds := rfl
@[simp] theorem setPc_front_waitObj (s : State) (a : Word) : (s.setPc a).front.waitObj = s.front.waitObj := rfl
@[simp] theorem setPc_front_atGroup (s : State) (a : Word) : (s.setPc a).front.atGroup = s.front.atGroup := rfl
@[simp] theorem setPc_front_joining (s : State) (a : Word) : (s.setPc a).front.joining = s.front.joining := rfl
@[simp] theorem setPc_front_retiring (s : State) (a : Word) : (s.setPc a).front.retiring = s.front.retiring := rfl
@[simp] theorem setPc_front_late (s : State) (a : Word) : (s.setPc a).front.late = s.front.late := rfl
@[simp] theorem setPc_front_strayed (s : State) (a : Word) : (s.setPc a).front.strayed = s.front.strayed := rfl
@[simp] theorem setPc_front_placedAt (s : State) (a : Word) : (s.setPc a).front.placedAt = s.front.placedAt := rfl
@[simp] theorem setPc_front_outAt (s : State) (a : Word) : (s.setPc a).front.outAt = s.front.outAt := rfl
@[simp] theorem setPc_front_horizon (s : State) (a : Word) : (s.setPc a).front.horizon = s.front.horizon := rfl
@[simp] theorem setPc_front_pc (s : State) (a : Word) : (s.setPc a).front.pc = a := rfl

@[simp] theorem mapCsr_fronts (s : State) (f : Csrs → Csrs) : (s.mapCsr f).fronts = s.fronts := rfl
@[simp] theorem mapCsr_inbox (s : State) (f : Csrs → Csrs) : (s.mapCsr f).inbox = s.inbox := rfl
@[simp] theorem mapCsr_pace (s : State) (f : Csrs → Csrs) : (s.mapCsr f).pace = s.pace := rfl
@[simp] theorem mapCsr_drawn (s : State) (f : Csrs → Csrs) : (s.mapCsr f).drawn = s.drawn := rfl
@[simp] theorem mapCsr_mem (s : State) (f : Csrs → Csrs) : (s.mapCsr f).mem = s.mem := rfl
@[simp] theorem mapCsr_pullAge (s : State) (f : Csrs → Csrs) : (s.mapCsr f).pullAge = s.pullAge := rfl
@[simp] theorem mapCsr_poison (s : State) (f : Csrs → Csrs) : (s.mapCsr f).poison = s.poison := rfl
@[simp] theorem mapCsr_shelves (s : State) (f : Csrs → Csrs) : (s.mapCsr f).shelves = s.shelves := rfl
@[simp] theorem mapCsr_residuals (s : State) (f : Csrs → Csrs) : (s.mapCsr f).residuals = s.residuals := rfl
@[simp] theorem mapCsr_msgs (s : State) (f : Csrs → Csrs) : (s.mapCsr f).msgs = s.msgs := rfl
@[simp] theorem mapCsr_homeQ (s : State) (f : Csrs → Csrs) : (s.mapCsr f).homeQ = s.homeQ := rfl
@[simp] theorem mapCsr_quotas (s : State) (f : Csrs → Csrs) : (s.mapCsr f).quotas = s.quotas := rfl
@[simp] theorem mapCsr_quotaAt (s : State) (f : Csrs → Csrs) : (s.mapCsr f).quotaAt = s.quotaAt := rfl
@[simp] theorem mapCsr_tags (s : State) (f : Csrs → Csrs) : (s.mapCsr f).tags = s.tags := rfl
@[simp] theorem mapCsr_tlb (s : State) (f : Csrs → Csrs) : (s.mapCsr f).tlb = s.tlb := rfl
@[simp] theorem mapCsr_migrating (s : State) (f : Csrs → Csrs) : (s.mapCsr f).migrating = s.migrating := rfl
@[simp] theorem mapCsr_slots (s : State) (f : Csrs → Csrs) : (s.mapCsr f).slots = s.slots := rfl
@[simp] theorem mapCsr_drowsy (s : State) (f : Csrs → Csrs) : (s.mapCsr f).drowsy = s.drowsy := rfl
@[simp] theorem mapCsr_groups (s : State) (f : Csrs → Csrs) : (s.mapCsr f).groups = s.groups := rfl
@[simp] theorem mapCsr_waiters (s : State) (f : Csrs → Csrs) : (s.mapCsr f).waiters = s.waiters := rfl
@[simp] theorem mapCsr_pushed (s : State) (f : Csrs → Csrs) : (s.mapCsr f).pushed = s.pushed := rfl
@[simp] theorem mapCsr_monitors (s : State) (f : Csrs → Csrs) : (s.mapCsr f).monitors = s.monitors := rfl
@[simp] theorem mapCsr_lqueues (s : State) (f : Csrs → Csrs) : (s.mapCsr f).lqueues = s.lqueues := rfl
@[simp] theorem mapCsr_launches (s : State) (f : Csrs → Csrs) : (s.mapCsr f).launches = s.launches := rfl
@[simp] theorem mapCsr_epoch (s : State) (f : Csrs → Csrs) : (s.mapCsr f).epoch = s.epoch := rfl
@[simp] theorem mapCsr_placements (s : State) (f : Csrs → Csrs) : (s.mapCsr f).placements = s.placements := rfl
@[simp] theorem mapCsr_queueTurn (s : State) (f : Csrs → Csrs) : (s.mapCsr f).queueTurn = s.queueTurn := rfl
@[simp] theorem mapCsr_nextDom (s : State) (f : Csrs → Csrs) : (s.mapCsr f).nextDom = s.nextDom := rfl
@[simp] theorem mapCsr_stk (s : State) (f : Csrs → Csrs) : (s.mapCsr f).stk = s.stk := rfl
@[simp] theorem mapCsr_rows (s : State) (f : Csrs → Csrs) : (s.mapCsr f).rows = s.rows := rfl
@[simp] theorem mapCsr_hints (s : State) (f : Csrs → Csrs) : (s.mapCsr f).hints = s.hints := rfl
@[simp] theorem mapCsr_postponed (s : State) (f : Csrs → Csrs) : (s.mapCsr f).postponed = s.postponed := rfl
@[simp] theorem mapCsr_asleep (s : State) (f : Csrs → Csrs) : (s.mapCsr f).asleep = s.asleep := rfl
@[simp] theorem mapCsr_micro (s : State) (f : Csrs → Csrs) : (s.mapCsr f).micro = s.micro := rfl
@[simp] theorem mapCsr_logs (s : State) (f : Csrs → Csrs) : (s.mapCsr f).logs = s.logs := rfl
@[simp] theorem mapCsr_links (s : State) (f : Csrs → Csrs) : (s.mapCsr f).links = s.links := rfl
@[simp] theorem mapCsr_tokens (s : State) (f : Csrs → Csrs) : (s.mapCsr f).tokens = s.tokens := rfl
@[simp] theorem mapCsr_levels (s : State) (f : Csrs → Csrs) : (s.mapCsr f).levels = s.levels := rfl
@[simp] theorem mapCsr_fibres (s : State) (f : Csrs → Csrs) : (s.mapCsr f).fibres = s.fibres := rfl
@[simp] theorem mapCsr_dies (s : State) (f : Csrs → Csrs) : (s.mapCsr f).dies = s.dies := rfl
@[simp] theorem mapCsr_images (s : State) (f : Csrs → Csrs) : (s.mapCsr f).images = s.images := rfl
@[simp] theorem mapCsr_committed (s : State) (f : Csrs → Csrs) : (s.mapCsr f).committed = s.committed := rfl
@[simp] theorem mapCsr_staged (s : State) (f : Csrs → Csrs) : (s.mapCsr f).staged = s.staged := rfl
@[simp] theorem mapCsr_burnt (s : State) (f : Csrs → Csrs) : (s.mapCsr f).burnt = s.burnt := rfl
@[simp] theorem mapCsr_regs (s : State) (f : Csrs → Csrs) : (s.mapCsr f).regs = s.regs := rfl
@[simp] theorem mapCsr_msix (s : State) (f : Csrs → Csrs) : (s.mapCsr f).msix = s.msix := rfl
@[simp] theorem mapCsr_msixTable (s : State) (f : Csrs → Csrs) : (s.mapCsr f).msixTable = s.msixTable := rfl
@[simp] theorem mapCsr_hostReply (s : State) (f : Csrs → Csrs) : (s.mapCsr f).hostReply = s.hostReply := rfl
@[simp] theorem mapCsr_era (s : State) (f : Csrs → Csrs) : (s.mapCsr f).era = s.era := rfl
@[simp] theorem mapCsr_sessions (s : State) (f : Csrs → Csrs) : (s.mapCsr f).sessions = s.sessions := rfl
@[simp] theorem mapCsr_traceQ (s : State) (f : Csrs → Csrs) : (s.mapCsr f).traceQ = s.traceQ := rfl
@[simp] theorem mapCsr_guidesOut (s : State) (f : Csrs → Csrs) : (s.mapCsr f).guidesOut = s.guidesOut := rfl
@[simp] theorem mapCsr_cellsOut (s : State) (f : Csrs → Csrs) : (s.mapCsr f).cellsOut = s.cellsOut := rfl
@[simp] theorem mapCsr_repairs (s : State) (f : Csrs → Csrs) : (s.mapCsr f).repairs = s.repairs := rfl
@[simp] theorem mapCsr_bankSpares (s : State) (f : Csrs → Csrs) : (s.mapCsr f).bankSpares = s.bankSpares := rfl
@[simp] theorem mapCsr_seqSpares (s : State) (f : Csrs → Csrs) : (s.mapCsr f).seqSpares = s.seqSpares := rfl
@[simp] theorem mapCsr_guideSpares (s : State) (f : Csrs → Csrs) : (s.mapCsr f).guideSpares = s.guideSpares := rfl
@[simp] theorem mapCsr_front_status (s : State) (f : Csrs → Csrs) : (s.mapCsr f).front.status = s.front.status := rfl
@[simp] theorem mapCsr_front_s (s : State) (f : Csrs → Csrs) : (s.mapCsr f).front.s = s.front.s := rfl
@[simp] theorem mapCsr_front_w (s : State) (f : Csrs → Csrs) : (s.mapCsr f).front.w = s.front.w := rfl
@[simp] theorem mapCsr_front_pc (s : State) (f : Csrs → Csrs) : (s.mapCsr f).front.pc = s.front.pc := rfl
@[simp] theorem mapCsr_front_sid (s : State) (f : Csrs → Csrs) : (s.mapCsr f).front.sid = s.front.sid := rfl
@[simp] theorem mapCsr_front_lidx (s : State) (f : Csrs → Csrs) : (s.mapCsr f).front.lidx = s.front.lidx := rfl
@[simp] theorem mapCsr_front_lcnt (s : State) (f : Csrs → Csrs) : (s.mapCsr f).front.lcnt = s.front.lcnt := rfl
@[simp] theorem mapCsr_front_cell (s : State) (f : Csrs → Csrs) : (s.mapCsr f).front.cell = s.front.cell := rfl
@[simp] theorem mapCsr_front_seq (s : State) (f : Csrs → Csrs) : (s.mapCsr f).front.seq = s.front.seq := rfl
@[simp] theorem mapCsr_front_domBase (s : State) (f : Csrs → Csrs) : (s.mapCsr f).front.domBase = s.front.domBase := rfl
@[simp] theorem mapCsr_front_domLog (s : State) (f : Csrs → Csrs) : (s.mapCsr f).front.domLog = s.front.domLog := rfl
@[simp] theorem mapCsr_front_plane (s : State) (f : Csrs → Csrs) : (s.mapCsr f).front.plane = s.front.plane := rfl
@[simp] theorem mapCsr_front_pair (s : State) (f : Csrs → Csrs) : (s.mapCsr f).front.pair = s.front.pair := rfl
@[simp] theorem mapCsr_front_domId (s : State) (f : Csrs → Csrs) : (s.mapCsr f).front.domId = s.front.domId := rfl
@[simp] theorem mapCsr_front_maps (s : State) (f : Csrs → Csrs) : (s.mapCsr f).front.maps = s.front.maps := rfl
@[simp] theorem mapCsr_front_grps (s : State) (f : Csrs → Csrs) : (s.mapCsr f).front.grps = s.front.grps := rfl
@[simp] theorem mapCsr_front_launch (s : State) (f : Csrs → Csrs) : (s.mapCsr f).front.launch = s.front.launch := rfl
@[simp] theorem mapCsr_front_asid (s : State) (f : Csrs → Csrs) : (s.mapCsr f).front.asid = s.front.asid := rfl
@[simp] theorem mapCsr_front_root (s : State) (f : Csrs → Csrs) : (s.mapCsr f).front.root = s.front.root := rfl
@[simp] theorem mapCsr_front_rclass (s : State) (f : Csrs → Csrs) : (s.mapCsr f).front.rclass = s.front.rclass := rfl
@[simp] theorem mapCsr_front_simg (s : State) (f : Csrs → Csrs) : (s.mapCsr f).front.simg = s.front.simg := rfl
@[simp] theorem mapCsr_front_pasid (s : State) (f : Csrs → Csrs) : (s.mapCsr f).front.pasid = s.front.pasid := rfl
@[simp] theorem mapCsr_front_pen (s : State) (f : Csrs → Csrs) : (s.mapCsr f).front.pen = s.front.pen := rfl
@[simp] theorem mapCsr_front_link (s : State) (f : Csrs → Csrs) : (s.mapCsr f).front.link = s.front.link := rfl
@[simp] theorem mapCsr_front_logMode (s : State) (f : Csrs → Csrs) : (s.mapCsr f).front.logMode = s.front.logMode := rfl
@[simp] theorem mapCsr_front_logId (s : State) (f : Csrs → Csrs) : (s.mapCsr f).front.logId = s.front.logId := rfl
@[simp] theorem mapCsr_front_clock (s : State) (f : Csrs → Csrs) : (s.mapCsr f).front.clock = s.front.clock := rfl
@[simp] theorem mapCsr_front_icache (s : State) (f : Csrs → Csrs) : (s.mapCsr f).front.icache = s.front.icache := rfl
@[simp] theorem mapCsr_front_bcasts (s : State) (f : Csrs → Csrs) : (s.mapCsr f).front.bcasts = s.front.bcasts := rfl
@[simp] theorem mapCsr_front_works (s : State) (f : Csrs → Csrs) : (s.mapCsr f).front.works = s.front.works := rfl
@[simp] theorem mapCsr_front_pulls (s : State) (f : Csrs → Csrs) : (s.mapCsr f).front.pulls = s.front.pulls := rfl
@[simp] theorem mapCsr_front_progress (s : State) (f : Csrs → Csrs) : (s.mapCsr f).front.progress = s.front.progress := rfl
@[simp] theorem mapCsr_front_found (s : State) (f : Csrs → Csrs) : (s.mapCsr f).front.found = s.front.found := rfl
@[simp] theorem mapCsr_front_queue (s : State) (f : Csrs → Csrs) : (s.mapCsr f).front.queue = s.front.queue := rfl
@[simp] theorem mapCsr_front_heldFlags (s : State) (f : Csrs → Csrs) : (s.mapCsr f).front.heldFlags = s.front.heldFlags := rfl
@[simp] theorem mapCsr_front_stopWin (s : State) (f : Csrs → Csrs) : (s.mapCsr f).front.stopWin = s.front.stopWin := rfl
@[simp] theorem mapCsr_front_resumed (s : State) (f : Csrs → Csrs) : (s.mapCsr f).front.resumed = s.front.resumed := rfl
@[simp] theorem mapCsr_front_exempt (s : State) (f : Csrs → Csrs) : (s.mapCsr f).front.exempt = s.front.exempt := rfl
@[simp] theorem mapCsr_front_exemptAt (s : State) (f : Csrs → Csrs) : (s.mapCsr f).front.exemptAt = s.front.exemptAt := rfl
@[simp] theorem mapCsr_front_issued (s : State) (f : Csrs → Csrs) : (s.mapCsr f).front.issued = s.front.issued := rfl
@[simp] theorem mapCsr_front_ppre (s : State) (f : Csrs → Csrs) : (s.mapCsr f).front.ppre = s.front.ppre := rfl
@[simp] theorem mapCsr_front_phost (s : State) (f : Csrs → Csrs) : (s.mapCsr f).front.phost = s.front.phost := rfl
@[simp] theorem mapCsr_front_pwatch (s : State) (f : Csrs → Csrs) : (s.mapCsr f).front.pwatch = s.front.pwatch := rfl
@[simp] theorem mapCsr_front_pdie (s : State) (f : Csrs → Csrs) : (s.mapCsr f).front.pdie = s.front.pdie := rfl
@[simp] theorem mapCsr_front_byDevice (s : State) (f : Csrs → Csrs) : (s.mapCsr f).front.byDevice = s.front.byDevice := rfl
@[simp] theorem mapCsr_front_preempt (s : State) (f : Csrs → Csrs) : (s.mapCsr f).front.preempt = s.front.preempt := rfl
@[simp] theorem mapCsr_front_heldBack (s : State) (f : Csrs → Csrs) : (s.mapCsr f).front.heldBack = s.front.heldBack := rfl
@[simp] theorem mapCsr_front_accesses (s : State) (f : Csrs → Csrs) : (s.mapCsr f).front.accesses = s.front.accesses := rfl
@[simp] theorem mapCsr_front_cmds (s : State) (f : Csrs → Csrs) : (s.mapCsr f).front.cmds = s.front.cmds := rfl
@[simp] theorem mapCsr_front_planes (s : State) (f : Csrs → Csrs) : (s.mapCsr f).front.planes = s.front.planes := rfl
@[simp] theorem mapCsr_front_decls (s : State) (f : Csrs → Csrs) : (s.mapCsr f).front.decls = s.front.decls := rfl
@[simp] theorem mapCsr_front_stalls (s : State) (f : Csrs → Csrs) : (s.mapCsr f).front.stalls = s.front.stalls := rfl
@[simp] theorem mapCsr_front_heldToks (s : State) (f : Csrs → Csrs) : (s.mapCsr f).front.heldToks = s.front.heldToks := rfl
@[simp] theorem mapCsr_front_charges (s : State) (f : Csrs → Csrs) : (s.mapCsr f).front.charges = s.front.charges := rfl
@[simp] theorem mapCsr_front_halted (s : State) (f : Csrs → Csrs) : (s.mapCsr f).front.halted = s.front.halted := rfl
@[simp] theorem mapCsr_front_haltPend (s : State) (f : Csrs → Csrs) : (s.mapCsr f).front.haltPend = s.front.haltPend := rfl
@[simp] theorem mapCsr_front_dbg (s : State) (f : Csrs → Csrs) : (s.mapCsr f).front.dbg = s.front.dbg := rfl
@[simp] theorem mapCsr_front_haltWin (s : State) (f : Csrs → Csrs) : (s.mapCsr f).front.haltWin = s.front.haltWin := rfl
@[simp] theorem mapCsr_front_haltQueue (s : State) (f : Csrs → Csrs) : (s.mapCsr f).front.haltQueue = s.front.haltQueue := rfl
@[simp] theorem mapCsr_front_waiting (s : State) (f : Csrs → Csrs) : (s.mapCsr f).front.waiting = s.front.waiting := rfl
@[simp] theorem mapCsr_front_tlbOp (s : State) (f : Csrs → Csrs) : (s.mapCsr f).front.tlbOp = s.front.tlbOp := rfl
@[simp] theorem mapCsr_front_olds (s : State) (f : Csrs → Csrs) : (s.mapCsr f).front.olds = s.front.olds := rfl
@[simp] theorem mapCsr_front_waitObj (s : State) (f : Csrs → Csrs) : (s.mapCsr f).front.waitObj = s.front.waitObj := rfl
@[simp] theorem mapCsr_front_atGroup (s : State) (f : Csrs → Csrs) : (s.mapCsr f).front.atGroup = s.front.atGroup := rfl
@[simp] theorem mapCsr_front_joining (s : State) (f : Csrs → Csrs) : (s.mapCsr f).front.joining = s.front.joining := rfl
@[simp] theorem mapCsr_front_retiring (s : State) (f : Csrs → Csrs) : (s.mapCsr f).front.retiring = s.front.retiring := rfl
@[simp] theorem mapCsr_front_late (s : State) (f : Csrs → Csrs) : (s.mapCsr f).front.late = s.front.late := rfl
@[simp] theorem mapCsr_front_strayed (s : State) (f : Csrs → Csrs) : (s.mapCsr f).front.strayed = s.front.strayed := rfl
@[simp] theorem mapCsr_front_placedAt (s : State) (f : Csrs → Csrs) : (s.mapCsr f).front.placedAt = s.front.placedAt := rfl
@[simp] theorem mapCsr_front_outAt (s : State) (f : Csrs → Csrs) : (s.mapCsr f).front.outAt = s.front.outAt := rfl
@[simp] theorem mapCsr_front_horizon (s : State) (f : Csrs → Csrs) : (s.mapCsr f).front.horizon = s.front.horizon := rfl
@[simp] theorem mapCsr_front_csr (s : State) (f : Csrs → Csrs) : (s.mapCsr f).front.csr = f s.front.csr := rfl

@[simp] theorem goto_fronts (s : State) (a : Word) : (s.goto a).fronts = s.fronts := rfl
@[simp] theorem goto_inbox (s : State) (a : Word) : (s.goto a).inbox = s.inbox := rfl
@[simp] theorem goto_pace (s : State) (a : Word) : (s.goto a).pace = s.pace := rfl
@[simp] theorem goto_drawn (s : State) (a : Word) : (s.goto a).drawn = s.drawn := rfl
@[simp] theorem goto_mem (s : State) (a : Word) : (s.goto a).mem = s.mem := rfl
@[simp] theorem goto_pullAge (s : State) (a : Word) : (s.goto a).pullAge = s.pullAge := rfl
@[simp] theorem goto_poison (s : State) (a : Word) : (s.goto a).poison = s.poison := rfl
@[simp] theorem goto_shelves (s : State) (a : Word) : (s.goto a).shelves = s.shelves := rfl
@[simp] theorem goto_residuals (s : State) (a : Word) : (s.goto a).residuals = s.residuals := rfl
@[simp] theorem goto_msgs (s : State) (a : Word) : (s.goto a).msgs = s.msgs := rfl
@[simp] theorem goto_homeQ (s : State) (a : Word) : (s.goto a).homeQ = s.homeQ := rfl
@[simp] theorem goto_quotas (s : State) (a : Word) : (s.goto a).quotas = s.quotas := rfl
@[simp] theorem goto_quotaAt (s : State) (a : Word) : (s.goto a).quotaAt = s.quotaAt := rfl
@[simp] theorem goto_tags (s : State) (a : Word) : (s.goto a).tags = s.tags := rfl
@[simp] theorem goto_tlb (s : State) (a : Word) : (s.goto a).tlb = s.tlb := rfl
@[simp] theorem goto_migrating (s : State) (a : Word) : (s.goto a).migrating = s.migrating := rfl
@[simp] theorem goto_slots (s : State) (a : Word) : (s.goto a).slots = s.slots := rfl
@[simp] theorem goto_drowsy (s : State) (a : Word) : (s.goto a).drowsy = s.drowsy := rfl
@[simp] theorem goto_groups (s : State) (a : Word) : (s.goto a).groups = s.groups := rfl
@[simp] theorem goto_waiters (s : State) (a : Word) : (s.goto a).waiters = s.waiters := rfl
@[simp] theorem goto_pushed (s : State) (a : Word) : (s.goto a).pushed = s.pushed := rfl
@[simp] theorem goto_monitors (s : State) (a : Word) : (s.goto a).monitors = s.monitors := rfl
@[simp] theorem goto_lqueues (s : State) (a : Word) : (s.goto a).lqueues = s.lqueues := rfl
@[simp] theorem goto_launches (s : State) (a : Word) : (s.goto a).launches = s.launches := rfl
@[simp] theorem goto_epoch (s : State) (a : Word) : (s.goto a).epoch = s.epoch := rfl
@[simp] theorem goto_placements (s : State) (a : Word) : (s.goto a).placements = s.placements := rfl
@[simp] theorem goto_queueTurn (s : State) (a : Word) : (s.goto a).queueTurn = s.queueTurn := rfl
@[simp] theorem goto_nextDom (s : State) (a : Word) : (s.goto a).nextDom = s.nextDom := rfl
@[simp] theorem goto_stk (s : State) (a : Word) : (s.goto a).stk = s.stk := rfl
@[simp] theorem goto_rows (s : State) (a : Word) : (s.goto a).rows = s.rows := rfl
@[simp] theorem goto_hints (s : State) (a : Word) : (s.goto a).hints = s.hints := rfl
@[simp] theorem goto_postponed (s : State) (a : Word) : (s.goto a).postponed = s.postponed := rfl
@[simp] theorem goto_asleep (s : State) (a : Word) : (s.goto a).asleep = s.asleep := rfl
@[simp] theorem goto_micro (s : State) (a : Word) : (s.goto a).micro = s.micro := rfl
@[simp] theorem goto_logs (s : State) (a : Word) : (s.goto a).logs = s.logs := rfl
@[simp] theorem goto_links (s : State) (a : Word) : (s.goto a).links = s.links := rfl
@[simp] theorem goto_tokens (s : State) (a : Word) : (s.goto a).tokens = s.tokens := rfl
@[simp] theorem goto_levels (s : State) (a : Word) : (s.goto a).levels = s.levels := rfl
@[simp] theorem goto_fibres (s : State) (a : Word) : (s.goto a).fibres = s.fibres := rfl
@[simp] theorem goto_dies (s : State) (a : Word) : (s.goto a).dies = s.dies := rfl
@[simp] theorem goto_images (s : State) (a : Word) : (s.goto a).images = s.images := rfl
@[simp] theorem goto_committed (s : State) (a : Word) : (s.goto a).committed = s.committed := rfl
@[simp] theorem goto_staged (s : State) (a : Word) : (s.goto a).staged = s.staged := rfl
@[simp] theorem goto_burnt (s : State) (a : Word) : (s.goto a).burnt = s.burnt := rfl
@[simp] theorem goto_regs (s : State) (a : Word) : (s.goto a).regs = s.regs := rfl
@[simp] theorem goto_msix (s : State) (a : Word) : (s.goto a).msix = s.msix := rfl
@[simp] theorem goto_msixTable (s : State) (a : Word) : (s.goto a).msixTable = s.msixTable := rfl
@[simp] theorem goto_hostReply (s : State) (a : Word) : (s.goto a).hostReply = s.hostReply := rfl
@[simp] theorem goto_era (s : State) (a : Word) : (s.goto a).era = s.era := rfl
@[simp] theorem goto_sessions (s : State) (a : Word) : (s.goto a).sessions = s.sessions := rfl
@[simp] theorem goto_traceQ (s : State) (a : Word) : (s.goto a).traceQ = s.traceQ := rfl
@[simp] theorem goto_guidesOut (s : State) (a : Word) : (s.goto a).guidesOut = s.guidesOut := rfl
@[simp] theorem goto_cellsOut (s : State) (a : Word) : (s.goto a).cellsOut = s.cellsOut := rfl
@[simp] theorem goto_repairs (s : State) (a : Word) : (s.goto a).repairs = s.repairs := rfl
@[simp] theorem goto_bankSpares (s : State) (a : Word) : (s.goto a).bankSpares = s.bankSpares := rfl
@[simp] theorem goto_seqSpares (s : State) (a : Word) : (s.goto a).seqSpares = s.seqSpares := rfl
@[simp] theorem goto_guideSpares (s : State) (a : Word) : (s.goto a).guideSpares = s.guideSpares := rfl
@[simp] theorem goto_front_status (s : State) (a : Word) : (s.goto a).front.status = s.front.status := rfl
@[simp] theorem goto_front_s (s : State) (a : Word) : (s.goto a).front.s = s.front.s := rfl
@[simp] theorem goto_front_w (s : State) (a : Word) : (s.goto a).front.w = s.front.w := rfl
@[simp] theorem goto_front_csr (s : State) (a : Word) : (s.goto a).front.csr = s.front.csr := rfl
@[simp] theorem goto_front_sid (s : State) (a : Word) : (s.goto a).front.sid = s.front.sid := rfl
@[simp] theorem goto_front_lidx (s : State) (a : Word) : (s.goto a).front.lidx = s.front.lidx := rfl
@[simp] theorem goto_front_lcnt (s : State) (a : Word) : (s.goto a).front.lcnt = s.front.lcnt := rfl
@[simp] theorem goto_front_cell (s : State) (a : Word) : (s.goto a).front.cell = s.front.cell := rfl
@[simp] theorem goto_front_seq (s : State) (a : Word) : (s.goto a).front.seq = s.front.seq := rfl
@[simp] theorem goto_front_domBase (s : State) (a : Word) : (s.goto a).front.domBase = s.front.domBase := rfl
@[simp] theorem goto_front_domLog (s : State) (a : Word) : (s.goto a).front.domLog = s.front.domLog := rfl
@[simp] theorem goto_front_plane (s : State) (a : Word) : (s.goto a).front.plane = s.front.plane := rfl
@[simp] theorem goto_front_pair (s : State) (a : Word) : (s.goto a).front.pair = s.front.pair := rfl
@[simp] theorem goto_front_domId (s : State) (a : Word) : (s.goto a).front.domId = s.front.domId := rfl
@[simp] theorem goto_front_maps (s : State) (a : Word) : (s.goto a).front.maps = s.front.maps := rfl
@[simp] theorem goto_front_grps (s : State) (a : Word) : (s.goto a).front.grps = s.front.grps := rfl
@[simp] theorem goto_front_launch (s : State) (a : Word) : (s.goto a).front.launch = s.front.launch := rfl
@[simp] theorem goto_front_asid (s : State) (a : Word) : (s.goto a).front.asid = s.front.asid := rfl
@[simp] theorem goto_front_root (s : State) (a : Word) : (s.goto a).front.root = s.front.root := rfl
@[simp] theorem goto_front_rclass (s : State) (a : Word) : (s.goto a).front.rclass = s.front.rclass := rfl
@[simp] theorem goto_front_simg (s : State) (a : Word) : (s.goto a).front.simg = s.front.simg := rfl
@[simp] theorem goto_front_pasid (s : State) (a : Word) : (s.goto a).front.pasid = s.front.pasid := rfl
@[simp] theorem goto_front_pen (s : State) (a : Word) : (s.goto a).front.pen = s.front.pen := rfl
@[simp] theorem goto_front_link (s : State) (a : Word) : (s.goto a).front.link = s.front.link := rfl
@[simp] theorem goto_front_logMode (s : State) (a : Word) : (s.goto a).front.logMode = s.front.logMode := rfl
@[simp] theorem goto_front_logId (s : State) (a : Word) : (s.goto a).front.logId = s.front.logId := rfl
@[simp] theorem goto_front_clock (s : State) (a : Word) : (s.goto a).front.clock = s.front.clock := rfl
@[simp] theorem goto_front_icache (s : State) (a : Word) : (s.goto a).front.icache = s.front.icache := rfl
@[simp] theorem goto_front_bcasts (s : State) (a : Word) : (s.goto a).front.bcasts = s.front.bcasts := rfl
@[simp] theorem goto_front_works (s : State) (a : Word) : (s.goto a).front.works = s.front.works := rfl
@[simp] theorem goto_front_pulls (s : State) (a : Word) : (s.goto a).front.pulls = s.front.pulls := rfl
@[simp] theorem goto_front_progress (s : State) (a : Word) : (s.goto a).front.progress = s.front.progress := rfl
@[simp] theorem goto_front_found (s : State) (a : Word) : (s.goto a).front.found = s.front.found := rfl
@[simp] theorem goto_front_queue (s : State) (a : Word) : (s.goto a).front.queue = s.front.queue := rfl
@[simp] theorem goto_front_heldFlags (s : State) (a : Word) : (s.goto a).front.heldFlags = s.front.heldFlags := rfl
@[simp] theorem goto_front_stopWin (s : State) (a : Word) : (s.goto a).front.stopWin = s.front.stopWin := rfl
@[simp] theorem goto_front_resumed (s : State) (a : Word) : (s.goto a).front.resumed = s.front.resumed := rfl
@[simp] theorem goto_front_exemptAt (s : State) (a : Word) : (s.goto a).front.exemptAt = s.front.exemptAt := rfl
@[simp] theorem goto_front_ppre (s : State) (a : Word) : (s.goto a).front.ppre = s.front.ppre := rfl
@[simp] theorem goto_front_phost (s : State) (a : Word) : (s.goto a).front.phost = s.front.phost := rfl
@[simp] theorem goto_front_pwatch (s : State) (a : Word) : (s.goto a).front.pwatch = s.front.pwatch := rfl
@[simp] theorem goto_front_pdie (s : State) (a : Word) : (s.goto a).front.pdie = s.front.pdie := rfl
@[simp] theorem goto_front_byDevice (s : State) (a : Word) : (s.goto a).front.byDevice = s.front.byDevice := rfl
@[simp] theorem goto_front_preempt (s : State) (a : Word) : (s.goto a).front.preempt = s.front.preempt := rfl
@[simp] theorem goto_front_heldBack (s : State) (a : Word) : (s.goto a).front.heldBack = s.front.heldBack := rfl
@[simp] theorem goto_front_accesses (s : State) (a : Word) : (s.goto a).front.accesses = s.front.accesses := rfl
@[simp] theorem goto_front_cmds (s : State) (a : Word) : (s.goto a).front.cmds = s.front.cmds := rfl
@[simp] theorem goto_front_planes (s : State) (a : Word) : (s.goto a).front.planes = s.front.planes := rfl
@[simp] theorem goto_front_decls (s : State) (a : Word) : (s.goto a).front.decls = s.front.decls := rfl
@[simp] theorem goto_front_stalls (s : State) (a : Word) : (s.goto a).front.stalls = s.front.stalls := rfl
@[simp] theorem goto_front_heldToks (s : State) (a : Word) : (s.goto a).front.heldToks = s.front.heldToks := rfl
@[simp] theorem goto_front_charges (s : State) (a : Word) : (s.goto a).front.charges = s.front.charges := rfl
@[simp] theorem goto_front_halted (s : State) (a : Word) : (s.goto a).front.halted = s.front.halted := rfl
@[simp] theorem goto_front_haltPend (s : State) (a : Word) : (s.goto a).front.haltPend = s.front.haltPend := rfl
@[simp] theorem goto_front_haltWin (s : State) (a : Word) : (s.goto a).front.haltWin = s.front.haltWin := rfl
@[simp] theorem goto_front_haltQueue (s : State) (a : Word) : (s.goto a).front.haltQueue = s.front.haltQueue := rfl
@[simp] theorem goto_front_olds (s : State) (a : Word) : (s.goto a).front.olds = s.front.olds := rfl
@[simp] theorem goto_front_joining (s : State) (a : Word) : (s.goto a).front.joining = s.front.joining := rfl
@[simp] theorem goto_front_retiring (s : State) (a : Word) : (s.goto a).front.retiring = s.front.retiring := rfl
@[simp] theorem goto_front_late (s : State) (a : Word) : (s.goto a).front.late = s.front.late := rfl
@[simp] theorem goto_front_strayed (s : State) (a : Word) : (s.goto a).front.strayed = s.front.strayed := rfl
@[simp] theorem goto_front_placedAt (s : State) (a : Word) : (s.goto a).front.placedAt = s.front.placedAt := rfl
@[simp] theorem goto_front_outAt (s : State) (a : Word) : (s.goto a).front.outAt = s.front.outAt := rfl
@[simp] theorem goto_front_horizon (s : State) (a : Word) : (s.goto a).front.horizon = s.front.horizon := rfl
@[simp] theorem goto_front_pc (s : State) (a : Word) : (s.goto a).front.pc = a := rfl
@[simp] theorem goto_front_issued (s : State) (a : Word) : (s.goto a).front.issued = s.front.issued + 1 := rfl
@[simp] theorem goto_front_exempt (s : State) (a : Word) : (s.goto a).front.exempt = false := rfl
@[simp] theorem goto_front_waiting (s : State) (a : Word) : (s.goto a).front.waiting = false := rfl
@[simp] theorem goto_front_waitObj (s : State) (a : Word) : (s.goto a).front.waitObj = none := rfl
@[simp] theorem goto_front_tlbOp (s : State) (a : Word) : (s.goto a).front.tlbOp = .none := rfl
@[simp] theorem goto_front_atGroup (s : State) (a : Word) : (s.goto a).front.atGroup = none := rfl
@[simp] theorem goto_front_dbg (s : State) (a : Word) : (s.goto a).front.dbg = landAt s.front.dbg s.floor := rfl

theorem done_eq (s : State) : s.done = s.goto (s.front.pc + 8) := rfl
theorem orFlags_eq (s : State) (f : BitVec 6) : s.orFlags f = s.mapCsr (fun c => { c with fflags := c.fflags ||| f }) := rfl

/-- A vector with one entry set, read at any. -/
theorem get_set {α : Type} {n : Nat} (v : Vector α n) (i : Nat) (h : i < n) (x : α) (j : Fin n) :
    (v.set i x h).get j = if j.val = i then x else v.get j := by
  rw [Vector.get_eq_getElem, Vector.getElem_set, Vector.get_eq_getElem]
  by_cases e : i = j.val <;> simp [e, eq_comm]

/-- A register write is read back at its register alone, and s0 reads as zero (R132). -/
@[simp] theorem rd_wr (s : State) (r x : SReg) (v : Word) : (s.wr r v).rd x = if x = r ∧ x ≠ 0 then v else s.rd x := by
  unfold State.wr State.rd
  by_cases hx : x = 0
  · simp [hx]
  · by_cases hr : r = 0
    · subst hr; simp
    · simp only [hr, hx, ite_false, get_set, ne_eq, not_false_eq_true, and_true]
      exact if_congr ⟨fun e => BitVec.eq_of_toNat_eq e, fun e => e ▸ rfl⟩ rfl rfl

@[simp] theorem rd_zero (s : State) : s.rd 0 = 0 := by simp [State.rd]

/-- A window write is read back at its window alone. -/
@[simp] theorem rdW_wrW (s : State) (w x : WReg) (d : Desc) : (s.wrW w d).rdW x = if x = w then d else s.rdW x := by
  unfold State.wrW State.rdW
  rw [get_set]
  exact if_congr ⟨fun e => BitVec.eq_of_toNat_eq e, fun e => e ▸ rfl⟩ rfl rfl

@[simp] theorem rdW_wr (s : State) (r : SReg) (v : Word) (w : WReg) : (s.wr r v).rdW w = s.rdW w := by simp [State.rdW]
@[simp] theorem rd_wrW (s : State) (w : WReg) (d : Desc) (r : SReg) : (s.wrW w d).rd r = s.rd r := rfl
@[simp] theorem rd_goto (s : State) (a : Word) (r : SReg) : (s.goto a).rd r = s.rd r := rfl
@[simp] theorem rdW_goto (s : State) (a : Word) (w : WReg) : (s.goto a).rdW w = s.rdW w := rfl
@[simp] theorem rd_mapCsr (s : State) (f : Csrs → Csrs) (r : SReg) : (s.mapCsr f).rd r = s.rd r := rfl
@[simp] theorem rdW_mapCsr (s : State) (f : Csrs → Csrs) (w : WReg) : (s.mapCsr f).rdW w = s.rdW w := rfl

/-! ### Memory and devices -/

@[simp] theorem notedIn_front (s : State) (p : Key → Bool) : (s.notedIn p).front = s.front := by unfold State.notedIn; split <;> rfl
@[simp] theorem notedIn_fronts (s : State) (p : Key → Bool) : (s.notedIn p).fronts = s.fronts := by unfold State.notedIn; split <;> rfl
@[simp] theorem notedIn_inbox (s : State) (p : Key → Bool) : (s.notedIn p).inbox = s.inbox := by unfold State.notedIn; split <;> rfl
@[simp] theorem notedIn_pace (s : State) (p : Key → Bool) : (s.notedIn p).pace = s.pace := by unfold State.notedIn; split <;> rfl
@[simp] theorem notedIn_drawn (s : State) (p : Key → Bool) : (s.notedIn p).drawn = s.drawn := by unfold State.notedIn; split <;> rfl
@[simp] theorem notedIn_mem (s : State) (p : Key → Bool) : (s.notedIn p).mem = s.mem := by unfold State.notedIn; split <;> rfl
@[simp] theorem notedIn_pullAge (s : State) (p : Key → Bool) : (s.notedIn p).pullAge = s.pullAge := by unfold State.notedIn; split <;> rfl
@[simp] theorem notedIn_poison (s : State) (p : Key → Bool) : (s.notedIn p).poison = s.poison := by unfold State.notedIn; split <;> rfl
@[simp] theorem notedIn_shelves (s : State) (p : Key → Bool) : (s.notedIn p).shelves = s.shelves := by unfold State.notedIn; split <;> rfl
@[simp] theorem notedIn_residuals (s : State) (p : Key → Bool) : (s.notedIn p).residuals = s.residuals := by unfold State.notedIn; split <;> rfl
@[simp] theorem notedIn_msgs (s : State) (p : Key → Bool) : (s.notedIn p).msgs = s.msgs := by unfold State.notedIn; split <;> rfl
@[simp] theorem notedIn_homeQ (s : State) (p : Key → Bool) : (s.notedIn p).homeQ = s.homeQ := by unfold State.notedIn; split <;> rfl
@[simp] theorem notedIn_quotas (s : State) (p : Key → Bool) : (s.notedIn p).quotas = s.quotas := by unfold State.notedIn; split <;> rfl
@[simp] theorem notedIn_quotaAt (s : State) (p : Key → Bool) : (s.notedIn p).quotaAt = s.quotaAt := by unfold State.notedIn; split <;> rfl
@[simp] theorem notedIn_tags (s : State) (p : Key → Bool) : (s.notedIn p).tags = s.tags := by unfold State.notedIn; split <;> rfl
@[simp] theorem notedIn_tlb (s : State) (p : Key → Bool) : (s.notedIn p).tlb = s.tlb := by unfold State.notedIn; split <;> rfl
@[simp] theorem notedIn_migrating (s : State) (p : Key → Bool) : (s.notedIn p).migrating = s.migrating := by unfold State.notedIn; split <;> rfl
@[simp] theorem notedIn_slots (s : State) (p : Key → Bool) : (s.notedIn p).slots = s.slots := by unfold State.notedIn; split <;> rfl
@[simp] theorem notedIn_drowsy (s : State) (p : Key → Bool) : (s.notedIn p).drowsy = s.drowsy := by unfold State.notedIn; split <;> rfl
@[simp] theorem notedIn_groups (s : State) (p : Key → Bool) : (s.notedIn p).groups = s.groups := by unfold State.notedIn; split <;> rfl
@[simp] theorem notedIn_waiters (s : State) (p : Key → Bool) : (s.notedIn p).waiters = s.waiters := by unfold State.notedIn; split <;> rfl
@[simp] theorem notedIn_pushed (s : State) (p : Key → Bool) : (s.notedIn p).pushed = s.pushed := by unfold State.notedIn; split <;> rfl
@[simp] theorem notedIn_lqueues (s : State) (p : Key → Bool) : (s.notedIn p).lqueues = s.lqueues := by unfold State.notedIn; split <;> rfl
@[simp] theorem notedIn_launches (s : State) (p : Key → Bool) : (s.notedIn p).launches = s.launches := by unfold State.notedIn; split <;> rfl
@[simp] theorem notedIn_epoch (s : State) (p : Key → Bool) : (s.notedIn p).epoch = s.epoch := by unfold State.notedIn; split <;> rfl
@[simp] theorem notedIn_placements (s : State) (p : Key → Bool) : (s.notedIn p).placements = s.placements := by unfold State.notedIn; split <;> rfl
@[simp] theorem notedIn_queueTurn (s : State) (p : Key → Bool) : (s.notedIn p).queueTurn = s.queueTurn := by unfold State.notedIn; split <;> rfl
@[simp] theorem notedIn_nextDom (s : State) (p : Key → Bool) : (s.notedIn p).nextDom = s.nextDom := by unfold State.notedIn; split <;> rfl
@[simp] theorem notedIn_stk (s : State) (p : Key → Bool) : (s.notedIn p).stk = s.stk := by unfold State.notedIn; split <;> rfl
@[simp] theorem notedIn_rows (s : State) (p : Key → Bool) : (s.notedIn p).rows = s.rows := by unfold State.notedIn; split <;> rfl
@[simp] theorem notedIn_hints (s : State) (p : Key → Bool) : (s.notedIn p).hints = s.hints := by unfold State.notedIn; split <;> rfl
@[simp] theorem notedIn_postponed (s : State) (p : Key → Bool) : (s.notedIn p).postponed = s.postponed := by unfold State.notedIn; split <;> rfl
@[simp] theorem notedIn_asleep (s : State) (p : Key → Bool) : (s.notedIn p).asleep = s.asleep := by unfold State.notedIn; split <;> rfl
@[simp] theorem notedIn_micro (s : State) (p : Key → Bool) : (s.notedIn p).micro = s.micro := by unfold State.notedIn; split <;> rfl
@[simp] theorem notedIn_logs (s : State) (p : Key → Bool) : (s.notedIn p).logs = s.logs := by unfold State.notedIn; split <;> rfl
@[simp] theorem notedIn_links (s : State) (p : Key → Bool) : (s.notedIn p).links = s.links := by unfold State.notedIn; split <;> rfl
@[simp] theorem notedIn_tokens (s : State) (p : Key → Bool) : (s.notedIn p).tokens = s.tokens := by unfold State.notedIn; split <;> rfl
@[simp] theorem notedIn_levels (s : State) (p : Key → Bool) : (s.notedIn p).levels = s.levels := by unfold State.notedIn; split <;> rfl
@[simp] theorem notedIn_fibres (s : State) (p : Key → Bool) : (s.notedIn p).fibres = s.fibres := by unfold State.notedIn; split <;> rfl
@[simp] theorem notedIn_dies (s : State) (p : Key → Bool) : (s.notedIn p).dies = s.dies := by unfold State.notedIn; split <;> rfl
@[simp] theorem notedIn_images (s : State) (p : Key → Bool) : (s.notedIn p).images = s.images := by unfold State.notedIn; split <;> rfl
@[simp] theorem notedIn_committed (s : State) (p : Key → Bool) : (s.notedIn p).committed = s.committed := by unfold State.notedIn; split <;> rfl
@[simp] theorem notedIn_staged (s : State) (p : Key → Bool) : (s.notedIn p).staged = s.staged := by unfold State.notedIn; split <;> rfl
@[simp] theorem notedIn_burnt (s : State) (p : Key → Bool) : (s.notedIn p).burnt = s.burnt := by unfold State.notedIn; split <;> rfl
@[simp] theorem notedIn_regs (s : State) (p : Key → Bool) : (s.notedIn p).regs = s.regs := by unfold State.notedIn; split <;> rfl
@[simp] theorem notedIn_msix (s : State) (p : Key → Bool) : (s.notedIn p).msix = s.msix := by unfold State.notedIn; split <;> rfl
@[simp] theorem notedIn_msixTable (s : State) (p : Key → Bool) : (s.notedIn p).msixTable = s.msixTable := by unfold State.notedIn; split <;> rfl
@[simp] theorem notedIn_hostReply (s : State) (p : Key → Bool) : (s.notedIn p).hostReply = s.hostReply := by unfold State.notedIn; split <;> rfl
@[simp] theorem notedIn_era (s : State) (p : Key → Bool) : (s.notedIn p).era = s.era := by unfold State.notedIn; split <;> rfl
@[simp] theorem notedIn_sessions (s : State) (p : Key → Bool) : (s.notedIn p).sessions = s.sessions := by unfold State.notedIn; split <;> rfl
@[simp] theorem notedIn_traceQ (s : State) (p : Key → Bool) : (s.notedIn p).traceQ = s.traceQ := by unfold State.notedIn; split <;> rfl
@[simp] theorem notedIn_guidesOut (s : State) (p : Key → Bool) : (s.notedIn p).guidesOut = s.guidesOut := by unfold State.notedIn; split <;> rfl
@[simp] theorem notedIn_cellsOut (s : State) (p : Key → Bool) : (s.notedIn p).cellsOut = s.cellsOut := by unfold State.notedIn; split <;> rfl
@[simp] theorem notedIn_repairs (s : State) (p : Key → Bool) : (s.notedIn p).repairs = s.repairs := by unfold State.notedIn; split <;> rfl
@[simp] theorem notedIn_bankSpares (s : State) (p : Key → Bool) : (s.notedIn p).bankSpares = s.bankSpares := by unfold State.notedIn; split <;> rfl
@[simp] theorem notedIn_seqSpares (s : State) (p : Key → Bool) : (s.notedIn p).seqSpares = s.seqSpares := by unfold State.notedIn; split <;> rfl
@[simp] theorem notedIn_guideSpares (s : State) (p : Key → Bool) : (s.notedIn p).guideSpares = s.guideSpares := by unfold State.notedIn; split <;> rfl

@[simp] theorem noted_front (s : State) (k n : Nat) : (s.noted k n).front = s.front := by simp [State.noted]
@[simp] theorem noted_fronts (s : State) (k n : Nat) : (s.noted k n).fronts = s.fronts := by simp [State.noted]
@[simp] theorem noted_inbox (s : State) (k n : Nat) : (s.noted k n).inbox = s.inbox := by simp [State.noted]
@[simp] theorem noted_pace (s : State) (k n : Nat) : (s.noted k n).pace = s.pace := by simp [State.noted]
@[simp] theorem noted_drawn (s : State) (k n : Nat) : (s.noted k n).drawn = s.drawn := by simp [State.noted]
@[simp] theorem noted_mem (s : State) (k n : Nat) : (s.noted k n).mem = s.mem := by simp [State.noted]
@[simp] theorem noted_pullAge (s : State) (k n : Nat) : (s.noted k n).pullAge = s.pullAge := by simp [State.noted]
@[simp] theorem noted_poison (s : State) (k n : Nat) : (s.noted k n).poison = s.poison := by simp [State.noted]
@[simp] theorem noted_shelves (s : State) (k n : Nat) : (s.noted k n).shelves = s.shelves := by simp [State.noted]
@[simp] theorem noted_residuals (s : State) (k n : Nat) : (s.noted k n).residuals = s.residuals := by simp [State.noted]
@[simp] theorem noted_msgs (s : State) (k n : Nat) : (s.noted k n).msgs = s.msgs := by simp [State.noted]
@[simp] theorem noted_homeQ (s : State) (k n : Nat) : (s.noted k n).homeQ = s.homeQ := by simp [State.noted]
@[simp] theorem noted_quotas (s : State) (k n : Nat) : (s.noted k n).quotas = s.quotas := by simp [State.noted]
@[simp] theorem noted_quotaAt (s : State) (k n : Nat) : (s.noted k n).quotaAt = s.quotaAt := by simp [State.noted]
@[simp] theorem noted_tags (s : State) (k n : Nat) : (s.noted k n).tags = s.tags := by simp [State.noted]
@[simp] theorem noted_tlb (s : State) (k n : Nat) : (s.noted k n).tlb = s.tlb := by simp [State.noted]
@[simp] theorem noted_migrating (s : State) (k n : Nat) : (s.noted k n).migrating = s.migrating := by simp [State.noted]
@[simp] theorem noted_slots (s : State) (k n : Nat) : (s.noted k n).slots = s.slots := by simp [State.noted]
@[simp] theorem noted_drowsy (s : State) (k n : Nat) : (s.noted k n).drowsy = s.drowsy := by simp [State.noted]
@[simp] theorem noted_groups (s : State) (k n : Nat) : (s.noted k n).groups = s.groups := by simp [State.noted]
@[simp] theorem noted_waiters (s : State) (k n : Nat) : (s.noted k n).waiters = s.waiters := by simp [State.noted]
@[simp] theorem noted_pushed (s : State) (k n : Nat) : (s.noted k n).pushed = s.pushed := by simp [State.noted]
@[simp] theorem noted_lqueues (s : State) (k n : Nat) : (s.noted k n).lqueues = s.lqueues := by simp [State.noted]
@[simp] theorem noted_launches (s : State) (k n : Nat) : (s.noted k n).launches = s.launches := by simp [State.noted]
@[simp] theorem noted_epoch (s : State) (k n : Nat) : (s.noted k n).epoch = s.epoch := by simp [State.noted]
@[simp] theorem noted_placements (s : State) (k n : Nat) : (s.noted k n).placements = s.placements := by simp [State.noted]
@[simp] theorem noted_queueTurn (s : State) (k n : Nat) : (s.noted k n).queueTurn = s.queueTurn := by simp [State.noted]
@[simp] theorem noted_nextDom (s : State) (k n : Nat) : (s.noted k n).nextDom = s.nextDom := by simp [State.noted]
@[simp] theorem noted_stk (s : State) (k n : Nat) : (s.noted k n).stk = s.stk := by simp [State.noted]
@[simp] theorem noted_rows (s : State) (k n : Nat) : (s.noted k n).rows = s.rows := by simp [State.noted]
@[simp] theorem noted_hints (s : State) (k n : Nat) : (s.noted k n).hints = s.hints := by simp [State.noted]
@[simp] theorem noted_postponed (s : State) (k n : Nat) : (s.noted k n).postponed = s.postponed := by simp [State.noted]
@[simp] theorem noted_asleep (s : State) (k n : Nat) : (s.noted k n).asleep = s.asleep := by simp [State.noted]
@[simp] theorem noted_micro (s : State) (k n : Nat) : (s.noted k n).micro = s.micro := by simp [State.noted]
@[simp] theorem noted_logs (s : State) (k n : Nat) : (s.noted k n).logs = s.logs := by simp [State.noted]
@[simp] theorem noted_links (s : State) (k n : Nat) : (s.noted k n).links = s.links := by simp [State.noted]
@[simp] theorem noted_tokens (s : State) (k n : Nat) : (s.noted k n).tokens = s.tokens := by simp [State.noted]
@[simp] theorem noted_levels (s : State) (k n : Nat) : (s.noted k n).levels = s.levels := by simp [State.noted]
@[simp] theorem noted_fibres (s : State) (k n : Nat) : (s.noted k n).fibres = s.fibres := by simp [State.noted]
@[simp] theorem noted_dies (s : State) (k n : Nat) : (s.noted k n).dies = s.dies := by simp [State.noted]
@[simp] theorem noted_images (s : State) (k n : Nat) : (s.noted k n).images = s.images := by simp [State.noted]
@[simp] theorem noted_committed (s : State) (k n : Nat) : (s.noted k n).committed = s.committed := by simp [State.noted]
@[simp] theorem noted_staged (s : State) (k n : Nat) : (s.noted k n).staged = s.staged := by simp [State.noted]
@[simp] theorem noted_burnt (s : State) (k n : Nat) : (s.noted k n).burnt = s.burnt := by simp [State.noted]
@[simp] theorem noted_regs (s : State) (k n : Nat) : (s.noted k n).regs = s.regs := by simp [State.noted]
@[simp] theorem noted_msix (s : State) (k n : Nat) : (s.noted k n).msix = s.msix := by simp [State.noted]
@[simp] theorem noted_msixTable (s : State) (k n : Nat) : (s.noted k n).msixTable = s.msixTable := by simp [State.noted]
@[simp] theorem noted_hostReply (s : State) (k n : Nat) : (s.noted k n).hostReply = s.hostReply := by simp [State.noted]
@[simp] theorem noted_era (s : State) (k n : Nat) : (s.noted k n).era = s.era := by simp [State.noted]
@[simp] theorem noted_sessions (s : State) (k n : Nat) : (s.noted k n).sessions = s.sessions := by simp [State.noted]
@[simp] theorem noted_traceQ (s : State) (k n : Nat) : (s.noted k n).traceQ = s.traceQ := by simp [State.noted]
@[simp] theorem noted_guidesOut (s : State) (k n : Nat) : (s.noted k n).guidesOut = s.guidesOut := by simp [State.noted]
@[simp] theorem noted_cellsOut (s : State) (k n : Nat) : (s.noted k n).cellsOut = s.cellsOut := by simp [State.noted]
@[simp] theorem noted_repairs (s : State) (k n : Nat) : (s.noted k n).repairs = s.repairs := by simp [State.noted]
@[simp] theorem noted_bankSpares (s : State) (k n : Nat) : (s.noted k n).bankSpares = s.bankSpares := by simp [State.noted]
@[simp] theorem noted_seqSpares (s : State) (k n : Nat) : (s.noted k n).seqSpares = s.seqSpares := by simp [State.noted]
@[simp] theorem noted_guideSpares (s : State) (k n : Nat) : (s.noted k n).guideSpares = s.guideSpares := by simp [State.noted]

@[simp] theorem write_front (s : State) (k n v : Nat) : (s.write k n v).front = s.front := by simp [State.write]
@[simp] theorem write_fronts (s : State) (k n v : Nat) : (s.write k n v).fronts = s.fronts := by simp [State.write]
@[simp] theorem write_inbox (s : State) (k n v : Nat) : (s.write k n v).inbox = s.inbox := by simp [State.write]
@[simp] theorem write_pace (s : State) (k n v : Nat) : (s.write k n v).pace = s.pace := by simp [State.write]
@[simp] theorem write_drawn (s : State) (k n v : Nat) : (s.write k n v).drawn = s.drawn := by simp [State.write]
@[simp] theorem write_pullAge (s : State) (k n v : Nat) : (s.write k n v).pullAge = s.pullAge := by simp [State.write]
@[simp] theorem write_poison (s : State) (k n v : Nat) : (s.write k n v).poison = s.poison := by simp [State.write]
@[simp] theorem write_shelves (s : State) (k n v : Nat) : (s.write k n v).shelves = s.shelves := by simp [State.write]
@[simp] theorem write_residuals (s : State) (k n v : Nat) : (s.write k n v).residuals = s.residuals := by simp [State.write]
@[simp] theorem write_msgs (s : State) (k n v : Nat) : (s.write k n v).msgs = s.msgs := by simp [State.write]
@[simp] theorem write_homeQ (s : State) (k n v : Nat) : (s.write k n v).homeQ = s.homeQ := by simp [State.write]
@[simp] theorem write_quotas (s : State) (k n v : Nat) : (s.write k n v).quotas = s.quotas := by simp [State.write]
@[simp] theorem write_quotaAt (s : State) (k n v : Nat) : (s.write k n v).quotaAt = s.quotaAt := by simp [State.write]
@[simp] theorem write_tags (s : State) (k n v : Nat) : (s.write k n v).tags = s.tags := by simp [State.write]
@[simp] theorem write_tlb (s : State) (k n v : Nat) : (s.write k n v).tlb = s.tlb := by simp [State.write]
@[simp] theorem write_migrating (s : State) (k n v : Nat) : (s.write k n v).migrating = s.migrating := by simp [State.write]
@[simp] theorem write_slots (s : State) (k n v : Nat) : (s.write k n v).slots = s.slots := by simp [State.write]
@[simp] theorem write_drowsy (s : State) (k n v : Nat) : (s.write k n v).drowsy = s.drowsy := by simp [State.write]
@[simp] theorem write_groups (s : State) (k n v : Nat) : (s.write k n v).groups = s.groups := by simp [State.write]
@[simp] theorem write_waiters (s : State) (k n v : Nat) : (s.write k n v).waiters = s.waiters := by simp [State.write]
@[simp] theorem write_pushed (s : State) (k n v : Nat) : (s.write k n v).pushed = s.pushed := by simp [State.write]
@[simp] theorem write_lqueues (s : State) (k n v : Nat) : (s.write k n v).lqueues = s.lqueues := by simp [State.write]
@[simp] theorem write_launches (s : State) (k n v : Nat) : (s.write k n v).launches = s.launches := by simp [State.write]
@[simp] theorem write_epoch (s : State) (k n v : Nat) : (s.write k n v).epoch = s.epoch := by simp [State.write]
@[simp] theorem write_placements (s : State) (k n v : Nat) : (s.write k n v).placements = s.placements := by simp [State.write]
@[simp] theorem write_queueTurn (s : State) (k n v : Nat) : (s.write k n v).queueTurn = s.queueTurn := by simp [State.write]
@[simp] theorem write_nextDom (s : State) (k n v : Nat) : (s.write k n v).nextDom = s.nextDom := by simp [State.write]
@[simp] theorem write_stk (s : State) (k n v : Nat) : (s.write k n v).stk = s.stk := by simp [State.write]
@[simp] theorem write_rows (s : State) (k n v : Nat) : (s.write k n v).rows = s.rows := by simp [State.write]
@[simp] theorem write_hints (s : State) (k n v : Nat) : (s.write k n v).hints = s.hints := by simp [State.write]
@[simp] theorem write_postponed (s : State) (k n v : Nat) : (s.write k n v).postponed = s.postponed := by simp [State.write]
@[simp] theorem write_asleep (s : State) (k n v : Nat) : (s.write k n v).asleep = s.asleep := by simp [State.write]
@[simp] theorem write_micro (s : State) (k n v : Nat) : (s.write k n v).micro = s.micro := by simp [State.write]
@[simp] theorem write_logs (s : State) (k n v : Nat) : (s.write k n v).logs = s.logs := by simp [State.write]
@[simp] theorem write_links (s : State) (k n v : Nat) : (s.write k n v).links = s.links := by simp [State.write]
@[simp] theorem write_tokens (s : State) (k n v : Nat) : (s.write k n v).tokens = s.tokens := by simp [State.write]
@[simp] theorem write_levels (s : State) (k n v : Nat) : (s.write k n v).levels = s.levels := by simp [State.write]
@[simp] theorem write_fibres (s : State) (k n v : Nat) : (s.write k n v).fibres = s.fibres := by simp [State.write]
@[simp] theorem write_dies (s : State) (k n v : Nat) : (s.write k n v).dies = s.dies := by simp [State.write]
@[simp] theorem write_images (s : State) (k n v : Nat) : (s.write k n v).images = s.images := by simp [State.write]
@[simp] theorem write_committed (s : State) (k n v : Nat) : (s.write k n v).committed = s.committed := by simp [State.write]
@[simp] theorem write_staged (s : State) (k n v : Nat) : (s.write k n v).staged = s.staged := by simp [State.write]
@[simp] theorem write_burnt (s : State) (k n v : Nat) : (s.write k n v).burnt = s.burnt := by simp [State.write]
@[simp] theorem write_regs (s : State) (k n v : Nat) : (s.write k n v).regs = s.regs := by simp [State.write]
@[simp] theorem write_msix (s : State) (k n v : Nat) : (s.write k n v).msix = s.msix := by simp [State.write]
@[simp] theorem write_msixTable (s : State) (k n v : Nat) : (s.write k n v).msixTable = s.msixTable := by simp [State.write]
@[simp] theorem write_hostReply (s : State) (k n v : Nat) : (s.write k n v).hostReply = s.hostReply := by simp [State.write]
@[simp] theorem write_era (s : State) (k n v : Nat) : (s.write k n v).era = s.era := by simp [State.write]
@[simp] theorem write_sessions (s : State) (k n v : Nat) : (s.write k n v).sessions = s.sessions := by simp [State.write]
@[simp] theorem write_traceQ (s : State) (k n v : Nat) : (s.write k n v).traceQ = s.traceQ := by simp [State.write]
@[simp] theorem write_guidesOut (s : State) (k n v : Nat) : (s.write k n v).guidesOut = s.guidesOut := by simp [State.write]
@[simp] theorem write_cellsOut (s : State) (k n v : Nat) : (s.write k n v).cellsOut = s.cellsOut := by simp [State.write]
@[simp] theorem write_repairs (s : State) (k n v : Nat) : (s.write k n v).repairs = s.repairs := by simp [State.write]
@[simp] theorem write_bankSpares (s : State) (k n v : Nat) : (s.write k n v).bankSpares = s.bankSpares := by simp [State.write]
@[simp] theorem write_seqSpares (s : State) (k n v : Nat) : (s.write k n v).seqSpares = s.seqSpares := by simp [State.write]
@[simp] theorem write_guideSpares (s : State) (k n v : Nat) : (s.write k n v).guideSpares = s.guideSpares := by simp [State.write]

@[simp] theorem putNum_front (s : State) (k n v : Nat) : (s.putNum k n v).front = s.front := by simp [State.putNum]
@[simp] theorem putNum_fronts (s : State) (k n v : Nat) : (s.putNum k n v).fronts = s.fronts := by simp [State.putNum]
@[simp] theorem putNum_inbox (s : State) (k n v : Nat) : (s.putNum k n v).inbox = s.inbox := by simp [State.putNum]
@[simp] theorem putNum_pace (s : State) (k n v : Nat) : (s.putNum k n v).pace = s.pace := by simp [State.putNum]
@[simp] theorem putNum_drawn (s : State) (k n v : Nat) : (s.putNum k n v).drawn = s.drawn := by simp [State.putNum]
@[simp] theorem putNum_pullAge (s : State) (k n v : Nat) : (s.putNum k n v).pullAge = s.pullAge := by simp [State.putNum]
@[simp] theorem putNum_poison (s : State) (k n v : Nat) : (s.putNum k n v).poison = s.poison := by simp [State.putNum]
@[simp] theorem putNum_shelves (s : State) (k n v : Nat) : (s.putNum k n v).shelves = s.shelves := by simp [State.putNum]
@[simp] theorem putNum_residuals (s : State) (k n v : Nat) : (s.putNum k n v).residuals = s.residuals := by simp [State.putNum]
@[simp] theorem putNum_msgs (s : State) (k n v : Nat) : (s.putNum k n v).msgs = s.msgs := by simp [State.putNum]
@[simp] theorem putNum_homeQ (s : State) (k n v : Nat) : (s.putNum k n v).homeQ = s.homeQ := by simp [State.putNum]
@[simp] theorem putNum_quotas (s : State) (k n v : Nat) : (s.putNum k n v).quotas = s.quotas := by simp [State.putNum]
@[simp] theorem putNum_quotaAt (s : State) (k n v : Nat) : (s.putNum k n v).quotaAt = s.quotaAt := by simp [State.putNum]
@[simp] theorem putNum_tags (s : State) (k n v : Nat) : (s.putNum k n v).tags = s.tags := by simp [State.putNum]
@[simp] theorem putNum_tlb (s : State) (k n v : Nat) : (s.putNum k n v).tlb = s.tlb := by simp [State.putNum]
@[simp] theorem putNum_migrating (s : State) (k n v : Nat) : (s.putNum k n v).migrating = s.migrating := by simp [State.putNum]
@[simp] theorem putNum_slots (s : State) (k n v : Nat) : (s.putNum k n v).slots = s.slots := by simp [State.putNum]
@[simp] theorem putNum_drowsy (s : State) (k n v : Nat) : (s.putNum k n v).drowsy = s.drowsy := by simp [State.putNum]
@[simp] theorem putNum_groups (s : State) (k n v : Nat) : (s.putNum k n v).groups = s.groups := by simp [State.putNum]
@[simp] theorem putNum_waiters (s : State) (k n v : Nat) : (s.putNum k n v).waiters = s.waiters := by simp [State.putNum]
@[simp] theorem putNum_pushed (s : State) (k n v : Nat) : (s.putNum k n v).pushed = s.pushed := by simp [State.putNum]
@[simp] theorem putNum_lqueues (s : State) (k n v : Nat) : (s.putNum k n v).lqueues = s.lqueues := by simp [State.putNum]
@[simp] theorem putNum_launches (s : State) (k n v : Nat) : (s.putNum k n v).launches = s.launches := by simp [State.putNum]
@[simp] theorem putNum_epoch (s : State) (k n v : Nat) : (s.putNum k n v).epoch = s.epoch := by simp [State.putNum]
@[simp] theorem putNum_placements (s : State) (k n v : Nat) : (s.putNum k n v).placements = s.placements := by simp [State.putNum]
@[simp] theorem putNum_queueTurn (s : State) (k n v : Nat) : (s.putNum k n v).queueTurn = s.queueTurn := by simp [State.putNum]
@[simp] theorem putNum_nextDom (s : State) (k n v : Nat) : (s.putNum k n v).nextDom = s.nextDom := by simp [State.putNum]
@[simp] theorem putNum_stk (s : State) (k n v : Nat) : (s.putNum k n v).stk = s.stk := by simp [State.putNum]
@[simp] theorem putNum_rows (s : State) (k n v : Nat) : (s.putNum k n v).rows = s.rows := by simp [State.putNum]
@[simp] theorem putNum_hints (s : State) (k n v : Nat) : (s.putNum k n v).hints = s.hints := by simp [State.putNum]
@[simp] theorem putNum_postponed (s : State) (k n v : Nat) : (s.putNum k n v).postponed = s.postponed := by simp [State.putNum]
@[simp] theorem putNum_asleep (s : State) (k n v : Nat) : (s.putNum k n v).asleep = s.asleep := by simp [State.putNum]
@[simp] theorem putNum_micro (s : State) (k n v : Nat) : (s.putNum k n v).micro = s.micro := by simp [State.putNum]
@[simp] theorem putNum_logs (s : State) (k n v : Nat) : (s.putNum k n v).logs = s.logs := by simp [State.putNum]
@[simp] theorem putNum_links (s : State) (k n v : Nat) : (s.putNum k n v).links = s.links := by simp [State.putNum]
@[simp] theorem putNum_tokens (s : State) (k n v : Nat) : (s.putNum k n v).tokens = s.tokens := by simp [State.putNum]
@[simp] theorem putNum_levels (s : State) (k n v : Nat) : (s.putNum k n v).levels = s.levels := by simp [State.putNum]
@[simp] theorem putNum_fibres (s : State) (k n v : Nat) : (s.putNum k n v).fibres = s.fibres := by simp [State.putNum]
@[simp] theorem putNum_dies (s : State) (k n v : Nat) : (s.putNum k n v).dies = s.dies := by simp [State.putNum]
@[simp] theorem putNum_images (s : State) (k n v : Nat) : (s.putNum k n v).images = s.images := by simp [State.putNum]
@[simp] theorem putNum_committed (s : State) (k n v : Nat) : (s.putNum k n v).committed = s.committed := by simp [State.putNum]
@[simp] theorem putNum_staged (s : State) (k n v : Nat) : (s.putNum k n v).staged = s.staged := by simp [State.putNum]
@[simp] theorem putNum_burnt (s : State) (k n v : Nat) : (s.putNum k n v).burnt = s.burnt := by simp [State.putNum]
@[simp] theorem putNum_regs (s : State) (k n v : Nat) : (s.putNum k n v).regs = s.regs := by simp [State.putNum]
@[simp] theorem putNum_msix (s : State) (k n v : Nat) : (s.putNum k n v).msix = s.msix := by simp [State.putNum]
@[simp] theorem putNum_msixTable (s : State) (k n v : Nat) : (s.putNum k n v).msixTable = s.msixTable := by simp [State.putNum]
@[simp] theorem putNum_hostReply (s : State) (k n v : Nat) : (s.putNum k n v).hostReply = s.hostReply := by simp [State.putNum]
@[simp] theorem putNum_era (s : State) (k n v : Nat) : (s.putNum k n v).era = s.era := by simp [State.putNum]
@[simp] theorem putNum_sessions (s : State) (k n v : Nat) : (s.putNum k n v).sessions = s.sessions := by simp [State.putNum]
@[simp] theorem putNum_traceQ (s : State) (k n v : Nat) : (s.putNum k n v).traceQ = s.traceQ := by simp [State.putNum]
@[simp] theorem putNum_guidesOut (s : State) (k n v : Nat) : (s.putNum k n v).guidesOut = s.guidesOut := by simp [State.putNum]
@[simp] theorem putNum_cellsOut (s : State) (k n v : Nat) : (s.putNum k n v).cellsOut = s.cellsOut := by simp [State.putNum]
@[simp] theorem putNum_repairs (s : State) (k n v : Nat) : (s.putNum k n v).repairs = s.repairs := by simp [State.putNum]
@[simp] theorem putNum_bankSpares (s : State) (k n v : Nat) : (s.putNum k n v).bankSpares = s.bankSpares := by simp [State.putNum]
@[simp] theorem putNum_seqSpares (s : State) (k n v : Nat) : (s.putNum k n v).seqSpares = s.seqSpares := by simp [State.putNum]
@[simp] theorem putNum_guideSpares (s : State) (k n v : Nat) : (s.putNum k n v).guideSpares = s.guideSpares := by simp [State.putNum]

@[simp] theorem hostPut_front (s : State) (a n v : Nat) : (s.hostPut a n v).front = s.front := by simp [State.hostPut]
@[simp] theorem hostPut_fronts (s : State) (a n v : Nat) : (s.hostPut a n v).fronts = s.fronts := by simp [State.hostPut]
@[simp] theorem hostPut_inbox (s : State) (a n v : Nat) : (s.hostPut a n v).inbox = s.inbox := by simp [State.hostPut]
@[simp] theorem hostPut_pace (s : State) (a n v : Nat) : (s.hostPut a n v).pace = s.pace := by simp [State.hostPut]
@[simp] theorem hostPut_drawn (s : State) (a n v : Nat) : (s.hostPut a n v).drawn = s.drawn := by simp [State.hostPut]
@[simp] theorem hostPut_pullAge (s : State) (a n v : Nat) : (s.hostPut a n v).pullAge = s.pullAge := by simp [State.hostPut]
@[simp] theorem hostPut_poison (s : State) (a n v : Nat) : (s.hostPut a n v).poison = s.poison := by simp [State.hostPut]
@[simp] theorem hostPut_shelves (s : State) (a n v : Nat) : (s.hostPut a n v).shelves = s.shelves := by simp [State.hostPut]
@[simp] theorem hostPut_residuals (s : State) (a n v : Nat) : (s.hostPut a n v).residuals = s.residuals := by simp [State.hostPut]
@[simp] theorem hostPut_msgs (s : State) (a n v : Nat) : (s.hostPut a n v).msgs = s.msgs := by simp [State.hostPut]
@[simp] theorem hostPut_homeQ (s : State) (a n v : Nat) : (s.hostPut a n v).homeQ = s.homeQ := by simp [State.hostPut]
@[simp] theorem hostPut_quotas (s : State) (a n v : Nat) : (s.hostPut a n v).quotas = s.quotas := by simp [State.hostPut]
@[simp] theorem hostPut_quotaAt (s : State) (a n v : Nat) : (s.hostPut a n v).quotaAt = s.quotaAt := by simp [State.hostPut]
@[simp] theorem hostPut_tags (s : State) (a n v : Nat) : (s.hostPut a n v).tags = s.tags := by simp [State.hostPut]
@[simp] theorem hostPut_tlb (s : State) (a n v : Nat) : (s.hostPut a n v).tlb = s.tlb := by simp [State.hostPut]
@[simp] theorem hostPut_migrating (s : State) (a n v : Nat) : (s.hostPut a n v).migrating = s.migrating := by simp [State.hostPut]
@[simp] theorem hostPut_slots (s : State) (a n v : Nat) : (s.hostPut a n v).slots = s.slots := by simp [State.hostPut]
@[simp] theorem hostPut_drowsy (s : State) (a n v : Nat) : (s.hostPut a n v).drowsy = s.drowsy := by simp [State.hostPut]
@[simp] theorem hostPut_groups (s : State) (a n v : Nat) : (s.hostPut a n v).groups = s.groups := by simp [State.hostPut]
@[simp] theorem hostPut_waiters (s : State) (a n v : Nat) : (s.hostPut a n v).waiters = s.waiters := by simp [State.hostPut]
@[simp] theorem hostPut_pushed (s : State) (a n v : Nat) : (s.hostPut a n v).pushed = s.pushed := by simp [State.hostPut]
@[simp] theorem hostPut_lqueues (s : State) (a n v : Nat) : (s.hostPut a n v).lqueues = s.lqueues := by simp [State.hostPut]
@[simp] theorem hostPut_launches (s : State) (a n v : Nat) : (s.hostPut a n v).launches = s.launches := by simp [State.hostPut]
@[simp] theorem hostPut_epoch (s : State) (a n v : Nat) : (s.hostPut a n v).epoch = s.epoch := by simp [State.hostPut]
@[simp] theorem hostPut_placements (s : State) (a n v : Nat) : (s.hostPut a n v).placements = s.placements := by simp [State.hostPut]
@[simp] theorem hostPut_queueTurn (s : State) (a n v : Nat) : (s.hostPut a n v).queueTurn = s.queueTurn := by simp [State.hostPut]
@[simp] theorem hostPut_nextDom (s : State) (a n v : Nat) : (s.hostPut a n v).nextDom = s.nextDom := by simp [State.hostPut]
@[simp] theorem hostPut_stk (s : State) (a n v : Nat) : (s.hostPut a n v).stk = s.stk := by simp [State.hostPut]
@[simp] theorem hostPut_rows (s : State) (a n v : Nat) : (s.hostPut a n v).rows = s.rows := by simp [State.hostPut]
@[simp] theorem hostPut_hints (s : State) (a n v : Nat) : (s.hostPut a n v).hints = s.hints := by simp [State.hostPut]
@[simp] theorem hostPut_postponed (s : State) (a n v : Nat) : (s.hostPut a n v).postponed = s.postponed := by simp [State.hostPut]
@[simp] theorem hostPut_asleep (s : State) (a n v : Nat) : (s.hostPut a n v).asleep = s.asleep := by simp [State.hostPut]
@[simp] theorem hostPut_micro (s : State) (a n v : Nat) : (s.hostPut a n v).micro = s.micro := by simp [State.hostPut]
@[simp] theorem hostPut_logs (s : State) (a n v : Nat) : (s.hostPut a n v).logs = s.logs := by simp [State.hostPut]
@[simp] theorem hostPut_links (s : State) (a n v : Nat) : (s.hostPut a n v).links = s.links := by simp [State.hostPut]
@[simp] theorem hostPut_tokens (s : State) (a n v : Nat) : (s.hostPut a n v).tokens = s.tokens := by simp [State.hostPut]
@[simp] theorem hostPut_levels (s : State) (a n v : Nat) : (s.hostPut a n v).levels = s.levels := by simp [State.hostPut]
@[simp] theorem hostPut_fibres (s : State) (a n v : Nat) : (s.hostPut a n v).fibres = s.fibres := by simp [State.hostPut]
@[simp] theorem hostPut_dies (s : State) (a n v : Nat) : (s.hostPut a n v).dies = s.dies := by simp [State.hostPut]
@[simp] theorem hostPut_images (s : State) (a n v : Nat) : (s.hostPut a n v).images = s.images := by simp [State.hostPut]
@[simp] theorem hostPut_committed (s : State) (a n v : Nat) : (s.hostPut a n v).committed = s.committed := by simp [State.hostPut]
@[simp] theorem hostPut_staged (s : State) (a n v : Nat) : (s.hostPut a n v).staged = s.staged := by simp [State.hostPut]
@[simp] theorem hostPut_burnt (s : State) (a n v : Nat) : (s.hostPut a n v).burnt = s.burnt := by simp [State.hostPut]
@[simp] theorem hostPut_regs (s : State) (a n v : Nat) : (s.hostPut a n v).regs = s.regs := by simp [State.hostPut]
@[simp] theorem hostPut_msix (s : State) (a n v : Nat) : (s.hostPut a n v).msix = s.msix := by simp [State.hostPut]
@[simp] theorem hostPut_msixTable (s : State) (a n v : Nat) : (s.hostPut a n v).msixTable = s.msixTable := by simp [State.hostPut]
@[simp] theorem hostPut_hostReply (s : State) (a n v : Nat) : (s.hostPut a n v).hostReply = s.hostReply := by simp [State.hostPut]
@[simp] theorem hostPut_era (s : State) (a n v : Nat) : (s.hostPut a n v).era = s.era := by simp [State.hostPut]
@[simp] theorem hostPut_sessions (s : State) (a n v : Nat) : (s.hostPut a n v).sessions = s.sessions := by simp [State.hostPut]
@[simp] theorem hostPut_traceQ (s : State) (a n v : Nat) : (s.hostPut a n v).traceQ = s.traceQ := by simp [State.hostPut]
@[simp] theorem hostPut_guidesOut (s : State) (a n v : Nat) : (s.hostPut a n v).guidesOut = s.guidesOut := by simp [State.hostPut]
@[simp] theorem hostPut_cellsOut (s : State) (a n v : Nat) : (s.hostPut a n v).cellsOut = s.cellsOut := by simp [State.hostPut]
@[simp] theorem hostPut_repairs (s : State) (a n v : Nat) : (s.hostPut a n v).repairs = s.repairs := by simp [State.hostPut]
@[simp] theorem hostPut_bankSpares (s : State) (a n v : Nat) : (s.hostPut a n v).bankSpares = s.bankSpares := by simp [State.hostPut]
@[simp] theorem hostPut_seqSpares (s : State) (a n v : Nat) : (s.hostPut a n v).seqSpares = s.seqSpares := by simp [State.hostPut]
@[simp] theorem hostPut_guideSpares (s : State) (a n v : Nat) : (s.hostPut a n v).guideSpares = s.guideSpares := by simp [State.hostPut]

@[simp] theorem setLq_front (s : State) (q : BitVec 6) (r : LQueue) : (s.setLq q r).front = s.front := rfl
@[simp] theorem setLq_fronts (s : State) (q : BitVec 6) (r : LQueue) : (s.setLq q r).fronts = s.fronts := rfl
@[simp] theorem setLq_inbox (s : State) (q : BitVec 6) (r : LQueue) : (s.setLq q r).inbox = s.inbox := rfl
@[simp] theorem setLq_pace (s : State) (q : BitVec 6) (r : LQueue) : (s.setLq q r).pace = s.pace := rfl
@[simp] theorem setLq_drawn (s : State) (q : BitVec 6) (r : LQueue) : (s.setLq q r).drawn = s.drawn := rfl
@[simp] theorem setLq_mem (s : State) (q : BitVec 6) (r : LQueue) : (s.setLq q r).mem = s.mem := rfl
@[simp] theorem setLq_pullAge (s : State) (q : BitVec 6) (r : LQueue) : (s.setLq q r).pullAge = s.pullAge := rfl
@[simp] theorem setLq_poison (s : State) (q : BitVec 6) (r : LQueue) : (s.setLq q r).poison = s.poison := rfl
@[simp] theorem setLq_shelves (s : State) (q : BitVec 6) (r : LQueue) : (s.setLq q r).shelves = s.shelves := rfl
@[simp] theorem setLq_residuals (s : State) (q : BitVec 6) (r : LQueue) : (s.setLq q r).residuals = s.residuals := rfl
@[simp] theorem setLq_msgs (s : State) (q : BitVec 6) (r : LQueue) : (s.setLq q r).msgs = s.msgs := rfl
@[simp] theorem setLq_homeQ (s : State) (q : BitVec 6) (r : LQueue) : (s.setLq q r).homeQ = s.homeQ := rfl
@[simp] theorem setLq_quotas (s : State) (q : BitVec 6) (r : LQueue) : (s.setLq q r).quotas = s.quotas := rfl
@[simp] theorem setLq_quotaAt (s : State) (q : BitVec 6) (r : LQueue) : (s.setLq q r).quotaAt = s.quotaAt := rfl
@[simp] theorem setLq_tags (s : State) (q : BitVec 6) (r : LQueue) : (s.setLq q r).tags = s.tags := rfl
@[simp] theorem setLq_tlb (s : State) (q : BitVec 6) (r : LQueue) : (s.setLq q r).tlb = s.tlb := rfl
@[simp] theorem setLq_migrating (s : State) (q : BitVec 6) (r : LQueue) : (s.setLq q r).migrating = s.migrating := rfl
@[simp] theorem setLq_slots (s : State) (q : BitVec 6) (r : LQueue) : (s.setLq q r).slots = s.slots := rfl
@[simp] theorem setLq_drowsy (s : State) (q : BitVec 6) (r : LQueue) : (s.setLq q r).drowsy = s.drowsy := rfl
@[simp] theorem setLq_groups (s : State) (q : BitVec 6) (r : LQueue) : (s.setLq q r).groups = s.groups := rfl
@[simp] theorem setLq_waiters (s : State) (q : BitVec 6) (r : LQueue) : (s.setLq q r).waiters = s.waiters := rfl
@[simp] theorem setLq_pushed (s : State) (q : BitVec 6) (r : LQueue) : (s.setLq q r).pushed = s.pushed := rfl
@[simp] theorem setLq_monitors (s : State) (q : BitVec 6) (r : LQueue) : (s.setLq q r).monitors = s.monitors := rfl
@[simp] theorem setLq_launches (s : State) (q : BitVec 6) (r : LQueue) : (s.setLq q r).launches = s.launches := rfl
@[simp] theorem setLq_epoch (s : State) (q : BitVec 6) (r : LQueue) : (s.setLq q r).epoch = s.epoch := rfl
@[simp] theorem setLq_placements (s : State) (q : BitVec 6) (r : LQueue) : (s.setLq q r).placements = s.placements := rfl
@[simp] theorem setLq_queueTurn (s : State) (q : BitVec 6) (r : LQueue) : (s.setLq q r).queueTurn = s.queueTurn := rfl
@[simp] theorem setLq_nextDom (s : State) (q : BitVec 6) (r : LQueue) : (s.setLq q r).nextDom = s.nextDom := rfl
@[simp] theorem setLq_stk (s : State) (q : BitVec 6) (r : LQueue) : (s.setLq q r).stk = s.stk := rfl
@[simp] theorem setLq_rows (s : State) (q : BitVec 6) (r : LQueue) : (s.setLq q r).rows = s.rows := rfl
@[simp] theorem setLq_hints (s : State) (q : BitVec 6) (r : LQueue) : (s.setLq q r).hints = s.hints := rfl
@[simp] theorem setLq_postponed (s : State) (q : BitVec 6) (r : LQueue) : (s.setLq q r).postponed = s.postponed := rfl
@[simp] theorem setLq_asleep (s : State) (q : BitVec 6) (r : LQueue) : (s.setLq q r).asleep = s.asleep := rfl
@[simp] theorem setLq_micro (s : State) (q : BitVec 6) (r : LQueue) : (s.setLq q r).micro = s.micro := rfl
@[simp] theorem setLq_logs (s : State) (q : BitVec 6) (r : LQueue) : (s.setLq q r).logs = s.logs := rfl
@[simp] theorem setLq_links (s : State) (q : BitVec 6) (r : LQueue) : (s.setLq q r).links = s.links := rfl
@[simp] theorem setLq_tokens (s : State) (q : BitVec 6) (r : LQueue) : (s.setLq q r).tokens = s.tokens := rfl
@[simp] theorem setLq_levels (s : State) (q : BitVec 6) (r : LQueue) : (s.setLq q r).levels = s.levels := rfl
@[simp] theorem setLq_fibres (s : State) (q : BitVec 6) (r : LQueue) : (s.setLq q r).fibres = s.fibres := rfl
@[simp] theorem setLq_dies (s : State) (q : BitVec 6) (r : LQueue) : (s.setLq q r).dies = s.dies := rfl
@[simp] theorem setLq_images (s : State) (q : BitVec 6) (r : LQueue) : (s.setLq q r).images = s.images := rfl
@[simp] theorem setLq_committed (s : State) (q : BitVec 6) (r : LQueue) : (s.setLq q r).committed = s.committed := rfl
@[simp] theorem setLq_staged (s : State) (q : BitVec 6) (r : LQueue) : (s.setLq q r).staged = s.staged := rfl
@[simp] theorem setLq_burnt (s : State) (q : BitVec 6) (r : LQueue) : (s.setLq q r).burnt = s.burnt := rfl
@[simp] theorem setLq_regs (s : State) (q : BitVec 6) (r : LQueue) : (s.setLq q r).regs = s.regs := rfl
@[simp] theorem setLq_msix (s : State) (q : BitVec 6) (r : LQueue) : (s.setLq q r).msix = s.msix := rfl
@[simp] theorem setLq_msixTable (s : State) (q : BitVec 6) (r : LQueue) : (s.setLq q r).msixTable = s.msixTable := rfl
@[simp] theorem setLq_hostReply (s : State) (q : BitVec 6) (r : LQueue) : (s.setLq q r).hostReply = s.hostReply := rfl
@[simp] theorem setLq_era (s : State) (q : BitVec 6) (r : LQueue) : (s.setLq q r).era = s.era := rfl
@[simp] theorem setLq_sessions (s : State) (q : BitVec 6) (r : LQueue) : (s.setLq q r).sessions = s.sessions := rfl
@[simp] theorem setLq_traceQ (s : State) (q : BitVec 6) (r : LQueue) : (s.setLq q r).traceQ = s.traceQ := rfl
@[simp] theorem setLq_guidesOut (s : State) (q : BitVec 6) (r : LQueue) : (s.setLq q r).guidesOut = s.guidesOut := rfl
@[simp] theorem setLq_cellsOut (s : State) (q : BitVec 6) (r : LQueue) : (s.setLq q r).cellsOut = s.cellsOut := rfl
@[simp] theorem setLq_repairs (s : State) (q : BitVec 6) (r : LQueue) : (s.setLq q r).repairs = s.repairs := rfl
@[simp] theorem setLq_bankSpares (s : State) (q : BitVec 6) (r : LQueue) : (s.setLq q r).bankSpares = s.bankSpares := rfl
@[simp] theorem setLq_seqSpares (s : State) (q : BitVec 6) (r : LQueue) : (s.setLq q r).seqSpares = s.seqSpares := rfl
@[simp] theorem setLq_guideSpares (s : State) (q : BitVec 6) (r : LQueue) : (s.setLq q r).guideSpares = s.guideSpares := rfl

@[simp] theorem setDie_front (s : State) (k : Nat) (d : Die) : (s.setDie k d).front = s.front := rfl
@[simp] theorem setDie_fronts (s : State) (k : Nat) (d : Die) : (s.setDie k d).fronts = s.fronts := rfl
@[simp] theorem setDie_inbox (s : State) (k : Nat) (d : Die) : (s.setDie k d).inbox = s.inbox := rfl
@[simp] theorem setDie_pace (s : State) (k : Nat) (d : Die) : (s.setDie k d).pace = s.pace := rfl
@[simp] theorem setDie_drawn (s : State) (k : Nat) (d : Die) : (s.setDie k d).drawn = s.drawn := rfl
@[simp] theorem setDie_mem (s : State) (k : Nat) (d : Die) : (s.setDie k d).mem = s.mem := rfl
@[simp] theorem setDie_pullAge (s : State) (k : Nat) (d : Die) : (s.setDie k d).pullAge = s.pullAge := rfl
@[simp] theorem setDie_poison (s : State) (k : Nat) (d : Die) : (s.setDie k d).poison = s.poison := rfl
@[simp] theorem setDie_shelves (s : State) (k : Nat) (d : Die) : (s.setDie k d).shelves = s.shelves := rfl
@[simp] theorem setDie_residuals (s : State) (k : Nat) (d : Die) : (s.setDie k d).residuals = s.residuals := rfl
@[simp] theorem setDie_msgs (s : State) (k : Nat) (d : Die) : (s.setDie k d).msgs = s.msgs := rfl
@[simp] theorem setDie_homeQ (s : State) (k : Nat) (d : Die) : (s.setDie k d).homeQ = s.homeQ := rfl
@[simp] theorem setDie_quotas (s : State) (k : Nat) (d : Die) : (s.setDie k d).quotas = s.quotas := rfl
@[simp] theorem setDie_quotaAt (s : State) (k : Nat) (d : Die) : (s.setDie k d).quotaAt = s.quotaAt := rfl
@[simp] theorem setDie_tags (s : State) (k : Nat) (d : Die) : (s.setDie k d).tags = s.tags := rfl
@[simp] theorem setDie_tlb (s : State) (k : Nat) (d : Die) : (s.setDie k d).tlb = s.tlb := rfl
@[simp] theorem setDie_migrating (s : State) (k : Nat) (d : Die) : (s.setDie k d).migrating = s.migrating := rfl
@[simp] theorem setDie_slots (s : State) (k : Nat) (d : Die) : (s.setDie k d).slots = s.slots := rfl
@[simp] theorem setDie_drowsy (s : State) (k : Nat) (d : Die) : (s.setDie k d).drowsy = s.drowsy := rfl
@[simp] theorem setDie_groups (s : State) (k : Nat) (d : Die) : (s.setDie k d).groups = s.groups := rfl
@[simp] theorem setDie_waiters (s : State) (k : Nat) (d : Die) : (s.setDie k d).waiters = s.waiters := rfl
@[simp] theorem setDie_pushed (s : State) (k : Nat) (d : Die) : (s.setDie k d).pushed = s.pushed := rfl
@[simp] theorem setDie_monitors (s : State) (k : Nat) (d : Die) : (s.setDie k d).monitors = s.monitors := rfl
@[simp] theorem setDie_lqueues (s : State) (k : Nat) (d : Die) : (s.setDie k d).lqueues = s.lqueues := rfl
@[simp] theorem setDie_launches (s : State) (k : Nat) (d : Die) : (s.setDie k d).launches = s.launches := rfl
@[simp] theorem setDie_epoch (s : State) (k : Nat) (d : Die) : (s.setDie k d).epoch = s.epoch := rfl
@[simp] theorem setDie_placements (s : State) (k : Nat) (d : Die) : (s.setDie k d).placements = s.placements := rfl
@[simp] theorem setDie_queueTurn (s : State) (k : Nat) (d : Die) : (s.setDie k d).queueTurn = s.queueTurn := rfl
@[simp] theorem setDie_nextDom (s : State) (k : Nat) (d : Die) : (s.setDie k d).nextDom = s.nextDom := rfl
@[simp] theorem setDie_stk (s : State) (k : Nat) (d : Die) : (s.setDie k d).stk = s.stk := rfl
@[simp] theorem setDie_rows (s : State) (k : Nat) (d : Die) : (s.setDie k d).rows = s.rows := rfl
@[simp] theorem setDie_hints (s : State) (k : Nat) (d : Die) : (s.setDie k d).hints = s.hints := rfl
@[simp] theorem setDie_postponed (s : State) (k : Nat) (d : Die) : (s.setDie k d).postponed = s.postponed := rfl
@[simp] theorem setDie_asleep (s : State) (k : Nat) (d : Die) : (s.setDie k d).asleep = s.asleep := rfl
@[simp] theorem setDie_micro (s : State) (k : Nat) (d : Die) : (s.setDie k d).micro = s.micro := rfl
@[simp] theorem setDie_logs (s : State) (k : Nat) (d : Die) : (s.setDie k d).logs = s.logs := rfl
@[simp] theorem setDie_links (s : State) (k : Nat) (d : Die) : (s.setDie k d).links = s.links := rfl
@[simp] theorem setDie_tokens (s : State) (k : Nat) (d : Die) : (s.setDie k d).tokens = s.tokens := rfl
@[simp] theorem setDie_levels (s : State) (k : Nat) (d : Die) : (s.setDie k d).levels = s.levels := rfl
@[simp] theorem setDie_fibres (s : State) (k : Nat) (d : Die) : (s.setDie k d).fibres = s.fibres := rfl
@[simp] theorem setDie_images (s : State) (k : Nat) (d : Die) : (s.setDie k d).images = s.images := rfl
@[simp] theorem setDie_committed (s : State) (k : Nat) (d : Die) : (s.setDie k d).committed = s.committed := rfl
@[simp] theorem setDie_staged (s : State) (k : Nat) (d : Die) : (s.setDie k d).staged = s.staged := rfl
@[simp] theorem setDie_burnt (s : State) (k : Nat) (d : Die) : (s.setDie k d).burnt = s.burnt := rfl
@[simp] theorem setDie_regs (s : State) (k : Nat) (d : Die) : (s.setDie k d).regs = s.regs := rfl
@[simp] theorem setDie_msix (s : State) (k : Nat) (d : Die) : (s.setDie k d).msix = s.msix := rfl
@[simp] theorem setDie_msixTable (s : State) (k : Nat) (d : Die) : (s.setDie k d).msixTable = s.msixTable := rfl
@[simp] theorem setDie_hostReply (s : State) (k : Nat) (d : Die) : (s.setDie k d).hostReply = s.hostReply := rfl
@[simp] theorem setDie_era (s : State) (k : Nat) (d : Die) : (s.setDie k d).era = s.era := rfl
@[simp] theorem setDie_sessions (s : State) (k : Nat) (d : Die) : (s.setDie k d).sessions = s.sessions := rfl
@[simp] theorem setDie_traceQ (s : State) (k : Nat) (d : Die) : (s.setDie k d).traceQ = s.traceQ := rfl
@[simp] theorem setDie_guidesOut (s : State) (k : Nat) (d : Die) : (s.setDie k d).guidesOut = s.guidesOut := rfl
@[simp] theorem setDie_cellsOut (s : State) (k : Nat) (d : Die) : (s.setDie k d).cellsOut = s.cellsOut := rfl
@[simp] theorem setDie_repairs (s : State) (k : Nat) (d : Die) : (s.setDie k d).repairs = s.repairs := rfl
@[simp] theorem setDie_bankSpares (s : State) (k : Nat) (d : Die) : (s.setDie k d).bankSpares = s.bankSpares := rfl
@[simp] theorem setDie_seqSpares (s : State) (k : Nat) (d : Die) : (s.setDie k d).seqSpares = s.seqSpares := rfl
@[simp] theorem setDie_guideSpares (s : State) (k : Nat) (d : Die) : (s.setDie k d).guideSpares = s.guideSpares := rfl

@[simp] theorem setStack_front (s : State) (n : Nat) (r : StackRegs) : (s.setStack n r).front = s.front := rfl
@[simp] theorem setStack_fronts (s : State) (n : Nat) (r : StackRegs) : (s.setStack n r).fronts = s.fronts := rfl
@[simp] theorem setStack_inbox (s : State) (n : Nat) (r : StackRegs) : (s.setStack n r).inbox = s.inbox := rfl
@[simp] theorem setStack_pace (s : State) (n : Nat) (r : StackRegs) : (s.setStack n r).pace = s.pace := rfl
@[simp] theorem setStack_drawn (s : State) (n : Nat) (r : StackRegs) : (s.setStack n r).drawn = s.drawn := rfl
@[simp] theorem setStack_mem (s : State) (n : Nat) (r : StackRegs) : (s.setStack n r).mem = s.mem := rfl
@[simp] theorem setStack_pullAge (s : State) (n : Nat) (r : StackRegs) : (s.setStack n r).pullAge = s.pullAge := rfl
@[simp] theorem setStack_poison (s : State) (n : Nat) (r : StackRegs) : (s.setStack n r).poison = s.poison := rfl
@[simp] theorem setStack_shelves (s : State) (n : Nat) (r : StackRegs) : (s.setStack n r).shelves = s.shelves := rfl
@[simp] theorem setStack_residuals (s : State) (n : Nat) (r : StackRegs) : (s.setStack n r).residuals = s.residuals := rfl
@[simp] theorem setStack_msgs (s : State) (n : Nat) (r : StackRegs) : (s.setStack n r).msgs = s.msgs := rfl
@[simp] theorem setStack_homeQ (s : State) (n : Nat) (r : StackRegs) : (s.setStack n r).homeQ = s.homeQ := rfl
@[simp] theorem setStack_quotas (s : State) (n : Nat) (r : StackRegs) : (s.setStack n r).quotas = s.quotas := rfl
@[simp] theorem setStack_quotaAt (s : State) (n : Nat) (r : StackRegs) : (s.setStack n r).quotaAt = s.quotaAt := rfl
@[simp] theorem setStack_tags (s : State) (n : Nat) (r : StackRegs) : (s.setStack n r).tags = s.tags := rfl
@[simp] theorem setStack_tlb (s : State) (n : Nat) (r : StackRegs) : (s.setStack n r).tlb = s.tlb := rfl
@[simp] theorem setStack_migrating (s : State) (n : Nat) (r : StackRegs) : (s.setStack n r).migrating = s.migrating := rfl
@[simp] theorem setStack_slots (s : State) (n : Nat) (r : StackRegs) : (s.setStack n r).slots = s.slots := rfl
@[simp] theorem setStack_drowsy (s : State) (n : Nat) (r : StackRegs) : (s.setStack n r).drowsy = s.drowsy := rfl
@[simp] theorem setStack_groups (s : State) (n : Nat) (r : StackRegs) : (s.setStack n r).groups = s.groups := rfl
@[simp] theorem setStack_waiters (s : State) (n : Nat) (r : StackRegs) : (s.setStack n r).waiters = s.waiters := rfl
@[simp] theorem setStack_pushed (s : State) (n : Nat) (r : StackRegs) : (s.setStack n r).pushed = s.pushed := rfl
@[simp] theorem setStack_monitors (s : State) (n : Nat) (r : StackRegs) : (s.setStack n r).monitors = s.monitors := rfl
@[simp] theorem setStack_lqueues (s : State) (n : Nat) (r : StackRegs) : (s.setStack n r).lqueues = s.lqueues := rfl
@[simp] theorem setStack_launches (s : State) (n : Nat) (r : StackRegs) : (s.setStack n r).launches = s.launches := rfl
@[simp] theorem setStack_epoch (s : State) (n : Nat) (r : StackRegs) : (s.setStack n r).epoch = s.epoch := rfl
@[simp] theorem setStack_placements (s : State) (n : Nat) (r : StackRegs) : (s.setStack n r).placements = s.placements := rfl
@[simp] theorem setStack_queueTurn (s : State) (n : Nat) (r : StackRegs) : (s.setStack n r).queueTurn = s.queueTurn := rfl
@[simp] theorem setStack_nextDom (s : State) (n : Nat) (r : StackRegs) : (s.setStack n r).nextDom = s.nextDom := rfl
@[simp] theorem setStack_rows (s : State) (n : Nat) (r : StackRegs) : (s.setStack n r).rows = s.rows := rfl
@[simp] theorem setStack_hints (s : State) (n : Nat) (r : StackRegs) : (s.setStack n r).hints = s.hints := rfl
@[simp] theorem setStack_postponed (s : State) (n : Nat) (r : StackRegs) : (s.setStack n r).postponed = s.postponed := rfl
@[simp] theorem setStack_asleep (s : State) (n : Nat) (r : StackRegs) : (s.setStack n r).asleep = s.asleep := rfl
@[simp] theorem setStack_micro (s : State) (n : Nat) (r : StackRegs) : (s.setStack n r).micro = s.micro := rfl
@[simp] theorem setStack_logs (s : State) (n : Nat) (r : StackRegs) : (s.setStack n r).logs = s.logs := rfl
@[simp] theorem setStack_links (s : State) (n : Nat) (r : StackRegs) : (s.setStack n r).links = s.links := rfl
@[simp] theorem setStack_tokens (s : State) (n : Nat) (r : StackRegs) : (s.setStack n r).tokens = s.tokens := rfl
@[simp] theorem setStack_levels (s : State) (n : Nat) (r : StackRegs) : (s.setStack n r).levels = s.levels := rfl
@[simp] theorem setStack_fibres (s : State) (n : Nat) (r : StackRegs) : (s.setStack n r).fibres = s.fibres := rfl
@[simp] theorem setStack_dies (s : State) (n : Nat) (r : StackRegs) : (s.setStack n r).dies = s.dies := rfl
@[simp] theorem setStack_images (s : State) (n : Nat) (r : StackRegs) : (s.setStack n r).images = s.images := rfl
@[simp] theorem setStack_committed (s : State) (n : Nat) (r : StackRegs) : (s.setStack n r).committed = s.committed := rfl
@[simp] theorem setStack_staged (s : State) (n : Nat) (r : StackRegs) : (s.setStack n r).staged = s.staged := rfl
@[simp] theorem setStack_burnt (s : State) (n : Nat) (r : StackRegs) : (s.setStack n r).burnt = s.burnt := rfl
@[simp] theorem setStack_regs (s : State) (n : Nat) (r : StackRegs) : (s.setStack n r).regs = s.regs := rfl
@[simp] theorem setStack_msix (s : State) (n : Nat) (r : StackRegs) : (s.setStack n r).msix = s.msix := rfl
@[simp] theorem setStack_msixTable (s : State) (n : Nat) (r : StackRegs) : (s.setStack n r).msixTable = s.msixTable := rfl
@[simp] theorem setStack_hostReply (s : State) (n : Nat) (r : StackRegs) : (s.setStack n r).hostReply = s.hostReply := rfl
@[simp] theorem setStack_era (s : State) (n : Nat) (r : StackRegs) : (s.setStack n r).era = s.era := rfl
@[simp] theorem setStack_sessions (s : State) (n : Nat) (r : StackRegs) : (s.setStack n r).sessions = s.sessions := rfl
@[simp] theorem setStack_traceQ (s : State) (n : Nat) (r : StackRegs) : (s.setStack n r).traceQ = s.traceQ := rfl
@[simp] theorem setStack_guidesOut (s : State) (n : Nat) (r : StackRegs) : (s.setStack n r).guidesOut = s.guidesOut := rfl
@[simp] theorem setStack_cellsOut (s : State) (n : Nat) (r : StackRegs) : (s.setStack n r).cellsOut = s.cellsOut := rfl
@[simp] theorem setStack_repairs (s : State) (n : Nat) (r : StackRegs) : (s.setStack n r).repairs = s.repairs := rfl
@[simp] theorem setStack_bankSpares (s : State) (n : Nat) (r : StackRegs) : (s.setStack n r).bankSpares = s.bankSpares := rfl
@[simp] theorem setStack_seqSpares (s : State) (n : Nat) (r : StackRegs) : (s.setStack n r).seqSpares = s.seqSpares := rfl
@[simp] theorem setStack_guideSpares (s : State) (n : Nat) (r : StackRegs) : (s.setStack n r).guideSpares = s.guideSpares := rfl

@[simp] theorem write_mem (s : State) (k n v : Nat) : (s.write k n v).mem = s.mem.putNum k n v := rfl
@[simp] theorem putNum_mem (s : State) (k n v : Nat) : (s.putNum k n v).mem = s.mem.putNum (s.phys k) n v := rfl
@[simp] theorem hostPut_mem (s : State) (a n v : Nat) : (s.hostPut a n v).mem = s.mem.putNum (hmKey a) n v := rfl

/-- A queue's block is read back at its queue alone. -/
@[simp] theorem lq_setLq (s : State) (q p : BitVec 6) (r : LQueue) : (s.setLq q r).lq p = if p = q then r else s.lq p := by
  unfold State.setLq State.lq
  rw [get_set]
  exact if_congr ⟨fun e => BitVec.eq_of_toNat_eq e, fun e => e ▸ rfl⟩ rfl rfl

/-- A die's record is read back at its number alone. -/
@[simp] theorem die_setDie (s : State) (k j : Nat) (d : Die) : (s.setDie k d).die j = if j % 26 = k % 26 then d else s.die j := by
  unfold State.setDie State.die
  rw [get_set]
  rfl

end Sys2Proof.Machine
end

