-- ==== Sys2Proof/Laws/Run.lean ====
section
/-! SUPPORT. What running a computation, a front instruction, a broadcast, a trap or a step can answer. -/

namespace Sys2Proof.Machine

/-! ### Computations -/

variable {α β : Type}

@[simp] theorem exec_pure (a : α) (s : State) : M.exec (pure a) s = (.ok a, s) := rfl

theorem exec_bind (m : M α) (f : α → M β) (s : State) :
    M.exec (m >>= f) s = (match M.exec m s with
      | (.ok a, t) => M.exec (f a) t
      | (.error x, t) => (.error x, t)) := by
  show (ExceptT.bindCont f (m.run s).1) (m.run s).2 = _
  unfold M.exec
  rcases h : m.run s with ⟨r, t⟩
  cases r <;> rfl

@[simp] theorem exec_get (s : State) : M.exec get s = (.ok s, s) := rfl
@[simp] theorem exec_set (t s : State) : M.exec (set t) s = (.ok (), t) := rfl
@[simp] theorem exec_modify (f : State → State) (s : State) : M.exec (modify f) s = (.ok (), f s) := rfl
@[simp] theorem exec_trapM (t : TrapInfo) (s : State) : M.exec (trapM t : M α) s = (.error (.trap t), s) := rfl
@[simp] theorem exec_waitM (s : State) : M.exec (waitM : M α) s = (.error .wait, s) := rfl
@[simp] theorem exec_throw (x : Stop) (s : State) : M.exec (throw x : M α) s = (.error x, s) := rfl

@[simp] theorem exec_need (b : Bool) (t : TrapInfo) (s : State) :
    M.exec (need b t) s = if b then (.ok (), s) else (.error (.trap t), s) := by cases b <;> rfl

@[simp] theorem exec_waitFor (b : Bool) (s : State) : M.exec (waitFor b) s = if b then (.ok (), s) else (.error .wait, s) := by
  cases b <;> rfl

/-- A first computation that answers hands its value on. -/
theorem exec_bind_ok {m : M α} {f : α → M β} {s t : State} {a : α} (h : M.exec m s = (.ok a, t)) :
    M.exec (m >>= f) s = M.exec (f a) t := by rw [exec_bind, h]

/-- A first computation that stops stops the whole. -/
theorem exec_bind_error {m : M α} {f : α → M β} {s t : State} {x : Stop} (h : M.exec m s = (.error x, t)) :
    M.exec (m >>= f) s = (.error x, t) := by rw [exec_bind, h]

/-- What a chain that answers went through. -/
theorem exec_bind_inv {m : M α} {f : α → M β} {s u : State} {b : β} (h : M.exec (m >>= f) s = (.ok b, u)) :
    ∃ a t, M.exec m s = (.ok a, t) ∧ M.exec (f a) t = (.ok b, u) := by
  rw [exec_bind] at h
  split at h
  · rename_i a t hm
    exact ⟨a, t, hm, h⟩
  · cases h

/-! ### Front instructions -/

/-- A front instruction ends, traps at itself, or waits there; it never stops the machine. -/
theorem frontM_cases (m : M Unit) (s : State) :
    (∃ t, M.exec m s = (.ok (), t) ∧ frontM m s = .next t) ∨
    (∃ x t, M.exec m s = (.error (.trap x), t) ∧ frontM m s = .next (stopTrap t x t.front.pc)) ∨
    (∃ x t, (∀ y, x ≠ .trap y) ∧ M.exec m s = (.error x, t) ∧ frontM m s = .next t) := by
  unfold frontM
  rcases h : M.exec m s with ⟨r, t⟩
  cases r with
  | ok u => exact .inl ⟨t, by cases u; rfl, rfl⟩
  | error x =>
    cases x with
    | trap y => exact .inr (.inl ⟨y, t, rfl, rfl⟩)
    | wait => exact .inr (.inr ⟨.wait, t, nofun, rfl, rfl⟩)
    | need ps => exact .inr (.inr ⟨.need ps, t, nofun, rfl, rfl⟩)

theorem frontM_ok {m : M Unit} {s t : State} (h : M.exec m s = (.ok (), t)) : frontM m s = .next t := by simp [frontM, h]

theorem frontM_trap {m : M Unit} {s t : State} {x : TrapInfo} (h : M.exec m s = (.error (.trap x), t)) :
    frontM m s = .next (stopTrap t x t.front.pc) := by simp [frontM, h, trapHere]

theorem frontM_wait {m : M Unit} {s t : State} (h : M.exec m s = (.error .wait, t)) : frontM m s = .next t := by simp [frontM, h]

/-- A computation that keeps a property of states, whether it answers or not. -/
def KeepsM (P : State → Prop) (m : M α) : Prop := ∀ s, P s → P (M.exec m s).2

theorem KeepsM.bind {P : State → Prop} {m : M α} {f : α → M β} (hm : KeepsM P m) (hf : ∀ a, KeepsM P (f a)) : KeepsM P (m >>= f) := by
  intro s hs
  have h := hm s hs
  rw [exec_bind]
  revert h
  rcases M.exec m s with ⟨r, t⟩
  intro h
  cases r with
  | ok a => exact hf a t h
  | error x => exact h

theorem keepsM_pure {P : State → Prop} (a : α) : KeepsM P (pure a) := fun _ h => h
theorem keepsM_get {P : State → Prop} : KeepsM P get := fun _ h => h
theorem keepsM_modify {P : State → Prop} {f : State → State} (h : ∀ s, P s → P (f s)) : KeepsM P (modify f) := h
theorem keepsM_throw {P : State → Prop} (x : Stop) : KeepsM P (throw x : M α) := fun _ h => h
theorem keepsM_need {P : State → Prop} (b : Bool) (t : TrapInfo) : KeepsM P (need b t) := by intro s h; cases b <;> exact h

/-- A front instruction keeps what its computation and a stop keep. -/
theorem frontM_keeps {P : State → Prop} {m : M Unit} {s t : State} (hm : KeepsM P m) (hs : P s)
    (hstop : ∀ u x, P u → P (stopTrap u x u.front.pc)) (h : frontM m s = .next t) : P t := by
  have hk := hm s hs
  rcases frontM_cases m s with ⟨u, he, hn⟩ | ⟨x, u, he, hn⟩ | ⟨x, u, _, he, hn⟩ <;> rw [he] at hk <;> rw [hn] at h <;> cases h
  · exact hk
  · exact hstop _ _ hk
  · exact hk

/-! ### Broadcasts -/

/-- A broadcast traps at itself, waits, or issues (R69, R187, R390). -/
theorem broadcast_cases (i : Instr) (info : BInfo) (s : State) :
    (∃ t, issueFault info s = some t ∧ broadcast i info s = .next (stopTrap s t s.front.pc)) ∨
    (issueFault info s = none ∧ issueReady i info s = true ∧ broadcast i info s = .next (issueNow i info (beforeIssue i info s)).1) ∨
    (issueFault info s = none ∧ issueReady i info s = false ∧ broadcast i info s = .next s) := by
  unfold broadcast trapHere
  cases hf : issueFault info s with
  | some t => exact .inl ⟨t, rfl, rfl⟩
  | none =>
    cases hr : issueReady i info s with
    | true => exact .inr (.inl ⟨rfl, rfl, by simp⟩)
    | false => exact .inr (.inr ⟨rfl, rfl, by simp⟩)

/-- A bank-condition branch does the same, and is taken by the tree's result (R179). -/
theorem condBranch_cases (i : Instr) (info : BInfo) (off : BitVec 32) (s : State) :
    (∃ t, issueFault info s = some t ∧ condBranch i info off s = .next (stopTrap s t s.front.pc)) ∨
    (∃ t w, issueNow i info s = (t, some w) ∧ condBranch i info off s = .next (if w = 0 then t else t.setPc (s.front.pc + 8 * off.signExtend 64))) ∨
    (∃ t, issueNow i info s = (t, none) ∧ condBranch i info off s = .next t) ∨
    condBranch i info off s = .next s := by
  unfold condBranch trapHere
  cases hf : issueFault info s with
  | some t => exact .inl ⟨t, rfl, rfl⟩
  | none =>
    cases hr : issueReady i info s with
    | false => exact .inr (.inr (.inr (by simp)))
    | true =>
      rcases h : issueNow i info s with ⟨t, w⟩
      cases w with
      | some w => exact .inr (.inl ⟨t, w, rfl, by simp [takeBranch]⟩)
      | none => exact .inr (.inr (.inl ⟨t, rfl, by simp [takeBranch]⟩))

/-! ### Commands and operations at homes -/

/-- A command traps at itself, waits, or takes a slot and goes on (R233, R236). -/
theorem command_cases (i : Instr) (k : CmdKind) (c : CArgs) (s : State) :
    (∃ t, command i k c s = .next (stopTrap s t s.front.pc)) ∨
    (∃ slot, cmdFault k c s = none ∧ freeSlot s = some slot ∧ cmdReady k c s = true ∧
      command i k c s = .next (startCmd (newCmd i k c slot s) (takeSlot (newCmd i k c slot s) s))) ∨
    command i k c s = .next s := by
  unfold command trapHere
  cases hf : cmdFault k c s with
  | some t => exact .inl ⟨t, rfl⟩
  | none =>
    cases hs : freeSlot s with
    | none => exact .inr (.inr rfl)
    | some slot =>
      dsimp only
      cases hr : cmdReady k c s with
      | false => exact .inr (.inr (by simp))
      | true =>
        by_cases hb : k = .sprog ∧ selectorBad s (newCmd i k c slot s)
        · exact .inl ⟨mkTrap causePlacement 0, by rw [if_pos hb]; rfl⟩
        · exact .inr (.inl ⟨slot, rfl, rfl, rfl, by rw [if_neg hb]; rfl⟩)

/-- An operation at a home ends, and the home looks at those that wait; or it traps, or waits. -/
theorem homeOp_cases (m : M Key) (s : State) :
    (∃ k t, M.exec m s = (.ok k, t) ∧ homeOp m s = .next (wakeBlock (t.waiters.length + 1) k t)) ∨
    (∃ x t, M.exec m s = (.error (.trap x), t) ∧ homeOp m s = .next (stopTrap t x t.front.pc)) ∨
    (∃ x t, (∀ y, x ≠ .trap y) ∧ M.exec m s = (.error x, t) ∧ homeOp m s = .next t) := by
  unfold homeOp
  rcases h : M.exec m s with ⟨r, t⟩
  cases r with
  | ok k => exact .inl ⟨k, t, rfl, rfl⟩
  | error x =>
    cases x with
    | trap y => exact .inr (.inl ⟨y, t, rfl, rfl⟩)
    | wait => exact .inr (.inr ⟨.wait, t, nofun, rfl, rfl⟩)
    | need ps => exact .inr (.inr ⟨.need ps, t, nofun, rfl, rfl⟩)

/-! ### Traps (R387, R389, R392) -/

/-- Everything a trap entry changes: the trap registers, MODE, IE, the pc and the window. -/
theorem enterTrap_eq (s : State) (t : TrapInfo) (tpc : Word) :
    enterTrap s t tpc = { s with front := { s.front with
      csr := { s.front.csr with
        cause := t.cause, int := t.int, tpc := tpc, tisn := s.front.csr.floor, telem := BitVec.ofNat 32 t.elem, taddr := t.addr,
        tinfo := t.tinfo, pmode := s.front.csr.mode, mode := true, pie := s.front.csr.ie, ie := false }
      pc := (0 : BitVec 8) ++ s.front.csr.tvec ++ (0 : BitVec 3), stopWin := true, resumed := false, exempt := false, exemptAt := none
      dbg := landAt s.front.dbg s.floor } } := rfl

@[simp] theorem enterTrap_mem (s : State) (t : TrapInfo) (tpc : Word) : (enterTrap s t tpc).mem = s.mem := rfl
@[simp] theorem enterTrap_rd (s : State) (t : TrapInfo) (tpc : Word) (r : SReg) : (enterTrap s t tpc).rd r = s.rd r := rfl
@[simp] theorem enterTrap_rdW (s : State) (t : TrapInfo) (tpc : Word) (w : WReg) : (enterTrap s t tpc).rdW w = s.rdW w := rfl

/-- Everything a return changes. -/
theorem leaveTrap_eq (rq : Bool) (s : State) :
    leaveTrap rq s = { s with front := { s.front with
      csr := { s.front.csr with mode := s.front.csr.pmode, ie := s.front.csr.pie }
      pc := s.front.csr.tpc, icache := [], stopWin := false, exempt := !rq, dbg := landAt s.front.dbg s.floor } } := rfl

/-- A cause goes to the handler, or ends a stream that has none. -/
theorem deliver_handled {s : State} (h : s.front.csr.tvec ≠ 0) (t : TrapInfo) (tpc : Word) : deliver s t tpc = enterTrap s t tpc := by
  unfold deliver
  rw [if_neg h]

theorem deliver_ends {s : State} (h : s.front.csr.tvec = 0) (t : TrapInfo) (tpc : Word) : deliver s t tpc = endStream s t tpc := by
  unfold deliver
  rw [if_pos h]

/-! ### Streams -/

/-- Work for the stream whose turn it is is done in place. -/
theorem onStream_front {s : State} {sid : BitVec 16} (h : s.front.status ≠ .idle) (hs : s.front.sid = sid) (f : State → State) :
    s.onStream sid f = f s := by simp [State.onStream, h, hs]

/-- What does not look at the streams and is kept by the work is kept. -/
theorem onStream_keeps {P : State → Prop} (hP : ∀ s f fs, P s → P { s with front := f, fronts := fs }) {f : State → State}
    (hf : ∀ s, P s → P (f s)) (s : State) (sid : BitVec 16) (hs : P s) : P (s.onStream sid f) := by
  unfold State.onStream
  split
  · exact hf s hs
  · split
    · exact hs
    · rename_i fr _
      have h1 := hf _ (hP s fr (s.front :: s.fronts.filter (fun g => !(g.sid == sid && g.status != .idle))) hs)
      dsimp only
      split
      · exact hP _ _ _ h1
      · exact h1

/-! ### Porvex -/

/-- Posted writes to host memory change memory and what a `wfe` watches alone. -/
theorem hostPut_eq (s : State) (a n v : Nat) : ∃ m w, s.hostPut a n v = { s with mem := m, monitors := w } := by
  unfold State.hostPut State.write State.noted State.notedIn
  split <;> exact ⟨_, _, rfl⟩

theorem hostPuts_eq (a : Nat) (ps : List Nat) (l : List Nat) (s : State) :
    ∃ m w, l.foldl (fun s i => s.hostPut (a + 8 + 8 * i) 8 (ps.getD i 0)) s = { s with mem := m, monitors := w } := by
  induction l generalizing s with
  | nil => exact ⟨s.mem, s.monitors, rfl⟩
  | cons i l ih =>
    obtain ⟨m, w, h⟩ := hostPut_eq s (a + 8 + 8 * i) 8 (ps.getD i 0)
    obtain ⟨m', w', h'⟩ := ih { s with mem := m, monitors := w }
    exact ⟨m', w', by rw [List.foldl_cons, h, h']⟩

/-- An event record changes memory, what a `wfe` watches, the ring's registers, the signalled vectors and the count of
free values alone. -/
theorem event_eq (s : State) (ty die : Nat) (ps : List Nat) :
    ∃ m w d r v, s.event ty die ps = { s with mem := m, monitors := w, drawn := d, regs := r, msix := v } := by
  dsimp only [State.event]
  split
  · obtain ⟨m, w, h⟩ := hostPut_eq s (s.regs.evBase.toNat + 64 * (s.regs.evHead.toNat % 2 ^ s.regs.evSize.toNat)) 8
      (ty + at_ 8 die + at_ 16 (Config.eventTime s.drawn).toNat)
    rw [h]
    obtain ⟨m', w', h'⟩ := hostPuts_eq (s.regs.evBase.toNat + 64 * (s.regs.evHead.toNat % 2 ^ s.regs.evSize.toNat)) ps (List.range 7)
      { s with mem := m, monitors := w, drawn := s.drawn + 1 }
    erw [h']
    split
    · unfold State.signal
      split <;> exact ⟨_, _, _, _, _, rfl⟩
    · exact ⟨_, _, _, _, _, rfl⟩
  · exact ⟨s.mem, s.monitors, _, _, _, rfl⟩

theorem event_front (s : State) (ty die : Nat) (ps : List Nat) : (s.event ty die ps).front = s.front := by
  obtain ⟨m, w, d, r, v, h⟩ := event_eq s ty die ps
  rw [h]

theorem event_fronts (s : State) (ty die : Nat) (ps : List Nat) : (s.event ty die ps).fronts = s.fronts := by
  obtain ⟨m, w, d, r, v, h⟩ := event_eq s ty die ps
  rw [h]

/-- With the ring off or full, memory stays. -/
theorem event_lost {s : State} (h : s.regs.evEn = false ∨ 2 ^ s.regs.evSize.toNat ≤ (s.regs.evHead - s.regs.evTail).toNat) (ty die : Nat)
    (ps : List Nat) : (s.event ty die ps).mem = s.mem := by
  dsimp only [State.event]
  split
  · rename_i hc
    simp only [Bool.and_eq_true, decide_eq_true_eq] at hc
    rcases h with h | h
    · rw [h] at hc; cases hc.1
    · omega
  · rfl

/-! ### Steps -/

/-- The oldest event is taken before anything else. -/
theorem step_event {s : State} {e : Instr} {r : List Instr} (h : s.inbox = e :: r) : step s = takeEvent e { s with inbox := r } := by
  simp [step, h]

/-- With no event and nothing for the distributor, the stream whose turn it is runs. -/
theorem step_turn {s : State} (h : s.inbox = []) (hd : distributor s = none) (hr : mayRun s = true) : step s = passTurn (frontTurn s) := by
  simp [step, h, hd, hr]

theorem step_distributor {s t : State} (h : s.inbox = []) (hd : distributor s = some t) : step s = .next t := by simp [step, h, hd]

end Sys2Proof.Machine
end

