-- ==== Sys2Proof/Tests/Slice0.lean ====
section
/-! SUPPORT. Tests of the model: terms that are no instructions, words written out from the encoding tables, and for
each statement for the provers a state and operands that meet its hypotheses. -/

namespace Sys2Proof.Tests

open Sys2Proof Sys2Proof.Machine Sys2Proof.Safety

set_option Elab.async false

/-! ### Terms that are no instructions -/

/-- A vector word's operands in a format, everything else zero. -/
def vec (f : Fmt) : VArgs :=
  { fmt := f, sb := false, wd := 1, wa := 2, wb := 0, wc := 0, wm := 0, rm := .rne, sat := false, amod := .none, fill := false, gsz := 7, imm := 0 }

/-- The same with window operand B. -/
def vecB (f : Fmt) : VArgs := { vec f with wb := 3 }

/-- A command's operands. -/
def cmdArgs : CArgs := { st := 5, wd := 1, ws := 2, wx := 0, sc := .domain, follow := 0, mcast := 0, imm := 0 }

/-- An atomic's operands. -/
def atomArgs (w : Width) : AtomArgs := { sg := true, ord := .plain, sc := .domain, w := w, sd := 5, sa := 2, sb := 3, off := 0 }

/-- A die that answers nothing. -/
def silence : SpdmReply := { version := none, caps := none, algs := none, cert := none, challenge := none, meas := none, psk := none }

/-- Formats, scalar operands, modifiers, rounding, saturation and unused fields of vector words (R56, R208, R222). -/
theorem test_illFormed_vector : ∀ l ∈ ([[
    .vadd (vecB .q4), .vmul (vecB .wf96), .vfma (vecB .bit), .vmin (vecB .e4m3), .vabs (vec .n8), .vrcp (vec .i32), .vand (vecB .f32),
    .vnot (vec .f16), .vsll (vecB .bit), .vceq (vecB .e8m0), .vsel (vecB .q3), .vmov (vec .e2m1)], [
    .viota (vec .f32), .vredAdd (vec .wf96), .vredMax (vec .bit), .vscanAdd (vec .bit), .vgather (vec .bit), .vcompact (vec .q4),
    .lanex (vec .n64), .vacc (vec .f32), .vamoAdd (vecB .n8) .plain .domain, .mload .f32 1 false 0, .mload .q4 1 false 1,
    .mma { fmt := .i8, wd := 1, wa := 2, wb := 0, pair := false, wm := 0, rm := .rne, kb := 1 }], [
    .vadd { vec .wf96 with sb := true }, .vneg { vec .f32 with sb := true }, .vadd { vecB .i8 with gsz := 3 }, .vadd { vecB .i8 with fill := true },
    .vadd { vecB .i8 with amod := .rotate, gsz := 1, imm := 8 }, .vadd { vecB .i8 with amod := .bcast, gsz := 1, imm := 8 },
    .vadd { vecB .i8 with amod := .reverse, imm := 1 }, .vredAdd { vec .i8 with amod := .shift, imm := 1 }, .viota { vec .i8 with amod := .reverse }], [
    .vadd { vecB .i8 with rm := .rtz }, .vmin { vecB .f32 with rm := .rtz }, .vand { vecB .i8 with sat := true }, .vadd { vecB .i8 with wc := 1 },
    .vabs { vec .i8 with wb := 1 }, .vadd { vecB .i8 with imm := 1 }, .viota { vec .i8 with wa := 1 }], [
    .vfill { vec .i8 with sb := true, imm := 1 }, .vfill { vec .i8 with wb := 1 }, .vfill { vec .e8m0 with wa := 0, imm := 0x100 },
    .vfill { vec .bit with wa := 0, imm := 2 }, .vcvt .f32 (vec .f32), .vcvt .q4 (vec .q3), .vcvt .i8 { vec .n8 with rm := .rtz },
    .vacc { vec .wf96 with amod := .shift, imm := 1 }, .vamoAdd { vecB .i32 with amod := .bcast } .plain .domain]] : List (List Instr)), ∀ i ∈ l, i.wellFormed = false := by decide +kernel

/-- The checks of every other instruction (R54, R62, R64, R66, R234, R346) and of events' numbers. -/
theorem test_illFormed_other : ∀ l ∈ ([[
    .ld true .rel .domain .w64 1 2 0, .st .acq .domain .w64 1 2 0, .scas (atomArgs .w16), .samoAdd (atomArgs .w8), .csrr 1 0x008, .csrw 1 2 0x005,
    .csrs 1 2 0x091, .csrc 1 2 0x021, .rflush .stream, .rflush .bank, .cpy { cmdArgs with follow := 8 }, .cpy { cmdArgs with follow := 4 }], [
    .cpy { cmdArgs with wx := 1 }, .cpyt { cmdArgs with imm := 0 }, .cpyg { cmdArgs with imm := 0x21 }, .cpys { cmdArgs with follow := 1, imm := 1 },
    .cpyf { cmdArgs with imm := 1 }, .cpym { cmdArgs with mcast := 0x41 }, .cpym { cmdArgs with mcast := 1 }, .sprog { cmdArgs with imm := 0x200, wd := 0 },
    .sprog { cmdArgs with wd := 1 }, .srun { cmdArgs with mcast := 1 }, .chase { cmdArgs with imm := 0x400 }], [
    .gbar 1 2 .stream 0, .qpush 1 2 3 .pod, .qpop 1 2 3 .cell, .qdrainWait 1 2 .system, .qdrainDiscard 1 2 .die, .tlbinv 1 2 3 .pod,
    .pmig 1 2 3 .domain, .trap 0x40000000, .bankRetire 1 9216, .dieReset 26, .throttle 26 0 (0, 0), .attestation 31 silence.toSpdmOffer silence.toSpdmProof]] : List (List Instr)), ∀ i ∈ l, i.wellFormed = false := by decide +kernel

/-! ### Words written out from the encoding tables (R43 to R68) -/

/-- Words of R46, R146, R147. -/
theorem test_decode_alu : ∀ l ∈ ([[
    (0x02114100FFFFFFFF, .add .w64 5 1 (.imm 4294967295)),
    (0x0022083500000000, .sub_ .w32 8 8 (.reg 13)),
    (0x0232CF02FFFFFFFD, .mul .w16 11 15 (.imm 4294967293)),
    (0x0043968F00000000, .mulh .w8 14 22 (.reg 35)),
    (0x02545D00FFFFFFFB, .mulhn .w64 17 29 (.imm 4294967291)),
    (0x006524E500000000, .div .w32 20 36 (.reg 57)),
    (0x0275EB02FFFFFFF9, .divn .w16 23 43 (.imm 4294967289)),
    (0x0086B23F00000000, .rem .w8 26 50 (.reg 15))], [
    (0x02977900FFFFFFF7, .remn .w64 29 57 (.imm 4294967287)),
    (0x00A8009500000000, .and_ .w32 32 0 (.reg 37)),
    (0x02B8C702FFFFFFF5, .or_ .w16 35 7 (.imm 4294967285)),
    (0x00C98EEF00000000, .xor_ .w8 38 14 (.reg 59)),
    (0x02DA5500FFFFFFF3, .andn .w64 41 21 (.imm 4294967283)),
    (0x00EB1C4500000000, .sll .w32 44 28 (.reg 17)),
    (0x02FBE302FFFFFFF1, .srl .w16 47 35 (.imm 4294967281)),
    (0x010CAA9F00000000, .sra .w8 50 42 (.reg 39))], [
    (0x031D7100FFFFFFEF, .slt .w64 53 49 (.imm 4294967279)),
    (0x012E38F500000000, .sltn .w32 56 56 (.reg 61)),
    (0x033EFF02FFFFFFED, .min_ .w16 59 63 (.imm 4294967277)),
    (0x014F864F00000000, .max_ .w8 62 6 (.reg 19)),
    (0x03504D00FFFFFFEB, .minn .w64 1 13 (.imm 4294967275)),
    (0x016114A500000000, .maxn .w32 4 20 (.reg 41)),
    (0x0172540000000000, .clz .w64 9 20),
    (0x0182950100000000, .ctz .w32 10 21)], [
    (0x0192D60200000000, .popc .w16 11 22),
    (0x01A3170300000000, .sext .w8 12 23),
    (0x01B3580000000000, .zext .w64 13 24)]] : List (List (Word × Instr))), ∀ p ∈ l,
    decode p.1 0 = .ok p.2 := by decide +kernel

/-- Words of R47, R153 to R157. -/
theorem test_decode_control : ∀ l ∈ ([[
    (0x08000444FFFFFFFE, .beq 4 17 4294967294),
    (0x08100548FFFFFFFD, .bne 5 18 4294967293),
    (0x0820064CFFFFFFFC, .blt 6 19 4294967292),
    (0x08300750FFFFFFFB, .bge 7 20 4294967291),
    (0x08400854FFFFFFFA, .bltn 8 21 4294967290),
    (0x08500958FFFFFFF9, .bgen 9 22 4294967289),
    (0x0C0FC00000000005, .jal 63 5),
    (0x0C1FE10080000008, .jalr 63 33 0x80000008)], [
    (0x0C20000004030201, .wait 0x04030201),
    (0x0C30000000000000, .halt),
    (0x0C40000000000000, .nop),
    (0x0C81400000000006, .csrr 5 0x6),
    (0x0C91460000000040, .csrw 5 6 0x40),
    (0x0CA1460000000042, .csrs 5 6 0x42),
    (0x0CB1460000000060, .csrc 5 6 0x60)]] : List (List (Word × Instr))), ∀ p ∈ l,
    decode p.1 0 = .ok p.2 := by decide +kernel

/-- Words of R48, R149, R151. -/
theorem test_decode_memory : ∀ l ∈ ([[
    (0x12B1020100000010, .ld true .acq .die .w32 4 2 16),
    (0x15700227FFFFFFF8, .st .rel .system .w8 9 2 4294967288),
    (0x18329EC800000000, .scas { sg := false, ord := .plain, sc := .die, w := .w64, sd := 10, sa := 30, sb := 50, off := 0 }),
    (0x1EC2DFCD00000004, .samoAdd { sg := true, ord := .acq, sc := .domain, w := .w32, sd := 11, sa := 31, sb := 51, off := 4 }),
    (0x215320D000000008, .samoAnd { sg := false, ord := .rel, sc := .module, w := .w64, sd := 12, sa := 32, sb := 52, off := 8 }),
    (0x266361D50000000C, .samoOr { sg := true, ord := .plain, sc := .pod, w := .w32, sd := 13, sa := 33, sb := 53, off := 12 }),
    (0x28F3A2D800000010, .samoXor { sg := false, ord := .acq, sc := .system, w := .w64, sd := 14, sa := 34, sb := 54, off := 16 }),
    (0x2F03E3DD00000014, .samoMin { sg := true, ord := .rel, sc := .stream, w := .w32, sd := 15, sa := 35, sb := 55, off := 20 })], [
    (0x301424E000000018, .samoMax { sg := false, ord := .plain, sc := .bank, w := .w64, sd := 16, sa := 36, sb := 56, off := 24 }),
    (0x36A465E50000001C, .samoMinn { sg := true, ord := .acq, sc := .cell, w := .w32, sd := 17, sa := 37, sb := 57, off := 28 }),
    (0x3934A6E800000020, .samoMaxn { sg := false, ord := .rel, sc := .die, w := .w64, sd := 18, sa := 38, sb := 58, off := 32 }),
    (0x3E44E7ED00000024, .samoSwap { sg := true, ord := .plain, sc := .domain, w := .w32, sd := 19, sa := 39, sb := 59, off := 36 })]] : List (List (Word × Instr))), ∀ p ∈ l,
    decode p.1 0 = .ok p.2 := by decide +kernel

/-- Words of R52, R159 to R180. -/
theorem test_decode_windows : ∀ l ∈ ([[
    (0x4000E8A400000000, .wset 3 40 41),
    (0x401A870000000001, .wget 42 7 true),
    (0x40225F0000000000, .wcpy 9 31),
    (0x4031050000000209, .setvl 4 5 .f16 .b32),
    (0x40400414FFFFFFF7, .strip 4 5 4294967287),
    (0x4080060000000003, .bany 6 3),
    (0x4090070000000002, .ball 7 2),
    (0x40A0080000000001, .bnone 8 1)], [
    (0x440209000000000D, .ownq 8 9 13)]] : List (List (Word × Instr))), ∀ p ∈ l,
    decode p.1 0 = .ok p.2 := by decide +kernel

/-- Words of R49, R55, R56, R208. -/
theorem test_decode_vector : ∀ l ∈ ([[
    (0x4821844000170001, .vadd { fmt := .i32, sb := false, wd := 3, wa := 1, wb := 2, wc := 0, wm := 0, rm := .rne, sat := false, amod := .shift, fill := false, gsz := 7, imm := 1 }),
    (0x4C8214C03B870000, .vsub { fmt := .f32, sb := false, wd := 4, wa := 5, wb := 6, wc := 0, wm := 7, rm := .rup, sat := true, amod := .none, fill := false, gsz := 7, imm := 0 }),
    (0x52A427E005070000, .vmul { fmt := .bf16, sb := true, wd := 8, wa := 9, wb := 31, wc := 0, wm := 0, rm := .rsr, sat := false, amod := .none, fill := false, gsz := 7, imm := 0 }),
    (0x549088642E070000, .vfma { fmt := .f16, sb := false, wd := 1, wa := 2, wb := 3, wc := 4, wm := 5, rm := .dyn, sat := false, amod := .none, fill := false, gsz := 7, imm := 0 }),
    (0x5845B1AE00870000, .vfms { fmt := .n8, sb := false, wd := 11, wa := 12, wb := 13, wc := 14, wm := 0, rm := .rne, sat := true, amod := .none, fill := false, gsz := 7, imm := 0 }),
    (0x5C3ADAF800070000, .vfnma { fmt := .i64, sb := false, wd := 21, wa := 22, wb := 23, wc := 24, wm := 0, rm := .rne, sat := false, amod := .none, fill := false, gsz := 7, imm := 0 }),
    (0x6050886000210007, .vmin { fmt := .n16, sb := false, wd := 1, wa := 2, wb := 3, wc := 0, wm := 0, rm := .rne, sat := false, amod := .rotate, fill := false, gsz := 1, imm := 7 }),
    (0x648214C000380003, .vmax { fmt := .f32, sb := false, wd := 4, wa := 5, wb := 6, wc := 0, wm := 0, rm := .rne, sat := false, amod := .bcast, fill := true, gsz := 0, imm := 3 })], [
    (0x6880A80000070000, .vabs { fmt := .f32, sb := false, wd := 1, wa := 10, wb := 0, wc := 0, wm := 0, rm := .rne, sat := false, amod := .none, fill := false, gsz := 7, imm := 0 }),
    (0x68812C0100070000, .vneg { fmt := .f32, sb := false, wd := 2, wa := 11, wb := 0, wc := 0, wm := 0, rm := .rne, sat := false, amod := .none, fill := false, gsz := 7, imm := 0 }),
    (0x6881B00201070000, .vrcp { fmt := .f32, sb := false, wd := 3, wa := 12, wb := 0, wc := 0, wm := 0, rm := .rtz, sat := false, amod := .none, fill := false, gsz := 7, imm := 0 }),
    (0x6882340302070000, .vrsq { fmt := .f32, sb := false, wd := 4, wa := 13, wb := 0, wc := 0, wm := 0, rm := .rdn, sat := false, amod := .none, fill := false, gsz := 7, imm := 0 }),
    (0x6882B80403070000, .vexp2 { fmt := .f32, sb := false, wd := 5, wa := 14, wb := 0, wc := 0, wm := 0, rm := .rup, sat := false, amod := .none, fill := false, gsz := 7, imm := 0 }),
    (0x68833C0504070000, .vlog2 { fmt := .f32, sb := false, wd := 6, wa := 15, wb := 0, wc := 0, wm := 0, rm := .rna, sat := false, amod := .none, fill := false, gsz := 7, imm := 0 }),
    (0x6C70AA8000070000, .vand { fmt := .n64, sb := false, wd := 1, wa := 10, wb := 20, wc := 0, wm := 0, rm := .rne, sat := false, amod := .none, fill := false, gsz := 7, imm := 0 }),
    (0x6E712EA100070000, .vor { fmt := .n64, sb := true, wd := 2, wa := 11, wb := 21, wc := 0, wm := 0, rm := .rne, sat := false, amod := .none, fill := false, gsz := 7, imm := 0 })], [
    (0x6C71B2C200070000, .vxor { fmt := .n64, sb := false, wd := 3, wa := 12, wb := 22, wc := 0, wm := 0, rm := .rne, sat := false, amod := .none, fill := false, gsz := 7, imm := 0 }),
    (0x6D22140300420000, .vnot { fmt := .bit, sb := false, wd := 4, wa := 5, wb := 0, wc := 0, wm := 0, rm := .rne, sat := false, amod := .reverse, fill := false, gsz := 2, imm := 0 }),
    (0x7010AA8000070000, .vsll { fmt := .i16, sb := false, wd := 1, wa := 10, wb := 20, wc := 0, wm := 0, rm := .rne, sat := false, amod := .none, fill := false, gsz := 7, imm := 0 }),
    (0x70112EA100070000, .vsrl { fmt := .i16, sb := false, wd := 2, wa := 11, wb := 21, wc := 0, wm := 0, rm := .rne, sat := false, amod := .none, fill := false, gsz := 7, imm := 0 }),
    (0x7011B2C200070000, .vsra { fmt := .i16, sb := false, wd := 3, wa := 12, wb := 22, wc := 0, wm := 0, rm := .rne, sat := false, amod := .none, fill := false, gsz := 7, imm := 0 }),
    (0x7490AA8000070000, .vceq { fmt := .f16, sb := false, wd := 1, wa := 10, wb := 20, wc := 0, wm := 0, rm := .rne, sat := false, amod := .none, fill := false, gsz := 7, imm := 0 }),
    (0x74912EA108070000, .vcne { fmt := .f16, sb := false, wd := 2, wa := 11, wb := 21, wc := 0, wm := 1, rm := .rne, sat := false, amod := .none, fill := false, gsz := 7, imm := 0 }),
    (0x7491B2C210070000, .vclt { fmt := .f16, sb := false, wd := 3, wa := 12, wb := 22, wc := 0, wm := 2, rm := .rne, sat := false, amod := .none, fill := false, gsz := 7, imm := 0 })], [
    (0x749236E318070000, .vcle { fmt := .f16, sb := false, wd := 4, wa := 13, wb := 23, wc := 0, wm := 3, rm := .rne, sat := false, amod := .none, fill := false, gsz := 7, imm := 0 }),
    (0x7910886400070000, .vsel { fmt := .wf96, sb := false, wd := 1, wa := 2, wb := 3, wc := 4, wm := 0, rm := .rne, sat := false, amod := .none, fill := false, gsz := 7, imm := 0 })]] : List (List (Word × Instr))), ∀ p ∈ l,
    decode p.1 0 = .ok p.2 := by decide +kernel

/-- Words of R49, R208, R222. -/
theorem test_decode_vmoves : ∀ l ∈ ([[
    (0x7CB31C0801870000, .vcvt .f32 { fmt := .e4m3, sb := false, wd := 6, wa := 7, wb := 0, wc := 0, wm := 0, rm := .rtz, sat := true, amod := .none, fill := false, gsz := 7, imm := 0 }),
    (0x80E0880000070000, .vmov { fmt := .e8m0, sb := false, wd := 1, wa := 2, wb := 0, wc := 0, wm := 0, rm := .rne, sat := false, amod := .none, fill := false, gsz := 7, imm := 0 }),
    (0x840180000007FFF0, .vfill { fmt := .i8, sb := false, wd := 3, wa := 0, wb := 0, wc := 0, wm := 0, rm := .rne, sat := false, amod := .none, fill := false, gsz := 7, imm := 65520 }),
    (0x8861800000878000, .viota { fmt := .n32, sb := false, wd := 3, wa := 0, wb := 0, wc := 0, wm := 0, rm := .rne, sat := true, amod := .none, fill := false, gsz := 7, imm := 32768 }),
    (0x8C8A040002070000, .vredAdd { fmt := .f32, sb := false, wd := 20, wa := 1, wb := 0, wc := 0, wm := 0, rm := .rdn, sat := false, amod := .none, fill := false, gsz := 7, imm := 0 }),
    (0x8C8A880100070000, .vredMax { fmt := .f32, sb := false, wd := 21, wa := 2, wb := 0, wc := 0, wm := 0, rm := .rne, sat := false, amod := .none, fill := false, gsz := 7, imm := 0 }),
    (0x8C8B0C0200070000, .vredMin { fmt := .f32, sb := false, wd := 22, wa := 3, wb := 0, wc := 0, wm := 0, rm := .rne, sat := false, amod := .none, fill := false, gsz := 7, imm := 0 }),
    (0x9022040048070000, .vscanAdd { fmt := .i32, sb := false, wd := 4, wa := 1, wb := 0, wc := 0, wm := 9, rm := .rne, sat := false, amod := .none, fill := false, gsz := 7, imm := 0 })], [
    (0x9022880148070000, .vscanMax { fmt := .i32, sb := false, wd := 5, wa := 2, wb := 0, wc := 0, wm := 9, rm := .rne, sat := false, amod := .none, fill := false, gsz := 7, imm := 0 }),
    (0x90230C0248070000, .vscanMin { fmt := .i32, sb := false, wd := 6, wa := 3, wb := 0, wc := 0, wm := 9, rm := .rne, sat := false, amod := .none, fill := false, gsz := 7, imm := 0 }),
    (0x94A2240000070000, .vgather { fmt := .bf16, sb := false, wd := 4, wa := 9, wb := 0, wc := 0, wm := 0, rm := .rne, sat := false, amod := .none, fill := false, gsz := 7, imm := 0 }),
    (0x98C4900000070000, .vscatter { fmt := .e5m2, sb := false, wd := 9, wa := 4, wb := 0, wc := 0, wm := 0, rm := .rne, sat := false, amod := .none, fill := false, gsz := 7, imm := 0 }),
    (0x9C40880300070000, .vcompact { fmt := .n8, sb := false, wd := 1, wa := 2, wb := 0, wc := 3, wm := 0, rm := .rne, sat := false, amod := .none, fill := false, gsz := 7, imm := 0 }),
    (0xA041880100070000, .vexpand { fmt := .n8, sb := false, wd := 3, wa := 2, wb := 0, wc := 1, wm := 0, rm := .rne, sat := false, amod := .none, fill := false, gsz := 7, imm := 0 }),
    (0xA461880000070000, .lanex { fmt := .n32, sb := false, wd := 3, wa := 2, wb := 0, wc := 0, wm := 0, rm := .rne, sat := false, amod := .none, fill := false, gsz := 7, imm := 0 })]] : List (List (Word × Instr))), ∀ p ∈ l,
    decode p.1 0 = .ok p.2 := by decide +kernel

/-- Words of R50, R62, R63. -/
theorem test_decode_matrix : ∀ l ∈ ([[
    (0xC0F000B000008002, .mload .q4 5 true 0x8002),
    (0xC400001000000000, .mswap true),
    (0xC8C0887025001234, .mma { fmt := .e5m2, wd := 1, wa := 2, wb := 3, pair := true, wm := 4, rm := .rsr, kb := 0x1234 }),
    (0xCC00001000000000, .mrecast true false),
    (0xD000000000000001, .minval false true),
    (0xE000070000000000, .adecl 7),
    (0xE010080000000000, .amerge 8),
    (0xE020000300000000, .rflush .pod)], [
    (0xE511900028070000, .vacc { fmt := .wf96, sb := false, wd := 3, wa := 4, wb := 0, wc := 0, wm := 5, rm := .rne, sat := false, amod := .none, fill := false, gsz := 7, imm := 0 }),
    (0xE820AEA000070000, .vamoAdd { fmt := .i32, sb := false, wd := 1, wa := 11, wb := 21, wc := 0, wm := 0, rm := .rne, sat := false, amod := .none, fill := false, gsz := 7, imm := 0 } .plain .stream),
    (0xE83132C108070005, .vamoAnd { fmt := .i64, sb := false, wd := 2, wa := 12, wb := 22, wc := 0, wm := 1, rm := .rne, sat := false, amod := .none, fill := false, gsz := 7, imm := 0 } .acq .bank),
    (0xE861B6E21007000A, .vamoOr { fmt := .n32, sb := false, wd := 3, wa := 13, wb := 23, wc := 0, wm := 2, rm := .rne, sat := false, amod := .none, fill := false, gsz := 7, imm := 0 } .rel .cell),
    (0xE8723B031807000C, .vamoXor { fmt := .n64, sb := false, wd := 4, wa := 14, wb := 24, wc := 0, wm := 3, rm := .rne, sat := false, amod := .none, fill := false, gsz := 7, imm := 0 } .plain .die),
    (0xE822BF2420070011, .vamoMin { fmt := .i32, sb := false, wd := 5, wa := 15, wb := 25, wc := 0, wm := 4, rm := .rne, sat := false, amod := .none, fill := false, gsz := 7, imm := 0 } .acq .domain),
    (0xE833434528070016, .vamoMax { fmt := .i64, sb := false, wd := 6, wa := 16, wb := 26, wc := 0, wm := 5, rm := .rne, sat := false, amod := .none, fill := false, gsz := 7, imm := 0 } .rel .module),
    (0xE863C76630070018, .vamoMinn { fmt := .n32, sb := false, wd := 7, wa := 17, wb := 27, wc := 0, wm := 6, rm := .rne, sat := false, amod := .none, fill := false, gsz := 7, imm := 0 } .plain .pod)], [
    (0xE8744B873807001D, .vamoMaxn { fmt := .n64, sb := false, wd := 8, wa := 18, wb := 28, wc := 0, wm := 7, rm := .rne, sat := false, amod := .none, fill := false, gsz := 7, imm := 0 } .acq .system),
    (0xE824CFA840070002, .vamoSwap { fmt := .i32, sb := false, wd := 9, wa := 19, wb := 29, wc := 0, wm := 8, rm := .rne, sat := false, amod := .none, fill := false, gsz := 7, imm := 0 } .rel .stream)]] : List (List (Word × Instr))), ∀ p ∈ l,
    decode p.1 0 = .ok p.2 := by decide +kernel

/-- Words of R51, R64. -/
theorem test_decode_copies : ∀ l ∈ ([[
    (0xF00FC22049000000, .cpy { st := 63, wd := 1, ws := 2, wx := 0, sc := .domain, follow := 9, mcast := 0, imm := 0 }),
    (0xF0114642D2000006, .cpyt { st := 5, wd := 3, ws := 4, wx := 5, sc := .module, follow := 2, mcast := 0, imm := 6 }),
    (0xF0218E848000000A, .cpyg { st := 6, wd := 7, ws := 8, wx := 9, sc := .stream, follow := 0, mcast := 0, imm := 10 }),
    (0xF031D6C6F000001F, .cpys { st := 7, wd := 11, ws := 12, wx := 13, sc := .system, follow := 0, mcast := 0, imm := 31 }),
    (0xF0421CF000000000, .cpyf { st := 8, wd := 14, ws := 15, wx := 0, sc := .stream, follow := 0, mcast := 0, imm := 0 }),
    (0xF0526110033EFFFF, .cpym { st := 9, wd := 16, ws := 17, wx := 0, sc := .stream, follow := 3, mcast := 62, imm := 65535 }),
    (0xF0828129800001FF, .sprog { st := 10, wd := 0, ws := 18, wx := 19, sc := .stream, follow := 0, mcast := 0, imm := 511 }),
    (0xF092E95B0000ABCD, .srun { st := 11, wd := 20, ws := 21, wx := 22, sc := .stream, follow := 0, mcast := 0, imm := 43981 })], [
    (0xF0A32F80000003FF, .chase { st := 12, wd := 23, ws := 24, wx := 0, sc := .stream, follow := 0, mcast := 0, imm := 1023 })]] : List (List (Word × Instr))), ∀ p ∈ l,
    decode p.1 0 = .ok p.2 := by decide +kernel

/-- Words of R58, R59. -/
theorem test_decode_sync : ∀ l ∈ ([[
    (0xF400000180000000, .fence .die),
    (0xF41042027FFFFFFF, .srel 1 2 .domain 2147483647),
    (0xF420420E80000000, .sacq 1 2 3 .module),
    (0xF4404200000003FF, .gjoin 1 2 0x3ff),
    (0xF450C40000000005, .gleave 3 4 5),
    (0xF461460280000007, .gbar 5 6 .module 7),
    (0xF480420E00000000, .qpush 1 2 3 .domain),
    (0xF491051A80000000, .qpop 4 5 6 .module)], [
    (0xF4A1C80200000000, .qdrainWait 7 8 .domain),
    (0xF4A1C80280000001, .qdrainDiscard 7 8 .module)]] : List (List (Word × Instr))), ∀ p ∈ l,
    decode p.1 0 = .ok p.2 := by decide +kernel

/-- Words of R52, R58, R65. -/
theorem test_decode_system : ∀ l ∈ ([[
    (0xF80000003FFFFFFF, .trap 0x3fffffff),
    (0xF810000000000001, .eret true),
    (0xF820420000000000, .wfeWait 1 2),
    (0xF820400000000001, .wfeYield 1 0),
    (0xF840420C00000000, .wsave 1 2 3),
    (0xF851051800000000, .wrest 4 5 6),
    (0xF860420000000000, .isave 1 2),
    (0xF870C40000000000, .irest 3 4)], [
    (0xF880420E80000000, .tlbinv 1 2 3 .module),
    (0xF890420000000000, .tlbprb 1 2),
    (0xF8A0420F00000000, .pmig 1 2 3 .pod),
    (0xF8C0420000000000, .logctlStatus 1 2),
    (0xF8C0420000000001, .logctlPolicy 1 2),
    (0xF8C0420000000002, .logctlBudget 1 2),
    (0xF8D042007FFFFFFB, .logmark 1 2 2147483643),
    (0xF8E0400000000000, .logsync 1)]] : List (List (Word × Instr))), ∀ p ∈ l,
    decode p.1 0 = .ok p.2 := by decide +kernel

/-- `ldk` takes the word after it (R45); the pc moves past both. -/
theorem test_decode_ldk : decode 0x040B800000000000 0x123456789ABCDEF0 = .ok (.ldk 46 0x123456789ABCDEF0) := by decide +kernel

/-- Words that are no instruction, with the reason of R68: an unassigned major, a reserved field, a rounding code 7, a
modifier 5, a format that the instruction does not take. -/
theorem test_decode_refuses : ∀ p ∈ ([(0xFC00000000000000, 1), (0xEC00000000000000, 1), (0, 2), (0x0C40000000000001, 3),
    (0x4821844007170001, 4), (0x4821844000570001, 5), (0x4931844000170001, 5)] : List (Word × Nat)), decode p.1 0 = .illegal p.2 := by decide +kernel

/-! ### States that meet the hypotheses of the statements -/

/-- A module whose running stream is about to fetch the word `w`. -/
def at_word (w : Nat) : State := State.reset.withFetchWord 64 w

/-- The same before a `nop`; its stream has the page at 0, readable, writable and executable. -/
def s0 : State := at_word 0x0C40000000000000

/-- In supervisor mode, and with a handler at 0x2000. -/
def sup (s : State) : State := s.mapCsr (fun c => { c with mode := true })
def handled (s : State) : State := s.mapCsr (fun c => { c with tvec := 0x400 })

/-- With another front. -/
def withFront (s : State) (f : Front → Front) : State := { s with front := f s.front }

/-- The state an outcome goes on with. -/
def goes (o : Out) : Option State :=
  match o with
  | .next t => some t
  | _ => none

theorem goes_next (o : Out) (t : State) (h : goes o = some t) : o = .next t := by
  unfold goes at h
  split at h
  · cases h; rfl
  · cases h

/-- What a computation gives, or `d` where it stops; and the state it leaves. -/
def got {α : Type} (m : M α) (s : State) (d : α) : α :=
  match (M.exec m s).1 with
  | .ok x => x
  | .error _ => d

def left {α : Type} (m : M α) (s : State) : State := (M.exec m s).2

/-- Whether it answers. -/
def answers {α : Type} (m : M α) (s : State) : Bool :=
  match (M.exec m s).1 with
  | .ok _ => true
  | .error _ => false

theorem exec_got {α : Type} (m : M α) (s : State) (d : α) (h : answers m s = true) : M.exec m s = (.ok (got m s d), left m s) := by
  unfold answers at h
  unfold got left
  split at h
  · rename_i x hx
    exact Prod.ext hx rfl
  · cases h

/-- What stops a computation. -/
def stops {α : Type} (m : M α) (s : State) : Option Stop :=
  match (M.exec m s).1 with
  | .ok _ => none
  | .error x => some x

theorem exec_stops {α : Type} (m : M α) (s : State) (x : Stop) (h : stops m s = some x) : M.exec m s = (.error x, left m s) := by
  unfold stops at h
  unfold left
  split at h
  · cases h
  · rename_i y hy
    cases h
    exact Prod.ext hy rfl

def noPlace : Place := { leaf := 0, leafAt := 0, base := 0, bits := 0 }

/-- An access under way. -/
def anAccess (k : AccKind) : Access :=
  { kind := k, va := 64, key := 0x34040, size := 8, data := 5, stamp := 0, pc := 0, done := none, wrote := [], acked := false }

/-- A domain's map over two banks, in turn by sectors. -/
def aMap : OwnMap := { id := 3, origin := 0, gran := 5, stripe := [0, 1] }

/-- With the page at 0x4000 in bank memory, under that map. -/
def b0 : State :=
  withFront { s0 with mem := s0.mem.putNum (smKey 0x31008) 8 (1 + at_ 1 1 + at_ 3 0xF + at_ 16 3) } (fun f => { f with maps := [aMap] })

/-- Owners at their own pace. -/
def ahead (s : State) : State := { s with pace := .runAhead }

/-- Windows of elements of a format at an address, one after the other. -/
def win (f : Fmt) (a : Nat) : Desc := BitVec.ofNat 128 (a + at_ 56 f.code.toNat)

/-- The state an outcome goes on with, or reset. -/
def next (o : Out) : State := (goes o).getD State.reset

/-- With an image area at 0x4000, two pages of stack memory. -/
def i0 : State :=
  let leaf (a : Nat) : Nat := 1 + at_ 1 1 + at_ 3 0xF + at_ 14 1 + at_ 26 (a / 2 ^ 14)
  withFront { s0 with mem := (s0.mem.putNum (smKey 0x31008) 8 (leaf 0x38000)).putNum (smKey 0x31010) 8 (leaf 0x3C000) } (fun f => { f with simg := 0x4000 })

theorem witness_DecodeInvertsEncode : (Instr.qpop 1 2 3 .module).wellFormed = true ∧ isEvent (.qpop 1 2 3 .module) = false := by decide

theorem witness_DecodedWordEncodesBack : decode 0x0C40000000000000 7 = .ok .nop ∧ decode 0x040B800000000000 7 = .ok (.ldk 46 7) := by
  decide +kernel

/-- A fetch at the pc of a state of the tests. -/
theorem fetches (s : State) (va : Nat) (x : Word) (t : State)
    (h1 : answers (xlate (seqAgent s.front) va .exec 0) s = true)
    (h2 : answers (keysM (got (xlate (seqAgent s.front) va .exec 0) s noPlace) va 8 0) (left (xlate (seqAgent s.front) va .exec 0) s) = true)
    (h3 : let s1 := left (xlate (seqAgent s.front) va .exec 0) s
          let m := keysM (got (xlate (seqAgent s.front) va .exec 0) s noPlace) va 8 0
          unreadable (left m s1) (got m s1 []) = false ∧ bytesNat ((left m s1).mem.gets (got m s1 [])) = x.toNat ∧
            cached (left m s1) va = none ∧ t = cacheWord (left m s1) va x) : FetchesAt s va x t :=
  ⟨_, _, _, _, exec_got _ _ noPlace h1, exec_got _ _ [] h2, h3.1, h3.2.1, h3.2.2.1, h3.2.2.2⟩

/-- What a fetch leaves. -/
def fetched (s : State) (va : Nat) (x : Word) : State :=
  let m := xlate (seqAgent s.front) va .exec 0
  let u := left m s
  cacheWord (left (keysM (got m s noPlace) va 8 0) u) va x

theorem witness_StepRunsDecodedInstruction : s0.inbox = [] ∧ distributor s0 = none ∧ mayRun s0 = true ∧ nothingFirst s0 = true ∧
    FetchesAt s0 s0.front.pc.toNat 0x0C40000000000000 (fetched s0 0 0x0C40000000000000) ∧ isLdk 0x0C40000000000000 = false ∧
    decode 0x0C40000000000000 0 = .ok .nop ∧ regsReady (fetched s0 0 0x0C40000000000000) .nop = true := by
  refine ⟨?_, ?_, ?_, ?_, fetches _ _ _ _ ?_ ?_ ?_, ?_, ?_, ?_⟩ <;> decide +kernel

/-- For `ldk`, whose second word is fetched too. -/
theorem witness_StepRunsDecodedInstruction_ldk :
    let s := State.reset.withFetchWord 128 (0x040B800000000000 + 2 ^ 64 * 0xFEDCBA9876543210)
    let t := fetched s 0 0x040B800000000000
    FetchesAt s 0 0x040B800000000000 t ∧ isLdk 0x040B800000000000 = true ∧
    FetchesAt t 8 0xFEDCBA9876543210 (fetched t 8 0xFEDCBA9876543210) ∧
    decode 0x040B800000000000 0xFEDCBA9876543210 = .ok (.ldk 46 0xFEDCBA9876543210) := by
  refine ⟨fetches _ _ _ _ ?_ ?_ ?_, ?_, fetches _ _ _ _ ?_ ?_ ?_, ?_⟩ <;> decide +kernel

/-- With the register it names awaited: the stream waits. -/
theorem witness_StepRunsDecodedInstruction_waits :
    regsReady (withFront s0 (fun f => { f with accesses := [anAccess (.load true 3)] })) (.jalr 1 3 0) = false := by decide +kernel

theorem witness_IllegalWordTakesTrap : (at_word 0).inbox = [] ∧ distributor (at_word 0) = none ∧ mayRun (at_word 0) = true ∧
    nothingFirst (at_word 0) = true ∧ FetchesAt (at_word 0) 0 0 (fetched (at_word 0) 0 0) ∧ isLdk 0 = false ∧ decode 0 0 = .illegal 2 := by
  refine ⟨?_, ?_, ?_, ?_, fetches _ _ _ _ ?_ ?_ ?_, ?_, ?_⟩ <;> decide +kernel

/-- `jalr` to a multiple of 8, which goes on, and to another address, which takes ALIGN. -/
theorem witness_RegisterOnlyFrame : scalarOnly (.jalr 1 0 64) = some (some 1) ∧
    exec (.jalr 1 0 64) s0 = .next ((s0.wr 1 8).goto 64) ∧ (s0.rd 0 + (64 : BitVec 32).signExtend 64).toNat % 8 = 0 := by
  refine ⟨?_, goes_next _ _ ?_, ?_⟩ <;> decide +kernel

theorem witness_BranchesAndJumps : (s0.rd 0 + (64 : BitVec 32).signExtend 64).extractLsb' 0 3 = 0 ∧
    (s0.rd 0 + (0xFFFFFFFC : BitVec 32).signExtend 64).extractLsb' 0 3 ≠ 0 := by decide +kernel

theorem witness_CsrInstructions : s0.front.csr.mode = false ∧ csrSupervisor (0x042 : BitVec 12).toNat = false ∧ (0x042 : BitVec 12) ≠ 0x004 ∧
    (sup s0).front.csr.mode = true ∧ loadsOut s0.front = 0 ∧ loadsOut (sup s0).front = 0 ∧ floorMet s0 = true := by decide +kernel

theorem witness_WaitGoesOnWhenCountsFall : loadsOut s0.front = 0 ∧ storesOut s0.front = 0 ∧ s0.front.cmds.length = 0 ∧ matOut s0 = 0 ∧
    loadsOut (withFront s0 (fun f => { f with accesses := [anAccess (.load true 3)] })).front = 1 := by decide +kernel

theorem witness_HaltRetiresStream : allDone s0 = true ∧ s0.front.decls = [] ∧ myGroups s0.front = [] ∧
    allDone (withFront s0 (fun f => { f with accesses := [anAccess .store] })) = false ∧
    s0.msgs = [] ∧ s0.homeQ = [] ∧ s0.front.logMode = 0 ∧ (∀ l ∈ s0.launches, l.sid0 ≠ s0.front.launch) := by decide +kernel

/-- A window of 8-bit elements at 0x40, and the same with a stride. -/
def bytesAt64 : Desc := 0x40

theorem witness_WindowInstructions : wpresent s0 5 = true ∧
    wpresent (s0.mapCsr (fun c => { c with wpres := 0 })) 5 = false := by decide +kernel

/-- One strip of 16 elements left of 20 and of 16. -/
def strip16 : State := (s0.mapCsr (fun c => { c with vl := 16, vblk := 16 })).wrW 1 bytesAt64

theorem witness_StripAdvances :
    let named (s : State) (k : WReg) : Bool := k != 0 && (s.rd 2).getLsbD k.toNat
    let s := (strip16.wr 2 2).wr 3 20
    (∀ k, named s k = true → wpresent s k = true ∧ (Desc.mode (s.rdW k) = 0 → (Desc.fmt (s.rdW k)).isSome ∧
      16 * (((Desc.fmt (s.rdW k)).map Fmt.bits).getD 0) % 8 = 0)) ∧
    (s.rd 3).toNat - 16 = 4 ∧ (((strip16.wr 2 2).wr 3 16).rd 3).toNat - 16 = 0 := by decide +kernel

theorem witness_OwnqNamesTheOwner : mapOf (withFront s0 (fun f => { f with maps := [aMap] })).front 3 = some aMap ∧ mapOf s0.front 3 = none := by
  decide +kernel

theorem quiet_s0 : Quiet s0 := by unfold Quiet; decide +kernel

/-- An access that passes the checks of R152. -/
theorem reaches (s : State) (va n : Nat) (p : Perm)
    (h : let m := xlate (seqAgent s.front) va p 0
         let u := left m s
         let pl := got m s noPlace
         let ks := (keysOf u pl va n).getD []
         va % n = 0 ∧ answers m s = true ∧ keysOf u pl va n = some ks ∧ ks.Nodup ∧ unreadable u ks = false ∧ raced u.front.race pl = false ∧
           (watchMask s.front.csr.watches va n (p != .write) (p != .read) = 0 ∨ s.front.exempt = true)) :
    ∃ pl ks, Reaches s va n p pl ks (left (xlate (seqAgent s.front) va p 0) s) :=
  ⟨_, _, h.1, exec_got _ _ noPlace h.2.1, h.2.2.1, h.2.2.2.1, h.2.2.2.2.1, h.2.2.2.2.2.1, h.2.2.2.2.2.2⟩

/-- With the page at 0x4000 at an attested peer, whose pair takes no class. -/
def p0 : State :=
  { s0 with
    mem := s0.mem.putNum (smKey 0x31008) 8 (1 + at_ 1 1 + at_ 3 0xF + at_ 14 3 + at_ 20 3), fibres := [{ fibreFresh 0 8 with opn := 0 }]
    regs := { s0.regs with podatt := 8 } }

theorem quiet_p0 : Quiet p0 := by unfold Quiet; decide +kernel

/-- Places of an access, and whether the way to them is open. -/
def opened (s : State) (va n : Nat) (p : Perm) : Bool :=
  let m := xlate (seqAgent s.front) va p 0
  ((keysOf (left m s) (got m s noPlace) va n).getD []).all (fun k => peerOpen (left m s) k 0)

/-- The way is open, as it is to memory of the module; and it is not. -/
theorem witness_PeersOpen : opened s0 0 8 .read = true ∧ opened s0 0x3FFF 1 .write = true ∧ opened s0 64 4 .both = true ∧
    opened p0 0x4000 8 .read = false ∧ opened p0 0x4000 8 .write = false ∧ opened p0 0x4000 8 .both = false ∧
    atomPlaceOk .add (got (xlate (seqAgent p0.front) 0x4000 .both 0) p0 noPlace) = true := by decide +kernel

theorem witness_PeersOpen_reaches : ∀ p : Perm, (p = .read ∨ p = .write ∨ p = .both) →
    ∃ pl ks, Reaches p0 0x4000 8 p pl ks (left (xlate (seqAgent p0.front) 0x4000 p 0) p0) := by
  rintro p (rfl | rfl | rfl) <;> exact reaches _ _ _ _ (by decide +kernel)

theorem witness_LoadsReadMemory : Quiet s0 ∧ (s0.rd 0 + (0 : BitVec 32).signExtend 64).toNat = 0 ∧
    ∃ pl ks, Reaches s0 0 8 .read pl ks (left (xlate (seqAgent s0.front) 0 .read 0) s0) :=
  ⟨quiet_s0, by decide +kernel, reaches _ _ _ _ (by decide +kernel)⟩

/-- Of one byte, at the page's end, and for a release. -/
theorem witness_StoresWriteMemory : Quiet s0 ∧ (s0.rd 0 + (0x3FFF : BitVec 32).signExtend 64).toNat = 0x3FFF ∧
    (∃ pl ks, Reaches s0 0x3FFF 1 .write pl ks (left (xlate (seqAgent s0.front) 0x3FFF .write 0) s0)) ∧
    (let s1 := left (xlate (seqAgent s0.front) 0x3FFF .write 0) s0
     let pl := got (xlate (seqAgent s0.front) 0x3FFF .write 0) s0 noPlace
     let ks := (keysOf s1 pl 0x3FFF 1).getD []
     let s2 := deliverResiduals s1 (scopeMem s1.front .domain (ownerOf s1 (ks.headD 0)).toList)
     s1.mem.wf = true ∧ unreadable s1 ks = false ∧ raced s1.front.race pl = false ∧
     s2.mem.wf = true ∧ unreadable s2 ks = false ∧ raced s2.front.race pl = false) :=
  ⟨quiet_s0, by decide +kernel, reaches _ _ _ _ (by decide +kernel), by decide +kernel⟩

theorem witness_AtomicsAtTheirPlace : Quiet s0 ∧ (s0.rd 0 + (64 : BitVec 32).signExtend 64).toNat = 64 ∧
    (∃ pl ks, Reaches s0 64 4 .both pl ks (left (xlate (seqAgent s0.front) 64 .both 0) s0)) ∧
    (let s1 := left (xlate (seqAgent s0.front) 64 .both 0) s0
     let pl := got (xlate (seqAgent s0.front) 64 .both 0) s0 noPlace
     let ks := (keysOf s1 pl 64 4).getD []
     let s2 := deliverResiduals s1 (scopeMem s1.front .domain (ownerOf s1 (ks.headD 0)).toList)
     (∀ o ∈ ([.add, .and_, .or_, .xor_, .min_, .max_, .minn, .maxn, .swap, .cas] : List AtomOp), atomPlaceOk o pl = true) ∧
     s1.mem.wf = true ∧ unreadable s1 ks = false ∧ atomBlocked s1 s1.stamp (ks.headD 0) = false ∧
     s2.mem.wf = true ∧ unreadable s2 ks = false ∧ atomBlocked s2 s2.stamp (ks.headD 0) = false) :=
  ⟨quiet_s0, by decide +kernel, reaches _ _ _ _ (by decide +kernel), by decide +kernel⟩

/-- A misaligned address; an aligned one in no page. -/
theorem witness_ScalarAccessFaults : (s0.rd 0 + (3 : BitVec 32).signExtend 64).toNat % 4 ≠ 0 ∧
    (s0.rd 0 + (0x8000 : BitVec 32).signExtend 64).toNat % 4 = 0 ∧
    stops (xlate (seqAgent s0.front) 0x8000 .read 0) s0 = some (.trap (mkTrap causeXlateMissing 0x11 0 0x8000)) := by decide +kernel

/-- An address too high, one whose walk ends, one without the permission and one with it. -/
theorem witness_TranslationByTables : 2 ^ 56 ≤ 2 ^ 63 ∧ tlbHit s0 9216 0 0x8000 = none ∧ tlbHit s0 9216 0 0 = none ∧
    walk s0 s0.front.root s0.front.rclass 0x8000 = .missing 0x11 ∧
    (match walk s0 s0.front.root s0.front.rclass 0 with
     | .leaf e _ _ _ => e.testBit 6 && e.testBit 3 && e.testBit 4 && e.testBit 5
     | _ => false) = true ∧
    (match walk { s0 with mem := s0.mem.putNum (smKey 0x31000) 8 (1 + at_ 1 1 + at_ 6 1 + at_ 14 1) } s0.front.root s0.front.rclass 0 with
     | .leaf e _ _ _ => !e.testBit 3
     | _ => false) = true ∧ s0.mem.wf = true := by decide +kernel

theorem witness_MemoryReadAfterWrite : Memory.wf [(3, 1), (5, 2)] = true ∧ (4 < 5 ∨ 5 + 2 ≤ 4) ∧ (7 : Nat) ≠ 3 := by decide

/-! ### Broadcasts -/

/-- A strip of 16 elements, windows w1, w2 and w3 of 32-bit integers in bank memory, w4 of bits. -/
def v0 : State :=
  let s := b0.mapCsr (fun c => { c with vl := 16, vblk := 16, vfmt := 2 })
  (((s.wrW 1 (win .i32 0x4000)).wrW 2 (win .i32 0x4040)).wrW 3 (win .i32 0x4080)).wrW 4 (win .bit 0x40C0)

/-- A broadcast of the tests: issued, and then performed by its owners without a stop. -/
def performed (i : Instr) (s : State) : Bool :=
  (infoOf i).any (fun info =>
    let s0 := beforeIssue i info s
    let b := newB i info s0
    let s1 := takeIsn b s0
    let r := performB { s1 with front := { s1.front with bcasts := s1.front.bcasts ++ [b] } } b info.body
    !isCondWord (wordOf i) && s.pace == .lockstep && issueFault info s == none && issueReady i info s && r.2.2 == none
      && !r.1.msgs.any (fun m => m.sid == r.1.front.sid) && r.1.front.late == none)

theorem witness_BroadcastsComplete : performed (.vadd (vecB .i32)) v0 = true ∧
    performed (.vredAdd { vec .i32 with wd := 5 }) v0 = true ∧
    performed (.vamoAdd (vecB .i32) .plain .domain) v0 = true := by decide +kernel

theorem witness_BroadcastsRunAhead : ((infoOf (.vadd (vecB .i32))).any (fun info =>
      !isCondWord (wordOf (.vadd (vecB .i32))) && issueFault info (ahead v0) == none && issueReady (.vadd (vecB .i32)) info (ahead v0)
        && !info.fencing && !isMatrix (.vadd (vecB .i32)))) = true ∧
    ((infoOf (.vadd (vecB .i32))).any (fun info =>
      let s := withFront (ahead v0) (fun f => { f with csr := { f.csr with isn := 64 } })
      issueFault info s == none && !issueReady (.vadd (vecB .i32)) info s)) = true := by decide +kernel

/-- With every bit zero, and with the first bit 1; with no real element. -/
theorem witness_BankConditionBranches :
    let good (c : Cond) (i : Instr) (s : State) : Bool :=
      let info := infoCond c 4
      let b := newB i info s
      let s1 := takeIsn b s
      let r := performB { s1 with front := { s1.front with bcasts := s1.front.bcasts ++ [b] } } b info.body
      s.pace == .lockstep && issueFault info s == none && issueReady i info s && r.2.2 == none
        && !r.1.msgs.any (fun m => m.sid == r.1.front.sid) && r.1.front.late == none
    let one : State := { v0 with mem := v0.mem.set (bmKey 0 0x60) 1 }
    good .any (.bany 4 5) v0 = true ∧ good .all (.ball 4 5) one = true ∧ good .none_ (.bnone 4 5) one = true ∧
    good .any (.bany 4 5) (v0.mapCsr (fun c => { c with vl := 0 })) = true := by decide +kernel

theorem witness_ElementsOfVectorInstructions : (elementOf (.vfill (vec .i8))).isSome = true ∧ (infoOf (.vfill (vec .i8))).isSome = true ∧
    (movesOf (.vcompact (vecB .i8))).isSome = true ∧ (infoOf (.vcompact (vecB .i8))).isSome = true ∧
    (scanOf (.vscanAdd (vec .i32))).isSome = true ∧ (infoOf (.vscanAdd (vec .i32))).isSome = true ∧
    (elementOf (.vcvt .f32 (vec .f16))).isSome = true ∧ (infoOf (.vcvt .f32 (vec .f16))).isSome = true ∧
    (infoOf (.vcvt .f32 (vec .q4))).isSome = true ∧ (vec .q4).fmt.isS = true := by decide

/-- With a translation of the page held, its leaf's D set. -/
def v1 : State :=
  { v0 with tlb := [{ agent := 0, asid := 0, base := 0x4000, bits := 14, leaf := BitVec.ofNat 64 (1 + at_ 1 1 + at_ 3 0xF + at_ 7 3 + at_ 16 3), leafAt := 0x31008 }] }

def eye0 : Eye := eyeAt v1 0

def bcast0 (s : State) : Bcast := newB (.vadd (vecB .i32)) (infoVadd (vecB .i32)) s

theorem witness_ElementWritten :
    let b := bcast0 v1
    let md := destAddr eye0 true b.carry.vl.toNat (b.carry.win 0) .i32 0
    let d := got md v1 { va := 0, bo := 0, place := noPlace, walked := [], keys := [] }
    let s1 := left md v1
    let s2 := left (active eye0 b.carry false 0) s1
    let fn : M (Option Nat × Flags) := do markWalks d.walked; fnArith .add false (vecB .i32) eye0 b 0
    let s3 := left fn s2
    answers md v1 = true ∧ answers (active eye0 b.carry false 0) s1 = true ∧ got (active eye0 b.carry false 0) s1 false = true ∧
    answers fn s2 = true ∧ (got fn s2 (none, 0)).1.isSome = true ∧ d.keys.Nodup ∧ Memory.wf s3.mem = true ∧ unreadable s3 d.keys = false ∧
    raced eye0.race d.place = false ∧ watchMask eye0.watch d.va d.keys.length false true = 0 ∧ s3.shelves = [] ∧
    needsShelf s3 none b.isn d = true ∧ shelfRoom s3 d.keys b.isn = true ∧ b.isn = s3.floor + 1 ∧
    shelfUnder s3 0 b.isn + (freshAt s3 0 d.keys b.isn).length ≤ shelfSize 0 ∧ d.keys.head?.bind (ownerOf s3) = some 0 ∧
    (let v := v1.mapCsr (fun c => { c with vpad := 1 })
     answers (active { eye0 with elem := 15 } (bcast0 v).carry false 15) v = true ∧
       got (active { eye0 with elem := 15 } (bcast0 v).carry false 15) v true = false) := by decide +kernel

theorem witness_IntegerElements : Fmt.isIN .i8 = true ∧ Fmt.isIN .n64 = true ∧ Fmt.isI .i8 = true := by decide

theorem witness_RoundingModes : (0xFFFFFFFF : Nat) < 2 ^ 32 := by decide

theorem witness_Wf96OrderDoesNotMatter : homeFmt .i32 = true ∧ homeFmt .n64 = true ∧ (.i32 : Fmt) ≠ .wf96 := by decide

/-- Two leaves of a reduction, and none. -/
theorem witness_IntegerReductions :
    let b : Bcast := { bcast0 v0 with leaves := [(0, 3), (15, 2 ^ 32 - 1)] }
    (b.leaves.map (·.1)).Nodup ∧ (∀ p ∈ b.leaves, p.1 < b.carry.vl.toNat ∧ p.2 < 2 ^ (vec .i32).fmt.bits) ∧
    (vec .i32).fmt.isIN = true ∧ (vec .i32).sat = false ∧ b.leaves.map (fun p => intOf (vec .i32).fmt p.2) ≠ [] ∧
    (bcast0 v0).leaves.map (fun p => intOf (vec .i32).fmt p.2) = [] := by decide +kernel

/-! ### Traps and the system instructions -/

theorem still_handled : Still (handled s0) := by unfold Still; decide +kernel
theorem still_s0 : Still s0 := by unfold Still; decide +kernel

theorem witness_UserStreamPrivileges : s0.front.csr.mode = false ∧ loadsOut s0.front = 0 ∧ (0x08F : BitVec 12) ≤ 0x08F ∧
    (1 : SReg) ≠ 0 := by decide +kernel

/-- A broadcast in the issue queue. -/
def queued (s : State) : State := withFront s (fun f => { f with queue := [bcast0 v0] })

theorem witness_BroadcastRefusedWhileQueued : (infoOf (.vadd (vecB .i32))).isSome = true ∧ (queued v0).front.queue ≠ [] ∧ v0.front.queue = [] ∧
    (infoVadd { vecB .i32 with wd := 0 }).check v0 = some (operandTrap 0) := by decide +kernel

theorem witness_TrapEntry : Still (handled s0) ∧ (handled s0).front.csr.tvec ≠ 0 := ⟨still_handled, by decide +kernel⟩

theorem witness_StreamWithoutHandlerEnds : (mkTrap causeAlign 0).int = false ∧ Still s0 ∧ s0.front.csr.tvec = 0 ∧ myGroups s0.front = [] ∧ s0.front.logMode = 0 ∧ s0.regs.evEn = false :=
  ⟨rfl, still_s0, by decide +kernel⟩

theorem witness_EretReturns : (sup s0).front.csr.mode = true ∧ (queued (sup s0)).front.queue ≠ [] ∧ (sup s0).front.queue = [] ∧
    ((sup s0).mapCsr (fun c => { c with tpc := 4 })).front.csr.tpc.toNat % 8 ≠ 0 ∧ (sup s0).front.csr.tpc.toNat % 8 = 0 ∧
    (sup s0).front.resumed = false := by decide +kernel

/-- A sector's old bytes on the shelf of the front's stream. -/
def shelved (s : State) : State :=
  { s with shelves := [{ own := 8192, sid := s.front.sid, sector := 0x34040 / 32, isn := 3, bytes := List.replicate 32 7, bad := [], action := false }] }

theorem witness_RollbackRestores : (shelved s0).mem.wf = true ∧ ∀ e ∈ (shelved s0).shelves, e.bytes.length = 32 := by decide +kernel

/-- A launch of one stream that an OP 2 record ends. -/
def ending (f : Front) : Launch :=
  { sid0 := f.launch, count := 1, left := [f.sid], queue := 0, lstatAt := 0, lstat := 0, domId := 0, killers := [(0, 0, 0)] }

/-- An interrupt pending; a watch hit and one not hit; none; and a pre-emption with an image that can be written. -/
theorem witness_WfeWaitsAndYields :
    let mine (s : State) (m : Monitor) : Bool := m.sid == s.front.sid
    let watch (h : Bool) : Monitor := { sid := s0.front.sid, keys := [0x34000], hit := h }
    let p := withFront (sup i0) (fun f => { f with preempt := true })
    interruptPending (withFront s0 (fun f => { f with ppre := true })).front = true ∧ interruptPending s0.front = false ∧
    (∀ h : Bool, ({ s0 with monitors := [watch h] } : State).monitors.find? (mine s0) = some (watch h)) ∧
    s0.monitors.find? (mine s0) = none ∧ answers (watchedKeys (s0.rd 2).toNat) s0 = true ∧
    (sup s0).front.csr.mode = true ∧ (queued (sup s0)).front.queue ≠ [] ∧ (sup s0).front.queue = [] ∧ (sup s0).front.preempt = false ∧
    p.front.csr.mode = true ∧ p.front.queue = [] ∧ p.front.preempt = true ∧ accessesDone p = true ∧ p.front.bcasts = [] ∧ p.front.decls = [] ∧
    answers (writeImage (p.front.pc + 8) false) ((deliverResiduals p (fun _ => true)).wr 5 1) = true ∧
    (deliverResiduals p (fun _ => true)).front.pc = p.front.pc ∧
    (let d (p : State) : Bool :=
       let u := left (writeImage (p.front.pc + 8) false) ((deliverResiduals p (fun _ => true)).wr 5 1)
       doomed u u.front
     d p = false ∧ d { p with launches := [ending p.front] } = true) ∧ myGroups p.front = [] := by decide +kernel

/-- An area at 0x4000; windows 1 and 31 named. -/
theorem witness_WindowSaveAndRestore :
    let s := ((sup i0).wr 2 0x4000).wr 3 0x80000002
    s.front.csr.mode = true ∧ areaReady s = true ∧ answers (areaPages (s.rd 2).toNat 512 512 .write) s = true ∧
    answers (areaPages (s.rd 2).toNat 512 512 .read) s = true ∧
    (∀ w : WReg, ∀ st : Bool,
      let m := areaPages 0x4000 512 512 (if st then .write else .read)
      areaRace (left m s) (got m s []) st (0x4000 + 16 * w.toNat) 16 = none ∧
      answers (areaMark (got m s []) st (0x4000 + 16 * w.toNat) 16) (left m s) = true) ∧
    ∀ w : WReg, unreadable (left (areaPages 0x4000 512 512 .read) s)
      (areaKeys (left (areaPages 0x4000 512 512 .read) s) (got (areaPages 0x4000 512 512 .read) s []) (0x4000 + 16 * w.toNat) 16) = false := by
  decide +kernel

/-- A queue of one entry saved, and what then stands in the area, lawful for its place; an empty area's is not. -/
theorem witness_QueueSaveAndRestore :
    let s := queued ((sup i0).wr 2 0x4000)
    let t := ((next (exec (.isave 5 2) s)).mapCsr (fun c => { c with isn := 1 }))
    let m := areaPages (t.rd 2).toNat 16384 256 .read
    let ok (t : State) : Bool := entryOk (left m t) 0 (entryOf t.front.race (fun j => areaWord (left m t) (got m t []) (0x4000 + 8 * j)))
    s.front.csr.mode = true ∧ areaReady s = true ∧ answers (areaPages (s.rd 2).toNat 16384 256 .write) s = true ∧
    t.front.csr.mode = true ∧ t.front.queue = [] ∧ (t.rd 5).toNat + t.floor = t.isn ∧ (t.rd 5).toNat = 1 ∧ answers m t = true ∧
    unreadable (left m t) (areaKeys (left m t) (got m t []) 0x4000 256) = false ∧ ok t = true ∧
    areaRace (left m t) (got m t []) false 0x4000 256 = none ∧
    (let w := areaPages (s.rd 2).toNat 16384 256 .write
     areaRace (left w s) (got w s []) true 0x4000 256 = none ∧ answers (areaMark (got w s []) true 0x4000 256) (left w s) = true) ∧
    ok (((sup i0).wr 2 0x4000).mapCsr (fun c => { c with isn := 1 })) = false ∧ (bcast0 v0).isn < 2 ^ 48 := by decide +kernel

/-! ### Synchronisation, groups and queues -/

/-- A stack page whose bytes at 0 are a synchronisation block with FLAG 5, and at 0x40 a queue of eight entries at
0x100, empty. -/
def q0 : State :=
  { s0 with mem := ((s0.mem.putNum 0x34000 8 5).putNum 0x34050 8 0x100).putNum 0x34058 8 3 }

theorem witness_ReleasesFencesAndSyncBlocks :
    let s := q0
    let m := blockPlace (s.rd 2).toNat 1024
    let s1 := left m s
    let ks := got m s []
    let s2 := deliverResiduals s1 (scopeMem s1.front .domain (ownerOf s (ks.headD 0)).toList)
    answers m s = true ∧ unreadable s2 (ks.take 8) = false ∧ unreadable s1 (syncKeys s1 ks) = false ∧ s2.front.csr.raceEn = false ∧ s2.front.logMode = 0 ∧
    s2.waiters = [] ∧ s.waiters = [] ∧ bytesNat (s1.mem.gets (ks.take 8)) = 5 ∧ (s.rd 3).toNat ≤ 5 ∧ 5 < ((s.wr 3 6).rd 3).toNat := by
  decide +kernel

theorem witness_ReleasesFencesAndSyncBlocks_quiet : Quiet q0 := by unfold Quiet; decide +kernel

/-- Owners at their own pace, with race checking on. -/
theorem witness_ReleaseInFlight :
    let s := (ahead q0).mapCsr (fun c => { c with raceEn := true })
    let m := blockPlace (s.rd 2).toNat 1024
    let s1 := left m s
    let ks := got m s []
    let s2 := deliverResiduals s1 (scopeMem s1.front .domain (ownerOf s (ks.headD 0)).toList)
    loadsOut s.front = 0 ∧ answers m s = true ∧ releaseReady s1 = true ∧ unreadable s2 (syncKeys s2 ks) = false ∧ mayFly s2 ks = true ∧
    s2.waiters = [] ∧ s2.front.csr.raceEn = true ∧ s2.front.logMode = 0 ∧ unreadable s2 ks = false ∧
    (ahead q0).front.csr.raceEn = false ∧ releaseReady (left m (ahead q0)) = true ∧ mayFly (left m (ahead q0)) ks = true := by decide +kernel

/-- A number above 1,023; a stream that is no member, with and without a slot; a member, alone and of two; an episode's
number to take. -/
theorem witness_GroupInstructions :
    let n (s : State) (imm : BitVec 31) : Nat := (s.rd 2 + imm.signExtend 64).toNat
    let grp (c a : List (BitVec 16)) (r : List (BitVec 16 × Word)) : State :=
      { s0 with groups := [{ id := 7, counted := c, pending := [], arrived := a, episode := 3, released := r, clock := [] }] }
    let sid := s0.front.sid
    let me := grp [sid] [] []
    let two := grp [sid, 900] [] []
    s0.front.logMode = 0 ∧ n s0 0x7FFFFFFF ≥ 1024 ∧ n s0 7 = 7 ∧ (s0.group 7).member sid = false ∧ hasSlot s0.front = true ∧ (s0.group 7).size < 256 ∧
    hasSlot (withFront s0 (fun f => { f with grps := Vector.replicate 4 0x8001 })).front = false ∧
    (me.group 7).member sid = true ∧ releasedAt me 7 = none ∧ releasedAt s0 7 = none ∧ (me.group 7).arrived = [] ∧ (me.group 7).pending = [] ∧
    me.residuals = [] ∧ me.msgs = [] ∧ (∀ f ∈ me.streams, f.logMode = 0) ∧
    (me.group 7).counted.length = (me.group 7).arrived.length + 1 ∧ (two.group 7).member sid = true ∧
    (two.group 7).counted.length ≠ (two.group 7).arrived.length + 1 ∧ releasedAt (grp [sid] [] [(sid, 2)]) 7 = some 2 := by decide +kernel

theorem witness_GroupInstructions_quiet :
    let grp (c : List (BitVec 16)) : State :=
      { s0 with groups := [{ id := 7, counted := c, pending := [], arrived := [], episode := 3, released := [], clock := [] }] }
    Quiet (grp [s0.front.sid]) ∧ Quiet (grp [s0.front.sid, 900]) := by
  refine ⟨?_, ?_⟩ <;> (unfold Quiet; decide +kernel)

/-- The queue block at 0x40 with HEAD and TAIL: empty, full, with one entry; and a block that is none. -/
theorem witness_QueueInstructions :
    let s (h t : Nat) : State := ({ q0 with mem := (q0.mem.putNum 0x34040 8 h).putNum 0x34048 8 t } : State).wr 2 0x40
    let good (h t used : Nat) : Bool :=
      let s := s h t
      let m := blockPlace (s.rd 2).toNat 64
      let s1 := left m s
      let ks := got m s []
      let q := (queueBlock s1 ks).1
      let place (o : QOp) : Bool := answers (o.place q) s1 && !unreadable (left (o.place q) s1) (ks ++ got (o.place q) s1 [])
      answers m s && !unreadable s1 ks && !s1.front.csr.raceEn && s1.residuals.isEmpty && s1.msgs.isEmpty && s1.waiters.isEmpty && s.waiters.isEmpty
        && (queueBlock s1 ks).2 && q.used == used && q.size == 3 && place (.push 3) && place (.pop 3)
    good 4 4 0 = true ∧ good 4 5 1 = true ∧ good 4 12 8 = true ∧
    (let m := blockPlace (s0.rd 2).toNat 64
     answers m s0 = true ∧ (queueBlock (left m s0) (got m s0 [])).2 = false) := by decide +kernel

/-- One entry, which cannot be read. -/
theorem witness_QueueInstructions_bad :
    let t : State := ({ q0 with mem := (q0.mem.putNum 0x34040 8 4).putNum 0x34048 8 5, poison := [(0x34100 + 32) / 8] } : State).wr 2 0x40
    let s1 := left (blockPlace (t.rd 2).toNat 64) t
    let ks := got (blockPlace (t.rd 2).toNat 64) t []
    let m := (QOp.pop 3).place (queueBlock s1 ks).1
    unreadable s1 ks = false ∧ (queueBlock s1 ks).2 = true ∧ (queueBlock s1 ks).1.used = 1 ∧ answers m s1 = true ∧
    unreadable (left m s1) (got m s1 []) = true := by decide +kernel

theorem witness_QueueInstructions_quiet : Quiet (q0.wr 2 0x40) := by unfold Quiet; decide +kernel

/-! ### Paging and the order log -/

/-- The leaf of the page at 0, and a template that moves the page to the frame at 0x40000. -/
def leaf0 : Nat := 1 + at_ 1 1 + at_ 3 0xF + at_ 14 1 + at_ 26 (0x34000 / 2 ^ 14)
def template0 : Nat := at_ 14 1 + at_ 26 (0x40000 / 2 ^ 14)

def aMigration : Migrating := { sid := s0.front.sid, stack := none, asid := 0, base := 0, bits := 14, leaf := leaf0, leafAt := 0x31000, held := false }

/-- A held translation of a page. -/
def aTlb (agent base : Nat) : TlbEntry := { agent := agent, asid := 0, base := base, bits := 14, leaf := BitVec.ofNat 64 leaf0, leafAt := 0x31000 }

def place0 : Place := { leaf := leaf0, leafAt := 0x31000, base := 0, bits := 14 }

/-- The page at 0 is in the migration table. -/
def moving : State := { sup s0 with migrating := [aMigration] }

/-- A supervisor stream with an access to the page at 0 under way. -/
def loading : State := withFront (sup s0) (fun f => { f with accesses := [anAccess .store] })

theorem witness_PagingInstructions :
    let sent := withFront (sup s0) (fun f => { f with tlbOp := .sent })
    s0.front.csr.mode = false ∧ (sup s0).front.csr.mode = true ∧ (sup s0).front.tlbOp = .none ∧ quietReady (sup s0) = true ∧ quietReady loading = false ∧
    sent.front.tlbOp = .sent ∧ acked sent (fun _ => true) 0 0 0 = true ∧ acked loading (fun _ => true) 0 0 0 = false ∧
    loadsOut s0.front = 0 ∧ storesOut s0.front = 0 ∧ loadsOut loading.front = 0 ∧
    walk s0 s0.front.root s0.front.rclass 0 = .leaf leaf0 0x31000 0 14 ∧ walk s0 s0.front.root s0.front.rclass 0x8000 = .missing 0x11 ∧
    templateOk (sup s0) .module place0 5 = false ∧ templateOk (sup s0) .module place0 template0 = true ∧ pmigEntry (sup s0) = none ∧
    pmigCount (sup s0) < 16 ∧ pmigCount { sup s0 with migrating := List.replicate 16 { aMigration with sid := 900 } } = 16 ∧
    pmigEntry moving = some aMigration ∧ acked moving (fun _ => true) 0 0 (2 ^ 14) = true ∧
    acked { loading with migrating := [aMigration] } (fun _ => true) 0 0 (2 ^ 14) = false := by decide +kernel

/-- The keys of the page at 0, whatever is held of it. -/
theorem keys_page0 (s : State) (h : ∀ n, (s.stack n).remap = []) : keysOf s place0 0 (2 ^ 14) = some ((List.range (2 ^ 14)).map (fun i => 0x34000 + i)) := by
  refine Laws.keysOf_of s place0 0 _ _ fun i _ => ?_
  rw [Laws.keyOf_sm s place0 _ h (by decide +kernel)]
  simp [smKey, place0, (by decide +kernel : pteFrame leaf0 = 13)]

theorem remap_moving (n : Nat) : (moving.stack n).remap = [] := (by decide +kernel : ∀ i : Fin 16, (moving.stk.get i).remap = []) _

theorem remap_as (s : State) (h : s.stk = moving.stk) (n : Nat) : (s.stack n).remap = [] := by
  have := remap_moving n
  unfold State.stack at *
  rwa [h]

/-- The page that a migration moves has its keys, and all of it can be read. -/
theorem witness_PagingInstructions_moves :
    let s1 := shootDown { moving with migrating := moving.migrating.map (fun x => if x = aMigration then { aMigration with held := true } else x) }
      (fun _ => true) aMigration.asid 0 0
    ∃ ko, keysOf s1 place0 0 (2 ^ 14) = some ko ∧ ko ≠ [] ∧ unreadable (deliverFor s1 (sectorsOf ko)) ko = false := by
  intro s1
  refine ⟨_, keys_page0 s1 remap_moving, by simp, ?_⟩
  rw [Laws.deliverFor_none s1 _ nofun nofun nofun]
  have hp : s1.poison = [] := rfl
  have hm : s1.regs.stackMask = 0xFFFF := rfl
  have hl : (s1.stack 0).layers = 0xFFFF := rfl
  simp only [unreadable, List.any_eq_false, List.mem_map, List.mem_range, hp]
  rintro k ⟨i, hi, rfl⟩
  have h1 : fld 36 4 (0x34000 + i) = 0 := by simp only [fld]; omega
  have h2 : fld 18 4 (0x34000 + i) = 0 := by simp only [fld]; omega
  have h4 : 0x34000 + i < 1099511627776 := by omega
  simp [smPresent, h1, h2, h4, hm, hl]

/-- What pmig's checks answer for the page at 0 (R310). -/
theorem checks_page0 (ok : Bool) (s : State) (hk : s.stk = moving.stk)
    (hw : walk s s.front.root s.front.rclass (s.rd 0).toNat = .leaf leaf0 0x31000 0 14) (ht : templateOk s .module place0 (s.rd 3).toNat = ok) :
    ∃ t, M.exec (pmigChecks 0 3 .module) s = ((if ok then .ok place0 else .error (.trap (operandTrapHi 11))), t) := by
  have hs : (keysOf s place0 0 (2 ^ 14)).isSome = true := by rw [keys_page0 s (remap_as s hk)]; rfl
  refine ⟨s.walked (s.rd 0).toNat, ?_⟩
  have e : M.exec (pmigChecks 0 3 .module) s = M.exec (do
      need (templateOk s .module place0 (s.rd 3).toNat) (operandTrapHi 11)
      need ((keysOf s place0 0 (2 ^ 14)).isSome) (mkTrap causePlacement 0 0 (s.rd 0).toNat)
      pure place0 : M Place) (s.walked (s.rd 0).toNat) := by
    unfold pmigChecks
    rw [exec_bind_ok (exec_get s), exec_bind_ok (exec_modify _ s), hw]
    rfl
  rw [e, ht, hs, exec_bind]
  cases ok <;> rfl

/-- pmig's second check passes with a template for the page, and fails without one (R311). -/
theorem witness_PagingInstructions_again :
    let s1 (v : Word) := shootDown { moving.wr 3 v with migrating := [{ aMigration with held := true }] } (fun _ => true) aMigration.asid aMigration.base 0
    (∃ t, M.exec (pmigChecks 0 3 .module) (s1 (BitVec.ofNat 64 template0)) = (.ok place0, t)) ∧
    ∃ t, M.exec (pmigChecks 0 3 .module) (s1 5) = (.error (.trap (operandTrapHi 11)), t) :=
  ⟨checks_page0 true _ (by decide +kernel) (by decide +kernel) (by decide +kernel),
    checks_page0 false _ (by decide +kernel) (by decide +kernel) (by decide +kernel)⟩

/-- With its first word uncorrectable. -/
def poisoned (s : State) : State := { s with poison := [0x34000 / 8] }

theorem poisoned_stk (s : State) : (poisoned s).stk = s.stk := rfl

theorem witness_PagingInstructions_bad :
    ∃ ko, keysOf (poisoned moving) place0 0 (2 ^ 14) = some ko ∧ ((ko.zipIdx).find? (fun p => unreadable (poisoned moving) [p.1])).isSome = true := by
  refine ⟨_, keys_page0 _ (remap_as _ (poisoned_stk moving)), ?_⟩
  rw [List.find?_isSome]
  refine ⟨(0x34000, 0), ?_, by decide +kernel⟩
  rw [List.mem_zipIdx_iff_getElem?]
  simp

theorem witness_PagingInstructions_keys : (keysOf (sup s0) place0 0 (2 ^ 14)).isSome = true := by
  rw [keys_page0 (sup s0) fun n => (by decide +kernel : ∀ i : Fin 16, ((sup s0).stk.get i).remap = []) _]; rfl

/-- tlbinv drops what it names and keeps the rest; pmig refuses a template of the leaf's own bits. -/
theorem test_paging :
    let s : State := { sup s0 with tlb := [aTlb 0 0x4000, aTlb 9216 0, aTlb 8000 0x4000] }
    let t := next (exec (.tlbinv 0 2 3 .domain) (s.wr 2 0x4000))
    t.tlb = [aTlb 9216 0, aTlb 8000 0x4000] ∧ t.front.pc = 8 ∧
    (next (exec (.pmig 5 0 3 .module) (handled ((sup s0).wr 3 5)))).front.csr.tinfo = 0xB00 ∧
    (next (exec (.tlbprb 5 0) s0)).rd 5 = BitVec.ofNat 64 leaf0 := by decide +kernel

/-- A level-0 table at 0x400 whose 128 entries all map frame 0 of stack memory, its level-1 entry at 0. -/
def promo : State :=
  let s : State := { s0 with mem := [(0, 1), (1, 0x40), (2, 0x40)] ++ (List.range 128).flatMap (fun i => [(0x400 + 8 * i, 3), (0x401 + 8 * i, 0x40)]) }
  s.setStack 0 { s.stack 0 with prmdst := 0x600000 }

/-- A promotion of stack 0's region has begun with the entries `seen`. -/
def begun (s : State) (seen : List Nat) : State := s.setStack 0 { s.stack 0 with prmBusy := true, prmSeen := seen }

theorem seen_begun (s : State) (l : List Nat) : promotionSeen (begun s l) 0 = promotionSeen s 0 := Laws.promotionSeen_setStack s 0 _ rfl rfl

theorem bad_begun (s : State) (l : List Nat) : promotionBad (begun s l) 0 = promotionBad s 0 := Laws.promotionBad_setStack s 0 _ rfl rfl rfl

/-- A promotion of the tests' region has begun. -/
def promoting (seen : List Nat) : State := begun promo seen

theorem seen_promoting (l : List Nat) : promotionSeen (promoting l) 0 = promotionSeen promo 0 := seen_begun promo l

/-- The checks of R313 pass. -/
theorem check_promo : promotionCheck promo 0 = 0 := by decide +kernel

theorem bad_promoting (l : List Nat) : promotionBad (promoting l) 0 = promotionBad promo 0 := bad_begun promo l

/-- More entries for the region than a side shelf holds. -/
def crowd : Shelf := { own := sideShelf + 1, sid := 1, sector := 0, isn := 1, bytes := List.replicate 32 0, bad := [], action := false }
def crowded : State := { promoting [0, 1] with shelves := List.replicate 8193 crowd }

theorem witness_PagingEvents_crowded (ps : List (Key × Key)) :
    (crowded.shelves.any (fun e => inFrames crowded ((crowded.stack 0).prmSeen.drop 1) (32 * e.sector))) = true ∧ 8192 < sideCount crowded 0 ps := by
  refine ⟨by decide +kernel, ?_⟩
  have h : sideCount crowded 0 ps = 8193 := by
    refine (congrArg List.length (List.filter_eq_self.2 ?_)).trans (List.length_replicate (n := 8193) (a := crowd))
    intro e he
    rw [List.eq_of_mem_replicate he]
    rfl
  omega

theorem witness_PagingEvents :
    let busy : State := s0.setStack 0 { s0.stack 0 with prmBusy := true }
    s0.front.status ≠ .idle ∧ pageHeld s0 s0.front.asid 0 = false ∧ tlbSize 9216 ≠ 0 ∧ tlbHit s0 9216 s0.front.asid 0 = none ∧
    answers (xlate 9216 0 .write 0) s0 = true ∧ answers (xlate 9216 0 .read 0) s0 = true ∧
    (busy.stack 0).prmBusy = true ∧ (s0.stack 0).prmBusy = false ∧ (1 : Word).getLsbD 0 = true ∧ promotionCheck s0 0 ≠ 0 := by decide +kernel

theorem witness_PagingEvents_promotion : (promo.stack 0).prmBusy = false ∧ promotionCheck promo 0 = 0 ∧
    ((promoting []).stack 0).prmBusy = true ∧ promotionSeen (promoting []) 0 ≠ ((promoting []).stack 0).prmSeen ∧
    promotionBad (promoting []) 0 = false ∧
    (let s := promoting (promotionSeen promo 0)
     (s.stack 0).prmBusy = true ∧ acked s (fun _ => true) (s.stack 0).prmAsid (s.stack 0).prmva.toNat (2 ^ 21) = true ∧
       promotionSeen s 0 = (s.stack 0).prmSeen ∧ promotionBad s 0 = false ∧
       ((s.stack 0).prmSeen.drop 1).all (fun e => smPresent s (remapped s (pteFrame e * 2 ^ 14))) = true ∧ s.residuals = [] ∧ s.msgs = [] ∧
       s.homeQ = [] ∧ s.shelves = [] ∧ s.poison = []) := by
  have hb : promotionBad promo 0 = false := by decide +kernel
  refine ⟨by decide +kernel, check_promo, by decide +kernel, ?_, (bad_promoting _).trans hb, by decide +kernel, by decide +kernel, ?_,
    (bad_promoting _).trans hb, by decide +kernel, by decide +kernel, by decide +kernel, by decide +kernel, by decide +kernel, by decide +kernel⟩
  · rw [seen_promoting]; exact List.cons_ne_nil _ _
  · rw [seen_promoting]; rfl

/-- A frame whose layer has left; an agent that has still to acknowledge. -/
theorem witness_PagingEvents_waits :
    let gone := (promoting [0, 1]).setStack 0 { (promoting [0, 1]).stack 0 with layers := 0 }
    let late := withFront (promoting []) (fun f => { f with accesses := [{ anAccess .store with va := (promo.stack 0).prmva.toNat }] })
    ((gone.stack 0).prmSeen.drop 1).all (fun e => smPresent gone (remapped gone (pteFrame e * 2 ^ 14))) = false ∧
    acked late (fun _ => true) (late.stack 0).prmAsid (late.stack 0).prmva.toNat (2 ^ 21) = false ∧
    dieHeld ((promoting []).setDie 8 { (promoting []).die 8 with state := 3 }) 8 = true ∧ dieHeld (promoting []) 8 = false ∧
    ({ s0 with regs := { s0.regs with fail := true } } : State).regs.fail = true := by decide +kernel

theorem test_paging_events :
    let s : State := { s0 with tlb := [aTlb 0 0x4000, aTlb 5 0x4000] }
    (next (exec (.pageWalk s0.front.sid 9216 0 false) s)).tlb.length = 3 ∧ (next (exec (.shootdownReceive 5 0 0x4000 0) s)).tlb = [aTlb 0 0x4000] ∧
    (next (exec (.prmctlGo 0 1) s0)).stack 0 = { s0.stack 0 with prmResult := 2 } := by decide +kernel

/-- A log context whose ring of 32 records stands at 0x36000 and whose block stands at 0x35000. -/
def aLog (replay : Bool) : LogCtx :=
  { id := 4, replay := replay, block := 0x35000, base := 0x36000, size := 10, head := 0, tail := 0, policyGap := false, chkv := false, budget := 10,
    vec := 0, irq := false, rvalid := true, diverged := false, stalled := false, from_ := 0, dividx := 0, held := [], gap := none, gapNew := false,
    dropped := 0, lastRel := [], consumed := [], stopped := false, headSeen := 0, members := [s0.front.sid] }

/-- The tests' stream with that context, recording or replaying. -/
def logged (c : LogCtx) : State :=
  withFront { s0 with logs := [c] } (fun f => { f with logMode := if c.replay then 2 else 1, logId := 4 })

def aRecord : LogRec := { type := 7, sub := 0, sid := s0.front.sid, obj := 0x2000000000000000, a := 9, b := 0 }

theorem witness_LogInstructions : s0.myLog = none ∧ recordedDone s0 = true ∧ (logged (aLog false)).myLog = some (aLog false) ∧
    (logged (aLog true)).myLog = some (aLog true) ∧ recordedDone (logged (aLog false)) = true ∧ recordedDone (logged (aLog true)) = true ∧
    recordedDone (withFront (logged (aLog false)) (fun f => { f with accesses := [anAccess .store] })) = false ∧
    (aLog false).replay = false ∧ (aLog false).held = [] ∧ (aLog false).gap = none ∧ (aLog false).used < (aLog false).cap - 1 ∧ (aLog true).replay = true ∧
    (9 : Word).toNat % 32 < 10 ∧ 10 ≤ (42 : Word).toNat % 32 := by decide +kernel

theorem test_log :
    let t := next (exec (.logmark 5 2 6) ((logged (aLog false)).wr 2 77))
    t.rd 5 = 0 ∧ (t.logCtx 4).map (·.head) = some 1 ∧ (next (exec (.logmark 5 2 6) t)).rd 5 = 1 ∧
    t.num 0x36010 8 = 77 ∧ (next (exec (.logmark 5 2 0) s0)).rd 5 = BitVec.allOnes 64 ∧
    (next (exec (.logsync 5) t)).rd 5 = 1 ∧
    ((next (exec (.logctlBudget 5 2) ((logged (aLog false)).wr 2 42))).logCtx 4).map (·.budget) = some 10 := by decide +kernel

theorem witness_LogEvents :
    let held : LogCtx := { aLog false with held := [aRecord] }
    let full : LogCtx := { held with head := 32 }
    let open_ : LogCtx := { aLog false with gap := some 4, head := 9 }
    let seen : LogCtx := { aLog true with headSeen := 1 }
    let r (c : LogCtx) (type : Nat) : State := { logged c with mem := (logged c).mem.putNum 0x36000 8 type }
    let w := withFront (logged (aLog true)) (fun f => { f with waitObj := some 5 })
    (logged held).logCtx 4 = some held ∧ held.members ≠ [] ∧ held.gap = none ∧ held.full = false ∧ full.full = true ∧ full.policyGap = false ∧
    (readTail (logged full) full).full = true ∧ (aLog false).held = [] ∧ open_.gap ≠ none ∧ (readTail (logged open_) open_).used + 2 ≤ open_.cap ∧
    (r seen 6).logCtx 4 = some seen ∧ seen.tail ≠ seen.headSeen ∧ seen.stopped = false ∧ (recordAt (r seen 6) seen seen.tail).type = 6 ∧
    (recordAt (r seen 7) seen seen.tail).type ≠ 6 ∧
    budgetRests w (aLog true) = false ∧ w.front.retiring = false ∧ w.front.status ≠ .idle ∧ w.front.logMode ≠ 0 ∧ w.front.bcasts = [] ∧ w.front.logId = 4 ∧ w.logCtx 4 = some (aLog true) ∧
    (aLog true).stopped = false := by decide +kernel

/-- The stop of an expired budget, and one that must wait for a release in flight. -/
theorem witness_LogEvents_stops :
    let stops (s : State) : Bool := (match settleStop s (mkTrap causeDiverge 2 0 0) s.front.pc with
      | .stopped _ _ _ => true
      | .waits _ => false)
    stops (logged (aLog true)) = true ∧ stops (withFront (logged (aLog true)) (fun f => { f with accesses := [anAccess (.rel 5)] })) = false := by
  decide +kernel

theorem test_log_events :
    let held : LogCtx := { aLog false with held := [aRecord] }
    let seen : LogCtx := { aLog true with headSeen := 1 }
    let r (c : LogCtx) (type : Nat) : State := { logged c with mem := (logged c).mem.putNum 0x36000 8 type }
    let w := withFront (logged (aLog true)) (fun f => { f with waitObj := some 5 })
    ((next (exec (.logRecord 4) (logged held))).logCtx 4).map (fun c => (c.held, c.head)) = some ([], 1) ∧
    (let full : LogCtx := { aLog false with head := 32 }
     ((next (exec (.logTailPoll 4) { logged full with mem := (logged full).mem.putNum 0x35018 8 3 })).logCtx 4).map (·.tail) = some 3) ∧
    ((next (exec (.replayHeadPoll 4) { logged seen with mem := (logged seen).mem.putNum 0x35010 8 9 })).logCtx 4).map (·.headSeen) = some 9 ∧
    ((next (exec (.replayConsume 4) (r seen 6))).logCtx 4).map (fun c => (c.diverged, c.dividx)) = some (true, 0) ∧
    ((next (exec (.replayConsume 4) (r { seen with consumed := [0] } 7))).logCtx 4).map (fun c => (c.consumed, c.tail)) = some ([], 1) ∧
    ((next (exec (.replayBudgetExpiry s0.front.sid) (handled w))).front.csr.cause = 0x0C) := by decide +kernel

/-! ### Commands -/

/-- The module at its owners' own pace just after a command took slot 0. -/
def issued (k : CmdKind) (i : Instr) (a : CArgs) (s : State) : State := takeSlot (newCmd i k a 0 s) s

/-- Windows for chases and runs: w1 and w2 of n64, w3 strided, w4 one strided n8 byte. -/
def v2 : State := (v0.wrW 1 (win .n64 0x4000)).wrW 2 (win .n64 0x4100)

/-- A run's windows: results of f32, a vector of bf16, and panels of bf16. -/
def v3 : State :=
  ((v0.wrW 1 (win .f32 0x4000)).wrW 2 (win .bf16 0x4040)).wrW 3 (win .bf16 0x40C0 + BitVec.ofNat 128 (at_ 61 1 + at_ 64 64))

/-- A program's windows: microwords of n64 and a selector of bits. -/
def v4 : State := (v0.wrW 2 (win .n64 0x4100)).wrW 3 (win .bit 0x4080)

def sprogArgs : CArgs := { cmdArgs with wd := 0, wx := 3 }

/-- No stack is in service and the selector's first bit is 1; its page's translation is held. -/
def v5 : State :=
  { v4 with
    regs := { v4.regs with stackMask := 0 }
    mem := [(bmKey 0 0x40, 1)]
    tlb := [{ agent := 9472, asid := 0, base := 0x4000, bits := 14, leaf := BitVec.ofNat 64 (1 + at_ 1 1 + at_ 3 0xF + at_ 7 3 + at_ 16 3), leafAt := 0x31008 }] }

theorem witness_CopyCommandsAndEvents :
    let good (k : CmdKind) (i : Instr) (a : CArgs) (s : State) : Bool :=
      cmdFault k a s == none && freeSlot s == some 0 && cmdReady k a s && s.pace == .lockstep && (k != .sprog || !selectorBad s (newCmd i k a 0 s))
    good .cpy (.cpy cmdArgs) cmdArgs v0 = true ∧ good .chase (.chase cmdArgs) cmdArgs v2 = true ∧
    good .srun (.srun { cmdArgs with wx := 3 }) { cmdArgs with wx := 3 } v3 = true ∧ good .sprog (.sprog sprogArgs) sprogArgs (v4.wrW 3 (win .bit 0x8000)) = true ∧
    cmdFault .cpy { cmdArgs with wd := 0 } v0 = some (operandTrap 0) ∧
    cmdFault .sprog sprogArgs v5 = none ∧ freeSlot v5 = some 0 ∧ cmdReady .sprog sprogArgs v5 = true ∧
    (ahead v0).pace = .runAhead ∧ cmdReady .cpy cmdArgs (ahead v0) = true := by decide +kernel

theorem witness_CopyCommandsAndEvents_selector : selectorBad v5 (newCmd (.sprog sprogArgs) .sprog sprogArgs 0 v5) = true := by decide +kernel

/-- A copy in lockstep: its bytes, its token, its tag. -/
theorem test_cpy :
    let s : State := { v0 with mem := v0.mem.putNum (bmKey 0 0x20) 4 0x01020304 }
    let t := next (exec (.cpy cmdArgs) s)
    t.mem.num (bmKey 0 0) 4 = 0x01020304 ∧ t.front.cmds = [] ∧ t.front.csr.ctag = 1 ∧ t.front.pc = 8 ∧ t.rd 5 = 0x8000000000000002 := by decide +kernel

theorem witness_CopyCommandsAndEvents_engine :
    let s := issued .cpy (.cpy cmdArgs) cmdArgs (ahead v0)
    let c := newCmd (.cpy cmdArgs) .cpy cmdArgs 0 (ahead v0)
    let t := next (exec (.copySector s.front.sid 0) s)
    let d := (cmdAt t 0).getD c
    let fa : CArgs := { cmdArgs with follow := 1 }
    let f : Cmd := { newCmd (.cpy fa) .cpy fa 0 (ahead v0) with readDone := true }
    let fs := withFront (ahead v0) (fun r => { r with cmds := [f] })
    let g : Cmd := { f with reserved := true, cancelled := true }
    s.front.status ≠ .idle ∧ cmdAt s0 0 = none ∧ cmdAt s 0 = some c ∧ c.readDone = false ∧ stampMet s c.stamp = true ∧ kindOf c = some .cpy ∧
    answers (readCmd c) s = true ∧ d.readDone = true ∧ d.held ≠ [] ∧ writeMet t d = true ∧ readWhole c = true ∧
    answers (writeSector true d) t = true ∧
    actionDue fs f = true ∧ f.reserved = false ∧ roomFor fs (actionSectors fs f) = true ∧
    (let gs := withFront (ahead v0) (fun r => { r with cmds := [g] })
     actionDue gs g = true ∧ answers (doAction g) gs = true ∧ tokenDue gs { g with finished := true } = true ∧ gs.front.status = .running) := by
  decide +kernel

theorem witness_CopyCommandsAndEvents_runs :
    let a : CArgs := { cmdArgs with wx := 3 }
    let s := issued .srun (.srun a) a (ahead v3)
    let c := newCmd (.srun a) .srun a 0 (ahead v3)
    let r : Cmd := { c with runs := [{ pc := 0, rank := 0, outs := [], flags := 0, started := true, fault := none }] }
    let h := issued .chase (.chase cmdArgs) cmdArgs (ahead v2)
    let e := newCmd (.chase cmdArgs) .chase cmdArgs 0 (ahead v2)
    cmdAt s 0 = some c ∧ kindOf c = some .srun ∧ c.readDone = false ∧ stampMet s c.stamp = true ∧ ownerMet s (some (8192 + 0)) c.stamp = true ∧ vectorMet s c = true ∧ c.len ≠ 0 ∧ e.len ≠ 0 ∧
    answers (startRuns c (immOf c) (some 0)) s = true ∧ r.runs ≠ [] ∧ r.fault = false ∧ (∀ x ∈ r.runs, x.started = true) ∧
    answers (endRuns r r.runs) s = true ∧
    cmdAt h 0 = some e ∧ kindOf e = some .chase ∧ e.readDone = false ∧ stampMet h e.stamp = true ∧ answers (chaseStep e) h = true := by decide +kernel


/-- v2 with a declared footprint in w3, and at w2 a shape of one dimension of 16 elements, 8 bytes apart; as indices, these words. -/
def v6 : State :=
  { v2.wrW 3 (win .i32 0x4000 + BitVec.ofNat 128 (at_ 61 1 + at_ 64 0x200)) with
    mem := ((v2.mem.putNum (bmKey 0 0x88) 8 1).putNum (bmKey 0 0x90) 8 16).putNum (bmKey 1 0x90) 8 8 }

/-- Elements of whole bytes that an engine gathers: where they go, what they hold, that they may be written. -/
theorem witness_CopyCommandsAndEvents_elements :
    let good (k : CmdKind) (i : Instr) (a : CArgs) (s : State) : Bool :=
      let c := newCmd i k a 0 s
      let e : Eye := { copyEye s c with elem := 1 }
      let d := cmdDest k c e 1 0 1
      let t := left d s
      let x := cmdSource k c e 1
      !c.fmt.packed && answers d s && answers x t && answers (checkDest k c e 1 (got d s (0, 0)).1 c.fmt.bytes) (left x t)
    let fa : CArgs := { cmdArgs with ws := 1, wx := 2, imm := 3 }
    good .cpy (.cpy cmdArgs) cmdArgs v0 = true ∧ good .cpyf (.cpyf cmdArgs) cmdArgs v0 = true ∧ good .cpym (.cpym cmdArgs) cmdArgs v0 = true ∧
    good .cpyt (.cpyt fa) fa v6 = true ∧ good .cpyg (.cpyg fa) fa v6 = true ∧ good .cpys (.cpys fa) fa v6 = true := by decide +kernel

/-- A held sector that one write makes up, and places that it can be written to. -/
theorem witness_CopyCommandsAndEvents_write :
    let s := issued .cpy (.cpy cmdArgs) cmdArgs (ahead v0)
    let t := next (exec (.copySector s.front.sid 0) s)
    let d := (cmdAt t 0).getD (newCmd (.cpy cmdArgs) .cpy cmdArgs 0 v0)
    let x := d.held.headD { ord := 0, va := 0, bytes := [] }
    let one : Cmd := { d with held := [x] }
    let k := destKeys (copyEye t one) 0 x.va.toNat x.bytes.length
    writeMet t one = true ∧ one.fault = false ∧ answers (writeSector true one) t = true ∧
    (got (writeSector true one) t { one with fault := true }).fault = false ∧ answers k t = true ∧ (got k t (noPlace, [0, 0])).2.Nodup := by decide +kernel
/-! ### Events of homes and stacks -/

/-- A message of two partial sums for a sector of bank 1. -/
def aMsg (must : Bool) (answer : Option Bool) : AccMsg :=
  { sid := s0.front.sid, sender := 0, home := 1, sector := bmKey 1 0 / 32, peer := none, fmt := .i32, frac := 0, parts := [(0, 5), (1, 6)], must := must,
    watch := none, answer := answer }

def aResidual : Residual :=
  { bank := 7, sid := s0.front.sid, sector := bmKey 1 0 / 32, home := 1, peer := none, fmt := .i32, frac := 0, parts := [(0, 5)], watch := none }

def messages (ms : List AccMsg) (q : Nat) : State := { b0 with msgs := ms, quotas := [{ home := 1, sender := 0, count := q }] }

/-- With 32 messages queued at bank 1. -/
def crammed : State := { messages [aMsg false none] 15 with homeQ := List.replicate 32 (aMsg false none) }

theorem witness_AccumulateAndStackEvents : s0.msgs[3]? = none ∧ s0.homeQ[3 - 0]? = none ∧
    ({ s0 with homeQ := [aMsg false none] } : State).homeQ[0 - 0]? = some (aMsg false none) ∧
    (messages [aMsg false none] 16).msgs[0]? = some (aMsg false none) ∧ (aMsg false none).must = false ∧ (aMsg false none).peer = none ∧
    quotaOf (messages [aMsg false none] 16) 1 ≤ sentTo (messages [aMsg false none] 16) 1 0 ∧ 32 ≤ queuedAt crammed 1 ∧
    sentTo (messages [aMsg false none] 15) 1 0 < quotaOf (messages [aMsg false none] 15) 1 ∧ queuedAt (messages [aMsg false none] 15) 1 < 32 ∧
    ({ aMsg false none with peer := some 3 } : AccMsg).peer ≠ none ∧ (aMsg true none).must = true ∧
    (aMsg false (some true)).answer = some true ∧ (aMsg false (some false)).answer = some false ∧
    (({ b0 with residuals := [aResidual] } : State).residuals.filter (fun q => q.bank == 7))[0]? = some aResidual := by decide +kernel

/-- At the quota a message is refused and nothing else changes, and so it is with a full queue; below it, it is counted
and queued, and then added at its home. -/
theorem test_accumulate_events :
    let t := next (exec (.accumMessage 0) (messages [aMsg false none] 15))
    let u := next (exec (.accumMessage 1) t)
    next (exec (.accumMessage 0) (messages [aMsg false none] 16)) = messages [aMsg false (some false)] 16 ∧
    next (exec (.accumMessage 0) crammed) = { crammed with msgs := [aMsg false (some false)] } ∧
    t.mem = b0.mem ∧ sentTo t 1 0 = 16 ∧ t.homeQ = [aMsg false none] ∧ u.mem.num (bmKey 1 0) 4 = 5 ∧ u.mem.num (bmKey 1 4) 4 = 6 ∧ u.homeQ = [] ∧
    t.msgs = [aMsg false (some true)] ∧
    (next (exec (.accumAnswer 0) t)).msgs = [] ∧ (next (exec (.accumAnswer 0) (messages [aMsg false (some false)] 16))).residuals.length = 1 ∧
    (next (exec (.residualIdleExpiry 7 0) { b0 with residuals := [aResidual] })).mem.num (bmKey 1 0) 4 = 5 ∧
    sentTo (next (exec (.quotaInterval 1) t)) 1 0 = 0 := by decide +kernel

/-- Pseudo-channel 65 with a hint, an open row of its own and one of another channel. -/
def aHint : Hint := { pc := 65, bank := 6, row := 3 }
def rows0 : State := { s0 with hints := [aHint], rows := [{ pc := 65, bank := 2, row := 1, hinted := true }, { pc := 66, bank := 2, row := 1, hinted := true }] }

theorem witness_AccumulateAndStackEvents_stacks :
    let spareless := rows0.setStack 1 { rows0.stack 1 with spareU := true }
    rows0.hints.find? (fun h => h.pc == 65) = some aHint ∧ rows0.hints.find? (fun h => h.pc == 4) = none ∧ rows0.asleep.contains 65 = false ∧
    rows0.regs.stackMask.getLsbD (65 / 64) = true ∧ (rows0.stack 1).layers.getLsbD (6 / 4) = true ∧
    postponedOf rows0 65 2 < (rows0.stack 1).pmax.toNat ∧
    (rows0.stack 1).pmax.toNat ≤ postponedOf { rows0 with postponed := [{ pc := 65, bank := 2, count := 8 }] } 65 2 ∧
    (rows0.stack 1).sridle ≠ 0 ∧ engineBusy rows0 65 = false ∧
    (rows0.stack 1).spareU = false ∧ (spareless.stack 1).spareU = true ∧ (s0.setStack 1 { s0.stack 1 with layers := 0xFFFE }).stack 1 = { s0.stack 1 with layers := 0xFFFE } ∧
    (0x8000000000004000 : Word).getLsbD 63 = true := by decide +kernel

theorem test_stack_events :
    let r (bank : BitVec 6) (x : BitVec 10) (row : BitVec 14) : OpenRow := { pc := x, bank := bank, row := row, hinted := true }
    let t := next (exec (.hintActivate 65) rows0)
    t.hints = [] ∧ r 6 65 3 ∈ t.rows ∧ r 2 65 1 ∈ t.rows ∧ (next (exec (.hintRowClose 65 2) rows0)).rows = [r 2 66 1] ∧
    postponedOf (next (exec (.refreshDue 65 2 true) rows0)) 65 2 = 1 ∧ (next (exec (.refreshDue 65 2 false) rows0)).rows = [r 2 66 1] ∧
    (next (exec (.selfRefreshEntry 65 false) rows0)).asleep = [65] ∧ (next (exec (.selfRefreshEntry 65 true) rows0)).asleep = [] ∧
    (next (exec (.selfRefreshExit 65) { rows0 with asleep := [65, 3] })).asleep = [3] := by decide +kernel

theorem test_layer_failure :
    let spareless := rows0.setStack 1 { rows0.stack 1 with spareU := true }
    (next (exec (.layerFailure 1 0) rows0)).stack 1 = { rows0.stack 1 with spareU := true } ∧
    ((dropLayer 1 0 spareless).stack 1).layers = 0xFFFE ∧ (evacuate 1 spareless (2 ^ 36)).mem = spareless.mem ∧
    ((next (exec (.srmret 1 0x8000000000004000) (rows0.setStack 1 { rows0.stack 1 with remap := [(1, 9), (2, 8)] }))).stack 1).remap = [(2, 8)] := by
  decide +kernel


/-- A request queued at the bank's open row: the hint is dropped, and the channel stays awake. -/
theorem test_queued_request :
    let d := dramOf s0 0x34040
    let pc : BitVec 10 := BitVec.ofNat 10 (dramPc d)
    let o : OpenRow := { pc := pc, bank := BitVec.ofNat 6 d.bank, row := BitVec.ofNat 14 d.row, hinted := false }
    let s := withFront { s0 with rows := [o], hints := [{ pc := pc, bank := o.bank, row := o.row + 1 }] } (fun f => { f with accesses := [anAccess .store] })
    requestsAt s pc.toNat = [d] ∧ (next (exec (.hintActivate pc) s)).rows = [o] ∧ (next (exec (.hintActivate pc) s)).hints = [] ∧
    next (exec (.selfRefreshEntry pc false) s) = s := by decide +kernel

/-- Messages that a home performs: into a sector that cannot be corrected, into one that can be read, and of one 64-bit word. -/
theorem witness_AccumulateAndStackEvents_performs :
    let m := aMsg true none
    let n : AccMsg := { m with fmt := .n64, parts := [(2, 7)] }
    let all := keysFrom (32 * m.sector) 32
    let bad : State := { b0 with poison := [bmKey 1 0 / 8] }
    all.any (fun y => bad.poison.contains (y / 8)) = true ∧ unreadable b0 all = false ∧ (∀ p ∈ m.parts, (p.1 + 1) * m.fmt.bytes ≤ 32) ∧
    (∀ p ∈ n.parts, (p.1 + 1) * n.fmt.bytes ≤ 32) ∧ (performMsg b0 n).mem.num (bmKey 1 0x10) 8 = 7 := by decide +kernel
/-! ### The distributor -/

/-- A ready module whose queue 2 holds one record in host memory at 0x1000: two streams from 0x100 on one cell. -/
def d0 : State :=
  let q : LQueue := { LQueue.reset with base := 0x40, en := true, tail := 1 }
  let w3 : Nat := at_ 8 2 + at_ 13 3 + at_ 16 1
  { State.reset with
    mem := ((Memory.putNum [] (hmKey 0x1000) 8 0x100).putNum (hmKey 0x1008) 8 7).putNum (hmKey 0x1018) 8 w3
    lqueues := State.reset.lqueues.set 2 q
    dies := Vector.replicate 26 { Die.reset with state := 2 }
    regs := { Regs.reset with ready := true } }

def record0 : List Nat := (List.range 8).map (fun i => d0.num (headKey (d0.lq 2) + 8 * i) 8)

/-- With the record taken. -/
def taken0 : Taken := { words := record0, epoch := 1, hold := none, victims := [], slice := false }
def d1 : State := d0.setLq 2 { d0.lq 2 with taken := some taken0 }

theorem witness_DistributorEvents : d0.regs.ready = true ∧ d0.regs.fail = false ∧ State.reset.regs.ready = false ∧ (d0.lq 2).en = true ∧ (d0.lq 2).head ≠ (d0.lq 2).tail ∧
    (d0.lq 2).taken = none ∧ badField (recOf record0) record0 (d0.lq 2).pcap.toNat = false ∧
    badField (recOf record0) record0 2 = true ∧ mapsOf d0 (recOf record0) (d0.lq 2).cls = some [] ∧ runList d0 = [] ∧ runList d1 = [] ∧
    mapsOf d1 (recOf record0) (d1.lq 2).cls = some [] ∧
    (recOf record0).op = 0 ∧ (recOf record0).logMode = 0 ∧ (recOf record0).gvalid = false ∧
    ((blocks (recOf record0).domLog).head?.map (fun c => (blockCells c (recOf record0).domLog).all (cellOk d0))) = some true ∧
    chooseBlock d0 (some 2) (recOf record0) d0.running = some 0 ∧ lowestSid d0 (recOf record0).streams = some 1 ∧
    (d1.lq 2).taken = some taken0 ∧
    chooseBlock d1 (some 2) (recOf record0) d1.running = some 0 ∧ lowestSid d1 (recOf record0).streams = some 1 := by decide +kernel

theorem test_launch :
    let t := next (exec (.launchRecord 2) d0)
    let bad := d0.setLq 2 { d0.lq 2 with pcap := 2 }
    t.fronts.map (fun f => (f.sid, f.pc, f.s.get 1, f.s.get 2, f.s.get 3)) = [(1, 0x100, 7, 0, 2), (2, 0x100, 7, 1, 2)] ∧ (t.lq 2).head = 1 ∧ t.nextDom = 1 ∧
    t.num (hmKey 0x1038) 8 = 1 + 2 ^ 16 + 2 ^ 32 ∧ (next (exec (.placeLaunch 2) d1)).fronts.map (·.sid) = [1, 2] ∧
    (next (exec (.launchRecord 2) bad)).num (hmKey 0x1038) 8 = 18 ∧ (next (exec (.lqtailWrite 2 17) d0)).lq 2 = { d0.lq 2 with tail := 17, ovr := true, en := false } ∧
    ((next (exec (.lqcfgWrite 2 0xF) d0)).lq 2).en = false ∧ ((next (exec (.lqcfgWrite 2 0x11) d0)).lq 2).en = true ∧
    (let w := next (exec (.lqcfgWrite 2 0x11) (d0.setLq 2 { d0.lq 2 with tail := 20 }))
     (w.lq 2).en = false ∧ (w.lq 2).ovr = true) := by decide +kernel

/-- A launch of two streams, one of which is running in the front and one in turn, that an OP 2 record ends. -/
def killed : State :=
  let t := (next (exec (.launchRecord 2) d0)).rotate
  { t with launches := t.launches.map (fun l => { l with killers := [(2, hmKey 0x2000, 0)] }) }

theorem witness_DistributorEvents_streams :
    let f := killed.front
    let r : State := { killed with launches := [] }
    let p := withFront r (fun f => { f with preempt := true })
    killed.launches.find? (fun l => l.sid0 == 1 && l.killers != []) ≠ none ∧ (∀ f ∈ killed.streams, f.status ≠ .out) ∧
    s0.launches.find? (fun l => l.sid0 == 1 && l.killers != []) = none ∧ f.status = .running ∧ f.sid = 1 ∧
    p.front.preempt = true ∧ doomed p p.front = false ∧ p.front.heldBack = false ∧ p.regs.evEn = false ∧ r.front.preempt = false ∧
    ((1 + at_ 16 9 + at_ 32 1 : Nat) : Word).getLsbD 32 = true ∧ ((1 + at_ 16 9 + at_ 32 1 : Nat) : Word).extractLsb' 0 16 = f.sid := by decide +kernel

theorem test_streams :
    let r : State := { killed with launches := [] }
    let p := withFront r (fun f => { f with preempt := true })
    (next (exec (.terminateLaunch 1) killed)).streams.map (·.preempt) = [true, true] ∧
    (next (exec (.pretmoExpiry 1) p)).front.preempt = false ∧ (next (exec (.pretmoExpiry 1) p)).regs.evLost = 1 ∧
    (next (exec (.hostint (BitVec.ofNat 64 (1 + at_ 16 9 + at_ 32 1))) killed)).front.phost = some 9 := by decide +kernel

/-- The tests' stream away, its image at 0x4000 holding 77 for s5 and 0x203 for the pc. -/
def away0 : State :=
  withFront { i0 with mem := (i0.mem.putNum 0x38028 8 77).putNum 0x38200 8 0x203, dies := d0.dies } (fun f => { f with status := .out })

/-- Two streams run on cell 0, and a third, of their priority, is away. -/
def slices : State :=
  let f (sid : BitVec 16) (q : Bool) (st : Status) : Front := { Front.idle with status := st, sid := sid, seq := q }
  { d0 with lqueues := State.reset.lqueues, front := f 1 false .running, fronts := [f 2 true .running, f 3 false .out] }

def away3 : Front := { Front.idle with status := .out, sid := 3 }

theorem witness_DistributorEvents_away :
    let m := asSupervisor (imagePages .both)
    let vs := sliceVictims slices away3 slices.running []
      ((sortBy sliceBefore (slices.running.filter (fun g => g.csr.prio.toNat == away3.csr.prio.toNat && !spared g && !g.preempt))).filter
        (fun g => (blockCells away3.domBase.toNat away3.domLog.toNat).any (covers g)))
    away0.front.status = .out ∧ away0.front.logMode = 0 ∧ away0.front.byDevice = false ∧ away0.front.pdie = none ∧ away0.front.heldToks = [] ∧
    away0.fronts = [] ∧ resumeAt away0 away0.front away0.running = some (0, false) ∧ answers m away0 = true ∧
    s0.streams.find? (fun f => f.status == .out && f.sid == s0.front.sid) = none ∧ slices.regs.ready = true ∧
    runList slices = [away3] ∧ (∀ p : BitVec 6, queueOpen slices p = false) ∧ (∀ g ∈ slices.running, g.csr.prio = 0) ∧ slices.running ≠ [] ∧
    vs.map (·.length) = some 1 := by decide +kernel

theorem test_away :
    let t := next (exec (.streamResume away0.front.sid) away0)
    t.front.status = .running ∧ t.rd 5 = 77 ∧ t.front.pc = 0x200 ∧ t.front.csr.wpres = 0 ∧
    ((next (exec .timeSlice slices)).streams.map (·.preempt)) = [false, true, false] ∧
    next (exec .timeSlice { slices with regs := { slices.regs with ready := false } }) = { slices with regs := { slices.regs with ready := false } } := by
  decide +kernel

/-- A module whose die 0 has passed, with a key of one of its links and a translation of one of its banks; die 1 has not. -/
def die0 : State :=
  { s0 with dies := State.reset.dies.set 0 { Die.reset with state := 2 }, tlb := [aTlb 5 0x4000, aTlb 9216 0, aTlb 1030 0x4000] }

theorem witness_DistributorEvents_die : (die0.die 0).state = 2 ∧ (die0.die 1).state ≠ 2 := by decide +kernel

theorem test_dieReset :
    let t := next (exec (.dieReset 0) die0)
    (t.die 0).state = 4 ∧ t.tlb = [aTlb 1030 0x4000] ∧ next (exec (.dieReset 1) die0) = die0 := by decide +kernel

/-! ### Banks at their own pace -/

def ev (i : Instr) (s : State) : State := next (exec i s)

/-- A sum issued; begun by bank 0; by both banks of the map; retired by both. -/
def r0 : State := ev (.vadd (vecB .i32)) (ahead { v0 with mem := v0.mem.putNum (bmKey 0 0x20) 4 40 })
def r1 : State := ev (.bankBeginBroadcast r0.front.sid 0) r0
def r2 : State := ev (.bankBeginBroadcast r0.front.sid 1) r1
def r3 : State := ev (.bankRetire r0.front.sid 1) (ev (.bankRetire r0.front.sid 0) r2)

/-- A sum over a reduction's tree, at the same point. -/
def t0 : State := ev (.vredAdd { vec .i32 with wd := 5 }) (ahead { v0 with mem := v0.mem.putNum (bmKey 0 0x20) 4 40 })
def t3 : State :=
  ev (.bankRetire t0.front.sid 1) (ev (.bankRetire t0.front.sid 0) (ev (.bankBeginBroadcast t0.front.sid 1) (ev (.bankBeginBroadcast t0.front.sid 0) t0)))

theorem witness_BankEvents :
    let sid := s0.front.sid
    let b := (r0.front.bcasts.headD (bcast0 v0))
    (∀ s ∈ [r0, r2, r3], s.front.status = .running ∧ s.front.sid = sid ∧ s.pace = .runAhead) ∧
    inDomain r0.front.domBase.toNat r0.front.domLog.toNat 0 = true ∧ ((bcastAt r0 (retiredOf r0 0 + 1)).map (·.1)) = some b ∧
    r0.front.works.find? (fun w => w.own == 0 && w.isn == b.isn) = none ∧ (infoOfWord b.word).any (fun i => mayBegin r0 0 b i) = true ∧
    (infoOfWord b.word).any (fun i => mayBegin (withFront r0 (fun f => { f with accesses := [{ anAccess .store with key := bmKey 0 0 }] })) 0 b i) = false ∧
    ((r2.front.works.find? (fun w => w.own == 0 && w.isn == retiredOf r2 0 + 1)).map (·.todo)) = some [] ∧
    owedAt r2 0 (retiredOf r2 0 + 1) = true ∧
    (((withFront r2 (fun f => { f with works := [{ own := 0, isn := 1, todo := [3], bufs := [] }] })).front.works.find?
      (fun w => w.own == 0 && w.isn == 1)).map (·.todo)) = some [3] ∧
    landed r3 = false ∧ landed t3 = false ∧ r3.front.bcasts.length = 1 ∧ frontDriven (r3.front.bcasts.headD b).word = false ∧
    ((infoOfWord (r3.front.bcasts.headD b).word).map (fun info => allRetired r3 (r3.front.bcasts.headD b) info)) = some true ∧
    t3.front.bcasts.length = 1 ∧ frontDriven (t3.front.bcasts.headD b).word = false ∧
    ((infoOfWord (t3.front.bcasts.headD b).word).map (fun info => (info.body.result, allRetired t3 (t3.front.bcasts.headD b) info))) = some (some 5, true) := by
  decide +kernel

/-- What bank 0 has to do of the sum, done without a stop. -/
theorem witness_BankEvents_begin :
    (bcastAt r0 1).any (fun p =>
      let todo := itemsOf r0 p.1 p.2 0
      let fp := match (M.exec (p.2.body.foot (eyeOf r0 p.1) p.1) r0).1 with
        | .ok r => r
        | .error _ => none
      let e := ownerEye 0 p.1 []
      let m : M (List Item) := do p.2.body.ready e p.1; p.2.body.plan e fp p.1
      let u := setWork r0 { own := 0, isn := p.1.isn, todo := todo, bufs := [] }
      let w := workItems 0 ((got m u []).filter (fun it => todo.contains it.no)) (left m u) p.1 todo
      answers m u && todo == List.range 16 && w.2.2.1 == [] && w.2.2.2 == none) = true := by decide +kernel

theorem test_banks :
    let f := ev (.floorDelivery s0.front.sid) r3
    let t := ev (.treeResultReturn s0.front.sid) t3
    r0.mem.num (bmKey 0 0) 4 = 0 ∧ r1.mem.num (bmKey 0 0) 4 = 40 ∧ r3.front.csr.floor = 0 ∧ f.front.csr.floor = 1 ∧ f.front.bcasts = [] ∧
    f.shelves = [] ∧ t.rd 5 = 40 ∧ t.front.bcasts = [] ∧ t.front.csr.floor = 1 := by decide +kernel

/-- Pulls of the front, in each phase. -/
def aPull (ph : PullPhase) (stamp : Nat) : Pull := { own := 1, from_ := 0, isn := stamp + 1, elem := 0, sector := bmKey 1 0 / 32, lo := 0, hi := 32, base := 0x4000, bits := 14, stamp := stamp, age := 0, phase := ph }

def pulling (ph : PullPhase) (stamp : Nat) : State := withFront r0 (fun f => { f with pulls := [aPull ph stamp] })

def aReply : PullPhase := .replied [] (RaceTag.none_ (bmKey 1 0 / 32))

theorem witness_BankEvents_pulls :
    (pulling .sent 0).front.pulls[0]? = some (aPull .sent 0) ∧ pullReady (pulling .sent 0) (aPull .sent 0) = true ∧
    olderReady (pulling .sent 0) (aPull .sent 0) = false ∧ pullReady (pulling .sent 1) (aPull .sent 1) = false ∧
    pullReady (pulling .parked 0) (aPull .parked 0) = true ∧ pullReady (pulling .parked 1) (aPull .parked 1) = false ∧
    (aPull aReply 0).phase = aReply ∧ (pulling aReply 0).front.works = [] ∧
    r1.front.works.find? (fun w => w.own == 0 && w.isn == 1) ≠ none ∧ (bcastAt r1 1).isSome = true ∧
    (aPull (.refused 0) 0).stamp ≤ floorAt (pulling (.refused 0) 0) 0 ∧ floorAt (pulling (.refused 0) 1) 0 < (aPull (.refused 0) 1).stamp ∧
    (let p := { aPull .sent 0 with age := 1 }
     olderReady (withFront r0 (fun f => { f with pulls := [aPull .parked 0, p] })) p = true) := by decide +kernel

theorem test_pulls : (ev (.pullRequest s0.front.sid 0) (pulling .sent 0)).front.pulls.map (·.phase) = [.replied (List.replicate 32 0) (RaceTag.none_ (bmKey 1 0 / 32))] ∧
    (ev (.pullRequest s0.front.sid 0) (pulling .sent 1)).front.pulls.map (·.phase) = [.parked] ∧
    (ev (.pullReply s0.front.sid 0) (pulling aReply 0)).front.pulls = [] ∧
    (ev (.pullResend s0.front.sid 0) (pulling (.refused 0) 0)).front.pulls.map (·.phase) = [.sent] ∧
    ev (.pullResend s0.front.sid 0) (pulling (.refused 0) 1) = pulling (.refused 0) 1 := by decide +kernel

/-- A load and a store of bank 1's first bytes under way; the load performed. -/
def accessing (a : Access) : State := withFront r0 (fun f => { f with accesses := [a] })
def aLoad : Access := { anAccess (.load true 7) with key := bmKey 1 0, size := 4 }
def aStore : Access := { anAccess .store with key := bmKey 1 0, size := 4 }

theorem witness_BankEvents_accesses : accessTurn (accessing aLoad) 0 aLoad = true ∧ accessTurn (accessing aStore) 0 aStore = true ∧
    unreadable (accessing aStore) (keysFrom aStore.key aStore.size) = false ∧
    accessTurn (accessing { aLoad with done := some 5 }) 0 { aLoad with done := some 5 } = false ∧
    (ownerOf (accessing aLoad) aLoad.key).isSome = true ∧ aLoad.wrote = [] ∧ aLoad.acked = false ∧
    aLoad.isRel = false ∧ aStore.isRel = false ∧ aStore.stamp ≤ (accessing aStore).floor ∧
    (let a := { anAccess (.rel 7) with key := bmKey 1 0, done := some 5 }
     a.isRel = true ∧ relHeld (accessing a) a.key = false ∧ (ownerOf (accessing a) a.key).isSome = true) := by decide +kernel

/-- A store above the floor that finds its bank's shelf full, and its turn. -/
def fullBank : State :=
  let l : List Shelf := (List.range 256).map (fun n => { own := 1, sid := 0, sector := bmKey 1 0 / 32 + 1 + n, isn := 1, bytes := [], bad := [], action := false })
  { r2 with shelves := l, front := { r2.front with accesses := [{ aStore with stamp := 1 }] } }

theorem witness_BankEvents_shelved : accessTurn fullBank 0 { aStore with stamp := 1 } = true ∧ fullBank.floor < 1 ∧
    shelfRoom fullBank { aStore with stamp := 1 }.keys 1 = false := by decide +kernel

theorem test_accesses :
    let t := ev (.scalarAccess s0.front.sid 0) (accessing aStore)
    t.mem.num (bmKey 1 0) 4 = 5 ∧ t.front.accesses.map (·.done) = [some 0] ∧
    (ev (.scalarAccess s0.front.sid 0) (accessing aLoad)).front.accesses.map (·.done) = [some 0] ∧
    (ev (.scalarReply s0.front.sid 0) (accessing { aLoad with done := some 0xFFFFFFFE })).rd 7 = 0xFFFFFFFFFFFFFFFE := by decide +kernel

/-- A sum whose source w2 lies in no page, begun by bank 0, which finds its fault. -/
def faulted : State :=
  ev (.bankBeginBroadcast s0.front.sid 0) (ev (.vadd (vecB .i32)) (ahead (handled (v0.wrW 2 (win .i32 0x8000)))))

def theFault : TrapInfo := mkTrap causeXlateMissing 0x11 0 0x8000

theorem witness_BankEvents_stops :
    let h := withFront (handled s0) (fun f => { f with ppre := true })
    let m := withFront (handled s0) (fun f => { f with phost := some 9 })
    s0.front.found = none ∧ shelfFull theFault = false ∧ faulted.front.found = some (1, theFault) ∧ mayInterrupt s0 = false ∧
    mayInterrupt h = true ∧ h.front.csr.tvec ≠ 0 ∧ h.front.pwatch = none ∧ h.front.logMode = 0 ∧ mayInterrupt m = true ∧ m.front.ppre = false := by
  decide +kernel

theorem witness_BankEvents_still : Still (withFront (handled s0) (fun f => { f with ppre := true })) ∧
    Still (withFront (handled s0) (fun f => { f with phost := some 9 })) := by
  refine ⟨?_, ?_⟩ <;> (unfold Still; decide +kernel)

theorem witness_BankEvents_settles :
    (match (settleTo 1 (withdrawWaits faulted).front.bcasts (withdrawWaits faulted)).2 with
      | .fault _ t => t == theFault
      | _ => false) = true := by decide +kernel

/-- The stop for it: nothing performed, the sum in the queue from its first element. -/
theorem test_stop :
    let t := ev (.preciseStop s0.front.sid) faulted
    t.front.csr.cause = 0x04 ∧ t.front.csr.telem = 0 ∧ t.front.csr.taddr = 0x8000 ∧ t.front.csr.tpc = 8 ∧ t.front.csr.floor = 0 ∧
    t.front.queue.map (·.isn) = [1] ∧ t.front.csr.estart = 0 ∧ t.front.bcasts = [] := by decide +kernel

theorem test_interrupt :
    let t := ev (.interruptTaken s0.front.sid) (withFront (handled s0) (fun f => { f with phost := some 9 }))
    t.front.csr.cause = 0x21 ∧ t.front.csr.tinfo = 9 ∧ t.front.phost = none ∧ t.front.pc = 0x2000 ∧ t.front.csr.ie = false := by decide +kernel

/-! ### Fabric and trust -/

/-- An image's reference measurements, four of each die. -/
def measured : Image := { valid := true, svn := 0, digest := 0, refs := (List.range 104).map (fun n => BitVec.ofNat 256 n) }

/-- Every die attested; forge die 1, which goes on to attest below, among them. -/
def fab : State :=
  { State.reset with
    dies := Vector.replicate 26 { Die.reset with state := 2 }
    images := State.reset.images.set 0 measured
    regs := { Regs.reset with ready := true, podatt := 2 } }

/-- A light direction from cell 0 to cell 16, of die 1, and pair 0's inbound fibre. -/
def lit : BitVec 32 := 0x00001000
def fib0 : BitVec 32 := fibreIn fab 0

/-- `lit` with fields of its own. -/
def along (f : LinkDir → LinkDir) : State := fab.setDir (f (fab.dir lit))

def rekeyedAt (t : State) : Bool := (t.dir lit).gen == 0 && !(t.dir lit).kph && !(t.dir lit).oldKey && (t.dir lit).rekeys == 1 && (t.dir lit).discard == []

/-- A flit of a header and CTR, sealed for a direction at a generation, or with its tag spoilt. -/
def sealed (s : State) (d : BitVec 32) (g : Nat) (ok : Bool) (h : BitVec 48) (c : BitVec 32) : Flit :=
  let t := Config.gcmTag (linkKey (s.secret d) d g) (d ++ BitVec.ofNat 32 g ++ c) (0#80 ++ h) 0
  { route := h, fields := 0, payload := 0, tag := c ++ (if ok then t else ~~~t) }

theorem halves (c : BitVec 32) (t : BitVec 96) : (c ++ t).extractLsb' 0 96 = t ∧ (c ++ t).extractLsb' 96 32 = c :=
  ⟨BitVec.extractLsb'_append_eq_right, BitVec.extractLsb'_append_eq_left⟩

theorem tagOk_sealed (s : State) (d : BitVec 32) (g : Nat) (ok : Bool) (h : BitVec 48) (c : BitVec 32) :
    tagOk s d g (sealed s d g ok h c) = ok := by
  cases ok <;> simp [tagOk, sealed, halves, Flit.head]

/-- A header of class, KPH, source, SEQ and OPEN. -/
def header (cls kph src seq opn : Nat) : BitVec 48 := BitVec.ofNat 48 (cls + at_ 3 kph + at_ 12 src + at_ 25 seq + at_ 41 opn)

/-- Flits of class 6 of `lit`, the expected one and a later one, and an empty flit. -/
def flit (ok : Bool) (seq : Nat) : Flit := sealed fab lit 0 ok (header 6 0 0 seq 0) 5
def empty (ok : Bool) : Flit := sealed fab fib0 0 ok (header 7 0 0 0 0x21) 0

/-- A flit arrives. -/
def arrives (d : BitVec 32) (f : Flit) : Instr := .flitReceive d f.route f.fields f.payload f.tag

/-- One that no key opens. -/
def stale : Flit := { route := header 6 1 0 0 0, fields := 0, payload := 0, tag := 0 }

theorem witness_FabricAndTrustEvents_flits (ok : Bool) (seq : Nat) : tagOk fab lit 0 (flit ok seq) = ok ∧ tagOk fab fib0 0 (empty ok) = ok :=
  ⟨tagOk_sealed .., tagOk_sealed ..⟩

theorem witness_FabricAndTrustEvents_links :
    dirUp fab lit (flit true 0).cls.toNat = true ∧ dirUp State.reset lit 6 = false ∧ dirUp State.reset lit 0 = false ∧ lit ≠ BitVec.allOnes 32 ∧
    dirUp fab fib0 5 = true ∧ dirUp State.reset (fibreIn State.reset 0) 5 = false ∧ dirUp fab lit 0 = true ∧ stale.cls.toNat = 6 ∧
    (fab.dir lit).genOf (flit true 0).kph = some 0 ∧ (fab.dir lit).genOf stale.kph = none ∧ (fab.dir lit).gen = 0 ∧
    ((along fun l => { l with gen := 3 }).dir lit).genOf stale.kph = none ∧ ((along fun l => { l with gen := 3 }).dir lit).gen ≠ 0 ∧
    (fab.dir lit).fails.toNat < 15 ∧ 15 ≤ ((along fun l => { l with fails := 15 }).dir lit).fails.toNat ∧
    (fab.dir lit).discard = [] ∧ (flit true 0).seq = (fab.dir lit).expected (flit true 0).src (flit true 0).cls ∧
    (flit true 3).seq ≠ (fab.dir lit).expected (flit true 3).src (flit true 3).cls ∧
    (fab.dir lit).roll = 0 ∧ (fab.dir lit).oldKey = false ∧ ((along fun l => { l with roll := 1 }).dir lit).roll = 1 ∧
    ((along fun l => { l with roll := 2 }).dir lit).roll = 2 ∧ ((along fun l => { l with oldKey := true }).dir lit).oldKey = true ∧
    ((along fun l => { l with oldKey := true, newFlits := 4096 }).dir lit).newFlits = 4096 ∧ dirKind fib0 = 1 ∧ dirIn fib0 = 1 ∧
    (fab.dir fib0).genOf (empty true).kph = some 0 := by decide +kernel

/-- A flit no key opens re-keys, or at generation 0 fails once; the sixteenth failure re-keys; a resend ends what is discarded. -/
theorem test_flits :
    (ev (arrives lit stale) fab).dir lit = { fab.dir lit with fails := 1, discard := [(0, 6)] } ∧
    rekeyedAt (ev (arrives lit stale) (along fun l => { l with fails := 15, discard := [(3, 1)] })) = true ∧
    rekeyedAt (ev (arrives lit stale) (along fun l => { l with gen := 3 })) = true ∧
    ev (arrives lit { stale with route := header 7 1 0 0 0 }) fab = fab ∧
    (ev (.flitResend lit (0, 0)) (along fun l => { l with discard := [(0, 0), (0, 1)] })).dir lit = { fab.dir lit with discard := [(0, 1)] } := by
  decide +kernel

/-- The expected flit is taken and the next of its class is expected; one that does not open is discarded. -/
theorem test_flit_opened :
    ((ev (arrives lit (flit true 0)) fab).dir lit) = { fab.dir lit with ctr := 6, seqs := [(0, 6, 1)] } ∧
    ((ev (arrives lit (flit false 0)) fab).dir lit) = { fab.dir lit with fails := 1, discard := [(0, 6)] } := by
  have hc (ok : Bool) (n : Nat) : (flit ok n).ctr = 5 := (halves _ _).2
  have h1 : tagOk fab lit 0 (flit true 0) = true := (witness_FabricAndTrustEvents_flits true 0).1
  have h0 : tagOk fab lit 0 (flit false 0) = false := (witness_FabricAndTrustEvents_flits false 0).1
  have hu (ok : Bool) : dirUp fab lit (flit ok 0).cls.toNat = true := by cases ok <;> decide +kernel
  have hg (ok : Bool) : (fab.dir lit).genOf (flit ok 0).kph = some 0 := by cases ok <;> decide +kernel
  constructor
  · have e : ev (arrives lit (flit true 0)) fab = receiveFlit fab lit (flit true 0) := rfl
    rw [e, receiveFlit, hu, Laws.openFlit_ok (hg true) h1, openedFlit, hc]
    decide +kernel
  · have e : ev (arrives lit (flit false 0)) fab = receiveFlit fab lit (flit false 0) := rfl
    rw [e, receiveFlit, hu, Laws.openFlit_bad (hg false) h0]
    decide +kernel

theorem test_keys :
    (ev (.keyRollover lit) (ev (.keyRollover lit) (ev (.keyRollover lit) fab))).dir lit = { fab.dir lit with gen := 1, kph := true, oldKey := true } ∧
    (ev (.keyErase lit) (along fun l => { l with oldKey := true, newFlits := 4096 })).dir lit = fab.dir lit ∧
    (ev (.keyErase lit) (along fun l => { l with oldKey := true, newFlits := 4096, ordered := true })).dir lit = { fab.dir lit with roll := 1 } ∧
    (ev (.keyErase lit) (along fun l => { l with oldKey := true, newFlits := 4095 })).dir lit = { fab.dir lit with oldKey := true, newFlits := 4095 } ∧
    rekeyedAt (ev (.lkrekey (0x100001000)) (along fun l => { l with gen := 9, kph := true })) = true ∧
    (ev (.lkrekey 0x1000) fab).links = [] ∧ (ev (.lkrekey 0x1000) fab).regs.lkrekeyLow = 0x1000 := by decide +kernel

/-- Cell 16's token with its receiver's classes 0 and 1 nearly full; with endpoint 0 before, and another waiting. -/
def tok : State := fab.setToken { Token.fresh 16 with spent := true, last := some 3, free := ((Vector.replicate 7 64).set 0 31).set 1 32 }
def turned : State := fab.setToken { Token.fresh 16 with prev := some 0, waiting := [3] }

theorem witness_FabricAndTrustEvents_tokens :
    endDie 0 ≠ endDie 16 ∧ dirUp fab (lightDir 0 16) 0 = true ∧ (fab.token 16).spent = false ∧ (fab.token 16).prev ≠ some 0 ∧
    (fab.token 16).burst 16 32 [1, 2] = [1, 2] ∧ (tok.token 16).spent = true ∧ (fab.token 16).burst 16 32 [5] = [] ∧
    (turned.token 16).prev = some 0 ∧ (∃ w ∈ (turned.token 16).waiting, w ≠ (0 : BitVec 8)) ∧
    regionMin fab 0 = some fab.regs.treeMin ∧ fab.regs.pin = false ∧ regionMin fab 200 = none ∧
    { fab with regs := { fab.regs with pin := true } }.regs.pin = true := by decide +kernel

theorem test_tokens :
    let a := ev (.tokenPass 16 16 [] []) tok
    let b := ev (.tokenPass 16 0 [] (List.replicate 40 1)) fab
    let c := ev (.tokenPass 16 0 [1] []) turned
    (a.token 16).mask = 0x7E ∧ (a.token 16).spent = false ∧ (a.token 16).prev = some 3 ∧ (a.token 16).last = none ∧
    (b.token 16).spent = true ∧ (b.token 16).last = some 0 ∧ (b.token 16).free.toList = [64, 32, 64, 64, 64, 64, 64] ∧ (b.dir lit).ctr = 32 ∧
    (c.token 16).waiting = [3, 0] ∧ (c.token 16).spent = false ∧
    levelOf (ev (.governorLevel 3 false) fab) 3 = 2 ∧ levelOf (ev (.governorLevel 3 true) fab) 3 = 3 ∧
    levelOf (ev (.governorLevel 3 true) (setLevel fab 3 1)) 3 = 2 := by decide +kernel

/-- Pair 9 with its upper half parked, awake or waking. -/
def parked (w : Bool) : State := fab.setFibre { fab.fibre 9 with act := 4, parked := 0xF0, waking := w }

theorem witness_FabricAndTrustEvents_fibres :
    2 ^ ((fab.fibre 9).minact.toNat + 1) < (fab.fibre 9).act.toNat ∧ (fab.fibre 9).waking = false ∧ (fab.fibre 9).dead = false ∧
    ((parked true).fibre 9).waking = true ∧ ((parked true).fibre 9).parked &&& ~~~(0xF0 : BitVec 8) = 0 := by decide +kernel

theorem test_fibres :
    let f (i : Instr) (s : State) : Fibre := (ev i s).fibre 9
    (f (.fibrePark 9) fab).act = 4 ∧ (f (.fibrePark 9) fab).parked = 0xF0 ∧ (f (.fibreWake 9) (parked false)).waking = true ∧
    f (.wakeLock 9 0xF0) (parked true) = fab.fibre 9 ∧ (f (.wakeLock 9 0x30) (parked true)).act = 4 ∧
    ev (.emptyFlit 0 stale) State.reset = State.reset := by decide +kernel

/-- The root attests hub die 1, the first in the order; die 1 has been reset; it has no leaf left. -/
def rooted : State := { fab with dies := fab.dies.set 25 { Die.reset with state := 1 }, regs := { fab.regs with phase := 3 } }
def again : State := { fab with dies := fab.dies.set 1 { Die.reset with state := 4, gen := 6 }, regs := { fab.regs with phase := 6 } }
def leafless : State := { again with dies := again.dies.set 1 { Die.reset with state := 4, blkLeft := 0 } }
def oneLeaf : State := { again with dies := again.dies.set 1 { Die.reset with state := 4, blkLeft := 0, leaves := 1 } }

/-- What a die with nothing wrong answers. -/
def good (k : Nat) : SpdmReply :=
  { version := some true, caps := some (BitVec.allOnes 7), algs := some (BitVec.allOnes 4), cert := some (Config.dieUid k, true), challenge := some true,
    meas := some (true, referenceOf again k), psk := some true }

theorem witness_FabricAndTrustEvents_attestation :
    mayAttest rooted 25 = true ∧ mayAttest again 1 = true ∧ mayAttest rooted 0 = false ∧ (Die.signs 2 (rooted.die 25)).2 = 2 ∧ (Die.signs 2 (again.die 1)).2 = 2 ∧
    (Die.signs 2 (leafless.die 1)).2 = 0 ∧ (Die.signs 2 (oneLeaf.die 1)).2 = 1 ∧ mayAttest leafless 1 = true ∧ (referenceOf again 1).length = 4 ∧
    fab.regs.ready = true ∧ (1 : BitVec 6) ≠ fab.regs.pod ∧ peerReached fab 1 = true ∧ (∀ k ∈ attestOrder, (fab.die k).state ≠ 1 ∧ (fab.die k).state ≠ 4) ∧
    (fab.die 24).sign.isSome = true := by decide +kernel

/-- Answers that pass every step before the one that they fail. -/
theorem witness_FabricAndTrustEvents_replies (k : Nat) : let r := good k
    r.version = some true ∧ r.caps = some (BitVec.allOnes 7) ∧ r.algs = some (BitVec.allOnes 4) ∧ r.cert = some (Config.dieUid k, true) ∧
    r.challenge = some true ∧ r.meas = some (true, referenceOf again k) ∧ r.psk = some true ∧ silence.version ≠ some true ∧
    { r with caps := some 0 }.caps ≠ some (BitVec.allOnes 7) ∧ { r with algs := none }.algs ≠ some (BitVec.allOnes 4) ∧
    { r with cert := none }.cert ≠ some (Config.dieUid k, true) ∧ { r with challenge := none }.challenge = none ∧
    { r with challenge := some false }.challenge = some false ∧ { r with meas := none }.meas = none ∧
    { r with meas := some (false, []) }.meas ≠ some (true, referenceOf again k) ∧ { r with psk := none }.psk ≠ some true := by
  simp [good, silence]

theorem test_attestation :
    let q := ev (.attestTimeout 1 5) again
    let v := ev (.attestation 1 silence.toSpdmOffer silence.toSpdmProof) again
    (v.die 1).state = 3 ∧ (v.die 1).failStep = 1 ∧ v.die 1 = { again.die 1 with state := 3, failStep := 1 } ∧
    (q.die 1).state = 3 ∧ (q.die 1).failStep = 5 ∧ (q.die 1).gen = 6 ∧ (q.die 1).leaves = 63 ∧
    (q.regs.dies, q.regs.cells, q.regs.stackMask) = (fab.regs.dies &&& 0xFD, fab.regs.cells - 16, fab.regs.stackMask &&& 0xFFF3) ∧
    (ev (.attestTimeout 25 1) rooted).regs.phase = 4 := by decide +kernel

/-- A die that answers rightly passes; its exchange has taken two leaves. -/
theorem test_attestation_passes :
    let t := ev (.attestation 1 (good 1).toSpdmOffer (good 1).toSpdmProof) again
    (t.die 1).state = 2 ∧ (t.die 1).gen = 7 ∧ (t.die 1).blkLeft = Die.reset.blkLeft - 1 ∧ (t.die 1).leaves = 62 := by
  have hx : exchange again 1 (good 1) = (8, 2) :=
    Laws.exchange_passes rfl rfl rfl rfl (by decide +kernel) rfl rfl (by decide +kernel) rfl
  have e : ev (.attestation 1 (good 1).toSpdmOffer (good 1).toSpdmProof) again = attestEnd again 1 8 2 := by
    have h : ev (.attestation 1 (good 1).toSpdmOffer (good 1).toSpdmProof) again = (let x := exchange again 1 (good 1); attestEnd again 1 x.1 x.2) := rfl
    rw [h, hx]
  dsimp only
  rw [e]
  decide +kernel

theorem test_peers :
    (ev (.peerAttestation 1 true) { fab with regs := { fab.regs with podatt := 8 } }).regs.podatt = 0xA ∧ (ev (.peerAttestation 1 false) fab).regs.podatt = 2 ∧
    (ev (.peerAttestation 3 true) { fab with fibres := [] }).regs.podatt = 0xA ∧ (ev (.peerReset 1) fab).regs.podatt = 0 := by decide +kernel
/-! ### Debug -/

/-- The stream halted at its pc, with an address and data for the next command. -/
def halt0 (a d : Word) : State :=
  let t := ev (.debugHalt s0.front.sid) s0
  { t with regs := { t.regs with dbgAddr := a, dbgData := d } }

def busyDbg : State := { s0 with regs := { s0.regs with dbgBusy := true } }

/-- With the word at 8 uncorrectable. -/
def badWord : State := { halt0 8 0 with poison := [smKey 0x34008 / 8] }

theorem witness_DebugEvents :
    let h := halt0 0x4000 7
    s0.regs.dbgBusy = false ∧ busyDbg.regs.dbgBusy = true ∧ s0.front.status = .running ∧ s0.front.sid ≠ 0xFFFF ∧ s0.live s0.front.sid = true ∧
    s0.live 9 = false ∧ isHalted s0 s0.front.sid = false ∧ s0.front.halted = false ∧
    h.regs.dbgBusy = false ∧ h.front.status = .running ∧ h.front.sid = s0.front.sid ∧ h.front.halted = true ∧ haltable s0 = true ∧
    h.front.haltQueue = false ∧ (∀ g ∈ s0.fronts, g.status ≠ .idle → g.sid ≠ s0.front.sid) ∧
    (halt0 5 0).regs.dbgAddr = (5 : SReg).setWidth 64 ∧ (halt0 0x1020 0).regs.dbgAddr = 0x1000 + (0x20 : BitVec 12).setWidth 64 ∧
    (halt0 0x2006 0).regs.dbgAddr = 0x2000 + 2 * (3 : WReg).setWidth 64 ∧ (halt0 0x2007 0).regs.dbgAddr = 0x2001 + 2 * (3 : WReg).setWidth 64 ∧
    (let a := dbgName s0.front.sid (halt0 8 0)
     answers (dbgWord 8 .read) a = true ∧ unreadable (left (dbgWord 8 .read) a) (got (dbgWord 8 .read) a []) = false ∧
     answers (dbgWord 8 .write) a = true ∧ unreadable (left (dbgWord 8 .write) a) (got (dbgWord 8 .write) a []) = false) ∧
    (let a := dbgName s0.front.sid badWord
     answers (dbgWord 8 .read) a = true ∧ unreadable (left (dbgWord 8 .read) a) (got (dbgWord 8 .read) a []) = true) ∧
    (stops (dbgWord 12 .read) (dbgName s0.front.sid (halt0 12 0))).isSome = true ∧
    (stops (dbgWord 0x8000 .write) (dbgName s0.front.sid (halt0 0x8000 0))).isSome = true := by decide +kernel

/-- Halted with an instruction in its queue. -/
theorem witness_DebugEvents_queue :
    let b : Bcast := { bcast0 v0 with isn := 4 }
    let h := withFront (halt0 0 0) (fun f => { f with haltQueue := true, queue := [b] })
    h.front.halted = true ∧ h.front.haltQueue = true ∧ h.front.queue = [b] ∧ (ev (.debugResume h.front.sid) h).front.exemptAt = some 4 := by decide +kernel

theorem witness_DebugEvents_still : Still s0 := by unfold Still; decide +kernel

theorem test_halt :
    let h := halt0 0 0
    let r := ev (.debugResume h.front.sid) h
    let p := ev (.debugStep h.front.sid) h
    h.front.halted = true ∧ h.front.stopWin = true ∧ h.front.pc = s0.front.pc ∧ h.regs.dbgResult = 0 ∧ dbgIsHalted h = true ∧
    r.front.halted = false ∧ r.front.stopWin = false ∧ dbgIsHalted r = false ∧ dbgIsHalted p = false ∧ p.front.dbg = .one ∧ p.front.halted = false ∧
    (ev (.debugResume 9) s0).regs.dbgResult = 1 ∧ (ev (.debugReadMemory s0.front.sid) s0).regs.dbgResult = 2 ∧ ev (.debugHalt 9) busyDbg = busyDbg := by
  decide +kernel

theorem test_debug_registers :
    let rd (a : Word) : Word := (ev (.debugReadRegister s0.front.sid) ((halt0 a 0).wr 5 77 |>.wrW 3 (at_ 64 9 + 8 : Nat))).regs.dbgData
    let wr (a : Word) : State := ev (.debugWriteRegister s0.front.sid) (halt0 a 0x1234)
    rd 5 = 77 ∧ rd 0x2006 = 8 ∧ rd 0x2007 = 9 ∧ rd 0x1002 = 1 ∧ (wr 5).rd 5 = 0x1234 ∧ (wr 0).rd 0 = 0 ∧ (wr 0x2007).rdW 3 = at_ 64 0x1234 ∧
    (wr 0x1020).front = (csrWrite (halt0 0x1020 0x1234) 0x20 0x1234).front := by decide +kernel

theorem test_debug_memory :
    let w := ev (.debugWriteMemory s0.front.sid) (halt0 8 0x1122334455667788)
    let r := ev (.debugReadMemory s0.front.sid) { w with regs := { w.regs with dbgData := 0 } }
    w.regs.dbgResult = 0 ∧ w.mem.num (smKey 0x34008) 8 = 0x1122334455667788 ∧ r.regs.dbgData = 0x1122334455667788 ∧
    (ev (.debugReadMemory s0.front.sid) (halt0 12 0)).regs.dbgResult = 3 ∧ (ev (.debugWriteMemory s0.front.sid) (halt0 0x8000 0)).regs.dbgResult = 3 := by
  decide +kernel

/-- The debug master, which has one peer. -/
def master : State := { s0 with regs := { s0.regs with dbgMaster := true, podatt := 8 } }
def asked : State := ev (.debugForward (.sent 0x4310000)) master

theorem witness_DebugEvents_peers :
    let v : Word := 0x4310000
    v.getLsbD 26 = true ∧ v.extractLsb' 20 6 = 3 ∧ (3 : BitVec 6) ≠ s0.regs.pod ∧ s0.regs.dbgMaster = false ∧ master.regs.dbgMaster = true ∧
    master.regs.podatt.getLsbD 3 = true ∧ ({ master with regs := { master.regs with podatt := 0 } } : State).regs.podatt.getLsbD 3 = false ∧
    asked.regs.dbgSent = some 3 ∧ s0.regs.dbgSent = none ∧ pairFor master 3 0 ≠ none ∧
    pairFor { master with fibres := (List.range 256).map (fun k => { fibreFresh 0 k with dead := true }) } 3 0 = none ∧
    (let v : Word := BitVec.ofNat 64 (at_ 26 1 + at_ 16 4 + s0.front.sid.toNat)
     v.extractLsb' 20 6 = s0.regs.pod ∧ v.getLsbD 26 = true ∧ v.extractLsb' 0 16 = s0.front.sid ∧ v.extractLsb' 16 4 = BitVec.ofNat 4 (3 + 1)) ∧
    ((0x4310000 : Word).extractLsb' 20 6 ≠ s0.regs.pod) := by decide +kernel

theorem test_forward :
    let r := ev (.debugPeerReply 3 0 true 5) asked
    asked.regs.dbgBusy = true ∧ r.regs.dbgBusy = false ∧ r.regs.dbgData = 5 ∧ dbgIsHalted r = true ∧
    (ev (.debugPeerTimeout 3) asked).regs.dbgResult = 4 ∧ (ev (.debugForward (.sent 0x4310000)) s0).regs.dbgResult = 5 ∧
    ev (.debugForward (.arrived 0x4310000 5 7)) s0 = s0 ∧
    ((ev (.debugForward (.arrived (BitVec.ofNat 64 (at_ 26 1 + at_ 16 5 + s0.front.sid.toNat)) 5 7)) (halt0 0 0)).rd 5 = 7) ∧
    ((ev (.debugForward (.arrived (BitVec.ofNat 64 (at_ 26 1 + at_ 16 4 + s0.front.sid.toNat)) 5 0)) ((halt0 0 0).wr 5 77)).regs.dbgReply.map (·.2)) = some 77 := by
  decide +kernel

/-- A record on its way. -/
def aTrace : TraceRec := { type := 1, sid := s0.front.sid, cycle := 6, isn := 9, w2 := 2, w3 := 3 }

/-- Its first word, written out from its fields. -/
def word0 : Word := BitVec.ofNat 64 (1 + 2 ^ 8 * s0.front.sid.toNat + 2 ^ 24 * 6)

/-- A ring of four records, one of them lost or none; or the ring full. -/
def traced (head : Word) (lost : BitVec 32) : State :=
  { s0 with traceQ := [aTrace], regs := { s0.regs with trcSize := 7, trcBase := 0x34000, trcHead := head, trcLost := lost } }

/-- A bank's waits for another's instruction. -/
def aCharge : Charge := { own := 3, cpc := 16, ppc := 8, lag := 4, waits := 2 }
def charged (x : List StallPair) : State := withFront s0 (fun f => { f with charges := [aCharge], stalls := x })

theorem witness_DebugEvents_trace :
    s0.traceQ = [] ∧ aTrace ∈ (traced 0 0).traceQ ∧ aTrace.words = [word0, 9, 2, 3] ∧ word0 = aTrace.cycle ++ aTrace.sid ++ 0#4 ++ aTrace.type ∧ traceRoom (traced 4 0) = 0 ∧ traceRoom (traced 3 0) ≠ 0 ∧ (traced 3 0).regs.trcLost = 0 ∧
    2 ≤ traceRoom (traced 1 5) ∧ (traced 1 5).regs.trcLost ≠ 0 ∧ s0.front.status ≠ .idle ∧
    s0.front.charges.find? (fun c => c.own == 3 && c.cpc == 16 && c.ppc == 8) = none ∧
    (charged []).front.charges.find? (fun c => c.own == 3 && c.cpc == 16 && c.ppc == 8) = some aCharge ∧
    stillWaits (charged []) aCharge = false ∧ (charged []).front.stalls = [] ∧
    (charged [{ cpc := 16, ppc := 8, cycles := 9, lag := 9, waits := 1 }]).front.stalls = [{ cpc := 16, ppc := 8, cycles := 9, lag := 9, waits := 1 }] := by
  decide +kernel

theorem test_trace :
    let t := ev (.traceRecord word0 9 2 3) (traced 3 0)
    let l := ev (.traceRecord word0 9 2 3) (traced 1 5)
    t.regs.trcHead = 4 ∧ t.traceQ = [] ∧ t.mem.num (smKey 0x34060) 1 = 1 ∧ t.mem.num (smKey 0x34061) 2 = s0.front.sid.toNat ∧ t.mem.num (smKey 0x34063) 5 = 6 ∧ t.mem.num (smKey 0x34068) 8 = 9 ∧
    t.mem.num (smKey 0x34078) 8 = 3 ∧ l.regs.trcHead = 3 ∧ l.regs.trcLost = 0 ∧
    (ev (.traceRecord word0 9 2 3) (traced 4 1)).regs.trcLost = 2 ∧ ev (.traceRecord word0 9 2 4) (traced 3 0) = traced 3 0 := by decide +kernel

theorem test_stalls :
    let r (x : List StallPair) : List StallPair := (ev (.stallReport s0.front.sid 3 16 8 2 3) (charged x)).front.stalls
    r [] = [{ cpc := 16, ppc := 8, cycles := 5, lag := 4, waits := 2 }] ∧
    r [{ cpc := 16, ppc := 8, cycles := 9, lag := 9, waits := 1 }] = [{ cpc := 16, ppc := 8, cycles := 14, lag := 9, waits := 3 }] ∧
    ev (.stallReport s0.front.sid 3 16 9 2 3) (charged []) = charged [] := by decide +kernel
/-! ### Service and the host -/

/-- An image of an SVN. -/
def anImage (n : BitVec 6) : Image := { valid := true, svn := n, digest := 0, refs := [] }

/-- After calibration: phase 5 in slot 1, with a stored byte and a slot staged or not, its image of SVN 2. -/
def phase5 (st : Option Bool) : State :=
  { State.reset with
    mem := ((Memory.putNum [] (smKey 0x8000) 1 9).putNum (hmKey 0x40) 1 7), staged := st, poison := [4]
    images := (State.reset.images.set 0 (anImage 2)).set 1 (anImage 2)
    regs := { Regs.reset with phase := 5, slot := true } }

/-- In calibration. -/
def phase4 : State := { State.reset with regs := { Regs.reset with phase := 4 } }

theorem witness_ServiceAndHostEvents_boot :
    (∀ b, slotOk s0 false false b = false) ∧ slotOk (phase5 none) true false false = true ∧ slotOk (phase5 none) false true true = true ∧
    (phase5 none).regs.phase = 5 ∧ (phase5 none).regs.fail = false ∧ (phase5 none).regs.memgo = false ∧ s0.regs.phase ≠ 5 ∧ (phase5 none).regs.tripped = false ∧
    (phase5 (some false)).staged = some false ∧ phase4.regs.phase = 4 ∧ phase4.regs.fail = false ∧ (phase5 none).regs.phase ≠ 4 := by decide +kernel

theorem test_boot :
    let b (p k i j : Bool) : Regs := (ev (.bringUp p k (i, j) none) (phase5 none)).regs
    let m := ev .memgo (phase5 none)
    let c := ev .memgoTimeout (phase5 (some false))
    ((b false true true true).phase, (b false true true true).fail) = (1, true) ∧ (b true true false false).fstep = 2 ∧ (b true false true true).fstep = 2 ∧
    ((b true true false true).phase, (b true true false true).slot, (b true true false true).fail) = (3, true, false) ∧
    m.mem = Memory.putNum [] (hmKey 0x40) 1 7 ∧ m.regs.ready = true ∧ m.regs.phase = 6 ∧ m.poison = [] ∧
    c.committed = false ∧ c.burnt = 2 ∧ c.staged = none ∧
    (ev (.bringUp true true (true, true) none) (phase5 (some false))).regs.slot = false ∧
    (let k := ev (.bringUp true true (true, true) (some { failed := [.pair 9], trips := [(8, 1729), (7, 1728)] })) phase4
     k.regs.phase = 5 ∧ [(k.fibre 7).dead, (k.fibre 8).dead, (k.fibre 9).dead] = [false, true, true] ∧ (k.fibre 7).trip = 1728) := by decide +kernel

/-- A unit of a cell whose spares are used; one under repair of a running stream's cell. -/
def spent : State := { s0 with bankSpares := [3, 3], seqSpares := [3] }

theorem witness_ServiceAndHostEvents_units :
    (9000 : BitVec 13).toNat / 64 ≥ 12 ∧ cellOk s0 3 = true ∧ cellOk { s0 with cellsOut := [3] } 3 = false ∧ s0.repairs = [] ∧
    spareLeft s0 false 3 = true ∧ spareLeft s0 true 3 = true ∧ spareLeft spent false 3 = false ∧ spareLeft spent true 3 = false ∧
    (∀ f ∈ s0.running, covers f 3 = false) ∧ (∃ f ∈ s0.running, covers f 0 = true) ∧ cellOk s0 0 = true ∧ spareLeft s0 false 0 = true := by decide +kernel

theorem test_units :
    let a := ev (.unitRepair false 200) s0
    let b := ev (.unitRepair true 7) spent
    let c := ev (.unitRepair false 5) s0
    a.bankSpares = [3] ∧ a.repairs = [] ∧ a.regs.spares = 1 ∧ a.cellsOut = [] ∧ b.cellsOut = [3] ∧ b.regs.cells = s0.regs.cells - 1 ∧
    c.repairs = [(false, 5)] ∧ c.front.heldBack = true ∧ c.front.preempt = true := by decide +kernel

/-- Hub die 1 standing by. -/
def standby : State := { s0 with regs := { s0.regs with hubSby := true, hubAct := false, ready := true } }

theorem test_spares_and_hubs :
    let f := ev (.spareRepair true 9) s0
    let h := ev .hubFailover standby
    (f.fibre 9).dead = true ∧ (f.fibre 252).stands = some 9 ∧ (f.fibre 252).peer = (s0.fibre 9).peer ∧
    h.regs.hubAct = true ∧ h.regs.hubSby = false ∧ h.regs.ready = true ∧
    (ev .hubFailover { standby with regs := { standby.regs with hubSby := false } }).regs.ready = false := by decide +kernel

theorem witness_ServiceAndHostEvents_sensors :
    (s0.die 4).trip < 111 ∧ (110 : BitVec 8) ≤ (s0.die 4).trip ∧ (4400 : BitVec 16).toNat ≤ 4400 ∧ (s0.die 4).thr < 96 ∧ (90 : BitVec 8).toNat + 5 ≤ (s0.die 4).thr.toNat ∧
    ¬ (91 : BitVec 8).toNat + 5 ≤ (s0.die 4).thr.toNat ∧ (4180 : BitVec 16).toNat ≤ 4180 := by decide +kernel

theorem test_sensors :
    let hz (temp : BitVec 8) (w : BitVec 16) (m : BitVec 12) : BitVec 12 := ((ev (.throttle 4 temp (9, w)) (s0.setDie 4 { s0.die 4 with mhz := m })).die 4).mhz
    hz 96 4000 1800 = 1700 ∧ hz 96 4000 950 = 900 ∧ hz 95 4180 1500 = 1500 ∧ hz 90 4180 1500 = 1600 ∧ hz 90 4181 1500 = 1500 ∧ hz 90 4000 1750 = 1800 ∧
    hz 90 4401 1500 = 1400 ∧ (ev (.trip 4 110 (5, 77)) s0).regs.mpwr = 77 ∧ (ev (.trip 4 110 (5, 77)) s0).die 4 = { s0.die 4 with temp := 110, power := 5 } := by decide +kernel

theorem test_trip :
    let r := ev (.trip 4 111 (5, 77)) { s0 with dies := Vector.replicate 26 { Die.reset with state := 2 } }
    r.front = Front.idle ∧ r.regs.ready = false ∧ (r.die 4).state = 4 ∧ (r.die 24).state = 2 ∧ (r.die 25).state = 4 ∧ r.regs.hubSby = false := by decide +kernel

/-- An update asked for, or one in progress; the image too large. -/
def updating (busy : Bool) (len : Word) : State := { s0 with burnt := 2, regs := { s0.regs with updBusy := busy, updLen := len } }

theorem test_update :
    let g := ev (.updctlGo 1) (updating false 4096)
    let r (bad ok : Bool) (svn : BitVec 6) : State := ev (.imageStaged bad ok { svn := svn, digest := 0, refs := [] }) (updating true 4096)
    g.regs.updBusy = true ∧ (ev (.updctlGo 1) (updating false 0x4000001)).regs.updResult = 4 ∧ (ev (.updctlGo 0) (updating false 4096)).regs.updBusy = false ∧
    [(r true true 5), (r false false 5), (r false true 1), (r false true 2)].map (·.regs.updResult) = [5, 2, 3, 1] ∧
    (r false true 2).staged = some true ∧ slotImage (r false true 2) true = anImage 2 ∧ (r false true 1).staged = none ∧ (anImage 2).valid = true := by
  decide +kernel

theorem test_power :
    let p := ev (.powerLoss false 10) { s0 with dies := Vector.replicate 26 { Die.reset with state := 2, leaves := 9 } }
    let w := ev (.powerLoss true 0) (phase5 none)
    (p.die 10).leaves = 0 ∧ (p.die 10).state = 4 ∧ w.mem = Memory.putNum [] (hmKey 0x40) 1 7 ∧ w.regs.phase = 0 := by decide +kernel

theorem test_register_writes :
    let s : State := { s0 with regs := { s0.regs with dbgAddr := 0x1111111122222222 } }
    (ev (.registerWrite 0x810 8 (some 5)) s).regs.dbgAddr = 5 ∧ (ev (.registerWrite 0x810 4 (some 5)) s).regs.dbgAddr = 0x1111111100000005 ∧
    (ev (.registerWrite 0x814 4 (some 5)) s).regs.dbgAddr = 0x0000000522222222 ∧ (ev (.registerWrite 0x812 2 (some 5)) s).regs.dbgAddr = s.regs.dbgAddr ∧
    (ev (.registerWrite 0x814 8 (some 5)) s).regs.dbgAddr = s.regs.dbgAddr ∧
    (ev (.registerWrite 0x810 4 none) s).hostReply = some (.value [0x22, 0x22, 0x22, 0x22]) ∧ (ev (.registerWrite 0x812 2 none) s).hostReply = some .completerAbort ∧
    (ev (.registerWrite 0x10000 8 none) { s with regs := { s.regs with fail := true } }).hostReply = some .unsupportedRequest := by decide +kernel

theorem test_queue_writes :
    let t := ev (.registerWrite 0x100A0 8 (some 0x12345678950123)) s0
    let f : State := { s0 with regs := { s0.regs with fail := true } }
    s0.regs.fail = false ∧ f.regs.fail = true ∧ ((t.lq 2).asid, (t.lq 2).root, (t.lq 2).rclass) = (0x123, 0x234567895, true) ∧
    ((ev (.registerWrite 0x100A0 8 (some 0x12345678950123)) f).lq 2).asid = 0 := by decide +kernel

/-- The host in the stream's space, where the page at 0x4000 takes atomics. -/
def host0 : State :=
  let leaf : Nat := 1 + at_ 1 1 + at_ 3 0xF + at_ 12 1 + at_ 14 1 + at_ 26 (0x38000 / 2 ^ 14)
  let t := { s0 with mem := (s0.mem.putNum (smKey 0x31008) 8 leaf).putNum (smKey 0x38000) 4 40 }
  { t.setLq 0 { t.lq 0 with root := s0.front.root, rclass := s0.front.rclass, asid := s0.front.asid } with regs := { t.regs with b2asid := s0.front.asid } }

theorem witness_ServiceAndHostEvents_bar2 :
    let h : State := { host0 with front := hostFront host0 }
    let ok (va : Nat) (p : Perm) : Bool := answers (hostKeys va 4 p) h && !unreadable (left (hostKeys va 4 p) h) ((got (hostKeys va 4 p) h []).map (·.2))
    ok 0x4000 .read = true ∧ ok 0x4000 .write = true ∧ ok 0x4000 .both = true ∧ (∀ x ∈ got (hostKeys 0x4000 4 .both) h [], hostAtomOk x.1 = true) ∧
    (got (hostKeys 0 4 .both) h []).any (fun x => !pteSysa x.1.leaf) = true ∧ answers (hostKeys 0 4 .both) h = true ∧
    (∀ x ∈ got (hostKeys 0x4000 4 .both) h [], pteSysa x.1.leaf = true) ∧ (left (hostKeys 0x8000 4 .write) h).regs.evEn = false ∧
    (match stops (hostKeys 0x8000 4 .both) h with
      | some (.trap t) => t.cause != (hostUnsupported 0).cause
      | _ => false) = true ∧
    host0.regs.vbase.toNat * 2 ^ 30 + (0x4000 : BitVec 40).toNat = 0x4000 ∧ 0x4000 % 4 = 0 ∧
    (stops (hostKeys 0x8000 4 .read) h).isSome = true ∧ (stops (hostKeys 0x8000 4 .both) h).isSome = true := by decide +kernel

theorem test_bar2 :
    let r := ev (.bar2Access 0x4000 (.read 4) false 0 0) host0
    let w := ev (.bar2Access 0x4001 (.write [0x99, 0x98]) false 0 0) host0
    let a := ev (.bar2Access 0x4000 .fetchAdd false 0xFFFFFFFF 0) host0
    let c := ev (.bar2Access 0x4000 .cas false 7 40) host0
    r.hostReply = some (.value [40, 0, 0, 0]) ∧ w.mem.num (smKey 0x38000) 4 = 0x989928 ∧ a.hostReply = some (.value [40, 0, 0, 0]) ∧
    a.mem.num (smKey 0x38000) 8 = 39 ∧ c.mem.num (smKey 0x38000) 4 = 7 ∧ (ev (.bar2Access 0x8000 (.read 4) false 0 0) host0).hostReply = some .completerAbort ∧
    (ev (.bar2Access 0 .swap false 0 0) host0).hostReply = some .unsupportedRequest ∧
    (let z := ev (.bar2Access 0 (.resize 0) false 0 0) host0
     z.regs.b2size = 0 ∧ ev (.bar2Access 0x3FFFFFFE (.read 4) false 0 0) z = z) := by decide +kernel

/-- A load of host memory under way. -/
def awaited : State := withFront (ahead s0) (fun f => { f with accesses := [{ anAccess (.load false 7) with key := hmKey 0x40 }] })

theorem witness_ServiceAndHostEvents_completion :
    awaited.front.status ≠ .idle ∧ (awaited.front.accesses[(0 : BitVec 7).toNat]?).map hostRead = some true ∧
    (awaited.front.accesses[0]?).map (fun a => (a.done, a.acked)) = some (none, false) ∧ hostRead (anAccess .store) = false := by decide +kernel

theorem test_completion :
    let t (e : Bool) : List (Option Word × Bool) := (ev (.hostMemoryCompletion s0.front.sid (.access 0) e) awaited).front.accesses.map (fun a => (a.done, a.acked))
    t false = [(some 0, false)] ∧ t true = [(none, true)] ∧ (ev (.hostMemoryCompletion 0 (.word 0x40) true) s0).poison = [hmKey 0x40 / 8] ∧
    (ev (.hostMemoryCompletion 0 (.word 0x40) false) { s0 with poison := [hmKey 0x40 / 8] }).poison = [] := by decide +kernel

/-! ### Every step -/

theorem witness_StepKeepsCanonical : ∃ t, Canonical s0 ∧ step s0 = .next t := by
  refine ⟨next (step s0), ?_, goes_next _ _ ?_⟩
  · unfold Canonical; decide +kernel
  · decide +kernel

end Sys2Proof.Tests
end

section
/-! Memory read after write (R1). -/

namespace Sys2Proof.Proofs

open Sys2Proof Sys2Proof.Machine Sys2Proof.Safety Sys2Proof.Laws

/-! ### One byte -/

/-- A key below every listed one is not listed. -/
theorem get_of_lt_all {m : Memory} {k : Key} (h : ∀ c ∈ m, k < c.1) : m.get k = Memory.unlisted := by
  cases m with
  | nil => rfl
  | cons c r =>
    have hc : k < c.1 := h c (by simp)
    simp [Memory.get, hc, hc.ne']

/-- In canonical memory the entries behind the first have higher keys. -/
theorem lt_of_wf_cons {c d : Host.Cell} {r : Memory} (h : Memory.wf (c :: r) = true) (hd : d ∈ r) : c.1 < d.1 :=
  (List.pairwise_cons.1 ((wf_iff _).1 h).1).1 d hd

theorem wf_tail {c : Host.Cell} {r : Memory} (h : Memory.wf (c :: r) = true) : r.wf = true := ((wf_cons c r).1 h).2.2

/-- A byte written is the byte read at its key alone (R1). -/
theorem get_set_byte (m : Memory) (k j : Key) (b : Byte) (h : m.wf = true) : (m.set k b).get j = if j = k then b else m.get j := by
  induction m with
  | nil => by_cases hb : b = Memory.unlisted <;> simp [Memory.set, Memory.get, hb, eq_comm]
  | cons c r ih =>
    have hr (hj : j ≤ c.1) : Memory.get r j = Memory.unlisted := get_of_lt_all fun d hd => lt_of_le_of_lt hj (lt_of_wf_cons h hd)
    simp only [Memory.set]
    rcases lt_trichotomy k c.1 with hk | hk | hk
    · by_cases hb : b = Memory.unlisted <;> simp only [hk, hb, if_true, if_false, Memory.get] <;> grind
    · by_cases hb : b = Memory.unlisted <;> simp only [hk, hb, lt_irrefl, if_true, if_false, Memory.get] <;> grind
    · simp only [hk.not_gt, hk.ne, if_false, Memory.get, ih (wf_tail h)]
      grind

theorem get_set_same (m : Memory) (k : Key) (b : Byte) (h : m.wf = true) : (m.set k b).get k = b := by
  rw [get_set_byte m k k b h, if_pos rfl]

theorem get_set_other {m : Memory} {k j : Key} (b : Byte) (h : m.wf = true) (hj : j ≠ k) : (m.set k b).get j = m.get j := by
  rw [get_set_byte m k j b h, if_neg hj]

/-! ### Numbers, little-endian -/

theorem wordBytes_succ (n v : Nat) : wordBytes (n + 1) v = BitVec.ofNat 8 v :: wordBytes n (v / 256) := by
  simp [wordBytes, List.range_succ_eq_map, Nat.mul_succ, Nat.add_comm _ 8, Nat.shiftRight_add, Nat.shiftRight_eq_div_pow v 8]

theorem keysFrom_succ (k n : Nat) : keysFrom k (n + 1) = k :: keysFrom (k + 1) n := by
  simp [keysFrom, List.range_succ_eq_map, Function.comp_def, Nat.add_assoc, Nat.add_comm 1]

/-- A number of `n + 1` bytes is stored as its lowest byte and then the rest of it. -/
theorem putNum_succ (m : Memory) (k n v : Nat) : m.putNum k (n + 1) v = (m.set k (BitVec.ofNat 8 v)).putNum (k + 1) n (v / 256) := by
  simp [Memory.putNum, keysFrom_succ, wordBytes_succ, Memory.sets]

theorem num_succ (m : Memory) (k n : Nat) : m.num k (n + 1) = (m.get k).toNat + 256 * m.num (k + 1) n := by
  simp [Memory.num, Memory.gets, keysFrom_succ, bytesNat]

theorem get_putNum_outside (n : Nat) : ∀ (m : Memory) (k v j : Nat), m.wf = true → j < k ∨ k + n ≤ j → (m.putNum k n v).get j = m.get j := by
  induction n with
  | zero => intro m k v j _ _; rfl
  | succ n ih =>
    intro m k v j h hj
    have hk : j ≠ k := by omega
    rw [putNum_succ, ih _ _ _ _ (wf_set m k _ h) (by omega), get_set_other _ h hk]

/-- A number stored reads back modulo the bytes it was given (R1). -/
theorem num_putNum (n : Nat) : ∀ (m : Memory) (k v : Nat), m.wf = true → (m.putNum k n v).num k n = v % 2 ^ (8 * n) := by
  induction n with
  | zero => intro m k v _; simp [Memory.num, Memory.gets, keysFrom, bytesNat, Nat.mod_one]
  | succ n ih =>
    intro m k v h
    have hw := wf_set m k (BitVec.ofNat 8 v) h
    rw [num_succ, putNum_succ, get_putNum_outside n _ _ _ _ hw (by omega), get_set_same m k _ h, ih _ _ _ hw, BitVec.toNat_ofNat,
      Nat.mul_succ, Nat.add_comm (8 * n), Nat.pow_add, Nat.mod_mul]

/-- Settles O24: the laws of a byte, then induction on the bytes of a number, lowest first. -/
theorem memoryReadAfterWrite : Obligations.MemoryReadAfterWrite := by
  unfold Obligations.MemoryReadAfterWrite
  intro m k j n v b h
  exact ⟨get_set_same m k b h, get_set_other b h, wf_set m k b h, num_putNum n m k v h, wf_putNum m k n v h, get_putNum_outside n m k v j h⟩

end Sys2Proof.Proofs
end

section
/-! Windows (R159, R165, R167). -/

namespace Sys2Proof.Proofs

open Sys2Proof Sys2Proof.Machine Sys2Proof.Safety

/-- The bit that stands for window `w`, joined to a set of windows. -/
theorem getLsbD_or_window (x : BitVec 32) (w : WReg) (k : Nat) :
    (x ||| (1 : BitVec 32) <<< w.toNat).getLsbD k = (x.getLsbD k || k == w.toNat) := by
  have hw := w.isLt
  rw [BitVec.getLsbD_or, BitVec.getLsbD_shiftLeft]
  congr 1
  rcases lt_trichotomy k w.toNat with h | h | h
  · simp [h, h.ne]
  · simp [h, hw]
  · have : (1#32).getLsbD (k - w.toNat) = false := by rw [BitVec.getLsbD_one]; simp; omega
    simp [this, h.ne']

/-- A window written: whole but for the reserved bits, present and dirty; the instruction then goes on (R165). -/
theorem putWin_done (s : State) (wd w : WReg) (d : Desc) :
    let t := (putWin s wd d).done
    t.rdW wd = d &&& ~~~0xFFF00000000000008000000000000000 ∧ (∀ r, t.rd r = s.rd r) ∧ t.front.pc = s.front.pc + 8 ∧ t.mem = s.mem ∧
    (∀ k, t.front.csr.wpres.getLsbD k = (s.front.csr.wpres.getLsbD k || k == wd.toNat)) ∧
    (∀ k, t.front.csr.wdirty.getLsbD k = (s.front.csr.wdirty.getLsbD k || k == wd.toNat)) ∧
    (w ≠ wd → t.rdW w = s.rdW w) := by
  refine ⟨?_, fun r => rfl, rfl, rfl, getLsbD_or_window _ wd, getLsbD_or_window _ wd, fun h => ?_⟩
  · simp [putWin, done_eq, Desc.clean]
  · simp [putWin, done_eq, h]

theorem winFault_zero (s : State) : winFault s 0 = some (operandTrap 0) := rfl

theorem winFault_absent {s : State} {w : WReg} (hw : w ≠ 0) (hp : wpresent s w = false) :
    winFault s w = some (mkTrap causeWindowAbsent w.toNat) := by
  rw [winFault, if_neg hw, hp]; rfl

theorem winFault_present {s : State} {w : WReg} (hw : w ≠ 0) (hp : wpresent s w = true) : winFault s w = none := by
  rw [winFault, if_neg hw, hp]; rfl

theorem exec_wset (wd : WReg) (sa sb : SReg) (s : State) : exec (.wset wd sa sb) s =
    if wd = 0 then trapHere (operandTrap 0) s else .next ((putWin s wd (s.rd sb ++ s.rd sa)).done) := rfl

theorem exec_wget (sd : SReg) (wa : WReg) (hi : Bool) (s : State) : exec (.wget sd wa hi) s =
    ((winFault s wa).elim (.next ((s.wr sd (if hi then (s.rdW wa).extractLsb' 64 64 else (s.rdW wa).extractLsb' 0 64)).done))
      (fun t => trapHere t s)) := by
  show execWget sd wa hi s = _
  unfold execWget
  cases winFault s wa <;> rfl

theorem exec_wcpy (wd wa : WReg) (s : State) : exec (.wcpy wd wa) s =
    if wd = 0 then trapHere (operandTrap 0) s
    else (winFault s wa).elim (.next ((putWin s wd (s.rdW wa)).done)) (fun t => trapHere t s) := by
  show execWcpy wd wa s = _
  unfold execWcpy
  cases winFault s wa <;> rfl

/-- Settles O15: each instruction by whether it names w0 and whether the window it reads is present. -/
theorem windowInstructions : Obligations.WindowInstructions := by
  unfold Obligations.WindowInstructions
  intro wd wa w sd sa sb hi s
  dsimp only
  refine ⟨fun hd => ⟨_, ?_, putWin_done s wd w _⟩, fun hd ha hp => ⟨_, ?_, putWin_done s wd w _⟩, fun ha hp => ?_, ?_, ?_, ?_,
    fun ha hp => ?_, fun hd ha hp => ?_⟩
  · rw [exec_wset, if_neg hd]
  · rw [exec_wcpy, if_neg hd, winFault_present ha hp]; rfl
  · rw [exec_wget, winFault_present ha hp]; rfl
  · rw [exec_wset, if_pos rfl]; rfl
  · rw [exec_wcpy, if_pos rfl]; rfl
  · rw [exec_wget, winFault_zero]; rfl
  · rw [exec_wget, winFault_absent ha hp]; rfl
  · rw [exec_wcpy, if_neg hd, winFault_absent ha hp]; rfl

end Sys2Proof.Proofs
end

section
/-! Every step keeps memory canonical (R1, R137, R149).

One lemma per function of the model, in the order of its files, named by what the function answers: `wf_` a state,
`someWf_` a state that may be absent, `keepsM_` a computation, `items_` and `keeps_` what a broadcast carries out,
`ends_` an instruction's outcome. Each follows from the lemmas of the functions that it calls; memory itself changes
through `putNum`, `sets`, `overlay` and `filter` alone, whose laws are the model's own. -/

namespace Sys2Proof.Proofs

open Sys2Proof Sys2Proof.Machine Sys2Proof.Safety Sys2Proof.Laws

/-! ### Reading a result -/

variable {α β : Type}

/-- The state of a pair, named by a match on it. -/
theorem wf_of_eq {p : State × β} {t : State} {b : β} (h : p.1.mem.wf = true) (e : p = (t, b)) : t.mem.wf = true := by
  rw [e] at h; exact h

theorem wf_exec {m : M α} {s : State} (hm : KeepsM Canonical m) (h : s.mem.wf = true) :
    (M.exec m s).2.mem.wf = true := hm s h

/-- The state that a computation leaves, named by a match on its run. -/
theorem wf_of_exec {m : M α} {s t : State} {r : Except Stop α} (hm : KeepsM Canonical m) (h : s.mem.wf = true)
    (e : M.exec m s = (r, t)) : t.mem.wf = true := by
  have ht := wf_exec hm h
  rw [e] at ht; exact ht

theorem wf_ite {c : Prop} [Decidable c] {s t : State} (hs : s.mem.wf = true) (ht : t.mem.wf = true) :
    (if c then s else t).mem.wf = true := by
  split
  · exact hs
  · exact ht

theorem wf_elim {o : Option α} {s : State} {f : α → State} (hs : s.mem.wf = true) (hf : ∀ a, (f a).mem.wf = true) :
    (o.elim s f).mem.wf = true := by
  cases o with
  | none => exact hs
  | some a => exact hf a

theorem wf_fst_ite {c : Prop} [Decidable c] {p q : State × β} (hp : p.1.mem.wf = true) (hq : q.1.mem.wf = true) :
    (if c then p else q).1.mem.wf = true := by
  split
  · exact hp
  · exact hq

theorem wf_foldl {f : State → α → State} {l : List α} {s : State} (hf : ∀ t a, t.mem.wf = true → (f t a).mem.wf = true)
    (h : s.mem.wf = true) : (l.foldl f s).mem.wf = true := by
  induction l generalizing s with
  | nil => exact h
  | cons a l ih => exact ih (hf s a h)

theorem ends_next {s : State} (h : s.mem.wf = true) : Ends Canonical (.next s : Out) := by
  intro t ht; cases ht; exact h

theorem wf_of_next {o : Out} {s : State} (ho : Ends Canonical o) (e : o = .next s) : s.mem.wf = true := ho s e

theorem ends_ite {c : Prop} [Decidable c] {o p : Out} (ho : Ends Canonical o) (hp : Ends Canonical p) :
    Ends Canonical (if c then o else p) := by
  split
  · exact ho
  · exact hp

/-! ### Computations -/

theorem keepsM_set {s : State} (h : s.mem.wf = true) : KeepsM Canonical (set s : M PUnit) := fun _ _ => h

/-- What follows a look at the state may rely on its form. -/
theorem keepsM_bind_get {f : State → M α} (hf : ∀ s, s.mem.wf = true → KeepsM Canonical (f s)) :
    KeepsM Canonical (get >>= f) := fun s h => hf s h s h

theorem keepsM_ite {c : Prop} [Decidable c] {m n : M α} (hm : KeepsM Canonical m) (hn : KeepsM Canonical n) :
    KeepsM Canonical (if c then m else n) := by
  split
  · exact hm
  · exact hn

theorem keepsM_map {f : α → β} {m : M α} (hm : KeepsM Canonical m) : KeepsM Canonical (f <$> m) := by
  rw [map_eq_pure_bind]
  exact .bind hm fun _ => keepsM_pure _

theorem keepsM_mapM {f : α → M β} {l : List α} (hf : ∀ a, KeepsM Canonical (f a)) : KeepsM Canonical (l.mapM f) := by
  induction l with
  | nil => exact keepsM_pure _
  | cons a l ih =>
    rw [List.mapM_cons]
    exact .bind (hf a) fun _ => .bind ih fun _ => keepsM_pure _

theorem keepsM_foldlM {f : β → α → M β} {l : List α} {b : β} (hf : ∀ b a, KeepsM Canonical (f b a)) :
    KeepsM Canonical (l.foldlM f b) := by
  induction l generalizing b with
  | nil => exact keepsM_pure _
  | cons a l ih =>
    rw [List.foldlM_cons]
    exact .bind (hf b a) fun _ => ih

theorem keepsM_forM {f : α → M PUnit} {l : List α} (hf : ∀ a, KeepsM Canonical (f a)) :
    KeepsM Canonical (l.forM f) := by
  induction l with
  | nil => exact keepsM_pure _
  | cons a l ih => exact .bind (hf a) fun _ => ih

theorem wf_foldl_fst {f : State × β → α → State × β} {l : List α} {p : State × β}
    (hf : ∀ p a, p.1.mem.wf = true → (f p a).1.mem.wf = true) (h : p.1.mem.wf = true) :
    (l.foldl f p).1.mem.wf = true := by
  induction l generalizing p with
  | nil => exact h
  | cons a l ih => exact ih (hf p a h)

/-! ### What a broadcast carries out -/

/-- Every answer of the computation has the property. -/
def Gives (Q : α → Prop) (m : M α) : Prop := ∀ s a t, M.exec m s = (.ok a, t) → Q a

theorem Gives.of {Q : α → Prop} {m : M α} {s t : State} {a : α} (h : Gives Q m) (e : M.exec m s = (.ok a, t)) :
    Q a := h s a t e

theorem gives_pure {Q : α → Prop} {a : α} (h : Q a) : Gives Q (pure a) := by
  intro s b t e
  cases e
  exact h

theorem gives_trapM {Q : α → Prop} {x : TrapInfo} : Gives Q (trapM x) := by
  intro s a t e
  cases e

theorem gives_bind {Q : β → Prop} {m : M α} {f : α → M β} (h : ∀ a, Gives Q (f a)) : Gives Q (m >>= f) := by
  intro s b u e
  obtain ⟨a, t, -, e⟩ := exec_bind_inv e
  exact h a t b u e

theorem gives_ite {c : Prop} [Decidable c] {Q : α → Prop} {m n : M α} (hm : Gives Q m) (hn : Gives Q n) :
    Gives Q (if c then m else n) := by
  split
  · exact hm
  · exact hn

/-- What is known of a computation's answer may be used after it. -/
theorem gives_bind_of {P : α → Prop} {Q : β → Prop} {m : M α} {f : α → M β} (hm : Gives P m)
    (h : ∀ a, P a → Gives Q (f a)) : 
    Gives Q (m >>= f) := by
  intro s b u e
  obtain ⟨a, t, ha, e⟩ := exec_bind_inv e
  exact h a (hm.of ha) t b u e

/-- Both computations of an item keep memory canonical. -/
structure ItemKeeps (x : Item) : Prop where
  own : ∀ b, KeepsM Canonical (x.own b)
  run : ∀ b, KeepsM Canonical (x.run b)

def ItemsKeep (l : List Item) : Prop := ∀ x ∈ l, ItemKeeps x

/-- Every computation of a body, and of the items of its plan, keeps memory canonical. -/
structure BodyKeeps (d : Body) : Prop where
  foot : ∀ e b, KeepsM Canonical (d.foot e b)
  plan : ∀ e fp b, KeepsM Canonical (d.plan e fp b)
  items : ∀ e fp b, Gives ItemsKeep (d.plan e fp b)
  ready : ∀ e b, KeepsM Canonical (d.ready e b)
  phase1 : ∀ e b, KeepsM Canonical (d.phase1 e b)

theorem itemKeeps_mk {no elem own run again} (ho : ∀ b, KeepsM Canonical (own b)) (hr : ∀ b, KeepsM Canonical (run b)) :
    
    ItemKeeps ⟨no, elem, own, run, again⟩ := ⟨ho, hr⟩

theorem bodyKeeps_mk {foot plan root result recs ready phase1 apart} (hf : ∀ e b, KeepsM Canonical (foot e b))
    (hp : ∀ e fp b, KeepsM Canonical (plan e fp b)) (hi : ∀ e fp b, Gives ItemsKeep (plan e fp b))
    (hr : ∀ e b, KeepsM Canonical (ready e b)) (h1 : ∀ e b, KeepsM Canonical (phase1 e b)) :
    BodyKeeps ⟨foot, plan, root, result, recs, ready, phase1, apart⟩ := ⟨hf, hp, hi, hr, h1⟩

/-- The items that a plan answers may be relied on. -/
theorem keepsM_bind_items {m : M (List Item)} {f : List Item → M α} (hm : KeepsM Canonical m) (hi : Gives ItemsKeep m)
    (hf : ∀ l, ItemsKeep l → KeepsM Canonical (f l)) : KeepsM Canonical (m >>= f) := by
  intro s h
  have ht := hm s h
  rw [exec_bind]
  rcases hr : M.exec m s with ⟨r, t⟩
  rw [hr] at ht
  cases r with
  | ok l => exact hf l (hi.of hr) t ht
  | error x => exact ht

theorem items_nil : ItemsKeep [] := nofun

theorem items_cons {x : Item} {l : List Item} (hx : ItemKeeps x) (hl : ItemsKeep l) : ItemsKeep (x :: l) := by
  intro y hy
  rcases List.mem_cons.1 hy with rfl | hy
  · exact hx
  · exact hl y hy

theorem ItemsKeep.head {x : Item} {l : List Item} (h : ItemsKeep (x :: l)) : ItemKeeps x := h x (by simp)
theorem ItemsKeep.tail {x : Item} {l : List Item} (h : ItemsKeep (x :: l)) :
    ItemsKeep l := fun y hy => h y (by simp [hy])

theorem items_map {f : α → Item} {l : List α} (h : ∀ a, ItemKeeps (f a)) : ItemsKeep (l.map f) := by
  intro x hx
  obtain ⟨a, -, rfl⟩ := List.mem_map.1 hx
  exact h a

theorem items_hAppend {l r : List Item} (hl : ItemsKeep l) (hr : ItemsKeep r) : ItemsKeep (l ++ r) := by
  intro x hx
  rcases List.mem_append.1 hx with hx | hx
  · exact hl x hx
  · exact hr x hx

theorem items_flatMap {f : α → List Item} {l : List α} (h : ∀ a, ItemsKeep (f a)) : ItemsKeep (l.flatMap f) := by
  intro x hx
  obtain ⟨a, -, hx⟩ := List.mem_flatMap.1 hx
  exact h a x hx

theorem items_filter {p : Item → Bool} {l : List Item} (h : ItemsKeep l) : ItemsKeep (l.filter p) :=
  fun x hx => h x (List.mem_of_mem_filter hx)

theorem items_ite {c : Prop} [Decidable c] {l r : List Item} (hl : ItemsKeep l) (hr : ItemsKeep r) :
    ItemsKeep (if c then l else r) := by
  split
  · exact hl
  · exact hr

/-! ### How a stop comes out -/

/-- The state of a stop, recorded or held up. -/
def stopState : StopOut → State
  | .stopped s _ _ => s
  | .waits s => s

theorem wf_of_stopped {x : StopOut} {s : State} {t : TrapInfo} {pc : Word} (h : (stopState x).mem.wf = true)
    (e : x = .stopped s t pc) : 
    s.mem.wf = true := by rw [e] at h; exact h

theorem wf_of_waits {x : StopOut} {s : State} (h : (stopState x).mem.wf = true) (e : x = .waits s) :
    s.mem.wf = true := by
  rw [e] at h; exact h

/-! ### A state that may be absent -/

/-- The state that is answered, if any, has a canonical memory. -/
def SomeWf (o : Option State) : Prop := ∀ u, o = some u → u.mem.wf = true

theorem SomeWf.of {o : Option State} {u : State} (h : SomeWf o) (e : o = some u) : u.mem.wf = true := h u e

theorem someWf_none : SomeWf none := fun u e => absurd e (Option.some_ne_none u).symm

theorem someWf_some {s : State} (h : s.mem.wf = true) : SomeWf (some s) := fun _ e => Option.some.inj e ▸ h

theorem someWf_ite {c : Prop} [Decidable c] {o p : Option State} (ho : SomeWf o) (hp : SomeWf p) :
    SomeWf (if c then o else p) := by
  split
  · exact ho
  · exact hp

theorem wf_getD {o : Option State} {s : State} (ho : SomeWf o) (h : s.mem.wf = true) : (o.getD s).mem.wf = true := by
  cases o with
  | none => exact h
  | some u => exact ho u rfl

theorem someWf_findSome {f : α → Option State} {l : List α} (hf : ∀ a, SomeWf (f a)) : SomeWf (l.findSome? f) := by
  intro u e
  obtain ⟨a, -, ha⟩ := List.exists_of_findSome?_eq_some e
  exact hf a u ha

/-! ### Events, the trace and the front of a stream -/

theorem wf_setStack {s : State} (h : s.mem.wf = true) {n r} : (s.setStack n r).mem.wf = true := h

theorem wf_write {s : State} (h : s.mem.wf = true) {k n v} : (s.write k n v).mem.wf = true :=
  Laws.wf_putNum _ _ _ _ h

theorem wf_putNum {s : State} (h : s.mem.wf = true) {k n v} : (s.putNum k n v).mem.wf = true :=
  wf_write h

theorem wf_wr {s : State} (h : s.mem.wf = true) {r v} : (s.wr r v).mem.wf = true := wf_ite h h

theorem wf_wrW {s : State} (h : s.mem.wf = true) {w d} : (s.wrW w d).mem.wf = true := h

theorem wf_setPc {s : State} (h : s.mem.wf = true) {x} : (s.setPc x).mem.wf = true := h

theorem wf_mapCsr {s : State} (h : s.mem.wf = true) {f} : (s.mapCsr f).mem.wf = true := h

theorem wf_orFlags {s : State} (h : s.mem.wf = true) {f} : (s.orFlags f).mem.wf = true :=
  wf_mapCsr h

theorem wf_onStream {s : State} (h : s.mem.wf = true) {sid f} (hf : ∀ t0, t0.mem.wf = true → (f t0).mem.wf = true) :
    (s.onStream sid f).mem.wf = true := by
  unfold State.onStream
  refine wf_ite (hf _ h) ?_
  split
  · exact h
  · dsimp only
    split <;> exact hf _ h

theorem wf_mapStreams {s : State} (h : s.mem.wf = true) {f} : (s.mapStreams f).mem.wf = true := h

theorem wf_rotate {s : State} (h : s.mem.wf = true) : s.rotate.mem.wf = true := by
  unfold State.rotate
  split <;> exact h

theorem keepsM_trapM {α : Type} {t} : KeepsM Canonical (trapM t : M α) := keepsM_throw _

theorem keepsM_waitM {α : Type} : KeepsM Canonical (waitM : M α) := keepsM_throw _

theorem keepsM_captured {α : Type} {m : M α} (hm : KeepsM Canonical m) : KeepsM Canonical (captured m) := hm

theorem wf_setDie {s : State} (h : s.mem.wf = true) {k d} : (s.setDie k d).mem.wf = true := h

theorem wf_setFibre {s : State} (h : s.mem.wf = true) {f} : (s.setFibre f).mem.wf = true := h

theorem wf_signal {s : State} (h : s.mem.wf = true) {v} : (s.signal v).mem.wf = true := wf_ite h h

theorem wf_hostPut {s : State} (h : s.mem.wf = true) {n n1 v} : (s.hostPut n n1 v).mem.wf = true :=
  wf_write h

theorem wf_event {s : State} (h : s.mem.wf = true) {type die ps} : (s.event type die ps).mem.wf = true := by
  unfold State.event
  dsimp only
  refine wf_ite (wf_ite (wf_signal ?_) ?_) h
  all_goals
    dsimp only
    exact wf_foldl (fun _ _ h1 => wf_hostPut h1) (wf_hostPut h)

theorem wf_traced {s : State} (h : s.mem.wf = true) {type isn w2 w3} : (s.traced type isn w2 w3).mem.wf = true :=
  wf_ite h h

theorem wf_traceWords {s : State} (h : s.mem.wf = true) {r0 r1 r2 r3} : (s.traceWords r0 r1 r2 r3).mem.wf = true := by
  unfold State.traceWords
  dsimp only
  refine wf_ite ?_ ?_
  · dsimp only
    exact wf_putNum (wf_putNum (wf_putNum (wf_putNum h)))
  · exact h

/-! ### Translation -/

theorem keepsM_setAD {k wr} : KeepsM Canonical (setAD k wr) :=
  keepsM_modify fun _ h => wf_ite h (wf_write h)

theorem wf_touch {s : State} (h : s.mem.wf = true) {ks} : (s.touch ks).mem.wf = true := wf_ite h h

theorem wf_walked {s : State} (h : s.mem.wf = true) {va} : (s.walked va).mem.wf = true :=
  wf_ite h (wf_touch h)

theorem keepsM_lookup {agent va wr elem} : KeepsM Canonical (lookup agent va wr elem) := by
  unfold lookup
  refine keepsM_bind_get fun s _ => keepsM_ite keepsM_trapM ?_
  extract_lets walkOn go
  have hwalkOn : ∀ u, KeepsM Canonical (walkOn u) := by
    intro u
    refine .bind (keepsM_modify fun _ ht => wf_walked ht) fun _ => ?_
    split
    · exact keepsM_pure _
    all_goals exact keepsM_trapM
  have hgo : ∀ u, KeepsM Canonical (go u) := fun _ =>
    keepsM_ite (.bind (keepsM_throw _) hwalkOn) (hwalkOn ())
  split
  · exact keepsM_ite (keepsM_pure _) (hgo ())
  · exact hgo ()

theorem keepsM_xlate {agent va p elem} : KeepsM Canonical (xlate agent va p elem) := by
  unfold xlate
  refine .bind keepsM_lookup fun a => ?_
  split
  exact keepsM_bind_get fun _ _ =>
    keepsM_ite keepsM_trapM <|
    keepsM_ite keepsM_trapM (keepsM_ite (.bind keepsM_setAD fun _ => keepsM_pure _) (keepsM_pure _))

theorem keepsM_keysM {pl va n elem} : KeepsM Canonical (keysM pl va n elem) := by
  unfold keysM
  refine keepsM_bind_get fun s h => ?_
  split
  · exact keepsM_pure _
  · exact keepsM_trapM

theorem wf_shootDown {s : State} (h : s.mem.wf = true) {reach asid va len} :
    (shootDown s reach asid va len).mem.wf = true :=
  h

/-! ### Logs and their replay -/

theorem wf_setLog {s : State} (h : s.mem.wf = true) {c} : (s.setLog c).mem.wf = true := h

theorem wf_putStat {s : State} (h : s.mem.wf = true) {c} : (s.putStat c).mem.wf = true :=
  wf_putNum (wf_putNum (wf_putNum h))

theorem wf_putHead {s : State} (h : s.mem.wf = true) {c} : (s.putHead c).mem.wf = true :=
  wf_putNum h

theorem wf_putTail {s : State} (h : s.mem.wf = true) {c} : (s.putTail c).mem.wf = true :=
  wf_putNum h

theorem wf_ringPut {s : State} (h : s.mem.wf = true) {c r} : (ringPut s c r).1.mem.wf = true := by
  unfold ringPut
  dsimp only
  exact wf_fst_ite
    (wf_putStat <|
     wf_ite (wf_putHead (wf_foldl (fun _ _ h1 => wf_putNum h1) h)) <|
     wf_foldl (fun _ _ h1 => wf_putNum h1) h)
    (wf_ite (wf_putHead (wf_foldl (fun _ _ h1 => wf_putNum h1) h)) <|
     wf_foldl (fun _ _ h1 => wf_putNum h1) h)

theorem wf_logSignal {s : State} (h : s.mem.wf = true) {c} : (s.logSignal c).mem.wf = true :=
  wf_ite (wf_signal h) h

theorem wf_openGap {s : State} (h : s.mem.wf = true) {c r} : (openGap s c r).1.mem.wf = true := by
  unfold openGap
  dsimp only
  exact wf_logSignal (wf_putStat (wf_ringPut h))

theorem wf_closeGap {s : State} (h : s.mem.wf = true) {c} : (closeGap s c).1.mem.wf = true := by
  unfold closeGap
  split
  · refine wf_fst_ite ?_ h
    dsimp only
    exact wf_logSignal (wf_ringPut h)
  · exact h

theorem wf_giveIndex {s : State} (h : s.mem.wf = true) {c r} : (giveIndex s c r).1.mem.wf = true := by
  unfold giveIndex
  refine wf_fst_ite h (wf_fst_ite ?_ (wf_fst_ite ?_ h))
  · dsimp only
    exact wf_ringPut h
  · dsimp only
    exact wf_openGap h

theorem wf_holdRec {s : State} (h : s.mem.wf = true) {c r} : (holdRec s c r).1.mem.wf = true :=
  wf_fst_ite h (wf_logSignal (wf_putStat (wf_putHead h)))

theorem wf_writerTake {s : State} (h : s.mem.wf = true) {c r} : (writerTake s c r).1.mem.wf = true := by
  unfold writerTake
  refine wf_fst_ite (wf_holdRec h) ?_
  split
  · exact wf_of_eq (wf_giveIndex h) ‹_›
  · exact wf_holdRec (wf_of_eq (wf_giveIndex h) ‹_›)

theorem wf_replyIndex {s : State} (h : s.mem.wf = true) {r i} : (replyIndex s r i).mem.wf = true :=
  wf_ite h (wf_onStream h fun _ h1 => wf_wr h1)

theorem wf_writerDrain {l} {s : State} (h : s.mem.wf = true) {c} : (writerDrain l s c).1.mem.wf = true := by
  induction l generalizing s c with
  | nil =>
    unfold writerDrain
    exact wf_putStat h
  | cons x l ih =>
    unfold writerDrain
    split
    · exact ih (wf_replyIndex (wf_of_eq (wf_giveIndex h) ‹_›))
    · exact wf_of_eq (wf_giveIndex h) ‹_›

theorem wf_writerPoll {s : State} (h : s.mem.wf = true) {c} : (writerPoll s c).1.mem.wf = true := by
  unfold writerPoll
  dsimp only
  split
  · exact wf_closeGap h
  · exact wf_writerDrain (wf_closeGap h)

theorem wf_putLog {s : State} (h : s.mem.wf = true) {c} : (s.putLog c).mem.wf = true := by
  unfold State.putLog
  dsimp only
  refine wf_ite ?_ (wf_setLog h)
  dsimp only
  exact wf_putStat (wf_putHead h)

theorem wf_logPoll {s : State} (h : s.mem.wf = true) {id} : (logPoll s id).mem.wf = true := by
  unfold logPoll
  split
  · refine wf_ite h ?_
    dsimp only
    exact wf_putLog (wf_writerPoll h)
  · exact h

theorem wf_recordIn {s : State} (h : s.mem.wf = true) {id r} : (recordIn s id r).mem.wf = true := by
  unfold recordIn
  split
  · refine wf_ite h ?_
    dsimp only
    exact wf_setLog (wf_writerTake h)
  · exact h

theorem wf_record {s : State} (h : s.mem.wf = true) {type sub obj n b} : (record s type sub obj n b).mem.wf = true :=
  wf_ite (wf_recordIn h) h

theorem wf_advanceTail {n} {s : State} (h : s.mem.wf = true) {c} : (advanceTail n s c).1.mem.wf = true := by
  induction n generalizing s c with
  | zero =>
    unfold advanceTail
    exact h
  | succ n ih =>
    unfold advanceTail
    exact wf_fst_ite (ih (wf_ite (wf_putTail h) h)) h

theorem wf_consume {s : State} (h : s.mem.wf = true) {c i} : (consume s c i).1.mem.wf = true :=
  wf_advanceTail h

theorem wf_markDiverged {s : State} (h : s.mem.wf = true) {c i} : (markDiverged s c i).mem.wf = true :=
  wf_setLog (wf_putTail (wf_putStat h))

theorem keepsM_diverge {α : Type} {c cause type i elem} : KeepsM Canonical (diverge c cause type i elem : M α) :=
  .bind (keepsM_modify fun _ h => wf_markDiverged h) fun _ => keepsM_trapM

theorem keepsM_waitAt {α : Type} {obj} : KeepsM Canonical (waitAt obj : M α) :=
  .bind (keepsM_modify fun _ h => h) fun _ => keepsM_waitM

theorem keepsM_nextRecord {obj elem} : KeepsM Canonical (nextRecord obj elem) := by
  unfold nextRecord
  refine keepsM_bind_get fun s h => ?_
  split
  · exact keepsM_pure _
  · refine keepsM_ite (keepsM_ite keepsM_waitAt (keepsM_pure _)) <|
      .bind (keepsM_set (wf_setLog h)) fun a => keepsM_ite (keepsM_pure _) ?_
    split
    · exact keepsM_diverge
    · refine keepsM_ite keepsM_waitAt ?_
      split
      · exact keepsM_waitAt
      · exact keepsM_pure _

theorem keepsM_consumeM {c i} : KeepsM Canonical (consumeM c i) := by
  unfold consumeM
  refine keepsM_modify fun s h => ?_
  dsimp only
  exact wf_setLog (wf_consume h)

theorem keepsM_admitOp {type sub obj fits val elem hold paired} :
    KeepsM Canonical (admitOp type sub obj fits val elem hold paired) := by
  unfold admitOp
  refine .bind keepsM_nextRecord fun a => ?_
  split
  · exact keepsM_pure _
  · exact keepsM_bind_get fun _ _ =>
      keepsM_ite keepsM_waitAt <|
      keepsM_ite keepsM_diverge <|
      keepsM_ite keepsM_diverge <|
      keepsM_ite keepsM_waitAt <|
      keepsM_ite keepsM_diverge <|
      keepsM_ite keepsM_diverge <|
      keepsM_ite keepsM_diverge (.bind keepsM_consumeM fun _ => keepsM_pure _)

theorem keepsM_admitEpisode {obj e n} : KeepsM Canonical (admitEpisode obj e n) := by
  unfold admitEpisode
  refine .bind keepsM_nextRecord fun a => ?_
  split
  · exact keepsM_pure _
  · exact keepsM_ite keepsM_waitAt (keepsM_ite keepsM_diverge (keepsM_pure _))

theorem keepsM_wholeOrNothing {m} (hm : KeepsM Canonical m) : KeepsM Canonical (wholeOrNothing m) := by
  unfold wholeOrNothing
  refine keepsM_bind_get fun s h => ?_
  split
  · exact keepsM_set (wf_of_exec hm h ‹_›)
  · exact .bind (keepsM_set h) fun _ => keepsM_waitM
  · split
    · exact keepsM_ite (.bind (keepsM_set (wf_markDiverged h)) fun _ => keepsM_trapM) <|
        .bind (keepsM_set h) fun _ => keepsM_trapM
    · exact .bind (keepsM_set h) fun _ => keepsM_trapM
  · exact .bind (keepsM_set h) fun _ => keepsM_throw _

theorem wf_logLeave {s : State} (h : s.mem.wf = true) {id sid} : (logLeave s id sid).mem.wf = true := by
  unfold logLeave
  split
  · exact h
  · exact wf_ite (wf_putTail h) (wf_putLog h)

/-! ### The home of a block -/

theorem wf_nextInterval {s : State} (h : s.mem.wf = true) : s.nextInterval.mem.wf = true := by
  unfold State.nextInterval
  dsimp only
  refine wf_ite (wf_ite (wf_mapCsr h) ?_) h
  dsimp only
  exact wf_mapCsr h

theorem wf_setGroup {s : State} (h : s.mem.wf = true) {r} : (s.setGroup r).mem.wf = true := h

theorem wf_settlePending {s : State} (h : s.mem.wf = true) {g sids} : (s.settlePending g sids).mem.wf = true :=
  wf_mapStreams h

theorem wf_takeEpisodeRec {r} {s : State} (h : s.mem.wf = true) {c} : (takeEpisodeRec r s c).mem.wf = true := by
  unfold takeEpisodeRec
  split
  · dsimp only
    exact wf_setLog (wf_consume h)
  · exact wf_recordIn h

theorem wf_completeEpisode {s : State} (h : s.mem.wf = true) {r} : (completeEpisode s r).mem.wf = true :=
  wf_ite
    (wf_setGroup (wf_mapStreams (wf_settlePending (wf_foldl (fun _ _ h1 => wf_takeEpisodeRec h1) h))))
    (wf_setGroup h)

theorem wf_joinGroup {s : State} (h : s.mem.wf = true) {g} : (joinGroup s g).mem.wf = true := by
  unfold joinGroup
  refine wf_record ?_
  split
  · dsimp only
    exact wf_setGroup h
  · exact wf_setGroup h

theorem wf_leaveGroup {s : State} (h : s.mem.wf = true) {g} : (leaveGroup s g).mem.wf = true := by
  unfold leaveGroup
  dsimp only
  refine wf_ite (wf_completeEpisode (wf_record ?_)) h
  exact h

theorem keepsM_admitLeave {g} : KeepsM Canonical (admitLeave g) :=
  keepsM_wholeOrNothing <|
    keepsM_bind_get fun _ _ =>
    .bind keepsM_admitOp fun _ => keepsM_ite keepsM_admitEpisode (keepsM_pure _)

theorem wf_retireLeaves {l} {s : State} (h : s.mem.wf = true) : (retireLeaves l s).1.mem.wf = true := by
  induction l generalizing s with
  | nil =>
    unfold retireLeaves
    exact h
  | cons x l ih =>
    unfold retireLeaves
    split
    · exact wf_of_exec keepsM_admitLeave h ‹_›
    · exact ih (wf_leaveGroup (wf_of_exec keepsM_admitLeave h ‹_›))

theorem wf_putLstat {s : State} (h : s.mem.wf = true) {q k v} : (putLstat s q k v).mem.wf = true :=
  wf_ite (wf_signal (wf_putNum h)) (wf_putNum h)

theorem wf_numbered {s : State} (h : s.mem.wf = true) : s.numbered.mem.wf = true := h

theorem wf_leaveLaunch {s : State} (h : s.mem.wf = true) {sid0 sid} : (leaveLaunch s sid0 sid).mem.wf = true := by
  unfold leaveLaunch
  split
  · exact h
  · dsimp only
    refine wf_ite (wf_foldl (fun _ _ h1 => wf_putLstat h1) (wf_putLstat ?_)) ?_
    all_goals exact h

theorem wf_retired {s : State} (h : s.mem.wf = true) : (retired s).mem.wf = true := by
  unfold retired
  dsimp only
  refine wf_numbered ?_
  dsimp only
  refine wf_leaveLaunch ?_
  exact wf_ite h (wf_logLeave h)

theorem wf_retireFront {s : State} (h : s.mem.wf = true) : (retireFront s).mem.wf = true := by
  unfold retireFront
  split
  · exact wf_retired (wf_of_eq (wf_retireLeaves h) ‹_›)
  · dsimp only
    exact wf_of_eq (wf_retireLeaves h) ‹_›

/-! ### Reading and writing bytes -/

theorem wf_shelfPut {s : State} (h : s.mem.wf = true) {own sector isn action} :
    (shelfPut s own sector isn action).mem.wf = true :=
  wf_ite h h

theorem wf_shelfFree {s : State} (h : s.mem.wf = true) {f} : (shelfFree s f).mem.wf = true := h

theorem wf_foldl_mem {α : Type} {f : Memory → α → Memory} {l : List α} {m : Memory}
    (hf : ∀ m a, m.wf = true → (f m a).wf = true) (h : m.wf = true) : Memory.wf (l.foldl f m) = true := by
  induction l generalizing m with
  | nil => exact h
  | cons a l ih => exact ih (hf m a h)

theorem wf_rollback {s : State} (h : s.mem.wf = true) {k} : (rollback s k).mem.wf = true := by
  unfold rollback
  dsimp only
  refine wf_foldl_mem (fun m e hm => ?_) h
  split
  · exact Laws.wf_sets _ _ hm
  · exact hm

theorem wf_rewrite {s : State} (h : s.mem.wf = true) {isn kbs} : (rewrite s isn kbs).mem.wf = true :=
  Laws.wf_sets _ _ h

theorem wf_setTag {s : State} (h : s.mem.wf = true) {t} : (s.setTag t).mem.wf = true := wf_ite h h

theorem keepsM_raceFree {tag v pl ks wr elem va} : KeepsM Canonical (raceFree tag v pl ks wr elem va) := by
  unfold raceFree
  refine keepsM_bind_get fun s h => keepsM_ite ?_ (keepsM_pure _)
  split
  · exact keepsM_trapM
  · exact keepsM_pure _

theorem keepsM_raceMark {v pl ks wr} : KeepsM Canonical (raceMark v pl ks wr) :=
  keepsM_modify fun _ h =>
    wf_ite (wf_foldl (fun _ _ h1 => wf_ite (wf_setTag (wf_ite (wf_mapCsr h1) h1)) (wf_setTag h1)) h) h

theorem keepsM_raceCheck {v pl ks wr elem va} : KeepsM Canonical (raceCheck v pl ks wr elem va) :=
  .bind keepsM_raceFree fun _ => keepsM_raceMark

theorem keepsM_readKeys {e pl ks va} : KeepsM Canonical (readKeys e pl ks va) := by
  unfold readKeys
  refine keepsM_bind_get fun s h => keepsM_ite keepsM_trapM ?_
  split
  · exact .bind (keepsM_modify fun _ h1 => wf_touch h1) fun _ =>
      .bind keepsM_raceFree fun _ => .bind keepsM_raceMark fun _ => keepsM_pure _
  · exact keepsM_throw _

theorem keepsM_readVa {e va n al} : KeepsM Canonical (readVa e va n al) :=
  .bind keepsM_xlate fun _ =>
    .bind keepsM_keysM fun _ => keepsM_ite keepsM_trapM keepsM_readKeys

theorem wf_store {s : State} (h : s.mem.wf = true) {kbs} : (s.store kbs).mem.wf = true := by
  unfold State.store
  refine Laws.wf_sets _ _ (wf_touch (wf_foldl (fun _ _ h1 => wf_event h1) ?_))
  split
  · exact h
  · exact wf_event h

theorem wf_patchShelf {s : State} (h : s.mem.wf = true) {isn kbs} : (patchShelf s isn kbs).mem.wf = true :=
  h

theorem wf_put {s : State} (h : s.mem.wf = true) {kbs} : (s.put kbs).mem.wf = true := by
  unfold State.put
  refine wf_store ?_
  exact h

theorem wf_storeAt {s : State} (h : s.mem.wf = true) {isn shelve kbs} : (s.storeAt isn shelve kbs).mem.wf = true := by
  unfold State.storeAt
  refine wf_store (wf_ite (wf_foldl (fun t a h1 => ?_) (wf_patchShelf h)) (wf_patchShelf h))
  split
  · exact wf_shelfPut h1
  · exact h1

/-! ### Operands of elements -/

theorem keepsM_readShape {e d vl} : KeepsM Canonical (readShape e d vl) := by
  unfold readShape
  refine keepsM_ite keepsM_trapM (.bind keepsM_readVa fun a => ?_)
  split
  · exact keepsM_ite keepsM_trapM (keepsM_pure _)
  · exact keepsM_trapM

theorem keepsM_readBytes1 {e va n} : KeepsM Canonical (readBytes1 e va n) := by
  induction n generalizing e va with
  | zero =>
    unfold readBytes1
    exact keepsM_pure _
  | succ n ih =>
    unfold readBytes1
    exact .bind keepsM_readVa fun _ => .bind ih fun _ => keepsM_pure _

theorem keepsM_readAt {e f va bo} : KeepsM Canonical (readAt e f va bo) :=
  keepsM_ite (.bind keepsM_readBytes1 fun _ => keepsM_pure _) <|
    .bind keepsM_readVa fun _ => keepsM_pure _

theorem keepsM_readIndex {e d i} : KeepsM Canonical (readIndex e d i) := by
  unfold readIndex
  split
  · exact keepsM_pure _
  · exact .bind keepsM_readAt fun _ => keepsM_pure _

theorem keepsM_elemVa {e vl w f i} : KeepsM Canonical (elemVa e vl w f i) := by
  unfold elemVa
  split
  · exact .bind keepsM_readIndex fun _ => keepsM_pure _
  · exact .bind keepsM_readShape fun _ => keepsM_pure _
  · exact keepsM_pure _

theorem keepsM_readElem {e vl w f i} : KeepsM Canonical (readElem e vl w f i) :=
  .bind keepsM_elemVa fun _ => keepsM_readAt

theorem keepsM_active {e c masked i} : KeepsM Canonical (active e c masked i) :=
  keepsM_ite
    (keepsM_ite (.bind keepsM_readElem fun _ => keepsM_pure _) (keepsM_pure _))
    (keepsM_pure _)

theorem keepsM_operandA {e c v f i} : KeepsM Canonical (operandA e c v f i) := by
  unfold operandA
  split
  · exact keepsM_pure _
  · exact .bind keepsM_readElem fun _ => keepsM_pure _

theorem keepsM_operandB {e c v i} : KeepsM Canonical (operandB e c v i) :=
  keepsM_ite (keepsM_pure _) keepsM_readElem

theorem keepsM_sourceNum {e c w f n j} : KeepsM Canonical (sourceNum e c w f n j) := by
  unfold sourceNum
  split
  · exact .bind keepsM_readElem fun _ => keepsM_pure _
  · exact keepsM_pure _

theorem keepsM_markWalks {ks} : KeepsM Canonical (markWalks ks) := keepsM_forM fun _ => keepsM_setAD

theorem keepsM_destPage {e va} : KeepsM Canonical (destPage e va) := by
  unfold destPage
  refine .bind keepsM_lookup fun a => ?_
  split
  exact keepsM_bind_get fun _ _ => keepsM_ite keepsM_trapM (keepsM_pure _)

theorem keepsM_destAddr {e smOk vl w f i} : KeepsM Canonical (destAddr e smOk vl w f i) := by
  unfold destAddr
  refine .bind keepsM_elemVa fun a => ?_
  obtain ⟨va, bo⟩ := a
  dsimp -zeta only
  extract_lets split2 va2
  refine .bind keepsM_destPage fun p => ?_
  obtain ⟨pl, ls⟩ := p
  extract_lets tail
  have htail : ∀ p, KeepsM Canonical (tail p) := by
    intro p
    obtain ⟨pl2, ls2⟩ := p
    refine keepsM_bind_get fun s _ => ?_
    extract_lets walked fail
    have hfail : ∀ c a, KeepsM Canonical (fail c a) := fun _ _ => .bind keepsM_markWalks fun _ => keepsM_trapM
    dsimp only
    split
    · exact hfail _ _
    · refine keepsM_ite (hfail _ _) (keepsM_ite ?_ (keepsM_ite (keepsM_pure _) (keepsM_ite (hfail _ _) ?_)))
      · split
        · exact hfail _ _
        · exact keepsM_ite (hfail _ _) (keepsM_pure _)
      · split
        · exact hfail _ _
        · exact keepsM_pure _
  exact keepsM_ite (.bind keepsM_destPage htail) (.bind (keepsM_pure _) htail)

theorem keepsM_writeChecks {e exempt f d} : KeepsM Canonical (writeChecks e exempt f d) :=
  keepsM_bind_get fun _ _ => keepsM_ite keepsM_trapM (keepsM_ite keepsM_trapM keepsM_raceFree)

theorem keepsM_performWrite {e fp isn exempt f d n} : KeepsM Canonical (performWrite e fp isn exempt f d n) := by
  unfold performWrite
  refine .bind keepsM_writeChecks fun a => keepsM_bind_get fun s h => ?_
  split
  · exact keepsM_pure _
  · exact keepsM_ite keepsM_trapM <|
      keepsM_ite keepsM_waitM (.bind keepsM_raceMark fun _ => keepsM_modify fun _ h1 => wf_storeAt h1)

/-! ### Bodies of vector operations -/

theorem keepsM_frameItem {smOk masked k f fn} (hfn : ∀ a0 a1 a2, KeepsM Canonical (fn a0 a1 a2)) {e fp b i} :
    KeepsM Canonical (frameItem smOk masked k f fn e fp b i) := by
  unfold frameItem
  refine .bind keepsM_destAddr fun a =>
    .bind keepsM_active fun a1 =>
    keepsM_ite (.bind keepsM_markWalks fun a2 => .bind (hfn _ _ _) fun a3 => ?_) (keepsM_pure _)
  split
  split
  · exact keepsM_pure _
  · exact keepsM_bind_get fun _ _ => .bind keepsM_performWrite fun _ => keepsM_pure _

theorem keepsM_destOwner {smOk k f e vl i} : KeepsM Canonical (destOwner smOk k f e vl i) :=
  .bind keepsM_destAddr fun _ => keepsM_bind_get fun _ _ => keepsM_pure _

theorem keepsM_someNeeds {m} (hm : ∀ a0, KeepsM Canonical (m a0)) {l} : KeepsM Canonical (someNeeds m l) := by
  induction l generalizing m with
  | nil =>
    unfold someNeeds
    exact keepsM_pure _
  | cons x l ih =>
    unfold someNeeds
    refine .bind (keepsM_captured (hm _)) fun a => ?_
    split
    · exact keepsM_pure _
    · exact ih hm
    · exact ih hm
    · exact keepsM_throw _

theorem keepsM_shapeReady {e b k} : KeepsM Canonical (shapeReady e b k) :=
  keepsM_ite
    (.bind keepsM_readShape fun _ =>
     keepsM_ite (.bind keepsM_readShape fun _ => keepsM_pure _) (keepsM_pure _))
    (keepsM_ite (.bind keepsM_readShape fun _ => keepsM_pure _) (keepsM_pure _))

theorem keepsM_shapesReady {dst srcs wants} (hwants : ∀ a0 a1, KeepsM Canonical (wants a0 a1)) {e b} :
    KeepsM Canonical (shapesReady dst srcs wants e b) :=
  keepsM_ite (keepsM_pure _) <|
    keepsM_ite
      (.bind keepsM_shapeReady fun _ =>
       keepsM_forM fun _ =>
       keepsM_ite
         (.bind (keepsM_someNeeds fun _ => hwants _ _) fun _ => keepsM_ite keepsM_shapeReady (keepsM_pure _))
         (keepsM_pure _))
      (keepsM_forM fun _ =>
       keepsM_ite
         (.bind (keepsM_someNeeds fun _ => hwants _ _) fun _ => keepsM_ite keepsM_shapeReady (keepsM_pure _))
         (keepsM_pure _))

theorem keepsM_reads {v e b k i} : KeepsM Canonical (reads v e b k i) :=
  keepsM_ite (keepsM_pure _) keepsM_active

theorem keepsM_footQuiet {m e b} : KeepsM Canonical (footQuiet m e b) := by
  unfold footQuiet
  refine keepsM_bind_get fun s h => ?_
  split <;> exact keepsM_pure _

theorem keeps_frameBody {v df smOk srcs fn} (hfn : ∀ a0 a1 a2, KeepsM Canonical (fn a0 a1 a2)) :
    BodyKeeps (frameBody v df smOk srcs fn) :=
  bodyKeeps_mk
    (fun _ _ => keepsM_footQuiet)
    (fun _ _ _ => keepsM_pure _)
    (fun _ _ _ =>
       gives_pure <|
       items_map fun _ => itemKeeps_mk (fun _ => keepsM_destOwner) fun _ => keepsM_frameItem hfn)
    (fun _ _ => keepsM_shapesReady fun _ _ => keepsM_reads)
    (fun _ _ => keepsM_pure _)

theorem keepsM_rndOf {v b i} : KeepsM Canonical (rndOf v b i) :=
  keepsM_bind_get fun _ _ => keepsM_pure _

theorem keepsM_fnArith {o useC v x b n} : KeepsM Canonical (fnArith o useC v x b n) := by
  unfold fnArith
  refine .bind keepsM_operandA fun a => ?_
  split
  refine .bind keepsM_operandB fun a =>
    keepsM_ite
      (.bind keepsM_readElem fun a1 => keepsM_ite ?_ (.bind keepsM_rndOf fun a2 => ?_))
      (.bind (keepsM_pure _) fun a1 => keepsM_ite ?_ (.bind keepsM_rndOf fun a2 => ?_))
  all_goals
    split
    exact keepsM_pure _

theorem keeps_bodyArith {o useC sm v} : BodyKeeps (bodyArith o useC sm v) :=
  keeps_frameBody fun _ _ _ => keepsM_fnArith

theorem keepsM_fnTwo {g v x b n} : KeepsM Canonical (fnTwo g v x b n) := by
  unfold fnTwo
  refine .bind keepsM_operandA fun a => ?_
  split
  refine .bind keepsM_operandB fun a => ?_
  split
  exact keepsM_pure _

theorem keeps_bodyMinMax {wantMax v} : BodyKeeps (bodyMinMax wantMax v) :=
  keeps_frameBody fun _ _ _ => keepsM_fnTwo

theorem keeps_bodyCompare {o v} : BodyKeeps (bodyCompare o v) :=
  keeps_frameBody fun _ _ _ => keepsM_fnTwo

theorem keepsM_fnUnary {o v x b n} : KeepsM Canonical (fnUnary o v x b n) := by
  unfold fnUnary
  refine .bind keepsM_operandA fun a => ?_
  split
  refine .bind keepsM_rndOf fun a => ?_
  split
  exact keepsM_pure _

theorem keeps_bodyUnary {o v} : BodyKeeps (bodyUnary o v) :=
  keeps_frameBody fun _ _ _ => keepsM_fnUnary

theorem keeps_bodyLogic {g v} : BodyKeeps (bodyLogic g v) :=
  keeps_frameBody fun _ _ _ => keepsM_fnTwo

theorem keepsM_fnNot {v x b n} : KeepsM Canonical (fnNot v x b n) := by
  unfold fnNot
  refine .bind keepsM_operandA fun a => ?_
  split
  exact keepsM_pure _

theorem keeps_bodyNot {v} : BodyKeeps (bodyNot v) := keeps_frameBody fun _ _ _ => keepsM_fnNot

theorem keeps_bodyShift {o v} : BodyKeeps (bodyShift o v) := keeps_bodyLogic

theorem keepsM_fnSel {v x b n} : KeepsM Canonical (fnSel v x b n) := by
  unfold fnSel
  refine .bind keepsM_operandA fun a => ?_
  split
  exact .bind keepsM_operandB fun _ => .bind keepsM_readElem fun _ => keepsM_pure _

theorem keeps_bodySel {v} : BodyKeeps (bodySel v) := keeps_frameBody fun _ _ _ => keepsM_fnSel

theorem keepsM_fnMov {v x b n} : KeepsM Canonical (fnMov v x b n) := by
  unfold fnMov
  refine .bind keepsM_operandA fun a => ?_
  split
  exact keepsM_pure _

theorem keeps_bodyMov {v} : BodyKeeps (bodyMov v) := keeps_frameBody fun _ _ _ => keepsM_fnMov

theorem keepsM_fnFill {v x b n} : KeepsM Canonical (fnFill v x b n) := by
  unfold fnFill
  refine .bind keepsM_rndOf fun a => ?_
  split
  exact keepsM_pure _

theorem keeps_bodyFill {v} : BodyKeeps (bodyFill v) := keeps_frameBody fun _ _ _ => keepsM_fnFill

theorem keepsM_fnIota {v x b n} : KeepsM Canonical (fnIota v x b n) := keepsM_pure _

theorem keeps_bodyIota {v} : BodyKeeps (bodyIota v) := keeps_frameBody fun _ _ _ => keepsM_fnIota

theorem keepsM_fnCvt {sf v x b n} : KeepsM Canonical (fnCvt sf v x b n) := by
  unfold fnCvt
  refine .bind keepsM_operandA fun a => ?_
  split
  refine .bind keepsM_sourceNum fun a => ?_
  split
  refine .bind keepsM_rndOf fun a => ?_
  split
  exact keepsM_pure _

theorem keepsM_groupOf {sf v e b g} : KeepsM Canonical (groupOf sf v e b g) := by
  unfold groupOf
  refine .bind (keepsM_mapM fun a => .bind keepsM_operandA fun a1 => ?_) fun a => ?_
  · split
    refine .bind keepsM_sourceNum fun a1 => ?_
    split
    exact .bind keepsM_rndOf fun _ => keepsM_pure _
  · split
    exact keepsM_pure _

theorem keepsM_fnCvtBlock {sf v x b n} : KeepsM Canonical (fnCvtBlock sf v x b n) := by
  unfold fnCvtBlock
  refine .bind keepsM_groupOf fun a => ?_
  split
  exact keepsM_pure _

theorem keepsM_scaleItem {sf v e fp b g} : KeepsM Canonical (scaleItem sf v e fp b g) := by
  unfold scaleItem
  refine .bind keepsM_destAddr fun a =>
    .bind keepsM_markWalks fun a1 => .bind keepsM_groupOf fun a2 => ?_
  split
  exact keepsM_bind_get fun _ _ => .bind keepsM_performWrite fun _ => keepsM_pure _

theorem items_blockPlan {sf v e fp b} : ItemsKeep (blockPlan sf v e fp b) :=
  items_flatMap fun _ =>
    items_ite
      (items_cons
         (itemKeeps_mk (fun _ => keepsM_destOwner) fun _ => keepsM_frameItem fun _ _ _ => keepsM_fnCvtBlock)
         (items_cons (itemKeeps_mk (fun _ => keepsM_destOwner) fun _ => keepsM_scaleItem) items_nil))
      (items_cons
         (itemKeeps_mk (fun _ => keepsM_destOwner) fun _ => keepsM_frameItem fun _ _ _ => keepsM_fnCvtBlock)
         items_nil)

theorem keeps_bodyCvt {sf v} : BodyKeeps (bodyCvt sf v) := by
  unfold bodyCvt
  split
  · exact bodyKeeps_mk
      (fun _ _ => keepsM_footQuiet)
      (fun _ _ _ => keepsM_pure _)
      (fun _ _ _ => gives_pure items_blockPlan)
      (fun _ _ => keepsM_shapesReady fun _ _ => keepsM_reads)
      (fun _ _ => keepsM_pure _)
  · exact keeps_frameBody fun _ _ _ => keepsM_fnCvt

theorem keepsM_leafOwner {sm e b w f i} : KeepsM Canonical (leafOwner sm e b w f i) := by
  unfold leafOwner
  refine .bind keepsM_elemVa fun a => ?_
  split
  refine .bind keepsM_lookup fun a => ?_
  split
  refine keepsM_bind_get fun s h => ?_
  split
  · exact .bind keepsM_xlate fun _ => keepsM_trapM
  · split
    · exact keepsM_pure _
    · refine keepsM_ite (keepsM_pure _) (keepsM_ite (keepsM_pure _) ?_)
      split
      · exact keepsM_pure _
      · exact .bind keepsM_xlate fun _ => keepsM_trapM
      · exact keepsM_pure _

theorem keepsM_redLeaf {v e b i} : KeepsM Canonical (redLeaf v e b i) :=
  .bind keepsM_leafOwner fun _ =>
    .bind keepsM_active fun _ =>
    keepsM_ite (.bind keepsM_readElem fun _ => keepsM_pure _) (keepsM_pure _)

theorem keeps_bodyRed {o v} : BodyKeeps (bodyRed o v) :=
  bodyKeeps_mk
    (fun _ _ => keepsM_footQuiet)
    (fun _ _ _ => keepsM_pure _)
    (fun _ _ _ =>
       gives_pure (items_map fun _ => itemKeeps_mk (fun _ => keepsM_leafOwner) fun _ => keepsM_redLeaf))
    (fun _ _ => keepsM_shapesReady fun _ _ => keepsM_pure _)
    (fun _ _ => keepsM_pure _)

theorem keepsM_scanValue {o v e b j} : KeepsM Canonical (scanValue o v e b j) :=
  .bind keepsM_active fun _ => keepsM_ite keepsM_readElem (keepsM_pure _)

theorem keepsM_scanLeaf {o v e b j} : KeepsM Canonical (scanLeaf o v e b j) :=
  .bind keepsM_leafOwner fun _ => .bind keepsM_scanValue fun _ => keepsM_pure _

theorem keepsM_leafFor {m} (hm : KeepsM Canonical m) {e b j} : KeepsM Canonical (leafFor m e b j) := by
  unfold leafFor
  split
  · exact keepsM_pure _
  · exact hm
  · exact keepsM_waitM

theorem keepsM_fnScan {o v x b n} : KeepsM Canonical (fnScan o v x b n) := by
  unfold fnScan
  refine .bind (keepsM_mapM fun _ => keepsM_leafFor keepsM_scanValue) fun a =>
    keepsM_bind_get fun s h => ?_
  dsimp only
  split <;> exact keepsM_pure _

theorem items_exchangePlan {e b leaf} (hleaf : ∀ a0, ItemKeeps (leaf a0)) {dst} (hdst : ∀ a0, ItemKeeps (dst a0)) :
    ItemsKeep (exchangePlan e b leaf dst) := by
  unfold exchangePlan
  split
  · exact items_hAppend (items_map hleaf) (items_map hdst)
  · exact items_flatMap fun _ =>
      items_ite (items_cons (hdst _) (items_cons (hleaf _) items_nil)) (items_cons (hdst _) items_nil)

theorem keeps_bodyScan {o v} : BodyKeeps (bodyScan o v) :=
  bodyKeeps_mk
    (fun _ _ => BodyKeeps.foot (keeps_frameBody fun _ _ _ => keepsM_fnScan) _ _)
    (fun _ _ _ => keepsM_pure _)
    (fun _ _ _ =>
       gives_pure <|
       items_exchangePlan
         (fun _ => itemKeeps_mk (fun _ => keepsM_leafOwner) fun _ => keepsM_scanLeaf)
         (fun _ =>
            itemKeeps_mk (fun _ => keepsM_destOwner) fun _ => keepsM_frameItem fun _ _ _ => keepsM_fnScan))
    (fun _ _ => BodyKeeps.ready (keeps_frameBody fun _ _ _ => keepsM_fnScan) _ _)
    (fun _ _ => BodyKeeps.phase1 (keeps_frameBody fun _ _ _ => keepsM_fnScan) _ _)

theorem keepsM_selLeaf {e b j} : KeepsM Canonical (selLeaf e b j) :=
  .bind keepsM_leafOwner fun _ => .bind keepsM_readElem fun _ => keepsM_pure _

theorem keepsM_selBit {e b j} : KeepsM Canonical (selBit e b j) := keepsM_leafFor keepsM_readElem

theorem keepsM_findSelected {e b n n1 n2} : KeepsM Canonical (findSelected e b n n1 n2) := by
  induction n generalizing e b n1 n2 with
  | zero =>
    unfold findSelected
    exact keepsM_pure _
  | succ n ih =>
    unfold findSelected
    exact .bind keepsM_selBit fun _ => keepsM_ite (keepsM_ite (keepsM_pure _) ih) ih

theorem keepsM_compactFrom {x b n} : KeepsM Canonical (compactFrom x b n) := keepsM_findSelected

theorem keepsM_expandFrom {x b n} : KeepsM Canonical (expandFrom x b n) :=
  keepsM_ite (.bind (keepsM_mapM fun _ => keepsM_selBit) fun _ => keepsM_pure _) <|
    keepsM_pure _

theorem keepsM_visited {v from_} (hfrom_ : ∀ a0 a1 a2, KeepsM Canonical (from_ a0 a1 a2)) {e b i} :
    KeepsM Canonical (visited v from_ e b i) :=
  .bind keepsM_active fun _ => keepsM_ite (hfrom_ _ _ _) (keepsM_pure _)

theorem keepsM_moveItem {v from_} (hfrom_ : ∀ a0 a1 a2, KeepsM Canonical (from_ a0 a1 a2)) {e fp b i} :
    KeepsM Canonical (moveItem v from_ e fp b i) := by
  unfold moveItem
  refine .bind (keepsM_visited hfrom_) fun a => ?_
  split
  · exact keepsM_pure _
  · exact keepsM_frameItem fun _ _ _ => .bind keepsM_readElem fun _ => keepsM_pure _

theorem items_movePlan {v from_} (hfrom_ : ∀ a0 a1 a2, KeepsM Canonical (from_ a0 a1 a2)) {e fp b} :
    ItemsKeep (movePlan v from_ e fp b) := by
  unfold movePlan
  refine items_exchangePlan
    (fun _ => itemKeeps_mk (fun _ => keepsM_leafOwner) fun _ => keepsM_selLeaf)
    (fun a0 =>
       itemKeeps_mk (fun b1 => .bind (keepsM_visited hfrom_) fun a => ?_) fun _ => keepsM_moveItem hfrom_)
  split
  · exact keepsM_pure _
  · exact keepsM_destOwner

theorem keeps_bodyMove {from_} (hfrom_ : ∀ a0 a1 a2, KeepsM Canonical (from_ a0 a1 a2)) {v} :
    BodyKeeps (bodyMove from_ v) :=
  bodyKeeps_mk
    (fun _ _ => keepsM_footQuiet)
    (fun _ _ _ => keepsM_pure _)
    (fun _ _ _ => gives_pure (items_movePlan hfrom_))
    (fun _ _ => keepsM_shapesReady fun _ _ => .bind (keepsM_visited hfrom_) fun _ => keepsM_pure _)
    (fun _ _ => keepsM_pure _)

theorem keeps_bodyCompact {v} : BodyKeeps (bodyCompact v) :=
  keeps_bodyMove fun _ _ _ => keepsM_compactFrom

theorem keeps_bodyExpand {v} : BodyKeeps (bodyExpand v) :=
  keeps_bodyMove fun _ _ _ => keepsM_expandFrom

theorem keepsM_placeCode {s pl va elem} : KeepsM Canonical (placeCode s pl va elem) := by
  unfold placeCode
  split
  · exact keepsM_ite (keepsM_pure _) keepsM_trapM
  · split <;> exact keepsM_pure _

theorem keepsM_fnLanex {v x b n} : KeepsM Canonical (fnLanex v x b n) := by
  unfold fnLanex
  dsimp only
  split
  · exact keepsM_pure _
  · exact .bind keepsM_elemVa fun _ =>
      .bind keepsM_lookup fun _ =>
      keepsM_bind_get fun _ _ => .bind keepsM_placeCode fun _ => keepsM_ite keepsM_trapM (keepsM_pure _)

theorem keeps_bodyLanex {v} : BodyKeeps (bodyLanex v) := keeps_frameBody fun _ _ _ => keepsM_fnLanex

theorem keepsM_condLeaf {e b i} : KeepsM Canonical (condLeaf e b i) :=
  .bind keepsM_leafOwner fun _ => .bind keepsM_readElem fun _ => keepsM_pure _

theorem keeps_bodyCond {c} : BodyKeeps (bodyCond c) :=
  bodyKeeps_mk
    (fun _ _ => keepsM_footQuiet)
    (fun _ _ _ => keepsM_pure _)
    (fun _ _ _ =>
       gives_pure (items_map fun _ => itemKeeps_mk (fun _ => keepsM_leafOwner) fun _ => keepsM_condLeaf))
    (fun _ _ => keepsM_pure _)
    (fun _ _ => keepsM_pure _)

/-! ### The plane -/

theorem keepsM_readMat {e d code output} : KeepsM Canonical (readMat e d code output) := by
  unfold readMat
  refine keepsM_ite keepsM_trapM (.bind keepsM_readVa fun a => ?_)
  split
  · exact keepsM_trapM
  · exact keepsM_ite (keepsM_pure _) keepsM_trapM

theorem keepsM_tileOwner {e elem va} : KeepsM Canonical (tileOwner e elem va) := by
  unfold tileOwner
  refine .bind keepsM_lookup fun a => ?_
  split
  refine keepsM_bind_get fun s h => keepsM_ite keepsM_trapM ?_
  split
  · exact keepsM_ite (keepsM_pure _) keepsM_trapM
  · exact keepsM_trapM

theorem keepsM_tileOwners {e m} : KeepsM Canonical (tileOwners e m) :=
  keepsM_mapM fun _ => .bind keepsM_tileOwner fun _ => keepsM_pure _

theorem keepsM_readSectors {e va n} : KeepsM Canonical (readSectors e va n) := by
  induction n generalizing e va with
  | zero =>
    unfold readSectors
    exact keepsM_pure _
  | succ n ih =>
    unfold readSectors
    exact .bind keepsM_readVa fun _ => .bind ih fun _ => keepsM_pure _

theorem keepsM_checkGroup {f wb} : KeepsM Canonical (checkGroup f wb) := keepsM_need _ _

theorem keepsM_checkPanel {f wb scl} : KeepsM Canonical (checkPanel f wb scl) :=
  .bind (keepsM_need _ _) fun _ => keepsM_need _ _

theorem keepsM_loadTile {e r j} : KeepsM Canonical (loadTile e r j) :=
  .bind keepsM_checkPanel fun _ =>
    .bind keepsM_readSectors fun _ =>
    keepsM_ite (.bind keepsM_readSectors fun _ => keepsM_pure _) (keepsM_pure _)

theorem keepsM_loadSlot {e r} : KeepsM Canonical (loadSlot e r) := by
  unfold loadSlot
  refine .bind keepsM_readMat fun a =>
    .bind keepsM_checkGroup fun a1 => .bind keepsM_tileOwners fun a2 => ?_
  split
  · exact keepsM_trapM
  · refine keepsM_mapM fun a3 => .bind keepsM_loadTile fun a4 => ?_
    split
    exact keepsM_pure _

theorem wf_putSlot {s : State} (h : s.mem.wf = true) {shadow ps} : (putSlot s shadow ps).mem.wf = true :=
  h

theorem wf_swapSlots {s : State} (h : s.mem.wf = true) : (swapSlots s).mem.wf = true := h

theorem keepsM_loadInto {e shadow r} : KeepsM Canonical (loadInto e shadow r) :=
  .bind keepsM_loadSlot fun _ => keepsM_modify fun _ h => wf_putSlot h

theorem keepsM_actRow {e m f r kk i1} : KeepsM Canonical (actRow e m f r kk i1) :=
  keepsM_ite (.bind keepsM_readVa fun _ => keepsM_pure _) <|
    keepsM_mapM fun _ => .bind keepsM_readAt fun _ => keepsM_pure _

theorem keepsM_actRows {e x m r i1} : KeepsM Canonical (actRows e x m r i1) :=
  .bind (keepsM_mapM fun _ => keepsM_actRow) fun _ => keepsM_pure _

theorem keepsM_mmaValue {e x p row elem i0 va} : KeepsM Canonical (mmaValue e x p row elem i0 va) := by
  unfold mmaValue
  refine .bind keepsM_readVa fun a => keepsM_bind_get fun s h => ?_
  split
  dsimp only
  exact keepsM_pure _

theorem keepsM_mmaActive {e x elem} : KeepsM Canonical (mmaActive e x elem) :=
  keepsM_ite (.bind keepsM_readAt fun _ => keepsM_pure _) (keepsM_pure _)

theorem keepsM_mmaItem {e x o rows b r c i1 i0} : KeepsM Canonical (mmaItem e x o rows b r c i1 i0) := by
  unfold mmaItem
  refine .bind keepsM_tileOwner fun a => keepsM_bind_get fun s h => ?_
  split
  · exact keepsM_trapM
  · refine keepsM_ite keepsM_trapM (.bind keepsM_mmaActive fun a1 => keepsM_ite ?_ (keepsM_pure _))
    split
    · exact keepsM_trapM
    · exact keepsM_throw _
    · refine .bind keepsM_destAddr fun a2 =>
        .bind keepsM_markWalks fun a3 => .bind keepsM_mmaValue fun a4 => ?_
      split
      exact keepsM_bind_get fun _ _ => .bind keepsM_performWrite fun _ => keepsM_pure _

theorem keepsM_mmaPlan {e x} : KeepsM Canonical (mmaPlan e x) :=
  .bind keepsM_readMat fun _ =>
    .bind keepsM_readMat fun _ =>
    keepsM_ite keepsM_trapM <|
    .bind keepsM_checkGroup fun _ =>
    .bind keepsM_checkPanel fun _ =>
    .bind
      (keepsM_mapM fun _ =>
       .bind (keepsM_mapM fun _ => keepsM_captured keepsM_actRows) fun _ => keepsM_pure _)
      (fun _ => keepsM_pure _)

theorem gives_mapM {α β : Type} {Q : β → Prop} {f : α → M β} {l : List α} (h : ∀ a, Gives Q (f a)) :
    Gives (fun bs => ∀ b ∈ bs, Q b) (l.mapM f) := by
  induction l with
  | nil => exact gives_pure nofun
  | cons a l ih =>
    rw [List.mapM_cons]
    refine gives_bind_of (h a) fun b hb => gives_bind_of ih fun bs hbs => gives_pure ?_
    simpa [hb] using hbs

theorem items_flatten {ls : List (List Item)} (h : ∀ l ∈ ls, ItemsKeep l) : ItemsKeep ls.flatten := by
  intro x hx
  obtain ⟨l, hl, hx⟩ := List.mem_flatten.1 hx
  exact h l hl x hx

theorem gives_mmaPlan {e x} : Gives ItemsKeep (mmaPlan e x) := by
  unfold mmaPlan
  refine gives_bind fun o => gives_bind fun a => gives_ite gives_trapM (gives_bind fun _ => gives_bind fun _ => ?_)
  have hrow {α : Type} {f : α → M (List Item)} {l : List α} (hf : ∀ p, Gives ItemsKeep (f p)) :
      Gives ItemsKeep (do let ts ← l.mapM f; pure ts.flatten) :=
    gives_bind_of (gives_mapM hf) fun _ hts => gives_pure (items_flatten hts)
  exact hrow fun _ => gives_bind fun _ =>
    gives_pure (items_map fun _ => itemKeeps_mk (fun _ => keepsM_pure _) fun _ => keepsM_mmaItem)

theorem keeps_matBody {m} (hm : ∀ a0 a1, KeepsM Canonical (m a0 a1)) {recs} : BodyKeeps (matBody m recs) :=
  bodyKeeps_mk
    (fun _ _ => keepsM_pure _)
    (fun _ _ _ => keepsM_pure _)
    (fun _ _ _ =>
       gives_pure <|
       items_cons
         (itemKeeps_mk (fun _ => keepsM_pure _) fun _ => .bind (hm _ _) fun _ => keepsM_pure _)
         items_nil)
    (fun _ _ => keepsM_pure _)
    (fun _ _ => keepsM_pure _)

theorem keeps_bodyMload {fmt kb} : BodyKeeps (bodyMload fmt kb) :=
  keeps_matBody fun _ _ => keepsM_loadInto

theorem keeps_bodyMswap : BodyKeeps bodyMswap :=
  keeps_matBody fun _ _ => keepsM_modify fun _ h => wf_swapSlots h

theorem keeps_bodyMrecast {shadow} : BodyKeeps (bodyMrecast shadow) := by
  unfold bodyMrecast
  refine keeps_matBody fun a0 a1 => keepsM_bind_get fun s h => ?_
  split
  · exact keepsM_loadInto
  · exact keepsM_pure _

theorem keeps_bodyMinval {shadow} : BodyKeeps (bodyMinval shadow) :=
  keeps_matBody fun _ _ => keepsM_modify fun _ h => wf_ite (wf_putSlot h) h

theorem keeps_bodyMma {m} : BodyKeeps (bodyMma m) := by
  unfold bodyMma
  refine bodyKeeps_mk
    (fun _ _ => keepsM_pure _)
    (fun e fp b => keepsM_bind_get fun s h => ?_)
    (fun e fp b => gives_bind fun a => ?_)
    (fun _ _ => keepsM_pure _)
    (fun _ _ => keepsM_pure _)
  · split
    · exact keepsM_pure _
    · exact keepsM_ite (.bind keepsM_loadInto fun _ => keepsM_mmaPlan) keepsM_mmaPlan
  · split
    · exact gives_pure items_nil
    · exact gives_ite (gives_bind fun _ => gives_mmaPlan) gives_mmaPlan

/-! ### Accumulation and messages -/

theorem wf_reportWatch {s : State} (h : s.mem.wf = true) {sid w} : (reportWatch s sid w).mem.wf = true := by
  unfold reportWatch
  split
  · exact h
  · exact wf_mapStreams h

theorem wf_sweepRemaps {s : State} (h : s.mem.wf = true) : (sweepRemaps s).mem.wf = true :=
  wf_ite h h

theorem wf_performMsg {s : State} (h : s.mem.wf = true) {m} : (performMsg s m).mem.wf = true := by
  unfold performMsg
  dsimp only
  refine wf_sweepRemaps (wf_ite (wf_event h) (wf_reportWatch ?_))
  dsimp only
  exact wf_store h

theorem wf_answerMsg {s : State} (h : s.mem.wf = true) {m} : (answerMsg s m).1.mem.wf = true :=
  wf_fst_ite (wf_performMsg h) (wf_fst_ite (wf_fst_ite h h) (wf_fst_ite h h))

theorem wf_homeTurn {s : State} (h : s.mem.wf = true) {home} : (homeTurn s home).mem.wf = true := by
  unfold homeTurn
  split
  · refine wf_performMsg ?_
    exact h
  · exact h

theorem wf_drainQueues {s : State} (h : s.mem.wf = true) {p} : (drainQueues s p).mem.wf = true :=
  wf_foldl (fun _ _ h1 => wf_performMsg h1) h

theorem wf_mustSend {s : State} (h : s.mem.wf = true) {r} : (mustSend s r).mem.wf = true :=
  wf_performMsg h

theorem wf_foldMsg {s : State} (h : s.mem.wf = true) {m} : (foldMsg s m).mem.wf = true := by
  unfold foldMsg
  split
  · exact h
  · refine wf_ite h ?_
    split
    · refine wf_mustSend ?_
      exact h
    · exact h

theorem wf_takeAnswer {s : State} (h : s.mem.wf = true) {m ok} : (takeAnswer s m ok).mem.wf = true :=
  wf_ite h (wf_foldMsg h)

theorem wf_rideMsg {s : State} (h : s.mem.wf = true) {m} : (rideMsg s m).1.mem.wf = true := by
  unfold rideMsg
  dsimp only
  split <;> exact wf_foldl (fun _ _ h1 => wf_mustSend h1) h

theorem wf_settleMsg {s : State} (h : s.mem.wf = true) {m} : (settleMsg s m).mem.wf = true := by
  unfold settleMsg
  split
  · exact wf_takeAnswer h
  · dsimp only
    exact wf_takeAnswer (wf_drainQueues (wf_answerMsg h))

theorem wf_settleMsgs {s : State} (h : s.mem.wf = true) {p} : (settleMsgs s p).mem.wf = true := by
  unfold settleMsgs
  refine wf_drainQueues (wf_foldl (fun _ _ h1 => wf_settleMsg h1) ?_)
  exact h

theorem wf_sendMsg {s : State} (h : s.mem.wf = true) {m} : (sendMsg s m).mem.wf = true := by
  unfold sendMsg
  refine wf_ite (wf_performMsg h) ?_
  dsimp only
  refine wf_ite (wf_settleMsg (wf_rideMsg h)) (wf_ite ?_ (wf_rideMsg h))
  split
  · refine wf_settleMsg ?_
    exact wf_rideMsg h
  · exact wf_rideMsg h

theorem wf_deliverResiduals {s : State} (h : s.mem.wf = true) {p} : (deliverResiduals s p).mem.wf = true :=
  wf_foldl (fun _ _ h1 => wf_mustSend h1) (wf_settleMsgs h)

theorem keepsM_doAtom {o sub e shelve ks va y n} : KeepsM Canonical (doAtom o sub e shelve ks va y n) :=
  keepsM_bind_get fun _ _ =>
    keepsM_ite keepsM_waitM <|
    keepsM_ite keepsM_trapM <|
    keepsM_ite
      (.bind keepsM_admitOp fun _ =>
       .bind
         (keepsM_modify fun _ h1 => wf_ite (wf_touch (wf_record h1)) (wf_storeAt (wf_touch (wf_record h1))))
         (fun _ => keepsM_pure _))
      (.bind
         (keepsM_modify fun _ h1 => wf_ite (wf_touch (wf_record h1)) (wf_storeAt (wf_touch (wf_record h1))))
         (fun _ => keepsM_pure _))

theorem wf_zeroCopies {s : State} (h : s.mem.wf = true) {d n} : (zeroCopies s d n).mem.wf = true :=
  Laws.wf_filter _ _ h

theorem keepsM_homePlace {e vl w f perm ok i} : KeepsM Canonical (homePlace e vl w f perm ok i) := by
  unfold homePlace
  refine .bind keepsM_elemVa fun a => ?_
  split
  exact .bind keepsM_xlate fun _ =>
    .bind keepsM_keysM fun _ =>
    .bind (keepsM_need _ _) fun _ => .bind (keepsM_need _ _) fun _ => keepsM_pure _

theorem keepsM_bothOf {α β : Type} {x : M α} (hx : KeepsM Canonical x) {y : M β} (hy : KeepsM Canonical y) {rank} :
    KeepsM Canonical (bothOf x y rank) := by
  unfold bothOf
  refine .bind (keepsM_captured hx) fun a => .bind (keepsM_captured hy) fun b => ?_
  split
  · exact keepsM_pure _
  all_goals exact keepsM_throw _

theorem keepsM_lowestFault {l} (hl : ∀ p ∈ l, KeepsM Canonical p.2) : KeepsM Canonical (lowestFault l) := by
  induction l with
  | nil => exact keepsM_pure _
  | cons p l ih =>
    unfold lowestFault
    refine .bind (keepsM_captured (hl p (by simp))) fun x => .bind (ih fun q hq => hl q (by simp [hq])) fun y => ?_
    split
    · exact keepsM_pure _
    · exact keepsM_ite (keepsM_pure _) (keepsM_pure _)
    · exact keepsM_pure _

theorem keepsM_homeWatch {e sender va ks rd exempt precise} :
    KeepsM Canonical (homeWatch e sender va ks rd exempt precise) :=
  keepsM_bind_get fun _ _ =>
    keepsM_ite (keepsM_pure _) (keepsM_ite keepsM_trapM (keepsM_pure _))

theorem keepsM_mergePlace {e mw d p} : KeepsM Canonical (mergePlace e mw d p) := by
  unfold mergePlace
  refine .bind keepsM_homePlace fun a => ?_
  split
  split <;> exact .bind keepsM_homeWatch fun _ => keepsM_pure _

theorem keepsM_mergeOne {mw d e p} : KeepsM Canonical (mergeOne mw d e p) := by
  unfold mergeOne
  refine .bind keepsM_mergePlace fun a => ?_
  split
  refine keepsM_bind_get fun s h => ?_
  split
  · exact keepsM_pure _
  · split <;> exact keepsM_pure _

theorem keepsM_mergeCopies {e mw d} : KeepsM Canonical (mergeCopies e mw d) := by
  unfold mergeCopies
  refine keepsM_bind_get fun s h => .bind (keepsM_lowestFault fun p hp => ?_) fun x => ?_
  · obtain ⟨q, -, rfl⟩ := List.mem_map.1 hp
    exact .bind keepsM_mergePlace fun _ => keepsM_pure _
  · split
    · exact keepsM_throw _
    · exact .bind (keepsM_mapM fun p => keepsM_mergeOne) fun ms =>
        keepsM_modify fun t ht => wf_zeroCopies (wf_foldl (fun u m hu => wf_performMsg hu) ht)

theorem keepsM_mergeAll {e mw l} : KeepsM Canonical (mergeAll e mw l) := by
  induction l generalizing e mw with
  | nil =>
    unfold mergeAll
    exact keepsM_pure _
  | cons x l ih =>
    unfold mergeAll
    exact .bind keepsM_mergeCopies fun _ => ih

theorem keepsM_senderOf {e c f i on} : KeepsM Canonical (senderOf e c f i on) := by
  unfold senderOf
  refine .bind keepsM_elemVa fun a => ?_
  split
  refine .bind keepsM_lookup fun a => ?_
  split
  refine keepsM_bind_get fun s h => keepsM_ite keepsM_trapM ?_
  split
  · exact keepsM_ite keepsM_trapM (keepsM_pure _)
  · exact keepsM_pure _

theorem keepsM_vaccActive {v mask} (hmask : KeepsM Canonical mask) {e b i} :
    KeepsM Canonical (vaccActive v mask e b i) := by
  unfold vaccActive
  refine keepsM_bind_get fun s h =>
    .bind
      (keepsM_bothOf (keepsM_ite (keepsM_pure _) (keepsM_map keepsM_homePlace)) keepsM_senderOf)
      (fun a => ?_)
  split
  refine .bind hmask fun a => .bind keepsM_operandA fun a1 => ?_
  split
  split
  · split
    split
    · exact .bind keepsM_homeWatch fun _ => keepsM_pure _
    · exact keepsM_pure _
  · split
    · exact .bind keepsM_homeWatch fun _ => keepsM_pure _
    · exact keepsM_pure _

theorem keepsM_phaseElem {e c masked i on} (hon : ∀ a0, KeepsM Canonical a0 → KeepsM Canonical (on a0)) {off}
    (hoff : KeepsM Canonical off) : KeepsM Canonical (phaseElem e c masked i on off) := by
  unfold phaseElem
  refine .bind (keepsM_captured keepsM_active) fun a => ?_
  split
  · exact hon _ (keepsM_pure _)
  · exact .bind hoff fun _ => keepsM_pure _
  · exact hon _ keepsM_trapM
  · exact keepsM_throw _

theorem keepsM_vaccPhase1 {v e b i} : KeepsM Canonical (vaccPhase1 v e b i) :=
  keepsM_phaseElem (fun _ h => keepsM_vaccActive h) <|
    .bind keepsM_senderOf fun _ => keepsM_pure _

theorem keepsM_homeRecords {masked first always last e b} :
    KeepsM Canonical (homeRecords masked first always last e b) :=
  keepsM_ite (keepsM_pure _) <|
    .bind
      (keepsM_ite
         (.bind (keepsM_someNeeds fun _ => keepsM_active) fun _ =>
          keepsM_ite (keepsM_forM fun _ => keepsM_shapeReady) (keepsM_pure _))
         (keepsM_pure _))
      (fun _ =>
         .bind (keepsM_forM fun _ => keepsM_shapeReady) fun _ =>
         keepsM_ite
           (.bind (keepsM_someNeeds fun _ => keepsM_active) fun _ =>
            keepsM_ite (keepsM_forM fun _ => keepsM_shapeReady) (keepsM_pure _))
           (keepsM_pure _))

theorem keepsM_phaseAll {g} (hg : ∀ a0, KeepsM Canonical (g a0)) {n} : KeepsM Canonical (phaseAll g n) :=
  .bind (keepsM_mapM hg) fun _ => keepsM_pure _

theorem keepsM_vaccMsg {v e b p} : KeepsM Canonical (vaccMsg v e b p) := by
  unfold vaccMsg
  refine .bind keepsM_senderOf fun a => .bind keepsM_homePlace fun a1 => ?_
  split
  exact keepsM_bind_get fun _ _ => .bind keepsM_homeWatch fun _ => keepsM_pure _

theorem keepsM_intoCopy {v e b p} : KeepsM Canonical (intoCopy v e b p) :=
  .bind keepsM_senderOf fun _ => keepsM_modify fun _ h => wf_write h

theorem keeps_bodyVacc {v} : BodyKeeps (bodyVacc v) :=
  bodyKeeps_mk
    (fun _ _ => keepsM_pure _)
    (fun _ _ _ => keepsM_pure _)
    (fun _ _ _ =>
       gives_pure <|
       items_cons
         (itemKeeps_mk (fun _ => keepsM_pure _) fun _ =>
          keepsM_bind_get fun _ _ =>
          keepsM_ite (.bind (keepsM_forM fun _ => keepsM_intoCopy) fun _ => keepsM_pure _) <|
          .bind (keepsM_mapM fun _ => keepsM_vaccMsg) fun _ =>
          .bind (keepsM_modify fun _ h1 => wf_foldl (fun _ _ h2 => wf_sendMsg h2) h1) fun _ => keepsM_pure _)
         items_nil)
    (fun _ _ => keepsM_homeRecords)
    (fun _ _ => keepsM_phaseAll fun _ => keepsM_vaccPhase1)

theorem keepsM_vamoActive {o v mask} (hmask : KeepsM Canonical mask) {e b i} :
    KeepsM Canonical (vamoActive o v mask e b i) := by
  unfold vamoActive
  refine .bind (keepsM_bothOf keepsM_homePlace keepsM_destAddr) fun a => ?_
  split
  refine .bind keepsM_markWalks fun a =>
    .bind hmask fun a1 => keepsM_bind_get fun s h => .bind keepsM_operandA fun a2 => ?_
  split
  exact .bind keepsM_homeWatch fun _ => .bind keepsM_writeChecks fun _ => keepsM_pure _

theorem keepsM_vamoPhase1 {o v e b i} : KeepsM Canonical (vamoPhase1 o v e b i) := by
  unfold vamoPhase1
  refine keepsM_phaseElem (fun _ h => keepsM_vamoActive h) (.bind keepsM_elemVa fun a => ?_)
  split
  exact .bind keepsM_lookup fun _ => keepsM_pure _

theorem keepsM_vamoShelf {v e fp b l l1} : KeepsM Canonical (vamoShelf v e fp b l l1) := by
  induction l generalizing v e fp b l1 with
  | nil =>
    unfold vamoShelf
    exact keepsM_pure _
  | cons x l ih =>
    unfold vamoShelf
    refine .bind keepsM_destAddr fun a => keepsM_bind_get fun s h => ?_
    split
    · exact keepsM_ite (keepsM_ite keepsM_trapM ih) ih
    · exact ih

theorem keepsM_vamoAll {o v fp} (hfp : KeepsM Canonical fp) {e b} : KeepsM Canonical (vamoAll o v fp e b) :=
  .bind (keepsM_phaseAll fun _ => keepsM_vamoPhase1) fun _ =>
    .bind hfp fun _ => .bind keepsM_vamoShelf fun _ => keepsM_pure _

theorem keepsM_noteLate {t} : KeepsM Canonical (noteLate t) := keepsM_modify fun _ h => wf_ite h h

theorem keepsM_writeOld {v e fp b d i old} : KeepsM Canonical (writeOld v e fp b d i old) :=
  keepsM_bind_get fun _ h =>
    keepsM_ite (.bind (keepsM_set h) fun _ => keepsM_waitM) <|
    .bind keepsM_raceMark fun _ => keepsM_modify fun _ h1 => wf_storeAt h1

theorem keepsM_vamoElem {o v e fp b p} : KeepsM Canonical (vamoElem o v e fp b p) := by
  unfold vamoElem
  refine .bind keepsM_homePlace fun a => ?_
  split
  refine .bind keepsM_destAddr fun a => keepsM_bind_get fun s h => ?_
  split
  · exact keepsM_writeOld
  · exact .bind keepsM_homeWatch fun _ =>
      .bind keepsM_doAtom fun _ =>
      .bind (keepsM_modify fun _ h1 => wf_reportWatch h1) fun _ => keepsM_writeOld

theorem keepsM_vamoItem {o v e fp b p} : KeepsM Canonical (vamoItem o v e fp b p) := by
  unfold vamoItem
  refine .bind (keepsM_captured keepsM_vamoElem) fun a => ?_
  split
  · exact .bind keepsM_noteLate fun _ => keepsM_pure _
  · exact .bind (keepsM_throw _) fun _ => keepsM_pure _
  · exact keepsM_pure _

theorem keepsM_vamoFoot {v x b} : KeepsM Canonical (vamoFoot v x b) := keepsM_footQuiet

theorem keeps_bodyVamo {o v} : BodyKeeps (bodyVamo o v) :=
  bodyKeeps_mk
    (fun _ _ => keepsM_vamoFoot)
    (fun _ _ _ => keepsM_pure _)
    (fun _ _ _ =>
       gives_pure (items_map fun _ => itemKeeps_mk (fun _ => keepsM_pure _) fun _ => keepsM_vamoItem))
    (fun _ _ => keepsM_homeRecords)
    (fun _ _ => keepsM_vamoAll keepsM_vamoFoot)

theorem keeps_oneBody {m} (hm : ∀ a0 a1, KeepsM Canonical (m a0 a1)) : BodyKeeps (oneBody m) :=
  keeps_matBody hm

theorem keeps_bodyAdecl : BodyKeeps bodyAdecl :=
  keeps_oneBody fun _ _ => keepsM_modify fun _ h => wf_zeroCopies h

theorem keeps_bodyAmerge : BodyKeeps bodyAmerge := by
  unfold bodyAmerge
  refine keeps_oneBody fun a0 a1 => keepsM_bind_get fun s h => ?_
  split
  · exact keepsM_pure _
  · exact .bind keepsM_mergeCopies fun _ => keepsM_modify fun _ h1 => h1

/-! ### Which body a broadcast has -/

theorem keeps_infoOf {i info} (h : infoOf i = some info) : BodyKeeps info.body := by
  unfold infoOf at h
  split at h
  · cases h; exact keeps_bodyArith
  · cases h; exact keeps_bodyArith
  · cases h; exact keeps_bodyArith
  · cases h; exact keeps_bodyArith
  · cases h; exact keeps_bodyArith
  · cases h; exact keeps_bodyArith
  · cases h; exact keeps_bodyMinMax
  · cases h; exact keeps_bodyMinMax
  · cases h; exact keeps_bodyUnary
  · cases h; exact keeps_bodyUnary
  · cases h; exact keeps_bodyUnary
  · cases h; exact keeps_bodyUnary
  · cases h; exact keeps_bodyUnary
  · cases h; exact keeps_bodyUnary
  · cases h; exact keeps_bodyLogic
  · cases h; exact keeps_bodyLogic
  · cases h; exact keeps_bodyLogic
  · cases h; exact keeps_bodyNot
  · cases h; exact keeps_bodyShift
  · cases h; exact keeps_bodyShift
  · cases h; exact keeps_bodyShift
  · cases h; exact keeps_bodyCompare
  · cases h; exact keeps_bodyCompare
  · cases h; exact keeps_bodyCompare
  · cases h; exact keeps_bodyCompare
  · cases h; exact keeps_bodySel
  · cases h; exact keeps_bodyMov
  · cases h; exact keeps_bodyFill
  · cases h; exact keeps_bodyIota
  · cases h; exact keeps_bodyRed
  · cases h; exact keeps_bodyRed
  · cases h; exact keeps_bodyRed
  · cases h; exact keeps_bodyScan
  · cases h; exact keeps_bodyScan
  · cases h; exact keeps_bodyScan
  · cases h; exact keeps_bodyMov
  · cases h; exact keeps_bodyMov
  · cases h; exact keeps_bodyCompact
  · cases h; exact keeps_bodyExpand
  · cases h; exact keeps_bodyLanex
  · cases h; exact keeps_bodyCvt
  · cases h; exact keeps_bodyVacc
  · cases h; exact keeps_bodyVamo
  · cases h; exact keeps_bodyVamo
  · cases h; exact keeps_bodyVamo
  · cases h; exact keeps_bodyVamo
  · cases h; exact keeps_bodyVamo
  · cases h; exact keeps_bodyVamo
  · cases h; exact keeps_bodyVamo
  · cases h; exact keeps_bodyVamo
  · cases h; exact keeps_bodyVamo
  · cases h; exact keeps_bodyAdecl
  · cases h; exact keeps_bodyAmerge
  · cases h; exact keeps_bodyCond
  · cases h; exact keeps_bodyCond
  · cases h; exact keeps_bodyCond
  · cases h; exact keeps_bodyMload
  · cases h; exact keeps_bodyMswap
  · cases h; exact keeps_bodyMma
  · cases h; exact keeps_bodyMrecast
  · cases h; exact keeps_bodyMinval
  · cases h

theorem keeps_infoOfWord {w info} (h : infoOfWord w = some info) : BodyKeeps info.body := by
  obtain ⟨i, -, hi⟩ := Option.bind_eq_some_iff.1 h
  exact keeps_infoOf hi

/-! ### What is left to perform -/

theorem items_startItems {b items} (hitems : ItemsKeep items) : ItemsKeep (startItems b items) :=
  items_filter hitems

theorem items_restItems {s b items} (hitems : ItemsKeep items) : ItemsKeep (restItems s b items) :=
  items_ite (items_startItems hitems) (items_filter (items_startItems hitems))

theorem wf_runItems {l} (hl : ItemsKeep l) {s : State} (h : s.mem.wf = true) {b} :
    (runItems l s b).1.mem.wf = true := by
  induction l generalizing s b with
  | nil => exact h
  | cons x l ih =>
    unfold runItems
    split
    · exact h
    · split
      · exact ih hl.tail (wf_of_exec (hl.head.run b) h ‹_›)
      · exact wf_of_exec (hl.head.run b) h ‹_›

theorem wf_setWork {s : State} (h : s.mem.wf = true) {w} : (setWork s w).mem.wf = true := h

theorem wf_runApart {l} (hl : ItemsKeep l) {s : State} (h : s.mem.wf = true) {b l1} :
    (runApart l s b l1).1.mem.wf = true := by
  induction l generalizing s b l1 with
  | nil => exact h
  | cons x l ih =>
    unfold runApart
    rcases hx : M.exec (x.run b) s with ⟨r, t⟩
    have ht : t.mem.wf = true := wf_of_exec (hl.head.run b) h hx
    cases r with
    | ok y => exact ih hl.tail ht
    | error y =>
      dsimp only
      refine ih hl.tail ?_
      exact ht

theorem wf_performApart {s : State} (h : s.mem.wf = true) {b items} (hitems : ItemsKeep items) :
    (performApart s b items).1.mem.wf = true := by
  unfold performApart
  split
  · dsimp only
    refine wf_of_eq (wf_runApart (items_restItems hitems) ?_) ‹_›
    exact h
  · dsimp only
    refine wf_setWork (wf_of_eq (wf_runApart (items_restItems hitems) ?_) ‹_›)
    exact h

theorem wf_unexempt {s : State} (h : s.mem.wf = true) {n} : (s.unexempt n).mem.wf = true := h

theorem wf_rewriteAbove {s : State} (h : s.mem.wf = true) {k} : (rewriteAbove s k).mem.wf = true :=
  wf_foldl (fun _ _ h1 => wf_rewrite h1) h

theorem wf_undoB {s : State} (h : s.mem.wf = true) {n} : (undoB s n).mem.wf = true :=
  wf_rewriteAbove (wf_rollback h)

theorem wf_performInOrder {s : State} (h : s.mem.wf = true) {b items} (hitems : ItemsKeep items) :
    (performInOrder s b items).1.mem.wf = true := by
  unfold performInOrder
  split
  · exact wf_of_eq (wf_runItems (items_restItems hitems) h) ‹_›
  · exact wf_ite (wf_of_eq (wf_runItems (items_restItems hitems) h) ‹_›) <|
      wf_unexempt (wf_of_eq (wf_runItems (items_restItems hitems) h) ‹_›)
  · exact wf_of_eq (wf_runItems (items_restItems hitems) h) ‹_›
  · exact wf_fst_ite (wf_undoB (wf_of_eq (wf_runItems (items_restItems hitems) h) ‹_›)) <|
      wf_of_eq (wf_runItems (items_restItems hitems) h) ‹_›

theorem wf_performB {s : State} (h : s.mem.wf = true) {b body} (hbody : BodyKeeps body) :
    (performB s b body).1.mem.wf = true := by
  unfold performB
  extract_lets e
  split
  next p1 t ep =>
  have ht : t.mem.wf = true := by
    split at ep
    · exact wf_of_exec (.bind (hbody.ready _ _) fun _ => hbody.phase1 _ _) h ep
    · have es : s = t := congrArg Prod.snd ep
      exact es ▸ h
  split
  · exact ht
  · extract_lets b1 fp
    split
    · exact wf_of_exec (hbody.plan _ _ _) ht ‹_›
    · exact wf_fst_ite
        (wf_performApart (wf_of_exec (hbody.plan _ _ _) ht ‹_›) (Gives.of (hbody.items _ _ _) ‹_›))
        (wf_performInOrder (wf_of_exec (hbody.plan _ _ _) ht ‹_›) (Gives.of (hbody.items _ _ _) ‹_›))

theorem wf_finishB {s : State} (h : s.mem.wf = true) {b body} : (finishB s b body).1.mem.wf = true := by
  unfold finishB
  dsimp only
  refine wf_shelfFree (wf_traced (wf_unexempt ?_))
  dsimp only
  refine wf_mapCsr ?_
  split
  · exact wf_wr (wf_orFlags h)
  · exact wf_orFlags h

theorem wf_putBlock {s : State} (h : s.mem.wf = true) {st ks i v} : (putBlock s st ks i v).mem.wf = true :=
  wf_storeAt h

theorem wf_putClock {s : State} (h : s.mem.wf = true) {st ks v} : (putClock s st ks v).mem.wf = true :=
  wf_foldl (fun _ _ h1 => wf_storeAt h1) h

theorem wf_relAtHome {s : State} (h : s.mem.wf = true) {st ks inc clock} :
    (relAtHome s st ks inc clock).1.mem.wf = true := by
  unfold relAtHome
  split
  · exact wf_putClock (wf_putBlock (wf_record h))
  · exact wf_putBlock (wf_record h)

theorem wf_performRel {s : State} (h : s.mem.wf = true) {x} : (performRel s x).1.mem.wf = true := by
  unfold performRel
  refine wf_fst_ite h ?_
  dsimp only
  exact wf_relAtHome h

theorem wf_performAccess {s : State} (h : s.mem.wf = true) {x} : (performAccess s x).1.mem.wf = true := by
  unfold performAccess
  split
  · exact h
  · split
    · exact wf_touch h
    · exact wf_fst_ite h (wf_storeAt h)
    · exact h
    · exact wf_performRel h

theorem wf_replyAccess {s : State} (h : s.mem.wf = true) {x} : (replyAccess s x).mem.wf = true := by
  unfold replyAccess
  split
  · exact wf_wr h
  · exact wf_wr h
  · exact h

theorem wf_performWhere {p} {s : State} (h : s.mem.wf = true) : (performWhere p s).mem.wf = true := by
  unfold performWhere
  dsimp only
  exact wf_sweepRemaps (wf_foldl_fst (fun _ _ h1 => wf_fst_ite (wf_performAccess h1) h1) h)

theorem wf_settleAccesses {s : State} (h : s.mem.wf = true) : (settleAccesses s).mem.wf = true := by
  unfold settleAccesses
  exact wf_foldl (fun _ _ h1 => wf_ite h1 (wf_replyAccess h1)) (wf_performWhere h)

theorem wf_landRels {s : State} (h : s.mem.wf = true) : (landRels s).mem.wf = true :=
  wf_foldl (fun _ _ h1 => wf_ite (wf_replyAccess h1) h1) (wf_performWhere h)

theorem wf_putB {s : State} (h : s.mem.wf = true) {b} : (putB s b).mem.wf = true := h

theorem wf_settleB {s : State} (h : s.mem.wf = true) {b info} (hinfo : BodyKeeps info) :
    (settleB s b info).1.mem.wf = true := by
  unfold settleB
  split
  · exact wf_finishB (wf_of_eq (wf_performB h hinfo) ‹_›)
  · exact wf_putB (wf_of_eq (wf_performB h hinfo) ‹_›)
  · exact wf_putB (wf_of_eq (wf_performB h hinfo) ‹_›)

theorem wf_settleTo {n l} {s : State} (h : s.mem.wf = true) : (settleTo n l s).1.mem.wf = true := by
  induction l generalizing n s with
  | nil =>
    unfold settleTo
    exact h
  | cons x l ih =>
    unfold settleTo
    refine wf_fst_ite h (wf_fst_ite (wf_performWhere h) ?_)
    split
    · exact ih (wf_performWhere h)
    · split
      · exact ih (wf_of_eq (wf_settleB (wf_performWhere h) (keeps_infoOfWord ‹_›)) ‹_›)
      · exact wf_settleB (wf_performWhere h) (keeps_infoOfWord ‹_›)

/-! ### Copy actions and their programs -/

theorem keepsM_cmdSource {k c e i} : KeepsM Canonical (cmdSource k c e i) := by
  unfold cmdSource
  split
  · exact keepsM_pure _
  · exact .bind keepsM_readShape fun _ => keepsM_ite keepsM_readAt keepsM_trapM
  · exact .bind keepsM_readIndex fun _ => keepsM_ite keepsM_readAt keepsM_trapM
  · exact keepsM_readElem

theorem keepsM_cmdDest {k c e step r i} : KeepsM Canonical (cmdDest k c e step r i) := by
  unfold cmdDest
  split
  · exact .bind keepsM_readIndex fun _ => keepsM_pure _
  · exact keepsM_pure _
  · exact keepsM_elemVa

theorem keepsM_destKeys {e i va n} : KeepsM Canonical (destKeys e i va n) :=
  .bind keepsM_xlate fun _ =>
    .bind keepsM_keysM fun _ => keepsM_bind_get fun _ _ => keepsM_ite keepsM_trapM (keepsM_pure _)

theorem keepsM_checkDest {k c e i va n} : KeepsM Canonical (checkDest k c e i va n) :=
  keepsM_ite keepsM_trapM <|
    .bind keepsM_destKeys fun _ => keepsM_ite keepsM_trapM (keepsM_pure _)

theorem keepsM_checkSplit {k c e i va} : KeepsM Canonical (checkSplit k c e i va) :=
  .bind keepsM_checkDest fun _ =>
    .bind keepsM_destKeys fun _ =>
    .bind keepsM_destKeys fun _ => keepsM_bind_get fun _ _ => keepsM_need _ _

theorem keepsM_byte {g e va} : KeepsM Canonical (Gather.byte g e va) := by
  unfold Gather.byte
  split
  · exact keepsM_pure _
  · exact .bind keepsM_lookup fun _ =>
      .bind keepsM_keysM fun _ => keepsM_bind_get fun _ _ => keepsM_pure _

theorem keepsM_cmdPieces {c g e va bo n} : KeepsM Canonical (cmdPieces c g e va bo n) :=
  keepsM_ite (.bind (keepsM_mapM fun _ => keepsM_byte) fun _ => keepsM_pure _) (keepsM_pure _)

theorem keepsM_gatherOne {k c e step r g i} : KeepsM Canonical (gatherOne k c e step r g i) := by
  unfold gatherOne
  refine .bind (keepsM_captured keepsM_cmdDest) fun a => ?_
  split
  · exact keepsM_pure _
  · exact keepsM_throw _
  · split
    all_goals
      split
      dsimp only
      refine .bind
        (keepsM_captured <|
         .bind keepsM_cmdSource fun _ =>
         .bind keepsM_checkDest fun _ =>
         keepsM_ite (.bind keepsM_checkSplit fun _ => keepsM_cmdPieces) keepsM_cmdPieces)
        (fun a => ?_)
      split
      · exact keepsM_pure _
      · exact keepsM_throw _
      · exact keepsM_pure _

theorem keepsM_gatherAll {k c e step r l x} : KeepsM Canonical (gatherAll k c e step r l x) := by
  induction l generalizing k c e step r x with
  | nil =>
    unfold gatherAll
    exact keepsM_pure _
  | cons x l ih =>
    unfold gatherAll
    exact .bind keepsM_gatherOne fun _ => ih

theorem keepsM_gatherReplicas {k c e step l x} : KeepsM Canonical (gatherReplicas k c e step l x) := by
  induction l generalizing k c e step x with
  | nil =>
    unfold gatherReplicas
    exact keepsM_pure _
  | cons x l ih =>
    unfold gatherReplicas
    exact .bind keepsM_gatherAll fun _ => ih

theorem wf_putMicro {s : State} (h : s.mem.wf = true) {pc first ws} : (putMicro s pc first ws).mem.wf = true :=
  h

theorem keepsM_selected {c e} : KeepsM Canonical (selected c e) :=
  .bind (keepsM_mapM fun _ => .bind keepsM_readAt fun _ => keepsM_pure _) fun _ =>
    keepsM_pure _

theorem keepsM_runSprog {c first} : KeepsM Canonical (runSprog c first) := by
  unfold runSprog
  refine keepsM_bind_get fun s h =>
    .bind
      (keepsM_captured <|
       .bind keepsM_selected fun _ => .bind (keepsM_mapM fun _ => keepsM_readElem) fun _ => keepsM_pure _)
      (fun a => ?_)
  split
  · exact keepsM_ite keepsM_waitM <|
      .bind (keepsM_modify fun _ h1 => wf_foldl (fun _ _ h2 => wf_putMicro h2) h1) fun _ =>
      keepsM_pure _
  · exact keepsM_pure _
  · exact keepsM_throw _

theorem keepsM_extentPages {c e} : KeepsM Canonical (extentPages c e) :=
  .bind
    (keepsM_mapM fun _ => .bind keepsM_xlate fun _ => .bind keepsM_keysM fun _ => keepsM_pure _)
    (fun _ => keepsM_pure _)

theorem keepsM_runContext {c e} : KeepsM Canonical (runContext c e) :=
  .bind (keepsM_mapM fun _ => .bind keepsM_readElem fun _ => keepsM_pure _) fun _ =>
    .bind keepsM_extentPages fun _ => keepsM_bind_get fun _ _ => keepsM_pure _

theorem wf_ownOuts {s : State} (h : s.mem.wf = true) {below outs} : (ownOuts s below outs).1.mem.wf = true :=
  wf_foldl_fst (fun _ _ h1 => wf_fst_ite h1 h1) h

theorem keepsM_runWrites {c e r} : KeepsM Canonical (runWrites c e r) :=
  keepsM_mapM fun _ => .bind keepsM_checkDest fun _ => keepsM_pure _

theorem keepsM_rankWrites {c e l} : KeepsM Canonical (rankWrites c e l) := by
  induction l generalizing c e with
  | nil =>
    unfold rankWrites
    exact keepsM_pure _
  | cons x l ih =>
    unfold rankWrites
    split
    · exact keepsM_pure _
    · refine .bind (keepsM_captured keepsM_runWrites) fun a => ?_
      split
      · exact keepsM_pure _
      · exact keepsM_throw _
      · refine .bind ih fun a => ?_
        split
        exact keepsM_pure _

theorem wf_pickOuts {l l1} {s : State} (h : s.mem.wf = true) : (pickOuts l l1 s).1.mem.wf = true := by
  induction l generalizing l1 s with
  | nil =>
    unfold pickOuts
    exact h
  | cons x l ih =>
    unfold pickOuts
    exact ih (wf_ownOuts h)

theorem keepsM_endRuns {c rs} : KeepsM Canonical (endRuns c rs) := by
  unfold endRuns
  refine keepsM_bind_get fun s h => ?_
  split
  refine .bind (keepsM_set (wf_of_eq (wf_pickOuts h) ‹_›)) fun a =>
    .bind keepsM_rankWrites fun a1 => ?_
  split
  split <;> exact keepsM_pure _

theorem wf_runAt {s : State} (h : s.mem.wf = true) {pcs} : (s.runAt pcs).mem.wf = true := h

theorem keepsM_startRuns {c imm only} : KeepsM Canonical (startRuns c imm only) := by
  unfold startRuns
  refine keepsM_bind_get fun s h => .bind (keepsM_captured keepsM_runContext) fun a => ?_
  split
  · exact keepsM_pure _
  · exact keepsM_throw _
  · exact keepsM_bind_get fun _ h1 => .bind (keepsM_set (wf_runAt h1)) fun _ => keepsM_pure _

theorem keepsM_runSrun {c imm} : KeepsM Canonical (runSrun c imm) :=
  .bind keepsM_startRuns fun _ => keepsM_ite (keepsM_pure _) keepsM_endRuns

theorem keepsM_hopOne {imm e x} : KeepsM Canonical (hopOne imm e x) :=
  keepsM_ite (keepsM_pure _) <|
    keepsM_ite keepsM_trapM <|
    .bind keepsM_xlate fun _ =>
    keepsM_ite keepsM_trapM <|
    .bind keepsM_keysM fun _ =>
    .bind keepsM_readKeys fun _ => keepsM_bind_get fun _ _ => keepsM_pure _

theorem keepsM_gatherHop {c e g rs} : KeepsM Canonical (gatherHop c e g rs) := by
  unfold gatherHop
  refine keepsM_foldlM fun b a => ?_
  dsimp only
  refine .bind (keepsM_captured keepsM_checkDest) fun a1 => ?_
  split
  · exact keepsM_pure _
  · exact keepsM_pure _
  · exact keepsM_throw _

theorem keepsM_chaseHops {c imm e n x x1} : KeepsM Canonical (chaseHops c imm e n x x1) := by
  induction n generalizing c imm e x x1 with
  | zero =>
    unfold chaseHops
    exact keepsM_pure _
  | succ n ih =>
    unfold chaseHops
    refine keepsM_ite (keepsM_pure _) (.bind (keepsM_captured keepsM_hopOne) fun a => ?_)
    split
    · exact .bind keepsM_gatherHop fun _ => ih
    · dsimp only
      exact keepsM_pure _
    · exact keepsM_throw _

theorem keepsM_runChase_go {c imm e l x} : KeepsM Canonical (runChase.go c imm e l x) := by
  induction l generalizing c imm e x with
  | nil =>
    unfold runChase.go
    exact keepsM_pure _
  | cons x l ih =>
    unfold runChase.go
    refine .bind (keepsM_captured keepsM_readElem) fun a => ?_
    split
    · exact .bind keepsM_chaseHops fun _ => ih
    · exact ih
    · exact keepsM_throw _

theorem keepsM_runChase {c imm} : KeepsM Canonical (runChase c imm) :=
  keepsM_bind_get fun _ _ => .bind keepsM_runChase_go fun _ => keepsM_pure _

theorem keepsM_readCmd {c} : KeepsM Canonical (readCmd c) := by
  unfold readCmd
  split
  · exact keepsM_pure _
  · refine keepsM_ite (keepsM_pure _) ?_
    split
    · exact keepsM_runSprog
    · exact keepsM_runSrun
    · exact keepsM_runChase
    · exact keepsM_bind_get fun _ _ => .bind keepsM_gatherReplicas fun _ => keepsM_pure _

theorem wf_keepWrote {s : State} (h : s.mem.wf = true) {stamp pc kbs} : (keepWrote s stamp pc kbs).mem.wf = true :=
  wf_ite h h

theorem keepsM_placeWrite {e x} : KeepsM Canonical (placeWrite e x) := by
  unfold placeWrite
  refine .bind keepsM_destKeys fun a => ?_
  split
  exact keepsM_ite keepsM_trapM (keepsM_pure _)

theorem keepsM_writeSector {shelve c} : KeepsM Canonical (writeSector shelve c) := by
  unfold writeSector
  split
  · exact keepsM_pure _
  · refine keepsM_bind_get fun s h =>
      .bind
        (keepsM_captured <|
         .bind (keepsM_mapM fun _ => keepsM_placeWrite) fun _ =>
         keepsM_bind_get fun _ _ =>
         keepsM_ite keepsM_waitM (.bind (keepsM_forM fun _ => keepsM_raceCheck) fun _ => keepsM_pure _))
        (fun a => ?_)
    split
    · exact .bind (keepsM_modify fun _ h1 => wf_keepWrote (wf_storeAt h1)) fun _ => keepsM_pure _
    · exact .bind (keepsM_modify fun _ h1 => h1) fun _ => keepsM_pure _
    · exact keepsM_throw _

theorem wf_writeAll {shelve n} {s : State} (h : s.mem.wf = true) {x} : (writeAll shelve n s x).1.mem.wf = true := by
  induction n generalizing shelve s x with
  | zero =>
    unfold writeAll
    exact h
  | succ n ih =>
    unfold writeAll
    refine wf_fst_ite h ?_
    split
    · exact ih (wf_of_exec keepsM_writeSector h ‹_›)
    · exact h

theorem keepsM_actionMma {c} : KeepsM Canonical (actionMma c) := by
  unfold actionMma
  refine keepsM_bind_get fun s h => ?_
  split
  · refine .bind (keepsM_need _ _) fun a =>
      .bind (keepsM_need _ _) fun a1 =>
      keepsM_ite
        (.bind keepsM_loadInto fun a2 =>
         keepsM_bind_items keepsM_mmaPlan gives_mmaPlan fun l h1 => keepsM_bind_get fun s1 h2 => ?_)
        (keepsM_bind_items keepsM_mmaPlan gives_mmaPlan fun l h1 => keepsM_bind_get fun s1 h2 => ?_)
    all_goals
      split
      · exact .bind (keepsM_set (wf_of_eq (wf_runItems h1 h2) ‹_›)) fun _ => keepsM_pure _
      · exact keepsM_throw _
  · exact keepsM_pure _

theorem keepsM_doAction {c} : KeepsM Canonical (doAction c) := by
  unfold doAction
  refine keepsM_bind_get fun s _ => ?_
  extract_lets old fills new act
  have hact : ∀ u, KeepsM Canonical (act u) := by
    refine fun _ => .bind (keepsM_modify fun _ ht => ht) fun _ => keepsM_ite (keepsM_pure _) ?_
    refine .bind (keepsM_captured keepsM_actionMma) fun r => ?_
    split
    · exact .bind (keepsM_modify fun _ ht => ht) fun _ => keepsM_pure _
    · refine .bind (keepsM_modify fun t ht => wf_ite (wf_putSlot (wf_putSlot ?_)) ?_) fun _ => keepsM_pure _
      all_goals exact ht
    · exact keepsM_throw _
  refine keepsM_ite (keepsM_pure _) (keepsM_ite (keepsM_pure _) ?_)
  split
  · exact keepsM_pure _
  · refine .bind (keepsM_captured (keepsM_ite keepsM_loadInto (keepsM_pure _))) fun r => ?_
    split
    · exact .bind (keepsM_modify fun _ ht => ht) fun _ => keepsM_pure _
    · exact keepsM_throw _
    · exact keepsM_ite (.bind (keepsM_modify fun _ ht => wf_swapSlots ht) hact) (hact ())

theorem wf_setCmds {s : State} (h : s.mem.wf = true) {cs} : (s.setCmds cs).mem.wf = true := h

theorem wf_putCmd {s : State} (h : s.mem.wf = true) {c} : (putCmd s c).mem.wf = true := wf_setCmds h

theorem wf_freeSlotOf {s : State} (h : s.mem.wf = true) {c} : (freeSlotOf s c).mem.wf = true := by
  unfold freeSlotOf
  dsimp only
  refine wf_traced ?_
  exact h

theorem wf_putToken {s : State} (h : s.mem.wf = true) {c} : (putToken s c).mem.wf = true :=
  wf_freeSlotOf (wf_orFlags (wf_wr h))

theorem wf_runCmdM {m} (hm : KeepsM Canonical m) {c} {s : State} (h : s.mem.wf = true) :
    (runCmdM m c s).1.mem.wf = true := by
  unfold runCmdM
  split
  · exact wf_of_exec hm h ‹_›
  · exact h

theorem wf_wholeCmd {c} {s : State} (h : s.mem.wf = true) : (wholeCmd c s).1.mem.wf = true := by
  unfold wholeCmd
  dsimp only
  exact wf_fst_ite (wf_writeAll (wf_fst_ite h (wf_runCmdM keepsM_readCmd h))) <|
    wf_runCmdM (.bind keepsM_doAction fun _ => keepsM_pure _) <|
    wf_writeAll (wf_fst_ite h (wf_runCmdM keepsM_readCmd h))

theorem wf_settleSlot {s : State} (h : s.mem.wf = true) {slot} : (settleSlot s slot).mem.wf = true := by
  unfold settleSlot
  split
  · exact h
  · dsimp only
    split
    · exact wf_ite (wf_putToken (wf_putCmd (wf_wholeCmd h))) (wf_putCmd (wf_wholeCmd h))
    · exact wf_putCmd (wf_wholeCmd h)

theorem wf_settleCmds {p} {s : State} (h : s.mem.wf = true) : (settleCmds p s).mem.wf = true :=
  wf_foldl (fun _ _ h1 => wf_settleSlot h1) h

/-! ### Issue, stops and settling -/

theorem wf_enterTrap {s : State} (h : s.mem.wf = true) {t tpc} : (enterTrap s t tpc).mem.wf = true := by
  unfold enterTrap
  dsimp only
  exact wf_mapCsr h

theorem wf_endStream {s : State} (h : s.mem.wf = true) {t tpc} : (endStream s t tpc).mem.wf = true :=
  wf_retireFront (wf_event h)

theorem wf_deliver {s : State} (h : s.mem.wf = true) {t tpc} : (deliver s t tpc).mem.wf = true :=
  wf_ite (wf_endStream h) (wf_enterTrap h)

theorem wf_leaveTrap {rq} {s : State} (h : s.mem.wf = true) : (leaveTrap rq s).mem.wf = true := by
  unfold leaveTrap
  dsimp only
  exact wf_mapCsr h

theorem wf_caughtUp {s : State} (h : s.mem.wf = true) : (caughtUp s).mem.wf = true :=
  wf_ite (wf_mapCsr h) h

theorem wf_reissue {s : State} (h : s.mem.wf = true) : (reissue s).mem.wf = true := wf_caughtUp h

theorem wf_withdrawWaits {s : State} (h : s.mem.wf = true) : (withdrawWaits s).mem.wf = true :=
  wf_settleMsgs h

theorem wf_leave {s : State} (h : s.mem.wf = true) : s.leave.mem.wf = true := h

theorem wf_cancelAbove {s : State} (h : s.mem.wf = true) {n} : (cancelAbove s n).mem.wf = true := h

theorem wf_withdrawBranch {s : State} (h : s.mem.wf = true) {tpc} : (withdrawBranch s tpc).1.mem.wf = true := by
  unfold withdrawBranch
  split
  · exact h
  · dsimp only
    refine wf_mapCsr ?_
    exact h

theorem wf_recordStop {s : State} (h : s.mem.wf = true) {n first} : (recordStop s n first).mem.wf = true := by
  unfold recordStop
  dsimp only
  exact wf_mapCsr (wf_rewriteAbove (wf_rollback (wf_settleCmds (wf_cancelAbove h))))

theorem wf_stopRecorded {s : State} (h : s.mem.wf = true) {t tpc} :
    (stopState (stopRecorded s t tpc)).mem.wf = true :=
  wf_traced h

theorem wf_deliverStop {x} (hx : (stopState x).mem.wf = true) : (deliverStop x).mem.wf = true := by
  cases x with
  | stopped s t pc => exact wf_deliver hx
  | waits s => exact hx

theorem wf_stopFault {s : State} (h : s.mem.wf = true) {b t tpc} :
    (stopState (stopFault s b t tpc)).mem.wf = true := by
  unfold stopFault
  extract_lets s1 s2 front s3 s4
  have h1 : s1.mem.wf = true := wf_settleAccesses h
  have h2 : s2.mem.wf = true := wf_settleCmds h1
  have h3 : s3.mem.wf = true := by
    unfold s3
    split <;> exact h2
  have h4 : s4.mem.wf = true := wf_traced h3
  split
  · exact h1
  · split
    · exact h2
    · split
      · exact wf_stopRecorded (wf_recordStop (wf_withdrawBranch h4))
      · exact wf_stopRecorded (wf_recordStop h4)

theorem wf_completeNext {n} {s : State} (h : s.mem.wf = true) : (completeNext n s).1.mem.wf = true := by
  induction n generalizing s with
  | zero =>
    unfold completeNext
    exact h
  | succ n ih =>
    unfold completeNext
    split
    · exact h
    · split
      · exact h
      · refine wf_fst_ite ?_ h
        split
        · exact ih (wf_of_eq (wf_settleB h (keeps_infoOfWord ‹_›)) ‹_›)
        · exact wf_settleB h (keeps_infoOfWord ‹_›)

theorem wf_recordSettled {s : State} (h : s.mem.wf = true) {t tpc} :
    (stopState (recordSettled s t tpc)).mem.wf = true := by
  unfold recordSettled
  dsimp only
  split
  · exact wf_settleAccesses h
  · split
    · exact wf_settleCmds (wf_settleAccesses h)
    · refine wf_stopRecorded (wf_recordStop ?_)
      dsimp only
      exact wf_settleCmds (wf_settleAccesses h)

theorem wf_settleStop {s : State} (h : s.mem.wf = true) {t tpc} : (stopState (settleStop s t tpc)).mem.wf = true := by
  unfold settleStop
  split
  next s1 pc e1 =>
  have h1 : s1.mem.wf = true := wf_of_eq (wf_withdrawBranch (wf_withdrawWaits h)) e1
  split
  · exact wf_stopFault (wf_of_eq (wf_settleTo h1) ‹_›)
  · exact wf_of_eq (wf_settleTo h1) ‹_›
  · next s2 e2 =>
    have h2 : s2.mem.wf = true := wf_of_eq (wf_settleTo h1) e2
    split
    · exact wf_stopFault (wf_of_eq (wf_completeNext h2) ‹_›)
    · exact wf_of_eq (wf_completeNext h2) ‹_›
    · exact wf_recordSettled (wf_of_eq (wf_completeNext h2) ‹_›)

theorem wf_stopTrap {s : State} (h : s.mem.wf = true) {t tpc} : (stopTrap s t tpc).mem.wf = true :=
  wf_deliverStop (wf_settleStop h)

theorem wf_stopAtB {s : State} (h : s.mem.wf = true) {b t} : (stopAtB s b t).mem.wf = true := by
  unfold stopAtB
  dsimp only
  split
  · exact wf_deliverStop (wf_stopFault (wf_of_eq (wf_settleTo (wf_withdrawWaits h)) ‹_›))
  · exact wf_of_eq (wf_settleTo (wf_withdrawWaits h)) ‹_›
  · exact wf_deliverStop (wf_stopFault (wf_putB (wf_of_eq (wf_settleTo (wf_withdrawWaits h)) ‹_›)))

theorem ends_trapHere {t} {s : State} (h : s.mem.wf = true) : Ends Canonical (trapHere t s) :=
  ends_next (wf_stopTrap h)

theorem wf_goto {s : State} (h : s.mem.wf = true) {x} : (s.goto x).mem.wf = true := h

theorem wf_done {s : State} (h : s.mem.wf = true) : s.done.mem.wf = true := wf_goto h

theorem ends_frontM {m} (hm : KeepsM Canonical m) {s : State} (h : s.mem.wf = true) :
    Ends Canonical (frontM m s) := by
  unfold frontM
  split
  · exact ends_next (wf_of_exec hm h ‹_›)
  · exact ends_trapHere (wf_of_exec hm h ‹_›)
  · exact ends_next (wf_of_exec hm h ‹_›)

theorem keepsM_supervisor : KeepsM Canonical supervisor :=
  keepsM_bind_get fun _ _ => keepsM_need _ _

theorem keepsM_waitFor {b} : KeepsM Canonical (waitFor b) := keepsM_ite (keepsM_pure _) keepsM_waitM

theorem keepsM_releaseM {sc beta} : KeepsM Canonical (releaseM sc beta) :=
  keepsM_bind_get fun _ _ =>
    .bind keepsM_waitFor fun _ => keepsM_modify fun _ h1 => wf_deliverResiduals h1

theorem keepsM_setTlbOp {o} : KeepsM Canonical (setTlbOp o) := keepsM_modify fun _ h => h

theorem wf_takeIsn {b} {s : State} (h : s.mem.wf = true) : (takeIsn b s).mem.wf = true := by
  unfold takeIsn
  dsimp only
  exact wf_goto (wf_mapCsr (wf_traced h))

theorem wf_lateStop {s : State} (h : s.mem.wf = true) : (lateStop s).mem.wf = true := by
  unfold lateStop
  split
  · exact h
  · exact wf_stopTrap h

theorem wf_driveB {s : State} (h : s.mem.wf = true) {b info} (hinfo : BodyKeeps info.body) :
    (driveB s b info).1.mem.wf = true := by
  unfold driveB
  split
  · refine wf_fst_ite (wf_putB (wf_of_eq (wf_performB h hinfo) ‹_›)) ?_
    dsimp only
    exact wf_lateStop (wf_finishB (wf_of_eq (wf_performB h hinfo) ‹_›))
  · exact wf_stopAtB (wf_putB (wf_of_eq (wf_performB h hinfo) ‹_›))
  · exact wf_putB (wf_of_eq (wf_performB h hinfo) ‹_›)

theorem wf_issueNow {i info} (hinfo : BodyKeeps info.body) {s : State} (h : s.mem.wf = true) :
    (issueNow i info s).1.mem.wf = true := by
  unfold issueNow
  dsimp only
  refine wf_fst_ite (wf_driveB ?_ hinfo) ?_
  all_goals exact wf_takeIsn h

theorem wf_beforeIssue {i info} {s : State} (h : s.mem.wf = true) : (beforeIssue i info s).mem.wf = true := by
  unfold beforeIssue
  split
  · exact wf_nextInterval (wf_deliverResiduals h)
  · exact h

theorem ends_broadcast {i info} (hi : infoOf i = some info) {s : State} (h : s.mem.wf = true) :
    Ends Canonical (broadcast i info s) := by
  have hb := keeps_infoOf hi
  unfold broadcast
  split
  · exact ends_trapHere h
  · exact ends_ite (ends_next (wf_issueNow hb (wf_beforeIssue h))) (ends_next h)

theorem wf_takeBranch {pc off r} (hr : r.1.mem.wf = true) : (takeBranch pc off r).mem.wf = true := by
  unfold takeBranch
  split
  · exact wf_ite hr (wf_setPc hr)
  · exact hr

theorem ends_condBranch {i info} (hi : infoOf i = some info) {off} {s : State} (h : s.mem.wf = true) :
    Ends Canonical (condBranch i info off s) := by
  have hb := keeps_infoOf hi
  unfold condBranch
  split
  · exact ends_trapHere h
  · exact ends_ite (ends_next (wf_takeBranch (wf_issueNow hb h))) (ends_next h)

theorem wf_resumeB {s : State} (h : s.mem.wf = true) : (resumeB s).mem.wf = true := by
  unfold resumeB
  split
  · exact h
  · split
    · exact h
    · split
      · exact wf_takeBranch (wf_driveB h (keeps_infoOfWord ‹_›))
      · exact wf_driveB h (keeps_infoOfWord ‹_›)

/-! ### Integer instructions -/

theorem ends_aluOp {f w sd sa b} {s : State} (h : s.mem.wf = true) : Ends Canonical (aluOp f w sd sa b s) :=
  ends_next (wf_done (wf_wr h))

theorem ends_aluUn {f w sd sa} {s : State} (h : s.mem.wf = true) : Ends Canonical (aluUn f w sd sa s) :=
  ends_next (wf_done (wf_wr h))

theorem ends_execAdd {w sd sa b} {s : State} (h : s.mem.wf = true) : Ends Canonical (execAdd w sd sa b s) :=
  ends_aluOp h

theorem ends_execSub {w sd sa b} {s : State} (h : s.mem.wf = true) : Ends Canonical (execSub w sd sa b s) :=
  ends_aluOp h

theorem ends_execMul {w sd sa b} {s : State} (h : s.mem.wf = true) : Ends Canonical (execMul w sd sa b s) :=
  ends_aluOp h

theorem ends_execMulh {w sd sa b} {s : State} (h : s.mem.wf = true) : Ends Canonical (execMulh w sd sa b s) :=
  ends_aluOp h

theorem ends_execMulhn {w sd sa b} {s : State} (h : s.mem.wf = true) : Ends Canonical (execMulhn w sd sa b s) :=
  ends_aluOp h

theorem ends_execDiv {w sd sa b} {s : State} (h : s.mem.wf = true) : Ends Canonical (execDiv w sd sa b s) :=
  ends_aluOp h

theorem ends_execDivn {w sd sa b} {s : State} (h : s.mem.wf = true) : Ends Canonical (execDivn w sd sa b s) :=
  ends_aluOp h

theorem ends_execRem {w sd sa b} {s : State} (h : s.mem.wf = true) : Ends Canonical (execRem w sd sa b s) :=
  ends_aluOp h

theorem ends_execRemn {w sd sa b} {s : State} (h : s.mem.wf = true) : Ends Canonical (execRemn w sd sa b s) :=
  ends_aluOp h

theorem ends_execAnd {w sd sa b} {s : State} (h : s.mem.wf = true) : Ends Canonical (execAnd w sd sa b s) :=
  ends_aluOp h

theorem ends_execOr {w sd sa b} {s : State} (h : s.mem.wf = true) : Ends Canonical (execOr w sd sa b s) :=
  ends_aluOp h

theorem ends_execXor {w sd sa b} {s : State} (h : s.mem.wf = true) : Ends Canonical (execXor w sd sa b s) :=
  ends_aluOp h

theorem ends_execAndn {w sd sa b} {s : State} (h : s.mem.wf = true) : Ends Canonical (execAndn w sd sa b s) :=
  ends_aluOp h

theorem ends_execSll {w sd sa b} {s : State} (h : s.mem.wf = true) : Ends Canonical (execSll w sd sa b s) :=
  ends_aluOp h

theorem ends_execSrl {w sd sa b} {s : State} (h : s.mem.wf = true) : Ends Canonical (execSrl w sd sa b s) :=
  ends_aluOp h

theorem ends_execSra {w sd sa b} {s : State} (h : s.mem.wf = true) : Ends Canonical (execSra w sd sa b s) :=
  ends_aluOp h

theorem ends_execSlt {w sd sa b} {s : State} (h : s.mem.wf = true) : Ends Canonical (execSlt w sd sa b s) :=
  ends_aluOp h

theorem ends_execSltn {w sd sa b} {s : State} (h : s.mem.wf = true) : Ends Canonical (execSltn w sd sa b s) :=
  ends_aluOp h

theorem ends_execMin {w sd sa b} {s : State} (h : s.mem.wf = true) : Ends Canonical (execMin w sd sa b s) :=
  ends_aluOp h

theorem ends_execMax {w sd sa b} {s : State} (h : s.mem.wf = true) : Ends Canonical (execMax w sd sa b s) :=
  ends_aluOp h

theorem ends_execMinn {w sd sa b} {s : State} (h : s.mem.wf = true) : Ends Canonical (execMinn w sd sa b s) :=
  ends_aluOp h

theorem ends_execMaxn {w sd sa b} {s : State} (h : s.mem.wf = true) : Ends Canonical (execMaxn w sd sa b s) :=
  ends_aluOp h

theorem ends_execClz {w sd sa} {s : State} (h : s.mem.wf = true) : Ends Canonical (execClz w sd sa s) :=
  ends_aluUn h

theorem ends_execCtz {w sd sa} {s : State} (h : s.mem.wf = true) : Ends Canonical (execCtz w sd sa s) :=
  ends_aluUn h

theorem ends_execPopc {w sd sa} {s : State} (h : s.mem.wf = true) : Ends Canonical (execPopc w sd sa s) :=
  ends_aluUn h

theorem ends_execSext {w sd sa} {s : State} (h : s.mem.wf = true) : Ends Canonical (execSext w sd sa s) :=
  ends_aluUn h

theorem ends_execZext {w sd sa} {s : State} (h : s.mem.wf = true) : Ends Canonical (execZext w sd sa s) :=
  ends_next (wf_done (wf_wr h))

theorem ends_execLdk {sd k} {s : State} (h : s.mem.wf = true) : Ends Canonical (execLdk sd k s) :=
  ends_next (wf_goto (wf_wr h))

theorem ends_execNop {s : State} (h : s.mem.wf = true) : Ends Canonical (execNop s) :=
  ends_next (wf_done h)

theorem ends_branchIf {c off} {s : State} (h : s.mem.wf = true) : Ends Canonical (branchIf c off s) :=
  ends_next (wf_ite (wf_goto h) (wf_done h))

theorem ends_execBeq {sa sb off} {s : State} (h : s.mem.wf = true) : Ends Canonical (execBeq sa sb off s) :=
  ends_branchIf h

theorem ends_execBne {sa sb off} {s : State} (h : s.mem.wf = true) : Ends Canonical (execBne sa sb off s) :=
  ends_branchIf h

theorem ends_execBlt {sa sb off} {s : State} (h : s.mem.wf = true) : Ends Canonical (execBlt sa sb off s) :=
  ends_branchIf h

theorem ends_execBge {sa sb off} {s : State} (h : s.mem.wf = true) : Ends Canonical (execBge sa sb off s) :=
  ends_branchIf h

theorem ends_execBltn {sa sb off} {s : State} (h : s.mem.wf = true) : Ends Canonical (execBltn sa sb off s) :=
  ends_branchIf h

theorem ends_execBgen {sa sb off} {s : State} (h : s.mem.wf = true) : Ends Canonical (execBgen sa sb off s) :=
  ends_branchIf h

theorem ends_execJal {sd off} {s : State} (h : s.mem.wf = true) : Ends Canonical (execJal sd off s) :=
  ends_next (wf_goto (wf_wr h))

theorem ends_execJalr {sd sa imm} {s : State} (h : s.mem.wf = true) : Ends Canonical (execJalr sd sa imm s) :=
  ends_ite (ends_trapHere h) (ends_next (wf_goto (wf_wr h)))

/-! ### Scalar memory instructions -/

theorem keepsM_scalarPlace {va n p ok} : KeepsM Canonical (scalarPlace va n p ok) :=
  keepsM_ite keepsM_trapM <|
    keepsM_bind_get fun _ _ =>
    .bind keepsM_xlate fun _ =>
    .bind keepsM_keysM fun _ => .bind (keepsM_need _ _) fun _ => keepsM_pure _

theorem keepsM_scalarWatch {va n rd wr} : KeepsM Canonical (scalarWatch va n rd wr) :=
  keepsM_bind_get fun _ _ => keepsM_need _ _

theorem keepsM_post {kind va ks data} : KeepsM Canonical (post kind va ks data) :=
  keepsM_modify fun _ h => wf_leave h

theorem keepsM_hostAnswer {kind va ks reads writes} : KeepsM Canonical (hostAnswer kind va ks reads writes) := by
  unfold hostAnswer
  refine keepsM_bind_get fun s h => keepsM_ite ?_ (keepsM_pure _)
  split
  · exact .bind keepsM_waitFor fun _ => .bind (keepsM_modify fun _ h1 => h1) fun _ => keepsM_waitM
  · exact keepsM_ite keepsM_waitM (.bind (keepsM_modify fun _ h1 => h1) fun _ => keepsM_need _ _)

theorem keepsM_scalarRead {pl ks va} : KeepsM Canonical (scalarRead pl ks va) :=
  keepsM_bind_get fun _ _ =>
    .bind keepsM_raceCheck fun _ =>
    .bind (keepsM_need _ _) fun _ =>
    .bind (keepsM_modify fun _ h1 => wf_touch h1) fun _ => keepsM_bind_get fun _ _ => keepsM_pure _

theorem keepsM_loadM {sg ord w sd sa off} : KeepsM Canonical (loadM sg ord w sd sa off) := by
  unfold loadM
  refine keepsM_bind_get fun s h => .bind keepsM_scalarPlace fun a => ?_
  split
  exact .bind keepsM_scalarWatch fun _ =>
    keepsM_bind_get fun _ _ =>
    keepsM_ite (.bind keepsM_post fun _ => keepsM_modify fun _ h2 => wf_done h2) <|
    .bind keepsM_hostAnswer fun _ =>
    keepsM_bind_get fun _ _ =>
    .bind keepsM_waitFor fun _ =>
    .bind keepsM_scalarRead fun _ => keepsM_modify fun _ h3 => wf_done (wf_leave (wf_wr h3))

theorem keepsM_storeM {ord sc w sb sa off} : KeepsM Canonical (storeM ord sc w sb sa off) := by
  unfold storeM
  refine keepsM_bind_get fun s h => .bind keepsM_scalarPlace fun a => ?_
  split
  exact .bind keepsM_scalarWatch fun _ =>
    keepsM_bind_get fun _ _ =>
    keepsM_ite (.bind keepsM_post fun _ => keepsM_modify fun _ h2 => wf_done h2) <|
    .bind keepsM_waitFor fun _ =>
    keepsM_ite
      (.bind keepsM_releaseM fun _ =>
       keepsM_bind_get fun _ _ =>
       .bind keepsM_raceCheck fun _ =>
       keepsM_modify fun _ h3 =>
       wf_done (wf_ite (wf_nextInterval (wf_leave (wf_storeAt h3))) (wf_leave (wf_storeAt h3))))
      (keepsM_bind_get fun _ _ =>
       .bind keepsM_raceCheck fun _ =>
       keepsM_modify fun _ h3 =>
       wf_done (wf_ite (wf_nextInterval (wf_leave (wf_storeAt h3))) (wf_leave (wf_storeAt h3))))

theorem keepsM_atomM {o x} : KeepsM Canonical (atomM o x) := by
  unfold atomM
  refine keepsM_bind_get fun s h => .bind keepsM_scalarPlace fun a => ?_
  split
  exact .bind keepsM_scalarWatch fun _ =>
    .bind keepsM_hostAnswer fun _ =>
    keepsM_bind_get fun _ _ =>
    .bind keepsM_waitFor fun _ =>
    keepsM_ite
      (.bind keepsM_releaseM fun _ =>
       keepsM_bind_get fun _ _ =>
       .bind keepsM_doAtom fun _ =>
       keepsM_modify fun _ h3 =>
       wf_done (wf_ite (wf_nextInterval (wf_leave (wf_wr h3))) (wf_leave (wf_wr h3))))
      (keepsM_bind_get fun _ _ =>
       .bind keepsM_doAtom fun _ =>
       keepsM_modify fun _ h3 =>
       wf_done (wf_ite (wf_nextInterval (wf_leave (wf_wr h3))) (wf_leave (wf_wr h3))))

theorem ends_execLd {sg ord x w sd sa off} {s : State} (h : s.mem.wf = true) :
    Ends Canonical (execLd sg ord x w sd sa off s) :=
  ends_frontM keepsM_loadM h

theorem ends_execSt {ord sc w sb sa off} {s : State} (h : s.mem.wf = true) :
    Ends Canonical (execSt ord sc w sb sa off s) :=
  ends_frontM keepsM_storeM h

theorem ends_execScas {x} {s : State} (h : s.mem.wf = true) : Ends Canonical (execScas x s) :=
  ends_frontM keepsM_atomM h

theorem ends_execSamoAdd {x} {s : State} (h : s.mem.wf = true) : Ends Canonical (execSamoAdd x s) :=
  ends_frontM keepsM_atomM h

theorem ends_execSamoAnd {x} {s : State} (h : s.mem.wf = true) : Ends Canonical (execSamoAnd x s) :=
  ends_frontM keepsM_atomM h

theorem ends_execSamoOr {x} {s : State} (h : s.mem.wf = true) : Ends Canonical (execSamoOr x s) :=
  ends_frontM keepsM_atomM h

theorem ends_execSamoXor {x} {s : State} (h : s.mem.wf = true) : Ends Canonical (execSamoXor x s) :=
  ends_frontM keepsM_atomM h

theorem ends_execSamoMin {x} {s : State} (h : s.mem.wf = true) : Ends Canonical (execSamoMin x s) :=
  ends_frontM keepsM_atomM h

theorem ends_execSamoMax {x} {s : State} (h : s.mem.wf = true) : Ends Canonical (execSamoMax x s) :=
  ends_frontM keepsM_atomM h

theorem ends_execSamoMinn {x} {s : State} (h : s.mem.wf = true) : Ends Canonical (execSamoMinn x s) :=
  ends_frontM keepsM_atomM h

theorem ends_execSamoMaxn {x} {s : State} (h : s.mem.wf = true) : Ends Canonical (execSamoMaxn x s) :=
  ends_frontM keepsM_atomM h

theorem ends_execSamoSwap {x} {s : State} (h : s.mem.wf = true) : Ends Canonical (execSamoSwap x s) :=
  ends_frontM keepsM_atomM h

/-! ### Synchronisation -/

theorem keepsM_blockPlace {va n} : KeepsM Canonical (blockPlace va n) :=
  keepsM_ite keepsM_trapM <|
    keepsM_bind_get fun _ _ =>
    .bind keepsM_xlate fun _ => .bind (keepsM_need _ _) fun _ => keepsM_keysM

theorem keepsM_blockFree {ks} : KeepsM Canonical (blockFree ks) :=
  keepsM_bind_get fun _ _ => keepsM_waitFor

theorem keepsM_blockSound {ks va} : KeepsM Canonical (blockSound ks va) :=
  keepsM_bind_get fun _ _ => keepsM_need _ _

theorem keepsM_waitAtBlock {α : Type} {k word} : KeepsM Canonical (waitAtBlock k word : M α) :=
  .bind (keepsM_modify fun _ h => wf_ite h h) fun _ => keepsM_waitM

theorem keepsM_leaveBlock : KeepsM Canonical leaveBlock := keepsM_modify fun _ h => h

theorem keepsM_sacqM {sd sa sb sc} : KeepsM Canonical (sacqM sd sa sb sc) := by
  unfold sacqM
  dsimp only
  refine keepsM_bind_get fun s h =>
    .bind keepsM_waitFor fun a =>
    .bind keepsM_blockPlace fun a1 =>
    .bind keepsM_blockSound fun a2 =>
    .bind keepsM_blockFree fun a3 =>
    keepsM_bind_get fun s1 h1 =>
    .bind keepsM_admitOp fun a4 =>
    keepsM_ite keepsM_waitAtBlock <|
    .bind keepsM_leaveBlock fun a5 =>
    keepsM_modify fun s2 h2 => wf_done (wf_leave (wf_wr (wf_ite ?_ (wf_record h2))))
  exact wf_record h2

theorem keepsM_srelM {sd sa sc imm} : KeepsM Canonical (srelM sd sa sc imm) := by
  unfold srelM
  refine keepsM_bind_get fun s h =>
    .bind keepsM_waitFor fun a =>
    .bind keepsM_blockPlace fun a1 =>
    .bind keepsM_releaseM fun a2 =>
    .bind keepsM_blockSound fun a3 =>
    keepsM_bind_get fun s1 h1 =>
    keepsM_ite
      (.bind (keepsM_modify fun _ h2 => wf_done (wf_nextInterval (wf_leave h2))) fun _ => keepsM_pure _)
      (.bind keepsM_admitOp fun a4 => .bind (keepsM_modify fun s2 h2 => ?_) fun _ => keepsM_pure _)
  dsimp only
  exact wf_done (wf_nextInterval (wf_leave (wf_wr (wf_relAtHome h2))))

theorem keepsM_place {o q} : KeepsM Canonical (QOp.place o q) := by
  unfold QOp.place
  refine keepsM_bind_get fun s h => ?_
  split
  · exact .bind keepsM_xlate fun _ => keepsM_keysM
  · exact .bind keepsM_xlate fun _ => keepsM_keysM
  · exact keepsM_pure _

theorem wf_popRegs {s : State} (h : s.mem.wf = true) {sd sb entry head} :
    (popRegs s sd sb entry head).mem.wf = true := by
  unfold popRegs
  dsimp only
  refine wf_ite (wf_wr ?_) (wf_wr (wf_wr h))
  exact h

theorem wf_perform {o ks es q sd} {s : State} (h : s.mem.wf = true) : (QOp.perform o ks es q sd s).mem.wf = true := by
  unfold QOp.perform
  split
  · dsimp only
    refine wf_nextInterval (wf_wr ?_)
    dsimp only
    exact wf_putBlock (wf_storeAt (wf_record h))
  · refine wf_popRegs ?_
    split
    · dsimp only
      exact wf_putBlock (wf_record h)
    · exact wf_putBlock (wf_record h)
  · exact wf_wr (wf_record h)
  · dsimp only
    refine wf_wr (wf_putBlock ?_)
    exact wf_record h

theorem keepsM_queueM {o i sd sa sc} : KeepsM Canonical (queueM o i sd sa sc) := by
  unfold queueM
  refine keepsM_bind_get fun s h =>
    .bind keepsM_waitFor fun a =>
    .bind keepsM_blockPlace fun a1 =>
    .bind keepsM_blockSound fun a2 => .bind keepsM_blockFree fun a3 => keepsM_bind_get fun s1 h1 => ?_
  split
  refine .bind (keepsM_need _ _) fun a4 => .bind keepsM_place fun a5 => ?_
  extract_lets k act
  have hact : ∀ u, KeepsM Canonical (act u) := fun _ =>
    keepsM_bind_get fun _ _ =>
    .bind keepsM_admitOp fun _ =>
    keepsM_ite keepsM_waitAtBlock <|
    .bind keepsM_leaveBlock fun _ =>
    .bind (keepsM_modify fun _ ht => wf_done (wf_leave (wf_perform ht))) fun _ => keepsM_pure _
  split
  · exact .bind keepsM_releaseM hact
  · exact keepsM_bind_get fun _ _ => .bind (keepsM_need _ _) hact
  · exact hact ()

theorem keepsM_waiterM {w} : KeepsM Canonical (waiterM w) := by
  unfold waiterM
  split
  · exact keepsM_sacqM
  · exact .bind keepsM_queueM fun _ => keepsM_pure _
  · exact .bind keepsM_queueM fun _ => keepsM_pure _
  · exact .bind keepsM_queueM fun _ => keepsM_pure _
  · exact keepsM_pure _

theorem wf_tryWaiter {s : State} (h : s.mem.wf = true) {w} : (tryWaiter s w).mem.wf = true := by
  unfold tryWaiter
  refine wf_onStream h fun t0 h1 => ?_
  split
  · exact wf_of_next (ends_frontM keepsM_waiterM h1) ‹_›
  · exact h1

theorem wf_firstReady {l} {s : State} (h : s.mem.wf = true) : (firstReady l s).1.mem.wf = true := by
  induction l generalizing s with
  | nil =>
    unfold firstReady
    exact h
  | cons x l ih =>
    unfold firstReady
    exact wf_fst_ite (ih (wf_tryWaiter h)) (wf_tryWaiter h)

theorem wf_wakeBlock {n x} {s : State} (h : s.mem.wf = true) : (wakeBlock n x s).mem.wf = true := by
  induction n generalizing x s with
  | zero =>
    unfold wakeBlock
    exact h
  | succ n ih =>
    unfold wakeBlock
    dsimp only
    exact wf_ite (ih (wf_firstReady h)) (wf_firstReady h)

theorem ends_homeOp {m} (hm : KeepsM Canonical m) {s : State} (h : s.mem.wf = true) :
    Ends Canonical (homeOp m s) := by
  unfold homeOp
  split
  · exact ends_next (wf_wakeBlock (wf_of_exec hm h ‹_›))
  · exact ends_trapHere (wf_of_exec hm h ‹_›)
  · exact ends_next (wf_of_exec hm h ‹_›)

theorem ends_unlessWaiting {m} (hm : ∀ t0, t0.mem.wf = true → Ends Canonical (m t0)) {s : State} (h : s.mem.wf = true) :
    Ends Canonical (unlessWaiting m s) := by
  unfold unlessWaiting
  split
  · exact ends_next (wf_wakeBlock h)
  · exact hm _ h

theorem ends_execFence {sc} {s : State} (h : s.mem.wf = true) : Ends Canonical (execFence sc s) :=
  ends_frontM
    (keepsM_bind_get fun _ _ =>
     .bind keepsM_waitFor fun _ =>
     .bind keepsM_releaseM fun _ => keepsM_modify fun _ h2 => wf_done (wf_nextInterval h2))
    h

theorem ends_execSrel {sd sa sc imm} {s : State} (h : s.mem.wf = true) : Ends Canonical (execSrel sd sa sc imm s) :=
  ends_homeOp keepsM_srelM h

theorem ends_execSacq {sd sa sb sc} {s : State} (h : s.mem.wf = true) : Ends Canonical (execSacq sd sa sb sc s) :=
  ends_unlessWaiting (fun _ h1 => ends_frontM keepsM_sacqM h1) h

theorem ends_execQpush {sd sa sb sc} {s : State} (h : s.mem.wf = true) : Ends Canonical (execQpush sd sa sb sc s) :=
  ends_unlessWaiting (fun _ h1 => ends_homeOp keepsM_queueM h1) h

theorem ends_execQpop {sd sa sb sc} {s : State} (h : s.mem.wf = true) : Ends Canonical (execQpop sd sa sb sc s) :=
  ends_unlessWaiting (fun _ h1 => ends_homeOp keepsM_queueM h1) h

theorem ends_execQdrainWait {sd sa sc} {s : State} (h : s.mem.wf = true) :
    Ends Canonical (execQdrainWait sd sa sc s) :=
  ends_unlessWaiting (fun _ h1 => ends_homeOp keepsM_queueM h1) h

theorem ends_execQdrainDiscard {sd sa sc} {s : State} (h : s.mem.wf = true) :
    Ends Canonical (execQdrainDiscard sd sa sc s) :=
  ends_homeOp keepsM_queueM h

theorem keepsM_groupNum {sa imm} : KeepsM Canonical (groupNum sa imm) :=
  keepsM_bind_get fun _ _ => .bind (keepsM_need _ _) fun _ => keepsM_pure _

theorem keepsM_groupSize {sd g} : KeepsM Canonical (groupSize sd g) :=
  keepsM_modify fun _ h => wf_done (wf_wr h)

theorem keepsM_gjoinM {sd sa imm} : KeepsM Canonical (gjoinM sd sa imm) :=
  .bind keepsM_groupNum fun _ =>
    keepsM_bind_get fun _ _ =>
    keepsM_ite keepsM_groupSize <|
    .bind (keepsM_need _ _) fun _ =>
    .bind keepsM_admitOp fun _ =>
    .bind (keepsM_modify fun _ h1 => wf_joinGroup h1) fun _ => keepsM_groupSize

theorem keepsM_gleaveM {sd sa imm} : KeepsM Canonical (gleaveM sd sa imm) :=
  .bind keepsM_groupNum fun _ =>
    keepsM_bind_get fun _ _ =>
    keepsM_ite
      (.bind keepsM_admitLeave fun _ =>
       .bind (keepsM_modify fun _ h1 => wf_leaveGroup h1) fun _ => keepsM_groupSize)
      keepsM_groupSize

theorem keepsM_takeEpisode {sd g} : KeepsM Canonical (takeEpisode sd g) := by
  unfold takeEpisode
  refine keepsM_bind_get fun s h => ?_
  split
  · exact keepsM_waitM
  · exact .bind keepsM_waitFor fun _ => keepsM_modify fun _ h1 => wf_done (wf_wr (wf_setGroup h1))

theorem wf_arrive {s : State} (h : s.mem.wf = true) {g} : (arrive s g).mem.wf = true :=
  wf_completeEpisode (wf_nextInterval h)

theorem keepsM_gbarM {sd sa sc imm} : KeepsM Canonical (gbarM sd sa sc imm) :=
  .bind keepsM_groupNum fun _ =>
    keepsM_bind_get fun _ _ =>
    keepsM_ite keepsM_takeEpisode <|
    .bind (keepsM_need _ _) fun _ =>
    .bind keepsM_waitFor fun _ =>
    .bind (keepsM_modify fun _ h1 => h1) fun _ =>
    keepsM_ite
      (keepsM_ite
         (.bind keepsM_admitEpisode fun _ =>
          .bind (keepsM_modify fun _ h1 => wf_completeEpisode h1) fun _ => keepsM_takeEpisode)
         (.bind (keepsM_modify fun _ h1 => wf_completeEpisode h1) fun _ => keepsM_takeEpisode))
      (.bind keepsM_releaseM fun _ =>
       keepsM_bind_get fun _ _ =>
       keepsM_ite keepsM_waitAt <|
       keepsM_ite
         (.bind keepsM_admitEpisode fun _ =>
          .bind (keepsM_modify fun _ h2 => wf_arrive h2) fun _ => keepsM_takeEpisode)
         (.bind (keepsM_modify fun _ h2 => wf_arrive h2) fun _ => keepsM_takeEpisode))

theorem ends_execGjoin {sd sa imm} {s : State} (h : s.mem.wf = true) : Ends Canonical (execGjoin sd sa imm s) :=
  ends_frontM keepsM_gjoinM h

theorem ends_execGleave {sd sa imm} {s : State} (h : s.mem.wf = true) : Ends Canonical (execGleave sd sa imm s) :=
  ends_frontM keepsM_gleaveM h

theorem ends_execGbar {sd sa sc imm} {s : State} (h : s.mem.wf = true) : Ends Canonical (execGbar sd sa sc imm s) :=
  ends_frontM keepsM_gbarM h

/-! ### Log instructions -/

theorem wf_giveLogc {sd} {s : State} (h : s.mem.wf = true) : (giveLogc sd s).mem.wf = true :=
  wf_done (wf_wr h)

theorem keepsM_needLog : KeepsM Canonical needLog := by
  unfold needLog
  refine keepsM_bind_get fun s h => ?_
  split
  · exact keepsM_pure _
  · exact keepsM_trapM

theorem wf_putCtl {s : State} (h : s.mem.wf = true) {c lo len v} : (putCtl s c lo len v).mem.wf = true :=
  wf_putNum h

theorem ends_execLogctlStatus {sd x} {s : State} (h : s.mem.wf = true) : Ends Canonical (execLogctlStatus sd x s) :=
  ends_next (wf_giveLogc h)

theorem ends_execLogctlPolicy {sd sa} {s : State} (h : s.mem.wf = true) : Ends Canonical (execLogctlPolicy sd sa s) :=
  ends_frontM
    (.bind keepsM_needLog fun _ => keepsM_modify fun _ h1 => wf_giveLogc (wf_putCtl (wf_setLog h1)))
    h

theorem ends_execLogctlBudget {sd sa} {s : State} (h : s.mem.wf = true) : Ends Canonical (execLogctlBudget sd sa s) :=
  ends_frontM
    (.bind keepsM_needLog fun _ =>
     .bind (keepsM_need _ _) fun _ => keepsM_modify fun _ h1 => wf_giveLogc (wf_putCtl (wf_setLog h1)))
    h

theorem keepsM_logmarkM {sd sa imm} : KeepsM Canonical (logmarkM sd sa imm) := by
  unfold logmarkM
  refine keepsM_bind_get fun s h => .bind keepsM_waitFor fun a => ?_
  split
  · exact keepsM_modify fun _ h1 => wf_done (wf_wr h1)
  · refine .bind keepsM_admitOp fun a1 =>
      keepsM_ite (keepsM_modify fun _ h1 => wf_done (wf_wr h1)) (keepsM_modify fun s1 h1 => ?_)
    dsimp only
    exact wf_done <|
      wf_elim (wf_setLog (wf_writerTake h1)) fun _ => wf_wr (wf_setLog (wf_writerTake h1))

theorem ends_execLogmark {sd sa imm} {s : State} (h : s.mem.wf = true) : Ends Canonical (execLogmark sd sa imm s) :=
  ends_frontM keepsM_logmarkM h

theorem keepsM_logsyncM {sd} : KeepsM Canonical (logsyncM sd) := by
  unfold logsyncM
  refine keepsM_bind_get fun s h =>
    keepsM_ite (.bind keepsM_setTlbOp fun a => .bind keepsM_waitM fun a1 => ?_) ?_
  all_goals
    split
    · exact keepsM_modify fun _ h1 => wf_done (wf_wr h1)
    · exact keepsM_ite (keepsM_modify fun _ h1 => wf_done (wf_wr (wf_putTail h1))) <|
        keepsM_modify fun _ h1 => wf_done (wf_wr (wf_putHead h1))

theorem ends_execLogsync {sd} {s : State} (h : s.mem.wf = true) : Ends Canonical (execLogsync sd s) :=
  ends_frontM keepsM_logsyncM h

theorem wf_writerStep {s : State} (h : s.mem.wf = true) {c} : (writerStep s c).mem.wf = true := by
  unfold writerStep
  split
  · exact h
  · split
    · exact wf_setLog (wf_of_eq (wf_giveIndex h) ‹_›)
    · exact wf_putLog <|
        wf_ite (wf_putStat (wf_replyIndex (wf_of_eq (wf_giveIndex h) ‹_›))) <|
        wf_replyIndex (wf_of_eq (wf_giveIndex h) ‹_›)

theorem ends_execLogRecord {ctx} {s : State} (h : s.mem.wf = true) : Ends Canonical (execLogRecord ctx s) := by
  unfold execLogRecord
  refine ends_next ?_
  split
  · exact wf_ite h (wf_writerStep h)
  · exact h

theorem ends_execLogTailPoll {ctx} {s : State} (h : s.mem.wf = true) : Ends Canonical (execLogTailPoll ctx s) :=
  ends_next (wf_logPoll h)

theorem wf_replayStep {s : State} (h : s.mem.wf = true) {c} : (replayStep s c).mem.wf = true := by
  unfold replayStep
  refine wf_ite (wf_markDiverged h) ?_
  dsimp only
  exact wf_setLog (wf_advanceTail h)

theorem ends_execReplayConsume {ctx} {s : State} (h : s.mem.wf = true) :
    Ends Canonical (execReplayConsume ctx s) := by
  unfold execReplayConsume
  refine ends_next ?_
  split
  · exact wf_ite (wf_replayStep h) h
  · exact h

theorem ends_execReplayHeadPoll {ctx} {s : State} (h : s.mem.wf = true) :
    Ends Canonical (execReplayHeadPoll ctx s) := by
  unfold execReplayHeadPoll
  refine ends_next ?_
  split
  · exact wf_ite (wf_setLog h) h
  · exact h

theorem wf_elemOut {s : State} (h : s.mem.wf = true) {c b it o} : (elemOut s c b it o).mem.wf = true := by
  unfold elemOut
  dsimp only
  exact wf_exec keepsM_noteLate (wf_ite h (wf_markDiverged h))

theorem wf_budgetOut {s : State} (h : s.mem.wf = true) : (budgetOut s).mem.wf = true := by
  unfold budgetOut
  split
  · exact h
  · refine wf_ite h ?_
    split
    · exact wf_elemOut h
    · exact h
    · dsimp only
      refine wf_ite (wf_retireFront ?_) ?_
      · split
        · refine wf_leaveGroup ?_
          exact wf_ite h (wf_markDiverged h)
        · exact wf_ite h (wf_markDiverged h)
      · split
        · refine wf_deliver (wf_of_stopped (wf_settleStop ?_) ‹_›)
          exact wf_ite h (wf_markDiverged h)
        · exact h

theorem ends_execReplayBudgetExpiry {sid} {s : State} (h : s.mem.wf = true) :
    Ends Canonical (execReplayBudgetExpiry sid s) :=
  ends_next (wf_onStream h fun _ h1 => wf_budgetOut h1)

/-! ### Owner instructions -/

theorem wf_setRetired {s : State} (h : s.mem.wf = true) {own n} : (setRetired s own n).mem.wf = true :=
  h

theorem wf_giveItem {s : State} (h : s.mem.wf = true) {own isn no} : (giveItem s own isn no).mem.wf = true := by
  unfold giveItem
  split
  · exact wf_setWork h
  · dsimp only
    refine wf_ite h (wf_setRetired (wf_setWork ?_))
    exact h

theorem wf_handOver {before} {s : State} (h : s.mem.wf = true) : (handOver before s).mem.wf = true := by
  unfold handOver
  refine wf_foldl (fun t a h1 => ?_) h
  split
  · exact wf_ite h1 (wf_giveItem h1)
  · exact h1

/-! ### Control instructions -/

theorem wf_csrWrite {s : State} (h : s.mem.wf = true) {n v} : (csrWrite s n v).mem.wf = true := by
  unfold csrWrite
  dsimp only
  refine wf_ite ?_ (wf_mapCsr h)
  dsimp only
  exact wf_mapCsr h

theorem ends_csrOp {sd n new} {s : State} (h : s.mem.wf = true) : Ends Canonical (csrOp sd n new s) := by
  unfold csrOp
  refine ends_ite (ends_trapHere h) (ends_ite (ends_next h) (ends_next (wf_done (wf_wr ?_))))
  split
  · exact wf_csrWrite h
  · exact h

theorem ends_execCsrr {sd csr} {s : State} (h : s.mem.wf = true) : Ends Canonical (execCsrr sd csr s) :=
  ends_csrOp h

theorem ends_execCsrw {sd sa csr} {s : State} (h : s.mem.wf = true) : Ends Canonical (execCsrw sd sa csr s) :=
  ends_csrOp h

theorem ends_execCsrs {sd sa csr} {s : State} (h : s.mem.wf = true) : Ends Canonical (execCsrs sd sa csr s) :=
  ends_csrOp h

theorem ends_execCsrc {sd sa csr} {s : State} (h : s.mem.wf = true) : Ends Canonical (execCsrc sd sa csr s) :=
  ends_csrOp h

theorem ends_execWait {imm} {s : State} (h : s.mem.wf = true) : Ends Canonical (execWait imm s) :=
  ends_next (wf_ite (wf_done h) h)

theorem keepsM_leaveAll {l} : KeepsM Canonical (leaveAll l) := by
  induction l with
  | nil =>
    unfold leaveAll
    exact keepsM_pure _
  | cons x l ih =>
    unfold leaveAll
    exact .bind keepsM_admitLeave fun _ =>
      .bind (keepsM_modify fun _ h => wf_leaveGroup h) fun _ => ih

theorem ends_execHalt {s : State} (h : s.mem.wf = true) : Ends Canonical (execHalt s) := by
  unfold execHalt
  dsimp only
  refine ends_frontM
    (keepsM_bind_get fun s1 h1 =>
     .bind keepsM_waitFor fun a =>
     .bind keepsM_mergeAll fun a1 =>
     .bind (keepsM_modify fun s2 h2 => wf_deliverResiduals ?_) fun _ =>
     .bind keepsM_leaveAll fun _ => keepsM_modify fun _ h2 => wf_retireFront h2)
    h
  exact h2

theorem wf_putWin {s : State} (h : s.mem.wf = true) {w d} : (putWin s w d).mem.wf = true :=
  wf_mapCsr (wf_wrW h)

theorem ends_execWset {wd sa sb} {s : State} (h : s.mem.wf = true) : Ends Canonical (execWset wd sa sb s) :=
  ends_ite (ends_trapHere h) (ends_next (wf_done (wf_putWin h)))

theorem ends_execWget {sd wa hi} {s : State} (h : s.mem.wf = true) : Ends Canonical (execWget sd wa hi s) := by
  unfold execWget
  split
  · exact ends_trapHere h
  · exact ends_next (wf_done (wf_wr h))

theorem ends_execWcpy {wd wa} {s : State} (h : s.mem.wf = true) : Ends Canonical (execWcpy wd wa s) := by
  unfold execWcpy
  refine ends_ite (ends_trapHere h) ?_
  split
  · exact ends_trapHere h
  · exact ends_next (wf_done (wf_putWin h))

theorem wf_setGrant {s : State} (h : s.mem.wf = true) {g} : (setGrant s g).mem.wf = true :=
  wf_mapCsr h

theorem ends_execSetvl {sd sa fmt blk} {s : State} (h : s.mem.wf = true) :
    Ends Canonical (execSetvl sd sa fmt blk s) :=
  ends_next (wf_done (wf_wr (wf_mapCsr (wf_setGrant h))))

theorem wf_sendHints {s : State} (h : s.mem.wf = true) {hs} : (sendHints s hs).mem.wf = true :=
  wf_foldl (fun _ _ h1 => wf_ite h1 h1) h

theorem ends_execStrip {sa sb off} {s : State} (h : s.mem.wf = true) : Ends Canonical (execStrip sa sb off s) := by
  unfold execStrip
  dsimp only
  split
  · exact ends_trapHere h
  · exact ends_ite (ends_next (wf_done (wf_wr (wf_foldl (fun _ _ h1 => wf_putWin h1) h)))) <|
      ends_next <|
      wf_goto <|
      wf_foldl (fun _ _ h1 => wf_sendHints h1) <|
      wf_setGrant (wf_wr (wf_foldl (fun _ _ h1 => wf_putWin h1) h))

theorem ends_execOwnq {sd sa map} {s : State} (h : s.mem.wf = true) : Ends Canonical (execOwnq sd sa map s) := by
  unfold execOwnq
  split
  · exact ends_trapHere h
  · exact ends_next (wf_done (wf_wr h))

/-! ### The image of a stream -/

theorem keepsM_asSupervisor {α : Type} {m} (hm : KeepsM Canonical m) : KeepsM Canonical (asSupervisor m : M α) := by
  unfold asSupervisor
  refine keepsM_bind_get fun s h =>
    .bind (keepsM_modify fun _ h1 => wf_mapCsr h1) fun a =>
    .bind (keepsM_captured hm) fun a1 => .bind (keepsM_modify fun _ h1 => wf_mapCsr h1) fun a2 => ?_
  split
  · exact keepsM_pure _
  · exact keepsM_throw _

theorem keepsM_imagePages {p} : KeepsM Canonical (imagePages p) :=
  keepsM_bind_get fun _ _ =>
    .bind
      (.bind keepsM_xlate fun _ =>
       .bind (keepsM_need _ _) fun _ => .bind keepsM_keysM fun _ => keepsM_pure _)
      (fun _ =>
         .bind
           (.bind keepsM_xlate fun _ =>
            .bind (keepsM_need _ _) fun _ => .bind keepsM_keysM fun _ => keepsM_pure _)
           (fun _ => keepsM_pure _))

theorem wf_imageReserved {s : State} (h : s.mem.wf = true) {ks whole} : (imageReserved s ks whole).mem.wf = true := by
  unfold imageReserved
  split
  · exact Laws.wf_overlay _ _ _ _ (Laws.wf_overlay _ _ _ _ (Laws.wf_overlay _ _ _ _ h))
  · exact Laws.wf_overlay _ _ _ _ h

theorem keepsM_writeImage {pc whole} : KeepsM Canonical (writeImage pc whole) :=
  keepsM_asSupervisor <|
    .bind keepsM_imagePages fun _ => keepsM_modify fun _ h => wf_imageReserved (wf_store h)

theorem wf_giveUp {s : State} (h : s.mem.wf = true) : (giveUp s).mem.wf = true :=
  wf_ite (wf_retireFront h) (wf_numbered h)

theorem wf_readImage {s : State} (h : s.mem.wf = true) {ks} : (readImage s ks).mem.wf = true := by
  unfold readImage
  exact h

theorem wf_discardPage {s : State} (h : s.mem.wf = true) {va} : (discardPage s va).mem.wf = true := by
  unfold discardPage
  split
  · exact h
  · exact wf_mapCsr (Laws.wf_filter _ _ h)

theorem wf_dropPages {s : State} (h : s.mem.wf = true) {ks} : (dropPages s ks).mem.wf = true :=
  wf_write (wf_foldl (fun _ _ h1 => wf_discardPage h1) h)

theorem wf_clearWindows {s : State} (h : s.mem.wf = true) : (clearWindows s).mem.wf = true := by
  unfold clearWindows
  dsimp only
  exact wf_mapCsr h

theorem wf_startAgain {s : State} (h : s.mem.wf = true) {cell seq} : (startAgain s cell seq).mem.wf = true := by
  unfold startAgain
  refine wf_foldl (fun t a h1 => ?_) (wf_foldl (fun _ _ h1 => wf_zeroCopies h1) h)
  split
  · exact wf_putToken h1
  · exact h1

theorem wf_dieStop {die} {s : State} (h : s.mem.wf = true) : (dieStop die s).mem.wf = true := by
  unfold dieStop
  refine wf_ite h ?_
  dsimp only
  refine wf_deliverStop (wf_stopRecorded ?_)
  dsimp only
  refine wf_mapCsr (wf_recordStop ?_)
  dsimp only
  exact wf_withdrawBranch (wf_settleCmds (wf_settleAccesses (wf_landRels (wf_withdrawWaits h))))

theorem wf_lateDieStop {s : State} (h : s.mem.wf = true) : (lateDieStop s).mem.wf = true := by
  unfold lateDieStop
  split
  · exact wf_dieStop h
  · exact h

theorem wf_resumeFront {cell seq} {s : State} (h : s.mem.wf = true) : (resumeFront cell seq s).mem.wf = true := by
  unfold resumeFront
  split
  · exact h
  · next ks t ht =>
    have ht : t.mem.wf = true := wf_of_exec (keepsM_asSupervisor keepsM_imagePages) h ht
    extract_lets own t1 t2 t3
    have h1 : t1.mem.wf = true := wf_dropPages (wf_readImage ht)
    have h2 : t2.mem.wf = true := wf_startAgain (wf_ite h1 (wf_clearWindows h1))
    exact wf_lateDieStop (wf_numbered (wf_record (wf_ite (wf_reissue h2) h2)))

theorem keepsM_switchSums : KeepsM Canonical switchSums :=
  keepsM_bind_get fun _ _ =>
    .bind keepsM_mergeAll fun _ => keepsM_modify fun _ h1 => wf_deliverResiduals h1

theorem wf_deviceSave {s : State} (h : s.mem.wf = true) {pc} : (deviceSave s pc).mem.wf = true := by
  unfold deviceSave
  dsimp only
  split
  · refine wf_giveUp (wf_of_exec (.bind keepsM_switchSums fun _ => keepsM_writeImage) ?_ ‹_›)
    exact h
  · refine wf_ite (wf_giveUp ?_) (wf_numbered (wf_event (wf_reissue ?_)))
    all_goals
      dsimp only
      refine wf_of_exec (.bind keepsM_switchSums fun _ => keepsM_writeImage) ?_ ‹_›
      exact h

theorem wf_tokenAway {s : State} (h : s.mem.wf = true) {c} : (tokenAway s c).mem.wf = true := by
  unfold tokenAway
  split
  · exact wf_freeSlotOf <|
      wf_write <|
      wf_ite (wf_of_exec (keepsM_asSupervisor keepsM_imagePages) h ‹_›) <|
      wf_store (wf_of_exec (keepsM_asSupervisor keepsM_imagePages) h ‹_›)
  · dsimp only
    refine wf_event ?_
    dsimp only
    exact wf_of_exec (keepsM_asSupervisor keepsM_imagePages) h ‹_›

/-! ### System instructions -/

theorem wf_recordPreempt {s : State} (h : s.mem.wf = true) {pc} : (recordPreempt s pc).mem.wf = true :=
  wf_record h

theorem wf_takePreempt {s : State} (h : s.mem.wf = true) : (takePreempt s).mem.wf = true := by
  unfold takePreempt
  split
  · exact wf_of_waits (wf_settleStop h) ‹_›
  · dsimp only
    refine wf_ite
      (wf_ite (wf_deviceSave (wf_recordPreempt ?_)) (wf_enterTrap (wf_recordPreempt ?_)))
      (wf_deliver ?_)
    all_goals
      dsimp only
      exact wf_of_stopped (wf_settleStop h) ‹_›

theorem wf_takeHost {s : State} (h : s.mem.wf = true) {m} : (takeHost s m).mem.wf = true := by
  unfold takeHost
  refine wf_ite h ?_
  split
  · exact wf_of_waits (wf_settleStop h) ‹_›
  · dsimp only
    refine wf_ite (wf_enterTrap ?_) (wf_deliver (wf_of_stopped (wf_settleStop h) ‹_›))
    dsimp only
    exact wf_of_stopped (wf_settleStop h) ‹_›

theorem wf_takeInterrupt {s : State} (h : s.mem.wf = true) : (takeInterrupt s).mem.wf = true := by
  unfold takeInterrupt
  split
  · split
    · exact wf_of_waits (wf_settleStop h) ‹_›
    · dsimp only
      refine wf_deliver (wf_ite ?_ (wf_of_stopped (wf_settleStop h) ‹_›))
      dsimp only
      exact wf_of_stopped (wf_settleStop h) ‹_›
  · refine wf_ite (wf_takePreempt h) ?_
    split
    · exact wf_takeHost h
    · exact h

theorem ends_execTrap {imm} {s : State} (h : s.mem.wf = true) : Ends Canonical (execTrap imm s) :=
  ends_next (wf_stopTrap h)

theorem ends_execEret {rq} {s : State} (h : s.mem.wf = true) : Ends Canonical (execEret rq s) :=
  ends_frontM
    (.bind keepsM_supervisor fun _ =>
     keepsM_bind_get fun _ _ =>
     .bind (keepsM_need _ _) fun _ =>
     .bind (keepsM_need _ _) fun _ =>
     .bind keepsM_waitFor fun _ =>
     keepsM_modify fun _ h2 => wf_ite (wf_reissue (wf_leaveTrap h2)) (wf_caughtUp (wf_leaveTrap h2)))
    h

theorem keepsM_watchedKeys {va} : KeepsM Canonical (watchedKeys va) :=
  keepsM_bind_get fun _ _ => .bind keepsM_xlate fun _ => keepsM_keysM

theorem keepsM_wfeWaitM {sd sa} : KeepsM Canonical (wfeWaitM sd sa) := by
  unfold wfeWaitM
  dsimp only
  refine keepsM_bind_get fun s h => keepsM_ite (keepsM_modify fun s1 h1 => wf_done (wf_wr ?_)) ?_
  · exact h1
  · split
    · refine keepsM_ite (keepsM_modify fun s1 h1 => wf_done (wf_wr ?_)) keepsM_waitM
      exact h1
    · exact keepsM_ite
        (.bind keepsM_watchedKeys fun _ =>
         .bind (keepsM_modify fun _ h1 => h1) fun _ =>
         .bind (keepsM_modify fun _ h1 => h1) fun _ => keepsM_waitM)
        (.bind (keepsM_modify fun _ h1 => h1) fun _ => keepsM_waitM)

theorem ends_execWfeWait {sd sa} {s : State} (h : s.mem.wf = true) : Ends Canonical (execWfeWait sd sa s) :=
  ends_frontM keepsM_wfeWaitM h

theorem keepsM_wfeYieldM {sd} : KeepsM Canonical (wfeYieldM sd) := by
  unfold wfeYieldM
  refine .bind keepsM_supervisor fun a =>
    keepsM_bind_get fun s h =>
    .bind (keepsM_need _ _) fun a1 =>
    keepsM_ite (keepsM_modify fun _ h1 => wf_done (wf_wr h1)) <|
    .bind keepsM_waitFor fun a2 =>
    .bind keepsM_switchSums fun a3 =>
    keepsM_bind_get fun s1 h1 =>
    .bind (keepsM_set (wf_wr h1)) fun a4 => .bind (keepsM_captured keepsM_writeImage) fun a5 => ?_
  split
  · exact keepsM_modify fun _ h2 => wf_giveUp h2
  · exact .bind (keepsM_set h1) fun _ => keepsM_throw _

theorem ends_execWfeYield {sd x} {s : State} (h : s.mem.wf = true) : Ends Canonical (execWfeYield sd x s) :=
  ends_frontM keepsM_wfeYieldM h

theorem keepsM_areaPages {va n al p} : KeepsM Canonical (areaPages va n al p) :=
  keepsM_bind_get fun _ _ =>
    keepsM_ite keepsM_trapM <|
    keepsM_mapM fun _ => .bind keepsM_xlate fun _ => .bind keepsM_keysM fun _ => keepsM_pure _

theorem keepsM_areaSound {ps va n} : KeepsM Canonical (areaSound ps va n) :=
  keepsM_bind_get fun _ _ => keepsM_need _ _

theorem keepsM_areaFree {ps wr va n} : KeepsM Canonical (areaFree ps wr va n) := by
  unfold areaFree
  refine keepsM_ite (.bind keepsM_areaSound fun a => keepsM_bind_get fun s h => ?_) <|
    keepsM_bind_get fun s h => ?_
  all_goals
    split
    · exact keepsM_trapM
    · exact keepsM_pure _

theorem keepsM_areaMark {ps wr va n} : KeepsM Canonical (areaMark ps wr va n) := by
  unfold areaMark
  refine keepsM_bind_get fun s h => ?_
  split
  · exact keepsM_raceMark
  · exact keepsM_pure _

theorem wf_putArea {ps} {s : State} (h : s.mem.wf = true) {va v} : (putArea ps s va v).mem.wf = true :=
  wf_storeAt h

theorem wf_clearDirty {s : State} (h : s.mem.wf = true) {w} : (clearDirty s w).mem.wf = true :=
  wf_mapCsr h

theorem keepsM_wsaveM {sd sa sb} : KeepsM Canonical (wsaveM sd sa sb) :=
  .bind keepsM_supervisor fun _ =>
    keepsM_bind_get fun _ _ =>
    .bind keepsM_waitFor fun _ =>
    .bind keepsM_areaPages fun _ =>
    .bind (keepsM_forM fun _ => keepsM_areaFree) fun _ =>
    .bind (keepsM_forM fun _ => keepsM_areaMark) fun _ =>
    keepsM_modify fun _ h1 =>
    wf_done <|
    wf_leave (wf_wr (wf_foldl (fun _ _ h2 => wf_clearDirty (wf_putArea (wf_putArea h2))) h1))

theorem keepsM_wrestM {sd sa sb} : KeepsM Canonical (wrestM sd sa sb) :=
  .bind keepsM_supervisor fun _ =>
    keepsM_bind_get fun _ _ =>
    .bind keepsM_waitFor fun _ =>
    .bind keepsM_areaPages fun _ =>
    .bind (keepsM_forM fun _ => keepsM_areaFree) fun _ =>
    .bind (keepsM_forM fun _ => keepsM_areaMark) fun _ =>
    keepsM_modify fun _ h1 =>
    wf_done (wf_leave (wf_wr (wf_foldl (fun _ _ h2 => wf_clearDirty (wf_mapCsr (wf_wrW h2))) h1)))

theorem ends_execWsave {sd sa sb} {s : State} (h : s.mem.wf = true) : Ends Canonical (execWsave sd sa sb s) :=
  ends_frontM keepsM_wsaveM h

theorem ends_execWrest {sd sa sb} {s : State} (h : s.mem.wf = true) : Ends Canonical (execWrest sd sa sb s) :=
  ends_frontM keepsM_wrestM h

theorem keepsM_isaveM {sd sa} : KeepsM Canonical (isaveM sd sa) := by
  unfold isaveM
  dsimp only
  refine .bind keepsM_supervisor fun a =>
    keepsM_bind_get fun s h =>
    .bind keepsM_waitFor fun a1 =>
    .bind keepsM_areaPages fun a2 =>
    .bind (keepsM_forM fun _ => keepsM_areaFree) fun a3 =>
    .bind (keepsM_forM fun _ => keepsM_areaMark) fun a4 =>
    keepsM_modify fun s1 h1 => wf_done (wf_leave (wf_wr ?_))
  exact wf_foldl (fun _ _ h2 => wf_foldl (fun _ _ h3 => wf_putArea h3) h2) h1

theorem keepsM_irestM {sd sa} : KeepsM Canonical (irestM sd sa) :=
  .bind keepsM_supervisor fun _ =>
    keepsM_bind_get fun _ _ =>
    .bind keepsM_waitFor fun _ =>
    .bind (keepsM_need _ _) fun _ =>
    .bind keepsM_areaPages fun _ =>
    .bind (keepsM_forM fun _ => keepsM_areaFree) fun _ =>
    keepsM_bind_get fun _ _ =>
    .bind (keepsM_need _ _) fun _ =>
    .bind (keepsM_forM fun _ => keepsM_areaMark) fun _ =>
    keepsM_modify fun _ h2 => wf_done (wf_leave h2)

theorem ends_execIsave {sd sa} {s : State} (h : s.mem.wf = true) : Ends Canonical (execIsave sd sa s) :=
  ends_frontM keepsM_isaveM h

theorem ends_execIrest {sd sa} {s : State} (h : s.mem.wf = true) : Ends Canonical (execIrest sd sa s) :=
  ends_frontM keepsM_irestM h

/-! ### Page moves -/

theorem wf_tlbFill {s : State} (h : s.mem.wf = true) {e} : (tlbFill s e).mem.wf = true := h

theorem wf_walkFor {agent va wr} {s : State} (h : s.mem.wf = true) : (walkFor agent va wr s).mem.wf = true := by
  unfold walkFor
  refine wf_ite h ?_
  split
  · refine wf_ite (wf_of_exec keepsM_xlate h ‹_›) (wf_tlbFill ?_)
    dsimp only
    exact wf_of_exec keepsM_xlate h ‹_›
  · exact wf_of_exec keepsM_xlate h ‹_›

theorem ends_execPageWalk {sid agent va wr} {s : State} (h : s.mem.wf = true) :
    Ends Canonical (execPageWalk sid agent va wr s) :=
  ends_next (wf_onStream h fun _ h1 => wf_walkFor h1)

theorem ends_execShootdownReceive {agent asid va len} {s : State} (h : s.mem.wf = true) :
    Ends Canonical (execShootdownReceive agent asid va len s) :=
  ends_next (wf_shootDown h)

theorem keepsM_tlbinvM {sd sa sb sc} : KeepsM Canonical (tlbinvM sd sa sb sc) :=
  .bind keepsM_supervisor fun _ =>
    keepsM_bind_get fun _ _ =>
    keepsM_ite
      (.bind keepsM_setTlbOp fun _ =>
       .bind keepsM_waitFor fun _ =>
       .bind keepsM_setTlbOp fun _ =>
       .bind (keepsM_modify fun _ h1 => wf_shootDown h1) fun _ =>
       keepsM_bind_get fun _ _ =>
       .bind keepsM_waitFor fun _ => keepsM_modify fun _ h2 => wf_done (wf_leave h2))
      (keepsM_bind_get fun _ _ =>
       .bind keepsM_waitFor fun _ => keepsM_modify fun _ h2 => wf_done (wf_leave h2))

theorem ends_execTlbinv {sd sa sb sc} {s : State} (h : s.mem.wf = true) : Ends Canonical (execTlbinv sd sa sb sc s) :=
  ends_frontM keepsM_tlbinvM h

theorem keepsM_tlbprbM {sd sa} : KeepsM Canonical (tlbprbM sd sa) := by
  unfold tlbprbM
  refine keepsM_bind_get fun s h =>
    .bind keepsM_waitFor fun a =>
    .bind (keepsM_modify fun _ h1 => wf_walked h1) fun a1 =>
    .bind ?_ fun _ => keepsM_modify fun _ h1 => wf_done (wf_wr h1)
  split
  · exact keepsM_pure _
  · exact keepsM_pure _
  · exact keepsM_trapM

theorem ends_execTlbprb {sd sa} {s : State} (h : s.mem.wf = true) : Ends Canonical (execTlbprb sd sa s) :=
  ends_frontM keepsM_tlbprbM h

theorem wf_moveShelf {shelf ps} {s : State} (h : s.mem.wf = true) {e} : (moveShelf shelf ps s e).mem.wf = true :=
  wf_ite h (wf_foldl (fun _ _ h1 => h1) h)

theorem wf_moveTags {ps} {s : State} (h : s.mem.wf = true) : (moveTags ps s).mem.wf = true := h

theorem wf_moveWork {ps} {s : State} (h : s.mem.wf = true) : (moveWork ps s).mem.wf = true := by
  unfold moveWork
  dsimp only
  exact wf_mapStreams h

theorem wf_deliverFor {s : State} (h : s.mem.wf = true) {secs} : (deliverFor s secs).mem.wf = true :=
  wf_foldl (fun _ _ h1 => wf_mustSend h1) (wf_settleMsgs h)

theorem wf_moveBytes {shelf ps} {s : State} (h : s.mem.wf = true) : (moveBytes shelf ps s).mem.wf = true :=
  wf_moveWork (wf_moveTags (wf_foldl (fun _ _ h1 => wf_moveShelf h1) (Laws.wf_sets _ _ h)))

theorem keepsM_pmigChecks {sa sb sc} : KeepsM Canonical (pmigChecks sa sb sc) := by
  unfold pmigChecks
  refine keepsM_bind_get fun s h =>
    .bind (keepsM_modify fun _ h1 => wf_walked h1) fun a =>
    .bind ?_ fun _ => .bind (keepsM_need _ _) fun _ => .bind (keepsM_need _ _) fun _ => keepsM_pure _
  split
  · exact keepsM_pure _
  · exact keepsM_trapM
  · exact keepsM_trapM

theorem wf_handAll {left} {s : State} (h : s.mem.wf = true) : (handAll left s).mem.wf = true :=
  wf_foldl (fun _ _ h1 => wf_onStream h1 fun _ h2 => wf_handOver h2) h

theorem wf_movePage {m shelf ps leafAt leaf} {s : State} (h : s.mem.wf = true) :
    (movePage m shelf ps leafAt leaf s).mem.wf = true := by
  unfold movePage
  dsimp only
  refine wf_handAll (wf_write (wf_moveBytes ?_))
  exact h

theorem keepsM_pmigM {sd sa sb sc} : KeepsM Canonical (pmigM sd sa sb sc) := by
  unfold pmigM
  refine .bind keepsM_supervisor fun _ => keepsM_bind_get fun s _ => .bind keepsM_waitFor fun _ => ?_
  extract_lets va
  split
  · refine .bind keepsM_pmigChecks fun pl =>
      .bind keepsM_setTlbOp fun _ =>
      .bind keepsM_waitFor fun _ =>
      .bind keepsM_setTlbOp fun _ =>
      .bind (keepsM_modify fun t ht => wf_shootDown ?_) fun _ => keepsM_waitM
    exact ht
  · next m _ =>
    extract_lets held out move
    have hmove : ∀ u, KeepsM Canonical (move u) := by
      intro u
      refine keepsM_bind_get fun s1 _ =>
        .bind keepsM_waitFor fun _ => .bind (keepsM_captured keepsM_pmigChecks) fun r => ?_
      split
      · exact .bind (keepsM_modify fun _ ht => ht) fun _ => keepsM_throw _
      · refine .bind (keepsM_modify fun _ ht => wf_deliverFor ht) fun _ => keepsM_bind_get fun s2 _ => ?_
        split
        · exact .bind (keepsM_modify fun _ ht => ht) fun _ => keepsM_trapM
        · exact keepsM_modify fun _ ht => wf_done (wf_leave (wf_wr (wf_movePage ht)))
    refine keepsM_ite (.bind keepsM_waitFor fun _ => .bind (keepsM_modify fun t ht => wf_shootDown ?_) hmove) (hmove ())
    exact ht

theorem ends_execPmig {sd sa sb sc} {s : State} (h : s.mem.wf = true) : Ends Canonical (execPmig sd sa sb sc s) :=
  ends_frontM keepsM_pmigM h

theorem wf_promotionEvent {s : State} (h : s.mem.wf = true) {n} : (promotionEvent s n).mem.wf = true := by
  unfold promotionEvent
  dsimp only
  refine wf_event ?_
  exact h

theorem wf_endPromotion {s : State} (h : s.mem.wf = true) {n result} : (endPromotion s n result).mem.wf = true := by
  unfold endPromotion
  dsimp only
  refine wf_promotionEvent (wf_setStack ?_)
  exact h

theorem wf_startPromotion {s : State} (h : s.mem.wf = true) {n} : (startPromotion s n).mem.wf = true := by
  unfold startPromotion
  split
  · dsimp only
    refine wf_shootDown (wf_setStack ?_)
    exact h
  · exact wf_endPromotion h

theorem wf_promotionSteps {s : State} (h : s.mem.wf = true) {n} : (promotionSteps s n).mem.wf = true :=
  wf_ite (wf_endPromotion (wf_deliverFor h)) <|
    wf_ite (wf_endPromotion (wf_deliverFor h)) <|
    wf_ite (wf_endPromotion (wf_deliverFor h)) <|
    wf_ite (wf_endPromotion (wf_deliverFor h)) (wf_endPromotion (wf_movePage (wf_deliverFor h)))

theorem wf_finishPromotion {s : State} (h : s.mem.wf = true) {n} : (finishPromotion s n).mem.wf = true := by
  unfold finishPromotion
  dsimp only
  refine wf_ite h (wf_promotionSteps (wf_shootDown ?_))
  exact h

theorem wf_writePrmctl {s : State} (h : s.mem.wf = true) {n v} : (writePrmctl s n v).mem.wf = true :=
  wf_ite h (wf_ite (wf_startPromotion (wf_setStack h)) (wf_setStack h))

theorem ends_execPrmctlGo {stack v} {s : State} (h : s.mem.wf = true) : Ends Canonical (execPrmctlGo stack v s) :=
  ends_next (wf_ite h (wf_writePrmctl h))

theorem ends_execPromotionDone {stack} {s : State} (h : s.mem.wf = true) :
    Ends Canonical (execPromotionDone stack s) :=
  ends_next (wf_finishPromotion h)

/-! ### The distributor -/

theorem wf_setLq {s : State} (h : s.mem.wf = true) {q r} : (s.setLq q r).mem.wf = true := h

theorem wf_writeTail {s : State} (h : s.mem.wf = true) {q v} : (writeTail s q v).mem.wf = true :=
  wf_setLq h

theorem wf_writeLqcfg {s : State} (h : s.mem.wf = true) {q v} : (writeLqcfg s q v).mem.wf = true :=
  wf_setLq h

theorem ends_unlessFailed {s : State} (h : s.mem.wf = true) {t : State} (h1 : t.mem.wf = true) :
    Ends Canonical (unlessFailed s t) :=
  ends_next (wf_ite h h1)

theorem ends_execLqtailWrite {q v} {s : State} (h : s.mem.wf = true) : Ends Canonical (execLqtailWrite q v s) :=
  ends_unlessFailed h (wf_writeTail h)

theorem ends_execLqcfgWrite {q v} {s : State} (h : s.mem.wf = true) : Ends Canonical (execLqcfgWrite q v s) :=
  ends_unlessFailed h (wf_writeLqcfg h)

theorem wf_putCtx {s : State} (h : s.mem.wf = true) {c} : (putCtx s c).mem.wf = true := by
  unfold putCtx
  refine wf_ite (wf_setLog h) (wf_putStat ?_)
  exact h

theorem wf_firstJoin {r} {s : State} (h : s.mem.wf = true) {sid} : (firstJoin r s sid).mem.wf = true :=
  wf_ite (wf_onStream h fun _ h1 => h1) (wf_onStream h fun _ h1 => wf_joinGroup h1)

theorem wf_finishRecord {s : State} (h : s.mem.wf = true) {q v} : (finishRecord s q v).mem.wf = true :=
  wf_setLq (wf_putLstat h)

theorem wf_place {s : State} (h : s.mem.wf = true) {q maps r ctx b sid0 ps} :
    (place s q maps r ctx b sid0 ps).mem.wf = true := by
  unfold place
  extract_lets d run seqs dom fs v l s1 s2 s3 s4
  have h1 : s1.mem.wf = true := by
    unfold s1
    split
    · exact wf_putCtx h
    · exact h
  have h3 : s3.mem.wf = true := by
    refine wf_finishRecord ?_
    exact h1
  have h4 : s4.mem.wf = true := wf_ite (wf_recordIn h3) h3
  exact wf_ite (wf_foldl (fun _ _ ht => wf_firstJoin ht) h4) h4

theorem someWf_placeLogged {s : State} (h : s.mem.wf = true) {q maps r c i n} :
    SomeWf (placeLogged s q maps r c i n) := by
  unfold placeLogged
  refine someWf_ite ?_ someWf_none
  dsimp only
  exact someWf_some (wf_place (wf_setLog (wf_consume (wf_putCtx h))))

theorem wf_raisePreempt {s : State} (h : s.mem.wf = true) {sid} : (raisePreempt s sid).mem.wf = true :=
  wf_mapStreams h

theorem wf_preemptFor {s : State} (h : s.mem.wf = true) {q t slice b vs} :
    (preemptFor s q t slice b vs).mem.wf = true :=
  wf_foldl (fun _ _ h1 => wf_raisePreempt h1) (wf_setLq h)

theorem wf_takeShare {share} {s : State} (h : s.mem.wf = true) : (takeShare share s).mem.wf = true := by
  unfold takeShare
  refine wf_ite ?_ (wf_mapCsr h)
  split
  · exact wf_write (wf_of_exec (keepsM_asSupervisor keepsM_imagePages) (wf_mapCsr h) ‹_›)
  · exact wf_mapCsr h

theorem someWf_opShare {s : State} (h : s.mem.wf = true) {q l share} : SomeWf (opShare s q l share) := by
  unfold opShare
  extract_lets f ctx go
  clear_value ctx
  have hgo : ∀ t, t.mem.wf = true → (go t).mem.wf = true := by
    intro t ht
    have hu : (l.left.foldl (fun s sid => s.onStream sid (takeShare share)) t).mem.wf = true :=
      wf_foldl (fun _ _ hu => wf_onStream hu fun _ hv => wf_takeShare hv) ht
    refine wf_finishRecord ?_
    cases ctx with
    | none => exact hu
    | some c => exact wf_recordIn hu
  cases ctx with
  | none => exact someWf_some (hgo s h)
  | some c =>
    dsimp only
    split
    · exact someWf_some (hgo s h)
    · exact someWf_none
    · exact someWf_ite (someWf_some (hgo _ (wf_setLog (wf_consume h)))) someWf_none

theorem wf_killLaunch {s : State} (h : s.mem.wf = true) {l} : (killLaunch s l).mem.wf = true := by
  unfold killLaunch
  refine wf_foldl (fun t a h1 => ?_) h
  split
  · exact wf_ite (wf_ite h1 (wf_onStream h1 fun _ h2 => wf_retireFront h2)) <|
      wf_ite h1 (wf_raisePreempt h1)
  · exact h1

theorem wf_opEnd {s : State} (h : s.mem.wf = true) {q l} : (opEnd s q l).mem.wf = true := by
  unfold opEnd
  dsimp only
  refine wf_killLaunch ?_
  exact wf_finishRecord h

theorem wf_reject {s : State} (h : s.mem.wf = true) {q reason} : (reject s q reason).mem.wf = true :=
  wf_finishRecord h

theorem someWf_servePlace {s : State} (h : s.mem.wf = true) {q t maps r may} :
    SomeWf (servePlace s q t maps r may) := by
  unfold servePlace
  refine someWf_ite (someWf_some (wf_reject h)) <|
    someWf_ite someWf_none (someWf_ite (someWf_some (wf_reject h)) ?_)
  split
  · split
    · dsimp only
      exact someWf_some (wf_place h)
    · split
      · dsimp only
        exact someWf_none
      · dsimp only
        split
        · exact someWf_ite someWf_none (someWf_some (wf_preemptFor h))
        · exact someWf_none
  · split
    · dsimp only
      split
      · exact someWf_none
      · exact someWf_ite (someWf_placeLogged h) someWf_none
      · exact someWf_some (wf_place h)
    · split
      · dsimp only
        split
        · exact someWf_none
        · exact someWf_ite (someWf_placeLogged h) someWf_none
        · exact someWf_none
      · dsimp only
        split
        · exact someWf_none
        · exact someWf_ite (someWf_placeLogged h) someWf_none
        · split
          · exact someWf_ite someWf_none (someWf_some (wf_preemptFor h))
          · exact someWf_none

theorem someWf_serveTaken {s : State} (h : s.mem.wf = true) {q t may} : SomeWf (serveTaken s q t may) := by
  unfold serveTaken
  refine someWf_ite (someWf_some (wf_reject h)) (someWf_ite ?_ ?_)
  · split
    · exact someWf_some (wf_reject h)
    · exact someWf_servePlace h
  · split
    · exact someWf_some (wf_reject h)
    · exact someWf_ite (someWf_opShare h) (someWf_some (wf_opEnd h))

theorem wf_takeHead {s : State} (h : s.mem.wf = true) {q} : (takeHead s q).1.mem.wf = true := by
  unfold takeHead
  split
  · exact h
  · exact wf_setLq (wf_numbered h)

theorem someWf_tryResume {s : State} (h : s.mem.wf = true) {f} : SomeWf (tryResume s f) := by
  unfold tryResume
  split
  · exact someWf_none
  · split
    · exact someWf_ite someWf_none (someWf_some (wf_onStream h fun _ h1 => wf_resumeFront h1))
    · split
      · exact someWf_ite someWf_none (someWf_some (wf_onStream h fun _ h1 => wf_resumeFront h1))
      · exact someWf_none
      · refine someWf_ite (someWf_ite someWf_none (someWf_some ?_)) someWf_none
        dsimp only
        exact wf_onStream (wf_setLog (wf_consume h)) fun _ h1 => wf_resumeFront h1

theorem someWf_resumeFirst {s : State} (h : s.mem.wf = true) {fs} : SomeWf (resumeFirst s fs) :=
  someWf_findSome fun _ => someWf_tryResume h

theorem someWf_recordTurn {s : State} (h : s.mem.wf = true) {q t may} : SomeWf (recordTurn s q t may) := by
  unfold recordTurn
  split
  · dsimp only
    split
    · exact someWf_some (SomeWf.of (someWf_resumeFirst h) ‹_›)
    · exact someWf_some (wf_getD (someWf_serveTaken (wf_setLq h)) (wf_setLq h))
  · dsimp only
    split
    · exact someWf_some (SomeWf.of (someWf_resumeFirst h) ‹_›)
    · exact someWf_serveTaken h

theorem someWf_queueServed {s : State} (h : s.mem.wf = true) {q} : SomeWf (queueServed s q) := by
  unfold queueServed
  refine someWf_ite ?_ someWf_none
  split
  split
  · refine someWf_some ?_
    dsimp only
    exact SomeWf.of (someWf_recordTurn (wf_of_eq (wf_takeHead h) ‹_›)) ‹_›
  · exact someWf_ite (someWf_some (wf_of_eq (wf_takeHead h) ‹_›)) someWf_none

theorem someWf_retireOn {s : State} (h : s.mem.wf = true) {f} : SomeWf (retireOn s f) :=
  someWf_ite
    (someWf_ite someWf_none (someWf_some (wf_onStream h fun _ h1 => wf_retireFront h1)))
    someWf_none

theorem someWf_distributor {s : State} (h : s.mem.wf = true) : SomeWf (distributor s) := by
  unfold distributor
  refine someWf_ite someWf_none (someWf_ite someWf_none ?_)
  split
  · exact someWf_some (SomeWf.of (someWf_findSome fun _ => someWf_retireOn h) ‹_›)
  · split
    · dsimp only
      split
      · exact someWf_some (SomeWf.of (someWf_findSome fun _ => someWf_queueServed h) ‹_›)
      · exact someWf_some (SomeWf.of (someWf_resumeFirst h) ‹_›)
    · dsimp only
      split
      · exact someWf_some (SomeWf.of (someWf_findSome fun _ => someWf_queueServed h) ‹_›)
      · exact someWf_findSome fun _ => someWf_queueServed h

theorem ends_execLaunchRecord {q} {s : State} (h : s.mem.wf = true) : Ends Canonical (execLaunchRecord q s) :=
  ends_next (wf_ite (wf_getD (someWf_queueServed h) h) h)

theorem ends_execPlaceLaunch {q} {s : State} (h : s.mem.wf = true) : Ends Canonical (execPlaceLaunch q s) := by
  unfold execPlaceLaunch
  refine ends_next ?_
  split
  · exact h
  · dsimp only
    exact wf_ite (wf_getD (someWf_recordTurn h) h) h

theorem ends_execTerminateLaunch {target} {s : State} (h : s.mem.wf = true) :
    Ends Canonical (execTerminateLaunch target s) := by
  unfold execTerminateLaunch
  refine ends_next ?_
  split
  · exact wf_killLaunch h
  · exact h

theorem ends_execPretmoExpiry {sid} {s : State} (h : s.mem.wf = true) : Ends Canonical (execPretmoExpiry sid s) := by
  unfold execPretmoExpiry
  dsimp only
  refine ends_next (wf_onStream h fun t0 h1 => wf_ite (wf_numbered (wf_event ?_)) h1)
  exact h1

theorem ends_execStreamResume {sid} {s : State} (h : s.mem.wf = true) : Ends Canonical (execStreamResume sid s) := by
  unfold execStreamResume
  refine ends_next ?_
  split
  · exact wf_getD (someWf_tryResume h) h
  · exact h

theorem wf_timeSlice {s : State} (h : s.mem.wf = true) : (timeSlice s).mem.wf = true := by
  unfold timeSlice
  refine wf_ite h ?_
  split
  · dsimp only
    split
    · exact wf_foldl (fun _ _ h1 => wf_raisePreempt h1) h
    · exact h
  · split
    · exact h
    · refine wf_ite h ?_
      split
      · exact wf_preemptFor h
      · exact h

theorem ends_execTimeSlice {s : State} (h : s.mem.wf = true) : Ends Canonical (execTimeSlice s) :=
  ends_next (wf_ite (wf_timeSlice h) h)

/-! ### Banks -/

theorem wf_workItems {own l} (hl : ItemsKeep l) {s : State} (h : s.mem.wf = true) {b todo} :
    (workItems own l s b todo).1.mem.wf = true := by
  induction l generalizing s b todo with
  | nil => exact h
  | cons x l ih =>
    unfold workItems
    split
    · exact h
    · refine wf_fst_ite (ih hl.tail h) ?_
      split
      · exact ih hl.tail (wf_of_exec (hl.head.run b) h ‹_›)
      · exact wf_of_exec (hl.head.run b) h ‹_›

theorem wf_sendPulls {s : State} (h : s.mem.wf = true) {own b elem ws} : (sendPulls s own b elem ws).mem.wf = true :=
  wf_foldl (fun _ _ h1 => wf_ite h1 (wf_ite h1 h1)) h

theorem wf_noteFound {s : State} (h : s.mem.wf = true) {n t} : (noteFound s n t).mem.wf = true :=
  wf_ite h h

theorem wf_stopped {s : State} (h : s.mem.wf = true) {own b elem st} : (stopped s own b elem st).mem.wf = true := by
  unfold stopped
  split
  · exact wf_sendPulls h
  · exact h
  · exact wf_noteFound h

theorem wf_goOn {s : State} (h : s.mem.wf = true) {b info} (hinfo : BodyKeeps info.body) {w} :
    (goOn s b info w).mem.wf = true := by
  unfold goOn
  extract_lets fp e
  have hm : KeepsM Canonical (do info.body.ready e b; info.body.plan e fp b) :=
    .bind (hinfo.ready _ _) fun _ => hinfo.plan _ _ _
  refine wf_ite (wf_setWork h) ?_
  split
  · exact wf_stopped (wf_of_exec hm (wf_setWork h) ‹_›)
  · next items t et =>
    have hi : ItemsKeep items := Gives.of (gives_bind fun _ => hinfo.items _ _ _) et
    have ht : t.mem.wf = true := wf_of_exec hm (wf_setWork h) et
    split
    next u b1 todo st eu =>
    have hu : u.mem.wf = true := wf_of_eq (wf_workItems (items_filter hi) ht) eu
    dsimp only
    split
    · exact wf_setWork (wf_putB hu)
    · exact wf_stopped (wf_setWork (wf_putB hu))

theorem keeps_bcastAt {s n b info} (h : bcastAt s n = some (b, info)) : BodyKeeps info.body := by
  unfold bcastAt at h
  split at h
  · cases h
  · split at h
    · cases h
    · obtain ⟨i, hi, e⟩ := Option.map_eq_some_iff.1 h
      cases e
      exact keeps_infoOfWord hi

theorem wf_bankWork {own} {s : State} (h : s.mem.wf = true) : (bankWork own s).mem.wf = true := by
  unfold bankWork
  refine wf_ite h ?_
  split
  · exact h
  · next hb =>
    split
    · exact wf_goOn h (keeps_bcastAt hb)
    · exact wf_ite (wf_goOn h (keeps_bcastAt hb)) h

theorem ends_execBankBeginBroadcast {sid own} {s : State} (h : s.mem.wf = true) :
    Ends Canonical (execBankBeginBroadcast sid own s) :=
  ends_next (wf_onStream h fun _ h1 => wf_bankWork h1)

theorem wf_bankRetire {own} {s : State} (h : s.mem.wf = true) : (bankRetire own s).mem.wf = true := by
  unfold bankRetire
  dsimp only
  split
  · exact h
  · refine wf_ite (wf_setRetired ?_) h
    exact h

theorem ends_execBankRetire {sid own} {s : State} (h : s.mem.wf = true) : Ends Canonical (execBankRetire sid own s) :=
  ends_next (wf_onStream h fun _ h1 => wf_bankRetire h1)

theorem wf_floorSteps {n} {s : State} (h : s.mem.wf = true) : (floorSteps n s).mem.wf = true := by
  induction n generalizing s with
  | zero =>
    unfold floorSteps
    exact h
  | succ n ih =>
    unfold floorSteps
    split
    · exact h
    · refine wf_ite h (wf_ite (wf_ite (wf_resumeB h) h) ?_)
      split
      · exact h
      · exact wf_ite (ih (wf_finishB h)) h

theorem wf_floorHeard {s : State} (h : s.mem.wf = true) : (floorHeard s).mem.wf = true := h

theorem wf_deliverFloor {s : State} (h : s.mem.wf = true) : (deliverFloor s).mem.wf = true :=
  wf_ite (wf_floorHeard (wf_floorSteps h)) h

theorem ends_execFloorDelivery {sid} {s : State} (h : s.mem.wf = true) : Ends Canonical (execFloorDelivery sid s) :=
  ends_next (wf_onStream h fun _ h1 => wf_deliverFloor h1)

theorem wf_returnResult {s : State} (h : s.mem.wf = true) : (returnResult s).mem.wf = true := by
  unfold returnResult
  split
  · exact h
  · split
    · exact h
    · exact wf_ite (wf_floorHeard (wf_finishB h)) h

theorem ends_execTreeResultReturn {sid} {s : State} (h : s.mem.wf = true) :
    Ends Canonical (execTreeResultReturn sid s) :=
  ends_next (wf_onStream h fun _ h1 => wf_returnResult h1)

theorem wf_setPull {s : State} (h : s.mem.wf = true) {k p} : (setPull s k p).mem.wf = true := h

theorem wf_chargeWait {s : State} (h : s.mem.wf = true) {p} : (chargeWait s p).mem.wf = true := by
  unfold chargeWait
  dsimp only
  split <;> exact h

theorem wf_servePull {k} {s : State} (h : s.mem.wf = true) : (servePull k s).mem.wf = true := by
  unfold servePull
  split
  · exact h
  · exact wf_ite
      (wf_ite (wf_sweepRemaps (wf_setPull h)) <|
       wf_ite h (wf_ite (wf_setPull (wf_chargeWait h)) (wf_setPull (wf_chargeWait h))))
      h

theorem ends_execPullRequest {sid k} {s : State} (h : s.mem.wf = true) : Ends Canonical (execPullRequest sid k s) :=
  ends_next (wf_onStream h fun _ h1 => wf_servePull h1)

theorem wf_takePull {k} {s : State} (h : s.mem.wf = true) : (takePull k s).mem.wf = true := by
  unfold takePull
  split
  · exact h
  · split
    · dsimp only
      split
      · next hb =>
        refine wf_goOn ?_ (keeps_bcastAt hb)
        exact h
      · exact h
    · exact h

theorem ends_execPullReply {sid k} {s : State} (h : s.mem.wf = true) : Ends Canonical (execPullReply sid k s) :=
  ends_next (wf_onStream h fun _ h1 => wf_takePull h1)

theorem wf_resendPull {k} {s : State} (h : s.mem.wf = true) : (resendPull k s).mem.wf = true := by
  unfold resendPull
  split
  · exact h
  · split
    · exact wf_ite (wf_setPull h) h
    · exact h

theorem ends_execPullResend {sid k} {s : State} (h : s.mem.wf = true) : Ends Canonical (execPullResend sid k s) :=
  ends_next (wf_onStream h fun _ h1 => wf_resendPull h1)

theorem wf_performAt {k} {s : State} (h : s.mem.wf = true) : (performAt k s).mem.wf = true := by
  unfold performAt
  split
  · exact h
  · refine wf_ite ?_ h
    dsimp only
    exact wf_ite (wf_wakeBlock (wf_sweepRemaps (wf_performAccess h))) <|
      wf_sweepRemaps (wf_performAccess h)

theorem ends_execScalarAccess {sid k} {s : State} (h : s.mem.wf = true) : Ends Canonical (execScalarAccess sid k s) :=
  ends_next (wf_onStream h fun _ h1 => wf_performAt h1)

theorem wf_replyAt {k} {s : State} (h : s.mem.wf = true) : (replyAt k s).mem.wf = true := by
  unfold replyAt
  split
  · exact h
  · exact wf_ite h (wf_replyAccess h)

theorem ends_execScalarReply {sid k} {s : State} (h : s.mem.wf = true) : Ends Canonical (execScalarReply sid k s) :=
  ends_next (wf_onStream h fun _ h1 => wf_replyAt h1)

theorem ends_execSubbankDrowsy {bank sub} {s : State} (h : s.mem.wf = true) :
    Ends Canonical (execSubbankDrowsy bank sub s) :=
  ends_next (wf_ite h h)

theorem wf_stopShelf {s : State} (h : s.mem.wf = true) {n t} : (stopShelf s n t).mem.wf = true := by
  unfold stopShelf
  split
  · exact wf_deliverStop (wf_stopFault (wf_of_eq (wf_settleTo h) ‹_›))
  · exact wf_of_eq (wf_settleTo h) ‹_›
  · split
    · dsimp only
      exact wf_of_eq (wf_settleTo h) ‹_›
    · exact wf_deliverStop (wf_stopFault (wf_putB (wf_undoB (wf_of_eq (wf_settleTo h) ‹_›))))

theorem wf_stopFound {s : State} (h : s.mem.wf = true) : (stopFound s).mem.wf = true := by
  unfold stopFound
  split
  · exact h
  · refine wf_ite (wf_stopShelf (wf_withdrawWaits h)) ?_
    split
    · exact wf_deliverStop (wf_stopFault (wf_of_eq (wf_settleTo (wf_withdrawWaits h)) ‹_›))
    · dsimp only
      exact wf_of_eq (wf_settleTo (wf_withdrawWaits h)) ‹_›
    · exact wf_of_eq (wf_settleTo (wf_withdrawWaits h)) ‹_›

theorem ends_execPreciseStop {sid} {s : State} (h : s.mem.wf = true) : Ends Canonical (execPreciseStop sid s) :=
  ends_next (wf_onStream h fun _ h1 => wf_ite (wf_stopFound h1) h1)

theorem ends_execInterruptTaken {sid} {s : State} (h : s.mem.wf = true) : Ends Canonical (execInterruptTaken sid s) :=
  ends_next (wf_onStream h fun _ h1 => wf_ite (wf_takeInterrupt h1) h1)

/-! ### Copies -/

theorem wf_takeSlot {x} {s : State} (h : s.mem.wf = true) : (takeSlot x s).mem.wf = true := by
  unfold takeSlot
  dsimp only
  refine wf_done ?_
  dsimp only
  exact wf_leave (wf_mapCsr h)

theorem wf_startCmd {x} {s : State} (h : s.mem.wf = true) : (startCmd x s).mem.wf = true :=
  wf_ite (wf_settleCmds h) h

theorem ends_command {i k c} {s : State} (h : s.mem.wf = true) : Ends Canonical (command i k c s) := by
  unfold command
  split
  · exact ends_trapHere h
  · split
    · exact ends_next h
    · exact ends_ite (ends_next h) <|
        ends_ite (ends_trapHere h) (ends_next (wf_startCmd (wf_takeSlot h)))

theorem ends_execCpy {c} {s : State} (h : s.mem.wf = true) : Ends Canonical (execCpy c s) :=
  ends_command h

theorem ends_execCpyt {c} {s : State} (h : s.mem.wf = true) : Ends Canonical (execCpyt c s) :=
  ends_command h

theorem ends_execCpyg {c} {s : State} (h : s.mem.wf = true) : Ends Canonical (execCpyg c s) :=
  ends_command h

theorem ends_execCpys {c} {s : State} (h : s.mem.wf = true) : Ends Canonical (execCpys c s) :=
  ends_command h

theorem ends_execCpyf {c} {s : State} (h : s.mem.wf = true) : Ends Canonical (execCpyf c s) :=
  ends_command h

theorem ends_execCpym {c} {s : State} (h : s.mem.wf = true) : Ends Canonical (execCpym c s) :=
  ends_command h

theorem ends_execSprog {c} {s : State} (h : s.mem.wf = true) : Ends Canonical (execSprog c s) :=
  ends_command h

theorem ends_execSrun {c} {s : State} (h : s.mem.wf = true) : Ends Canonical (execSrun c s) :=
  ends_command h

theorem ends_execChase {c} {s : State} (h : s.mem.wf = true) : Ends Canonical (execChase c s) :=
  ends_command h

/-! ### The copy engine -/

theorem wf_onCmd {slot p m} (hm : ∀ a0, KeepsM Canonical (m a0)) {s : State} (h : s.mem.wf = true) :
    (onCmd slot p m s).mem.wf = true := by
  unfold onCmd
  split
  · exact h
  · refine wf_ite ?_ h
    split
    · exact wf_putCmd (wf_of_exec (hm _) h ‹_›)
    · exact h

theorem wf_writeNext {slot} {s : State} (h : s.mem.wf = true) : (writeNext slot s).mem.wf = true :=
  wf_onCmd (fun _ => keepsM_writeSector) h

theorem wf_serveSector {slot} {s : State} (h : s.mem.wf = true) : (serveSector slot s).mem.wf = true := by
  unfold serveSector
  split
  · exact h
  · exact wf_ite (wf_writeNext h) (wf_onCmd (fun _ => keepsM_readCmd) h)

theorem ends_execCopySector {sid slot} {s : State} (h : s.mem.wf = true) :
    Ends Canonical (execCopySector sid slot s) :=
  ends_next (wf_onStream h fun _ h1 => wf_serveSector h1)

theorem ends_execCopyWritePerform {sid slot} {s : State} (h : s.mem.wf = true) :
    Ends Canonical (execCopyWritePerform sid slot s) :=
  ends_next (wf_onStream h fun _ h1 => wf_writeNext h1)

theorem wf_reserveAction {slot} {s : State} (h : s.mem.wf = true) : (reserveAction slot s).mem.wf = true := by
  unfold reserveAction
  split
  · exact h
  · exact wf_ite (wf_foldl (fun _ _ h1 => wf_shelfPut h1) (wf_putCmd h)) h

theorem ends_execActionReserve {sid slot} {s : State} (h : s.mem.wf = true) :
    Ends Canonical (execActionReserve sid slot s) :=
  ends_next (wf_onStream h fun _ h1 => wf_reserveAction h1)

theorem wf_performAction {slot} {s : State} (h : s.mem.wf = true) : (performAction slot s).mem.wf = true :=
  wf_onCmd (fun _ => .bind keepsM_doAction fun _ => keepsM_pure _) h

theorem ends_execFollowOnAction {sid slot} {s : State} (h : s.mem.wf = true) :
    Ends Canonical (execFollowOnAction sid slot s) :=
  ends_next (wf_onStream h fun _ h1 => wf_performAction h1)

theorem wf_writeToken {slot} {s : State} (h : s.mem.wf = true) : (writeToken slot s).mem.wf = true := by
  unfold writeToken
  split
  · exact h
  · exact wf_ite (wf_ite (wf_tokenAway h) (wf_putToken h)) h

theorem ends_execTokenWrite {sid slot} {s : State} (h : s.mem.wf = true) :
    Ends Canonical (execTokenWrite sid slot s) :=
  ends_next (wf_onStream h fun _ h1 => wf_writeToken h1)

theorem wf_startRun {slot pc} {s : State} (h : s.mem.wf = true) : (startRun slot pc s).mem.wf = true :=
  wf_onCmd (fun _ => keepsM_startRuns) h

theorem ends_execSrunStart {sid slot pc} {s : State} (h : s.mem.wf = true) :
    Ends Canonical (execSrunStart sid slot pc s) :=
  ends_next (wf_onStream h fun _ h1 => wf_startRun h1)

theorem wf_endRun {slot} {s : State} (h : s.mem.wf = true) : (endRun slot s).mem.wf = true :=
  wf_onCmd
    (fun _ =>
       keepsM_ite (.bind keepsM_startRuns fun _ => keepsM_ite (keepsM_pure _) keepsM_endRuns) <|
       .bind (keepsM_pure _) fun _ => keepsM_ite (keepsM_pure _) keepsM_endRuns)
    h

theorem ends_execSrunEnd {sid slot x} {s : State} (h : s.mem.wf = true) : Ends Canonical (execSrunEnd sid slot x s) :=
  ends_next (wf_onStream h fun _ h1 => wf_endRun h1)

theorem keepsM_nextHop {c e} : KeepsM Canonical (nextHop c e) := by
  unfold nextHop
  split
  · exact keepsM_pure _
  · refine keepsM_ite (.bind (keepsM_captured keepsM_readElem) fun a => ?_) (keepsM_pure _)
    split
    · exact keepsM_pure _
    · exact keepsM_pure _
    · exact keepsM_throw _

theorem keepsM_chaseStep {c} : KeepsM Canonical (chaseStep c) := by
  unfold chaseStep
  refine keepsM_bind_get fun s h => .bind keepsM_nextHop fun a => ?_
  split
  · exact keepsM_pure _
  · split
    exact keepsM_pure _
  · exact keepsM_throw _
  · refine .bind (keepsM_captured keepsM_hopOne) fun a => ?_
    split
    · exact .bind keepsM_gatherHop fun _ => keepsM_pure _
    · split
      exact keepsM_pure _
    · exact keepsM_throw _

theorem wf_serveHop {slot} {s : State} (h : s.mem.wf = true) : (serveHop slot s).mem.wf = true :=
  wf_onCmd (fun _ => keepsM_chaseStep) h

theorem ends_execChaseHop {sid slot} {s : State} (h : s.mem.wf = true) : Ends Canonical (execChaseHop sid slot s) :=
  ends_next (wf_onStream h fun _ h1 => wf_serveHop h1)

theorem wf_answerAt {k} {s : State} (h : s.mem.wf = true) : (answerAt k s).mem.wf = true := by
  unfold answerAt
  split
  · split
    · exact wf_homeTurn h
    · exact h
  · split
    · exact h
    · dsimp only
      exact wf_answerMsg h

theorem ends_execAccumMessage {k} {s : State} (h : s.mem.wf = true) : Ends Canonical (execAccumMessage k s) :=
  ends_next (wf_answerAt h)

theorem wf_answerTaken {k} {s : State} (h : s.mem.wf = true) : (answerTaken k s).mem.wf = true := by
  unfold answerTaken
  split
  · exact h
  · split
    · exact h
    · refine wf_takeAnswer ?_
      exact h

theorem ends_execAccumAnswer {k} {s : State} (h : s.mem.wf = true) : Ends Canonical (execAccumAnswer k s) :=
  ends_next (wf_answerTaken h)

theorem ends_execResidualIdleExpiry {bank k} {s : State} (h : s.mem.wf = true) :
    Ends Canonical (execResidualIdleExpiry bank k s) := by
  unfold execResidualIdleExpiry
  refine ends_next ?_
  split
  · exact h
  · refine wf_mustSend ?_
    exact h

theorem ends_execQuotaInterval {home} {s : State} (h : s.mem.wf = true) : Ends Canonical (execQuotaInterval home s) :=
  ends_next h

/-! ### Stacks of memory -/

theorem wf_takeHint {pc} {s : State} (h : s.mem.wf = true) : (takeHint pc s).mem.wf = true := by
  unfold takeHint
  split
  · exact h
  · exact wf_ite h h

theorem ends_execHintActivate {pc} {s : State} (h : s.mem.wf = true) : Ends Canonical (execHintActivate pc s) :=
  ends_next (wf_takeHint h)

theorem ends_execHintRowClose {pc bank} {s : State} (h : s.mem.wf = true) :
    Ends Canonical (execHintRowClose pc bank s) :=
  ends_next h

theorem wf_refresh {pc bank busy} {s : State} (h : s.mem.wf = true) : (refresh pc bank busy s).mem.wf = true :=
  wf_ite h (wf_ite h h)

theorem ends_execRefreshDue {pc bank busy} {s : State} (h : s.mem.wf = true) :
    Ends Canonical (execRefreshDue pc bank busy s) :=
  ends_next (wf_refresh h)

theorem wf_sleepChannel {pc request} {s : State} (h : s.mem.wf = true) : (sleepChannel pc request s).mem.wf = true :=
  wf_ite h h

theorem ends_execSelfRefreshEntry {pc request} {s : State} (h : s.mem.wf = true) :
    Ends Canonical (execSelfRefreshEntry pc request s) :=
  ends_next (wf_sleepChannel h)

theorem ends_execSelfRefreshExit {pc} {s : State} (h : s.mem.wf = true) : Ends Canonical (execSelfRefreshExit pc s) :=
  ends_next h

theorem wf_hotRemove {s : State} (h : s.mem.wf = true) {st old new} : (hotRemove s st old new).mem.wf = true :=
  wf_event h

theorem wf_evacuate {st} {s : State} (h : s.mem.wf = true) {p} : (evacuate st s p).mem.wf = true :=
  wf_ite (wf_hotRemove h) (wf_hotRemove (wf_setStack (wf_moveBytes (wf_deliverFor h))))

theorem wf_dropLayer {st layer} {s : State} (h : s.mem.wf = true) : (dropLayer st layer s).mem.wf = true :=
  Laws.wf_filter _ _ (wf_setStack h)

theorem wf_failLayer {st layer} {s : State} (h : s.mem.wf = true) : (failLayer st layer s).mem.wf = true := by
  unfold failLayer
  dsimp only
  refine wf_ite h <|
    wf_ite (wf_event ?_) <|
    wf_event (wf_dropLayer (wf_handAll (wf_foldl (fun _ _ h1 => wf_evacuate h1) h)))
  dsimp only
  exact wf_setStack h

theorem ends_execLayerFailure {stack layer} {s : State} (h : s.mem.wf = true) :
    Ends Canonical (execLayerFailure stack layer s) :=
  ends_next (wf_failLayer h)

theorem wf_retireRemap {st v} {s : State} (h : s.mem.wf = true) : (retireRemap st v s).mem.wf = true :=
  wf_ite (wf_sweepRemaps (wf_setStack h)) h

theorem ends_execSrmret {stack v} {s : State} (h : s.mem.wf = true) : Ends Canonical (execSrmret stack v s) :=
  ends_unlessFailed h (wf_retireRemap h)

/-! ### Debugging and tracing -/

theorem wf_dbgDone {res} {s : State} (h : s.mem.wf = true) : (dbgDone res s).mem.wf = true := h

theorem wf_dbgName {sid} {s : State} (h : s.mem.wf = true) : (dbgName sid s).mem.wf = true := h

theorem wf_haltFront {s : State} (h : s.mem.wf = true) : (haltFront s).mem.wf = true := by
  unfold haltFront
  split
  · dsimp only
    exact wf_of_waits (wf_settleStop h) ‹_›
  · dsimp only
    refine wf_ite ?_ (wf_ite (wf_deliver (wf_of_stopped (wf_settleStop h) ‹_›)) ?_)
    · dsimp only
      exact wf_mapCsr (wf_of_stopped (wf_settleStop h) ‹_›)
    · exact wf_deliver (wf_of_stopped (wf_settleStop h) ‹_›)

theorem wf_haltStream {s : State} (h : s.mem.wf = true) : (haltStream s).mem.wf = true :=
  wf_ite h (wf_ite (wf_haltFront h) h)

theorem wf_dbgEach {sid f} (hf : ∀ t0, t0.mem.wf = true → (f t0).mem.wf = true) {s : State} (h : s.mem.wf = true) :
    (dbgEach sid f s).mem.wf = true :=
  wf_ite h <|
    wf_ite (wf_dbgDone (wf_foldl (fun _ _ h1 => wf_onStream h1 fun _ h2 => hf _ h2) h)) <|
    wf_ite (wf_dbgDone (wf_onStream (wf_dbgName h) fun _ h1 => hf _ h1)) (wf_dbgDone (wf_dbgName h))

theorem ends_execDebugHalt {sid} {s : State} (h : s.mem.wf = true) : Ends Canonical (execDebugHalt sid s) :=
  ends_next (wf_dbgEach (fun _ h1 => wf_haltStream h1) h)

theorem wf_resumeHalted {s : State} (h : s.mem.wf = true) : (resumeHalted s).mem.wf = true :=
  wf_ite (wf_reissue h) h

theorem wf_dbgHaltedOp {sid f} (hf : ∀ t0, t0.mem.wf = true → (f t0).mem.wf = true) {s : State} (h : s.mem.wf = true) :
    (dbgHaltedOp sid f s).mem.wf = true :=
  wf_ite h <|
    wf_ite (wf_dbgDone (wf_dbgName h)) (wf_ite (wf_dbgDone (wf_dbgName h)) (hf _ (wf_dbgName h)))

theorem wf_dbgResume {sid} {s : State} (h : s.mem.wf = true) : (dbgResume sid s).mem.wf = true :=
  wf_ite (wf_dbgEach (fun _ h1 => wf_ite (wf_resumeHalted h1) h1) h) <|
    wf_dbgHaltedOp
      (fun _ h1 => wf_dbgDone (wf_onStream h1 fun _ h2 => wf_ite (wf_resumeHalted h2) h2))
      h

theorem ends_execDebugResume {sid} {s : State} (h : s.mem.wf = true) : Ends Canonical (execDebugResume sid s) :=
  ends_next (wf_dbgResume h)

theorem wf_stepHalted {s : State} (h : s.mem.wf = true) : (stepHalted s).mem.wf = true := by
  unfold stepHalted
  dsimp only
  split <;> exact wf_resumeHalted h

theorem wf_dbgStep {sid} {s : State} (h : s.mem.wf = true) : (dbgStep sid s).mem.wf = true :=
  wf_dbgHaltedOp (fun _ h1 => wf_dbgDone (wf_onStream h1 fun _ h2 => wf_stepHalted h2)) h

theorem ends_execDebugStep {sid} {s : State} (h : s.mem.wf = true) : Ends Canonical (execDebugStep sid s) :=
  ends_next (wf_dbgStep h)

theorem wf_dbgSetRegister {n v} {s : State} (h : s.mem.wf = true) : (dbgSetRegister n v s).mem.wf = true :=
  wf_ite (wf_wr h) (wf_ite (wf_csrWrite h) (wf_ite (wf_putWin h) h))

theorem wf_dbgReadReg {sid} {s : State} (h : s.mem.wf = true) : (dbgReadReg sid s).mem.wf = true := by
  unfold dbgReadReg
  dsimp only
  refine wf_dbgHaltedOp (fun t0 h1 => wf_dbgDone ?_) h
  exact h1

theorem wf_dbgWriteReg {sid} {s : State} (h : s.mem.wf = true) : (dbgWriteReg sid s).mem.wf = true :=
  wf_dbgHaltedOp (fun _ h1 => wf_dbgDone (wf_onStream h1 fun _ h2 => wf_dbgSetRegister h2)) h

theorem ends_execDebugReadRegister {sid} {s : State} (h : s.mem.wf = true) :
    Ends Canonical (execDebugReadRegister sid s) :=
  ends_next (wf_dbgReadReg h)

theorem ends_execDebugWriteRegister {sid} {s : State} (h : s.mem.wf = true) :
    Ends Canonical (execDebugWriteRegister sid s) :=
  ends_next (wf_dbgWriteReg h)

theorem keepsM_dbgWord {va p} : KeepsM Canonical (dbgWord va p) :=
  keepsM_bind_get fun _ _ =>
    keepsM_ite keepsM_trapM (.bind keepsM_xlate fun _ => keepsM_keysM)

theorem keepsM_dbgReadM {va} : KeepsM Canonical (dbgReadM va) :=
  .bind keepsM_dbgWord fun _ =>
    keepsM_bind_get fun _ h => keepsM_ite keepsM_trapM (keepsM_set h)

theorem keepsM_dbgWriteM {va} : KeepsM Canonical (dbgWriteM va) :=
  .bind keepsM_dbgWord fun _ => keepsM_modify fun _ h => wf_storeAt h

theorem wf_dbgMemory {m} (hm : KeepsM Canonical m) {s : State} (h : s.mem.wf = true) :
    (dbgMemory m s).mem.wf = true := by
  unfold dbgMemory
  split <;> exact wf_dbgDone (wf_of_exec hm h ‹_›)

theorem wf_dbgReadMem {sid} {s : State} (h : s.mem.wf = true) : (dbgReadMem sid s).mem.wf = true :=
  wf_dbgHaltedOp (fun _ h1 => wf_onStream h1 fun _ h2 => wf_dbgMemory keepsM_dbgReadM h2) h

theorem wf_dbgWriteMem {sid} {s : State} (h : s.mem.wf = true) : (dbgWriteMem sid s).mem.wf = true :=
  wf_dbgHaltedOp (fun _ h1 => wf_onStream h1 fun _ h2 => wf_dbgMemory keepsM_dbgWriteM h2) h

theorem ends_execDebugReadMemory {sid} {s : State} (h : s.mem.wf = true) :
    Ends Canonical (execDebugReadMemory sid s) :=
  ends_next (wf_dbgReadMem h)

theorem ends_execDebugWriteMemory {sid} {s : State} (h : s.mem.wf = true) :
    Ends Canonical (execDebugWriteMemory sid s) :=
  ends_next (wf_dbgWriteMem h)

theorem wf_forward {v} {s : State} (h : s.mem.wf = true) : (forward v s).mem.wf = true :=
  wf_ite h (wf_ite (wf_dbgDone h) (wf_ite (wf_dbgDone h) h))

theorem ends_execDebugPeerTimeout {p} {s : State} (h : s.mem.wf = true) : Ends Canonical (execDebugPeerTimeout p s) :=
  ends_next (wf_ite (wf_dbgDone h) h)

theorem ends_execDebugPeerReply {p res halted d} {s : State} (h : s.mem.wf = true) :
    Ends Canonical (execDebugPeerReply p res halted d s) :=
  ends_next (wf_ite (wf_dbgDone h) h)

theorem wf_dbgCommand {v} {s : State} (h : s.mem.wf = true) : (dbgCommand v s).mem.wf = true := by
  unfold dbgCommand
  refine wf_ite h (wf_ite (wf_forward h) ?_)
  split
  · exact wf_dbgEach (fun _ h1 => wf_haltStream h1) h
  · exact wf_dbgResume h
  · exact wf_dbgStep h
  · exact wf_dbgReadReg h
  · exact wf_dbgWriteReg h
  · exact wf_dbgReadMem h
  · exact wf_dbgWriteMem h
  · exact h

theorem wf_serveCommand {v addr data} {s : State} (h : s.mem.wf = true) :
    (serveCommand v addr data s).mem.wf = true :=
  wf_ite h (wf_dbgCommand h)

theorem ends_execDebugForward {m} {s : State} (h : s.mem.wf = true) : Ends Canonical (execDebugForward m s) := by
  unfold execDebugForward
  refine ends_next ?_
  split
  · exact wf_forward h
  · exact wf_serveCommand h

theorem wf_traceFlush {s : State} (h : s.mem.wf = true) : (traceFlush s).mem.wf = true := by
  unfold traceFlush
  dsimp only
  refine wf_ite (wf_traceWords ?_) h
  exact h

theorem wf_traceIn {r0 r1 r2 r3} {s : State} (h : s.mem.wf = true) : (traceIn r0 r1 r2 r3 s).mem.wf = true := by
  unfold traceIn
  split
  · exact h
  · refine wf_traceWords (wf_traceFlush ?_)
    exact h

theorem ends_execTraceRecord {r0 r1 r2 r3} {s : State} (h : s.mem.wf = true) :
    Ends Canonical (execTraceRecord r0 r1 r2 r3 s) :=
  ends_next (wf_traceIn h)

theorem wf_reportStall {own cpc ppc cycles} {s : State} (h : s.mem.wf = true) :
    (reportStall own cpc ppc cycles s).mem.wf = true := by
  unfold reportStall
  split <;> exact h

theorem ends_execStallReport {sid own cpc ppc parked refused} {s : State} (h : s.mem.wf = true) :
    Ends Canonical (execStallReport sid own cpc ppc parked refused s) :=
  ends_next (wf_onStream h fun _ h1 => wf_reportStall h1)

/-! ### Keys and resets -/

theorem wf_dropStacks {s : State} (h : s.mem.wf = true) {ks} : (dropStacks s ks).mem.wf = true :=
  wf_foldl (fun _ _ h1 => wf_ite h1 h1) h

theorem wf_outOfService {s : State} (h : s.mem.wf = true) {k} : (outOfService s k).mem.wf = true := by
  unfold outOfService
  dsimp only
  refine wf_ite (wf_dropStacks ?_) (wf_ite (wf_dropStacks h) ?_)
  all_goals exact h

theorem wf_quarantine {s : State} (h : s.mem.wf = true) {k step} : (quarantine s k step).mem.wf = true :=
  wf_event (wf_outOfService (wf_setDie h))

theorem wf_afterAttest {s : State} (h : s.mem.wf = true) : (afterAttest s).mem.wf = true :=
  wf_ite h h

theorem wf_attestEnd {s : State} (h : s.mem.wf = true) {k n asked} : (attestEnd s k n asked).mem.wf = true := by
  unfold attestEnd
  dsimp only
  refine wf_afterAttest (wf_ite (wf_ite ?_ (wf_setDie (wf_setDie h))) (wf_quarantine (wf_setDie h)))
  dsimp only
  exact wf_setDie (wf_setDie h)

theorem ends_execAttestation {die offer proof} {s : State} (h : s.mem.wf = true) :
    Ends Canonical (execAttestation die offer proof s) :=
  ends_next (wf_ite (wf_attestEnd h) h)

theorem ends_execAttestTimeout {die failStep} {s : State} (h : s.mem.wf = true) :
    Ends Canonical (execAttestTimeout die failStep s) :=
  ends_next (wf_ite (wf_attestEnd h) h)

theorem wf_setDir {s : State} (h : s.mem.wf = true) {l} : (s.setDir l).mem.wf = true := h

theorem wf_rekey {s : State} (h : s.mem.wf = true) {d} : (rekey s d).mem.wf = true :=
  wf_event (wf_setDir h)

theorem wf_setToken {s : State} (h : s.mem.wf = true) {t} : (s.setToken t).mem.wf = true := h

theorem wf_takeFlit {s : State} (h : s.mem.wf = true) {d cls} : (takeFlit s d cls).mem.wf = true :=
  wf_ite (wf_setToken h) h

theorem wf_failFlit {s : State} (h : s.mem.wf = true) {d f} : (failFlit s d f).mem.wf = true :=
  wf_ite (wf_rekey h) (wf_setDir h)

theorem wf_openedFlit {s : State} (h : s.mem.wf = true) {d f} : (openedFlit s d f).mem.wf = true :=
  wf_ite (wf_setFibre (wf_setDir h)) (wf_setDir h)

theorem wf_openFlit {s : State} (h : s.mem.wf = true) {d f} : (openFlit s d f).1.mem.wf = true := by
  unfold openFlit
  split
  · exact wf_ite (wf_failFlit h) (wf_rekey h)
  · exact wf_fst_ite (wf_openedFlit h) (wf_failFlit h)

theorem wf_receiveFlit {s : State} (h : s.mem.wf = true) {d f} : (receiveFlit s d f).mem.wf = true := by
  unfold receiveFlit
  refine wf_ite h ?_
  dsimp only
  exact wf_ite (wf_takeFlit (wf_openFlit h)) <|
    wf_ite (wf_setDir (wf_takeFlit (wf_openFlit h))) (wf_setDir (wf_takeFlit (wf_openFlit h)))

theorem ends_execFlitReceive {dir route fields payload tag} {s : State} (h : s.mem.wf = true) :
    Ends Canonical (execFlitReceive dir route fields payload tag s) :=
  ends_next (wf_receiveFlit h)

theorem ends_execFlitResend {dir lane} {s : State} (h : s.mem.wf = true) :
    Ends Canonical (execFlitResend dir lane s) :=
  ends_next (wf_setDir h)

theorem wf_rollover {s : State} (h : s.mem.wf = true) {d} : (rollover s d).mem.wf = true := by
  unfold rollover
  refine wf_ite h ?_
  split
  · exact wf_ite (wf_setDir h) (wf_setDir h)
  · exact wf_setDir h
  · exact wf_setDir h

theorem ends_execKeyRollover {dir} {s : State} (h : s.mem.wf = true) : Ends Canonical (execKeyRollover dir s) :=
  ends_next (wf_rollover h)

theorem wf_eraseOld {s : State} (h : s.mem.wf = true) {d} : (eraseOld s d).mem.wf = true :=
  wf_ite (wf_setDir h) h

theorem ends_execKeyErase {dir} {s : State} (h : s.mem.wf = true) : Ends Canonical (execKeyErase dir s) :=
  ends_next (wf_eraseOld h)

theorem wf_writeLkrekey {s : State} (h : s.mem.wf = true) {v} : (writeLkrekey s v).mem.wf = true := by
  unfold writeLkrekey
  dsimp only
  refine wf_ite ?_ (wf_ite (wf_foldl (fun _ _ h1 => wf_rekey h1) ?_) (wf_ite (wf_rekey ?_) ?_))
  all_goals exact h

theorem ends_execLkrekey {v} {s : State} (h : s.mem.wf = true) : Ends Canonical (execLkrekey v s) :=
  ends_next (wf_writeLkrekey h)

theorem wf_dropFibreKeys {s : State} (h : s.mem.wf = true) {p} : (dropFibreKeys s p).mem.wf = true :=
  h

theorem wf_attestPeer {s : State} (h : s.mem.wf = true) {p pass} : (attestPeer s p pass).mem.wf = true := by
  unfold attestPeer
  refine wf_ite h ?_
  split
  · exact h
  · dsimp only
    refine wf_ite ?_ (wf_setDie h)
    dsimp only
    exact wf_setDie h

theorem wf_losePeer {s : State} (h : s.mem.wf = true) {p} : (losePeer s p).mem.wf = true := by
  unfold losePeer
  dsimp only
  refine wf_dropFibreKeys ?_
  exact h

theorem ends_execPeerAttestation {p pass} {s : State} (h : s.mem.wf = true) :
    Ends Canonical (execPeerAttestation p pass s) :=
  ends_next (wf_attestPeer h)

theorem ends_execPeerReset {p} {s : State} (h : s.mem.wf = true) : Ends Canonical (execPeerReset p s) :=
  ends_next (wf_losePeer h)

theorem wf_eraseKeys {s : State} (h : s.mem.wf = true) {k} : (eraseKeys s k).mem.wf = true := h

theorem wf_failCmds {die} {s : State} (h : s.mem.wf = true) : (failCmds die s).mem.wf = true :=
  wf_setCmds h

theorem wf_dropAccs {s : State} (h : s.mem.wf = true) {die} : (dropAccs s die).mem.wf = true :=
  wf_foldl (fun _ _ h1 => wf_event h1) h

theorem wf_loseBanks {s : State} (h : s.mem.wf = true) {d} : (loseBanks s d).mem.wf = true :=
  Laws.wf_overlay _ _ _ _ h

theorem wf_meetReset {d} {s : State} (h : s.mem.wf = true) : (meetReset d s).mem.wf = true :=
  wf_ite h (wf_ite (wf_ite (wf_retireFront h) (wf_ite (wf_dieStop h) h)) (wf_ite h h))

theorem wf_loseGroups {s : State} (h : s.mem.wf = true) {d} : (loseGroups s d).mem.wf = true := by
  unfold loseGroups
  dsimp only
  refine wf_foldl (fun t a h1 => wf_onStream h1 fun t0 h2 => ?_) (wf_mapStreams ?_)
  · split
    · exact wf_ite (wf_dieStop h2) h2
    · exact h2
  · exact h

theorem wf_resetDie {s : State} (h : s.mem.wf = true) {k} : (resetDie s k).mem.wf = true := by
  unfold resetDie
  extract_lets s1 s2 s3 s4 s5 regs s6
  have h2 : s2.mem.wf = true :=
    wf_dropAccs (wf_foldl (fun _ _ ht => wf_onStream ht fun _ hu => wf_failCmds hu) h)
  have h3 : s3.mem.wf = true := wf_ite (wf_foldl (fun _ _ ht => wf_onStream ht fun _ hu => wf_meetReset hu) h2) h2
  have h4 : s4.mem.wf = true := wf_ite (wf_loseBanks (wf_loseGroups h3)) h3
  have h5 : s5.mem.wf = true := by
    refine wf_eraseKeys ?_
    exact h4
  have h6 : s6.mem.wf = true := by
    refine wf_ite ?_ h5
    exact h5
  exact wf_ite h (wf_setDie h6)

theorem ends_execDieReset {die} {s : State} (h : s.mem.wf = true) : Ends Canonical (execDieReset die s) :=
  ends_next (wf_resetDie h)

theorem wf_writeHostint {s : State} (h : s.mem.wf = true) {v} : (writeHostint s v).mem.wf = true := by
  unfold writeHostint
  dsimp only
  refine wf_ite (wf_onStream ?_ fun t0 h1 => ?_) ?_
  · exact h
  · exact h1
  · exact h

theorem ends_execHostint {v} {s : State} (h : s.mem.wf = true) : Ends Canonical (execHostint v s) :=
  ends_next (wf_writeHostint h)

/-! ### The fabric -/

theorem wf_countFlits {s : State} (h : s.mem.wf = true) {d n} : (countFlits s d n).mem.wf = true :=
  wf_ite h (wf_setDir h)

theorem wf_passToken {s : State} (h : s.mem.wf = true) {ch ep want} : (passToken s ch ep want).mem.wf = true := by
  unfold passToken
  refine wf_ite h (wf_ite (wf_setToken h) (wf_ite h ?_))
  dsimp only
  exact wf_countFlits (wf_setToken h)

theorem ends_execTokenPass {ch ep replies requests} {s : State} (h : s.mem.wf = true) :
    Ends Canonical (execTokenPass ch ep replies requests s) :=
  ends_next (wf_passToken h)

theorem wf_setLevel {s : State} (h : s.mem.wf = true) {r l} : (setLevel s r l).mem.wf = true := h

theorem wf_moveLevel {s : State} (h : s.mem.wf = true) {r up} : (moveLevel s r up).mem.wf = true := by
  unfold moveLevel
  split
  · exact h
  · exact wf_ite h (wf_ite (wf_ite h (wf_setLevel h)) (wf_ite (wf_setLevel h) h))

theorem ends_execGovernorLevel {region up} {s : State} (h : s.mem.wf = true) :
    Ends Canonical (execGovernorLevel region up s) :=
  ends_next (wf_moveLevel h)

theorem wf_writeFgov {s : State} (h : s.mem.wf = true) {v} : (writeFgov s v).mem.wf = true := by
  unfold writeFgov
  refine wf_ite h (wf_foldl (fun t a h1 => ?_) h)
  split
  · exact wf_ite (wf_setLevel h1) h1
  · exact h1

theorem wf_takeEmpty {s : State} (h : s.mem.wf = true) {k f} : (takeEmpty s k f).mem.wf = true :=
  wf_ite (wf_openFlit h) h

theorem ends_execEmptyFlit {k f} {s : State} (h : s.mem.wf = true) : Ends Canonical (execEmptyFlit k f s) :=
  ends_next (wf_takeEmpty h)

theorem ends_execFibrePark {k} {s : State} (h : s.mem.wf = true) : Ends Canonical (execFibrePark k s) :=
  ends_next (wf_setFibre h)

theorem ends_execFibreWake {k} {s : State} (h : s.mem.wf = true) : Ends Canonical (execFibreWake k s) :=
  ends_next (wf_setFibre h)

theorem wf_endWake {s : State} (h : s.mem.wf = true) {k locked} : (endWake s k locked).mem.wf = true :=
  wf_ite (wf_ite (wf_setFibre h) (wf_event (wf_setFibre h))) h

theorem ends_execWakeLock {k locked} {s : State} (h : s.mem.wf = true) : Ends Canonical (execWakeLock k locked s) :=
  ends_next (wf_endWake h)

/-! ### Repair and sensors -/

theorem wf_moduleReset {s : State} (h : s.mem.wf = true) : (moduleReset s).mem.wf = true :=
  Laws.wf_filter _ _ h

theorem wf_bringFail {s : State} (h : s.mem.wf = true) {n} : (bringFail s n).mem.wf = true := h

theorem wf_bringUp {powerOk bootOk img0 img1} {s : State} (h : s.mem.wf = true) :
    (bringUp powerOk bootOk img0 img1 s).mem.wf = true := by
  unfold bringUp
  refine wf_ite (wf_bringFail (wf_moduleReset h)) ?_
  split
  · exact wf_bringFail (wf_moduleReset h)
  · dsimp only
    exact wf_setDie (wf_moduleReset h)

theorem wf_commitStaged {s : State} (h : s.mem.wf = true) : (commitStaged s).mem.wf = true := by
  unfold commitStaged
  split
  · exact h
  · dsimp only
    refine wf_event ?_
    exact h

theorem wf_initMemory {s : State} (h : s.mem.wf = true) : (initMemory s).mem.wf = true :=
  wf_ite (wf_commitStaged (Laws.wf_filter _ _ h)) h

theorem ends_execMemgo {s : State} (h : s.mem.wf = true) : Ends Canonical (execMemgo s) :=
  ends_next (wf_initMemory h)

theorem ends_execMemgoTimeout {s : State} (h : s.mem.wf = true) : Ends Canonical (execMemgoTimeout s) :=
  ends_next (wf_initMemory h)

theorem wf_clearCell {s : State} (h : s.mem.wf = true) {c} : (clearCell s c).mem.wf = true :=
  wf_mapStreams h

theorem wf_spoil {s : State} (h : s.mem.wf = true) {sectors} : (spoil s sectors).mem.wf = true := h

theorem wf_finishRepair {s : State} (h : s.mem.wf = true) {seq unit} : (finishRepair s seq unit).mem.wf = true := by
  unfold finishRepair
  dsimp only
  refine wf_ite h (wf_event (wf_mapStreams ?_))
  dsimp only
  exact wf_spoil h

theorem wf_loseCell {s : State} (h : s.mem.wf = true) {seq unit} : (loseCell s seq unit).mem.wf = true := by
  unfold loseCell
  dsimp only
  refine wf_event ?_
  dsimp only
  exact wf_clearCell h

theorem wf_repairUnit {s : State} (h : s.mem.wf = true) {seq unit} : (repairUnit s seq unit).mem.wf = true := by
  unfold repairUnit
  dsimp only
  refine wf_ite h <|
    wf_ite (wf_finishRepair (wf_clearCell h)) <|
    wf_ite (wf_finishRepair (wf_clearCell ?_)) (wf_loseCell h)
  exact h

theorem ends_execUnitRepair {seq unit} {s : State} (h : s.mem.wf = true) :
    Ends Canonical (execUnitRepair seq unit s) :=
  ends_next (wf_repairUnit h)

theorem wf_dropPair {s : State} (h : s.mem.wf = true) {k} : (dropPair s k).mem.wf = true := h

theorem wf_repairFibre {s : State} (h : s.mem.wf = true) {k} : (repairFibre s k).mem.wf = true := by
  unfold repairFibre
  refine wf_ite h ?_
  split
  · split
    · exact wf_event (wf_setFibre (wf_dropPair (wf_setFibre h)))
    · exact wf_event (wf_dropPair (wf_setFibre h))
  · dsimp only
    split
    · exact wf_event (wf_setFibre (wf_dropPair (wf_setFibre h)))
    · exact wf_event (wf_dropPair (wf_setFibre h))

theorem wf_repairGuide {s : State} (h : s.mem.wf = true) {c} : (repairGuide s c).mem.wf = true := by
  unfold repairGuide
  refine wf_ite h (wf_ite (wf_event ?_) (wf_event ?_))
  all_goals exact h

theorem ends_execSpareRepair {fibre unit} {s : State} (h : s.mem.wf = true) :
    Ends Canonical (execSpareRepair fibre unit s) :=
  ends_next (wf_ite (wf_repairFibre h) (wf_repairGuide h))

theorem wf_repairPart {s : State} (h : s.mem.wf = true) {x} : (repairPart s x).mem.wf = true := by
  unfold repairPart
  split
  · exact wf_repairUnit h
  · exact wf_failLayer h
  · exact wf_repairGuide h
  · exact wf_repairFibre h

theorem wf_trainPair {s : State} (h : s.mem.wf = true) {k trip} : (trainPair s k trip).mem.wf = true := by
  unfold trainPair
  exact wf_ite (wf_repairFibre (wf_setFibre h)) (wf_setFibre h)

theorem wf_calibrate {c} {s : State} (h : s.mem.wf = true) : (calibrate c s).mem.wf = true :=
  wf_ite
    (wf_foldl (fun _ _ h1 => wf_trainPair h1) (wf_foldl (fun _ _ h1 => wf_repairPart h1) h))
    h

theorem ends_execBringUp {powerOk bootOk imgs cal} {s : State} (h : s.mem.wf = true) :
    Ends Canonical (execBringUp powerOk bootOk imgs cal s) := by
  unfold execBringUp
  refine ends_next ?_
  split
  · exact wf_bringUp h
  · exact wf_calibrate h

theorem wf_failover {s : State} (h : s.mem.wf = true) : (failover s).mem.wf = true := by
  unfold failover
  dsimp only
  refine wf_ite h (wf_ite (wf_event ?_) ?_)
  all_goals exact h

theorem ends_execHubFailover {s : State} (h : s.mem.wf = true) : Ends Canonical (execHubFailover s) :=
  ends_next (wf_failover h)

theorem wf_readSensors {s : State} (h : s.mem.wf = true) {k temp power watts} :
    (readSensors s k temp power watts).mem.wf = true := by
  unfold readSensors
  dsimp only
  exact wf_setDie h

theorem wf_slower {s : State} (h : s.mem.wf = true) {k} : (slower s k).mem.wf = true :=
  wf_ite h (wf_event (wf_setDie h))

theorem wf_faster {s : State} (h : s.mem.wf = true) {k} : (faster s k).mem.wf = true := wf_setDie h

theorem wf_tripModule {s : State} (h : s.mem.wf = true) {k} : (tripModule s k).mem.wf = true :=
  wf_foldl (fun _ _ h1 => wf_loseBanks h1) (wf_event h)

theorem wf_control {s : State} (h : s.mem.wf = true) {k} : (Machine.control s k).mem.wf = true := by
  unfold Machine.control
  exact wf_ite (wf_foldl (fun t a ht => wf_slower ht) h) (wf_ite (wf_slower h) (wf_ite (wf_faster h) h))

theorem wf_sense {s : State} (h : s.mem.wf = true) {k temp power watts} :
    (sense s k temp power watts).mem.wf = true :=
  wf_ite h (wf_ite (wf_tripModule (wf_readSensors h)) (wf_control (wf_readSensors h)))

theorem ends_execThrottle {die temp watts} {s : State} (h : s.mem.wf = true) :
    Ends Canonical (execThrottle die temp watts s) :=
  ends_next (wf_sense h)

theorem ends_execTrip {die temp watts} {s : State} (h : s.mem.wf = true) :
    Ends Canonical (execTrip die temp watts s) :=
  ends_next (wf_ite h (wf_ite (wf_tripModule (wf_readSensors h)) (wf_readSensors h)))

theorem wf_writeUpdctl {s : State} (h : s.mem.wf = true) {v} : (writeUpdctl s v).mem.wf = true :=
  wf_ite h (wf_ite h h)

theorem ends_execUpdctlGo {v} {s : State} (h : s.mem.wf = true) : Ends Canonical (execUpdctlGo v s) :=
  ends_next (wf_writeUpdctl h)

theorem wf_endStaging {s : State} (h : s.mem.wf = true) {readErr sigOk i} :
    (endStaging s readErr sigOk i).mem.wf = true :=
  wf_ite h (wf_ite h h)

theorem ends_execImageStaged {readErr sigOk img} {s : State} (h : s.mem.wf = true) :
    Ends Canonical (execImageStaged readErr sigOk img s) :=
  ends_next (wf_endStaging h)

theorem wf_powerOff {s : State} (h : s.mem.wf = true) {whole die} : (powerOff s whole die).mem.wf = true :=
  wf_ite (wf_moduleReset h) (wf_ite h (wf_resetDie (wf_setDie h)))

theorem ends_execPowerLoss {whole die} {s : State} (h : s.mem.wf = true) :
    Ends Canonical (execPowerLoss whole die s) :=
  ends_next (wf_powerOff h)

/-! ### The host link -/

theorem wf_writeDistcfg {s : State} (h : s.mem.wf = true) {v} : (writeDistcfg s v).mem.wf = true :=
  h

theorem wf_writeQuota {s : State} (h : s.mem.wf = true) {v} : (writeQuota s v).mem.wf = true :=
  wf_ite h h

theorem wf_writeEvcfg {s : State} (h : s.mem.wf = true) {v} : (writeEvcfg s v).mem.wf = true := h

theorem wf_writeSens {s : State} (h : s.mem.wf = true) {k v} : (writeSens s k v).mem.wf = true :=
  wf_setDie h

theorem wf_writeQueue {s : State} (h : s.mem.wf = true) {q o v} : (writeQueue s q o v).mem.wf = true := by
  unfold writeQueue
  split
  · exact wf_setLq h
  · exact wf_writeLqcfg h
  · exact wf_writeTail h
  · exact wf_setLq h
  · exact wf_setLq h
  · exact wf_setLq h
  · exact wf_setLq h
  · exact h

theorem wf_writeMask {s : State} (h : s.mem.wf = true) {n o v} : (writeMask s n o v).mem.wf = true :=
  wf_ite h (wf_ite (wf_ite (wf_setStack h) h) (wf_ite (wf_setStack h) h))

theorem wf_writeStack {s : State} (h : s.mem.wf = true) {n o v} : (writeStack s n o v).mem.wf = true := by
  unfold writeStack
  split
  · exact wf_setStack h
  · exact wf_setStack h
  · exact wf_writeMask h
  · exact wf_writeMask h
  · exact wf_writeMask h
  · exact wf_writeMask h
  · exact wf_writeMask h
  · exact wf_writeMask h
  · exact wf_ite h (wf_setStack h)
  · exact wf_ite h (wf_setStack h)
  · exact wf_ite h (wf_setStack h)
  · exact wf_writePrmctl h
  · exact wf_retireRemap (wf_setStack h)
  · exact h

theorem wf_writeFibre {s : State} (h : s.mem.wf = true) {k v} : (writeFibre s k v).mem.wf = true :=
  wf_ite h (wf_setFibre h)

theorem wf_writeModule {s : State} (h : s.mem.wf = true) {o v} : (writeModule s o v).mem.wf = true := by
  unfold writeModule
  split
  · exact wf_ite (wf_initMemory h) h
  · exact wf_writeDistcfg h
  · exact wf_writeQuota h
  · exact wf_writeHostint h
  · exact wf_writeFgov h
  · exact h
  · exact wf_writeLkrekey h
  · exact wf_dbgCommand h
  · exact h
  · exact h
  · exact h
  · exact h
  · exact wf_ite (wf_traceFlush h) h
  · exact wf_traceFlush h
  · exact h
  · exact wf_writeEvcfg h
  · exact h
  · exact h
  · exact h
  · exact wf_writeUpdctl h
  · exact wf_ite (wf_writeSens h) h

theorem wf_writeTable {s : State} (h : s.mem.wf = true) {o v} : (writeTable s o v).mem.wf = true :=
  h

theorem wf_writeBar0 {s : State} (h : s.mem.wf = true) {o v} : (writeBar0 s o v).mem.wf = true :=
  wf_ite (wf_writeModule h) <|
    wf_ite (wf_writeQueue h) <|
    wf_ite (wf_writeStack h) (wf_ite (wf_writeFibre h) (wf_ite (wf_writeTable h) h))

theorem wf_hostWrite {s : State} (h : s.mem.wf = true) {o size v} : (hostWrite s o size v).mem.wf = true :=
  wf_ite h (wf_ite (wf_writeBar0 h) (wf_ite (wf_writeBar0 h) h))

theorem wf_hostLoad {s : State} (h : s.mem.wf = true) {o size} : (hostLoad s o size).mem.wf = true :=
  wf_ite h (wf_ite h h)

theorem ends_execRegisterWrite {off size v} {s : State} (h : s.mem.wf = true) :
    Ends Canonical (execRegisterWrite off size v s) := by
  unfold execRegisterWrite
  refine ends_next ?_
  split
  · exact wf_hostWrite h
  · exact wf_hostLoad h

theorem wf_asHost {α : Type} {m : M α} (hm : KeepsM Canonical m) {s : State} (h : s.mem.wf = true) :
    (asHost m s).2.mem.wf = true :=
  hm { s with front := hostFront s } h

theorem keepsM_hostKeys {va n p} : KeepsM Canonical (hostKeys va n p) :=
  keepsM_mapM fun _ =>
    keepsM_bind_get fun _ _ =>
    .bind keepsM_xlate fun _ =>
    .bind keepsM_keysM fun _ => .bind (keepsM_need _ _) fun _ => keepsM_pure _

theorem keepsM_hostReadM {va n} : KeepsM Canonical (hostReadM va n) :=
  .bind keepsM_hostKeys fun _ =>
    keepsM_bind_get fun _ _ =>
    .bind (keepsM_need _ _) fun _ =>
    .bind (keepsM_modify fun _ h1 => wf_touch h1) fun _ => keepsM_pure _

theorem keepsM_hostWriteM {va bs} : KeepsM Canonical (hostWriteM va bs) :=
  .bind keepsM_hostKeys fun _ => keepsM_modify fun _ h => wf_put h

theorem keepsM_hostAtomM {op va n d e} : KeepsM Canonical (hostAtomM op va n d e) :=
  .bind keepsM_hostKeys fun _ =>
    keepsM_bind_get fun _ _ =>
    .bind (keepsM_need _ _) fun _ =>
    .bind (keepsM_need _ _) fun _ =>
    .bind (keepsM_need _ _) fun _ =>
    .bind (keepsM_modify fun _ h1 => wf_put h1) fun _ => keepsM_pure _

theorem wf_hostReplied {r : Except Stop (List Byte) × State} (h : r.2.mem.wf = true) :
    (hostReplied r).mem.wf = true := by
  unfold hostReplied
  split <;> exact h

theorem wf_resizeBar2 {s : State} (h : s.mem.wf = true) {k} : (resizeBar2 s k).mem.wf = true :=
  wf_ite h h

theorem wf_hostWritten {va} {r : Except Stop Unit × State} (h : r.2.mem.wf = true) :
    (hostWritten va r).mem.wf = true := by
  unfold hostWritten
  split
  · exact h
  · exact wf_event h

theorem wf_bar2 {s : State} (h : s.mem.wf = true) {o op wide d e} : (bar2 s o op wide d e).mem.wf = true := by
  unfold bar2
  extract_lets va within answered width
  have hwithin : ∀ n t, t.mem.wf = true → (within n t).mem.wf = true := fun _ _ ht => wf_ite ht h
  have hanswered : ∀ n m, KeepsM Canonical m → (answered n m).mem.wf = true := fun _ _ hm =>
    hwithin _ _ (wf_ite h (wf_hostReplied (wf_asHost hm h)))
  split
  · exact hanswered _ _ keepsM_hostReadM
  · exact hwithin _ _ (wf_ite h (wf_hostWritten (wf_asHost keepsM_hostWriteM h)))
  · exact hanswered _ _ keepsM_hostAtomM
  · exact hanswered _ _ keepsM_hostAtomM
  · exact hanswered _ _ keepsM_hostAtomM
  · exact wf_resizeBar2 h

theorem ends_execBar2Access {o op wide d e} {s : State} (h : s.mem.wf = true) :
    Ends Canonical (execBar2Access o op wide d e s) :=
  ends_next (wf_bar2 h)

theorem wf_complete {k err} {s : State} (h : s.mem.wf = true) : (complete k err s).mem.wf = true := by
  unfold complete
  split
  · exact h
  · exact wf_ite h h

theorem wf_markHost {s : State} (h : s.mem.wf = true) {x err} : (markHost s x err).mem.wf = true :=
  h

theorem ends_execHostMemoryCompletion {sid r err} {s : State} (h : s.mem.wf = true) :
    Ends Canonical (execHostMemoryCompletion sid r err s) := by
  unfold execHostMemoryCompletion
  refine ends_next ?_
  split
  · exact wf_onStream h fun _ h1 => wf_complete h1
  · exact wf_markHost h

/-! ### Vector instructions -/

theorem ends_execVadd {v} {s : State} (h : s.mem.wf = true) : Ends Canonical (execVadd v s) :=
  ends_broadcast rfl h

theorem ends_execVsub {v} {s : State} (h : s.mem.wf = true) : Ends Canonical (execVsub v s) :=
  ends_broadcast rfl h

theorem ends_execVmul {v} {s : State} (h : s.mem.wf = true) : Ends Canonical (execVmul v s) :=
  ends_broadcast rfl h

theorem ends_execVfma {v} {s : State} (h : s.mem.wf = true) : Ends Canonical (execVfma v s) :=
  ends_broadcast rfl h

theorem ends_execVfms {v} {s : State} (h : s.mem.wf = true) : Ends Canonical (execVfms v s) :=
  ends_broadcast rfl h

theorem ends_execVfnma {v} {s : State} (h : s.mem.wf = true) : Ends Canonical (execVfnma v s) :=
  ends_broadcast rfl h

theorem ends_execVmin {v} {s : State} (h : s.mem.wf = true) : Ends Canonical (execVmin v s) :=
  ends_broadcast rfl h

theorem ends_execVmax {v} {s : State} (h : s.mem.wf = true) : Ends Canonical (execVmax v s) :=
  ends_broadcast rfl h

theorem ends_execVabs {v} {s : State} (h : s.mem.wf = true) : Ends Canonical (execVabs v s) :=
  ends_broadcast rfl h

theorem ends_execVneg {v} {s : State} (h : s.mem.wf = true) : Ends Canonical (execVneg v s) :=
  ends_broadcast rfl h

theorem ends_execVrcp {v} {s : State} (h : s.mem.wf = true) : Ends Canonical (execVrcp v s) :=
  ends_broadcast rfl h

theorem ends_execVrsq {v} {s : State} (h : s.mem.wf = true) : Ends Canonical (execVrsq v s) :=
  ends_broadcast rfl h

theorem ends_execVexp2 {v} {s : State} (h : s.mem.wf = true) : Ends Canonical (execVexp2 v s) :=
  ends_broadcast rfl h

theorem ends_execVlog2 {v} {s : State} (h : s.mem.wf = true) : Ends Canonical (execVlog2 v s) :=
  ends_broadcast rfl h

theorem ends_execVand {v} {s : State} (h : s.mem.wf = true) : Ends Canonical (execVand v s) :=
  ends_broadcast rfl h

theorem ends_execVor {v} {s : State} (h : s.mem.wf = true) : Ends Canonical (execVor v s) :=
  ends_broadcast rfl h

theorem ends_execVxor {v} {s : State} (h : s.mem.wf = true) : Ends Canonical (execVxor v s) :=
  ends_broadcast rfl h

theorem ends_execVnot {v} {s : State} (h : s.mem.wf = true) : Ends Canonical (execVnot v s) :=
  ends_broadcast rfl h

theorem ends_execVsll {v} {s : State} (h : s.mem.wf = true) : Ends Canonical (execVsll v s) :=
  ends_broadcast rfl h

theorem ends_execVsrl {v} {s : State} (h : s.mem.wf = true) : Ends Canonical (execVsrl v s) :=
  ends_broadcast rfl h

theorem ends_execVsra {v} {s : State} (h : s.mem.wf = true) : Ends Canonical (execVsra v s) :=
  ends_broadcast rfl h

theorem ends_execVceq {v} {s : State} (h : s.mem.wf = true) : Ends Canonical (execVceq v s) :=
  ends_broadcast rfl h

theorem ends_execVcne {v} {s : State} (h : s.mem.wf = true) : Ends Canonical (execVcne v s) :=
  ends_broadcast rfl h

theorem ends_execVclt {v} {s : State} (h : s.mem.wf = true) : Ends Canonical (execVclt v s) :=
  ends_broadcast rfl h

theorem ends_execVcle {v} {s : State} (h : s.mem.wf = true) : Ends Canonical (execVcle v s) :=
  ends_broadcast rfl h

theorem ends_execVsel {v} {s : State} (h : s.mem.wf = true) : Ends Canonical (execVsel v s) :=
  ends_broadcast rfl h

theorem ends_execVmov {v} {s : State} (h : s.mem.wf = true) : Ends Canonical (execVmov v s) :=
  ends_broadcast rfl h

theorem ends_execVfill {v} {s : State} (h : s.mem.wf = true) : Ends Canonical (execVfill v s) :=
  ends_broadcast rfl h

theorem ends_execViota {v} {s : State} (h : s.mem.wf = true) : Ends Canonical (execViota v s) :=
  ends_broadcast rfl h

theorem ends_execVredAdd {v} {s : State} (h : s.mem.wf = true) : Ends Canonical (execVredAdd v s) :=
  ends_broadcast rfl h

theorem ends_execVredMax {v} {s : State} (h : s.mem.wf = true) : Ends Canonical (execVredMax v s) :=
  ends_broadcast rfl h

theorem ends_execVredMin {v} {s : State} (h : s.mem.wf = true) : Ends Canonical (execVredMin v s) :=
  ends_broadcast rfl h

theorem ends_execVscanAdd {v} {s : State} (h : s.mem.wf = true) : Ends Canonical (execVscanAdd v s) :=
  ends_broadcast rfl h

theorem ends_execVscanMax {v} {s : State} (h : s.mem.wf = true) : Ends Canonical (execVscanMax v s) :=
  ends_broadcast rfl h

theorem ends_execVscanMin {v} {s : State} (h : s.mem.wf = true) : Ends Canonical (execVscanMin v s) :=
  ends_broadcast rfl h

theorem ends_execVgather {v} {s : State} (h : s.mem.wf = true) : Ends Canonical (execVgather v s) :=
  ends_broadcast rfl h

theorem ends_execVscatter {v} {s : State} (h : s.mem.wf = true) : Ends Canonical (execVscatter v s) :=
  ends_broadcast rfl h

theorem ends_execVcompact {v} {s : State} (h : s.mem.wf = true) : Ends Canonical (execVcompact v s) :=
  ends_broadcast rfl h

theorem ends_execVexpand {v} {s : State} (h : s.mem.wf = true) : Ends Canonical (execVexpand v s) :=
  ends_broadcast rfl h

theorem ends_execLanex {v} {s : State} (h : s.mem.wf = true) : Ends Canonical (execLanex v s) :=
  ends_broadcast rfl h

theorem ends_execVcvt {sfmt v} {s : State} (h : s.mem.wf = true) : Ends Canonical (execVcvt sfmt v s) :=
  ends_broadcast rfl h

theorem ends_execMload {fmt wb pair kb} {s : State} (h : s.mem.wf = true) :
    Ends Canonical (execMload fmt wb pair kb s) :=
  ends_broadcast rfl h

theorem ends_execMswap {pair} {s : State} (h : s.mem.wf = true) : Ends Canonical (execMswap pair s) :=
  ends_broadcast rfl h

theorem ends_execMma {m} {s : State} (h : s.mem.wf = true) : Ends Canonical (execMma m s) :=
  ends_broadcast rfl h

theorem ends_execMrecast {pair shadow} {s : State} (h : s.mem.wf = true) :
    Ends Canonical (execMrecast pair shadow s) :=
  ends_broadcast rfl h

theorem ends_execMinval {pair shadow} {s : State} (h : s.mem.wf = true) : Ends Canonical (execMinval pair shadow s) :=
  ends_broadcast rfl h

theorem ends_execVacc {v} {s : State} (h : s.mem.wf = true) : Ends Canonical (execVacc v s) :=
  ends_broadcast rfl h

theorem ends_execVamoAdd {v ord sc} {s : State} (h : s.mem.wf = true) : Ends Canonical (execVamoAdd v ord sc s) :=
  ends_broadcast rfl h

theorem ends_execVamoAnd {v ord sc} {s : State} (h : s.mem.wf = true) : Ends Canonical (execVamoAnd v ord sc s) :=
  ends_broadcast rfl h

theorem ends_execVamoOr {v ord sc} {s : State} (h : s.mem.wf = true) : Ends Canonical (execVamoOr v ord sc s) :=
  ends_broadcast rfl h

theorem ends_execVamoXor {v ord sc} {s : State} (h : s.mem.wf = true) : Ends Canonical (execVamoXor v ord sc s) :=
  ends_broadcast rfl h

theorem ends_execVamoMin {v ord sc} {s : State} (h : s.mem.wf = true) : Ends Canonical (execVamoMin v ord sc s) :=
  ends_broadcast rfl h

theorem ends_execVamoMax {v ord sc} {s : State} (h : s.mem.wf = true) : Ends Canonical (execVamoMax v ord sc s) :=
  ends_broadcast rfl h

theorem ends_execVamoMinn {v ord sc} {s : State} (h : s.mem.wf = true) : Ends Canonical (execVamoMinn v ord sc s) :=
  ends_broadcast rfl h

theorem ends_execVamoMaxn {v ord sc} {s : State} (h : s.mem.wf = true) : Ends Canonical (execVamoMaxn v ord sc s) :=
  ends_broadcast rfl h

theorem ends_execVamoSwap {v ord sc} {s : State} (h : s.mem.wf = true) : Ends Canonical (execVamoSwap v ord sc s) :=
  ends_broadcast rfl h

theorem ends_execAdecl {wa} {s : State} (h : s.mem.wf = true) : Ends Canonical (execAdecl wa s) :=
  ends_broadcast rfl h

theorem ends_execAmerge {wa} {s : State} (h : s.mem.wf = true) : Ends Canonical (execAmerge wa s) :=
  ends_broadcast rfl h

theorem ends_execRflush {sc} {s : State} (h : s.mem.wf = true) : Ends Canonical (execRflush sc s) :=
  ends_frontM
    (keepsM_bind_get fun _ _ =>
     .bind keepsM_waitFor fun _ => keepsM_modify fun _ h2 => wf_done (wf_deliverResiduals h2))
    h

theorem ends_execBany {wa off} {s : State} (h : s.mem.wf = true) : Ends Canonical (execBany wa off s) :=
  ends_condBranch rfl h

theorem ends_execBall {wa off} {s : State} (h : s.mem.wf = true) : Ends Canonical (execBall wa off s) :=
  ends_condBranch rfl h

theorem ends_execBnone {wa off} {s : State} (h : s.mem.wf = true) : Ends Canonical (execBnone wa off s) :=
  ends_condBranch rfl h

/-! ### One instruction or event -/

theorem ends_exec {i} {s : State} (h : s.mem.wf = true) : Ends Canonical (exec i s) := by
  unfold exec
  split
  · exact ends_execAdd h
  · exact ends_execSub h
  · exact ends_execMul h
  · exact ends_execMulh h
  · exact ends_execMulhn h
  · exact ends_execDiv h
  · exact ends_execDivn h
  · exact ends_execRem h
  · exact ends_execRemn h
  · exact ends_execAnd h
  · exact ends_execOr h
  · exact ends_execXor h
  · exact ends_execAndn h
  · exact ends_execSll h
  · exact ends_execSrl h
  · exact ends_execSra h
  · exact ends_execSlt h
  · exact ends_execSltn h
  · exact ends_execMin h
  · exact ends_execMax h
  · exact ends_execMinn h
  · exact ends_execMaxn h
  · exact ends_execClz h
  · exact ends_execCtz h
  · exact ends_execPopc h
  · exact ends_execSext h
  · exact ends_execZext h
  · exact ends_execLdk h
  · exact ends_execLd h
  · exact ends_execSt h
  · exact ends_execScas h
  · exact ends_execSamoAdd h
  · exact ends_execVamoAdd h
  · exact ends_execSamoAnd h
  · exact ends_execVamoAnd h
  · exact ends_execSamoOr h
  · exact ends_execVamoOr h
  · exact ends_execSamoXor h
  · exact ends_execVamoXor h
  · exact ends_execSamoMin h
  · exact ends_execVamoMin h
  · exact ends_execSamoMax h
  · exact ends_execVamoMax h
  · exact ends_execSamoMinn h
  · exact ends_execVamoMinn h
  · exact ends_execSamoMaxn h
  · exact ends_execVamoMaxn h
  · exact ends_execSamoSwap h
  · exact ends_execVamoSwap h
  · exact ends_execBeq h
  · exact ends_execBne h
  · exact ends_execBlt h
  · exact ends_execBge h
  · exact ends_execBltn h
  · exact ends_execBgen h
  · exact ends_execJal h
  · exact ends_execJalr h
  · exact ends_execWait h
  · exact ends_execHalt h
  · exact ends_execNop h
  · exact ends_execCsrr h
  · exact ends_execCsrw h
  · exact ends_execCsrs h
  · exact ends_execCsrc h
  · exact ends_execWset h
  · exact ends_execWget h
  · exact ends_execWcpy h
  · exact ends_execSetvl h
  · exact ends_execStrip h
  · exact ends_execBany h
  · exact ends_execBall h
  · exact ends_execBnone h
  · exact ends_execOwnq h
  · exact ends_execLanex h
  · exact ends_execVadd h
  · exact ends_execVsub h
  · exact ends_execVmul h
  · exact ends_execVfma h
  · exact ends_execVfms h
  · exact ends_execVfnma h
  · exact ends_execVmin h
  · exact ends_execVmax h
  · exact ends_execVabs h
  · exact ends_execVneg h
  · exact ends_execVrcp h
  · exact ends_execVrsq h
  · exact ends_execVexp2 h
  · exact ends_execVlog2 h
  · exact ends_execVand h
  · exact ends_execVor h
  · exact ends_execVxor h
  · exact ends_execVnot h
  · exact ends_execVsll h
  · exact ends_execVsrl h
  · exact ends_execVsra h
  · exact ends_execVceq h
  · exact ends_execVcne h
  · exact ends_execVclt h
  · exact ends_execVcle h
  · exact ends_execVsel h
  · exact ends_execVmov h
  · exact ends_execVfill h
  · exact ends_execViota h
  · exact ends_execVredAdd h
  · exact ends_execVredMax h
  · exact ends_execVredMin h
  · exact ends_execVscanAdd h
  · exact ends_execVscanMax h
  · exact ends_execVscanMin h
  · exact ends_execVgather h
  · exact ends_execVscatter h
  · exact ends_execVcompact h
  · exact ends_execVexpand h
  · exact ends_execVacc h
  · exact ends_execVcvt h
  · exact ends_execMload h
  · exact ends_execMswap h
  · exact ends_execMma h
  · exact ends_execMrecast h
  · exact ends_execMinval h
  · exact ends_execAdecl h
  · exact ends_execAmerge h
  · exact ends_execRflush h
  · exact ends_execCpy h
  · exact ends_execCpyt h
  · exact ends_execCpyg h
  · exact ends_execCpys h
  · exact ends_execCpyf h
  · exact ends_execCpym h
  · exact ends_execSprog h
  · exact ends_execSrun h
  · exact ends_execChase h
  · exact ends_execFence h
  · exact ends_execSrel h
  · exact ends_execSacq h
  · exact ends_execGjoin h
  · exact ends_execGleave h
  · exact ends_execGbar h
  · exact ends_execQpush h
  · exact ends_execQpop h
  · exact ends_execQdrainWait h
  · exact ends_execQdrainDiscard h
  · exact ends_execTrap h
  · exact ends_execEret h
  · exact ends_execWfeWait h
  · exact ends_execWfeYield h
  · exact ends_execWsave h
  · exact ends_execWrest h
  · exact ends_execIsave h
  · exact ends_execIrest h
  · exact ends_execTlbinv h
  · exact ends_execTlbprb h
  · exact ends_execPmig h
  · exact ends_execLogctlStatus h
  · exact ends_execLogctlPolicy h
  · exact ends_execLogctlBudget h
  · exact ends_execLogmark h
  · exact ends_execLogsync h
  · exact ends_execLqtailWrite h
  · exact ends_execLqcfgWrite h
  · exact ends_execLaunchRecord h
  · exact ends_execPlaceLaunch h
  · exact ends_execTerminateLaunch h
  · exact ends_execPretmoExpiry h
  · exact ends_execTimeSlice h
  · exact ends_execStreamResume h
  · exact ends_execBankBeginBroadcast h
  · exact ends_execBankRetire h
  · exact ends_execFloorDelivery h
  · exact ends_execTreeResultReturn h
  · exact ends_execPullRequest h
  · exact ends_execPullReply h
  · exact ends_execPullResend h
  · exact ends_execScalarAccess h
  · exact ends_execScalarReply h
  · exact ends_execSubbankDrowsy h
  · exact ends_execPreciseStop h
  · exact ends_execInterruptTaken h
  · exact ends_execHostint h
  · exact ends_execDieReset h
  · exact ends_execCopySector h
  · exact ends_execCopyWritePerform h
  · exact ends_execFollowOnAction h
  · exact ends_execActionReserve h
  · exact ends_execTokenWrite h
  · exact ends_execSrunStart h
  · exact ends_execSrunEnd h
  · exact ends_execChaseHop h
  · exact ends_execAccumMessage h
  · exact ends_execAccumAnswer h
  · exact ends_execResidualIdleExpiry h
  · exact ends_execQuotaInterval h
  · exact ends_execHintActivate h
  · exact ends_execHintRowClose h
  · exact ends_execRefreshDue h
  · exact ends_execSelfRefreshEntry h
  · exact ends_execSelfRefreshExit h
  · exact ends_execLayerFailure h
  · exact ends_execSrmret h
  · exact ends_execPageWalk h
  · exact ends_execShootdownReceive h
  · exact ends_execPrmctlGo h
  · exact ends_execPromotionDone h
  · exact ends_execLogRecord h
  · exact ends_execLogTailPoll h
  · exact ends_execReplayConsume h
  · exact ends_execReplayHeadPoll h
  · exact ends_execReplayBudgetExpiry h
  · exact ends_execFlitReceive h
  · exact ends_execFlitResend h
  · exact ends_execTokenPass h
  · exact ends_execGovernorLevel h
  · exact ends_execEmptyFlit h
  · exact ends_execFibrePark h
  · exact ends_execFibreWake h
  · exact ends_execWakeLock h
  · exact ends_execBar2Access h
  · exact ends_execHostMemoryCompletion h
  · exact ends_execAttestation h
  · exact ends_execAttestTimeout h
  · exact ends_execKeyRollover h
  · exact ends_execKeyErase h
  · exact ends_execLkrekey h
  · exact ends_execPeerAttestation h
  · exact ends_execDebugHalt h
  · exact ends_execDebugResume h
  · exact ends_execDebugStep h
  · exact ends_execDebugReadRegister h
  · exact ends_execDebugWriteRegister h
  · exact ends_execDebugReadMemory h
  · exact ends_execDebugWriteMemory h
  · exact ends_execDebugForward h
  · exact ends_execDebugPeerTimeout h
  · exact ends_execTraceRecord h
  · exact ends_execStallReport h
  · exact ends_execBringUp h
  · exact ends_execMemgo h
  · exact ends_execMemgoTimeout h
  · exact ends_execUnitRepair h
  · exact ends_execSpareRepair h
  · exact ends_execHubFailover h
  · exact ends_execThrottle h
  · exact ends_execTrip h
  · exact ends_execUpdctlGo h
  · exact ends_execRegisterWrite h
  · exact ends_execPowerLoss h
  · exact ends_execPeerReset h
  · exact ends_execDebugPeerReply h
  · exact ends_execImageStaged h

/-! ### A turn of a stream -/

theorem wf_cacheWord {s : State} (h : s.mem.wf = true) {va w} : (cacheWord s va w).mem.wf = true :=
  h

theorem keepsM_pickWord {va w} : KeepsM Canonical (pickWord va w) := by
  unfold pickWord
  refine keepsM_bind_get fun s h => ?_
  split
  · exact .bind (keepsM_set (wf_cacheWord h)) fun _ => keepsM_pure _
  · dsimp only
    refine keepsM_ite (keepsM_pure _) <|
      .bind (keepsM_set (wf_ite ?_ (wf_cacheWord ?_))) fun _ => keepsM_pure _
    all_goals exact h

theorem keepsM_fetchWord {va} : KeepsM Canonical (fetchWord va) :=
  keepsM_bind_get fun _ _ =>
    .bind keepsM_xlate fun _ =>
    .bind keepsM_keysM fun _ =>
    keepsM_bind_get fun _ _ => .bind (keepsM_need _ _) fun _ => keepsM_pickWord

theorem keepsM_fetchM : KeepsM Canonical fetchM := by
  unfold fetchM
  refine keepsM_bind_get fun s h =>
    .bind keepsM_fetchWord fun a =>
    keepsM_ite (.bind keepsM_fetchWord fun a1 => ?_) (.bind (keepsM_pure _) fun a1 => ?_)
  all_goals
    dsimp only
    split
    · exact keepsM_pure _
    · exact keepsM_trapM

theorem ends_runFront {s : State} (h : s.mem.wf = true) : Ends Canonical (runFront s) := by
  unfold runFront
  split
  · exact ends_ite (ends_exec (wf_of_exec keepsM_fetchM h ‹_›)) <|
      ends_next (wf_of_exec keepsM_fetchM h ‹_›)
  · exact ends_trapHere (wf_of_exec keepsM_fetchM h ‹_›)
  · exact ends_next (wf_of_exec keepsM_fetchM h ‹_›)

theorem ends_joinTurn {g} {s : State} (h : s.mem.wf = true) : Ends Canonical (joinTurn g s) := by
  unfold joinTurn
  dsimp only
  refine ends_ite (ends_trapHere ?_) <|
    ends_frontM (.bind keepsM_admitOp fun a => keepsM_modify fun s1 h1 => ?_) h
  · exact h
  · exact wf_joinGroup h1

theorem someWf_loggedStop {s : State} (h : s.mem.wf = true) : SomeWf (loggedStop s) := by
  unfold loggedStop
  refine someWf_ite someWf_none ?_
  split
  · refine someWf_ite ?_ someWf_none
    split
    · exact someWf_some (wf_of_waits (wf_settleStop h) ‹_›)
    · refine someWf_ite ?_ someWf_none
      split
      dsimp only
      refine someWf_some (wf_takePreempt ?_)
      dsimp only
      exact wf_setLog (wf_of_eq (wf_consume h) ‹_›)
  · exact someWf_none

theorem ends_frontTurn {s : State} (h : s.mem.wf = true) : Ends Canonical (frontTurn s) := by
  unfold frontTurn
  refine ends_ite (ends_next (wf_lateDieStop h)) <|
    ends_ite (ends_next (wf_stopFound h)) <|
    ends_ite (ends_next (wf_lateStop h)) <|
    ends_ite (ends_next (wf_haltFront h)) <|
    ends_ite (ends_next h) <|
    ends_ite (ends_next (wf_takeInterrupt h)) <|
    ends_ite (ends_next (wf_resumeB h)) (ends_ite (ends_next h) ?_)
  split
  · exact ends_next (SomeWf.of (someWf_loggedStop h) ‹_›)
  · split
    · exact ends_joinTurn h
    · exact ends_runFront h

theorem ends_passTurn {o} (ho : Ends Canonical o) : Ends Canonical (passTurn o) := by
  unfold passTurn
  split
  · exact ends_next (wf_rotate (wf_of_next ho rfl))
  · exact ho

theorem ends_takeEvent {e} {s : State} (h : s.mem.wf = true) : Ends Canonical (takeEvent e s) :=
  ends_ite (ends_exec h) (ends_next h)

/-! ### A step -/

theorem ends_step {s : State} (h : s.mem.wf = true) : Ends Canonical (step s) := by
  unfold step
  split
  · exact ends_takeEvent h
  · split
    · exact ends_next (SomeWf.of (someWf_distributor h) ‹_›)
    · exact ends_ite (ends_passTurn (ends_frontTurn h)) (ends_next (wf_rotate h))

/-- Settles O59: memory changes only through the operations of `Memory`, each of which keeps the canonical form, and the
lemmas above follow every function of the step down to them. -/
theorem stepKeepsCanonical : Obligations.StepKeepsCanonical := by
  intro s h
  exact ends_step h

end Sys2Proof.Proofs
end

section
/-! The formats of instruction words and the codes of their fields (R46 to R57): packing and unpacking are inverse. -/

namespace Sys2Proof.Proofs

open Sys2Proof BitVec

theorem FA.unpack_pack (f : FA) : FA.unpack f.pack = f := by
  obtain ⟨maj, fn, sd, sa, sb, w, imm⟩ := f
  simp only [FA.unpack, FA.pack, FA.mk.injEq]
  refine ⟨?maj, ?_, ?_, ?_, ?_, ?_, ?_⟩
  case maj =>
    repeat rw [extractLsb'_append_eq_of_le (by decide)]
    exact extractLsb'_eq_self
  all_goals
    repeat rw [extractLsb'_append_eq_of_le (by decide)]
    exact extractLsb'_append_eq_right

theorem FA.pack_unpack (x : Word) : (FA.unpack x).pack = x := by
  simp only [FA.unpack, FA.pack]
  repeat rw [extractLsb'_append_extractLsb'_eq_extractLsb' (by decide)]
  exact extractLsb'_eq_self

theorem FV.unpack_pack (f : FV) : FV.unpack f.pack = f := by
  obtain ⟨maj, fb, fn, wd, wa, wb, wc, wm, rm, sat, amod, fill, gsz, imm⟩ := f
  simp only [FV.unpack, FV.pack, FV.mk.injEq]
  refine ⟨?maj, ?_, ?_, ?_, ?_, ?_, ?_, ?_, ?_, ?_, ?_, ?_, ?_, ?_⟩
  case maj =>
    repeat rw [extractLsb'_append_eq_of_le (by decide)]
    exact extractLsb'_eq_self
  all_goals
    repeat rw [extractLsb'_append_eq_of_le (by decide)]
    exact extractLsb'_append_eq_right

theorem FV.pack_unpack (x : Word) : (FV.unpack x).pack = x := by
  simp only [FV.unpack, FV.pack]
  repeat rw [extractLsb'_append_extractLsb'_eq_extractLsb' (by decide)]
  exact extractLsb'_eq_self

theorem maj_unpack_FV_pack (f : FV) : (FA.unpack f.pack).maj = f.maj := congrArg FV.maj (FV.unpack_pack f)

theorem FT.unpack_pack (f : FT) : FT.unpack f.pack = f := by
  obtain ⟨maj, fn, wd, wa, wb, pair, z1, wm, rm, sat, z2, kb⟩ := f
  simp only [FT.unpack, FT.pack, FT.mk.injEq]
  refine ⟨?maj, ?_, ?_, ?_, ?_, ?_, ?_, ?_, ?_, ?_, ?_, ?_⟩
  case maj =>
    repeat rw [extractLsb'_append_eq_of_le (by decide)]
    exact extractLsb'_eq_self
  all_goals
    repeat rw [extractLsb'_append_eq_of_le (by decide)]
    exact extractLsb'_append_eq_right

theorem FT.pack_unpack (x : Word) : (FT.unpack x).pack = x := by
  simp only [FT.unpack, FT.pack]
  repeat rw [extractLsb'_append_extractLsb'_eq_extractLsb' (by decide)]
  exact extractLsb'_eq_self

theorem maj_unpack_FT_pack (f : FT) : (FA.unpack f.pack).maj = f.maj := congrArg FT.maj (FT.unpack_pack f)

theorem FC.unpack_pack (f : FC) : FC.unpack f.pack = f := by
  obtain ⟨maj, fn, st, wd, ws, wx, scope, follow, mcast, imm⟩ := f
  simp only [FC.unpack, FC.pack, FC.mk.injEq]
  refine ⟨?maj, ?_, ?_, ?_, ?_, ?_, ?_, ?_, ?_, ?_⟩
  case maj =>
    repeat rw [extractLsb'_append_eq_of_le (by decide)]
    exact extractLsb'_eq_self
  all_goals
    repeat rw [extractLsb'_append_eq_of_le (by decide)]
    exact extractLsb'_append_eq_right

theorem FC.pack_unpack (x : Word) : (FC.unpack x).pack = x := by
  simp only [FC.unpack, FC.pack]
  repeat rw [extractLsb'_append_extractLsb'_eq_extractLsb' (by decide)]
  exact extractLsb'_eq_self

theorem maj_unpack_FC_pack (f : FC) : (FA.unpack f.pack).maj = f.maj := congrArg FC.maj (FC.unpack_pack f)

theorem FS.unpack_pack (f : FS) : FS.unpack f.pack = f := by
  obtain ⟨maj, fn, sd, sa, sb, scope, imm⟩ := f
  simp only [FS.unpack, FS.pack, FS.mk.injEq]
  refine ⟨?maj, ?_, ?_, ?_, ?_, ?_, ?_⟩
  case maj =>
    repeat rw [extractLsb'_append_eq_of_le (by decide)]
    exact extractLsb'_eq_self
  all_goals
    repeat rw [extractLsb'_append_eq_of_le (by decide)]
    exact extractLsb'_append_eq_right

theorem FS.pack_unpack (x : Word) : (FS.unpack x).pack = x := by
  simp only [FS.unpack, FS.pack]
  repeat rw [extractLsb'_append_extractLsb'_eq_extractLsb' (by decide)]
  exact extractLsb'_eq_self

theorem maj_unpack_FS_pack (f : FS) : (FA.unpack f.pack).maj = f.maj := congrArg FS.maj (FS.unpack_pack f)

/-! ### Codes -/

@[simp] theorem Width.ofCode_code (w : Width) : Width.ofCode w.code = w := by cases w <;> rfl
@[simp] theorem Fmt.ofCode_code (f : Fmt) : Fmt.ofCode f.code = some f := by cases f <;> rfl
@[simp] theorem Rm.ofCode_code (r : Rm) : Rm.ofCode r.code = some r := by cases r <;> rfl
@[simp] theorem Scope.ofCode_code (s : Scope) : Scope.ofCode s.code = s := by cases s <;> rfl
@[simp] theorem MemOrder.ofCode_code (o : MemOrder) : MemOrder.ofCode o.code = some o := by cases o <;> rfl
@[simp] theorem Blk.ofCode_code (b : Blk) : Blk.ofCode b.code = some b := by cases b <;> rfl
@[simp] theorem AMod.ofCode_code (a : AMod) : AMod.ofCode a.code = some a := by cases a <;> rfl

@[simp] theorem Width.code_ofCode (c : BitVec 2) : (Width.ofCode c).code = c := by revert c; decide
@[simp] theorem Scope.code_ofCode (c : BitVec 3) : (Scope.ofCode c).code = c := by revert c; decide

theorem Fmt.code_of_ofCode {c : BitVec 5} {f : Fmt} (h : Fmt.ofCode c = some f) : f.code = c := by revert c f; decide
theorem Rm.code_of_ofCode {c : BitVec 3} {r : Rm} (h : Rm.ofCode c = some r) : r.code = c := by revert c r; decide
theorem MemOrder.code_of_ofCode {c : BitVec 2} {o : MemOrder} (h : MemOrder.ofCode c = some o) : o.code = c := by
  revert c o; decide
theorem Blk.code_of_ofCode {c : BitVec 3} {b : Blk} (h : Blk.ofCode c = some b) : b.code = c := by revert c b; decide
theorem AMod.code_of_ofCode {c : BitVec 3} {a : AMod} (h : AMod.ofCode c = some a) : a.code = c := by revert c a; decide

@[simp] theorem bit1_beq_one (b : Bool) : (bit1 b == 1) = b := by cases b <;> rfl
@[simp] theorem bit1_of_beq (x : BitVec 1) : bit1 (x == 1) = x := by revert x; decide
end Sys2Proof.Proofs
end

section
/-! What a decoded word is (R43 to R45, R68): a well-formed instruction of a stream whose one word it is. One lemma for
each group of majors, by the cases of its decoder. -/

namespace Sys2Proof.Proofs

open Sys2Proof Sys2Proof.Machine BitVec

/-- The one word of a well-formed instruction of a stream. -/
def IsWord (i : Instr) (x : Word) : Prop := i.wellFormed = true ∧ isEvent i = false ∧ encode i = [x]

theorem verdict_eq_ok {z r g : Bool} {i j : Instr} :
    verdict z r g i = .ok j ↔ z = true ∧ r = true ∧ g = true ∧ i = j := by
  cases z <;> cases r <;> cases g <;> simp [verdict]

theorem eq_of_toNat {n k : Nat} {x : BitVec n} (h : x.toNat = k) : x = BitVec.ofNat n k := by
  rw [← h, BitVec.ofNat_toNat, BitVec.setWidth_eq]

/-- A field is its top bit and the rest. -/
theorem top_append_low (x : BitVec 6) : x.extractLsb' 5 1 ++ x.extractLsb' 0 5 = x := by
  rw [extractLsb'_append_extractLsb'_eq_extractLsb' (by decide)]
  exact extractLsb'_eq_self

/-! ### Scalar ALU -/

theorem encAlu_of_fields {f : FA} {op : BitVec 5} (hm : f.maj = 0) (hop : (f.fn.extractLsb' 0 5).toNat = op.toNat)
    (hz : (if f.fn.extractLsb' 5 1 = 1 then f.sb == 0 else f.imm == 0) = true) :
    encAlu op (Width.ofCode f.w) f.sd f.sa (if f.fn.extractLsb' 5 1 = 1 then .imm f.imm else .reg f.sb) = f.pack := by
  have hfn := top_append_low f.fn
  rw [BitVec.eq_of_toNat_eq hop] at hfn
  obtain ⟨maj, fn, sd, sa, sb, w, imm⟩ := f
  dsimp only at hm hz hfn ⊢
  subst hm
  split at hz
  · next h => rw [if_pos h, ← hfn, h, eq_of_beq hz]; simp [encAlu]
  · next h =>
    have h0 : fn.extractLsb' 5 1 = 0 := by revert h; generalize fn.extractLsb' 5 1 = b; revert b; decide
    rw [if_neg h, ← hfn, h0, eq_of_beq hz]; simp [encAlu]

theorem isWord_binary {f : FA} {i : Instr} {c : Width → SReg → SReg → AluB → Instr} {op : BitVec 5}
    (hm : f.maj = 0) (h : verdict (if f.fn.extractLsb' 5 1 = 1 then f.sb == 0 else f.imm == 0) true true
      (c (Width.ofCode f.w) f.sd f.sa (if f.fn.extractLsb' 5 1 = 1 then .imm f.imm else .reg f.sb)) = .ok i)
    (hc : ∀ w sd sa b, IsWord (c w sd sa b) (encAlu op w sd sa b)) (hop : (f.fn.extractLsb' 0 5).toNat = op.toNat) :
    IsWord i f.pack := by
  obtain ⟨hz, -, -, rfl⟩ := verdict_eq_ok.1 h
  rw [← encAlu_of_fields hm hop hz]
  exact hc _ _ _ _

theorem isWord_unary {f : FA} {i : Instr} {c : Width → SReg → SReg → Instr} {op : BitVec 5}
    (hm : f.maj = 0) (h : verdict (f.sb == 0 && f.imm == 0) true (!(f.fn.extractLsb' 5 1 == 1)) (c (Width.ofCode f.w) f.sd f.sa) = .ok i)
    (hc : ∀ w sd sa, IsWord (c w sd sa) (encAlu op w sd sa (.reg 0))) (hop : (f.fn.extractLsb' 0 5).toNat = op.toNat) :
    IsWord i f.pack := by
  obtain ⟨hz, -, hb, rfl⟩ := verdict_eq_ok.1 h
  simp only [Bool.and_eq_true, beq_iff_eq, Bool.not_eq_true', beq_eq_false_iff_ne] at hz hb
  rw [← encAlu_of_fields hm hop (by simp [hz]), if_neg hb, hz.1]
  exact hc _ _ _

theorem isWord_of_decodeAlu {f : FA} {i : Instr} (hm : f.maj = 0) (h : decodeAlu f = .ok i) : IsWord i f.pack := by
  unfold decodeAlu at h
  dsimp only at h
  split at h
  iterate 22 next hop => exact isWord_binary hm h (fun _ _ _ _ => ⟨rfl, rfl, rfl⟩) hop
  iterate 5 next hop => exact isWord_unary hm h (fun _ _ _ => ⟨rfl, rfl, rfl⟩) hop
  next => cases h

/-! ### Branches, control, memory, atomics -/

theorem isWord_of_decodeBranch {f : FA} {i : Instr} (hm : f.maj = 2) (h : decodeBranch f = .ok i) : IsWord i f.pack := by
  obtain ⟨maj, fn, sd, sa, sb, w, imm⟩ := f
  unfold decodeBranch at h
  dsimp only at h hm
  subst hm
  split at h
  iterate 6 next hfn =>
    obtain ⟨hz, -, -, rfl⟩ := verdict_eq_ok.1 h
    simp only [Bool.and_eq_true, beq_iff_eq] at hz
    obtain ⟨rfl, rfl⟩ := hz
    exact ⟨rfl, rfl, by rw [eq_of_toNat hfn]; rfl⟩
  next => cases h

theorem setWidth_low {x : BitVec 32} (h : x.extractLsb' 12 20 = 0) : (x.extractLsb' 0 12).setWidth 32 = x := by
  have hx : x.extractLsb' 12 20 ++ x.extractLsb' 0 12 = x := by
    rw [extractLsb'_append_extractLsb'_eq_extractLsb' (by decide)]; exact extractLsb'_eq_self
  rw [← hx, h, BitVec.extractLsb'_append_eq_right]
  exact BitVec.setWidth_eq_append (by decide)

theorem isWord_of_decodeCtl {f : FA} {i : Instr} (hm : f.maj = 3) (h : decodeCtl f = .ok i) : IsWord i f.pack := by
  obtain ⟨maj, fn, sd, sa, sb, w, imm⟩ := f
  unfold decodeCtl at h
  dsimp only at h hm
  subst hm
  split at h
  case h_10 => cases h
  all_goals
    next hfn =>
      obtain ⟨hz, -, hg, rfl⟩ := verdict_eq_ok.1 h
      have hfn := eq_of_toNat hfn
      simp only [Bool.and_eq_true, beq_iff_eq] at hz
      refine ⟨?_, rfl, ?_⟩
      · exact hg
      · simp [encode, encFA, hfn, hz, setWidth_low]

theorem isWord_of_ldk {f : FA} (hm : f.maj = 1) (hfn : f.fn = 0)
    (hz : (f.sa == 0 && f.sb == 0 && f.w == 0 && f.imm == 0) = true) (k : Word) : encode (.ldk f.sd k) = [f.pack, k] := by
  simp only [Bool.and_eq_true, beq_iff_eq] at hz
  obtain ⟨⟨⟨hsa, hsb⟩, hw⟩, himm⟩ := hz
  simp only [encode, encFA, FA.pack, hm, hfn, hsa, hsb, hw, himm]

/-- The FN field of a memory word from its parts (R48). -/
theorem fm_fields {f : FA} {o : MemOrder} (h : fmOrd f = some o) : bit1 (fmSg f) ++ o.code ++ (fmScope f).code = f.fn := by
  rw [MemOrder.code_of_ofCode h, fmSg, fmScope, bit1_of_beq, Scope.code_ofCode]
  repeat rw [extractLsb'_append_extractLsb'_eq_extractLsb' (by decide)]
  exact extractLsb'_eq_self

theorem isWord_of_decodeLd {f : FA} {i : Instr} (hm : f.maj = 4) (h : decodeLd f = .ok i) : IsWord i f.pack := by
  unfold decodeLd at h
  split at h
  · next o ho =>
    obtain ⟨hz, -, hg, rfl⟩ := verdict_eq_ok.1 h
    refine ⟨hg, rfl, ?_⟩
    simp [encode, encFM, encFA, fm_fields ho, ← hm, ← eq_of_beq hz]
  · split at h <;> cases h

theorem isWord_of_decodeSt {f : FA} {i : Instr} (hm : f.maj = 5) (h : decodeSt f = .ok i) : IsWord i f.pack := by
  unfold decodeSt at h
  split at h
  · next o ho =>
    obtain ⟨hz, -, hg, rfl⟩ := verdict_eq_ok.1 h
    simp only [Bool.and_eq_true, Bool.not_eq_true'] at hg
    refine ⟨hg.1, rfl, ?_⟩
    simp [encode, encFM, encFA, ← hg.2, fm_fields ho, ← hm, ← eq_of_beq hz]
  · split at h <;> cases h

/-- W of an atomic: 64 or 32 bits (R151). -/
theorem width_word_of_code_lt {w : BitVec 2} (h : decide (w.toNat < 2) = true) :
    (Width.ofCode w == .w64 || Width.ofCode w == .w32) = true := by revert w; decide

theorem isWord_of_decodeAtom {f : FA} {i : Instr} {c : AtomArgs → Instr} {maj : BitVec 6} (hm : f.maj = maj)
    (h : decodeAtom f c = .ok i) (hw : ∀ a, (c a).wellFormed = atomOk a) (he : ∀ a, isEvent (c a) = false)
    (hc : ∀ a, encode (c a) = [encAtom maj a]) : IsWord i f.pack := by
  unfold decodeAtom at h
  split at h
  · next o ho =>
    obtain ⟨-, -, hg, rfl⟩ := verdict_eq_ok.1 h
    refine ⟨?_, he _, ?_⟩
    · rw [hw]
      exact width_word_of_code_lt hg
    · simp [hc, encAtom, encFM, encFA, fm_fields ho, ← hm]
  · cases h

/-! ### Windows, owners -/

theorem wreg_wlo {r : BitVec 6} (h : w5 r = true) : wreg (wlo r) = r := by revert r; decide

theorem ite_of_low_bit {n : Nat} {x : BitVec n} (h : x = 0 ∨ x = 1) : (if x = 1 then 1 else 0) = x := by
  rcases h with rfl | rfl
  · split
    · next h => exact h.symm
    · rfl
  · exact if_pos rfl

theorem isWord_of_decodeWin {f : FA} {i : Instr} (hm : f.maj = 0x10) (h : decodeWin f = .ok i) : IsWord i f.pack := by
  obtain ⟨maj, fn, sd, sa, sb, w, imm⟩ := f
  unfold decodeWin at h
  dsimp only at h hm
  subst hm
  split at h
  case h_9 => cases h
  case h_2 hfn =>
    obtain ⟨hz, -, hg, rfl⟩ := verdict_eq_ok.1 h
    simp only [Bool.and_eq_true, Bool.or_eq_true, beq_iff_eq] at hz hg
    refine ⟨rfl, rfl, ?_⟩
    simp only [encode, encFA, beq_iff_eq, ite_of_low_bit hg, eq_of_toNat hfn, wreg_wlo hz.2, hz.1]
    rfl
  case h_4 hfn =>
    split at h
    · next m b hmt hbl =>
      obtain ⟨hz, -, -, rfl⟩ := verdict_eq_ok.1 h
      simp only [Bool.and_eq_true, beq_iff_eq] at hz
      obtain ⟨⟨⟨hw, hsb⟩, hmid⟩, htop⟩ := hz
      have himm : (0 : BitVec 21) ++ b.code ++ (0 : BitVec 3) ++ m.code = imm := by
        rw [← htop, ← hmid, Fmt.code_of_ofCode hmt, Blk.code_of_ofCode hbl]
        repeat rw [extractLsb'_append_extractLsb'_eq_extractLsb' (by decide)]
        exact extractLsb'_eq_self
      refine ⟨rfl, rfl, ?_⟩
      simp only [encode, encFA, himm, eq_of_toNat hfn, hw, hsb]
      rfl
    · split at h <;> cases h
  all_goals
    next hfn =>
      obtain ⟨hz, -, -, rfl⟩ := verdict_eq_ok.1 h
      have hfn := eq_of_toNat hfn
      simp only [Bool.and_eq_true, beq_iff_eq] at hz
      refine ⟨rfl, rfl, ?_⟩
      simp [encode, encFA, hfn, hz, wreg_wlo]

theorem isWord_of_decodeOwn {f : FA} {i : Instr} (hm : f.maj = 0x11) (h : decodeOwn f = .ok i) : IsWord i f.pack := by
  obtain ⟨maj, fn, sd, sa, sb, w, imm⟩ := f
  unfold decodeOwn at h
  dsimp only at h hm
  split at h
  · next hfn =>
    obtain ⟨hz, -, -, rfl⟩ := verdict_eq_ok.1 h
    simp only [Bool.and_eq_true, beq_iff_eq] at hz
    obtain ⟨⟨hw, hsb⟩, htop⟩ := hz
    have himm : (0 : BitVec 28) ++ imm.extractLsb' 0 4 = imm := by
      rw [← htop, extractLsb'_append_extractLsb'_eq_extractLsb' (by decide)]
      exact extractLsb'_eq_self
    refine ⟨rfl, rfl, ?_⟩
    simp only [encode, encFA, himm, eq_of_toNat hfn, hw, hsb, hm]
    rfl
  · cases h

end Sys2Proof.Proofs
end

section
/-! What a decoded vector, matrix, copy, synchronisation or system word is (R61 to R65). -/

namespace Sys2Proof.Proofs

open Sys2Proof Sys2Proof.Machine BitVec

/-! ### Vector words -/

/-- The fields that hold the operands of a vector instruction (R49, R56, R57). -/
def vFields (maj : BitVec 6) (sel : BitVec 5) (imm : BitVec 16) (v : VArgs) : FV :=
  { maj := maj, fb := bit1 v.sb, fn := v.fmt.code, wd := v.wd, wa := v.wa, wb := v.wb, wc := sel, wm := v.wm,
    rm := v.rm.code, sat := bit1 v.sat, amod := v.amod.code, fill := bit1 v.fill, gsz := v.gsz, imm := imm }

theorem encV_eq (maj : BitVec 6) (sel : BitVec 5) (imm : BitVec 16) (v : VArgs) : encV maj sel imm v = (vFields maj sel imm v).pack :=
  rfl

/-- A vector word that decodes is the word of its operands, with the selector of its mnemonic where WC is no window. -/
theorem fields_of_decodeV {f : FV} {u : VUse} {sel : BitVec 5} {c : VArgs → Instr} {i : Instr} (h : decodeV f u sel c = .ok i) :
    ∃ v, i = c v ∧ (c v).wellFormed = true ∧ f = vFields f.maj f.wc f.imm v ∧ v.imm = f.imm ∧
      f.wc = if u.c = true then v.wc else sel := by
  unfold decodeV at h
  dsimp only at h
  split at h
  · next m r am hm hr ha =>
    obtain ⟨hz, -, hw, rfl⟩ := verdict_eq_ok.1 h
    simp only [Bool.and_eq_true, Bool.or_eq_true, beq_iff_eq] at hz
    obtain ⟨⟨-, hsel⟩, -⟩ := hz
    refine ⟨_, rfl, hw, ?_, rfl, ?_⟩
    · simp only [vFields, Fmt.code_of_ofCode hm, Rm.code_of_ofCode hr, AMod.code_of_ofCode ha, bit1_of_beq]
    · split
      · rfl
      · next hc => exact hsel.resolve_left hc
  · split at h
    · cases h
    · split at h <;> cases h

theorem isWord_of_decodeV {f : FV} {u : VUse} {sel : BitVec 5} {c : VArgs → Instr} {i : Instr} {maj : BitVec 6}
    (h : decodeV f u sel c = .ok i) (he : ∀ v, isEvent (c v) = false)
    (hc : ∀ v, encode (c v) = [encV maj (if u.c = true then v.wc else sel) v.imm v]) (hm : f.maj = maj) : IsWord i f.pack := by
  obtain ⟨v, rfl, hw, hf, himm, hwc⟩ := fields_of_decodeV h
  refine ⟨hw, he v, ?_⟩
  rw [hc, encV_eq, ← hwc, ← hm, himm, ← hf]

theorem isWord_of_decodeVcvt {f : FV} {i : Instr} (hm : f.maj = 0x1F) (h : decodeVcvt f = .ok i) : IsWord i f.pack := by
  unfold decodeVcvt at h
  split at h
  · next s hs =>
    rw [← Fmt.code_of_ofCode hs] at h
    exact isWord_of_decodeV h (fun _ => rfl) (fun _ => rfl) hm
  · split at h
    · cases h
    · next r hr => exact absurd h (hr i)

theorem isWord_of_decodeVamo {f : FV} {i : Instr} {c : VArgs → MemOrder → Scope → Instr} {sel : BitVec 5} (hm : f.maj = 0x3A)
    (h : decodeVamo f c = .ok i) (he : ∀ v o sc, isEvent (c v o sc) = false)
    (hc : ∀ v o sc, encode (c v o sc) = [encVamo sel v o sc]) (hsel : f.wc.toNat = sel.toNat) : IsWord i f.pack := by
  unfold decodeVamo at h
  dsimp only at h
  split at h
  · next o ho =>
    split at h
    · cases h
    · next hz =>
      obtain ⟨v, rfl, hw, hf, -, -⟩ := fields_of_decodeV h
      have himm : (0 : BitVec 11) ++ (f.imm.extractLsb' 2 3) ++ (f.imm.extractLsb' 0 2) = f.imm := by
        simp only [Bool.not_eq_true', Bool.not_eq_false, beq_iff_eq] at hz
        rw [← hz]
        repeat rw [extractLsb'_append_extractLsb'_eq_extractLsb' (by decide)]
        exact extractLsb'_eq_self
      have hpack : f = vFields 0x3A sel f.imm v := by
        rw [← hm, ← BitVec.eq_of_toNat_eq hsel]
        exact congrArg (fun g : FV => { g with imm := f.imm }) hf
      refine ⟨hw, he _ _ _, ?_⟩
      rw [hc, encVamo, MemOrder.code_of_ofCode ho, Scope.code_ofCode, himm, encV_eq]
      conv => rhs; rw [hpack]
      rfl
  · split at h
    · cases h
    · split at h <;> cases h

theorem ne_ok_of_noSelector {f : FV} {i : Instr} : noSelector f ≠ .ok i := by
  unfold noSelector
  split <;> nofun

theorem isWord_of_vamoOps {f : FV} {i : Instr} (hm : f.maj = 0x3A) (h : vamoOps f = .ok i) : IsWord i f.pack := by
  unfold vamoOps at h
  split at h
  iterate 9 next hsel => exact isWord_of_decodeVamo hm h (fun _ _ _ => rfl) (fun _ _ _ => rfl) hsel
  next => exact absurd h ne_ok_of_noSelector

theorem isWord_of_decodeVec {f : FV} {i : Instr} (h : decodeVec f = .ok i) : IsWord i f.pack := by
  unfold decodeVec at h
  split at h
  case h_14 hm => exact isWord_of_decodeVcvt (eq_of_toNat hm) h
  case h_26 hm => exact isWord_of_vamoOps (eq_of_toNat hm) h
  case h_27 => cases h
  case h_9 hm =>
    split at h
    iterate 6 next => exact isWord_of_decodeV h (fun _ => rfl) (fun _ => rfl) (eq_of_toNat hm)
    next => exact absurd h ne_ok_of_noSelector
  case h_10 hm =>
    split at h
    iterate 4 next => exact isWord_of_decodeV h (fun _ => rfl) (fun _ => rfl) (eq_of_toNat hm)
    next => exact absurd h ne_ok_of_noSelector
  case h_11 hm =>
    split at h
    iterate 3 next => exact isWord_of_decodeV h (fun _ => rfl) (fun _ => rfl) (eq_of_toNat hm)
    next => exact absurd h ne_ok_of_noSelector
  case h_12 hm =>
    split at h
    iterate 4 next => exact isWord_of_decodeV h (fun _ => rfl) (fun _ => rfl) (eq_of_toNat hm)
    next => exact absurd h ne_ok_of_noSelector
  case h_18 hm =>
    split at h
    iterate 3 next => exact isWord_of_decodeV h (fun _ => rfl) (fun _ => rfl) (eq_of_toNat hm)
    next => exact absurd h ne_ok_of_noSelector
  case h_19 hm =>
    split at h
    iterate 3 next => exact isWord_of_decodeV h (fun _ => rfl) (fun _ => rfl) (eq_of_toNat hm)
    next => exact absurd h ne_ok_of_noSelector
  all_goals next hm => exact isWord_of_decodeV h (fun _ => rfl) (fun _ => rfl) (eq_of_toNat hm)

/-! ### Matrix words -/

theorem top_bit_append_low {x : BitVec 6} {m : Fmt} (hm : Fmt.ofCode (x.extractLsb' 0 5) = some m)
    (h : (x.extractLsb' 5 1 == 0) = true) : (0 : BitVec 1) ++ m.code = x := by
  rw [Fmt.code_of_ofCode hm, ← eq_of_beq h, top_append_low]

theorem low_bit_append {x : BitVec 16} (h : x.extractLsb' 1 15 = 0) : (0 : BitVec 15) ++ x.extractLsb' 0 1 = x := by
  rw [← h, extractLsb'_append_extractLsb'_eq_extractLsb' (by decide)]
  exact extractLsb'_eq_self

theorem isWord_of_decodeMat {f : FT} {i : Instr} (h : decodeMat f = .ok i) : IsWord i f.pack := by
  obtain ⟨maj, fn, wd, wa, wb, pair, z1, wm, rm, sat, z2, kb⟩ := f
  have hbad (z : Bool) : (if (!z) = true then Decoded.illegal 3 else if (rm == 7) = true then .illegal 4 else .illegal 5) ≠ .ok i := by
    split
    · nofun
    · split <;> nofun
  unfold decodeMat at h
  dsimp only at h
  split at h
  case h_6 => cases h
  case h_1 hmaj =>
    split at h
    · next m hm ht =>
      obtain ⟨hz, -, hg, rfl⟩ := verdict_eq_ok.1 h
      simp only [Bool.and_eq_true, beq_iff_eq] at hz hg
      refine ⟨hg.2, rfl, ?_⟩
      simp only [encode, encMat, top_bit_append_low hm ht, eq_of_toNat hmaj, hz, hg, bit1_of_beq]
      rfl
    · exact absurd h (hbad _)
  case h_3 hmaj =>
    split at h
    · next m r hm ht hr =>
      obtain ⟨hz, -, hg, rfl⟩ := verdict_eq_ok.1 h
      simp only [Bool.and_eq_true, beq_iff_eq] at hz hg
      refine ⟨hg.2, rfl, ?_⟩
      simp only [encode, encMat, top_bit_append_low hm ht, Rm.code_of_ofCode hr, eq_of_toNat hmaj, hz, hg, bit1_of_beq]
      rfl
    · exact absurd h (hbad _)
  all_goals
    next hmaj =>
      split at h
      · cases h
      · next hfn =>
        obtain ⟨hz, -, hg, rfl⟩ := verdict_eq_ok.1 h
        simp only [Bool.and_eq_true, beq_iff_eq, bne_iff_ne, ne_eq, Classical.not_not] at hz hg hfn
        refine ⟨rfl, rfl, ?_⟩
        simp only [encode, encMat, eq_of_toNat hmaj, hz, hg, hfn, bit1_of_beq, low_bit_append]
        rfl

/-! ### Accumulates, copies -/

/-- The scopes of `rflush` are CELL and wider (R348). -/
theorem wellFormed_rflush_ofCode {c : BitVec 3} (h : decide (2 ≤ c.toNat) = true) : (Instr.rflush (Scope.ofCode c)).wellFormed = true := by
  revert c; decide

theorem isWord_of_decodeAcc {f : FS} {i : Instr} (hm : f.maj = 0x38) (h : decodeAcc f = .ok i) : IsWord i f.pack := by
  obtain ⟨maj, fn, sd, sa, sb, scope, imm⟩ := f
  unfold decodeAcc at h
  dsimp only at h hm
  split at h
  case h_4 => cases h
  case h_3 hfn =>
    obtain ⟨hz, -, hg, rfl⟩ := verdict_eq_ok.1 h
    simp only [Bool.and_eq_true, beq_iff_eq] at hz
    refine ⟨wellFormed_rflush_ofCode hg, rfl, ?_⟩
    · simp only [encode, encS, Scope.code_ofCode, eq_of_toNat hfn, hz, hm]
      rfl
  all_goals
    next hfn =>
      obtain ⟨hz, -, -, rfl⟩ := verdict_eq_ok.1 h
      simp only [Bool.and_eq_true, beq_iff_eq] at hz
      refine ⟨rfl, rfl, ?_⟩
      simp only [encode, encS, eq_of_toNat hfn, wreg_wlo hz.2, hz, hm]
      rfl

theorem isWord_of_decodeCopy {f : FC} {i : Instr} (hm : f.maj = 0x3C) (h : decodeCopy f = .ok i) : IsWord i f.pack := by
  obtain ⟨maj, fn, st, wd, ws, wx, scope, follow, mcast, imm⟩ := f
  unfold decodeCopy at h
  dsimp only at h hm
  split at h
  case h_10 => cases h
  all_goals
    next hfn =>
      obtain ⟨-, -, hg, rfl⟩ := verdict_eq_ok.1 h
      refine ⟨hg, rfl, ?_⟩
      simp only [encode, encC, Scope.code_ofCode, eq_of_toNat hfn, hm]
      rfl

/-! ### Synchronisation, system -/

theorem Scope.ofCode_beq (c : BitVec 3) (s : Scope) : (Scope.ofCode c == s) = (c == s.code) := by
  cases s <;> revert c <;> decide

/-- The scopes of a barrier, a queue and a TLB invalidation (R126, R129, R305). -/
theorem domain_or_module_ofCode {c : BitVec 3} (h : (c == 4 || c == 5) = true) :
    (Scope.ofCode c == .domain || Scope.ofCode c == .module) = true := by
  rw [Scope.ofCode_beq, Scope.ofCode_beq]; exact h

/-- The scopes of a page migration (R310). -/
theorem module_or_pod_ofCode {c : BitVec 3} (h : (c == 5 || c == 6) = true) :
    (Scope.ofCode c == .module || Scope.ofCode c == .pod) = true := by
  rw [Scope.ofCode_beq, Scope.ofCode_beq]; exact h

/-- A field whose upper bits are zero is the number in its lower ones. -/
theorem eq_ofNat_of_low {n k m j : Nat} {x : BitVec n} (hn : n ≤ k + m) (ht : x.extractLsb' k m = 0)
    (hl : (x.extractLsb' 0 k).toNat = j) : x = BitVec.ofNat n j := by
  have hx : x.toNat < 2 ^ k * 2 ^ m := by
    rw [← Nat.pow_add]
    exact Nat.lt_of_lt_of_le x.isLt (Nat.pow_le_pow_right (by decide) hn)
  have ht := congrArg BitVec.toNat ht
  rw [extractLsb'_toNat, Nat.shiftRight_eq_div_pow, Nat.mod_eq_of_lt (Nat.div_lt_of_lt_mul hx)] at ht
  rw [extractLsb'_toNat, Nat.shiftRight_zero] at hl
  have hlt : x.toNat < 2 ^ k := (Nat.div_eq_zero_iff_lt (Nat.two_pow_pos k)).1 ht
  rw [← hl, Nat.mod_eq_of_lt hlt, BitVec.ofNat_toNat, BitVec.setWidth_eq]

theorem toNat_bit_of_ne_zero {b : BitVec 1} (h : ¬ b = 0) : b.toNat = 1 := by revert b; decide

theorem isWord_of_decodeSync {f : FS} {i : Instr} (hm : f.maj = 0x3D) (h : decodeSync f = .ok i) : IsWord i f.pack := by
  obtain ⟨maj, fn, sd, sa, sb, scope, imm⟩ := f
  unfold decodeSync at h
  dsimp only at h hm
  split at h
  case h_10 => cases h
  case h_9 hfn =>
    split at h
    · next hd =>
      obtain ⟨hz, -, hg, rfl⟩ := verdict_eq_ok.1 h
      simp only [Bool.and_eq_true, beq_iff_eq] at hz hd
      refine ⟨domain_or_module_ofCode hg, rfl, ?_⟩
      simp only [encode, encS, Scope.code_ofCode, eq_of_toNat hfn, hz, hm, eq_ofNat_of_low (by decide) hz.2 (congrArg BitVec.toNat hd)]
      rfl
    · next hd =>
      obtain ⟨hz, -, hg, rfl⟩ := verdict_eq_ok.1 h
      simp only [Bool.and_eq_true, beq_iff_eq] at hz hd
      refine ⟨domain_or_module_ofCode hg, rfl, ?_⟩
      simp only [encode, encS, Scope.code_ofCode, eq_of_toNat hfn, hz, hm, eq_ofNat_of_low (by decide) hz.2 (toNat_bit_of_ne_zero hd)]
      rfl
  case h_6 hfn | h_7 hfn | h_8 hfn =>
    obtain ⟨hz, -, hg, rfl⟩ := verdict_eq_ok.1 h
    refine ⟨domain_or_module_ofCode hg, rfl, ?_⟩
    simp only [encode, encS, Scope.code_ofCode, eq_of_toNat hfn, eq_of_beq hz, hm]
    rfl
  all_goals
    next hfn =>
      obtain ⟨hz, -, -, rfl⟩ := verdict_eq_ok.1 h
      simp only [Bool.and_eq_true, beq_iff_eq] at hz
      refine ⟨rfl, rfl, ?_⟩
      simp only [encode, encS, Scope.code_ofCode, eq_of_toNat hfn, hz, hm]
      rfl

theorem isWord_of_decodeSys {f : FS} {i : Instr} (hm : f.maj = 0x3E) (h : decodeSys f = .ok i) : IsWord i f.pack := by
  obtain ⟨maj, fn, sd, sa, sb, scope, imm⟩ := f
  unfold decodeSys at h
  dsimp only at h hm
  split at h
  case h_14 => cases h
  case h_3 hfn =>
    split at h
    case h_3 => split at h <;> cases h
    all_goals
      next hl =>
        obtain ⟨hz, -, -, rfl⟩ := verdict_eq_ok.1 h
        simp only [Bool.and_eq_true, beq_iff_eq] at hz
        refine ⟨rfl, rfl, ?_⟩
        simp only [encode, encS, eq_of_toNat hfn, hz, hm, eq_ofNat_of_low (by decide) hz.2 hl]
        rfl
  case h_11 hfn =>
    split at h
    case h_4 => split at h <;> cases h
    all_goals
      next hl =>
        obtain ⟨hz, -, -, rfl⟩ := verdict_eq_ok.1 h
        simp only [Bool.and_eq_true, beq_iff_eq] at hz
        refine ⟨rfl, rfl, ?_⟩
        simp only [encode, encS, eq_of_toNat hfn, hz, hm, eq_ofNat_of_low (by decide) hz.2 hl]
        rfl
  case h_2 hfn =>
    obtain ⟨hz, -, -, rfl⟩ := verdict_eq_ok.1 h
    simp only [Bool.and_eq_true, beq_iff_eq] at hz
    have himm : (0 : BitVec 30) ++ bit1 (imm.extractLsb' 0 1 == 1) = imm := by
      rw [bit1_of_beq, ← hz.2, extractLsb'_append_extractLsb'_eq_extractLsb' (by decide)]
      exact extractLsb'_eq_self
    refine ⟨rfl, rfl, ?_⟩
    simp only [encode, encS, himm, eq_of_toNat hfn, hz, hm]
    rfl
  case h_8 hfn =>
    obtain ⟨hz, -, hg, rfl⟩ := verdict_eq_ok.1 h
    refine ⟨domain_or_module_ofCode hg, rfl, ?_⟩
    simp only [encode, encS, Scope.code_ofCode, eq_of_toNat hfn, eq_of_beq hz, hm]
    rfl
  case h_10 hfn =>
    obtain ⟨hz, -, hg, rfl⟩ := verdict_eq_ok.1 h
    refine ⟨module_or_pod_ofCode hg, rfl, ?_⟩
    simp only [encode, encS, Scope.code_ofCode, eq_of_toNat hfn, eq_of_beq hz, hm]
    rfl
  all_goals
    next hfn =>
      obtain ⟨hz, -, hg, rfl⟩ := verdict_eq_ok.1 h
      simp only [Bool.and_eq_true, beq_iff_eq] at hz
      refine ⟨?_, rfl, ?_⟩
      · exact hg
      · simp only [encode, encS, eq_of_toNat hfn, hz, hm]
        rfl

/-! ### Any word -/

theorem isLdk_iff (x : Word) : isLdk x = true ↔ (FA.unpack x).maj = 1 ∧ (FA.unpack x).fn = 0 := by
  simp only [isLdk, FA.unpack, Bool.and_eq_true, beq_iff_eq]

/-- A word of another major than 1 has no second word. -/
theorem isLdk_of_maj_ne {x : Word} (h : (FA.unpack x).maj ≠ 1) : isLdk x = false :=
  Bool.eq_false_iff.2 fun hl => h ((isLdk_iff x).1 hl).1

theorem isWord_of_decode {x k : Word} {i : Instr} (hne : (FA.unpack x).maj ≠ 1) (h : decode x k = .ok i) : IsWord i x := by
  have hA (hw : IsWord i (FA.unpack x).pack) : IsWord i x := FA.pack_unpack x ▸ hw
  have hS (hw : IsWord i (FS.unpack x).pack) : IsWord i x := FS.pack_unpack x ▸ hw
  unfold decode at h
  dsimp only at h
  split at h
  case h_1 hm => exact hA (isWord_of_decodeAlu (eq_of_toNat hm) h)
  case h_2 hm => exact absurd (eq_of_toNat hm) hne
  case h_3 hm => exact hA (isWord_of_decodeBranch (eq_of_toNat hm) h)
  case h_4 hm => exact hA (isWord_of_decodeCtl (eq_of_toNat hm) h)
  case h_5 hm => exact hA (isWord_of_decodeLd (eq_of_toNat hm) h)
  case h_6 hm => exact hA (isWord_of_decodeSt (eq_of_toNat hm) h)
  iterate 10 next hm =>
    exact hA (isWord_of_decodeAtom (eq_of_toNat hm) h (fun _ => rfl) (fun _ => rfl) (fun _ => rfl))
  next hm => exact hA (isWord_of_decodeWin (eq_of_toNat hm) h)
  next hm => exact hA (isWord_of_decodeOwn (eq_of_toNat hm) h)
  iterate 8 next => exact FT.pack_unpack x ▸ isWord_of_decodeMat h
  next hm => exact hS (isWord_of_decodeAcc (eq_of_toNat hm) h)
  next hm => exact FC.pack_unpack x ▸ isWord_of_decodeCopy (eq_of_toNat hm) h
  next hm => exact hS (isWord_of_decodeSync (eq_of_toNat hm) h)
  next hm => exact hS (isWord_of_decodeSys (eq_of_toNat hm) h)
  iterate 2 next => cases h
  next => exact FV.pack_unpack x ▸ isWord_of_decodeVec h

/-- In major 1 only `ldk` decodes, with the second word as its constant (R44, R58). -/
theorem ldk_of_decode {x k : Word} {i : Instr} (hm : (FA.unpack x).maj = 1) (h : decode x k = .ok i) :
    isLdk x = true ∧ ∃ sd, i = .ldk sd k ∧ encode i = [x, k] := by
  have hd : decode x k = if (FA.unpack x).fn != 0 then .illegal 2
      else verdict ((FA.unpack x).sa == 0 && (FA.unpack x).sb == 0 && (FA.unpack x).w == 0 && (FA.unpack x).imm == 0) true true
        (.ldk (FA.unpack x).sd k) := by
    simp only [decode, hm]
    rfl
  rw [hd] at h
  split at h
  · cases h
  · next hfn =>
    obtain ⟨hz, -, -, rfl⟩ := verdict_eq_ok.1 h
    simp only [bne_iff_ne, ne_eq, Classical.not_not] at hfn
    refine ⟨(isLdk_iff x).2 ⟨hm, hfn⟩, _, rfl, ?_⟩
    rw [isWord_of_ldk hm hfn hz, FA.pack_unpack]

/-- Settles O2: `ldk` by its own fields, every other word by the decoder of its major. -/
theorem decodedWordEncodesBack : Obligations.DecodedWordEncodesBack := by
  unfold Obligations.DecodedWordEncodesBack
  intro x k i h
  by_cases hm : (FA.unpack x).maj = 1
  · obtain ⟨hl, sd, rfl, hx⟩ := ldk_of_decode hm h
    exact ⟨rfl, rfl, by rw [hl]; exact hx⟩
  · obtain ⟨hw, he, hx⟩ := isWord_of_decode hm h
    exact ⟨hw, he, by rw [isLdk_of_maj_ne hm]; exact hx⟩

end Sys2Proof.Proofs
end

section
/-! The encoder's words decode to their instructions (R43 to R65, R68): one lemma for each group of majors, then bytes. -/

namespace Sys2Proof.Proofs

open Sys2Proof Sys2Proof.Machine BitVec

/-- An instruction of one word, which decodes to it whatever word follows. -/
def DecodesTo (i : Instr) : Prop := ∃ x, encode i = [x] ∧ isLdk x = false ∧ ∀ k, decode x k = .ok i

/-! ### The decoder of each major -/

section
variable {k : Word}

theorem decode_alu {f : FA} (h : f.maj = 0) : decode f.pack k = decodeAlu f := by rw [decode, FA.unpack_pack, h]; rfl
theorem decode_branch {f : FA} (h : f.maj = 2) : decode f.pack k = decodeBranch f := by rw [decode, FA.unpack_pack, h]; rfl
theorem decode_ctl {f : FA} (h : f.maj = 3) : decode f.pack k = decodeCtl f := by rw [decode, FA.unpack_pack, h]; rfl
theorem decode_ld {f : FA} (h : f.maj = 4) : decode f.pack k = decodeLd f := by rw [decode, FA.unpack_pack, h]; rfl
theorem decode_st {f : FA} (h : f.maj = 5) : decode f.pack k = decodeSt f := by rw [decode, FA.unpack_pack, h]; rfl
theorem decode_win {f : FA} (h : f.maj = 0x10) : decode f.pack k = decodeWin f := by rw [decode, FA.unpack_pack, h]; rfl
theorem decode_own {f : FA} (h : f.maj = 0x11) : decode f.pack k = decodeOwn f := by rw [decode, FA.unpack_pack, h]; rfl
theorem decode_acc {f : FS} (h : f.maj = 0x38) : decode f.pack k = decodeAcc f := by
  rw [decode, maj_unpack_FS_pack, h, FS.unpack_pack]; rfl
theorem decode_sync {f : FS} (h : f.maj = 0x3D) : decode f.pack k = decodeSync f := by
  rw [decode, maj_unpack_FS_pack, h, FS.unpack_pack]; rfl
theorem decode_sys {f : FS} (h : f.maj = 0x3E) : decode f.pack k = decodeSys f := by
  rw [decode, maj_unpack_FS_pack, h, FS.unpack_pack]; rfl
theorem decode_copy {f : FC} (h : f.maj = 0x3C) : decode f.pack k = decodeCopy f := by
  rw [decode, maj_unpack_FC_pack, h, FC.unpack_pack]; rfl

theorem decode_mat {f : FT} (h : f.maj ∈ ([0x30, 0x31, 0x32, 0x33, 0x34] : List (BitVec 6))) : decode f.pack k = decodeMat f := by
  simp only [List.mem_cons, List.not_mem_nil, or_false] at h
  rw [decode, maj_unpack_FT_pack, FT.unpack_pack]
  rcases h with h | h | h | h | h
  all_goals rw [h]; rfl

/-- Majors of broadcast vector instructions (R61, R63). -/
def vectorMajor (m : BitVec 6) : Bool := (0x12 ≤ m && m ≤ 0x29) || m == 0x39 || m == 0x3A

theorem decode_vec {f : FV} (h : vectorMajor f.maj = true) : decode f.pack k = decodeVec f := by
  rw [decode, maj_unpack_FV_pack, FV.unpack_pack]
  split
  case h_33 => rfl
  all_goals
    next hm =>
      rw [eq_of_toNat hm] at h
      cases h

theorem decode_ldk (sd : SReg) : decode (encFA 1 0 sd 0 0 0 0) k = .ok (.ldk sd k) := by
  rw [encFA, decode, FA.unpack_pack]; rfl

/-- Majors of the scalar atomics (R58). -/
def atomMajors : List (BitVec 6 × (AtomArgs → Instr)) :=
  [(6, .scas), (7, .samoAdd), (8, .samoAnd), (9, .samoOr), (10, .samoXor), (11, .samoMin), (12, .samoMax), (13, .samoMinn), (14, .samoMaxn),
    (15, .samoSwap)]

theorem decode_atom {f : FA} {c : AtomArgs → Instr} (h : (f.maj, c) ∈ atomMajors) : decode f.pack k = decodeAtom f c := by
  simp only [atomMajors, List.mem_cons, List.not_mem_nil, or_false, Prod.mk.injEq] at h
  rw [decode, FA.unpack_pack]
  rcases h with h | h | h | h | h | h | h | h | h | h
  all_goals rw [h.1, h.2]; rfl

end

/-! ### Fields put together and taken apart -/

@[simp] theorem top_append (t : BitVec 1) (x : BitVec 5) : (t ++ x : BitVec 6).extractLsb' 5 1 = t := extractLsb'_append_eq_left
@[simp] theorem low_append (t : BitVec 1) (x : BitVec 5) : (t ++ x : BitVec 6).extractLsb' 0 5 = x := extractLsb'_append_eq_right

@[simp] theorem csr_low (c : BitVec 12) : (c.setWidth 32).extractLsb' 0 12 = c := by
  rw [BitVec.setWidth_eq_append (by decide)]; exact extractLsb'_append_eq_right

@[simp] theorem csr_high (c : BitVec 12) : (c.setWidth 32).extractLsb' 12 20 = 0 := by
  rw [BitVec.setWidth_eq_append (by decide)]; exact extractLsb'_append_eq_left

/-- The parts of a memory word's FN field (R48). -/
@[simp] theorem sg_append (x : BitVec 1) (y : BitVec 2) (z : BitVec 3) : (x ++ y ++ z : BitVec 6).extractLsb' 5 1 = x := by
  rw [extractLsb'_append_eq_of_le (by decide)]; exact extractLsb'_append_eq_left

@[simp] theorem ord_append (x : BitVec 1) (y : BitVec 2) (z : BitVec 3) : (x ++ y ++ z : BitVec 6).extractLsb' 3 2 = y := by
  rw [extractLsb'_append_eq_of_le (by decide)]; exact extractLsb'_append_eq_right

@[simp] theorem scope_append (x : BitVec 1) (y : BitVec 2) (z : BitVec 3) : (x ++ y ++ z : BitVec 6).extractLsb' 0 3 = z :=
  extractLsb'_append_eq_right

@[simp] theorem w5_wreg (w : WReg) : w5 (wreg w) = true := by
  rw [w5, wreg, top_append]; rfl

@[simp] theorem wlo_wreg (w : WReg) : wlo (wreg w) = w := low_append 0 w

/-! ### Scalar ALU -/

theorem DecodesTo.of_fields {i : Instr} {f : FA} (he : encode i = [f.pack]) (hm : f.maj ≠ 1) (hd : ∀ k, decode f.pack k = .ok i) :
    DecodesTo i :=
  ⟨_, he, isLdk_of_maj_ne (by rwa [FA.unpack_pack]), hd⟩

theorem DecodesTo.binary {c : Width → SReg → SReg → AluB → Instr} {op : BitVec 5} {w : Width} {sd sa : SReg} {b : AluB}
    (he : encode (c w sd sa b) = [encAlu op w sd sa b])
    (hd : ∀ f : FA, f.fn.extractLsb' 0 5 = op →
      decodeAlu f = verdict (if f.fn.extractLsb' 5 1 = 1 then f.sb == 0 else f.imm == 0) true true
        (c (Width.ofCode f.w) f.sd f.sa (if f.fn.extractLsb' 5 1 = 1 then .imm f.imm else .reg f.sb))) : DecodesTo (c w sd sa b) := by
  cases b with
  | reg r =>
    refine .of_fields he (by simp) fun k => (decode_alu rfl).trans ?_
    rw [hd _ (low_append ..)]
    simp only [top_append]
    simp [verdict]
  | imm j =>
    refine .of_fields he (by simp) fun k => (decode_alu rfl).trans ?_
    rw [hd _ (low_append ..)]
    simp only [top_append]
    simp [verdict]

theorem DecodesTo.unary {c : Width → SReg → SReg → Instr} {op : BitVec 5} {w : Width} {sd sa : SReg}
    (he : encode (c w sd sa) = [encAlu op w sd sa (.reg 0)])
    (hd : ∀ f : FA, f.fn.extractLsb' 0 5 = op →
      decodeAlu f = verdict (f.sb == 0 && f.imm == 0) true (!(f.fn.extractLsb' 5 1 == 1)) (c (Width.ofCode f.w) f.sd f.sa)) :
    DecodesTo (c w sd sa) := by
  refine .of_fields he (by simp) fun k => (decode_alu rfl).trans ?_
  rw [hd _ (low_append ..)]
  simp only [top_append]
  simp [verdict]

/-! ### Memory and atomics -/

theorem DecodesTo.ld {sg : Bool} {o : MemOrder} {sc : Scope} {w : Width} {sd sa : SReg} {off : BitVec 32}
    (h : (Instr.ld sg o sc w sd sa off).wellFormed = true) : DecodesTo (.ld sg o sc w sd sa off) := by
  refine .of_fields rfl (by simp) fun k => (decode_ld rfl).trans ?_
  simp only [decodeLd, fmOrd, fmSg, fmScope, sg_append, ord_append, scope_append, MemOrder.ofCode_code, Scope.ofCode_code,
    Width.ofCode_code, bit1_beq_one]
  exact verdict_eq_ok.2 ⟨rfl, rfl, h, rfl⟩

theorem DecodesTo.st {o : MemOrder} {sc : Scope} {w : Width} {sb sa : SReg} {off : BitVec 32}
    (h : (Instr.st o sc w sb sa off).wellFormed = true) : DecodesTo (.st o sc w sb sa off) := by
  refine .of_fields rfl (by simp) fun k => (decode_st rfl).trans ?_
  simp only [decodeSt, fmOrd, fmSg, fmScope, sg_append, ord_append, scope_append, MemOrder.ofCode_code, Scope.ofCode_code,
    Width.ofCode_code, bit1_beq_one]
  exact verdict_eq_ok.2 ⟨rfl, rfl, by rw [Bool.not_false, Bool.and_true]; exact h, rfl⟩

theorem DecodesTo.atom {c : AtomArgs → Instr} {maj : BitVec 6} {a : AtomArgs} (he : encode (c a) = [encAtom maj a])
    (hm : (maj, c) ∈ atomMajors) (h : atomOk a = true) : DecodesTo (c a) := by
  refine .of_fields he (by rintro rfl; simp [atomMajors] at hm) fun k => (decode_atom hm).trans ?_
  simp only [decodeAtom, fmOrd, fmSg, fmScope, sg_append, ord_append, scope_append, MemOrder.ofCode_code, Scope.ofCode_code,
    Width.ofCode_code, bit1_beq_one]
  refine verdict_eq_ok.2 ⟨rfl, rfl, ?_, rfl⟩
  obtain ⟨sg, o, sc, w, sd, sa, sb, off⟩ := a
  cases w
  case w64 | w32 => rfl
  all_goals cases h

end Sys2Proof.Proofs
end

section
/-! The words of vector, matrix, copy, synchronisation and system instructions decode to them (R61 to R65). -/

namespace Sys2Proof.Proofs

open Sys2Proof Sys2Proof.Machine

/-! ### Vector words -/

/-- The zero fields that R208 and R56 ask of a vector instruction are those that the decoder asks of its word. -/
theorem zeros_of_ok {r : VRule} {v : VArgs} (h : r.ok v = true) :
    (r.useA = true ∨ v.wa = 0) ∧ (r.useB = true ∨ v.sb = true ∨ v.wb = 0) ∧ (r.useC = true ∨ v.wc = 0) ∧
    (v.sb = true → r.scalarB v.fmt = true) ∧
    (r.ownImm = true ∨ v.imm = 0 ∨ v.amod = .shift ∨ v.amod = .rotate ∨ v.amod = .bcast) ∧
    (r.mods = true ∨ v.amod = .none) ∧ (v.amod = .reverse → v.imm = 0) := by
  simp only [VRule.ok, Bool.and_eq_true, Bool.or_eq_true, beq_iff_eq, Bool.not_eq_true'] at h
  obtain ⟨⟨⟨⟨⟨⟨⟨⟨⟨⟨-, hsb⟩, hmod⟩, hmods⟩, -⟩, -⟩, ha⟩, hb⟩, hc⟩, himm⟩, -⟩ := h
  refine ⟨ha, by simpa only [or_assoc] using hb, hc, fun hs => ?_, by simpa only [or_assoc] using himm, hmods, fun hr => ?_⟩
  · exact hsb.resolve_left (by rw [hs]; decide)
  · rw [modOk, hr] at hmod
    exact eq_of_beq hmod

/-- A word whose unused fields are zero decodes to its well-formed instruction. -/
theorem decodeV_vFields {u : VUse} {sel sel' : BitVec 5} {maj : BitVec 6} {c : VArgs → Instr} {v : VArgs} (hd : u.d = true)
    (ha : u.a = true ∨ v.wa = 0) (hb : u.b = true ∨ v.wb = 0) (hc : u.c = true ∨ v.wc = 0)
    (hs : sel' = if u.c = true then v.wc else sel)
    (hi : u.imm = true ∨ v.imm = 0 ∨ u.mods = true ∧ (v.amod = .shift ∨ v.amod = .rotate ∨ v.amod = .bcast))
    (hw : (c v).wellFormed = true) : decodeV (vFields maj sel' v.imm v) u sel c = .ok (c v) := by
  have hv : (if u.c = true then sel' else 0) = v.wc := by
    rcases hc with hc | hc
    · rw [hs, if_pos hc, if_pos hc]
    · split
      · next h => rw [hs, if_pos h]
      · exact hc.symm
  simp only [decodeV, vFields, Fmt.ofCode_code, Rm.ofCode_code, AMod.ofCode_code, bit1_beq_one, hv]
  refine verdict_eq_ok.2 ⟨?_, rfl, hw, rfl⟩
  simp only [Bool.and_eq_true, Bool.or_eq_true, beq_iff_eq, bne_iff_ne, ne_eq]
  refine ⟨⟨⟨⟨.inl hd, ha⟩, hb⟩, ?_⟩, ?_⟩
  · rw [hs]
    split
    · next h => exact .inl h
    · exact .inr rfl
  · rcases hi with hi | hi | ⟨hm, hi⟩
    · exact .inl (.inl hi)
    · exact .inl (.inr hi)
    · right
      rcases hi with hi | hi | hi <;> rw [hi] <;> exact ⟨⟨hm, by decide⟩, by decide⟩

/-- The fields that a rule of R208 leaves free are those that the decoder reads. -/
def Fits (r : VRule) (u : VUse) : Prop :=
  u.d = true ∧ (u.a = true ∨ r.useA = false) ∧ (u.b = true ∨ r.useB = false ∧ ∀ f, r.scalarB f = false) ∧
  (u.c = true ∨ r.useC = false) ∧ (u.imm = true ∨ r.ownImm = false ∧ (u.mods = true ∨ r.mods = false))

theorem DecodesTo.of_vFields {i : Instr} {v : VArgs} {maj : BitVec 6} {sel : BitVec 5} {imm : BitVec 16}
    (he : encode i = [encV maj sel imm v]) (hm : vectorMajor maj = true) (hd : decodeVec (vFields maj sel imm v) = .ok i) : DecodesTo i := by
  refine ⟨_, he, isLdk_of_maj_ne ?_, fun k => (decode_vec hm).trans hd⟩
  rw [encV_eq, maj_unpack_FV_pack]
  rintro rfl
  cases hm

theorem DecodesTo.vector {r : VRule} {u : VUse} {c : VArgs → Instr} {v : VArgs} {maj : BitVec 6} {sel sel' : BitVec 5}
    (hf : Fits r u) (he : encode (c v) = [encV maj sel' v.imm v]) (hm : vectorMajor maj = true)
    (hd : decodeVec (vFields maj sel' v.imm v) = decodeV (vFields maj sel' v.imm v) u sel c)
    (hs : sel' = if u.c = true then v.wc else sel) (hr : r.ok v = true) (hw : (c v).wellFormed = true) : DecodesTo (c v) := by
  obtain ⟨ha, hb, hc, hsb, hi, hmods, -⟩ := zeros_of_ok hr
  obtain ⟨fd, fa, fb, fc, fi⟩ := hf
  refine .of_vFields he hm (hd.trans (decodeV_vFields fd ?_ ?_ ?_ hs ?_ hw))
  · exact fa.imp_right fun h => ha.resolve_left (by rw [h]; decide)
  · refine fb.imp_right fun ⟨h, hn⟩ => (hb.resolve_left (by rw [h]; decide)).resolve_left fun hv => ?_
    have := hsb hv
    rw [hn] at this
    cases this
  · exact fc.imp_right fun h => hc.resolve_left (by rw [h]; decide)
  · refine fi.imp_right fun ⟨h, hn⟩ => ?_
    rcases hi.resolve_left (by rw [h]; decide) with hi | hi
    · exact .inl hi
    · refine .inr ⟨hn.resolve_right fun hm => ?_, hi⟩
      have := hmods.resolve_left (by rw [hm]; decide)
      rw [this] at hi
      rcases hi with hi | hi | hi <;> cases hi

theorem fits_useDAB {r : VRule} (hc : r.useC = false) (hi : r.ownImm = false) : Fits r useDAB :=
  ⟨rfl, .inl rfl, .inl rfl, .inr hc, .inr ⟨hi, .inl rfl⟩⟩

theorem fits_useDABC {r : VRule} (hi : r.ownImm = false) : Fits r useDABC :=
  ⟨rfl, .inl rfl, .inl rfl, .inl rfl, .inr ⟨hi, .inl rfl⟩⟩

theorem fits_useDA {r : VRule} (hb : r.useB = false) (hs : ∀ f, r.scalarB f = false) (hc : r.useC = false) (hi : r.ownImm = false) :
    Fits r useDA :=
  ⟨rfl, .inl rfl, .inr ⟨hb, hs⟩, .inr hc, .inr ⟨hi, .inl rfl⟩⟩

theorem fits_useDAC {r : VRule} (hb : r.useB = false) (hs : ∀ f, r.scalarB f = false) (hi : r.ownImm = false) : Fits r useDAC :=
  ⟨rfl, .inl rfl, .inr ⟨hb, hs⟩, .inl rfl, .inr ⟨hi, .inl rfl⟩⟩

theorem fits_lanex : Fits ruleLanex { useDA with mods := false } :=
  ⟨rfl, .inl rfl, .inr ⟨rfl, fun _ => rfl⟩, .inr rfl, .inr ⟨rfl, .inr rfl⟩⟩

theorem fits_viota : Fits ruleIota { d := true, a := false, b := false, c := false, imm := true } :=
  ⟨rfl, .inr rfl, .inr ⟨rfl, fun _ => rfl⟩, .inr rfl, .inl rfl⟩

/-- With AMOD 0 or 4 no modifier uses IMM16, which is zero (R56, R63). -/
theorem imm_zero_of_amodHome {r : VRule} {v : VArgs} (hi : r.ownImm = false) (hr : r.ok v = true) (ha : amodHome v = true) : v.imm = 0 := by
  obtain ⟨-, -, -, -, h, -, -⟩ := zeros_of_ok hr
  refine (h.resolve_left (by rw [hi]; decide)).resolve_right fun h => ?_
  rcases h with h | h | h <;> rw [amodHome, h] at ha <;> cases ha

theorem DecodesTo.vacc {v : VArgs} (h : (Instr.vacc v).wellFormed = true) : DecodesTo (.vacc v) := by
  obtain ⟨hr, ha⟩ := (Bool.and_eq_true _ _).mp h
  obtain ⟨-, hb, hc, hsb, -, -, -⟩ := zeros_of_ok hr
  have hb : v.wb = 0 := (hb.resolve_left nofun).resolve_left fun hv => nomatch hsb hv
  exact .of_vFields rfl rfl (decodeV_vFields rfl (.inl rfl) (.inr hb) (.inr (hc.resolve_left nofun)) rfl
    (.inr (.inl (imm_zero_of_amodHome rfl hr ha))) h)

theorem bit1_beq_zero (b : Bool) : (bit1 b == 0) = !b := by cases b <;> rfl

theorem DecodesTo.vfill {v : VArgs} (h : (Instr.vfill v).wellFormed = true) : DecodesTo (.vfill v) := by
  obtain ⟨hr, hfill⟩ := (Bool.and_eq_true _ _).mp h
  obtain ⟨ha, -, hc, -, -, -, -⟩ := zeros_of_ok hr
  have hd : decodeVec (vFields 0x21 0 v.imm v)
      = decodeV (vFields 0x21 0 v.imm v) { d := true, a := false, b := bit1 v.sb == 1, c := false, imm := bit1 v.sb == 0 } 0 .vfill := rfl
  rw [bit1_beq_one, bit1_beq_zero] at hd
  refine .of_vFields rfl rfl (hd.trans (decodeV_vFields rfl (.inr (ha.resolve_left nofun)) ?_ (.inr (hc.resolve_left nofun)) rfl ?_ h))
  · cases hs : v.sb with
    | true => exact .inl rfl
    | false =>
      simp only [fillOk, hs, Bool.false_eq_true, if_false, Bool.and_eq_true, beq_iff_eq] at hfill
      exact .inr hfill.1.1
  · cases hs : v.sb with
    | true =>
      simp only [fillOk, hs, if_true, beq_iff_eq] at hfill
      exact .inr (.inl hfill)
    | false => exact .inl rfl

theorem DecodesTo.vcvt {s : Fmt} {v : VArgs} (h : (Instr.vcvt s v).wellFormed = true) : DecodesTo (.vcvt s v) := by
  have hd : decodeVec (vFields 0x1F s.code v.imm v) = decodeV (vFields 0x1F s.code v.imm v) useDA s.code (.vcvt s) := by
    show decodeVcvt (vFields 0x1F s.code v.imm v) = _
    simp only [decodeVcvt, vFields, Fmt.ofCode_code]
  have hok := h
  simp only [Instr.wellFormed, cvtOk] at hok
  split at hok
  · cases hok
  · exact .vector (fits_useDA rfl (fun _ => rfl) rfl rfl) rfl rfl hd rfl hok h

theorem DecodesTo.vamo {c : VArgs → MemOrder → Scope → Instr} {v : VArgs} {o : MemOrder} {sc : Scope} {sel : BitVec 5}
    (he : encode (c v o sc) = [encVamo sel v o sc])
    (hd : ∀ f : FV, f.wc = sel → vamoOps f = decodeVamo f c)
    (hw : (c v o sc).wellFormed = true) (hr : (ruleVamo.ok v && amodHome v && v.imm == 0) = true) : DecodesTo (c v o sc) := by
  simp only [Bool.and_eq_true, beq_iff_eq] at hr
  obtain ⟨⟨hr, -⟩, himm⟩ := hr
  obtain ⟨-, -, hc, -, -, -, -⟩ := zeros_of_ok hr
  have hv : { v with imm := 0 } = v := by rw [← himm]
  have hhigh : ((0 : BitVec 11) ++ sc.code ++ o.code : BitVec 16).extractLsb' 5 11 = (0 : BitVec 11) := by
    rw [BitVec.extractLsb'_append_eq_of_le (by decide)]; exact BitVec.extractLsb'_append_eq_left
  have hmid : ((0 : BitVec 11) ++ sc.code ++ o.code : BitVec 16).extractLsb' 2 3 = sc.code := by
    rw [BitVec.extractLsb'_append_eq_of_le (by decide)]; exact BitVec.extractLsb'_append_eq_right
  have hlow : ((0 : BitVec 11) ++ sc.code ++ o.code : BitVec 16).extractLsb' 0 2 = o.code := BitVec.extractLsb'_append_eq_right
  refine .of_vFields he rfl ((hd _ rfl).trans ?_)
  have hV : decodeV (vFields 0x3A sel v.imm v) useDAB sel (fun w => c { w with imm := 0 } o sc) = .ok (c { v with imm := 0 } o sc) :=
    decodeV_vFields rfl (.inl rfl) (.inl rfl) (.inr (hc.resolve_left nofun)) rfl (.inr (.inl himm)) (by rw [hv]; exact hw)
  rw [hv, himm] at hV
  simp only [decodeVamo, vFields, hhigh, hmid, hlow, MemOrder.ofCode_code, Scope.ofCode_code]
  exact hV

end Sys2Proof.Proofs
end

section
/-! Every well-formed instruction's bytes decode to it (R43 to R45). -/

namespace Sys2Proof.Proofs

open Sys2Proof Sys2Proof.Machine

/-! ### Matrix, accumulate, copy, synchronisation and system words -/

theorem DecodesTo.mat {i : Instr} {f : FT} (he : encode i = [f.pack]) (hm : f.maj ∈ ([0x30, 0x31, 0x32, 0x33, 0x34] : List (BitVec 6)))
    (hd : decodeMat f = .ok i) : DecodesTo i := by
  refine ⟨_, he, isLdk_of_maj_ne ?_, fun k => (decode_mat hm).trans hd⟩
  rw [maj_unpack_FT_pack]
  intro h
  rw [h] at hm
  revert hm
  decide

theorem DecodesTo.acc {i : Instr} {f : FS} (he : encode i = [f.pack]) (hm : f.maj = 0x38) (hd : decodeAcc f = .ok i) : DecodesTo i :=
  ⟨_, he, isLdk_of_maj_ne (by rw [maj_unpack_FS_pack, hm]; decide), fun _ => (decode_acc hm).trans hd⟩

theorem DecodesTo.sync {i : Instr} {f : FS} (he : encode i = [f.pack]) (hm : f.maj = 0x3D) (hd : decodeSync f = .ok i) : DecodesTo i :=
  ⟨_, he, isLdk_of_maj_ne (by rw [maj_unpack_FS_pack, hm]; decide), fun _ => (decode_sync hm).trans hd⟩

theorem DecodesTo.sys {i : Instr} {f : FS} (he : encode i = [f.pack]) (hm : f.maj = 0x3E) (hd : decodeSys f = .ok i) : DecodesTo i :=
  ⟨_, he, isLdk_of_maj_ne (by rw [maj_unpack_FS_pack, hm]; decide), fun _ => (decode_sys hm).trans hd⟩

theorem DecodesTo.mload {f : Fmt} {wb : WReg} {p : Bool} {kb : BitVec 16} (h : (Instr.mload f wb p kb).wellFormed = true) :
    DecodesTo (.mload f wb p kb) := by
  refine .mat rfl (by simp) ?_
  simp only [decodeMat, low_append, top_append, Fmt.ofCode_code, bit1_beq_one]
  exact verdict_eq_ok.2 ⟨rfl, rfl, h, rfl⟩

theorem DecodesTo.mma {m : MArgs} (h : (Instr.mma m).wellFormed = true) : DecodesTo (.mma m) := by
  refine .mat rfl (by simp) ?_
  simp only [decodeMat, low_append, top_append, Fmt.ofCode_code, Rm.ofCode_code, bit1_beq_one]
  exact verdict_eq_ok.2 ⟨rfl, rfl, h, rfl⟩

@[simp] theorem shadow_append_low (b : Bool) : ((0 : BitVec 15) ++ bit1 b : BitVec 16).extractLsb' 0 1 = bit1 b :=
  BitVec.extractLsb'_append_eq_right

@[simp] theorem shadow_append_high (b : Bool) : ((0 : BitVec 15) ++ bit1 b : BitVec 16).extractLsb' 1 15 = (0 : BitVec 15) :=
  BitVec.extractLsb'_append_eq_left

theorem DecodesTo.mrecast {p sh : Bool} : DecodesTo (.mrecast p sh) := by
  refine .mat rfl (by simp) ?_
  simp only [decodeMat, shadow_append_low, shadow_append_high, bit1_beq_one]
  rfl

theorem DecodesTo.minval {p sh : Bool} : DecodesTo (.minval p sh) := by
  refine .mat rfl (by simp) ?_
  simp only [decodeMat, shadow_append_low, shadow_append_high, bit1_beq_one]
  rfl

theorem DecodesTo.mswap {p : Bool} : DecodesTo (.mswap p) := by
  refine .mat rfl (by simp) ?_
  simp only [decodeMat, bit1_beq_one]
  rfl

theorem decodesTo_copies {i : Instr} {c : CArgs} (h : i.wellFormed = true)
    (hi : i ∈ ([.cpy c, .cpyt c, .cpyg c, .cpys c, .cpyf c, .cpym c, .sprog c, .srun c, .chase c] : List Instr)) : DecodesTo i := by
  simp only [List.mem_cons, List.not_mem_nil, or_false] at hi
  rcases hi with rfl | rfl | rfl | rfl | rfl | rfl | rfl | rfl | rfl
  all_goals
    refine ⟨_, rfl, isLdk_of_maj_ne (by rw [encC, maj_unpack_FC_pack]; simp), fun k => (decode_copy rfl).trans ?_⟩
    simp only [decodeCopy, Scope.ofCode_code]
    refine verdict_eq_ok.2 ⟨?_, rfl, h, rfl⟩
    simp only [Instr.wellFormed, footOk, Bool.and_eq_true] at h ⊢
    tauto

theorem domain_or_module_code {sc : Scope} (h : (sc == .domain || sc == .module) = true) : (sc.code == 4 || sc.code == 5) = true := by
  cases sc
  case domain | module => rfl
  all_goals cases h

theorem module_or_pod_code {sc : Scope} (h : (sc == .module || sc == .pod) = true) : (sc.code == 5 || sc.code == 6) = true := by
  cases sc
  case module | pod => rfl
  all_goals cases h

theorem two_le_rflush_code {sc : Scope} (h : (sc != .stream && sc != .bank) = true) : decide (2 ≤ sc.code.toNat) = true := by
  cases sc
  case stream | bank => cases h
  all_goals rfl

@[simp] theorem rq_append_low (b : Bool) : ((0 : BitVec 30) ++ bit1 b : BitVec 31).extractLsb' 0 1 = bit1 b :=
  BitVec.extractLsb'_append_eq_right

@[simp] theorem rq_append_high (b : Bool) : ((0 : BitVec 30) ++ bit1 b : BitVec 31).extractLsb' 1 30 = (0 : BitVec 30) :=
  BitVec.extractLsb'_append_eq_left

theorem DecodesTo.setvl {sd sa : SReg} {f : Fmt} {b : Blk} : DecodesTo (.setvl sd sa f b) := by
  have hf : ((0 : BitVec 21) ++ b.code ++ (0 : BitVec 3) ++ f.code : BitVec 32).extractLsb' 0 5 = f.code := BitVec.extractLsb'_append_eq_right
  have hmid : ((0 : BitVec 21) ++ b.code ++ (0 : BitVec 3) ++ f.code : BitVec 32).extractLsb' 5 3 = 0 := by
    rw [BitVec.extractLsb'_append_eq_of_le (by decide)]; exact BitVec.extractLsb'_append_eq_right
  have hb : ((0 : BitVec 21) ++ b.code ++ (0 : BitVec 3) ++ f.code : BitVec 32).extractLsb' 8 3 = b.code := by
    repeat rw [BitVec.extractLsb'_append_eq_of_le (by decide)]
    exact BitVec.extractLsb'_append_eq_right
  have htop : ((0 : BitVec 21) ++ b.code ++ (0 : BitVec 3) ++ f.code : BitVec 32).extractLsb' 11 21 = 0 := by
    repeat rw [BitVec.extractLsb'_append_eq_of_le (by decide)]
    exact BitVec.extractLsb'_eq_self
  refine .of_fields rfl (by simp) fun k => (decode_win rfl).trans ?_
  simp only [decodeWin, hf, hmid, hb, htop, Fmt.ofCode_code, Blk.ofCode_code]
  rfl

theorem DecodesTo.ownq {sd sa : SReg} {m : BitVec 4} : DecodesTo (.ownq sd sa m) := by
  have hlow : ((0 : BitVec 28) ++ m : BitVec 32).extractLsb' 0 4 = m := BitVec.extractLsb'_append_eq_right
  have htop : ((0 : BitVec 28) ++ m : BitVec 32).extractLsb' 4 28 = 0 := BitVec.extractLsb'_append_eq_left
  refine .of_fields rfl (by simp) fun k => (decode_own rfl).trans ?_
  simp only [decodeOwn, hlow, htop]
  rfl

/-- Every well-formed instruction of a stream but `ldk` is decoded from its one word. -/
theorem decodesTo {i : Instr} (hw : i.wellFormed = true) (he : isEvent i = false) (hk : i.size = 8) : DecodesTo i := by
  cases i
  case add | sub_ | mul | mulh | mulhn | div | divn | rem | remn | and_ | or_ | xor_ | andn | sll | srl | sra | slt | sltn | min_ | max_ | minn
     | maxn => exact .binary rfl fun f hf => by rw [decodeAlu, hf]; rfl
  case clz | ctz | popc | sext | zext => exact .unary rfl fun f hf => by rw [decodeAlu, hf]; rfl
  case ldk => cases hk
  case ld => exact .ld hw
  case st => exact .st hw
  case scas | samoAdd | samoAnd | samoOr | samoXor | samoMin | samoMax | samoMinn | samoMaxn | samoSwap =>
    exact .atom rfl (by simp [atomMajors]) hw
  case beq | bne | blt | bge | bltn | bgen => exact .of_fields rfl (by simp) fun _ => (decode_branch rfl).trans rfl
  case jal | jalr | wait | halt | nop => exact .of_fields rfl (by simp) fun _ => (decode_ctl rfl).trans rfl
  case csrr | csrw | csrs | csrc =>
    refine .of_fields rfl (by simp) fun _ => (decode_ctl rfl).trans ?_
    simp only [decodeCtl, csr_low, csr_high]
    exact verdict_eq_ok.2 ⟨rfl, rfl, hw, rfl⟩
  case wset | wcpy | strip | bany | ball | bnone =>
    refine .of_fields rfl (by simp) fun _ => (decode_win rfl).trans ?_
    simp only [decodeWin, w5_wreg, wlo_wreg]
    rfl
  case wget hi =>
    refine .of_fields rfl (by simp) fun _ => (decode_win rfl).trans ?_
    simp only [decodeWin, w5_wreg, wlo_wreg]
    cases hi <;> rfl
  case setvl => exact .setvl
  case ownq => exact .ownq
  case vadd | vsub | vmul | vmin | vmax => exact .vector (fits_useDAB rfl rfl) rfl rfl rfl rfl hw hw
  case vand | vor | vxor | vsll | vsrl | vsra | vceq | vcne | vclt | vcle => exact .vector (fits_useDAB rfl rfl) rfl rfl rfl rfl hw hw
  case vfma | vfms | vfnma | vsel => exact .vector (fits_useDABC rfl) rfl rfl rfl rfl hw hw
  case vabs | vneg | vrcp | vrsq | vexp2 | vlog2 | vnot | vmov | vredAdd | vredMax | vredMin | vscanAdd | vscanMax | vscanMin | vgather | vscatter =>
    exact .vector (fits_useDA rfl (fun _ => rfl) rfl rfl) rfl rfl rfl rfl hw hw
  case vcompact | vexpand => exact .vector (fits_useDAC rfl (fun _ => rfl) rfl) rfl rfl rfl rfl hw hw
  case lanex => exact .vector fits_lanex rfl rfl rfl rfl hw hw
  case viota => exact .vector fits_viota rfl rfl rfl rfl hw hw
  case vfill => exact .vfill hw
  case vcvt => exact .vcvt hw
  case vacc => exact .vacc hw
  case vamoAdd | vamoAnd | vamoOr | vamoXor | vamoMin | vamoMax | vamoMinn | vamoMaxn | vamoSwap =>
    exact .vamo rfl (fun f hf => by rw [vamoOps, hf]; rfl) hw hw
  case mload => exact .mload hw
  case mswap => exact .mswap
  case mma => exact .mma hw
  case mrecast => exact .mrecast
  case minval => exact .minval
  case adecl | amerge =>
    refine .acc rfl rfl ?_
    simp only [decodeAcc, w5_wreg, wlo_wreg]
    rfl
  case rflush =>
    refine .acc rfl rfl ?_
    simp only [decodeAcc, Scope.ofCode_code]
    exact verdict_eq_ok.2 ⟨rfl, rfl, two_le_rflush_code hw, rfl⟩
  case cpy c | cpyt c | cpyg c | cpys c | cpyf c | cpym c | sprog c | srun c | chase c => exact decodesTo_copies (c := c) hw (by simp)
  case fence | srel | sacq | gjoin | gleave =>
    refine .sync rfl rfl ?_
    simp only [decodeSync, Scope.ofCode_code]
    rfl
  case gbar | qpush | qpop | qdrainWait | qdrainDiscard =>
    refine .sync rfl rfl ?_
    simp only [decodeSync, Scope.ofCode_code]
    exact verdict_eq_ok.2 ⟨rfl, rfl, domain_or_module_code hw, rfl⟩
  case trap => exact .sys rfl rfl (verdict_eq_ok.2 ⟨rfl, rfl, hw, rfl⟩)
  case eret =>
    refine .sys rfl rfl ?_
    simp only [decodeSys, rq_append_low, rq_append_high, bit1_beq_one]
    rfl
  case wsave | wrest | isave | irest | tlbprb | logmark | logsync => exact .sys rfl rfl rfl
  case wfeWait | wfeYield | logctlStatus | logctlPolicy | logctlBudget =>
    refine .sys rfl rfl ?_
    simp only [decodeSys]
    exact verdict_eq_ok.2 ⟨rfl, rfl, rfl, rfl⟩
  case tlbinv =>
    refine .sys rfl rfl ?_
    simp only [decodeSys, Scope.ofCode_code]
    exact verdict_eq_ok.2 ⟨rfl, rfl, domain_or_module_code hw, rfl⟩
  case pmig =>
    refine .sys rfl rfl ?_
    simp only [decodeSys, Scope.ofCode_code]
    exact verdict_eq_ok.2 ⟨rfl, rfl, module_or_pod_code hw, rfl⟩
  all_goals cases he

/-! ### Bytes -/

theorem wordBytes_length (n x : Nat) : (wordBytes n x).length = n := by simp [wordBytes]

theorem bytesNat_wordBytes (n x : Nat) : bytesNat (wordBytes n x) = x % 2 ^ (8 * n) := by
  induction n generalizing x with
  | zero => simp [wordBytes, bytesNat, Nat.mod_one]
  | succ n ih =>
    rw [wordBytes_succ, bytesNat, ih, BitVec.toNat_ofNat, Nat.mul_succ, Nat.add_comm (8 * n), Nat.pow_add, Nat.mod_mul]

/-- The eight bytes of a word read back as it. -/
theorem ofNat_bytesNat_word (x : Word) (rest : List Byte) :
    BitVec.ofNat 64 (bytesNat ((wordBytes 8 x.toNat ++ rest).take 8)) = x := by
  rw [List.take_left' (wordBytes_length 8 _), bytesNat_wordBytes, Nat.mod_eq_of_lt x.isLt, BitVec.ofNat_toNat, BitVec.setWidth_eq]

theorem decodeBytes_of_decodesTo {i : Instr} (h : DecodesTo i) (rest : List Byte) : decodeBytes (i.bytes ++ rest) = .ok i rest := by
  obtain ⟨x, hx, hl, hd⟩ := h
  have hb : i.bytes = wordBytes 8 x.toNat := by rw [Instr.bytes, hx, List.flatMap_singleton]
  have hlen : ¬ (wordBytes 8 x.toNat ++ rest).length < 8 := by
    rw [List.length_append, wordBytes_length]; omega
  simp only [hb, decodeBytes, if_neg hlen, ofNat_bytesNat_word, hl, hd, Bool.false_and, Bool.false_eq_true, if_false]
  rw [List.drop_left' (wordBytes_length 8 _)]

theorem decodeBytes_ldk (sd : SReg) (k : Word) (rest : List Byte) :
    decodeBytes ((Instr.ldk sd k).bytes ++ rest) = .ok (.ldk sd k) rest := by
  have hb : (Instr.ldk sd k).bytes ++ rest = wordBytes 8 (encFA 1 0 sd 0 0 0 0).toNat ++ (wordBytes 8 k.toNat ++ rest) := by
    simp only [Instr.bytes, encode, List.flatMap_cons, List.flatMap_nil, List.append_assoc, List.nil_append]
  have hl : isLdk (encFA 1 0 sd 0 0 0 0) = true := by
    rw [isLdk_iff, encFA, FA.unpack_pack]; exact ⟨rfl, rfl⟩
  have hlen : (wordBytes 8 (encFA 1 0 sd 0 0 0 0).toNat ++ (wordBytes 8 k.toNat ++ rest)).length = 16 + rest.length := by
    simp only [List.length_append, wordBytes_length]; omega
  have h8 : ¬ 16 + rest.length < 8 := by omega
  have h16 : ¬ 16 + rest.length < 16 := by omega
  have hdrop : (wordBytes 8 (encFA 1 0 sd 0 0 0 0).toNat ++ (wordBytes 8 k.toNat ++ rest)).drop 16 = rest := by
    rw [← List.append_assoc]
    exact List.drop_left' (by simp only [List.length_append, wordBytes_length])
  simp only [hb, decodeBytes, hlen, if_neg h8, ofNat_bytesNat_word, hl, h16, decide_false, Bool.and_false, Bool.false_eq_true, if_false,
    if_true, List.drop_left' (wordBytes_length 8 _), decode_ldk, hdrop]

/-- Settles O1: `ldk` is decoded from two words, every other instruction from its one. -/
theorem decodeInvertsEncode : Obligations.DecodeInvertsEncode := by
  unfold Obligations.DecodeInvertsEncode
  intro i rest hw he
  cases i with
  | ldk sd k => exact decodeBytes_ldk sd k rest
  | _ => exact decodeBytes_of_decodesTo (decodesTo hw he rfl) rest

end Sys2Proof.Proofs
end

section
/-! What a step does before and around an instruction, and the instructions of the front that touch no memory. -/

namespace Sys2Proof.Proofs

open Sys2Proof Sys2Proof.Machine Sys2Proof.Safety Sys2Proof.Laws

/-! ### Every instruction and event answers a next state -/

theorem goesOn_next (s : State) : GoesOn (.next s) := ⟨s, rfl⟩

theorem goesOn_trapHere (t : TrapInfo) (s : State) : GoesOn (trapHere t s) := goesOn_next _

theorem goesOn_ite {c : Prop} [Decidable c] {o p : Out} (ho : GoesOn o) (hp : GoesOn p) : GoesOn (if c then o else p) := by
  split
  · exact ho
  · exact hp

theorem goesOn_frontM (m : M Unit) (s : State) : GoesOn (frontM m s) := by
  rcases frontM_cases m s with ⟨_, _, h⟩ | ⟨_, _, _, h⟩ | ⟨_, _, _, _, h⟩ <;> exact ⟨_, h⟩

theorem goesOn_homeOp (m : M Key) (s : State) : GoesOn (homeOp m s) := by
  rcases homeOp_cases m s with ⟨_, _, _, h⟩ | ⟨_, _, _, h⟩ | ⟨_, _, _, _, h⟩ <;> exact ⟨_, h⟩

theorem goesOn_command (i : Instr) (k : CmdKind) (c : CArgs) (s : State) : GoesOn (command i k c s) := by
  rcases command_cases i k c s with ⟨_, h⟩ | ⟨_, _, _, _, h⟩ | h <;> exact ⟨_, h⟩

theorem goesOn_broadcast (i : Instr) (info : BInfo) (s : State) : GoesOn (broadcast i info s) := by
  rcases broadcast_cases i info s with ⟨_, _, h⟩ | ⟨_, _, h⟩ | ⟨_, _, h⟩ <;> exact ⟨_, h⟩

theorem goesOn_condBranch (i : Instr) (info : BInfo) (off : BitVec 32) (s : State) : GoesOn (condBranch i info off s) := by
  rcases condBranch_cases i info off s with ⟨_, _, h⟩ | ⟨_, _, _, h⟩ | ⟨_, _, h⟩ | h <;> exact ⟨_, h⟩

theorem goesOn_unlessWaiting {m : State → Out} {s : State} (h : GoesOn (m s)) : GoesOn (unlessWaiting m s) := by
  unfold unlessWaiting
  split
  · exact goesOn_next _
  · exact h

theorem exec_csrr (sd : SReg) (n : BitVec 12) (s : State) : exec (.csrr sd n) s = csrOp sd n (fun _ => none) s := rfl

theorem exec_csrw (sd sa : SReg) (n : BitVec 12) (s : State) : exec (.csrw sd sa n) s = csrOp sd n (fun _ => some (s.rd sa)) s := rfl

theorem exec_csrs (sd sa : SReg) (n : BitVec 12) (s : State) :
    exec (.csrs sd sa n) s = csrOp sd n (fun old => if sa = 0 then none else some (old ||| s.rd sa)) s := rfl

theorem exec_csrc (sd sa : SReg) (n : BitVec 12) (s : State) :
    exec (.csrc sd sa n) s = csrOp sd n (fun old => if sa = 0 then none else some (old &&& ~~~ s.rd sa)) s := rfl

theorem goesOn_csrOp (sd : SReg) (n : BitVec 12) (new : Word → Option Word) (s : State) : GoesOn (csrOp sd n new s) :=
  goesOn_ite (goesOn_trapHere ..) (goesOn_ite (goesOn_next _) (goesOn_next _))

theorem goesOn_execWget (sd : SReg) (wa : WReg) (hi : Bool) (s : State) : GoesOn (execWget sd wa hi s) := by
  unfold execWget
  split
  · exact goesOn_trapHere ..
  · exact goesOn_next _

theorem goesOn_execWcpy (wd wa : WReg) (s : State) : GoesOn (execWcpy wd wa s) := by
  refine goesOn_ite (goesOn_trapHere ..) ?_
  split
  · exact goesOn_trapHere ..
  · exact goesOn_next _

theorem goesOn_execStrip (sa sb : SReg) (off : BitVec 32) (s : State) : GoesOn (execStrip sa sb off s) := by
  unfold execStrip
  dsimp only
  split
  · exact goesOn_trapHere ..
  · exact goesOn_ite (goesOn_next _) (goesOn_next _)

theorem goesOn_execOwnq (sd sa : SReg) (map : BitVec 4) (s : State) : GoesOn (execOwnq sd sa map s) := by
  unfold execOwnq
  split
  · exact goesOn_trapHere ..
  · exact goesOn_next _

/-- A broadcast issues as one, but for the branches on bank conditions, which the tree's result then takes (R9, R179). -/
theorem exec_of_infoOf {i : Instr} {info : BInfo} (h : infoOf i = some info) (s : State) :
    exec i s = broadcast i info s ∨ ∃ off, exec i s = condBranch i info off s := by
  cases i
  case bany off | ball off | bnone off => cases h; exact .inr ⟨off, rfl⟩
  all_goals cases h <;> exact .inl rfl

theorem goesOn_of_infoOf {i : Instr} {info : BInfo} (h : infoOf i = some info) (s : State) : GoesOn (exec i s) := by
  rcases exec_of_infoOf h s with h | ⟨off, h⟩ <;> rw [h]
  · exact goesOn_broadcast ..
  · exact goesOn_condBranch ..

theorem goesOn_exec (i : Instr) (s : State) : GoesOn (exec i s) := by
  cases i
  case jalr => exact goesOn_ite (goesOn_trapHere ..) (goesOn_next _)
  case wset => exact goesOn_ite (goesOn_trapHere ..) (goesOn_next _)
  case wget => exact goesOn_execWget ..
  case wcpy => exact goesOn_execWcpy ..
  case strip => exact goesOn_execStrip ..
  case ownq => exact goesOn_execOwnq ..
  case csrr sd n => exact exec_csrr sd n s ▸ goesOn_csrOp ..
  case csrw sd sa n => exact exec_csrw sd sa n s ▸ goesOn_csrOp ..
  case csrs sd sa n => exact exec_csrs sd sa n s ▸ goesOn_csrOp ..
  case csrc sd sa n => exact exec_csrc sd sa n s ▸ goesOn_csrOp ..
  case ld | st | scas | samoAdd | samoAnd | samoOr | samoXor | samoMin | samoMax | samoMinn | samoMaxn | samoSwap | halt | rflush | fence | gjoin
     | gleave | gbar | eret | wfeWait | wfeYield | wsave | wrest | isave | irest | tlbinv | tlbprb | pmig | logctlPolicy | logctlBudget
     | logmark | logsync => exact goesOn_frontM ..
  case srel | qdrainDiscard => exact goesOn_homeOp ..
  case sacq => exact goesOn_unlessWaiting (goesOn_frontM ..)
  case qpush | qpop | qdrainWait => exact goesOn_unlessWaiting (goesOn_homeOp ..)
  case cpy c => exact goesOn_command (.cpy c) .cpy c s
  case cpyt c => exact goesOn_command (.cpyt c) .cpyt c s
  case cpyg c => exact goesOn_command (.cpyg c) .cpyg c s
  case cpys c => exact goesOn_command (.cpys c) .cpys c s
  case cpyf c => exact goesOn_command (.cpyf c) .cpyf c s
  case cpym c => exact goesOn_command (.cpym c) .cpym c s
  case sprog c => exact goesOn_command (.sprog c) .sprog c s
  case srun c => exact goesOn_command (.srun c) .srun c s
  case chase c => exact goesOn_command (.chase c) .chase c s
  case vadd | vsub | vmul | vfma | vfms | vfnma | vmin | vmax | vabs | vneg | vrcp | vrsq | vexp2 | vlog2 | vand | vor | vxor | vnot | vsll
     | vsrl | vsra | vceq | vcne | vclt | vcle | vsel | vcvt | vmov | vfill | viota | vredAdd | vredMax | vredMin | vscanAdd | vscanMax
     | vscanMin | vgather | vscatter | vcompact | vexpand | lanex | vacc | vamoAdd | vamoAnd | vamoOr | vamoXor | vamoMin | vamoMax
     | vamoMinn | vamoMaxn | vamoSwap | adecl | amerge | bany | ball | bnone | mload | mswap | mma | mrecast | minval =>
    exact goesOn_of_infoOf rfl s
  all_goals exact ⟨_, rfl⟩

/-! ### Every step answers a next state -/

theorem goesOn_runFront (s : State) : GoesOn (runFront s) := by
  unfold runFront
  split
  · exact goesOn_ite (goesOn_exec ..) (goesOn_next _)
  · exact goesOn_trapHere ..
  · exact goesOn_next _

theorem goesOn_frontTurn (s : State) : GoesOn (frontTurn s) := by
  unfold frontTurn
  iterate 8 refine goesOn_ite (goesOn_next _) ?_
  split
  · exact goesOn_next _
  · split
    · exact goesOn_ite (goesOn_trapHere ..) (goesOn_frontM ..)
    · exact goesOn_runFront s

theorem goesOn_passTurn {o : Out} (h : GoesOn o) : GoesOn (passTurn o) := by
  obtain ⟨t, rfl⟩ := h
  exact goesOn_next _

/-- Settles O6: no instruction or event faults or is refused, and neither does what a turn does before one. -/
theorem everyStepGoesOn : Obligations.EveryStepGoesOn := by
  unfold Obligations.EveryStepGoesOn
  intro s
  unfold step
  split
  · exact goesOn_ite (goesOn_exec ..) (goesOn_next _)
  · split
    · exact goesOn_next _
    · exact goesOn_ite (goesOn_passTurn (goesOn_frontTurn s)) (goesOn_next _)

/-! ### A broadcast that faults at issue -/

theorem issueFault_queued {info : BInfo} {s : State} (h : s.front.queue ≠ []) : issueFault info s = some (operandTrapHi 14) := if_pos h

theorem issueFault_check {info : BInfo} {s : State} {t : TrapInfo} (hq : s.front.queue = []) (h : info.check s = some t) :
    issueFault info s = some t := by
  rw [issueFault, if_neg (not_not.2 hq), h]

theorem exec_issueFault {i : Instr} {info : BInfo} {s : State} {t : TrapInfo} (hi : infoOf i = some info) (h : issueFault info s = some t) :
    exec i s = .next (stopTrap s t s.front.pc) := by
  rcases exec_of_infoOf hi s with he | ⟨off, he⟩
  · rw [he, broadcast, h]; rfl
  · rw [he, condBranch, h]; rfl

/-- Settles O36: the queue is the first check of issue, the instruction's own checks come next. -/
theorem broadcastRefusedWhileQueued : Obligations.BroadcastRefusedWhileQueued := by
  unfold Obligations.BroadcastRefusedWhileQueued
  intro i info s hi
  exact ⟨fun hq => exec_issueFault hi (issueFault_queued hq), fun hq t ht => exec_issueFault hi (issueFault_check hq ht)⟩

/-! ### wait, branches and jumps, control registers -/

theorem waitMet_iff (s : State) (imm : BitVec 32) : waitMet s imm = true ↔
    loadsOut s.front ≤ imm.toNat % 2 ^ 8 ∧ storesOut s.front ≤ imm.toNat / 2 ^ 8 % 2 ^ 8 ∧
      s.front.cmds.length ≤ imm.toNat / 2 ^ 16 % 2 ^ 10 ∧ matOut s ≤ imm.toNat / 2 ^ 26 := by
  have h : imm.toNat / 2 ^ 26 % 2 ^ 6 = imm.toNat / 2 ^ 26 := by have := imm.isLt; omega
  simp only [waitMet, Bool.and_eq_true, decide_eq_true_eq, BitVec.extractLsb'_toNat, Nat.shiftRight_eq_div_pow, h, Nat.pow_zero, Nat.div_one,
    and_assoc]

/-- Settles O13, by what `waitMet` compares. -/
theorem waitGoesOnWhenCountsFall : Obligations.WaitGoesOnWhenCountsFall := by
  unfold Obligations.WaitGoesOnWhenCountsFall
  intro imm s
  have he : exec (.wait imm) s = .next (if waitMet s imm then s.done else s) := rfl
  constructor
  · intro hm
    rw [he, if_pos ((waitMet_iff s imm).2 hm)]
  · intro hm
    rw [he, if_neg (fun h => hm ((waitMet_iff s imm).1 h))]

theorem branchIf_eq (c : Bool) (p : Prop) [Decidable p] (h : c = true ↔ p) (off : BitVec 32) (s : State) :
    branchIf c off s = .next (s.goto (if p then s.front.pc + 8 * off.signExtend 64 else s.front.pc + 8)) := by
  unfold branchIf
  by_cases hp : p
  · rw [if_pos hp, if_pos (h.2 hp)]; rfl
  · rw [if_neg hp, if_neg (fun hc => hp (h.1 hc))]; rfl

theorem low_bits_zero_iff (t : Word) : t.extractLsb' 0 3 = 0 ↔ t.toNat % 8 = 0 := by
  rw [← BitVec.toNat_inj, BitVec.extractLsb'_toNat, Nat.shiftRight_zero]
  rfl

/-- Settles O10: each compare as its relation of the registers, and the target's low bits for jalr. -/
theorem branchesAndJumps : Obligations.BranchesAndJumps := by
  unfold Obligations.BranchesAndJumps
  intro sd sa sb off imm s
  refine ⟨branchIf_eq _ _ beq_iff_eq off s, branchIf_eq _ _ bne_iff_ne off s, branchIf_eq _ _ BitVec.slt_iff_toInt_lt off s,
    branchIf_eq _ _ ?_ off s, branchIf_eq _ _ BitVec.ult_iff_toNat_lt off s, branchIf_eq _ _ ?_ off s, rfl, fun ht => ?_, fun ht => ?_,
    fun x => ⟨rfl, rfl, rfl, rfl, rfl⟩⟩
  · rw [Bool.not_eq_true', ← Bool.not_eq_true, BitVec.slt_iff_toInt_lt, not_lt]
  · rw [Bool.not_eq_true', ← Bool.not_eq_true, BitVec.ult_iff_toNat_lt, not_lt]
  · exact if_neg (not_not.2 ((low_bits_zero_iff _).1 ht))
  · rw [show exec (.jalr sd sa imm) s = _ from if_pos fun h => ht ((low_bits_zero_iff _).2 h)]
    rw [trapHere, mkTrap, BitVec.ofNat_toNat, BitVec.setWidth_eq]
    rfl

/-- A control register instruction that may name its register and waits for nothing: the old value goes to SD, and the new
one, if there is one, to the register (R155). -/
theorem csrOp_done {sd : SReg} {n : BitVec 12} {new : Word → Option Word} {s : State}
    (hm : s.front.csr.mode = true ∨ csrSupervisor n.toNat = false ∧ n ≠ 0x004) (hl : loadsOut s.front = 0)
    (hf : n = 0x042 ∨ n = 0x050 → floorMet s = true) :
    csrOp sd n new s = .next ((((new (csrRead s n)).elim s (csrWrite s n)).wr sd (csrRead s n)).done) := by
  unfold csrOp
  dsimp only
  rw [if_neg, if_neg]
  · cases new (csrRead s n) <;> rfl
  · rintro (⟨h, -⟩ | ⟨h, h'⟩)
    · exact h hl
    · rw [hf h] at h'
      cases h'
  · rcases hm with hm | ⟨hs, hn⟩
    · simp [hm]
    · have hn : (n == 0x004) = false := beq_eq_false_iff_ne.2 hn
      rw [hs, hn, Bool.false_and, Bool.or_false, Bool.and_false]
      nofun

/-- Settles O11: the four instructions are `csrOp` with their new values. -/
theorem csrInstructions : Obligations.CsrInstructions := by
  unfold Obligations.CsrInstructions
  intro sd sa n s hm hl hf
  refine ⟨?_, ?_, fun ha => ?_, fun ha => ?_, ?_, ?_⟩
  · rw [exec_csrr, csrOp_done hm hl hf]; rfl
  · rw [exec_csrw, csrOp_done hm hl hf]; rfl
  · rw [exec_csrs, csrOp_done hm hl hf, if_neg ha]; rfl
  · rw [exec_csrc, csrOp_done hm hl hf, if_neg ha]; rfl
  · rw [exec_csrs, csrOp_done hm hl hf, if_pos rfl]; rfl
  · rw [exec_csrc, csrOp_done hm hl hf, if_pos rfl]; rfl

/-! ### Fetch and decode -/

theorem exec_pickWord_uncached {s : State} {va : Nat} {w : Word} (h : cached s va = none) :
    M.exec (pickWord va w) s = (.ok w, cacheWord s va w) := by
  unfold pickWord
  rw [exec_bind_ok (exec_get s), h]
  rfl

/-- A fetch that reads a word answers it and leaves it in the cache (R137). -/
theorem exec_fetchWord {s t : State} {va : Nat} {x : Word} (h : FetchesAt s va x t) : M.exec (fetchWord va) s = (.ok x, t) := by
  obtain ⟨pl, ks, s1, s2, hx, hk, hu, hb, hc, rfl⟩ := h
  unfold fetchWord
  rw [exec_bind_ok (exec_get s), exec_bind_ok hx, exec_bind_ok hk, exec_bind_ok (exec_get s2), hu, Bool.not_false,
    exec_bind_ok (a := ()) (t := s2) (by simp), hb, BitVec.ofNat_toNat, BitVec.setWidth_eq, exec_pickWord_uncached hc]

/-- What the front fetches at the pc: the decoded instruction, or ILLEGAL_INSN with its reason (R68, R137). -/
theorem exec_fetchM {s t u : State} {x k : Word} (hx : FetchesAt s s.front.pc.toNat x t)
    (hk : if isLdk x then FetchesAt t (s.front.pc.toNat + 8) k u else u = t ∧ k = 0) :
    M.exec fetchM s = M.exec (match decode x k with
      | .ok i => pure i
      | .illegal r => trapM (mkTrap causeIllegalInsn r)) u := by
  unfold fetchM
  rw [exec_bind_ok (exec_get s), exec_bind_ok (exec_fetchWord hx)]
  split at hk
  · rw [if_pos ‹_›, exec_bind_ok (exec_fetchWord hk)] <;> rfl
  · obtain ⟨rfl, rfl⟩ := hk
    rw [if_neg ‹_›, exec_bind_ok (exec_pure _ _)] <;> rfl

/-- Only `ldk` reads the second word (R44). -/
theorem decode_second {x : Word} (h : isLdk x = false) (k : Word) : decode x 0 = decode x k := by
  by_cases hm : (FA.unpack x).maj = 1
  · have hfn : (FA.unpack x).fn ≠ 0 := fun hfn => by rw [(isLdk_iff x).2 ⟨hm, hfn⟩] at h; cases h
    have hd (k : Word) : decode x k = .illegal 2 := by
      simp only [decode, hm]
      exact if_pos (bne_iff_ne.2 hfn)
    rw [hd, hd]
  · unfold decode
    dsimp only
    split
    case h_2 h1 => exact absurd (eq_of_toNat h1) hm
    all_goals rfl

theorem mayHalt_free {s : State} (hp : s.front.haltPend = false) (hd : s.front.dbg = .free) : mayHalt s = false := by
  rw [mayHalt, landed, hp, hd]
  rfl

theorem resumes_nil {s : State} (h : s.front.bcasts = []) : resumes s = false := by rw [resumes, h]

theorem landing_free {s : State} (h : s.front.dbg = .free) : landing s = false := by rw [landing, h]

theorem frontTurn_of_nothingFirst {s : State} (h : nothingFirst s = true) : frontTurn s = runFront s := by
  simp only [nothingFirst, Bool.and_eq_true, Bool.not_eq_true', beq_iff_eq, Option.isNone_iff_eq_none, List.isEmpty_iff] at h
  obtain ⟨⟨⟨⟨⟨⟨⟨⟨⟨hdie, hpend⟩, hdbg⟩, hjoin⟩, hfound⟩, hlate⟩, hreply⟩, hint⟩, hb⟩, hlog⟩ := h
  simp only [frontTurn, hdie, hfound, hlate, mayHalt_free hpend hdbg, hreply, hint, resumes_nil hb, landing_free hdbg, hlog, hjoin,
    Option.isSome_none, Bool.false_and, Bool.false_eq_true, if_false]

theorem isLdk_second {s t u : State} {x k : Word}
    (h : if isLdk x then FetchesAt t (s.front.pc.toNat + 8) k u else u = t) {i : Instr} (hd : decode x k = .ok i) :
    ∃ k', decode x k' = .ok i ∧ if isLdk x then FetchesAt t (s.front.pc.toNat + 8) k' u else u = t ∧ k' = 0 := by
  cases hl : isLdk x with
  | true => rw [hl] at h; exact ⟨k, hd, h⟩
  | false => rw [hl] at h; exact ⟨0, (decode_second hl k).trans hd, h, rfl⟩

/-- Settles O4: with nothing first the turn is `runFront`, and the fetch answers the decoded instruction. -/
theorem stepRunsDecodedInstruction : Obligations.StepRunsDecodedInstruction := by
  unfold Obligations.StepRunsDecodedInstruction
  intro s t u x k i hin hdist hrun hfirst hx hk hd
  obtain ⟨k, hd, hk⟩ := isLdk_second hk hd
  rw [step_turn hin hdist hrun, frontTurn_of_nothingFirst hfirst, runFront, exec_fetchM hx hk, hd]
  rfl

/-! ### Reasons (R68) -/

/-- A word's reason is one that the manual assigns. -/
def assigned : Decoded → Bool
  | .ok _ => true
  | .illegal r => 1 ≤ r && r ≤ 5

@[simp] theorem assigned_ok (i : Instr) : assigned (.ok i) = true := rfl
@[simp] theorem assigned_illegal (r : Nat) : assigned (.illegal r) = (1 ≤ r && r ≤ 5) := rfl

@[simp] theorem assigned_verdict (z r g : Bool) (i : Instr) : assigned (verdict z r g i) = true := by
  cases z <;> cases r <;> cases g <;> rfl

@[simp] theorem assigned_ite {c : Prop} [Decidable c] {d e : Decoded} (hd : assigned d = true) (he : assigned e = true) :
    assigned (if c then d else e) = true := by
  split
  · exact hd
  · exact he

theorem assigned_decodeAlu (f : FA) : assigned (decodeAlu f) = true := by
  unfold decodeAlu
  dsimp only
  split <;> simp

theorem assigned_decodeBranch (f : FA) : assigned (decodeBranch f) = true := by
  unfold decodeBranch
  dsimp only
  split <;> simp

theorem assigned_decodeCtl (f : FA) : assigned (decodeCtl f) = true := by
  unfold decodeCtl
  dsimp only
  split <;> simp

theorem assigned_decodeLd (f : FA) : assigned (decodeLd f) = true := by
  unfold decodeLd
  split <;> simp

theorem assigned_decodeSt (f : FA) : assigned (decodeSt f) = true := by
  unfold decodeSt
  split <;> simp

theorem assigned_decodeAtom (f : FA) (c : AtomArgs → Instr) : assigned (decodeAtom f c) = true := by
  unfold decodeAtom
  split <;> simp

theorem assigned_decodeWin (f : FA) : assigned (decodeWin f) = true := by
  unfold decodeWin
  split
  case h_4 => dsimp only; split <;> simp
  all_goals simp

theorem assigned_decodeOwn (f : FA) : assigned (decodeOwn f) = true := by
  unfold decodeOwn
  split <;> simp

@[simp] theorem assigned_decodeV (f : FV) (u : VUse) (sel : BitVec 5) (c : VArgs → Instr) : assigned (decodeV f u sel c) = true := by
  unfold decodeV
  dsimp only
  split <;> simp

@[simp] theorem assigned_noSelector (f : FV) : assigned (noSelector f) = true := by
  unfold noSelector
  simp

theorem assigned_decodeVcvt (f : FV) : assigned (decodeVcvt f) = true := by
  unfold decodeVcvt
  split
  · simp
  · split
    · rfl
    · simp

@[simp] theorem assigned_decodeVamo (f : FV) (c : VArgs → MemOrder → Scope → Instr) : assigned (decodeVamo f c) = true := by
  unfold decodeVamo
  dsimp only
  split <;> simp

theorem assigned_vamoOps (f : FV) : assigned (vamoOps f) = true := by
  unfold vamoOps
  split <;> simp

theorem assigned_decodeVec (f : FV) : assigned (decodeVec f) = true := by
  unfold decodeVec
  split
  case h_9 | h_10 | h_11 | h_12 | h_18 | h_19 => split <;> simp
  case h_14 => exact assigned_decodeVcvt f
  case h_26 => exact assigned_vamoOps f
  all_goals simp

theorem assigned_decodeMat (f : FT) : assigned (decodeMat f) = true := by
  unfold decodeMat
  dsimp only
  split
  case h_1 | h_3 => split <;> simp
  all_goals simp

theorem assigned_decodeAcc (f : FS) : assigned (decodeAcc f) = true := by
  unfold decodeAcc
  split <;> simp

theorem assigned_decodeCopy (f : FC) : assigned (decodeCopy f) = true := by
  unfold decodeCopy
  dsimp only
  split <;> simp

theorem assigned_decodeSync (f : FS) : assigned (decodeSync f) = true := by
  unfold decodeSync
  dsimp only
  split <;> simp

theorem assigned_decodeSys (f : FS) : assigned (decodeSys f) = true := by
  unfold decodeSys
  dsimp only
  split
  case h_3 | h_11 => split <;> simp
  all_goals simp

theorem assigned_decode (x k : Word) : assigned (decode x k) = true := by
  unfold decode
  dsimp only
  split
  case h_1 => exact assigned_decodeAlu _
  case h_2 => simp
  case h_3 => exact assigned_decodeBranch _
  case h_4 => exact assigned_decodeCtl _
  case h_5 => exact assigned_decodeLd _
  case h_6 => exact assigned_decodeSt _
  iterate 10 next => exact assigned_decodeAtom _ _
  next => exact assigned_decodeWin _
  next => exact assigned_decodeOwn _
  iterate 8 next => exact assigned_decodeMat _
  next => exact assigned_decodeAcc _
  next => exact assigned_decodeCopy _
  next => exact assigned_decodeSync _
  next => exact assigned_decodeSys _
  iterate 2 next => rfl
  next => exact assigned_decodeVec _

theorem reason_le {x k : Word} {r : Nat} (h : decode x k = .illegal r) : 1 ≤ r ∧ r ≤ 5 := by
  have ha := assigned_decode x k
  rw [h] at ha
  simpa using ha

/-! ### A fetch leaves the pc -/

theorem keepsM_ite_of {α : Type} {P : State → Prop} {c : Prop} [Decidable c] {m n : M α} (hm : KeepsM P m) (hn : KeepsM P n) :
    KeepsM P (if c then m else n) := by
  split
  · exact hm
  · exact hn

/-- The state that a computation leaves, named by its run. -/
theorem keeps_of_exec {α : Type} {P : State → Prop} {m : M α} {s t : State} {r : Except Stop α} (hm : KeepsM P m) (h : M.exec m s = (r, t))
    (hs : P s) : P t := by
  have ht := hm s hs
  rw [h] at ht
  exact ht

theorem front_ite {c : Prop} [Decidable c] {f : Front} {s t : State} (hs : s.front = f) (ht : t.front = f) :
    (if c then s else t).front = f := by
  split
  · exact hs
  · exact ht

theorem touch_front (s : State) (ks : List Key) : (s.touch ks).front = s.front := by
  unfold State.touch
  split <;> rfl

theorem walked_front (s : State) (va : Nat) : (s.walked va).front = s.front := by
  unfold State.walked
  split
  · rfl
  · exact touch_front ..

/-- The stream whose turn it is stands as `f`. -/
def FrontIs (f : Front) (s : State) : Prop := s.front = f

theorem keepsFront_setAD {f : Front} {k : Key} {wr : Bool} : KeepsM (FrontIs f) (setAD k wr) :=
  keepsM_modify fun s (h : s.front = f) => front_ite h (by simpa using h)

theorem keepsFront_lookup {f : Front} {agent va : Nat} {wr : Bool} {elem : Nat} : KeepsM (FrontIs f) (lookup agent va wr elem) := by
  unfold lookup
  refine .bind keepsM_get fun s => keepsM_ite_of (keepsM_throw _) ?_
  extract_lets walkOn go
  have hwalkOn (u) : KeepsM (FrontIs f) (walkOn u) := by
    refine .bind (keepsM_modify fun t ht => (walked_front t va).trans ht) fun _ => ?_
    split
    · exact keepsM_pure _
    all_goals exact keepsM_throw _
  have hgo (u) : KeepsM (FrontIs f) (go u) := keepsM_ite_of (.bind (keepsM_throw _) hwalkOn) (hwalkOn ())
  split
  · exact keepsM_ite_of (keepsM_pure _) (hgo ())
  · exact hgo ()

theorem keepsFront_xlate {f : Front} {agent va : Nat} {p : Perm} {elem : Nat} : KeepsM (FrontIs f) (xlate agent va p elem) := by
  unfold xlate
  refine .bind keepsFront_lookup fun a => ?_
  split
  exact .bind keepsM_get fun _ => keepsM_ite_of (keepsM_throw _) <|
    keepsM_ite_of (keepsM_throw _) (keepsM_ite_of (.bind keepsFront_setAD fun _ => keepsM_pure _) (keepsM_pure _))

theorem keepsFront_keysM {f : Front} {pl : Place} {va n elem : Nat} : KeepsM (FrontIs f) (keysM pl va n elem) := by
  unfold keysM
  refine .bind keepsM_get fun s => ?_
  split
  · exact keepsM_pure _
  · exact keepsM_throw _

theorem pc_of_fetchesAt {s t : State} {va : Nat} {x : Word} (h : FetchesAt s va x t) : t.front.pc = s.front.pc := by
  obtain ⟨pl, ks, s1, s2, hx, hk, -, -, -, rfl⟩ := h
  have h1 : FrontIs s.front s1 := keeps_of_exec keepsFront_xlate hx rfl
  have h2 : s2.front = s.front := keeps_of_exec keepsFront_keysM hk h1
  show s2.front.pc = s.front.pc
  exact congrArg Front.pc h2

/-- Settles O5: the fetch answers the trap of R69, and a word is refused with a reason of R68. -/
theorem illegalWordTakesTrap : Obligations.IllegalWordTakesTrap := by
  unfold Obligations.IllegalWordTakesTrap
  intro s t x r hin hdist hrun hfirst hx hl hd
  have hf : M.exec fetchM s = (.error (.trap (mkTrap causeIllegalInsn r)), t) := by
    rw [exec_fetchM (k := 0) hx (by rw [hl]; exact ⟨rfl, rfl⟩), hd]
    rfl
  refine ⟨?_, reason_le hd⟩
  rw [step_turn hin hdist hrun, frontTurn_of_nothingFirst hfirst, runFront, hf, ← pc_of_fetchesAt hx]
  rfl

end Sys2Proof.Proofs
end

section
/-! The rounding modes of R53 on exact values (R91, R93): what `roundAt` gives is what each mode's name says. -/

namespace Sys2Proof.Proofs

open Sys2Proof Sys2Proof.Machine Sys2Proof.Safety Sys2Proof.Laws

/-- What each mode asks of the integer `w` to which `v` is rounded, and when the result counts as inexact. -/
def RoundsTo (r : Rnd) (w : ℤ) (inexact : Bool) (v : ℚ) : Prop :=
  (inexact = true ↔ (w : ℚ) ≠ v) ∧
  (r.rm = .rne → |(w : ℚ) - v| ≤ 1 / 2 ∧ (|(w : ℚ) - v| = 1 / 2 → w % 2 = 0)) ∧
  (r.rm = .rna → |(w : ℚ) - v| ≤ 1 / 2 ∧ (|(w : ℚ) - v| = 1 / 2 → |v| < |(w : ℚ)|)) ∧
  (r.rm = .rtz → |(w : ℚ)| ≤ |v| ∧ |v| - |(w : ℚ)| < 1) ∧
  (r.rm = .rdn → w = ⌊v⌋) ∧ (r.rm = .rup → w = ⌈v⌉) ∧
  (r.rm = .rsr → r.rbits < 2 ^ 32 → w = ⌊v⌋ + (if (r.rbits : ℤ) < ⌊(v - ⌊v⌋) * 2 ^ 32⌋ then 1 else 0))

theorem roundsTo_self (r : Rnd) (w : ℤ) : RoundsTo r w false w := by
  norm_num [RoundsTo]

/-- Whether a magnitude `n + x / 2 ^ d` that is no integer goes to `n + 1`. -/
def roundsUp (r : Rnd) (neg : Bool) (n x d : Nat) : Bool :=
  match r.rm with
  | .rne | .dyn => 2 ^ (d - 1) < x || (x == 2 ^ (d - 1) && n % 2 == 1)
  | .rtz => false
  | .rdn => neg
  | .rup => !neg
  | .rna => 2 ^ (d - 1) ≤ x
  | .rsr =>
    if neg then !(r.rbits < 2 ^ 32 - x * 2 ^ 32 / 2 ^ d - boolNat (x * 2 ^ 32 % 2 ^ d != 0))
    else r.rbits < x * 2 ^ 32 / 2 ^ d

theorem roundAt_of_le (r : Rnd) (neg : Bool) (m : Nat) {e q : Int} (h : q ≤ e) :
    roundAt r neg m e false q = (m * 2 ^ (e - q).toNat, false) := by
  simp [roundAt, h]

theorem roundAt_of_lt (r : Rnd) (neg : Bool) (m : Nat) {e q : Int} (h : e < q) :
    roundAt r neg m e false q =
      if m % 2 ^ (q - e).toNat = 0 then (m / 2 ^ (q - e).toNat, false)
      else (m / 2 ^ (q - e).toNat +
        boolNat (roundsUp r neg (m / 2 ^ (q - e).toNat) (m % 2 ^ (q - e).toNat) (q - e).toNat), true) := by
  have h' : ¬ q ≤ e := by omega
  unfold roundAt roundsUp
  simp only [ge_iff_le, h', ite_false, Bool.not_false, and_true, Bool.or_false] <;> rfl

/-! ### A magnitude `n + t` with `t` strictly between 0 and 1, and its sign -/

/-- The value of magnitude `a` and sign `neg`. -/
def signed (neg : Bool) (a : ℚ) : ℚ := if neg then -a else a

@[simp] theorem abs_signed (neg : Bool) (a : ℚ) : |signed neg a| = |a| := by
  cases neg <;> simp [signed]

theorem signed_sub (neg : Bool) (a b : ℚ) : signed neg a - signed neg b = signed neg (a - b) := by
  cases neg <;> simp [signed]
  ring

/-- A magnitude that is an integer is rounded by leaving it. -/
theorem roundsTo_of_signed_eq (r : Rnd) {neg : Bool} {k : Nat} {v : ℚ} (h : signed neg k = v) :
    RoundsTo r (if neg then -(k : ℤ) else k) false v := by
  have hv : ((if neg then -(k : ℤ) else k : ℤ) : ℚ) = v := by
    rw [← h]
    cases neg <;> simp [signed]
  exact hv ▸ roundsTo_self r _

/-- In which cases each mode takes `n + t` up to `n + 1`. -/
structure UpIn (r : Rnd) (neg : Bool) (n : Nat) (t : ℚ) (up : Bool) : Prop where
  rne : r.rm = .rne → (up = true ↔ 1 / 2 < t ∨ t = 1 / 2 ∧ n % 2 = 1)
  rna : r.rm = .rna → (up = true ↔ 1 / 2 ≤ t)
  rtz : r.rm = .rtz → up = false
  rdn : r.rm = .rdn → up = neg
  rup : r.rm = .rup → up = !neg
  rsr : r.rm = .rsr → r.rbits < 2 ^ 32 →
    (up = xor neg (decide ((r.rbits : ℤ) < ⌊(if neg then 1 - t else t) * 2 ^ 32⌋)))

section
variable {n : Nat} {t : ℚ} (h0 : 0 < t) (h1 : t < 1)
include h0 h1

theorem floor_signed_add (neg : Bool) : ⌊signed neg (n + t)⌋ = if neg then -(n : ℤ) - 1 else n := by
  rw [Int.floor_eq_iff]
  cases neg <;> simp [signed] <;> constructor <;> linarith

theorem ceil_signed_add (neg : Bool) : ⌈signed neg (n + t)⌉ = if neg then -(n : ℤ) else n + 1 := by
  rw [Int.ceil_eq_iff]
  cases neg <;> simp [signed] <;> constructor <;> linarith

theorem abs_step_sub (up : Bool) : |((n + boolNat up : Nat) : ℚ) - (n + t)| = if up then 1 - t else t := by
  cases up
  · simp [boolNat, abs_of_pos h0]
  · simp [boolNat, h1.le]

/-- A magnitude that each mode takes up in its cases is rounded as the mode's name says. -/
theorem roundsTo_of_upIn {r : Rnd} {neg up : Bool} (h : UpIn r neg n t up) :
    RoundsTo r (if neg then -((n + boolNat up : Nat) : ℤ) else (n + boolNat up : Nat)) true (signed neg (n + t)) := by
  have hw : (((if neg then -((n + boolNat up : Nat) : ℤ) else (n + boolNat up : Nat)) : ℤ) : ℚ)
      = signed neg ((n + boolNat up : Nat) : ℚ) := by
    cases neg <;> simp [signed]
  have hd : |signed neg ((n + boolNat up : Nat) : ℚ) - signed neg (n + t)| = if up then 1 - t else t := by
    rw [signed_sub, abs_signed, abs_step_sub h0 h1]
  have hv : |signed neg ((n : ℚ) + t)| = n + t := by
    rw [abs_signed, abs_of_pos (by positivity)]
  unfold RoundsTo
  rw [hw, hd, hv, abs_signed, Nat.abs_cast]
  refine ⟨⟨fun _ he => ?_, fun _ => rfl⟩, fun hm => ?_, fun hm => ?_, fun hm => ?_, fun hm => ?_, fun hm => ?_, fun hm hr => ?_⟩
  · rw [he, sub_self, abs_zero] at hd
    cases up <;> simp at hd <;> linarith
  · have hu := h.rne hm
    cases up
    · have hn : ¬ (1 / 2 < t ∨ t = 1 / 2 ∧ n % 2 = 1) := fun hc => Bool.false_ne_true (hu.2 hc)
      rw [not_or, not_lt, not_and] at hn
      refine ⟨hn.1, fun ht => ?_⟩
      have := hn.2 ht
      cases neg <;> simp only [boolNat, Bool.false_eq_true, if_true, if_false] <;> omega
    · refine ⟨?_, fun ht => ?_⟩
      · rcases hu.1 rfl with hc | ⟨hc, -⟩ <;> simp <;> linarith
      · rcases hu.1 rfl with hc | ⟨-, hc⟩
        · simp at ht; linarith
        · cases neg <;> simp only [boolNat, Bool.false_eq_true, if_true, if_false] <;> omega
  · have hu := h.rna hm
    cases up
    · have hn : t < 1 / 2 := not_le.1 fun hc => Bool.false_ne_true (hu.2 hc)
      exact ⟨hn.le, fun ht => absurd ht hn.ne⟩
    · have hn := hu.1 rfl
      refine ⟨?_, fun _ => ?_⟩
      · simp; linarith
      · simp [boolNat]; linarith
  · rw [h.rtz hm]
    simp [boolNat, h0.le, h1]
  · rw [h.rdn hm, floor_signed_add h0 h1]
    cases neg <;> simp [boolNat]
    ring
  · rw [h.rup hm, ceil_signed_add h0 h1]
    cases neg <;> simp [boolNat]
  · have hf : signed neg (n + t) - ⌊signed neg (n + t)⌋ = if neg then 1 - t else t := by
      rw [floor_signed_add h0 h1]
      cases neg <;> simp [signed]
      ring
    rw [h.rsr hm hr, hf, floor_signed_add h0 h1]
    by_cases hc : (r.rbits : ℤ) < ⌊(if neg then 1 - t else t) * 2 ^ 32⌋ <;> simp only [hc] <;> cases neg <;> simp [boolNat]
    ring

end

/-! ### The fraction `x / 2 ^ d` -/

theorem floor_frac_mul (x d : Nat) : ⌊(x / 2 ^ d : ℚ) * 2 ^ 32⌋ = (x * 2 ^ 32 / 2 ^ d : Nat) := by
  have h : (x / 2 ^ d : ℚ) * 2 ^ 32 = ((x * 2 ^ 32 : Nat) : ℚ) / ((2 ^ d : Nat) : ℚ) := by
    push_cast
    ring
  rw [h, Rat.floor_natCast_div_natCast]
  rfl

/-- The complement of the fraction in units of 2^-32: the integer part of the fraction, and one for what is left. -/
theorem floor_one_sub_frac_mul (x d : Nat) :
    ⌊(1 - x / 2 ^ d : ℚ) * 2 ^ 32⌋ =
      2 ^ 32 - ((x * 2 ^ 32 / 2 ^ d : Nat) : ℤ) - (boolNat (x * 2 ^ 32 % 2 ^ d != 0) : Nat) := by
  have hD : (0 : ℚ) < 2 ^ d := by positivity
  have hmod : x * 2 ^ 32 % 2 ^ d < 2 ^ d := Nat.mod_lt _ (by positivity)
  have hdiv : ((2 ^ d : ℚ)) * (x * 2 ^ 32 / 2 ^ d : Nat) + (x * 2 ^ 32 % 2 ^ d : Nat) = x * 2 ^ 32 := by
    exact_mod_cast Nat.div_add_mod (x * 2 ^ 32) (2 ^ d)
  generalize x * 2 ^ 32 / 2 ^ d = y at *
  generalize x * 2 ^ 32 % 2 ^ d = ρ at *
  have hmod' : (ρ : ℚ) < 2 ^ d := by exact_mod_cast hmod
  have hv : (1 - x / 2 ^ d : ℚ) * 2 ^ 32 = 2 ^ 32 - y - ρ / 2 ^ d := by
    field_simp
    linarith
  rw [hv, Int.floor_eq_iff]
  have hlt : (ρ : ℚ) / 2 ^ d < 1 := (div_lt_one hD).2 hmod'
  rcases Nat.eq_zero_or_pos ρ with rfl | hpos
  · norm_num [boolNat]
  · have hgt : (0 : ℚ) < ρ / 2 ^ d := by positivity
    simp [boolNat, hpos.ne']
    constructor <;> linarith

theorem upIn_roundsUp (r : Rnd) (neg : Bool) (n : Nat) {x d : Nat} (h0 : 0 < x) (h1 : x < 2 ^ d) :
    UpIn r neg n (x / 2 ^ d) (roundsUp r neg n x d) := by
  obtain ⟨k, rfl⟩ : ∃ k, d = k + 1 := Nat.exists_eq_add_one.2 (Nat.pos_of_ne_zero (by rintro rfl; omega))
  have hD : (0 : ℚ) < 2 ^ (k + 1) := by positivity
  have hlt : (1 / 2 : ℚ) < x / 2 ^ (k + 1) ↔ 2 ^ k < x := by
    rw [lt_div_iff₀ hD, pow_succ, show (1 / 2 : ℚ) * (2 ^ k * 2) = (2 ^ k : Nat) by push_cast; ring, Nat.cast_lt]
  have hle : (1 / 2 : ℚ) ≤ x / 2 ^ (k + 1) ↔ 2 ^ k ≤ x := by
    rw [le_div_iff₀ hD, pow_succ, show (1 / 2 : ℚ) * (2 ^ k * 2) = (2 ^ k : Nat) by push_cast; ring, Nat.cast_le]
  have heq : (x / 2 ^ (k + 1) : ℚ) = 1 / 2 ↔ x = 2 ^ k := by
    rw [le_antisymm_iff, hle, ← not_lt, hlt, not_lt, ← le_antisymm_iff]
  constructor
  · intro hm
    rw [hlt, heq]
    simp [roundsUp, hm]
  · intro hm
    rw [hle]
    simp [roundsUp, hm]
  · intro hm
    simp [roundsUp, hm]
  · intro hm
    simp [roundsUp, hm]
  · intro hm
    simp [roundsUp, hm]
  · intro hm _
    cases neg
    · simp only [roundsUp, hm, Bool.false_eq_true, if_false, floor_frac_mul, Bool.false_xor, Nat.cast_lt]
    · simp only [roundsUp, hm, if_true, floor_one_sub_frac_mul, Bool.true_xor]
      congr 2
      exact propext (by omega)

theorem signed_roundAt_zpow {neg : Bool} {m : Nat} {e q : Int} (h : e < q) :
    signed neg ((m / 2 ^ (q - e).toNat : Nat) + (m % 2 ^ (q - e).toNat : Nat) / 2 ^ (q - e).toNat)
      = (if neg then -1 else 1) * m * 2 ^ (e - q) := by
  obtain ⟨d, hd⟩ : ∃ d : Nat, q - e = d := ⟨(q - e).toNat, by omega⟩
  have hp : (2 : ℚ) ^ (e - q) = (2 ^ d)⁻¹ := by
    rw [show e - q = -(d : ℤ) by omega, zpow_neg, zpow_natCast]
  have hm : ((2 ^ d : ℚ)) * (m / 2 ^ d : Nat) + (m % 2 ^ d : Nat) = m := by
    exact_mod_cast Nat.div_add_mod m (2 ^ d)
  rw [hp, hd, Int.toNat_natCast, ← hm]
  cases neg <;> simp only [signed, Bool.false_eq_true, if_true, if_false] <;> field_simp

/-- Settles O31. Above the last place `roundAt` is exact; below it, the magnitude is an integer and a fraction. -/
theorem roundingModes : Obligations.RoundingModes := by
  unfold Obligations.RoundingModes
  intro r neg m e q
  show RoundsTo r (if neg then -((roundAt r neg m e false q).1 : ℤ) else (roundAt r neg m e false q).1)
    (roundAt r neg m e false q).2 ((if neg then -1 else 1) * m * 2 ^ (e - q))
  rcases le_or_gt q e with h | h
  · rw [roundAt_of_le r neg m h]
    refine roundsTo_of_signed_eq r ?_
    obtain ⟨d, hd⟩ : ∃ d : Nat, e - q = d := ⟨(e - q).toNat, by omega⟩
    cases neg <;> simp [signed, hd]
  · rw [roundAt_of_lt r neg m h, ← signed_roundAt_zpow h]
    by_cases hx : m % 2 ^ (q - e).toNat = 0
    · rw [if_pos hx, hx]
      exact roundsTo_of_signed_eq r (by simp)
    · have hpos : 0 < m % 2 ^ (q - e).toNat := Nat.pos_of_ne_zero hx
      have hlt : m % 2 ^ (q - e).toNat < 2 ^ (q - e).toNat := Nat.mod_lt _ (by positivity)
      rw [if_neg hx]
      refine roundsTo_of_upIn (by positivity) ?_ (upIn_roundsUp r neg _ hpos hlt)
      rw [div_lt_one (by positivity)]
      exact_mod_cast hlt

end Sys2Proof.Proofs
end

section
/-! The return from a trap (R392). -/

namespace Sys2Proof.Proofs

open Sys2Proof Sys2Proof.Machine Sys2Proof.Safety Sys2Proof.Laws

/-- The state an eret that is neither refused nor held leaves. -/
def returned (rq : Bool) (s : State) : State := if rq then reissue (leaveTrap rq s) else caughtUp (leaveTrap rq s)

theorem exec_eret {s : State} (rq : Bool) (hm : s.front.csr.mode = true) :
    exec (.eret rq) s = .next (
      if s.front.queue.isEmpty || rq then
        if s.front.csr.tpc.toNat % 8 == 0 then
          if !s.front.resumed || s.front.cmds.isEmpty then returned rq s else s
        else stopTrap s (mkTrap causeAlign 0 0 s.front.csr.tpc.toNat) s.front.pc
      else stopTrap s (operandTrapHi 14) s.front.pc) := by
  have hsup : M.exec supervisor s = (.ok (), s) := by simp [supervisor, exec_bind, hm]
  show execEret rq s = _
  unfold execEret frontM
  rw [exec_bind_ok hsup, exec_bind_ok (exec_get s)]
  by_cases hq : (s.front.queue.isEmpty || rq) = true
  · by_cases ht : (s.front.csr.tpc.toNat % 8 == 0) = true
    · by_cases hw : (!s.front.resumed || s.front.cmds.isEmpty) = true
      · simp only [exec_bind, exec_need, exec_waitFor, exec_modify, hq, ht, hw, if_true]
        rfl
      · simp only [exec_bind, exec_need, exec_waitFor, hq, ht, hw, if_true, if_false, Bool.false_eq_true]
    · simp only [exec_bind, exec_need, hq, ht, if_true, if_false, Bool.false_eq_true]
      rfl
  · simp only [exec_bind, exec_need, hq, if_false, Bool.false_eq_true]
    rfl

/-- All that FLOOR's catching up changes. -/
theorem caughtUp_eq (s : State) : caughtUp s = s.mapCsr (fun c =>
    { c with floor := if s.front.bcasts = [] ∧ s.front.queue = [] then c.isn else c.floor }) := by
  unfold caughtUp
  by_cases h : s.front.bcasts = [] ∧ s.front.queue = []
  · simp [h]
  · rw [if_neg (by simpa using h)]
    simp only [h, if_false]
    rfl

/-- The entries of a queue as they join the broadcasts: the first from element `e` with the flags `held`, the others from 0. -/
def requeued (e : Nat) (held : Flags) (w : Watches) (p : Bcast × Nat) : Bcast :=
  if p.2 = 0 then { p.1 with estart := e, flags := p.1.flags ||| held, watch := w } else { p.1 with estart := 0, watch := w }

theorem reissue_eq (s : State) : reissue s = caughtUp { s with front := { s.front with
    bcasts := s.front.bcasts ++ s.front.queue.zipIdx.map (requeued s.front.csr.estart.toNat s.front.heldFlags s.front.csr.watches)
    queue := [], heldFlags := 0, exemptAt := (s.front.queue.head?.map (·.isn)).orElse (fun _ => s.front.exemptAt) } } := rfl

theorem word_isn_estart_requeued (e : Nat) (held : Flags) (w : Watches) (p : Bcast × Nat) :
    ((requeued e held w p).word, (requeued e held w p).isn, (requeued e held w p).estart) =
      (p.1.word, p.1.isn, if p.2 = 0 then e else 0) := by
  unfold requeued
  split <;> rfl

/-- What a return leaves, field by field, as R392 says it. -/
theorem returned_spec {rq : Bool} {s : State} (hq : s.front.queue = [] ∨ rq = true) :
    let t := returned rq s
    t.front.pc = s.front.csr.tpc ∧
      t.front.csr = { s.front.csr with
        mode := s.front.csr.pmode
        ie := s.front.csr.pie
        floor := if s.front.bcasts = [] ∧ s.front.queue = [] then s.front.csr.isn else s.front.csr.floor } ∧
      t.front.stopWin = false ∧ t.front.icache = [] ∧ t.front.exempt = !rq ∧
      (rq = true → ∀ b, s.front.queue.head? = some b → t.front.exemptAt = some b.isn) ∧ t.front.queue = [] ∧
      (t.front.bcasts.map (fun b => (b.word, b.isn, b.estart))) =
        s.front.bcasts.map (fun b => (b.word, b.isn, b.estart)) ++
          s.front.queue.zipIdx.map (fun p => (p.1.word, p.1.isn, if p.2 = 0 then s.front.csr.estart.toNat else 0)) ∧
      t.front.s = s.front.s ∧ t.front.w = s.front.w ∧ t.mem = s.mem := by
  cases rq with
  | false =>
    have he : s.front.queue = [] := hq.resolve_right nofun
    rw [returned, if_neg nofun, caughtUp_eq, leaveTrap_eq]
    refine ⟨rfl, rfl, rfl, rfl, rfl, nofun, he, ?_, rfl, rfl, rfl⟩
    rw [he]
    exact (List.append_nil _).symm
  | true =>
    rw [returned, if_pos rfl, reissue_eq, caughtUp_eq, leaveTrap_eq]
    refine ⟨rfl, ?_, rfl, rfl, rfl, fun _ b hb => ?_, rfl, ?_, rfl, rfl, rfl⟩
    · simp only [State.mapCsr, List.append_eq_nil_iff, List.map_eq_nil_iff, List.zipIdx_eq_nil_iff, and_true]
    · show (s.front.queue.head?.map (·.isn)).orElse _ = _
      rw [hb]
      rfl
    · show List.map _ (s.front.bcasts ++ _) = _
      rw [List.map_append, List.map_map]
      exact congrArg _ (List.map_congr_left fun p _ => word_isn_estart_requeued ..)

/-- Settles O39: the checks of eret in their order, then `returned_spec`. -/
theorem eretReturns : Obligations.EretReturns := by
  unfold Obligations.EretReturns
  intro rq s hm
  rw [exec_eret rq hm]
  refine ⟨fun hne hrq => ?_, fun hq ht => ?_, fun hq ht hw => ⟨returned rq s, ?_, returned_spec hq⟩⟩
  · rw [if_neg (by simpa [hrq] using hne)]
  · rw [if_pos (by simpa using hq), if_neg (by simpa using ht)]
  · rw [if_pos (by simpa using hq), if_pos (by simpa using ht), if_pos (by simpa using hw)]

end Sys2Proof.Proofs
end

section
/-! The items of vector instructions, one for each element (R73, R207): the plans of their bodies. -/

namespace Sys2Proof.Proofs

open Sys2Proof Sys2Proof.Machine Sys2Proof.Safety Sys2Proof.Laws

/-! ### Which plan an instruction has -/

theorem plan_of_elementOf {i : Instr} {v : VArgs} {df : Fmt} {sm : Bool} {fn : ElemFn} {info : BInfo} (hi : infoOf i = some info)
    (he : elementOf i = some (v, df, sm, fn)) : info.body.plan = (frameBody v df sm [] fn).plan := by
  cases i
  case vcvt sf w =>
    by_cases h : w.fmt.isS = true
    · simp [elementOf, h] at he
    · simp only [elementOf, if_neg h] at he
      cases he
      cases hi
      simp only [infoVcvt, bodyCvt, if_neg h]
      rfl
  all_goals cases he <;> cases hi <;> rfl

theorem plan_of_scanOf {i : Instr} {v : VArgs} {o : RedOp} {info : BInfo} (hi : infoOf i = some info)
    (ho : scanOf i = some (v, o)) : info.body.plan = (bodyScan o v).plan := by
  cases i
  case vscanAdd | vscanMax | vscanMin => cases ho; cases hi; rfl
  all_goals cases ho

theorem plan_of_movesOf {i : Instr} {v : VArgs} {mv : Moves} {info : BInfo} (hi : infoOf i = some info)
    (hm : movesOf i = some (v, mv)) : info.body.plan = (bodyMove mv v).plan := by
  cases i
  case vcompact | vexpand => cases hm; cases hi; rfl
  all_goals cases hm

/-! ### An exchange: the leaves of the real elements, and the destinations -/

theorem flatMap_ite_lt (n r : Nat) : (List.range n).flatMap (fun i => if i < r then [i] else []) = List.range (min n r) := by
  induction n with
  | zero => simp
  | succ n ih =>
    rw [List.range_succ, List.flatMap_append, ih]
    rcases lt_or_ge n r with h | h
    · simp [h, min_eq_left h.le, List.range_succ]
    · simp [Nat.not_lt.2 h, min_eq_right h, min_eq_right (h.trans n.le_succ)]

section
variable {e : Eye} {b : Bcast} {leaf dst : Nat → Item}

theorem mem_exchangePlan {it : Item} (h : it ∈ exchangePlan e b leaf dst) : (∃ j, it = leaf j) ∨ ∃ i, it = dst i := by
  unfold exchangePlan at h
  split at h
  · rcases List.mem_append.1 h with h | h <;> obtain ⟨j, -, rfl⟩ := List.mem_map.1 h
    · exact .inl ⟨j, rfl⟩
    · exact .inr ⟨j, rfl⟩
  · obtain ⟨i, -, h⟩ := List.mem_flatMap.1 h
    split at h <;> simp only [List.mem_cons, List.not_mem_nil, or_false] at h
    · exact h.symm.imp (⟨i, ·⟩) (⟨i, ·⟩)
    · exact .inr ⟨i, h⟩

variable (hleaf : ∀ j, (leaf j).again = true ∧ (leaf j).elem = j) (hdst : ∀ i, (dst i).again = false ∧ (dst i).elem = i)
include hleaf hdst

theorem leaves_exchangePlan : ((exchangePlan e b leaf dst).filter (·.again)).map (·.elem) = List.range b.carry.real := by
  unfold exchangePlan
  split
  · simp [List.filter_append, List.filter_map, List.map_map, Function.comp_def, hleaf, hdst]
  · have hr : b.carry.real ≤ b.carry.vl.toNat := Nat.sub_le ..
    rw [List.filter_flatMap, List.map_flatMap, ← min_eq_right hr, ← flatMap_ite_lt, min_eq_right hr]
    refine List.flatMap_congr fun i _ => ?_
    split <;> simp [hleaf, hdst]

theorem destinations_exchangePlan :
    ((exchangePlan e b leaf dst).filter (fun it => !it.again)).map (·.elem) = List.range b.carry.vl.toNat := by
  unfold exchangePlan
  split
  · simp [List.filter_append, List.filter_map, List.map_map, Function.comp_def, hleaf, hdst]
  · conv_rhs => rw [← List.flatMap_singleton' (List.range b.carry.vl.toNat)]
    rw [List.filter_flatMap, List.map_flatMap]
    refine List.flatMap_congr fun i _ => ?_
    split <;> simp [hleaf, hdst]

end

/-! ### A block-scaled destination: the elements, and the scale of each group -/

theorem flatMap_ite_mod {n : Nat} (hn : 0 < n) (m : Nat) :
    (List.range m).flatMap (fun i => if i % n = 0 then [i / n] else []) = List.range ((m + n - 1) / n) := by
  induction m with
  | zero => simp [Nat.div_eq_of_lt (Nat.sub_lt hn one_pos)]
  | succ m ih =>
    have hs : (m + 1 + n - 1) / n = m / n + 1 := by rw [show m + 1 + n - 1 = m + n by omega, Nat.add_div_right m hn]
    rw [List.range_succ, List.flatMap_append, ih, hs]
    have hd : (m + n - 1) / n = m / n + (m % n + (n - 1)) / n := by
      rw [← Nat.mul_add_div hn, ← Nat.add_assoc, Nat.div_add_mod, Nat.add_sub_assoc hn]
    by_cases h : m % n = 0
    · have hm : (m % n + (n - 1)) / n = 0 := Nat.div_eq_of_lt (by omega)
      rw [hd, hm]
      simp [h, List.range_succ]
    · have hlt := Nat.mod_lt m hn
      have hm : (m % n + (n - 1)) / n = 1 := Nat.div_eq_of_lt_le (by omega) (by omega)
      rw [hd, hm]
      simp [h]

section
variable {sf : Fmt} {v : VArgs} {e : Eye} {fp : Option (List Range)} {b : Bcast}

/-- The item of element `i` of a block-scaled destination. -/
def codeItem (sf : Fmt) (v : VArgs) (e : Eye) (fp : Option (List Range)) (b : Bcast) (i : Nat) : Item where
  no := i
  elem := i
  own _ := destOwner false (b.carry.win 0) v.fmt e b.carry.vl.toNat i
  run b' := frameItem false false (b.carry.win 0) v.fmt (fnCvtBlock sf v) e fp b' i

/-- The item of the scale of group `g`, which the group's first element `i` carries. -/
def groupItem (sf : Fmt) (v : VArgs) (e : Eye) (fp : Option (List Range)) (b : Bcast) (i g : Nat) : Item where
  no := b.carry.vl.toNat + g
  elem := i
  own _ := destOwner false (b.carry.win 0).scale (scaleFmt v.fmt) e b.carry.vl.toNat g
  run b' := scaleItem sf v e fp b' g

theorem blockPlan_eq : blockPlan sf v e fp b = (List.range b.carry.vl.toNat).flatMap (fun i =>
    codeItem sf v e fp b i :: if i % Desc.group (b.carry.win 0).d = 0 then
      [groupItem sf v e fp b i (i / Desc.group (b.carry.win 0).d)] else []) := by
  unfold blockPlan
  refine List.flatMap_congr fun i _ => ?_
  dsimp only
  split <;> rfl

theorem codes_blockPlan :
    ((blockPlan sf v e fp b).filter (fun it => it.no < b.carry.vl.toNat)).map (·.no) = List.range b.carry.vl.toNat := by
  conv_rhs => rw [← List.flatMap_singleton' (List.range b.carry.vl.toNat)]
  rw [blockPlan_eq, List.filter_flatMap, List.map_flatMap]
  refine List.flatMap_congr fun i hi => ?_
  have hlt : i < b.carry.vl.toNat := List.mem_range.1 hi
  split <;> simp [codeItem, groupItem, hlt]

theorem scales_blockPlan :
    ((blockPlan sf v e fp b).filter (fun it => b.carry.vl.toNat ≤ it.no)).map (·.no) =
      (List.range ((b.carry.vl.toNat + Desc.group (b.carry.win 0).d - 1) / Desc.group (b.carry.win 0).d)).map
        (b.carry.vl.toNat + ·) := by
  rw [← flatMap_ite_mod (n := Desc.group (b.carry.win 0).d) (Nat.two_pow_pos _), List.map_flatMap, blockPlan_eq, List.filter_flatMap, List.map_flatMap]
  refine List.flatMap_congr fun i hi => ?_
  have hlt : ¬ b.carry.vl.toNat ≤ i := Nat.not_le.2 (List.mem_range.1 hi)
  by_cases h : i % Desc.group (b.carry.win 0).d = 0 <;> simp [codeItem, groupItem, h, hlt]

theorem mem_blockPlan {it : Item} (h : it ∈ blockPlan sf v e fp b) :
    (∃ i < b.carry.vl.toNat, it = codeItem sf v e fp b i) ∨ ∃ i g, it = groupItem sf v e fp b i g := by
  rw [blockPlan_eq] at h
  obtain ⟨i, hi, h⟩ := List.mem_flatMap.1 h
  rcases List.mem_cons.1 h with h | h
  · exact .inl ⟨i, List.mem_range.1 hi, h⟩
  · split at h
    · exact .inr ⟨i, _, List.mem_singleton.1 h⟩
    · cases h

theorem run_of_mem_blockPlan {it : Item} (h : it ∈ blockPlan sf v e fp b) :
    it.run = fun b' => if it.no < b.carry.vl.toNat then frameItem false false (b.carry.win 0) v.fmt (fnCvtBlock sf v) e fp b' it.no
      else scaleItem sf v e fp b' (it.no - b.carry.vl.toNat) := by
  obtain ⟨i, hlt, rfl⟩ | ⟨i, g, rfl⟩ := mem_blockPlan h <;> funext b'
  · exact (if_pos hlt).symm
  · have hno : (groupItem sf v e fp b i g).no = b.carry.vl.toNat + g := rfl
    rw [hno, if_neg (by omega), Nat.add_sub_cancel_left]
    rfl

end

/-- Settles O28: each plan's items, family by family. -/
theorem elementsOfVectorInstructions : Obligations.ElementsOfVectorInstructions := by
  unfold Obligations.ElementsOfVectorInstructions
  intro i v info e fp b s hi
  refine ⟨fun df sm fn he => ?_, fun o ho => ?_, fun mv hm => ?_, fun sf hc hS => ?_⟩
  · rw [plan_of_elementOf hi he]
    refine ⟨_, rfl, by simp [Function.comp_def], fun it hit => ?_⟩
    obtain ⟨j, -, rfl⟩ := List.mem_map.1 hit
    exact ⟨rfl, rfl⟩
  · rw [plan_of_scanOf hi ho]
    refine ⟨_, rfl, leaves_exchangePlan (fun _ => ⟨rfl, rfl⟩) (fun _ => ⟨rfl, rfl⟩),
      destinations_exchangePlan (fun _ => ⟨rfl, rfl⟩) (fun _ => ⟨rfl, rfl⟩), fun it hit => ?_⟩
    obtain ⟨j, rfl⟩ | ⟨j, rfl⟩ := mem_exchangePlan hit <;> rfl
  · rw [plan_of_movesOf hi hm]
    refine ⟨_, rfl, leaves_exchangePlan (fun _ => ⟨rfl, rfl⟩) (fun _ => ⟨rfl, rfl⟩),
      destinations_exchangePlan (fun _ => ⟨rfl, rfl⟩) (fun _ => ⟨rfl, rfl⟩), fun it hit => ?_⟩
    obtain ⟨j, rfl⟩ | ⟨j, rfl⟩ := mem_exchangePlan hit <;> rfl
  · subst hc
    cases hi
    have hp : (infoVcvt sf v).body.plan e fp b = pure (blockPlan sf v e fp b) := by
      simp only [infoVcvt, bodyCvt, if_pos hS]
      rfl
    rw [hp]
    exact ⟨_, rfl, codes_blockPlan, scales_blockPlan, fun _ => run_of_mem_blockPlan⟩

end Sys2Proof.Proofs
end

section
/-! A destination element's write (R72, R73, R211): its bytes, and the version-shelf entry that keeps the old ones (R196). -/

namespace Sys2Proof.Proofs

open Sys2Proof Sys2Proof.Machine Sys2Proof.Safety Sys2Proof.Laws

/-! ### Several bytes -/

theorem get_sets_of_not_mem {l : List (Key × Byte)} {q : Key} (hq : q ∉ l.map (·.1)) {m : Memory} (h : m.wf = true) :
    (m.sets l).get q = m.get q := by
  induction l generalizing m with
  | nil => rfl
  | cons p r ih =>
    rw [List.map_cons, List.mem_cons, not_or] at hq
    exact (ih hq.2 (wf_set m p.1 p.2 h)).trans (get_set_other p.2 h hq.1)

/-- Bytes written at distinct keys are the bytes read there. -/
theorem gets_sets_zip {ks : List Key} (hn : ks.Nodup) {bs : List Byte} (hl : bs.length = ks.length) {m : Memory} (h : m.wf = true) :
    (m.sets (ks.zip bs)).gets ks = bs := by
  induction ks generalizing bs m with
  | nil => exact (List.length_eq_zero_iff.1 hl).symm
  | cons k ks ih =>
    obtain ⟨b, bs, rfl⟩ := List.exists_cons_of_length_eq_add_one hl
    obtain ⟨hk, hn⟩ := List.nodup_cons.1 hn
    have hl : bs.length = ks.length := Nat.succ.inj hl
    have hk' : k ∉ (ks.zip bs).map (·.1) := by rwa [List.map_fst_zip hl.ge]
    have hw : (m.set k b).wf = true := wf_set m k b h
    exact congrArg₂ _ ((get_sets_of_not_mem hk' hw).trans (get_set_same m k b h)) (ih hn hl hw)

/-! ### A store to readable places -/

/-- Nothing is dropped or logged where every place is readable: the bytes are put, and shelves and stream stay. -/
theorem store_readable {s : State} {kbs : List (Key × Byte)} (h : unreadable s (kbs.map (·.1)) = false) :
    (s.store kbs).mem = s.mem.sets kbs ∧ (s.store kbs).shelves = s.shelves ∧ (s.store kbs).front = s.front := by
  simp only [unreadable, List.any_map, List.any_eq_false, Function.comp_apply, Bool.or_eq_true, not_or, Bool.not_eq_true] at h
  have hgone : kbs.filter (fun p => keyCls p.1 == .sm && !smPresent s p.1) = [] :=
    List.filter_eq_nil_iff.2 fun p hp => by simp [(h p hp).2]
  have hkept : kbs.filter (fun p => !(keyCls p.1 == .sm && !smPresent s p.1)) = kbs :=
    List.filter_eq_self.2 fun p hp => by simp [(h p hp).2]
  have hhurt (whole : List Nat) : ((kbs.map (·.1)).map (· / 8)).dedup.filter
      (fun w => s.poison.contains w && keyCls (8 * w) != .hm && !whole.contains w) = [] := by
    refine List.filter_eq_nil_iff.2 fun w hw => ?_
    obtain ⟨k, hk, rfl⟩ := List.mem_map.1 (List.mem_dedup.1 hw)
    obtain ⟨p, hp, rfl⟩ := List.mem_map.1 hk
    simp only [(h p hp).1, Bool.false_and, Bool.false_eq_true, not_false_eq_true]
  unfold State.store
  simp only [hgone, hkept, hhurt, List.foldl_nil]
  unfold State.touch
  split <;> exact ⟨rfl, rfl, rfl⟩

/-! ### The shelf entries of a write -/

/-- The running stream's entries for a sector. -/
def entriesOf (s : State) (c : Nat) : List Shelf := s.shelves.filter (fun r => r.sid == s.front.sid && r.sector == c)

theorem entriesOf_congr {s t : State} {c : Nat} (hs : s.shelves = t.shelves) (hf : s.front = t.front) : entriesOf s c = entriesOf t c := by
  rw [entriesOf, hs, hf]
  rfl

theorem nodup_sectorsOf (ks : List Key) : (sectorsOf ks).Nodup := List.nodup_dedup _

/-- The pre-image of sector `c` goes to its owner's shelf, where it has one (R196). -/
def shelved (isn : Nat) (s : State) (c : Nat) : State :=
  match ownerOf s (32 * c) with
  | some o => shelfPut s o c isn
  | none => s

theorem storeAt_eq (s : State) (isn : Nat) (shelve : Bool) (kbs : List (Key × Byte)) :
    s.storeAt isn shelve kbs = (if shelve then (sectorsOf (kbs.map (·.1))).foldl (shelved isn) (patchShelf s isn kbs)
      else patchShelf s isn kbs).store kbs := rfl

/-- Two states that differ in their shelves alone. -/
def SameButShelves (s t : State) : Prop := t = { s with shelves := t.shelves }

theorem SameButShelves.trans {s t u : State} (h : SameButShelves s t) (h' : SameButShelves t u) : SameButShelves s u := by
  unfold SameButShelves at *
  rw [h']
  rw [h]

theorem sameButShelves_shelfPut (s : State) (o c isn : Nat) : SameButShelves s (shelfPut s o c isn) := by
  unfold shelfPut
  split <;> rfl

theorem sameButShelves_shelved (isn : Nat) (s : State) (c : Nat) : SameButShelves s (shelved isn s c) := by
  unfold shelved
  split
  · exact sameButShelves_shelfPut ..
  · rfl

theorem sameButShelves_foldl_shelved (isn : Nat) (l : List Nat) (s : State) : SameButShelves s (l.foldl (shelved isn) s) := by
  induction l generalizing s with
  | nil => rfl
  | cons c l ih => exact (sameButShelves_shelved isn s c).trans (ih _)

section
variable {s : State} {c c' o isn st : Nat}

theorem entriesOf_patchShelf (kbs : List (Key × Byte)) (h : entriesOf s c = []) : entriesOf (patchShelf s isn kbs) c = [] := by
  rw [entriesOf, List.filter_eq_nil_iff] at h ⊢
  intro r hr
  obtain ⟨x, hx, rfl⟩ := List.mem_map.1 hr
  have hx := h x hx
  split <;> exact hx

theorem entriesOf_shelfPut_other (h : c ≠ c') : entriesOf (shelfPut s o c isn) c' = entriesOf s c' := by
  unfold shelfPut
  split
  · rfl
  · simp [entriesOf, h]

theorem entriesOf_shelfPut_same (h : entriesOf s c = []) : entriesOf (shelfPut s o c isn) c =
    [{ own := o, sid := s.front.sid, sector := c, isn := isn, bytes := sectorBytes s c, bad := sectorBad s c, action := false }] := by
  have hoff : onShelf s o c isn = false := by
    rw [entriesOf, List.filter_eq_nil_iff] at h
    refine List.any_eq_false.2 fun r hr hc => h r hr ?_
    simp only [Bool.and_eq_true] at hc ⊢
    exact ⟨hc.1.1.1.2, hc.1.1.2⟩
  unfold shelfPut
  rw [hoff]
  simpa [entriesOf] using h

theorem entriesOf_shelved_other (h : c ≠ c') : entriesOf (shelved isn s c) c' = entriesOf s c' := by
  unfold shelved
  split
  · exact entriesOf_shelfPut_other h
  · rfl

theorem entriesOf_foldl_shelved_other {l : List Nat} (h : c' ∉ l) : entriesOf (l.foldl (shelved isn) s) c' = entriesOf s c' := by
  induction l generalizing s with
  | nil => rfl
  | cons c l ih =>
    rw [List.mem_cons, not_or] at h
    exact (ih h.2).trans (entriesOf_shelved_other (Ne.symm h.1))

/-- Putting the pre-images of distinct sectors, one with an owner and no entry yet, gives that one an entry that holds
its bytes as they stood. -/
theorem entriesOf_foldl_shelved {l : List Nat} (hn : l.Nodup) (hc : c ∈ l) (ho : ownerOf s (32 * c) = some o) (he : entriesOf s c = []) :
    entriesOf (l.foldl (shelved isn) s) c =
      [{ own := o, sid := s.front.sid, sector := c, isn := isn, bytes := sectorBytes s c, bad := sectorBad s c, action := false }] := by
  induction l generalizing s with
  | nil => cases hc
  | cons a l ih =>
    obtain ⟨ha, hn⟩ := List.nodup_cons.1 hn
    by_cases hac : a = c
    · subst hac
      rw [List.foldl_cons, entriesOf_foldl_shelved_other ha, shelved, ho]
      exact entriesOf_shelfPut_same he
    · have hl : c ∈ l := (List.mem_cons.1 hc).resolve_left (Ne.symm hac)
      have hs := sameButShelves_shelved isn s a
      have he' : entriesOf (shelved isn s a) c = [] := (entriesOf_shelved_other hac).trans he
      rw [List.foldl_cons, ih hn hl (by rw [hs]; exact ho) he', hs]
      rfl

/-- A sector's only entry of the stream serves every pull stamped below it (R193). -/
theorem shelfServe_of_entriesOf {r : Shelf} (h : entriesOf s c = [r]) (hst : st < r.isn) (ha : r.action = false) :
    shelfServe s c st = some r := by
  have hf : s.shelves.filter (fun e => e.sid == s.front.sid && e.sector == c && st < e.isn && !e.action) =
      (entriesOf s c).filter (fun e => st < e.isn && !e.action) := by
    rw [entriesOf, List.filter_filter]
    refine List.filter_congr fun e _ => ?_
    rw [Bool.and_comm (decide _ && _), ← Bool.and_assoc]
  rw [shelfServe, hf, h]
  simp [hst, ha]

theorem sectorBytes_getD (s : State) (q : Key) : (sectorBytes s (q / 32)).getD (q % 32) 0 = s.mem.get q := by
  have h : q % 32 < 32 := Nat.mod_lt _ (by decide)
  have hq : 32 * (q / 32) + q % 32 = q := Nat.div_add_mod q 32
  simp [sectorBytes, Memory.gets, keysFrom, List.getD, h, hq]

end

/-! ### A store under an instruction -/

section
variable {s : State} {isn : Nat} {shelve : Bool} {kbs : List (Key × Byte)} (hu : unreadable s (kbs.map (·.1)) = false)
include hu

/-- What a store under an instruction puts, and where the shelves stand after it. -/
theorem storeAt_readable :
    let u := if shelve then (sectorsOf (kbs.map (·.1))).foldl (shelved isn) (patchShelf s isn kbs) else patchShelf s isn kbs
    (s.storeAt isn shelve kbs).mem = s.mem.sets kbs ∧ (s.storeAt isn shelve kbs).shelves = u.shelves ∧
      (s.storeAt isn shelve kbs).front = s.front := by
  intro u
  have hs : SameButShelves s u := by
    have hp : SameButShelves s (patchShelf s isn kbs) := rfl
    unfold u
    split
    · exact hp.trans (sameButShelves_foldl_shelved ..)
    · exact hp
  have hu' : unreadable u (kbs.map (·.1)) = false := by rw [hs]; exact hu
  obtain ⟨hm, hsh, hf⟩ := store_readable hu'
  refine ⟨?_, ?_, ?_⟩
  · rw [storeAt_eq]; exact hm.trans (by rw [hs])
  · rw [storeAt_eq]; exact hsh
  · rw [storeAt_eq]; exact hf.trans (by rw [hs])

/-- A read as of an earlier instruction sees the old bytes of a sector that the store shelves (R193, R196). -/
theorem byteAt_storeAt {st : Nat} {q : Key} (hst : st < isn) (hq : q ∈ kbs.map (·.1)) (ho : (ownerOf s (32 * (q / 32))).isSome = true)
    (he : entriesOf s (q / 32) = []) : byteAt (s.storeAt isn true kbs) st q = s.mem.get q := by
  obtain ⟨o, ho⟩ := Option.isSome_iff_exists.1 ho
  obtain ⟨-, hsh, hf⟩ := storeAt_readable (isn := isn) (shelve := true) hu
  have hc : q / 32 ∈ sectorsOf (kbs.map (·.1)) := List.mem_dedup.2 (List.mem_map_of_mem hq)
  have hone := entriesOf_foldl_shelved (isn := isn) (s := patchShelf s isn kbs) (nodup_sectorsOf _) hc ho (entriesOf_patchShelf kbs he)
  have hsid : ((sectorsOf (kbs.map (·.1))).foldl (shelved isn) (patchShelf s isn kbs)).front = s.front := by
    rw [sameButShelves_foldl_shelved isn _ (patchShelf s isn kbs)]
    rfl
  rw [byteAt, shelfServe_of_entriesOf ((entriesOf_congr hsh (hf.trans hsid.symm)).trans hone) hst rfl]
  exact sectorBytes_getD s q

end

/-! ### The checks and the write of an element (R72, R211) -/

theorem codeBytes_unpacked {f : Fmt} (h : f.packed = false) (s : State) (d : Dest) (x : Nat) :
    codeBytes s f d x = d.keys.zip (wordBytes d.keys.length x) := by
  rw [codeBytes, h]
  rfl

theorem keys_of_zip_wordBytes (ks : List Key) (x : Nat) : (ks.zip (wordBytes ks.length x)).map (·.1) = ks :=
  List.map_fst_zip (wordBytes_length ..).ge

section
variable {s : State} {e : Eye} {d : Dest} {exempt : Bool} (hw : watchMask e.watch d.va d.keys.length false true = 0 ∨ exempt = true)
  (hu : unreadable s d.keys = false) (hr : raced e.race d.place = false)
include hw hu hr

theorem exec_writeChecks (f : Fmt) : M.exec (writeChecks e exempt f d) s = (.ok (), s) := by
  have hm : ¬ (watchMask e.watch d.va d.keys.length false true ≠ 0 ∧ (!exempt) = true) := by
    rintro ⟨h0, h1⟩
    rcases hw with h | h
    · exact h0 h
    · simp [h] at h1
  have hp (whole : List Nat) : d.keys.any (fun k => s.poison.contains (k / 8) && !whole.contains (k / 8)) = false := by
    refine List.any_eq_false.2 fun k hk hc => List.any_eq_false.1 hu k hk ?_
    rw [Bool.and_eq_true] at hc
    rw [hc.1, Bool.true_or]
  unfold writeChecks
  rw [exec_bind_ok (exec_get s)]
  simp only [hm, if_false, hp, Bool.false_eq_true, raceFree, hr, exec_bind, exec_get, exec_pure]

/-- A write that passes its checks and has room in the shelf is performed. -/
theorem exec_performWrite {fp : Option (List Range)} {isn : Nat} {f : Fmt} {x : Nat} (ho : (d.keys.head?.bind (ownerOf s)).isSome = true)
    (hroom : needsShelf s fp isn d = true → shelfRoom s d.keys isn = true ∧
      (isn = s.floor + 1 → ∀ o, d.keys.head?.bind (ownerOf s) = some o →
        shelfUnder s o isn + (freshAt s o d.keys isn).length ≤ shelfSize o)) :
    M.exec (performWrite e fp isn exempt f d x) s =
      (.ok (), s.storeAt isn (needsShelf s fp isn d) (codeBytes s f d x)) := by
  obtain ⟨o, ho⟩ := Option.isSome_iff_exists.1 ho
  have hfull : ¬ ((if needsShelf s fp isn d then freshAt s o d.keys isn else []) ≠ [] ∧ isn = s.floor + 1 ∧
      shelfSize o < shelfUnder s o isn + (if needsShelf s fp isn d then freshAt s o d.keys isn else []).length) := by
    rintro ⟨h0, h1, h2⟩
    by_cases hn : needsShelf s fp isn d = true
    · rw [if_pos hn] at h2
      exact Nat.not_lt.2 ((hroom hn).2 h1 o ho) h2
    · exact h0 (if_neg hn)
  have hwait : ¬ ((needsShelf s fp isn d && !shelfRoom s d.keys isn) = true) := by
    intro h
    rw [Bool.and_eq_true, Bool.not_eq_true'] at h
    exact Bool.false_ne_true (h.2.symm.trans (hroom h.1).1)
  unfold performWrite
  rw [exec_bind_ok (exec_writeChecks hw hu hr f), exec_bind_ok (exec_get s)]
  simp only [ho, hfull, hwait, if_false]
  simp only [raceMark, hr, exec_bind, exec_modify, Bool.false_eq_true, if_false]

end

/-! ### The element -/

section
variable {sm masked : Bool} {k : Win} {f : Fmt} {fn : ElemFn} {e : Eye} {fp : Option (List Range)} {b : Bcast} {i : Nat} {s s1 s2 : State} {d : Dest}
  (hd : M.exec (destAddr { e with elem := i } sm b.carry.vl.toNat k f i) s = (.ok d, s1))
include hd

theorem exec_frameItem_inactive (ha : M.exec (active { e with elem := i } b.carry masked i) s1 = (.ok false, s2)) :
    M.exec (frameItem sm masked k f fn e fp b i) s = (.ok (0, none), s2) := by
  unfold frameItem
  rw [exec_bind_ok hd, exec_bind_ok ha]
  rfl

theorem exec_frameItem_active {s3 t : State} {x : Nat} {fl : Flags}
    (ha : M.exec (active { e with elem := i } b.carry masked i) s1 = (.ok true, s2))
    (hf : M.exec (do markWalks d.walked; fn { e with elem := i } b i) s2 = (.ok (some x, fl), s3))
    (hw : M.exec (performWrite { e with elem := i } fp b.isn (isExempt s3 b i) f d x) s3 = (.ok (), t)) :
    M.exec (frameItem sm masked k f fn e fp b i) s = (.ok (fl, none), t) := by
  obtain ⟨_, s2', hm, hf⟩ := exec_bind_inv hf
  unfold frameItem
  rw [exec_bind_ok hd, exec_bind_ok ha, if_pos rfl, exec_bind_ok hm, exec_bind_ok hf]
  dsimp only
  rw [exec_bind_ok (exec_get s3), exec_bind_ok hw]
  rfl

end

/-- Settles O29. The element's frame ends in `storeAt` at its places. -/
theorem elementWritten : Obligations.ElementWritten := by
  unfold Obligations.ElementWritten
  intro sm masked k f fn e fp b i s s1 s2 s3 d x fl e' hd
  refine ⟨exec_frameItem_inactive hd, fun ha hf hp hn hc hu hr hw hroom ho => ?_⟩
  have hkeys := keys_of_zip_wordBytes d.keys x
  have hu' : unreadable s3 ((d.keys.zip (wordBytes d.keys.length x)).map (·.1)) = false := by rwa [hkeys]
  have hx := exec_performWrite (e := e') (f := f) (x := x) hw hu hr ho hroom
  rw [codeBytes_unpacked hp] at hx
  obtain ⟨hm, -, -⟩ := storeAt_readable (isn := b.isn) (shelve := needsShelf s3 fp b.isn d) hu'
  refine ⟨_, exec_frameItem_active hd ha hf hx, ?_, fun q hq => ?_, fun hneed h0 q hq hown hall => ?_⟩
  · rw [hm]
    exact gets_sets_zip hn (wordBytes_length ..) hc
  · rw [hm]
    exact get_sets_of_not_mem (by rwa [hkeys]) hc
  · have he : entriesOf s3 (q / 32) = [] := by
      refine List.filter_eq_nil_iff.2 fun r hr h => ?_
      have hne := List.all_eq_true.1 hall r hr
      rw [Bool.or_eq_true, bne_iff_ne, bne_iff_ne] at hne
      rw [Bool.and_eq_true, beq_iff_eq, beq_iff_eq] at h
      exact hne.elim (· h.1) (· h.2)
    rw [hneed]
    exact byteAt_storeAt hu' (Nat.sub_one_lt h0.ne') (by rwa [hkeys]) hown he

end Sys2Proof.Proofs
end

section
/-! A broadcast that passes the checks of the front (R99, R187 to R191): what its issue leaves, and what its end leaves. -/

namespace Sys2Proof.Proofs

open Sys2Proof Sys2Proof.Machine Sys2Proof.Safety Sys2Proof.Laws

/-! ### Which broadcasts are no branches -/

theorem pack_div_maj (f : FA) : f.pack.toNat / 2 ^ 58 = f.maj.toNat := by
  have h : (FA.unpack f.pack).maj = f.maj := congrArg FA.maj (FA.unpack_pack f)
  have hm : (FA.unpack f.pack).maj.toNat = f.pack.toNat / 2 ^ 58 % 2 ^ 6 := by
    rw [FA.unpack, BitVec.extractLsb'_toNat, Nat.shiftRight_eq_div_pow]
  rw [← h, hm]
  have := f.pack.isLt
  omega

/-- The words of the branches on bank conditions have the major that marks them. -/
theorem isCondWord_encFA (fn : BitVec 6) (sd sa sb : SReg) (w : BitVec 2) (imm : BitVec 32) :
    isCondWord (encFA 0x10 fn sd sa sb w imm) = true := by
  rw [isCondWord, encFA, pack_div_maj]
  rfl

theorem exec_of_not_cond {i : Instr} {info : BInfo} (h : infoOf i = some info) (hc : isCondWord (wordOf i) = false) (s : State) :
    exec i s = broadcast i info s := by
  cases i
  case bany | ball | bnone => exact absurd (isCondWord_encFA ..) (Bool.eq_false_iff.1 hc)
  all_goals cases h <;> rfl

/-- Only fencing instructions release before they issue (R191, R351). -/
theorem release_none_of_not_fencing {i : Instr} {info : BInfo} (h : infoOf i = some info) (hf : info.fencing = false) :
    info.release = none := by
  cases i
  case vamoAdd | vamoAnd | vamoOr | vamoXor | vamoMin | vamoMax | vamoMinn | vamoMaxn | vamoSwap => cases h; cases hf
  all_goals cases h <;> rfl

theorem beforeIssue_of_release_none {i : Instr} {info : BInfo} (h : info.release = none) (s : State) : beforeIssue i info s = s := by
  rw [beforeIssue, h]

/-- A broadcast without a fault at issue issues when it is ready, and else waits (R187). -/
theorem broadcast_of_no_fault {i : Instr} {info : BInfo} {s : State} (hf : issueFault info s = none) :
    broadcast i info s = .next (if issueReady i info s then (issueNow i info (beforeIssue i info s)).1 else s) := by
  rw [broadcast, hf]
  cases issueReady i info s <;> rfl

/-! ### Issue -/

theorem traced_eq (s : State) (ty n w2 w3 : Nat) : ∃ d q, s.traced ty n w2 w3 = { s with drawn := d, traceQ := q } := by
  unfold State.traced
  split
  · exact ⟨_, _, rfl⟩
  · exact ⟨_, _, rfl⟩

/-- The state in which a broadcast has its ISN and stands among those under way (R187). -/
def issued (b : Bcast) (s : State) : State :=
  { takeIsn b s with front := { (takeIsn b s).front with bcasts := (takeIsn b s).front.bcasts ++ [b] } }

theorem issued_spec (b : Bcast) (s : State) :
    let t := issued b s
    t.front.bcasts = s.front.bcasts ++ [b] ∧ t.front.csr = { s.front.csr with isn := BitVec.ofNat 48 b.isn } ∧
      t.front.pc = s.front.pc + 8 ∧ t.front.s = s.front.s ∧ t.front.w = s.front.w ∧ t.mem = s.mem ∧ t.shelves = s.shelves ∧
      t.fronts = s.fronts := by
  unfold issued takeIsn
  obtain ⟨d, q, h⟩ := traced_eq s 1 b.isn 0 b.pc.toNat
  rw [h]
  exact ⟨rfl, rfl, rfl, rfl, rfl, rfl, rfl, rfl⟩

theorem pace_issued (b : Bcast) (s : State) : (issued b s).pace = s.pace := by
  unfold issued takeIsn
  obtain ⟨d, q, h⟩ := traced_eq s 1 b.isn 0 b.pc.toNat
  rw [h]
  rfl

theorem issueNow_lockstep {i : Instr} {info : BInfo} {s : State} (hp : s.pace = .lockstep) :
    issueNow i info s = driveB (issued (newB i info s) s) (newB i info s) info :=
  if_pos (.inl ((pace_issued ..).trans hp))

/-- Where the owners run behind, a broadcast that is neither fencing nor a matrix instruction is issued and no more (R188). -/
theorem issueNow_runAhead {i : Instr} {info : BInfo} {s : State} (hp : s.pace = .runAhead) (hf : info.fencing = false)
    (hm : isMatrix i = false) : (issueNow i info s).1 = issued (newB i info s) s := by
  have hpace : (issued (newB i info s) s).pace = .runAhead := (pace_issued ..).trans hp
  refine congrArg Prod.fst (if_neg (c := (issued (newB i info s) s).pace = .lockstep ∨ info.fencing = true ∨ isMatrix i = true) ?_)
  rw [hpace, hf, hm]
  rintro (h | h | h) <;> cases h

/-- Settles O26: issue in the pace of run-ahead is `issued` of the new broadcast, and a broadcast that is not ready waits. -/
theorem broadcastsRunAhead : Obligations.BroadcastsRunAhead := by
  unfold Obligations.BroadcastsRunAhead
  intro i info s hi hc hf
  rw [exec_of_not_cond hi hc, broadcast_of_no_fault hf]
  refine ⟨fun hr => by rw [hr]; rfl, fun hr hp hn hm => ?_⟩
  rw [hr, if_pos rfl, beforeIssue_of_release_none (release_none_of_not_fencing hi hn), issueNow_runAhead hp hn hm]
  obtain ⟨hb, hcsr, hpc, hs, hw, hmem, hsh, hfr⟩ := issued_spec (newB i info s) s
  exact ⟨_, newB i info s, rfl, hb, rfl, rfl, rfl, rfl, rfl, rfl, hcsr, hpc, hs, hw, hmem, hsh, hfr⟩

/-! ### Performing keeps the ISN of a broadcast -/

theorem isn_runItems (items : List Item) (s : State) (b : Bcast) : (runItems items s b).2.1.isn = b.isn := by
  induction items generalizing s b with
  | nil => rfl
  | cons it r ih =>
    unfold runItems
    split
    · rfl
    · rcases M.exec (it.run b) s with ⟨x | x, s'⟩
      · rfl
      · exact ih s' (b.took it x)

theorem isn_runApart (items : List Item) (s : State) (b : Bcast) (left : List Nat) : (runApart items s b left).2.1.isn = b.isn := by
  induction items generalizing s b left with
  | nil => rfl
  | cons it r ih =>
    unfold runApart
    rcases M.exec (it.run b) s with ⟨x | x, s'⟩
    · exact ih ..
    · exact ih s' (b.took it x) left

theorem isn_performInOrder (s : State) (b : Bcast) (items : List Item) : (performInOrder s b items).2.1.isn = b.isn := by
  have h := isn_runItems (restItems s b items) s b
  unfold performInOrder
  rcases hr : runItems (restItems s b items) s b with ⟨s', c, _ | ⟨k, t | _ | _⟩⟩ <;> rw [hr] at h
  · exact h
  · dsimp only
    split <;> exact h
  · exact h
  · exact h

theorem isn_performApart (s : State) (b : Bcast) (items : List Item) : (performApart s b items).2.1.isn = b.isn := by
  have h := isn_runApart (restItems s b items) { s with front := { s.front with waitObj := none } } b []
  unfold performApart
  rcases hr : runApart (restItems s b items) { s with front := { s.front with waitObj := none } } b [] with ⟨s', c, _ | ⟨k, l⟩⟩ <;>
    rw [hr] at h <;> exact h

theorem isn_performB (s : State) (b : Bcast) (body : Body) : (performB s b body).2.1.isn = b.isn := by
  unfold performB
  dsimp only
  split
  · rfl
  · split
    · rfl
    · split
      · exact isn_performApart ..
      · exact isn_performInOrder ..

/-! ### The end of a broadcast -/

theorem front_traced (s : State) (ty n w2 w3 : Nat) : (s.traced ty n w2 w3).front = s.front := by
  obtain ⟨d, q, h⟩ := traced_eq s ty n w2 w3
  rw [h]

theorem mem_traced (s : State) (ty n w2 w3 : Nat) : (s.traced ty n w2 w3).mem = s.mem := by
  obtain ⟨d, q, h⟩ := traced_eq s ty n w2 w3
  rw [h]

/-- The tree's result in the scalar register of a reduction (R224). -/
def putResult (body : Body) (s : State) (w : Word) : State :=
  match body.result with
  | some r => s.wr r w
  | none => s

theorem rd_putResult (body : Body) (s : State) (w : Word) (r : SReg) :
    (putResult body s w).rd r = if r ≠ 0 ∧ body.result = some r then w else s.rd r := by
  unfold putResult
  cases hr : body.result with
  | none => exact (if_neg (by simp)).symm
  | some q =>
    rw [rd_wr]
    exact if_congr (by rw [Option.some.injEq, eq_comm, and_comm]) rfl rfl

theorem mem_putResult (body : Body) (s : State) (w : Word) : (putResult body s w).mem = s.mem := by
  unfold putResult
  split
  · exact wr_mem ..
  · rfl

/-- A result changes the scalar registers of the front alone. -/
theorem front_putResult (body : Body) (s : State) (w : Word) : ∃ v, (putResult body s w).front = { s.front with s := v } := by
  unfold putResult State.wr
  split
  · split
    · exact ⟨_, rfl⟩
    · exact ⟨_, rfl⟩
  · exact ⟨_, rfl⟩

/-- The floor reaches a broadcast: flags, result and FLOOR in their registers, the planes moved on, the broadcast gone from
those under way (R99, R189, R224, R258). -/
theorem finishB_spec (s : State) (b : Bcast) (body : Body) :
    let t := (finishB s b body).1
    t.front.csr = { s.front.csr with
      floor := BitVec.ofNat 48 b.isn
      fflags := s.front.csr.fflags ||| b.flags ||| (body.root s.front.sid b).1 } ∧
    (∀ r, t.rd r = if r ≠ 0 ∧ body.result = some r then (body.root s.front.sid b).2 else s.rd r) ∧
    t.mem = s.mem ∧ t.front.w = s.front.w ∧ t.front.pc = s.front.pc ∧ t.front.planes = body.recs b s.front.planes true ∧
    (∀ x ∈ t.front.bcasts, x.isn ≠ b.isn) ∧ t.front.late = s.front.late := by
  let p := putResult body (s.orFlags (b.flags ||| (body.root s.front.sid b).1)) (body.root s.front.sid b).2
  obtain ⟨v, hv⟩ := front_putResult body (s.orFlags (b.flags ||| (body.root s.front.sid b).1)) (body.root s.front.sid b).2
  have hfront : (finishB s b body).1.front = { p.front with
      csr := { p.front.csr with floor := BitVec.ofNat 48 b.isn }
      planes := body.recs b p.front.planes true
      bcasts := p.front.bcasts.filter (fun x => x.isn != b.isn)
      works := p.front.works.filter (fun x => x.isn != b.isn)
      progress := p.front.progress.filter (fun q => b.isn < q.retired)
      exemptAt := p.front.exemptAt.filter (· != b.isn) } := front_traced ..
  have hrd (r : SReg) : (finishB s b body).1.rd r = p.rd r := by simp only [State.rd, hfront]
  have hmem : (finishB s b body).1.mem = p.mem := mem_traced ..
  refine ⟨?_, fun r => ?_, ?_, ?_, ?_, ?_, ?_, ?_⟩
  · rw [hfront, hv, BitVec.or_assoc]
    rfl
  · rw [hrd, rd_putResult]
    rfl
  · rw [hmem, mem_putResult]
    rfl
  · rw [hfront, hv]
    rfl
  · rw [hfront, hv]
    rfl
  · rw [hfront, hv]
    rfl
  · rw [hfront]
    intro x hx
    simpa using (List.mem_filter.1 hx).2
  · rw [hfront, hv]
    rfl

/-- A broadcast whose elements are all performed, with no message under way and no failed element, has come to its end. -/
theorem driveB_done {s s2 : State} {b b2 : Bcast} {info : BInfo} (hp : performB s b info.body = (s2, b2, none))
    (hm : s2.msgs.any (fun m => m.sid == s2.front.sid) = false) (hl : s2.front.late = none) :
    (driveB s b info).1 = (finishB s2 b2 info.body).1 := by
  obtain ⟨-, -, -, -, -, -, -, hlate⟩ := finishB_spec s2 b2 info.body
  rw [driveB, hp]
  dsimp only
  rw [hm, if_neg nofun]
  dsimp only
  rw [lateStop, hlate.trans hl]

/-! ### The pace stays as it is while homes perform messages (R341) -/

theorem pace_foldl {α : Type} {f : State → α → State} (hf : ∀ t a, (f t a).pace = t.pace) (l : List α) (s : State) :
    (l.foldl f s).pace = s.pace := by
  induction l generalizing s with
  | nil => rfl
  | cons a l ih => exact (ih (f s a)).trans (hf s a)

theorem pace_event (s : State) (ty die : Nat) (ps : List Nat) : (s.event ty die ps).pace = s.pace := by
  obtain ⟨m, w, d, r, v, h⟩ := event_eq s ty die ps
  rw [h]

theorem pace_touch (s : State) (ks : List Key) : (s.touch ks).pace = s.pace := by
  unfold State.touch
  split <;> rfl

theorem pace_store (s : State) (kbs : List (Key × Byte)) : (s.store kbs).pace = s.pace := by
  unfold State.store
  dsimp only
  rw [pace_touch, pace_foldl fun t w => pace_event ..]
  split
  · rfl
  · exact pace_event ..

theorem pace_reportWatch (s : State) (sid : BitVec 16) (w : Option TrapInfo) : (reportWatch s sid w).pace = s.pace := by
  cases w <;> rfl

theorem pace_sweepRemaps (s : State) : (sweepRemaps s).pace = s.pace := by
  unfold sweepRemaps
  split <;> rfl

theorem pace_performMsg (s : State) (m : AccMsg) : (performMsg s m).pace = s.pace := by
  unfold performMsg
  dsimp only
  rw [pace_sweepRemaps]
  split
  · exact pace_event ..
  · rw [pace_reportWatch]
    exact pace_store ..

theorem pace_answerMsg (s : State) (m : AccMsg) : (answerMsg s m).1.pace = s.pace := by
  unfold answerMsg
  dsimp only
  split
  · exact pace_performMsg ..
  · split
    · split <;> rfl
    · split <;> rfl

theorem pace_drainQueues (s : State) (p : AccMsg → Bool) : (drainQueues s p).pace = s.pace := pace_foldl pace_performMsg ..

theorem pace_mustSend (s : State) (r : Residual) : (mustSend s r).pace = s.pace := pace_performMsg ..

theorem pace_foldMsg (s : State) (m : AccMsg) : (foldMsg s m).pace = s.pace := by
  unfold foldMsg
  split
  · rfl
  · dsimp only
    split
    · rfl
    · split
      · exact pace_mustSend ..
      · rfl

theorem pace_takeAnswer (s : State) (m : AccMsg) (ok : Bool) : (takeAnswer s m ok).pace = s.pace := by
  cases ok
  · exact pace_foldMsg ..
  · rfl

theorem pace_settleMsg (s : State) (m : AccMsg) : (settleMsg s m).pace = s.pace := by
  unfold settleMsg
  split
  · exact pace_takeAnswer ..
  · exact (pace_takeAnswer ..).trans ((pace_drainQueues ..).trans (pace_answerMsg ..))

theorem pace_settleMsgs (s : State) (p : AccMsg → Bool) : (settleMsgs s p).pace = s.pace :=
  (pace_drainQueues ..).trans (pace_foldl pace_settleMsg ..)

theorem pace_deliverResiduals (s : State) (p : Nat → Bool) : (deliverResiduals s p).pace = s.pace :=
  (pace_foldl pace_mustSend ..).trans (pace_settleMsgs ..)

theorem pace_nextInterval (s : State) : s.nextInterval.pace = s.pace := by
  unfold State.nextInterval
  split
  · split <;> rfl
  · rfl

theorem pace_beforeIssue (i : Instr) (info : BInfo) (s : State) : (beforeIssue i info s).pace = s.pace := by
  unfold beforeIssue
  split
  · exact (pace_nextInterval _).trans (pace_deliverResiduals ..)
  · rfl

/-- Settles O25: in lockstep the issue performs the broadcast, and `finishB_spec` is its end. -/
theorem broadcastsComplete : Obligations.BroadcastsComplete := by
  unfold Obligations.BroadcastsComplete
  intro i info s s2 b2 hi hc hp hf hr s0 b s1 hperf hm hl
  have hp0 : s0.pace = .lockstep := (pace_beforeIssue i info s).trans hp
  have hisn : b2.isn = s0.isn + 1 := by
    have h := isn_performB { s1 with front := { s1.front with bcasts := s1.front.bcasts ++ [b] } } b info.body
    rw [hperf] at h
    exact h
  have hexec : exec i s = .next (finishB s2 b2 info.body).1 := by
    rw [exec_of_not_cond hi hc, broadcast_of_no_fault hf, hr, if_pos rfl, issueNow_lockstep hp0]
    exact congrArg _ (driveB_done hperf hm hl)
  obtain ⟨hcsr, hrd, hmem, hw, hpc, hpl, hb, -⟩ := finishB_spec s2 b2 info.body
  exact ⟨_, hexec, hisn, hcsr, hrd, hmem, hw, hpc, hpl, hb⟩

end Sys2Proof.Proofs
end

section
/-! Control registers after a write (R66, R96 to R98, R155, R168, R190, R249, R328, R382, R399, R435). -/

namespace Sys2Proof.Proofs

open Sys2Proof Sys2Proof.Machine Sys2Proof.Safety Sys2Proof.Laws

/-! ### Fields of a 64-bit register -/

/-- A number placed at bit `lo` of a register. -/
def inField (lo x : Nat) : Word := BitVec.ofNat 64 (at_ lo x)

/-- The `len` bits from `lo`, all ones. -/
def fieldMask (lo len : Nat) : Word := inField lo (2 ^ len - 1)

theorem getLsbD_inField (lo x i : Nat) : (inField lo x).getLsbD i = (decide (i < 64) && (decide (lo ≤ i) && x.testBit (i - lo))) := by
  rw [inField, at_, BitVec.getLsbD_ofNat, ← Nat.shiftLeft_eq, Nat.testBit_shiftLeft]

theorem getLsbD_fieldMask (lo len i : Nat) :
    (fieldMask lo len).getLsbD i = (decide (i < 64) && (decide (lo ≤ i) && decide (i - lo < len))) := by
  rw [fieldMask, getLsbD_inField, Nat.testBit_two_pow_sub_one]

/-- Fields side by side are joined. -/
theorem ofNat_add_at {a lo : Nat} (h : a < 2 ^ lo) (x : Nat) : BitVec.ofNat 64 (a + at_ lo x) = BitVec.ofNat 64 a ||| inField lo x := by
  rw [inField, ← BitVec.ofNat_or, at_, Nat.add_comm, Nat.mul_comm, Nat.two_pow_add_eq_or_of_lt h, Nat.or_comm]

theorem ofNat_eq_inField (x : Nat) : BitVec.ofNat 64 x = inField 0 x := by rw [inField, at_, pow_zero, Nat.mul_one]

theorem inField_and_mask {lo len x : Nat} (h : x < 2 ^ len) : inField lo x &&& fieldMask lo len = inField lo x := by
  apply BitVec.eq_of_getLsbD_eq
  intro i hi
  rw [BitVec.getLsbD_and, getLsbD_inField, getLsbD_fieldMask]
  rcases lt_or_ge (i - lo) len with hl | hl
  · rw [decide_eq_true hl, decide_eq_true hi]
    by_cases hlo : lo ≤ i <;> simp [hlo]
  · rw [Nat.testBit_lt_two_pow (h.trans_le (Nat.pow_le_pow_right (by decide) hl)), Bool.and_false, Bool.and_false, Bool.false_and]

/-- Of a field, `m` keeps all. -/
theorem inField_and_of_covers {lo len x : Nat} {m : Word} (h : x < 2 ^ len) (hm : fieldMask lo len &&& m = fieldMask lo len) :
    inField lo x &&& m = inField lo x := by
  rw [← inField_and_mask h, BitVec.and_assoc, hm]

/-- Of a field, `m` keeps nothing. -/
theorem inField_and_of_misses {lo len x : Nat} {m : Word} (h : x < 2 ^ len) (hm : fieldMask lo len &&& m = 0) :
    inField lo x &&& m = 0 := by
  rw [← inField_and_mask h, BitVec.and_assoc, hm]
  exact BitVec.and_zero

/-- A field written from the same place of a word. -/
theorem inField_extract (v : Word) (lo len : Nat) : inField lo (v.extractLsb' lo len).toNat = v &&& fieldMask lo len := by
  apply BitVec.eq_of_getLsbD_eq
  intro i hi
  rw [BitVec.getLsbD_and, getLsbD_inField, getLsbD_fieldMask, ← BitVec.getLsbD, BitVec.getLsbD_extractLsb']
  by_cases hl : lo ≤ i
  · rw [Nat.add_sub_cancel' hl]
    simp [hl, hi, Bool.and_comm]
  · simp [hl]

theorem boolNat_getLsbD (v : Word) (i : Nat) : boolNat (v.getLsbD i) = (v.extractLsb' i 1).toNat := by
  rw [BitVec.extractLsb'_toNat, Nat.shiftRight_eq_div_pow, BitVec.getLsbD, Nat.testBit_eq_decide_div_mod_eq, boolNat]
  rcases Nat.mod_two_eq_zero_or_one (v.toNat / 2 ^ i) with h | h <;> rw [h] <;> rfl

theorem boolNat_lt (b : Bool) : boolNat b < 2 ^ 1 := by cases b <;> decide

theorem inField_boolNat (v : Word) (i : Nat) : inField i (boolNat (v.getLsbD i)) = v &&& fieldMask i 1 := by
  rw [boolNat_getLsbD, inField_extract]

/-- A sticky bit keeps what it has where the word keeps it. -/
theorem inField_boolNat_and (b : Bool) (v : Word) (i : Nat) :
    inField i (boolNat (b && v.getLsbD i)) = inField i (boolNat b) &&& v := by
  cases b
  · rw [Bool.false_and, inField, at_, boolNat, if_neg nofun, Nat.zero_mul]
    exact BitVec.zero_and.symm
  · rw [Bool.true_and, inField_boolNat, BitVec.and_comm]
    rfl

/-! ### A write changes the fields of its register alone -/

/-- The fields of every register but the one with number `n` are the same. -/
structure SameBut (n : Nat) (c d : Csrs) : Prop where
  vl : n ≠ 0x000 → d.vl = c.vl
  vfmt : n ≠ 0x001 → d.vfmt = c.vfmt
  vblk : n ≠ 0x002 → d.vblk = c.vblk
  vpad : n ≠ 0x003 → d.vpad = c.vpad
  estart : n ≠ 0x004 → d.estart = c.estart
  isn : d.isn = c.isn
  floor : d.floor = c.floor
  skew : n ≠ 0x007 → d.skew = c.skew
  share : n ≠ 0x010 → d.share = c.share
  prio : d.prio = c.prio
  ctag : n ≠ 0x020 → d.ctag = c.ctag
  wdirty : n ≠ 0x030 → d.wdirty = c.wdirty
  wpres : n ≠ 0x031 → d.wpres = c.wpres
  rm : n ≠ 0x040 → d.rm = c.rm
  ftz : n ≠ 0x040 → d.ftz = c.ftz
  seed : n ≠ 0x041 → d.seed = c.seed
  fflags : n ≠ 0x042 → d.fflags = c.fflags
  raceEn : n ≠ 0x050 → d.raceEn = c.raceEn
  raceSat : n ≠ 0x050 → d.raceSat = c.raceSat
  ivl : d.ivl = c.ivl
  lost : n ≠ 0x050 → d.lost = c.lost
  cause : n ≠ 0x060 → d.cause = c.cause
  int : n ≠ 0x060 → d.int = c.int
  mode : d.mode = c.mode
  pmode : n ≠ 0x060 → d.pmode = c.pmode
  ie : n ≠ 0x060 → d.ie = c.ie
  pie : n ≠ 0x060 → d.pie = c.pie
  tpc : n ≠ 0x061 → d.tpc = c.tpc
  tisn : n ≠ 0x062 → d.tisn = c.tisn
  telem : n ≠ 0x063 → d.telem = c.telem
  taddr : n ≠ 0x064 → d.taddr = c.taddr
  tinfo : n ≠ 0x065 → d.tinfo = c.tinfo
  disc : n ≠ 0x065 → d.disc = c.disc
  tvec : n ≠ 0x066 → d.tvec = c.tvec
  tctx : n ≠ 0x067 → d.tctx = c.tctx
  wpEn : n ≠ 0x070 → d.wpEn = c.wpEn
  wpRd : n ≠ 0x070 → d.wpRd = c.wpRd
  wpWr : n ≠ 0x070 → d.wpWr = c.wpWr
  base : ∀ k : Fin 8, n ≠ 0x080 + k.val → (d.wp.get k).base = (c.wp.get k).base
  len : ∀ k : Fin 8, n ≠ 0x088 + k.val → (d.wp.get k).len = (c.wp.get k).len
  bmask : ∀ k : Fin 8, n ≠ 0x088 + k.val → (d.wp.get k).bmask = (c.wp.get k).bmask
  stallEn : n ≠ 0x090 → d.stallEn = c.stallEn
  stallTrc : n ≠ 0x090 → d.stallTrc = c.stallTrc
  stallIdx : n ≠ 0x090 → d.stallIdx = c.stallIdx
  stallWord : n ≠ 0x090 → d.stallWord = c.stallWord

theorem sameBut_refl (n : Nat) (c : Csrs) : SameBut n c c := by constructor <;> intros <;> rfl

theorem sameBut_ite {n : Nat} {c d : Csrs} {p : Prop} [Decidable p] (h : SameBut n c d) : SameBut n c (if p then d else c) := by
  split
  · exact h
  · exact sameBut_refl ..

/-- A watchpoint of another number keeps its fields; the one changed keeps those that the change keeps. -/
theorem get_setWatch (c : Csrs) (k : Nat) (f : Watch → Watch) (j : Fin 8) :
    (setWatch c k f).wp.get j = if j.val = k % 8 then f (c.wp.get (Fin.ofNat 8 k)) else c.wp.get j := get_set _ _ (Nat.mod_lt k (by decide)) _ j

/-- A change of one watchpoint is a write of the register whose fields it changes. -/
theorem sameBut_setWatch {n k : Nat} {c : Csrs} {f : Watch → Watch} (hb : ∀ w, n ≠ 0x080 + k % 8 → (f w).base = w.base)
    (hl : ∀ w, n ≠ 0x088 + k % 8 → (f w).len = w.len) (hm : ∀ w, n ≠ 0x088 + k % 8 → (f w).bmask = w.bmask) :
    SameBut n c (setWatch c k f) := by
  have hget {A : Type} (g : Watch → A) (j : Fin 8) (hg : j.val = k % 8 → ∀ w, g (f w) = g w) :
      g ((setWatch c k f).wp.get j) = g (c.wp.get j) := by
    rw [get_setWatch]
    split
    · rename_i h
      rw [hg h, show Fin.ofNat 8 k = j from Fin.ext h.symm]
    · rfl
  constructor
  case base => exact fun j hj => hget _ j fun h w => hb w (h ▸ hj)
  case len => exact fun j hj => hget _ j fun h w => hl w (h ▸ hj)
  case bmask => exact fun j hj => hget _ j fun h w => hm w (h ▸ hj)
  all_goals intros; rfl

theorem sameBut_csrPut (c : Csrs) (n : Nat) (v : Word) : SameBut n c (csrPut c n v) := by
  unfold csrPut
  dsimp only
  split
  · exact sameBut_setWatch (fun _ _ => by omega) (fun _ _ => rfl) (fun _ _ => rfl)
  · split
    · exact sameBut_setWatch (fun _ _ => rfl) (fun _ _ => by omega) (fun _ _ => by omega)
    · split
      case h_1 | h_2 | h_3 | h_6 | h_7 => exact sameBut_ite (by constructor <;> simp)
      all_goals constructor <;> simp

/-- What a register reads goes by its own fields, by the front outside the registers, and for STALLP by STALLC (R66). -/
theorem csrNum_sameBut {s : State} {d : Csrs} {n m : Nat} (h : SameBut n s.front.csr d) (hm : n ≠ m) (h91 : n = 0x090 → m ≠ 0x091) :
    csrNum (s.mapCsr (fun _ => d)) m = csrNum s m := by
  unfold csrNum
  dsimp only
  split
  case isTrue hr => exact congrArg _ (h.base (Fin.ofNat 8 (m - 0x080)) (by rw [Fin.val_ofNat]; omega))
  · split
    case isTrue hr =>
      have hk : n ≠ 0x088 + (Fin.ofNat 8 (m - 0x088)).val := by rw [Fin.val_ofNat]; omega
      simp only [State.mapCsr, Watch.mask, h.len _ hk, h.bmask _ hk]
    · split
      · exact congrArg _ (h.vl hm)
      · exact congrArg _ (h.vfmt hm)
      · exact congrArg _ (h.vblk hm)
      · exact congrArg _ (h.vpad hm)
      · exact congrArg _ (h.estart hm)
      · exact congrArg _ h.isn
      · exact congrArg _ h.floor
      · exact congrArg _ (h.skew hm)
      · simp only [State.mapCsr, h.share hm, h.prio]
      · rfl
      · rfl
      · rfl
      · exact congrArg _ (h.ctag hm)
      · rfl
      · exact congrArg _ (h.wdirty hm)
      · exact congrArg _ (h.wpres hm)
      · simp only [State.mapCsr, h.rm hm, h.ftz hm]
      · exact congrArg _ (h.seed hm)
      · exact congrArg _ (h.fflags hm)
      · simp only [State.mapCsr, h.raceEn hm, h.raceSat hm, h.ivl, h.lost hm]
        rfl
      · rfl
      · simp only [causeReg, State.mapCsr, h.cause hm, h.int hm, h.mode, h.pmode hm, h.ie hm, h.pie hm]
      · exact congrArg _ (h.tpc hm)
      · exact congrArg _ (h.tisn hm)
      · exact congrArg _ (h.telem hm)
      · exact congrArg _ (h.taddr hm)
      · simp only [State.mapCsr, h.tinfo hm, h.disc hm]
      · exact congrArg (fun x : BitVec 53 => at_ 3 x.toNat) (h.tvec hm)
      · exact congrArg _ (h.tctx hm)
      · simp only [State.mapCsr, h.wpEn hm, h.wpRd hm, h.wpWr hm]
      · simp only [State.mapCsr, h.stallEn hm, h.stallTrc hm, h.stallIdx hm, h.stallWord hm]
      · have h90 : n ≠ 0x090 := fun e => h91 e rfl
        simp only [stallReg, State.mapCsr, h.stallIdx h90, h.stallWord h90]
      · rfl

/-- The pair table is read by STALLP alone. -/
theorem csrNum_stalls (s : State) (l : List StallPair) {m : Nat} (hm : m ≠ 0x091) :
    csrNum { s with front := { s.front with stalls := l } } m = csrNum s m := by
  unfold csrNum
  dsimp only
  split
  · rfl
  · split
    · rfl
    · split
      case h_32 => exact absurd rfl hm
      all_goals rfl

theorem csrRead_csrWrite {s : State} {n m : BitVec 12} (v : Word) (h91 : n = 0x090 → m ≠ 0x091) :
    csrRead (csrWrite s n v) m = BitVec.ofNat 64 (csrNum (s.mapCsr (fun _ => csrPut s.front.csr n.toNat v)) m.toNat) := by
  unfold csrRead csrWrite
  dsimp only
  split
  case isTrue hn => exact congrArg _ (csrNum_stalls _ [] fun e => h91 hn.1 (BitVec.eq_of_toNat_eq e))
  · rfl

theorem csrRead_csrWrite_same (s : State) (n : BitVec 12) (v : Word) :
    csrRead (csrWrite s n v) n = csrRead (s.mapCsr (fun _ => csrPut s.front.csr n.toNat v)) n :=
  csrRead_csrWrite v (by rintro rfl; decide)

/-- A write leaves what every other register reads, but for STALLP after a write of STALLC. -/
theorem csrRead_csrWrite_other {s : State} {n m : BitVec 12} (v : Word) (hm : m ≠ n) (h91 : n = 0x090 → m ≠ 0x091) :
    csrRead (csrWrite s n v) m = csrRead s m := by
  rw [csrRead_csrWrite v h91]
  refine congrArg _ (csrNum_sameBut (sameBut_csrPut s.front.csr n.toNat v) (fun e => hm (BitVec.eq_of_toNat_eq e).symm) fun e e' => ?_)
  exact h91 (BitVec.eq_of_toNat_eq e) (BitVec.eq_of_toNat_eq e')

/-! ### Reading a register after its own write -/

theorem low_extract (v : Word) (len : Nat) : BitVec.ofNat 64 (v.extractLsb' 0 len).toNat = v &&& fieldMask 0 len := by
  rw [ofNat_eq_inField, inField_extract]

theorem fld_zero_eq (v : Word) {len : Nat} (h : len ≤ 64) : fld 0 len v.toNat = (v &&& fieldMask 0 len).toNat := by
  rw [← low_extract, BitVec.toNat_ofNat, BitVec.extractLsb'_toNat, Nat.shiftRight_zero, fld, pow_zero, Nat.div_one]
  refine (Nat.mod_eq_of_lt ?_).symm
  exact (Nat.mod_lt _ (Nat.two_pow_pos _)).trans_le (Nat.pow_le_pow_right (by decide) h)

theorem and_or_right (a b m : Word) : (a ||| b) &&& m = a &&& m ||| b &&& m := by
  rw [BitVec.and_comm, BitVec.and_or_distrib_left, BitVec.and_comm m, BitVec.and_comm m]

/-- A value out of range leaves the field of a register that reads one field. -/
theorem read_ite {p : Prop} [Decidable p] (g : Csrs → Word) (c d : Csrs) : g (if p then c else d) = if p then g c else g d := by
  split <;> rfl

theorem ofCode_isSome_iff (c : BitVec 5) : (Fmt.ofCode c).isSome = true ↔ c.toNat ≤ 0x12 := by revert c; decide

theorem toNat_low_extract (v : Word) {len : Nat} (h : len ≤ 64) : (v.extractLsb' 0 len).toNat = (v &&& fieldMask 0 len).toNat := by
  rw [← fld_zero_eq v h, BitVec.extractLsb'_toNat, Nat.shiftRight_zero, fld, pow_zero, Nat.div_one]

theorem csrWrite_vl (s : State) (v : Word) :
    csrRead (csrWrite s 0x000 v) 0x000 = if (v &&& 0x1FFFF) ≤ 65536 then v &&& 0x1FFFF else csrRead s 0x000 := by
  rw [csrRead_csrWrite_same]
  show BitVec.ofNat 64 (Csrs.vl (if fld 0 17 v.toNat ≤ 65536 then _ else _)).toNat = _
  rw [read_ite (fun c => BitVec.ofNat 64 c.vl.toNat), fld_zero_eq v (by decide), low_extract]
  rfl

theorem csrWrite_vfmt (s : State) (v : Word) :
    csrRead (csrWrite s 0x001 v) 0x001 = if (v &&& 0x1F) ≤ 0x12 then v &&& 0x1F else csrRead s 0x001 := by
  rw [csrRead_csrWrite_same]
  show BitVec.ofNat 64 (Csrs.vfmt (if (Fmt.ofCode (v.extractLsb' 0 5)).isSome = true then _ else _)).toNat = _
  rw [read_ite (fun c => BitVec.ofNat 64 c.vfmt.toNat), low_extract]
  refine if_congr ?_ rfl rfl
  rw [ofCode_isSome_iff, toNat_low_extract v (by decide)]
  rfl

theorem blkLen_iff (x : Word) : blkLen x.toNat = true ↔ x ∈ ([1, 16, 32, 64, 128] : List Word) := by
  simp only [blkLen, Bool.or_eq_true, beq_iff_eq, List.mem_cons, List.not_mem_nil, or_false, ← BitVec.toNat_inj, or_assoc]
  rfl

theorem csrWrite_vblk (s : State) (v : Word) :
    csrRead (csrWrite s 0x002 v) 0x002 =
      if (v &&& 0xFF) ∈ ([1, 16, 32, 64, 128] : List Word) then v &&& 0xFF else csrRead s 0x002 := by
  rw [csrRead_csrWrite_same]
  show BitVec.ofNat 64 (Csrs.vblk (if blkLen (fld 0 8 v.toNat) = true then _ else _)).toNat = _
  rw [read_ite (fun c => BitVec.ofNat 64 c.vblk.toNat), fld_zero_eq v (by decide), low_extract]
  exact if_congr (blkLen_iff _) rfl rfl

theorem csrWrite_skew (s : State) (v : Word) :
    csrRead (csrWrite s 0x007 v) 0x007 = if 1 ≤ (v &&& 0x7F) ∧ (v &&& 0x7F) ≤ 64 then v &&& 0x7F else csrRead s 0x007 := by
  rw [csrRead_csrWrite_same]
  show BitVec.ofNat 64 (Csrs.skew (if 1 ≤ fld 0 7 v.toNat ∧ fld 0 7 v.toNat ≤ 64 then _ else _)).toNat = _
  rw [read_ite (fun c => BitVec.ofNat 64 c.skew.toNat), fld_zero_eq v (by decide), low_extract]
  rfl

/-! ### Registers of several fields -/

/-- The number `a` of fields below bit `n` reads as the word `w`. -/
def Packed (n a : Nat) (w : Word) : Prop := a < 2 ^ n ∧ BitVec.ofNat 64 a = w

theorem packed_low {len x : Nat} (h : x < 2 ^ len) : Packed len x (inField 0 x) := ⟨h, ofNat_eq_inField x⟩

/-- One more field, above those there are. -/
theorem Packed.above {n a lo len x : Nat} {w : Word} (h : Packed n a w) (hlo : n ≤ lo) (hx : x < 2 ^ len) :
    Packed (lo + len) (a + at_ lo x) (w ||| inField lo x) := by
  obtain ⟨ha, rfl⟩ := h
  have halo : a < 2 ^ lo := ha.trans_le (Nat.pow_le_pow_right (by decide) hlo)
  refine ⟨?_, ofNat_add_at halo x⟩
  rw [at_, pow_add]
  nlinarith

theorem csrRead_share (s : State) : csrRead s 0x010 = inField 0 s.front.csr.share.toNat ||| inField 8 s.front.csr.prio.toNat :=
  ((packed_low s.front.csr.share.isLt).above (by decide) s.front.csr.prio.isLt).2

theorem csrRead_rnds (s : State) : csrRead s 0x040 = inField 0 s.front.csr.rm.toNat ||| inField 3 (boolNat s.front.csr.ftz) :=
  ((packed_low s.front.csr.rm.isLt).above (by decide) (boolNat_lt _)).2

theorem csrRead_race (s : State) : csrRead s 0x050 =
    inField 0 (boolNat s.front.csr.raceEn) ||| inField 1 (boolNat s.front.csr.raceSat) ||| inField 8 (slotOf s.front)
      ||| inField 16 s.front.csr.ivl.toNat ||| inField 32 s.front.csr.lost.toNat :=
  have hslot : slotOf s.front < 2 ^ 8 := Nat.mod_lt _ (by decide)
  (((((packed_low (boolNat_lt s.front.csr.raceEn)).above (by decide) (boolNat_lt _)).above (by decide) hslot).above (by decide)
    s.front.csr.ivl.isLt).above (by decide) s.front.csr.lost.isLt).2

theorem csrRead_cause (s : State) : csrRead s 0x060 =
    inField 0 s.front.csr.cause.toNat ||| inField 8 (boolNat s.front.csr.int) ||| inField 16 (boolNat s.front.csr.mode)
      ||| inField 17 (boolNat s.front.csr.pmode) ||| inField 18 (boolNat s.front.csr.ie) ||| inField 19 (boolNat s.front.csr.pie)
      ||| inField 20 (boolNat s.front.ppre) ||| inField 21 (boolNat s.front.phost.isSome) :=
  ((((((((packed_low s.front.csr.cause.isLt).above (by decide) (boolNat_lt _)).above (by decide) (boolNat_lt _)).above (by decide)
    (boolNat_lt _)).above (by decide) (boolNat_lt _)).above (by decide) (boolNat_lt _)).above (by decide) (boolNat_lt _)).above
    (by decide) (boolNat_lt _)).2

theorem csrRead_tinfo (s : State) : csrRead s 0x065 = inField 0 s.front.csr.tinfo.toNat ||| inField 63 (boolNat s.front.csr.disc) :=
  ((packed_low s.front.csr.tinfo.isLt).above (by decide) (boolNat_lt _)).2

theorem csrRead_wpctl (s : State) : csrRead s 0x070 =
    inField 0 s.front.csr.wpEn.toNat ||| inField 8 s.front.csr.wpRd.toNat ||| inField 16 s.front.csr.wpWr.toNat :=
  (((packed_low s.front.csr.wpEn.isLt).above (by decide) s.front.csr.wpRd.isLt).above (by decide) s.front.csr.wpWr.isLt).2

theorem ofNat_watchMask (w : Watch) : BitVec.ofNat 64 w.mask = inField 0 w.len.toNat ||| inField 16 w.bmask.toNat :=
  ((packed_low w.len.isLt).above (by decide) w.bmask.isLt).2

theorem csrRead_stallc (s : State) : csrRead s 0x090 =
    inField 0 (boolNat s.front.csr.stallEn) ||| inField 1 (boolNat s.front.csr.stallTrc) ||| inField 8 s.front.csr.stallIdx.toNat
      ||| inField 13 s.front.csr.stallWord.toNat :=
  ((((packed_low (boolNat_lt s.front.csr.stallEn)).above (by decide) (boolNat_lt _)).above (by decide) s.front.csr.stallIdx.isLt).above
    (by decide) s.front.csr.stallWord.isLt).2

/-- SHARE takes what is not zero; PRIO stays (R116). -/
theorem csrWrite_share (s : State) (v : Word) : csrRead (csrWrite s 0x010 v) 0x010 =
    (csrRead s 0x010 &&& 0x700) ||| (if v &&& 0xFF = 0 then csrRead s 0x010 &&& 0xFF else v &&& 0xFF) := by
  have hprio : csrRead s 0x010 &&& 0x700 = inField 8 s.front.csr.prio.toNat := by
    rw [csrRead_share, and_or_right, inField_and_of_misses s.front.csr.share.isLt (by decide),
      inField_and_of_covers s.front.csr.prio.isLt (by decide)]
    exact BitVec.zero_or
  have hshare : csrRead s 0x010 &&& 0xFF = inField 0 s.front.csr.share.toNat := by
    rw [csrRead_share, and_or_right, inField_and_of_covers s.front.csr.share.isLt (by decide),
      inField_and_of_misses s.front.csr.prio.isLt (by decide)]
    exact BitVec.or_zero
  have hzero : fld 0 8 v.toNat = 0 ↔ v &&& 0xFF = 0 := by
    rw [fld_zero_eq v (by decide), ← BitVec.toNat_inj]
    rfl
  rw [csrRead_csrWrite_same, csrRead_share, hprio, hshare, BitVec.or_comm]
  show inField 8 (Csrs.prio (if fld 0 8 v.toNat ≠ 0 then _ else _)).toNat
    ||| inField 0 (Csrs.share (if fld 0 8 v.toNat ≠ 0 then _ else _)).toNat = _
  by_cases h : v &&& 0xFF = 0
  · rw [if_neg (not_not.2 (hzero.2 h)), if_pos h]
  · rw [if_pos (mt hzero.1 h), if_neg h]
    exact congrArg _ (inField_extract v 0 8)

/-- RNDS takes FTZ, and RM but for 6 and 7 (R96). -/
theorem csrWrite_rnds (s : State) (v : Word) : csrRead (csrWrite s 0x040 v) 0x040 =
    (v &&& 8) ||| (if v &&& 7 < 6 then v &&& 7 else csrRead s 0x040 &&& 7) := by
  have hrm : csrRead s 0x040 &&& 7 = inField 0 s.front.csr.rm.toNat := by
    rw [csrRead_rnds, and_or_right, inField_and_of_covers s.front.csr.rm.isLt (by decide),
      inField_and_of_misses (boolNat_lt _) (by decide)]
    exact BitVec.or_zero
  rw [csrRead_csrWrite_same, csrRead_rnds, hrm, BitVec.or_comm]
  show inField 3 (boolNat (v.getLsbD 3)) ||| inField 0 (if fld 0 3 v.toNat < 6 then v.extractLsb' 0 3 else s.front.csr.rm).toNat = _
  rw [inField_boolNat, apply_ite (fun x : BitVec 3 => inField 0 x.toNat), inField_extract, fld_zero_eq v (by decide)]
  rfl

/-- FFLAGS keeps the flags that the write keeps (R98). -/
theorem csrWrite_fflags (s : State) (v : Word) : csrRead (csrWrite s 0x042 v) 0x042 = csrRead s 0x042 &&& v := by
  have hread (t : State) : csrRead t 0x042 = inField 0 t.front.csr.fflags.toNat := ofNat_eq_inField _
  rw [csrRead_csrWrite_same, hread, hread]
  show inField 0 (s.front.csr.fflags &&& v.extractLsb' 0 6).toNat = _
  have hmask := inField_and_mask s.front.csr.fflags.isLt (lo := 0)
  rw [← hmask, BitVec.and_assoc, BitVec.and_comm _ v, ← inField_extract v 0 6, BitVec.toNat_and, ← ofNat_eq_inField, ← ofNat_eq_inField,
    ← ofNat_eq_inField, BitVec.ofNat_and]

/-- RACE takes EN and LOST, SAT only to clear it; SLOT and IVL stay (R328). -/
theorem csrWrite_race (s : State) (v : Word) : csrRead (csrWrite s 0x050 v) 0x050 =
    (csrRead s 0x050 &&& (0xFFFFFF00 ||| (v &&& 2))) ||| (v &&& 0xFFFF00000001) := by
  have hslot : slotOf s.front < 2 ^ 8 := Nat.mod_lt _ (by decide)
  have hkept : csrRead s 0x050 &&& 0xFFFFFF00 = inField 8 (slotOf s.front) ||| inField 16 s.front.csr.ivl.toNat := by
    rw [csrRead_race]
    simp only [and_or_right]
    rw [inField_and_of_misses (boolNat_lt _) (by decide), inField_and_of_misses (boolNat_lt _) (by decide),
      inField_and_of_covers hslot (by decide), inField_and_of_covers s.front.csr.ivl.isLt (by decide),
      inField_and_of_misses s.front.csr.lost.isLt (by decide)]
    simp
  have hsat : csrRead s 0x050 &&& 2 = inField 1 (boolNat s.front.csr.raceSat) := by
    rw [csrRead_race]
    simp only [and_or_right]
    rw [inField_and_of_misses (boolNat_lt _) (by decide), inField_and_of_covers (boolNat_lt _) (by decide),
      inField_and_of_misses hslot (by decide), inField_and_of_misses s.front.csr.ivl.isLt (by decide),
      inField_and_of_misses s.front.csr.lost.isLt (by decide)]
    simp
  have hnew : v &&& 0xFFFF00000001 = v &&& fieldMask 0 1 ||| v &&& fieldMask 32 16 := by
    rw [← BitVec.and_or_distrib_left]
    rfl
  rw [BitVec.and_or_distrib_left, hkept, BitVec.and_comm v, ← BitVec.and_assoc, hsat, hnew, csrRead_csrWrite_same, csrRead_race]
  show inField 0 (boolNat (v.getLsbD 0)) ||| inField 1 (boolNat (s.front.csr.raceSat && v.getLsbD 1)) ||| inField 8 (slotOf s.front)
    ||| inField 16 s.front.csr.ivl.toNat ||| inField 32 (v.extractLsb' 32 16).toNat = _
  rw [inField_boolNat, inField_boolNat_and, inField_extract]
  ac_rfl

/-- TCAUSE takes its writable fields; MODE and the pending bits stay (R382). -/
theorem csrWrite_cause (s : State) (v : Word) : csrRead (csrWrite s 0x060 v) 0x060 =
    (csrRead s 0x060 &&& 0x310000) ||| (v &&& 0xE01FF) := by
  have hkept : csrRead s 0x060 &&& 0x310000 = inField 16 (boolNat s.front.csr.mode) ||| inField 20 (boolNat s.front.ppre)
      ||| inField 21 (boolNat s.front.phost.isSome) := by
    rw [csrRead_cause]
    simp only [and_or_right]
    rw [inField_and_of_misses s.front.csr.cause.isLt (by decide), inField_and_of_misses (boolNat_lt _) (by decide),
      inField_and_of_covers (boolNat_lt _) (by decide), inField_and_of_misses (boolNat_lt _) (by decide),
      inField_and_of_misses (boolNat_lt _) (by decide), inField_and_of_misses (boolNat_lt _) (by decide),
      inField_and_of_covers (boolNat_lt _) (by decide), inField_and_of_covers (boolNat_lt _) (by decide)]
    simp
  have hnew : v &&& 0xE01FF = v &&& fieldMask 0 8 ||| v &&& fieldMask 8 1 ||| v &&& fieldMask 17 1 ||| v &&& fieldMask 18 1
      ||| v &&& fieldMask 19 1 := by
    simp only [← BitVec.and_or_distrib_left]
    rfl
  rw [hkept, hnew, csrRead_csrWrite_same, csrRead_cause]
  show inField 0 (v.extractLsb' 0 8).toNat ||| inField 8 (boolNat (v.getLsbD 8)) ||| inField 16 (boolNat s.front.csr.mode)
    ||| inField 17 (boolNat (v.getLsbD 17)) ||| inField 18 (boolNat (v.getLsbD 18)) ||| inField 19 (boolNat (v.getLsbD 19))
    ||| inField 20 (boolNat s.front.ppre) ||| inField 21 (boolNat s.front.phost.isSome) = _
  rw [inField_extract, inField_boolNat, inField_boolNat, inField_boolNat, inField_boolNat]
  ac_rfl

/-- TINFO takes its bits; DISC only to clear it (R382). -/
theorem csrWrite_tinfo (s : State) (v : Word) : csrRead (csrWrite s 0x065 v) 0x065 =
    (v &&& 0x7FFFFFFFFFFFFFFF) ||| (csrRead s 0x065 &&& v &&& 0x8000000000000000) := by
  have hdisc : csrRead s 0x065 &&& 0x8000000000000000 = inField 63 (boolNat s.front.csr.disc) := by
    rw [csrRead_tinfo, and_or_right, inField_and_of_misses s.front.csr.tinfo.isLt (by decide),
      inField_and_of_covers (boolNat_lt _) (by decide)]
    exact BitVec.zero_or
  rw [BitVec.and_assoc, BitVec.and_comm v 0x8000000000000000, ← BitVec.and_assoc, hdisc, csrRead_csrWrite_same, csrRead_tinfo]
  show inField 0 (v.extractLsb' 0 63).toNat ||| inField 63 (boolNat (s.front.csr.disc && v.getLsbD 63)) = _
  rw [inField_extract, inField_boolNat_and]
  rfl

theorem csrWrite_wpctl (s : State) (v : Word) : csrRead (csrWrite s 0x070 v) 0x070 = v &&& 0xFFFFFF := by
  rw [csrRead_csrWrite_same, csrRead_wpctl]
  show inField 0 (v.extractLsb' 0 8).toNat ||| inField 8 (v.extractLsb' 8 8).toNat ||| inField 16 (v.extractLsb' 16 8).toNat = _
  rw [inField_extract, inField_extract, inField_extract, ← BitVec.and_or_distrib_left, ← BitVec.and_or_distrib_left]
  rfl

theorem csrWrite_stallc (s : State) (v : Word) : csrRead (csrWrite s 0x090 v) 0x090 = v &&& 0x7F03 := by
  rw [csrRead_csrWrite_same, csrRead_stallc]
  show inField 0 (boolNat (v.getLsbD 0)) ||| inField 1 (boolNat (v.getLsbD 1)) ||| inField 8 (v.extractLsb' 8 5).toNat
    ||| inField 13 (v.extractLsb' 13 2).toNat = _
  rw [inField_boolNat, inField_boolNat, inField_extract, inField_extract, ← BitVec.and_or_distrib_left, ← BitVec.and_or_distrib_left,
    ← BitVec.and_or_distrib_left]
  rfl

theorem csrNum_watch (s : State) (k : Fin 8) :
    csrNum s (0x080 + k.val) = (s.front.csr.wp.get k).base.toNat ∧ csrNum s (0x088 + k.val) = (s.front.csr.wp.get k).mask := by
  have hk (n : Nat) : Fin.ofNat 8 (n + k.val - n) = k := Fin.ext (by rw [Fin.val_ofNat]; omega)
  unfold csrNum
  constructor
  · exact (if_pos (by omega)).trans (by rw [hk])
  · exact (if_neg (by omega)).trans ((if_pos (by omega)).trans (by rw [hk]))

theorem csrPut_watch (c : Csrs) (v : Word) (k : Fin 8) :
    csrPut c (0x080 + k.val) v = setWatch c k.val (fun w => { w with base := v.extractLsb' 0 56 }) ∧
      csrPut c (0x088 + k.val) v = setWatch c k.val (fun w => { w with len := v.extractLsb' 0 12, bmask := v.extractLsb' 16 8 }) := by
  unfold csrPut
  constructor
  · exact (if_pos (by omega)).trans (by rw [Nat.add_sub_cancel_left])
  · exact (if_neg (by omega)).trans ((if_pos (by omega)).trans (by rw [Nat.add_sub_cancel_left]))

/-- A watchpoint's base and its mask word take their fields (R399). -/
theorem csrWrite_watch (s : State) (v : Word) (k : Fin 8) :
    csrRead (csrWrite s (BitVec.ofNat 12 (0x080 + k.val)) v) (BitVec.ofNat 12 (0x080 + k.val)) = v &&& 0xFFFFFFFFFFFFFF ∧
      csrRead (csrWrite s (BitVec.ofNat 12 (0x088 + k.val)) v) (BitVec.ofNat 12 (0x088 + k.val)) = v &&& 0xFF0FFF := by
  have hnum (n : Nat) (hn : n < 0x100) : (BitVec.ofNat 12 (n + k.val)).toNat = n + k.val := Nat.mod_eq_of_lt (by omega)
  have hget (f : Watch → Watch) : (setWatch s.front.csr k.val f).wp.get k = f (s.front.csr.wp.get k) := by
    rw [get_setWatch, if_pos (Nat.mod_eq_of_lt k.isLt).symm, Fin.ofNat_val_eq_self]
  obtain ⟨hbase, hmask⟩ := csrPut_watch s.front.csr v k
  constructor
  · rw [csrRead_csrWrite_same, csrRead, hnum _ (by decide), (csrNum_watch _ k).1, hbase]
    refine (congrArg (fun w : Watch => BitVec.ofNat 64 w.base.toNat) (hget _)).trans ?_
    exact low_extract v 56
  · rw [csrRead_csrWrite_same, csrRead, hnum _ (by decide), (csrNum_watch _ k).2, hmask]
    refine (congrArg (fun w : Watch => BitVec.ofNat 64 w.mask) (hget _)).trans ?_
    rw [ofNat_watchMask, inField_extract, inField_extract, ← BitVec.and_or_distrib_left]
    rfl

/-- WDIRTY and WPRES have no bit 0 (R382). -/
theorem low_extract_even (v : Word) : BitVec.ofNat 64 (v.extractLsb' 0 32 &&& 0xFFFFFFFE).toNat = v &&& 0xFFFFFFFE := by
  rw [BitVec.toNat_and, BitVec.ofNat_and, low_extract, BitVec.and_assoc]
  rfl

/-- The registers that no write changes (R66). -/
theorem csrWrite_readOnly (s : State) (v : Word) {n : BitVec 12}
    (hn : n ∈ ([0x005, 0x006, 0x011, 0x012, 0x013, 0x021, 0x051, 0x091] : List (BitVec 12))) :
    csrRead (csrWrite s n v) n = csrRead s n := by
  have hput : csrPut s.front.csr n.toNat v = s.front.csr := by
    fin_cases hn <;> rfl
  rw [csrRead_csrWrite_same, hput]
  rfl

/-- Settles O12: each register by its own lemma, the others by `csrRead_csrWrite_other`. -/
theorem csrWriteThenRead : Obligations.CsrWriteThenRead := by
  unfold Obligations.CsrWriteThenRead
  intro s v r
  have hlow (n : BitVec 12) (len : Nat)
      (h : csrNum (s.mapCsr (fun _ => csrPut s.front.csr n.toNat v)) n.toNat = (v.extractLsb' 0 len).toNat) :
      r n = v &&& fieldMask 0 len :=
    (csrRead_csrWrite_same s n v).trans ((congrArg _ h).trans (low_extract v len))
  have hall (n : BitVec 12) (h : csrNum (s.mapCsr (fun _ => csrPut s.front.csr n.toNat v)) n.toNat = v.toNat) : r n = v :=
    (csrRead_csrWrite_same s n v).trans ((congrArg _ h).trans (by rw [BitVec.ofNat_toNat, BitVec.setWidth_eq]))
  have heven (n : BitVec 12)
      (h : csrNum (s.mapCsr (fun _ => csrPut s.front.csr n.toNat v)) n.toNat = (v.extractLsb' 0 32 &&& 0xFFFFFFFE).toNat) :
      r n = v &&& 0xFFFFFFFE :=
    (csrRead_csrWrite_same s n v).trans ((congrArg _ h).trans (low_extract_even v))
  have htvec : r 0x066 = v &&& 0xFFFFFFFFFFFFF8 := (csrRead_csrWrite_same s _ v).trans (inField_extract v 3 53)
  exact ⟨hlow _ 7 rfl, hlow _ 32 rfl, hlow _ 16 rfl, heven _ rfl, heven _ rfl, hall _ rfl, hall _ rfl, hlow _ 48 rfl,
    hlow _ 32 rfl, hall _ rfl, htvec, hall _ rfl, csrWrite_wpctl s v, csrWrite_watch s v, csrWrite_vl s v, csrWrite_vfmt s v,
    csrWrite_vblk s v, csrWrite_skew s v, csrWrite_share s v, csrWrite_rnds s v, csrWrite_fflags s v, csrWrite_race s v,
    csrWrite_cause s v, csrWrite_tinfo s v, csrWrite_stallc s v, fun n hn => csrWrite_readOnly s v hn,
    fun n m hm h91 => csrRead_csrWrite_other v hm h91⟩

end Sys2Proof.Proofs
end

section
/-! Integer codes and integer arithmetic of elements (R74, R94, R212 to R217). -/

namespace Sys2Proof.Proofs

open Sys2Proof Sys2Proof.Machine Sys2Proof.Safety Sys2Proof.Laws

/-! ### Words and integers -/

theorem wrapNat_eq_toNat (w : Nat) (i : Int) : wrapNat w i = (BitVec.ofInt w i).toNat := by
  rw [wrapNat, BitVec.toNat_ofInt]
  norm_cast

theorem sextInt_eq_bmod {w : Nat} (hw : 0 < w) (n : Nat) : sextInt w n = Int.bmod n (2 ^ w) := by
  obtain ⟨w, rfl⟩ := Nat.exists_eq_add_of_lt hw
  rw [Nat.zero_add]
  have h2 : (2 : Nat) ^ (w + 1) = 2 * 2 ^ w := pow_succ' ..
  have hi : (2 : Int) ^ (w + 1) = ((2 ^ (w + 1) : Nat) : Int) := by norm_cast
  have hm : ((n : Int) % ((2 ^ (w + 1) : Nat) : Int)) = ((n % 2 ^ (w + 1) : Nat) : Int) := by norm_cast
  unfold sextInt
  rw [Int.bmod_def, Nat.add_sub_cancel, hi, hm]
  by_cases h : 2 ^ w ≤ n % 2 ^ (w + 1)
  · rw [if_pos h, if_neg (by omega)]
  · rw [if_neg h, if_pos (by omega)]

theorem sextInt_toNat {w : Nat} (hw : 0 < w) (x : BitVec w) : sextInt w x.toNat = x.toInt := by
  rw [sextInt_eq_bmod hw, BitVec.toInt_eq_toNat_bmod]

/-! ### Codes of the integer formats -/

theorem bits_pos (f : Fmt) : 0 < f.bits := by cases f <;> decide

theorem fp_of_isIN {f : Fmt} (h : f.isIN = true) : f.fp = none := by
  cases f
  case i8 | i16 | i32 | i64 | n8 | n16 | n32 | n64 => rfl
  all_goals cases h

theorem isN_of_isIN {f : Fmt} (h : f.isIN = true) : f.isN = !f.isI := by revert h; cases f <;> decide

theorem ne_bit_of_isIN {f : Fmt} (h : f.isIN = true) : f ≠ .bit := by rintro rfl; cases h

/-- The integer that a word of an integer format stands for (R74). -/
def codeInt (f : Fmt) (a : BitVec f.bits) : Int := if f.isI then a.toInt else a.toNat

/-- The least and the greatest integer of an integer format. -/
def leastInt (f : Fmt) : Int := if f.isI then -2 ^ (f.bits - 1) else 0
def greatestInt (f : Fmt) : Int := if f.isI then 2 ^ (f.bits - 1) - 1 else 2 ^ f.bits - 1

theorem intOf_toNat {f : Fmt} (h : f.isIN = true) (a : BitVec f.bits) : intOf f a.toNat = codeInt f a := by
  unfold intOf codeInt
  rw [isN_of_isIN h, sextInt_toNat (bits_pos f), Nat.mod_eq_of_lt a.isLt]
  cases f.isI <;> simp [ne_bit_of_isIN h]

theorem codeInt_inj {f : Fmt} {a b : BitVec f.bits} : codeInt f a = codeInt f b ↔ a = b := by
  unfold codeInt
  split
  · exact BitVec.toInt_inj
  · rw [Nat.cast_inj, BitVec.toNat_inj]

theorem intRange_eq {f : Fmt} (h : f.isIN = true) : intRange f = (leastInt f, greatestInt f) := by
  unfold intRange leastInt greatestInt
  rw [isN_of_isIN h]
  cases f.isI <;> rfl

theorem leastInt_le_greatestInt (f : Fmt) : leastInt f ≤ greatestInt f := by
  have h1 : (0 : Int) < 2 ^ (f.bits - 1) := by positivity
  have h2 : (0 : Int) < 2 ^ f.bits := by positivity
  unfold leastInt greatestInt
  split <;> omega

theorem clampInt_eq {lo hi : Int} (h : lo ≤ hi) (i : Int) : clampInt lo hi i = max lo (min hi i) := by
  unfold clampInt
  split
  · omega
  · split <;> omega

/-- A result in an integer format: the exact integer modulo 2^n, or clamped to the format's range first (R94). -/
theorem toIntFmt_eq {f : Fmt} (h : f.isIN = true) (sat : Bool) (i : Int) :
    toIntFmt f sat i = (BitVec.ofInt f.bits (if sat then max (leastInt f) (min (greatestInt f) i) else i)).toNat := by
  rw [toIntFmt, wrapNat_eq_toNat, intRange_eq h, clampInt_eq (leastInt_le_greatestInt f)]

/-! ### Operations on codes -/

theorem arith_of_isIN {f : Fmt} (h : f.isIN = true) (o : ArOp) (r : Rnd) (a b c : Nat) :
    arith o f r a b c = (toIntFmt f r.sat (o.int (intOf f a) (intOf f b) (intOf f c)), 0) := by
  rw [arith, fp_of_isIN h]

theorem unaryElem_of_isIN {f : Fmt} (h : f.isIN = true) (o : UnOp) (r : Rnd) (c : Nat) :
    unaryElem o f r c = (toIntFmt f r.sat (if o = .abs then (intOf f c).natAbs else -intOf f c), 0) := by
  rw [unaryElem, fp_of_isIN h]

theorem minMax_of_isIN {f : Fmt} (h : f.isIN = true) (ftz wantMax : Bool) (a b : Nat) :
    minMax f ftz wantMax a b = (if intOf f a < intOf f b then (if wantMax then b else a) else if wantMax then a else b, 0) := by
  rw [minMax, fp_of_isIN h]
  cases wantMax <;> by_cases hab : intOf f a < intOf f b <;> simp [hab]

theorem compareCodes_of_isIN {f : Fmt} (h : f.isIN = true) (o : CmpOp) (ftz : Bool) (a b : Nat) :
    compareCodes o f ftz a b = (o.holds (intOf f a - intOf f b), 0) := by
  rw [compareCodes, fp_of_isIN h]

theorem shiftCode_sll {w : Nat} (x : BitVec w) (y : Nat) : shiftCode .sll w x.toNat y = (x <<< (y % w)).toNat := by
  rw [BitVec.toNat_shiftLeft, Nat.shiftLeft_eq]
  rfl

theorem shiftCode_srl {w : Nat} (x : BitVec w) (y : Nat) : shiftCode .srl w x.toNat y = (x >>> (y % w)).toNat := by
  rw [BitVec.toNat_ushiftRight, Nat.shiftRight_eq_div_pow]
  rfl

theorem shiftCode_sra {w : Nat} (hw : 0 < w) (x : BitVec w) (y : Nat) :
    shiftCode .sra w x.toNat y = (x.sshiftRight (y % w)).toNat := by
  rw [shiftCode, wrapNat_eq_toNat, sextInt_toNat hw, BitVec.sshiftRight, Int.shiftRight_eq_div_pow]
  norm_cast

/-- Settles O30: each operation on codes as its integer operation on `codeInt`. -/
theorem integerElements : Obligations.IntegerElements := by
  unfold Obligations.IntegerElements
  intro f r x y z ftz h val lo hi fit sh
  have hint (a : BitVec f.bits) : intOf f a.toNat = val a := intOf_toNat h a
  have hfit (i : Int) : (toIntFmt f r.sat i, (0 : Flags)) = fit i := congrArg (·, 0) (toIntFmt_eq h r.sat i)
  have harith (o : ArOp) : arith o f r x.toNat y.toNat z.toNat = fit (o.int (val x) (val y) (val z)) := by
    rw [arith_of_isIN h, hint, hint, hint, hfit]
  have heq : val x - val y = 0 ↔ x = y := sub_eq_zero.trans codeInt_inj
  have hcmp (o : CmpOp) (p : Prop) [Decidable p] (hp : o.holds (val x - val y) = true ↔ p) :
      compareCodes o f ftz x.toNat y.toNat = (decide p, 0) := by
    rw [compareCodes_of_isIN h, hint, hint]
    exact congrArg (·, 0) ((Bool.decide_coe _).symm.trans (decide_eq_decide.2 hp))
  refine ⟨harith .add, harith .sub, harith .mul, harith .fma, harith .fms, harith .fnma, fun _ => ⟨?_, ?_⟩, ?_, ?_,
    hcmp .eq _ ?_, hcmp .ne _ ?_, hcmp .lt _ ?_, hcmp .le _ ?_, shiftCode_sll x _, shiftCode_srl x _, shiftCode_sra (bits_pos f) x _⟩
  · rw [unaryElem_of_isIN h, hfit, hint, if_pos rfl, Int.natCast_natAbs]
  · rw [unaryElem_of_isIN h, hfit, hint, if_neg nofun]
  · rw [minMax_of_isIN h, hint, hint]
    by_cases hxy : val x < val y <;> simp [hxy]
  · rw [minMax_of_isIN h, hint, hint]
    by_cases hxy : val x < val y <;> simp [hxy]
  · exact beq_iff_eq.trans heq
  · exact bne_iff_ne.trans (not_congr heq)
  · exact decide_eq_true_iff.trans sub_neg
  · exact decide_eq_true_iff.trans sub_nonpos

end Sys2Proof.Proofs
end

section
/-! The combining tree of reductions over integers and bits (R101, R224). -/

namespace Sys2Proof.Proofs

open Sys2Proof Sys2Proof.Machine Sys2Proof.Safety Sys2Proof.Laws

/-! ### The codes of leaves -/

/-- The code of leaf `i` among the given leaves, `z` where there is none. -/
def leafCode (z : Nat) (ls : List (Nat × Nat)) (i : Nat) : Nat := ((ls.find? (fun p => p.1 == i)).map (·.2)).getD z

theorem leafCode_cons (z : Nat) (p : Nat × Nat) (ls : List (Nat × Nat)) (i : Nat) :
    leafCode z (p :: ls) i = if p.1 = i then p.2 else leafCode z ls i := by
  unfold leafCode
  by_cases h : p.1 = i <;> simp [h]

theorem leafCode_absent {z : Nat} {ls : List (Nat × Nat)} {i : Nat} (h : i ∉ ls.map (·.1)) : leafCode z ls i = z := by
  induction ls with
  | nil => rfl
  | cons p ls ih =>
    rw [List.map_cons, List.mem_cons, not_or] at h
    rw [leafCode_cons, if_neg (Ne.symm h.1), ih h.2]

/-- A leaf's code is one of those given, or the identity. -/
theorem leafCode_mem_or (z : Nat) (ls : List (Nat × Nat)) (i : Nat) : (∃ p ∈ ls, leafCode z ls i = p.2) ∨ leafCode z ls i = z := by
  unfold leafCode
  cases h : ls.find? (fun p => p.1 == i) with
  | none => exact .inr rfl
  | some p => exact .inl ⟨p, List.mem_of_find?_eq_some h, rfl⟩

theorem leafCode_of_mem {z : Nat} {ls : List (Nat × Nat)} (hnd : (ls.map (·.1)).Nodup) {p : Nat × Nat} (hp : p ∈ ls) :
    leafCode z ls p.1 = p.2 := by
  induction ls with
  | nil => cases hp
  | cons q ls ih =>
    rw [List.map_cons, List.nodup_cons] at hnd
    rw [leafCode_cons]
    rcases List.mem_cons.1 hp with rfl | hp
    · exact if_pos rfl
    · rw [if_neg, ih hnd.2 hp]
      exact fun h => hnd.1 (h ▸ List.mem_map_of_mem hp)

/-- A sum over all places below `n` is the sum over the leaves, where a place without one adds nothing. -/
theorem sum_leafCode {A : Type} [AddCommMonoid A] {g : Nat → A} {z n : Nat} (hz : g z = 0) {ls : List (Nat × Nat)}
    (hnd : (ls.map (·.1)).Nodup) (hlt : ∀ p ∈ ls, p.1 < n) :
    ∑ k ∈ Finset.range n, g (leafCode z ls k) = (ls.map (fun p => g p.2)).sum := by
  induction ls with
  | nil => exact Finset.sum_eq_zero fun k _ => hz
  | cons p ls ih =>
    rw [List.map_cons, List.nodup_cons] at hnd
    have hp : p.1 ∈ Finset.range n := Finset.mem_range.2 (hlt p (List.mem_cons_self ..))
    have hsplit (k : Nat) : g (leafCode z (p :: ls) k) = (if p.1 = k then g p.2 else 0) + g (leafCode z ls k) := by
      rw [leafCode_cons]
      by_cases hk : p.1 = k
      · rw [if_pos hk, if_pos hk, ← hk, leafCode_absent hnd.1, hz, add_zero]
      · rw [if_neg hk, if_neg hk, zero_add]
    rw [Finset.sum_congr rfl fun k _ => hsplit k, Finset.sum_add_distrib, Finset.sum_ite_eq, if_pos hp, List.map_cons, List.sum_cons,
      ih hnd.2 fun q hq => hlt q (List.mem_cons_of_mem _ hq)]

/-! ### The tree -/

theorem le_two_pow_ceilLog (n : Nat) : n ≤ 2 ^ ceilLog n := by
  unfold ceilLog
  split
  · assumption
  · have := Nat.lt_log2_self (n := n - 1)
    omega

/-- The sum of the values over the two halves of an aligned block. -/
theorem sum_range_two_pow_succ {A : Type} [AddCommMonoid A] (g : Nat → A) (l j : Nat) :
    ∑ k ∈ Finset.range (2 ^ (l + 1)), g (j + k) =
      ∑ k ∈ Finset.range (2 ^ l), g (j + k) + ∑ k ∈ Finset.range (2 ^ l), g (j + 2 ^ l + k) := by
  rw [pow_succ, mul_two, Finset.sum_range_add]
  simp only [Nat.add_assoc]

theorem treeNode_succ (o : RedOp) (f : Fmt) (rnd : Nat → Rnd) (leaf : Nat → Nat) (l j : Nat) :
    treeNode o f rnd leaf (l + 1) j =
      ((o.node f (rnd (2 ^ 17 * (l + 1) + j)) (treeNode o f rnd leaf l j).1 (treeNode o f rnd leaf l (j + 2 ^ l)).1).1,
        (treeNode o f rnd leaf l j).2 ||| (treeNode o f rnd leaf l (j + 2 ^ l)).2 |||
          (o.node f (rnd (2 ^ 17 * (l + 1) + j)) (treeNode o f rnd leaf l j).1 (treeNode o f rnd leaf l (j + 2 ^ l)).1).2) := rfl

/-- Where every node adds the values that `g` gives the codes, without a flag, so does the tree. -/
theorem treeNode_sum {A : Type} [AddCommMonoid A] {o : RedOp} {f : Fmt} {rnd : Nat → Rnd} (g : Nat → A)
    (hg : ∀ i x y, g (o.node f (rnd i) x y).1 = g x + g y ∧ (o.node f (rnd i) x y).2 = 0) (leaf : Nat → Nat) (l j : Nat) :
    g (treeNode o f rnd leaf l j).1 = ∑ k ∈ Finset.range (2 ^ l), g (leaf (j + k)) ∧ (treeNode o f rnd leaf l j).2 = 0 := by
  induction l generalizing j with
  | zero => exact ⟨by rw [pow_zero, Finset.sum_range_one, Nat.add_zero, treeNode], rfl⟩
  | succ l ih =>
    obtain ⟨hx, hfx⟩ := ih j
    obtain ⟨hy, hfy⟩ := ih (j + 2 ^ l)
    obtain ⟨hz, hfz⟩ := hg (2 ^ 17 * (l + 1) + j) (treeNode o f rnd leaf l j).1 (treeNode o f rnd leaf l (j + 2 ^ l)).1
    rw [treeNode_succ]
    dsimp only
    rw [hz, hfz, hfx, hfy, hx, hy, sum_range_two_pow_succ (fun k => g (leaf k))]
    exact ⟨rfl, rfl⟩

/-- A property of codes that every node keeps is one of the tree. -/
theorem treeNode_keeps {o : RedOp} {f : Fmt} {rnd : Nat → Rnd} {P : Nat → Prop} (hP : ∀ i x y, P x → P y → P (o.node f (rnd i) x y).1)
    {leaf : Nat → Nat} (hleaf : ∀ k, P (leaf k)) (l j : Nat) : P (treeNode o f rnd leaf l j).1 := by
  induction l generalizing j with
  | zero => exact hleaf j
  | succ l ih => exact hP _ _ _ (ih j) (ih (j + 2 ^ l))

/-- Where every node answers an operand with the greater key, without a flag, the tree answers a leaf with the greatest
key. -/
theorem treeNode_greatest {o : RedOp} {f : Fmt} {rnd : Nat → Rnd} (key : Nat → Int)
    (hkey : ∀ i x y, (o.node f (rnd i) x y = (x, 0) ∧ key y ≤ key x) ∨ (o.node f (rnd i) x y = (y, 0) ∧ key x ≤ key y))
    (leaf : Nat → Nat) (l j : Nat) :
    ∃ k < 2 ^ l, treeNode o f rnd leaf l j = (leaf (j + k), 0) ∧ ∀ q < 2 ^ l, key (leaf (j + q)) ≤ key (leaf (j + k)) := by
  induction l generalizing j with
  | zero => exact ⟨0, by decide, rfl, fun q hq => by rw [Nat.lt_one_iff.1 hq]⟩
  | succ l ih =>
    obtain ⟨a, ha, hxa, hleA⟩ := ih j
    obtain ⟨b, hb, hxb, hleB⟩ := ih (j + 2 ^ l)
    have hpow : 2 ^ (l + 1) = 2 ^ l + 2 ^ l := by rw [pow_succ, mul_two]
    have hhalves (m : Int) (hA : key (leaf (j + a)) ≤ m) (hB : key (leaf (j + 2 ^ l + b)) ≤ m) (q : Nat) (hq : q < 2 ^ (l + 1)) :
        key (leaf (j + q)) ≤ m := by
      rcases lt_or_ge q (2 ^ l) with h | h
      · exact (hleA q h).trans hA
      · have hle := hleB (q - 2 ^ l) (by omega)
        rw [Nat.add_assoc, Nat.add_sub_cancel' h] at hle
        exact hle.trans hB
    have hnoflag : (0 : Flags) ||| 0 ||| 0 = 0 := rfl
    rw [treeNode_succ, hxa, hxb]
    dsimp only
    rcases hkey (2 ^ 17 * (l + 1) + j) (leaf (j + a)) (leaf (j + 2 ^ l + b)) with ⟨hn, hle⟩ | ⟨hn, hle⟩ <;> rw [hn] <;>
      dsimp only <;> rw [hnoflag]
    · exact ⟨a, by omega, rfl, hhalves _ le_rfl hle⟩
    · refine ⟨2 ^ l + b, by omega, ?_, ?_⟩ <;> rw [← Nat.add_assoc]
      exact hhalves _ hle le_rfl

/-! ### Integers -/

/-- A root as the scalar register gets it: sign-extended in the formats I, else zero-extended (R224). -/
def extend64 (f : Fmt) (a : BitVec f.bits) : Word := if f.isI then a.signExtend 64 else a.setWidth 64

theorem extendCode_toNat {f : Fmt} (h : f.isIN = true) (a : BitVec f.bits) : extendCode f a.toNat = extend64 f a := by
  unfold extendCode extend64
  rw [intOf_toNat h, codeInt]
  cases f.isI
  · exact BitVec.ofNat_toNat ..
  · rfl

theorem ofInt_codeInt {f : Fmt} (a : BitVec f.bits) : BitVec.ofInt f.bits (codeInt f a) = a := by
  unfold codeInt
  split
  · exact BitVec.ofInt_toInt
  · rw [BitVec.ofInt_natCast, BitVec.ofNat_toNat, BitVec.setWidth_eq]

theorem leastInt_le_codeInt (f : Fmt) (a : BitVec f.bits) : leastInt f ≤ codeInt f a := by
  unfold leastInt codeInt
  split
  · exact BitVec.le_toInt a
  · exact Int.natCast_nonneg _

theorem codeInt_le_greatestInt (f : Fmt) (a : BitVec f.bits) : codeInt f a ≤ greatestInt f := by
  unfold greatestInt codeInt
  split
  · exact Int.le_sub_one_of_lt BitVec.toInt_lt
  · have := a.isLt
    push_cast [← @Nat.cast_lt Int] at this
    omega

/-- An integer in the format's range is what its word stands for. -/
theorem codeInt_ofInt {f : Fmt} {i : Int} (hlo : leastInt f ≤ i) (hhi : i ≤ greatestInt f) : codeInt f (BitVec.ofInt f.bits i) = i := by
  unfold leastInt at hlo
  unfold greatestInt at hhi
  unfold codeInt
  by_cases h : f.isI = true
  · rw [if_pos h] at hlo hhi ⊢
    exact BitVec.toInt_ofInt_eq_self (bits_pos f) hlo (by omega)
  · rw [if_neg h] at hlo hhi ⊢
    rw [BitVec.toNat_ofInt, Int.toNat_of_nonneg (Int.emod_nonneg _ (by positivity))]
    exact Int.emod_eq_of_lt hlo (by push_cast; omega)

/-- A code of the format is its word. -/
theorem exists_word_of_lt {n c : Nat} (h : c < 2 ^ n) : ∃ a : BitVec n, c = a.toNat :=
  ⟨BitVec.ofNat n c, (Nat.mod_eq_of_lt h).symm⟩

theorem extendCode_eq {f : Fmt} (h : f.isIN = true) {c : Nat} (hc : c < 2 ^ f.bits) :
    extendCode f c = extend64 f (BitVec.ofInt f.bits (intOf f c)) := by
  obtain ⟨a, rfl⟩ := exists_word_of_lt hc
  rw [extendCode_toNat h, intOf_toNat h, ofInt_codeInt]

theorem node_add {f : Fmt} (h : f.isIN = true) {r : Rnd} (hr : r.sat = false) (x y : Nat) :
    RedOp.add.node f r x y = ((BitVec.ofInt f.bits (intOf f x + intOf f y)).toNat, 0) := by
  rw [RedOp.node, if_neg (ne_bit_of_isIN h), arith_of_isIN h, toIntFmt_eq h, hr]
  rfl

/-- What `vred.max` and `vred.min` have grow: the value, or what is left below it. -/
def redKey (wantMax : Bool) (f : Fmt) (c : Nat) : Int := if wantMax then intOf f c else -intOf f c

/-- The operation of `vred.max` and of `vred.min`. -/
def extremeOp (wantMax : Bool) : RedOp := if wantMax then .max else .min

theorem node_extreme {f : Fmt} (h : f.isIN = true) (wantMax : Bool) (r : Rnd) (x y : Nat) :
    ((extremeOp wantMax).node f r x y = (x, 0) ∧ redKey wantMax f y ≤ redKey wantMax f x) ∨
      ((extremeOp wantMax).node f r x y = (y, 0) ∧ redKey wantMax f x ≤ redKey wantMax f y) := by
  have hnode : (extremeOp wantMax).node f r x y = minMax f r.ftz wantMax x y := by
    cases wantMax <;> exact if_neg (ne_bit_of_isIN h)
  rw [hnode, minMax_of_isIN h]
  unfold redKey
  rcases lt_or_ge (intOf f x) (intOf f y) with hxy | hxy
  · rw [if_pos hxy]
    cases wantMax
    · exact .inl ⟨rfl, neg_le_neg hxy.le⟩
    · exact .inr ⟨rfl, hxy.le⟩
  · rw [if_neg hxy.not_gt]
    cases wantMax
    · exact .inr ⟨rfl, neg_le_neg hxy⟩
    · exact .inl ⟨rfl, hxy⟩

/-- The integer that the identity of `vred.max` or of `vred.min` stands for (R101). -/
def farInt (wantMax : Bool) (f : Fmt) : Int := if wantMax then leastInt f else greatestInt f

theorem ident_extreme {f : Fmt} (h : f.isIN = true) (wantMax : Bool) :
    (extremeOp wantMax).ident f = (BitVec.ofInt f.bits (farInt wantMax f)).toNat := by
  unfold RedOp.ident
  rw [fp_of_isIN h, intRange_eq h]
  cases wantMax <;> exact wrapNat_eq_toNat ..

theorem redKey_ident_le {f : Fmt} (h : f.isIN = true) (wantMax : Bool) {c : Nat} (hc : c < 2 ^ f.bits) :
    redKey wantMax f ((extremeOp wantMax).ident f) ≤ redKey wantMax f c := by
  obtain ⟨a, rfl⟩ := exists_word_of_lt hc
  rw [ident_extreme h]
  unfold redKey farInt
  rw [intOf_toNat h, intOf_toNat h]
  cases wantMax
  · show -codeInt f (BitVec.ofInt f.bits (greatestInt f)) ≤ -codeInt f a
    rw [codeInt_ofInt (leastInt_le_greatestInt f) le_rfl]
    exact neg_le_neg (codeInt_le_greatestInt f a)
  · show codeInt f (BitVec.ofInt f.bits (leastInt f)) ≤ codeInt f a
    rw [codeInt_ofInt le_rfl (leastInt_le_greatestInt f)]
    exact leastInt_le_codeInt f a

theorem intOf_eq_of_redKey_eq {wantMax : Bool} {f : Fmt} {c d : Nat} (h : redKey wantMax f c = redKey wantMax f d) :
    intOf f c = intOf f d := by
  cases wantMax
  · exact neg_inj.1 h
  · exact h

/-! ### The root -/

theorem redRoot_eq (o : RedOp) (v : VArgs) (sid : BitVec 16) (b : Bcast) :
    redRoot o v sid b = if b.carry.vl.toNat = 0 then (0, extendCode v.fmt (o.ident v.fmt)) else
      let t := treeNode o v.fmt (fun i => mkRnd b.carry sid b.isn 0 v.rm v.sat i) (leafCode (o.ident v.fmt) b.leaves)
        (ceilLog b.carry.vl.toNat) 0
      (t.2, extendCode v.fmt t.1) := rfl

section
variable {v : VArgs} {sid : BitVec 16} {b : Bcast}

/-- Leaves that can be: of distinct elements below VL, with codes of the format. -/
def LeavesOk (v : VArgs) (b : Bcast) : Prop :=
  (b.leaves.map (·.1)).Nodup ∧ ∀ p ∈ b.leaves, p.1 < b.carry.vl.toNat ∧ p.2 < 2 ^ v.fmt.bits

theorem leaves_nil_of_vl_zero (hok : LeavesOk v b) (h : b.carry.vl.toNat = 0) : b.leaves = [] :=
  List.eq_nil_iff_forall_not_mem.2 fun p hp => by
    have := (hok.2 p hp).1
    omega

/-- A root that adds is the code of the sum of the leaves, as `g` counts them. -/
theorem redRoot_add {A : Type} [AddCommMonoid A] (g : Nat → A) (hz : RedOp.add.ident v.fmt = 0) (hg0 : g 0 = 0)
    (hg : ∀ i x y, g (RedOp.add.node v.fmt (mkRnd b.carry sid b.isn 0 v.rm v.sat i) x y).1 = g x + g y ∧
      (RedOp.add.node v.fmt (mkRnd b.carry sid b.isn 0 v.rm v.sat i) x y).2 = 0)
    {P : Nat → Prop} (hP0 : P 0) (hPleaf : ∀ p ∈ b.leaves, P p.2)
    (hP : ∀ i x y, P x → P y → P (RedOp.add.node v.fmt (mkRnd b.carry sid b.isn 0 v.rm v.sat i) x y).1) (hok : LeavesOk v b) :
    ∃ c, P c ∧ g c = (b.leaves.map (fun p => g p.2)).sum ∧ redRoot .add v sid b = (0, extendCode v.fmt c) := by
  obtain ⟨hnd, hlt⟩ := hok
  rw [redRoot_eq, hz]
  by_cases h0 : b.carry.vl.toNat = 0
  · rw [if_pos h0, leaves_nil_of_vl_zero ⟨hnd, hlt⟩ h0]
    exact ⟨0, hP0, hg0, rfl⟩
  · rw [if_neg h0]
    obtain ⟨hsum, hfl⟩ := treeNode_sum g hg (leafCode 0 b.leaves) (ceilLog b.carry.vl.toNat) 0
    have hleaf (k : Nat) : P (leafCode 0 b.leaves k) := by
      rcases leafCode_mem_or 0 b.leaves k with ⟨p, hp, h⟩ | h <;> rw [h]
      · exact hPleaf p hp
      · exact hP0
    refine ⟨_, treeNode_keeps hP hleaf (ceilLog b.carry.vl.toNat) 0, ?_, ?_⟩
    · rw [hsum]
      simp only [Nat.zero_add]
      exact sum_leafCode hg0 hnd fun p hp => (hlt p hp).1.trans_le (le_two_pow_ceilLog _)
    · dsimp only
      rw [hfl]

theorem ofInt_intOf {f : Fmt} (h : f.isIN = true) (c : Nat) : BitVec.ofInt f.bits (intOf f c) = BitVec.ofNat f.bits c := by
  have hmod : intOf f c = intOf f (BitVec.ofNat f.bits c).toNat := by
    rw [BitVec.toNat_ofNat]
    unfold intOf sextInt
    rw [Nat.mod_mod]
    norm_cast
    rw [Nat.mod_mod]
  rw [hmod, intOf_toNat h, ofInt_codeInt]

theorem ofInt_sum (n : Nat) (l : List Int) : BitVec.ofInt n l.sum = (l.map (BitVec.ofInt n)).sum := by
  induction l with
  | nil => rfl
  | cons x l ih => rw [List.sum_cons, BitVec.ofInt_add, ih, List.map_cons, List.sum_cons]

/-- `vred.add` in an integer format: the sum modulo 2^n (R224). -/
theorem redRoot_add_of_isIN (hok : LeavesOk v b) (h : v.fmt.isIN = true) (hs : v.sat = false) :
    redRoot .add v sid b =
      (0, extend64 v.fmt (BitVec.ofInt v.fmt.bits (b.leaves.map (fun p => intOf v.fmt p.2)).sum)) := by
  have hnode (i x y : Nat) := node_add h (r := mkRnd b.carry sid b.isn 0 v.rm v.sat i) hs x y
  obtain ⟨c, hc, hsum, hroot⟩ := redRoot_add (sid := sid) (BitVec.ofNat v.fmt.bits)
    (by rw [RedOp.ident, fp_of_isIN h]) rfl
    (fun i x y => by
      rw [hnode, BitVec.ofNat_toNat, BitVec.setWidth_eq, BitVec.ofInt_add, ofInt_intOf h, ofInt_intOf h]
      exact ⟨rfl, rfl⟩)
    (P := (· < 2 ^ v.fmt.bits)) (Nat.two_pow_pos _) (fun p hp => (hok.2 p hp).2)
    (fun i x y _ _ => by rw [hnode]; exact BitVec.isLt _) hok
  rw [hroot, extendCode_eq h hc, ofInt_intOf h, hsum, ofInt_sum, List.map_map]
  simp only [Function.comp_def, ofInt_intOf h]

/-- `vred.add` on bits counts the ones (R224). -/
theorem redRoot_add_bit (hok : LeavesOk v b) (h : v.fmt = .bit) :
    redRoot .add v sid b = (0, BitVec.ofNat 64 ((b.leaves.filter (fun p => p.2 = 1)).length)) := by
  obtain ⟨c, -, hsum, hroot⟩ := redRoot_add (sid := sid) id (by rw [h]; rfl) rfl (fun i x y => by rw [h]; exact ⟨rfl, rfl⟩)
    (P := fun _ => True) trivial (fun _ _ => trivial) (fun _ _ _ _ _ => trivial) hok
  have hones (l : List (Nat × Nat)) (hl : ∀ p ∈ l, p.2 < 2) : (l.map (fun p => p.2)).sum = (l.filter (fun p => p.2 = 1)).length := by
    induction l with
    | nil => rfl
    | cons p l ih =>
      obtain ⟨hp, hl⟩ := List.forall_mem_cons.1 hl
      rw [List.map_cons, List.sum_cons, ih hl, List.filter_cons]
      by_cases h1 : p.2 = 1
      · rw [if_pos (decide_eq_true h1), List.length_cons, h1, Nat.add_comm]
      · rw [if_neg (by simpa using h1), show p.2 = 0 by omega, Nat.zero_add]
  have hc : c = (b.leaves.map (fun p => p.2)).sum := hsum
  rw [hroot, h, ← hones _ fun p hp => by have := (hok.2 p hp).2; rwa [h] at this, ← hc]
  rfl

/-- `vred.max` and `vred.min` in an integer format: the value of a leaf with the greatest key, or of the identity. -/
theorem redRoot_extreme (hok : LeavesOk v b) (h : v.fmt.isIN = true) (wantMax : Bool) :
    ∃ c, redRoot (extremeOp wantMax) v sid b = (0, extendCode v.fmt c) ∧
      ((∃ p ∈ b.leaves, c = p.2) ∨ c = (extremeOp wantMax).ident v.fmt) ∧
      ∀ p ∈ b.leaves, redKey wantMax v.fmt p.2 ≤ redKey wantMax v.fmt c := by
  rw [redRoot_eq]
  by_cases h0 : b.carry.vl.toNat = 0
  · rw [if_pos h0, leaves_nil_of_vl_zero hok h0]
    exact ⟨_, rfl, .inr rfl, nofun⟩
  · rw [if_neg h0]
    obtain ⟨k, -, htree, hle⟩ := treeNode_greatest (redKey wantMax v.fmt)
      (fun i x y => node_extreme h wantMax (mkRnd b.carry sid b.isn 0 v.rm v.sat i) x y)
      (leafCode ((extremeOp wantMax).ident v.fmt) b.leaves) (ceilLog b.carry.vl.toNat) 0
    refine ⟨_, by rw [htree], leafCode_mem_or .., fun p hp => ?_⟩
    have hp' := hle p.1 ((hok.2 p hp).1.trans_le (le_two_pow_ceilLog _))
    rwa [Nat.zero_add, leafCode_of_mem hok.1 hp] at hp'

/-- `vred.max` and `vred.min` with active elements: one of them, and none has a greater key. -/
theorem redRoot_extreme_of_leaves (hok : LeavesOk v b) (h : v.fmt.isIN = true) (wantMax : Bool) (hne : b.leaves ≠ []) :
    ∃ p ∈ b.leaves, redRoot (extremeOp wantMax) v sid b = (0, extend64 v.fmt (BitVec.ofInt v.fmt.bits (intOf v.fmt p.2))) ∧
      ∀ q ∈ b.leaves, redKey wantMax v.fmt q.2 ≤ redKey wantMax v.fmt p.2 := by
  obtain ⟨c, hroot, hc, hle⟩ := redRoot_extreme (sid := sid) hok h wantMax
  rcases hc with ⟨p, hp, rfl⟩ | rfl
  · exact ⟨p, hp, by rw [hroot, extendCode_eq h (hok.2 p hp).2], hle⟩
  · obtain ⟨p, hp⟩ := List.exists_mem_of_ne_nil _ hne
    have hlow := redKey_ident_le h wantMax (hok.2 p hp).2
    have hsame := intOf_eq_of_redKey_eq (hlow.antisymm (hle p hp))
    refine ⟨p, hp, ?_, fun q hq => (hle q hq).trans hlow⟩
    rw [hroot, ← hsame, ident_extreme h, extendCode_eq h (BitVec.isLt _)]

/-- `vred.max` and `vred.min` without an active element: the format's least or greatest integer. -/
theorem redRoot_extreme_of_nil (hok : LeavesOk v b) (h : v.fmt.isIN = true) (wantMax : Bool) (hnil : b.leaves = []) :
    redRoot (extremeOp wantMax) v sid b = (0, extend64 v.fmt (BitVec.ofInt v.fmt.bits (farInt wantMax v.fmt))) := by
  obtain ⟨c, hroot, hc, -⟩ := redRoot_extreme (sid := sid) hok h wantMax
  rcases hc with ⟨p, hp, -⟩ | rfl
  · rw [hnil] at hp
    cases hp
  · rw [hroot, ident_extreme h, extendCode_toNat h]

end

/-- Settles O34: the three operations of `redRoot` by what their nodes do to values. -/
theorem integerReductions : Obligations.IntegerReductions := by
  unfold Obligations.IntegerReductions
  intro v sid b hnd hlt vals n ext
  have hok : LeavesOk v b := ⟨hnd, hlt⟩
  have hleaves (hv : vals ≠ []) : b.leaves ≠ [] := fun hb => hv (congrArg _ hb)
  refine ⟨fun h hs => redRoot_add_of_isIN hok h hs, fun h => redRoot_add_bit hok h, fun h hne => ⟨?_, ?_⟩, fun h hnil => ?_⟩
  · obtain ⟨p, hp, hroot, hle⟩ := redRoot_extreme_of_leaves (sid := sid) hok h true (hleaves hne)
    exact ⟨_, List.mem_map_of_mem hp, hroot, List.forall_mem_map.2 hle⟩
  · obtain ⟨p, hp, hroot, hle⟩ := redRoot_extreme_of_leaves (sid := sid) hok h false (hleaves hne)
    exact ⟨_, List.mem_map_of_mem hp, hroot, List.forall_mem_map.2 fun q hq => neg_le_neg_iff.1 (hle q hq)⟩
  · have hb : b.leaves = [] := List.map_eq_nil_iff.1 hnil
    exact ⟨redRoot_extreme_of_nil hok h true hb, redRoot_extreme_of_nil hok h false hb⟩

end Sys2Proof.Proofs
end

section
/-! Partials of accumulates combine in any order: WF96 elements and integers (R87, R89, R335). -/

namespace Sys2Proof.Proofs

open Sys2Proof Sys2Proof.Machine Sys2Proof.Safety Sys2Proof.Laws

/-! ### WF96 elements and their bits -/

/-- A WF96 element whose fields fit its bits (R87). -/
def FitsW96 (w : W96) : Prop := sextInt 96 (wrapNat 96 w.v) = w.v ∧ w.cnt < 2 ^ 16

theorem sextInt_wrapNat {w : Nat} (hw : 0 < w) (i : Int) : sextInt w (wrapNat w i) = Int.bmod i (2 ^ w) := by
  rw [wrapNat_eq_toNat, sextInt_toNat hw, BitVec.toInt_ofInt]

theorem wrapNat_lt (w : Nat) (i : Int) : wrapNat w i < 2 ^ w := by
  rw [wrapNat_eq_toNat]
  exact BitVec.isLt _

theorem v_addW96 (a b : W96) : (addW96 false a b).v = Int.bmod (a.v + b.v) (2 ^ 96) := sextInt_wrapNat (by decide) _

theorem cnt_addW96 (a b : W96) : (addW96 false a b).cnt = min 65535 (a.cnt + b.cnt) := rfl

theorem u_addW96 (a b : W96) : (addW96 false a b).u = (a.u || b.u || decide (65535 < a.cnt + b.cnt)) := rfl

theorem w96_ext {a b : W96} (hv : a.v = b.v) (hc : a.cnt = b.cnt) (hu : a.u = b.u) : a = b := by
  cases a
  cases b
  congr

theorem fitsW96_addW96 (a b : W96) : FitsW96 (addW96 false a b) := by
  refine ⟨?_, Nat.lt_succ_of_le (Nat.min_le_left ..)⟩
  rw [sextInt_wrapNat (by decide), v_addW96, Int.bmod_bmod]

theorem sextInt_add_mul (w n k : Nat) : sextInt w (n + 2 ^ w * k) = sextInt w n := by
  have h : (((n + 2 ^ w * k : Nat) : Int)) % 2 ^ w = (n : Int) % 2 ^ w := by
    push_cast
    exact Int.add_mul_emod_self_left ..
  unfold sextInt
  rw [Nat.add_mul_mod_self_left, h]

theorem bits_W96_lt {w : W96} (h : FitsW96 w) : w.bits < 2 ^ 128 := by
  have hv := wrapNat_lt 96 w.v
  obtain ⟨-, hc⟩ := h
  unfold W96.bits at_ boolNat
  split <;> omega

/-- Bits of an element that fits give the element back. -/
theorem ofBits_bits {w : W96} (h : FitsW96 w) : W96.ofBits w.bits = w := by
  have hlt := wrapNat_lt 96 w.v
  obtain ⟨hv, hc⟩ := h
  obtain ⟨v, c, u⟩ := w
  dsimp only at hv hc hlt
  have hbits : W96.bits ⟨v, c, u⟩ = wrapNat 96 v + 2 ^ 96 * (c + 2 ^ 16 * boolNat u) := by
    unfold W96.bits at_
    dsimp only
    ring
  have hu : boolNat u < 2 := by cases u <;> decide
  rw [hbits, W96.ofBits, sextInt_add_mul, hv]
  congr 1
  · unfold fld
    omega
  · have hbit : fld 112 1 (wrapNat 96 v + 2 ^ 96 * (c + 2 ^ 16 * boolNat u)) = boolNat u := by
      unfold fld
      omega
    rw [hbit]
    cases u <;> rfl

/-! ### Combination (R89) -/

theorem addW96_comm (a b : W96) : addW96 false a b = addW96 false b a := by
  simp only [addW96, Int.add_comm a.v, Nat.add_comm a.cnt, Bool.or_comm a.u]
  rfl

theorem addW96_assoc (a b c : W96) : addW96 false (addW96 false a b) c = addW96 false a (addW96 false b c) := by
  have hv : (addW96 false (addW96 false a b) c).v = (addW96 false a (addW96 false b c)).v := by
    rw [v_addW96, v_addW96, v_addW96, v_addW96, Int.bmod_add_bmod, Int.add_bmod_bmod, Int.add_assoc]
  have hc : (addW96 false (addW96 false a b) c).cnt = (addW96 false a (addW96 false b c)).cnt := by
    rw [cnt_addW96 (addW96 false a b), cnt_addW96 a b, cnt_addW96 a, cnt_addW96 b]
    omega
  have hu : (addW96 false (addW96 false a b) c).u = (addW96 false a (addW96 false b c)).u := by
    have hmany : 65535 < a.cnt + b.cnt ∨ 65535 < min 65535 (a.cnt + b.cnt) + c.cnt ↔
        65535 < b.cnt + c.cnt ∨ 65535 < a.cnt + min 65535 (b.cnt + c.cnt) := by omega
    rw [Bool.eq_iff_iff]
    simp only [u_addW96, Bool.or_eq_true, decide_eq_true_eq]
    rw [cnt_addW96, cnt_addW96]
    tauto
  exact w96_ext hv hc hu

/-! ### Partials -/

theorem partAdd_wf96_toNat (x y : BitVec 128) :
    (partAdd .wf96 x y).toNat = (addW96 false (W96.ofBits x.toNat) (W96.ofBits y.toNat)).bits := by
  rw [partAdd, if_pos rfl, BitVec.toNat_ofNat, Nat.mod_eq_of_lt (bits_W96_lt (fitsW96_addW96 ..))]

theorem ofBits_partAdd (x y : BitVec 128) :
    W96.ofBits (partAdd .wf96 x y).toNat = addW96 false (W96.ofBits x.toNat) (W96.ofBits y.toNat) := by
  rw [partAdd_wf96_toNat, ofBits_bits (fitsW96_addW96 ..)]

theorem setWidth_eq_ofInt (x : BitVec 128) : x.setWidth 96 = BitVec.ofInt 96 (W96.ofBits x.toNat).v := by
  have h : sextInt 96 x.toNat = (x.setWidth 96).toInt := by
    rw [← sextInt_toNat (by decide), BitVec.toNat_setWidth]
    conv_lhs => rw [← Nat.mod_add_div x.toNat (2 ^ 96), sextInt_add_mul]
  exact (congrArg _ h).trans BitVec.ofInt_toInt |>.symm

theorem extractLsb'_eq_cnt (x : BitVec 128) : (x.extractLsb' 96 16).toNat = (W96.ofBits x.toNat).cnt := by
  rw [BitVec.extractLsb'_toNat, Nat.shiftRight_eq_div_pow]
  rfl

theorem getLsbD_eq_u (x : BitVec 128) : x.getLsbD 112 = (W96.ofBits x.toNat).u := by
  rw [BitVec.getLsbD, Nat.testBit_eq_decide_div_mod_eq]
  rfl

theorem partAdd_int {f : Fmt} (hf : f ≠ .wf96) (x y : BitVec 128) : (partAdd f x y).toNat = (x.toNat + y.toNat) % 2 ^ f.bits := by
  have hb : 2 ^ f.bits ≤ 2 ^ 128 := Nat.pow_le_pow_right (by decide) (by cases f <;> decide)
  rw [partAdd, if_neg hf, BitVec.toNat_ofNat, Nat.mod_eq_of_lt]
  exact (Nat.mod_lt _ (Nat.two_pow_pos _)).trans_le hb

theorem partAdd_comm (f : Fmt) (x y : BitVec 128) : partAdd f x y = partAdd f y x := by
  by_cases hf : f = .wf96
  · subst hf
    apply BitVec.eq_of_toNat_eq
    rw [partAdd_wf96_toNat, partAdd_wf96_toNat, addW96_comm]
  · apply BitVec.eq_of_toNat_eq
    rw [partAdd_int hf, partAdd_int hf, Nat.add_comm]

theorem partAdd_assoc (f : Fmt) (x y z : BitVec 128) : partAdd f (partAdd f x y) z = partAdd f x (partAdd f y z) := by
  apply BitVec.eq_of_toNat_eq
  by_cases hf : f = .wf96
  · subst hf
    rw [partAdd_wf96_toNat, ofBits_partAdd, partAdd_wf96_toNat x, ofBits_partAdd, addW96_assoc]
  · rw [partAdd_int hf, partAdd_int hf, partAdd_int hf, partAdd_int hf, Nat.mod_add_mod, Nat.add_mod_mod, Nat.add_assoc]

/-- Settles O33: partials combine as their WF96 elements or integers do. -/
theorem wf96OrderDoesNotMatter : Obligations.Wf96OrderDoesNotMatter := by
  unfold Obligations.Wf96OrderDoesNotMatter
  intro f x y z _
  refine ⟨partAdd_comm .., partAdd_assoc .., ?_, fun hf => partAdd_int hf x y⟩
  rintro rfl
  refine ⟨?_, ?_, ?_⟩
  · rw [setWidth_eq_ofInt, ofBits_partAdd, v_addW96, setWidth_eq_ofInt x, setWidth_eq_ofInt y, ← BitVec.ofInt_add]
    exact BitVec.eq_of_toInt_eq (by rw [BitVec.toInt_ofInt, BitVec.toInt_ofInt, Int.bmod_bmod])
  · rw [extractLsb'_eq_cnt, ofBits_partAdd, extractLsb'_eq_cnt, extractLsb'_eq_cnt]
    rfl
  · rw [getLsbD_eq_u, ofBits_partAdd, getLsbD_eq_u, getLsbD_eq_u, extractLsb'_eq_cnt, extractLsb'_eq_cnt]
    rfl

end Sys2Proof.Proofs
end

section
/-! The values of the smallest formats (R81 to R83). -/

namespace Sys2Proof.Proofs

open Sys2Proof Sys2Proof.Machine Sys2Proof.Safety Sys2Proof.Laws

/-- The value of a finite number is the integer it was made from. -/
theorem value_ofInt (i : Int) : (if decide (i < 0) then -1 else 1) * (i.natAbs : ℚ) * 2 ^ (0 : Int) = i := by
  rw [Nat.cast_natAbs, zpow_zero, mul_one]
  by_cases h : i < 0
  · rw [if_pos (decide_eq_true h), abs_of_neg h]
    push_cast
    ring
  · rw [if_neg (by simpa using h), abs_of_nonneg (not_lt.1 h), one_mul]

theorem intOf_q4 (c : Fin 16) : intOf .q4 c.val = if c.val < 8 then (c.val : Int) else (c.val : Int) - 16 := by revert c; decide

theorem intOf_q3 (c : Fin 8) : intOf .q3 c.val = if c.val < 4 then (c.val : Int) else (c.val : Int) - 8 := by revert c; decide

theorem decodeNum_e8m0 {c : Nat} (hc : c < 255) : decodeNum .e8m0 0 false c = .fin false 1 ((c : Int) - 127) false := by
  have hm : c % 256 = c := Nat.mod_eq_of_lt (by omega)
  show (if c % 256 = 255 then _ else Num.fin false 1 (((c : Int) % 256) - 127) false) = _
  rw [hm, if_neg hc.ne, Int.emod_eq_of_lt (by omega) (by omega)]

/-- Settles O32: the table of E2M1 code by code, the others by their formulas. -/
theorem smallFormatValues : Obligations.SmallFormatValues := by
  unfold Obligations.SmallFormatValues
  refine ⟨fun c => ?_, fun c => ?_, rfl, fun c => ?_, fun c => ?_⟩
  · fin_cases c <;> exact ⟨_, _, _, rfl, by decide, by norm_num [fld]⟩
  · exact ⟨_, _, decodeNum_e8m0 c.isLt, by rw [Nat.cast_one, one_mul]⟩
  · refine ⟨_, _, _, rfl, ?_⟩
    rw [value_ofInt, intOf_q4]
    split <;> push_cast <;> rfl
  · refine ⟨_, _, _, rfl, ?_⟩
    rw [value_ofInt, intOf_q3]
    split <;> push_cast <;> rfl

end Sys2Proof.Proofs
end

section
/-! The module right after power-on (R437). -/

namespace Sys2Proof.Proofs

open Sys2Proof Sys2Proof.Machine Sys2Proof.Safety Sys2Proof.Laws

theorem die_reset (k : Nat) : State.reset.die k = Die.reset := by
  rw [State.die, State.reset, Vector.get_eq_getElem, Vector.getElem_replicate]

/-- Settles O60: the state of reset by its definition. -/
theorem resetState : Obligations.ResetState := by
  unfold Obligations.ResetState
  have hdies : ∀ k < 26, (State.reset.die k).state = 1 ∧ (State.reset.die k).thr = 95 ∧ (State.reset.die k).trip = 110 := by
    intro k _
    rw [die_reset]
    exact ⟨rfl, rfl, rfl⟩
  have hmcfg : bar0Word State.reset 0x010 = 0xFF + 2 ^ 9 + 0xFFFF * 2 ^ 10 + 128 * 2 ^ 26 + 1024 * 2 ^ 34 := by decide
  exact ⟨rfl, rfl, List.forall_mem_singleton.2 rfl, rfl, rfl, hmcfg, rfl, rfl, hdies, rfl, rfl, rfl, rfl, rfl, rfl, rfl, rfl⟩

end Sys2Proof.Proofs
end

section
/-! The end of a stream (R122, R157, R389): what homes change as they perform its messages, and what its retirement leaves. -/

namespace Sys2Proof.Proofs

open Sys2Proof Sys2Proof.Machine Sys2Proof.Safety Sys2Proof.Laws

/-! ### Numbers that the device writes -/

/-- `t` is `s` after writes of numbers and signals to the host: memory, the pending vectors and what a `wfe` has seen may
differ, and each stream's monitor is still there. -/
structure Written (s t : State) : Prop where
  rest : t = { s with mem := t.mem, monitors := t.monitors, msix := t.msix }
  sids : t.monitors.map (·.sid) = s.monitors.map (·.sid)

theorem Written.refl (s : State) : Written s s := ⟨rfl, rfl⟩

theorem Written.trans {s t u : State} (h : Written s t) (h' : Written t u) : Written s u where
  rest := by
    rw [h'.rest]
    rw [h.rest]
  sids := h'.sids.trans h.sids

theorem Written.foldl {α : Type} {f : State → α → State} (hf : ∀ s a, Written s (f s a)) (l : List α) (s : State) :
    Written s (l.foldl f s) := by
  induction l generalizing s with
  | nil => exact .refl s
  | cons a l ih => exact (hf s a).trans (ih _)

theorem written_notedIn (s : State) (p : Key → Bool) : Written s (s.notedIn p) := by
  unfold State.notedIn
  split
  · exact .refl s
  · refine ⟨rfl, ?_⟩
    rw [List.map_map]
    refine List.map_congr_left fun m _ => ?_
    dsimp only [Function.comp_apply]
    split <;> rfl

theorem written_write (s : State) (k n v : Nat) : Written s (s.write k n v) :=
  (written_notedIn s _).trans ⟨rfl, rfl⟩

theorem written_putNum (s : State) (k n v : Nat) : Written s (s.putNum k n v) := written_write ..

theorem written_signal (s : State) (v : BitVec 11) : Written s (s.signal v) := by
  unfold State.signal
  split
  · exact ⟨rfl, rfl⟩
  · exact .refl s

theorem written_putLstat (s : State) (q : BitVec 6) (k : Key) (v : Word) : Written s (putLstat s q k v) := by
  unfold putLstat
  dsimp only
  split
  · exact (written_putNum ..).trans (written_signal ..)
  · exact written_putNum ..

theorem written_putStat (s : State) (c : LogCtx) : Written s (s.putStat c) :=
  (written_putNum ..).trans ((written_putNum ..).trans (written_putNum ..))

/-! ### What a retirement leaves -/

/-- A stream that leaves its launch may take the launch with it; LSTAT is then written (R110, R122). -/
theorem leaveLaunch_written (s : State) (sid0 sid : BitVec 16) : ∃ l, Written { s with launches := l } (leaveLaunch s sid0 sid) := by
  unfold leaveLaunch
  split
  · exact ⟨s.launches, .refl s⟩
  · rename_i l _
    dsimp only
    split
    · exact ⟨_, (written_putLstat ..).trans (.foldl (fun s p => written_putLstat ..) ..)⟩
    · exact ⟨_, .refl _⟩

theorem Written.setLogs {s t : State} (h : Written s t) (l : List LogCtx) : Written { s with logs := l } { t with logs := l } where
  rest := by rw [h.rest]
  sids := h.sids

theorem putLog_written (s : State) (c : LogCtx) : ∃ l, Written { s with logs := l } (s.putLog c) := by
  unfold State.putLog
  split
  · exact ⟨_, ((written_putNum ..).trans (written_putStat ..)).setLogs _⟩
  · exact ⟨_, .refl _⟩

/-- A stream that leaves its log changes the log's block and the list of contexts (R367). -/
theorem logLeave_written (s : State) (id sid : BitVec 16) : ∃ l, Written { s with logs := l } (logLeave s id sid) := by
  unfold logLeave
  split
  · exact ⟨s.logs, .refl s⟩
  · dsimp only
    split
    · exact ⟨_, (written_putNum ..).setLogs _⟩
    · exact putLog_written ..

/-- The lists of the module without what belongs to stream `sid` (R122). -/
def without (sid : BitVec 16) (s : State) : State :=
  { s with
    waiters := s.waiters.filter (fun w => w.sid != sid),
    monitors := s.monitors.filter (fun w => w.sid != sid),
    migrating := s.migrating.filter (fun m => m.stack.isSome || m.sid != sid),
    shelves := s.shelves.filter (fun e => e.sid != sid),
    slots := s.slots.filter (fun p => p.1 != sid),
    residuals := s.residuals.filter (fun r => r.sid != sid) }

theorem retired_eq (s : State) : retired s =
    ({ leaveLaunch (without s.front.sid (if s.front.logMode = 0 then s else logLeave s s.front.logId s.front.sid))
        (if s.front.logMode = 0 then s else logLeave s s.front.logId s.front.sid).front.launch s.front.sid with
      front := Front.idle } : State).numbered := rfl

/-- What a retirement leaves: no stream in the front and nothing of its SID, one number taken, and messages and registers
as they were. -/
theorem retired_spec (s : State) :
    let t := retired s
    t.front = Front.idle ∧ t.epoch = s.epoch + 1 ∧ t.regs = s.regs ∧ t.msgs = s.msgs ∧ t.homeQ = s.homeQ ∧
      (∀ w ∈ t.waiters, w.sid ≠ s.front.sid) ∧ (∀ m ∈ t.monitors, m.sid ≠ s.front.sid) ∧
      (∀ m ∈ t.migrating, m.stack = none → m.sid ≠ s.front.sid) ∧ (∀ e ∈ t.shelves, e.sid ≠ s.front.sid) ∧
      (∀ p ∈ t.slots, p.1 ≠ s.front.sid) ∧ (∀ x ∈ t.residuals, x.sid ≠ s.front.sid) := by
  obtain ⟨lg, hlog⟩ : ∃ l, Written { s with logs := l } (if s.front.logMode = 0 then s else logLeave s s.front.logId s.front.sid) := by
    split
    · exact ⟨s.logs, .refl s⟩
    · exact logLeave_written ..
  rw [retired_eq]
  generalize (if s.front.logMode = 0 then s else logLeave s s.front.logId s.front.sid) = u at hlog
  obtain ⟨l, hl⟩ := leaveLaunch_written (without s.front.sid u) u.front.launch s.front.sid
  generalize leaveLaunch (without s.front.sid u) u.front.launch s.front.sid = t at hl
  have hmon : ∀ m ∈ t.monitors, m.sid ≠ s.front.sid := by
    intro m hm
    have : m.sid ∈ (u.monitors.filter (fun w => w.sid != s.front.sid)).map (·.sid) := hl.sids ▸ List.mem_map_of_mem hm
    obtain ⟨w, hw, he⟩ := List.mem_map.1 this
    rw [← he]
    simpa using (List.mem_filter.1 hw).2
  refine ⟨rfl, ?_, ?_, ?_, ?_, ?_, hmon, ?_, ?_, ?_, ?_⟩
  all_goals
    dsimp only [State.numbered]
    rw [hl.rest]
    dsimp only [without]
    rw [hlog.rest]
  case refine_6 =>
    intro m hm hst
    simpa [hst] using (List.mem_filter.1 hm).2
  all_goals
    intro x hx
    simpa using (List.mem_filter.1 hx).2

theorem retired_mem {s : State} (hlog : s.front.logMode = 0) (hl : ∀ l ∈ s.launches, l.sid0 ≠ s.front.launch) : (retired s).mem = s.mem := by
  have hnone : (without s.front.sid s).launches.find? (fun l => l.sid0 == s.front.launch) = none :=
    List.find?_eq_none.2 fun l h => by simpa using hl l h
  rw [retired_eq, if_pos hlog, leaveLaunch, hnone]
  rfl

theorem retireFront_of_no_groups {s : State} (h : myGroups s.front = []) : retireFront s = retired s := by
  rw [retireFront, h]
  rfl

/-! ### What homes change -/

/-- `t` is `s` after homes have answered or performed messages: the messages on their way and the launches stay, and so does
the stream whose turn it is, but for a watch hit reported to it. -/
structure Answered (s t : State) : Prop where
  front : t.front = { s.front with pwatch := t.front.pwatch }
  msgs : t.msgs = s.msgs
  launches : t.launches = s.launches

/-- The same where the homes' queues stay too. -/
structure Performed (s t : State) : Prop extends Answered s t where
  homeQ : t.homeQ = s.homeQ

theorem Answered.refl (s : State) : Answered s s := ⟨rfl, rfl, rfl⟩

theorem Answered.trans {s t u : State} (h : Answered s t) (h' : Answered t u) : Answered s u where
  front := by
    rw [h'.front]
    rw [h.front]
  msgs := h'.msgs.trans h.msgs
  launches := h'.launches.trans h.launches

theorem Performed.refl (s : State) : Performed s s := ⟨.refl s, rfl⟩

theorem Performed.trans {s t u : State} (h : Performed s t) (h' : Performed t u) : Performed s u :=
  ⟨h.toAnswered.trans h'.toAnswered, h'.homeQ.trans h.homeQ⟩

theorem Answered.foldl {α : Type} {f : State → α → State} (hf : ∀ s a, Answered s (f s a)) (l : List α) (s : State) :
    Answered s (l.foldl f s) := by
  induction l generalizing s with
  | nil => exact .refl s
  | cons a l ih => exact (hf s a).trans (ih _)

theorem Performed.foldl {α : Type} {f : State → α → State} (hf : ∀ s a, Performed s (f s a)) (l : List α) (s : State) :
    Performed s (l.foldl f s) := by
  induction l generalizing s with
  | nil => exact .refl s
  | cons a l ih => exact (hf s a).trans (ih _)

theorem performed_event (s : State) (ty die : Nat) (ps : List Nat) : Performed s (s.event ty die ps) := by
  obtain ⟨m, w, d, r, v, h⟩ := event_eq s ty die ps
  rw [h]
  exact ⟨⟨rfl, rfl, rfl⟩, rfl⟩

theorem performed_touch (s : State) (ks : List Key) : Performed s (s.touch ks) := by
  unfold State.touch
  split
  · exact .refl s
  · exact ⟨⟨rfl, rfl, rfl⟩, rfl⟩

theorem performed_store (s : State) (kbs : List (Key × Byte)) : Performed s (s.store kbs) := by
  have hput (t : State) (m : Memory) (p : List Nat) (w : List Monitor) : Performed t { t with mem := m, poison := p, monitors := w } :=
    ⟨⟨rfl, rfl, rfl⟩, rfl⟩
  refine Performed.trans ?_ (hput ..)
  refine Performed.trans ?_ (performed_touch ..)
  refine Performed.trans ?_ (.foldl (fun t w => performed_event ..) ..)
  split
  · exact .refl s
  · exact performed_event ..

theorem performed_reportWatch (s : State) (sid : BitVec 16) (w : Option TrapInfo) : Performed s (reportWatch s sid w) := by
  unfold reportWatch
  split
  · exact .refl s
  · refine ⟨⟨?_, rfl, rfl⟩, rfl⟩
    dsimp only [State.mapStreams]
    split <;> rfl

theorem performed_sweepRemaps (s : State) : Performed s (sweepRemaps s) := by
  unfold sweepRemaps
  split
  · exact .refl s
  · exact ⟨⟨rfl, rfl, rfl⟩, rfl⟩

theorem performed_performMsg (s : State) (m : AccMsg) : Performed s (performMsg s m) := by
  have hsh (t : State) (l : List Shelf) : Performed t { t with shelves := l } := ⟨⟨rfl, rfl, rfl⟩, rfl⟩
  unfold performMsg
  dsimp only
  refine Performed.trans ?_ (performed_sweepRemaps _)
  split
  · exact performed_event ..
  · exact ((performed_store ..).trans (hsh ..)).trans (performed_reportWatch ..)

theorem answered_answerMsg (s : State) (m : AccMsg) : Answered s (answerMsg s m).1 := by
  unfold answerMsg
  dsimp only
  split
  · exact (performed_performMsg ..).toAnswered
  · split <;> split <;> exact ⟨rfl, rfl, rfl⟩

theorem answered_drainQueues (s : State) (p : AccMsg → Bool) : Answered s (drainQueues s p) :=
  Answered.trans (t := { s with homeQ := s.homeQ.filter (fun m => !p m) }) ⟨rfl, rfl, rfl⟩
    (Performed.foldl performed_performMsg ..).toAnswered

theorem answered_foldMsg (s : State) (m : AccMsg) : Answered s (foldMsg s m) := by
  have hres (t : State) (l : List Residual) : Answered t { t with residuals := l } := ⟨rfl, rfl, rfl⟩
  unfold foldMsg
  split
  · exact hres ..
  · dsimp only
    refine Answered.trans ?_ (hres ..)
    split
    · exact .refl s
    · split
      · exact (hres ..).trans (performed_performMsg ..).toAnswered
      · exact .refl s

theorem answered_takeAnswer (s : State) (m : AccMsg) (ok : Bool) : Answered s (takeAnswer s m ok) := by
  cases ok
  · exact answered_foldMsg ..
  · exact .refl s

theorem answered_settleMsg (s : State) (m : AccMsg) : Answered s (settleMsg s m) := by
  unfold settleMsg
  split
  · exact answered_takeAnswer ..
  · exact ((answered_answerMsg ..).trans (answered_drainQueues ..)).trans (answered_takeAnswer ..)

/-- Settled messages are gone from the way and from the homes' queues. -/
theorem settleMsgs_spec (s : State) (p : AccMsg → Bool) :
    let t := settleMsgs s p
    t.front = { s.front with pwatch := t.front.pwatch } ∧ t.launches = s.launches ∧ ∀ m ∈ t.msgs ++ t.homeQ, p m = false := by
  have ha : Answered { s with msgs := s.msgs.filter (fun m => !p m) } (settleMsgs s p) :=
    (Answered.foldl answered_settleMsg ..).trans (answered_drainQueues ..)
  refine ⟨ha.front, ha.launches, fun m hm => ?_⟩
  have hq := (Performed.foldl performed_performMsg ((((s.msgs.filter p).foldl settleMsg { s with msgs := s.msgs.filter (fun m => !p m) })).homeQ.filter p)
    { ((s.msgs.filter p).foldl settleMsg { s with msgs := s.msgs.filter (fun m => !p m) }) with
      homeQ := ((s.msgs.filter p).foldl settleMsg { s with msgs := s.msgs.filter (fun m => !p m) }).homeQ.filter (fun m => !p m) }).homeQ
  rcases List.mem_append.1 hm with hm | hm
  · rw [ha.msgs] at hm
    simpa using (List.mem_filter.1 hm).2
  · rw [settleMsgs, drainQueues, hq] at hm
    simpa using (List.mem_filter.1 hm).2

/-- Residuals delivered to every home leave no message of the stream (R341). -/
theorem deliverResiduals_all_spec (s : State) :
    let t := deliverResiduals s (fun _ => true)
    t.front = { s.front with pwatch := t.front.pwatch } ∧ t.launches = s.launches ∧ ∀ m ∈ t.msgs ++ t.homeQ, m.sid ≠ s.front.sid := by
  obtain ⟨hf, hl, hm⟩ := settleMsgs_spec s (fun m => m.sid == s.front.sid && true)
  have hp : Performed _ (deliverResiduals s (fun _ => true)) := Performed.foldl (fun u (x : Residual) => performed_performMsg u x.msg) _ _
  refine ⟨?_, hp.launches.trans hl, ?_⟩
  · dsimp only
    rw [hp.front]
    dsimp only
    rw [hf]
  · rw [hp.msgs, hp.homeQ]
    simpa using hm

/-- With no message on its way, delivery performs each residual of the stream once. -/
theorem deliverResiduals_all_eq {s : State} (hm : s.msgs = []) (hq : s.homeQ = []) : deliverResiduals s (fun _ => true) =
    (s.residuals.filter (fun x => x.sid == s.front.sid)).reverse.foldl (fun u x => performMsg u x.msg)
      { s with residuals := s.residuals.filter (fun x => x.sid != s.front.sid) } := by
  rw [deliverResiduals, settleMsgs_none s _ (by simp [hm]) (by simp [hq])]
  simp only [Bool.and_true]
  rfl

/-! ### halt (R157) -/

theorem exec_halt_waits {s : State} (h : allDone s = false) : exec .halt s = .next s :=
  frontM_wait (by rw [exec_bind_ok (exec_get s), exec_bind, exec_waitFor, h]; rfl)

theorem exec_halt_done {s : State} (h : allDone s = true) (hd : s.front.decls = []) (hg : myGroups s.front = []) :
    exec .halt s = .next (retireFront (deliverResiduals s (fun _ => true))) := by
  have hs : { s with front := { s.front with decls := [] } } = s := by rw [← hd]
  refine frontM_ok ?_
  rw [exec_bind_ok (exec_get s), exec_bind, exec_waitFor, h, if_pos rfl]
  dsimp only
  rw [hd, hg]
  rw [mergeAll, exec_bind_ok (exec_pure ..), exec_bind_ok (exec_modify ..), leaveAll, exec_bind_ok (exec_pure ..), exec_modify, hs]

/-- Settles O14: residuals are delivered, then `retired_spec`. -/
theorem haltRetiresStream : Obligations.HaltRetiresStream := by
  unfold Obligations.HaltRetiresStream
  intro s
  refine ⟨exec_halt_waits, fun h hd hg => ⟨_, exec_halt_done h hd hg, ?_⟩⟩
  obtain ⟨hf, hl, hmq⟩ := deliverResiduals_all_spec s
  have hgrps : myGroups (deliverResiduals s (fun _ => true)).front = [] := by rw [hf]; exact hg
  have hsid : (deliverResiduals s (fun _ => true)).front.sid = s.front.sid := by rw [hf]
  rw [retireFront_of_no_groups hgrps]
  obtain ⟨hidle, -, -, hmsgs, hhq, hw, hmon, hmig, hsh, hsl, hres⟩ := retired_spec (deliverResiduals s (fun _ => true))
  rw [hsid] at hw hmon hmig hsh hsl hres
  refine ⟨hidle, hw, hmon, hmig, ?_, hsh, hsl, hres, fun h0 hq0 hlog hla => ?_⟩
  · rw [hmsgs, hhq]
    exact hmq
  · rw [retired_mem, deliverResiduals_all_eq h0 hq0]
    · rw [hf]
      exact hlog
    · rw [hl, hf]
      exact hla

end Sys2Proof.Proofs
end

section
/-! The end of a stream that has no handler (R114, R122, R389). -/

namespace Sys2Proof.Proofs

open Sys2Proof Sys2Proof.Machine Sys2Proof.Safety Sys2Proof.Laws

/-! ### A stop of a stream with no work under way (R385) -/

/-- What a stop leaves of the stream whose turn it is, and of the module, where there is nothing to settle. -/
structure Stands (s t : State) : Prop where
  sid : t.front.sid = s.front.sid
  grps : t.front.grps = s.front.grps
  logMode : t.front.logMode = s.front.logMode
  tvec : t.front.csr.tvec = s.front.csr.tvec
  epoch : t.epoch = s.epoch
  regs : t.regs = s.regs

theorem Stands.trans {s t u : State} (h : Stands s t) (h' : Stands t u) : Stands s u :=
  ⟨h'.sid.trans h.sid, h'.grps.trans h.grps, h'.logMode.trans h.logMode, h'.tvec.trans h.tvec, h'.epoch.trans h.epoch,
    h'.regs.trans h.regs⟩

/-- A stream with no broadcast, access or command under way, up to its horizon. -/
structure AtRest (s : State) : Prop where
  bcasts : s.front.bcasts = []
  accesses : s.front.accesses = []
  cmds : s.front.cmds = []

theorem sweepRemaps_eq (s : State) : ∃ k, sweepRemaps s = { s with stk := k } := by
  unfold sweepRemaps
  split
  · exact ⟨s.stk, rfl⟩
  · exact ⟨_, rfl⟩

theorem front_accesses_nil {s : State} (h : s.front.accesses = []) : { s with front := { s.front with accesses := [] } } = s := by rw [← h]

theorem performWhere_of_none {s : State} (h : s.front.accesses = []) (p : Access → Bool) : performWhere p s = sweepRemaps s := by
  rw [performWhere, h, List.foldl_nil]
  exact congrArg sweepRemaps (front_accesses_nil h)

theorem settleAccesses_of_none {s : State} (h : s.front.accesses = []) : settleAccesses s = sweepRemaps s := by
  have ha : (sweepRemaps s).front.accesses = [] := by
    obtain ⟨k, hk⟩ := sweepRemaps_eq s
    rw [hk]
    exact h
  unfold settleAccesses
  rw [performWhere_of_none h]
  generalize sweepRemaps s = a at ha
  simp only [ha, List.foldl_nil, List.filter_nil, List.map_nil]
  exact front_accesses_nil ha

theorem settleCmds_of_none {s : State} (h : s.front.cmds = []) (p : Cmd → Bool) : settleCmds p s = s := by
  rw [settleCmds, h]
  rfl

theorem rewriteAbove_of_none {s : State} (h : s.front.accesses = []) (k : Nat) : rewriteAbove s k = s := by
  rw [rewriteAbove, h]
  rfl

theorem front_cmds_nil {s : State} (h : s.front.cmds = []) : { s with front := { s.front with cmds := [] } } = s := by rw [← h]

theorem cancelAbove_of_none {s : State} (h : s.front.cmds = []) (n : Nat) : cancelAbove s n = s := by
  rw [cancelAbove, h, List.map_nil]
  exact front_cmds_nil h

/-- A stop that is recorded with nothing under way leaves the stream where it stands. -/
theorem stands_recordStop {s : State} (h : AtRest s) (n first : Nat) : Stands s (recordStop s n first) := by
  have hsame (t : State) : Stands (rewriteAbove (rollback (settleCmds (fun c => n < c.stamp) (cancelAbove t n)) (n + 1)) (n + 1))
      (recordStop t n first) := by
    unfold recordStop
    dsimp only
    generalize rewriteAbove _ _ = x
    exact ⟨rfl, rfl, rfl, rfl, rfl, rfl⟩
  have hroll : Stands s (rollback s (n + 1)) := ⟨rfl, rfl, rfl, rfl, rfl, rfl⟩
  have hs := hsame s
  rw [cancelAbove_of_none h.cmds, settleCmds_of_none h.cmds, rewriteAbove_of_none (s := rollback s (n + 1)) h.accesses] at hs
  exact hroll.trans hs

theorem stands_traced (s : State) (ty n w2 w3 : Nat) : Stands s (s.traced ty n w2 w3) := by
  obtain ⟨d, q, h⟩ := traced_eq s ty n w2 w3
  rw [h]
  exact ⟨rfl, rfl, rfl, rfl, rfl, rfl⟩

/-- With nothing under way the stop is recorded at once, and its cause stands. -/
theorem recordSettled_atRest {s : State} (h : AtRest s) (hl : s.front.late = none) (t : TrapInfo) (tpc : Word) :
    ∃ u, recordSettled s t tpc = .stopped u t tpc ∧ Stands s u := by
  obtain ⟨k, hk⟩ := sweepRemaps_eq s
  obtain ⟨a, ha, hra, hsa, hla⟩ : ∃ a, settleAccesses s = a ∧ AtRest a ∧ Stands s a ∧ a.front.late = none :=
    ⟨_, (settleAccesses_of_none h.accesses).trans hk, ⟨h.bcasts, h.accesses, h.cmds⟩, ⟨rfl, rfl, rfl, rfl, rfl, rfl⟩, hl⟩
  have hdone : (!allPerformed (fun _ => true) a || relsOut a.front != 0) = false := by
    rw [allPerformed, relsOut, hra.accesses]
    rfl
  have hcmds (p : Cmd → Bool) : a.front.cmds.any p = false := by rw [hra.cmds]; rfl
  unfold recordSettled
  rw [ha]
  dsimp only
  rw [hdone, if_neg Bool.false_ne_true, settleCmds_of_none hra.cmds, hcmds, if_neg Bool.false_ne_true, hla]
  refine ⟨_, rfl, hsa.trans ?_⟩
  refine Stands.trans (t := { a with front := { a.front with late := none, strayed := false } }) ⟨rfl, rfl, rfl, rfl, rfl, rfl⟩ ?_
  exact (stands_recordStop (by exact ⟨hra.bcasts, hra.accesses, hra.cmds⟩) ..).trans (stands_traced ..)

/-- A still stream's waits are withdrawn, and it is at rest. -/
theorem stands_withdrawWaits {s : State} (h : Still s) :
    AtRest (withdrawWaits s) ∧ (withdrawWaits s).front.late = none ∧ Stands s (withdrawWaits s) := by
  obtain ⟨hb, ha, hc, -, -, hm, hq, hl⟩ := h
  have hset : settleMsgs s (fun m => m.sid == s.front.sid) = s := settleMsgs_none s _ (by simpa using hm) (by simpa using hq)
  have hacc : (withdrawWaits s).front.accesses =
      (settleMsgs s (fun m => m.sid == s.front.sid)).front.accesses.filter (fun a => !(keyCls a.key == .hm && a.kind != .store)) := rfl
  have hst : Stands (settleMsgs s (fun m => m.sid == s.front.sid)) (withdrawWaits s) := ⟨rfl, rfl, rfl, rfl, rfl, rfl⟩
  have hbc : (withdrawWaits s).front.bcasts = (settleMsgs s (fun m => m.sid == s.front.sid)).front.bcasts := rfl
  have hcm : (withdrawWaits s).front.cmds = (settleMsgs s (fun m => m.sid == s.front.sid)).front.cmds := rfl
  have hla : (withdrawWaits s).front.late = (settleMsgs s (fun m => m.sid == s.front.sid)).front.late := rfl
  rw [hset] at hacc hst hbc hcm hla
  exact ⟨⟨hbc.trans hb, by rw [hacc, ha]; rfl, hcm.trans hc⟩, hla.trans hl, hst⟩

theorem settleStop_still {s : State} (h : Still s) (t : TrapInfo) (tpc : Word) :
    ∃ u, settleStop s t tpc = .stopped u t tpc ∧ Stands s u := by
  obtain ⟨hr, hl, hs⟩ := stands_withdrawWaits h
  obtain ⟨u, hu, hsu⟩ := recordSettled_atRest hr hl t tpc
  refine ⟨u, ?_, hs.trans hsu⟩
  rw [← hu]
  have hbranch : withdrawBranch (withdrawWaits s) tpc = (withdrawWaits s, tpc) := by rw [withdrawBranch, hr.bcasts]; rfl
  unfold settleStop
  rw [hbranch]
  dsimp only
  rw [hr.bcasts, settleTo]
  dsimp only
  rw [hr.bcasts, List.length_nil, completeNext]

/-! ### The event record of its end (R444) -/

theorem event_epoch (s : State) (ty die : Nat) (ps : List Nat) : (s.event ty die ps).epoch = s.epoch := by
  obtain ⟨m, w, d, r, v, h⟩ := event_eq s ty die ps
  rw [h]

/-- Where the event ring is off the record is counted lost. -/
theorem event_off {s : State} (h : s.regs.evEn = false) (ty die : Nat) (ps : List Nat) : s.event ty die ps =
    { s with regs := { s.regs with evLost := if s.regs.evLost = 0xFFFF then 0xFFFF else s.regs.evLost + 1 } } := by
  unfold State.event
  dsimp only
  rw [h, Bool.false_and, if_neg (by decide)]
  split
  · rename_i he
    rw [he]
  · rfl

/-- Settles O38: a still stream's stop is delivered as its end, an event and a retirement. -/
theorem streamWithoutHandlerEnds : Obligations.StreamWithoutHandlerEnds := by
  unfold Obligations.StreamWithoutHandlerEnds
  intro s ti tpc _ hstill htv hg _ t
  obtain ⟨u, hu, hs⟩ := settleStop_still hstill ti tpc
  let e : State := u.event 10 (dieOf u.front) [u.front.sid.toNat + at_ 16 ti.cause.toNat, tpc.toNat, u.front.csr.floor.toNat, ti.elem, ti.addr.toNat]
  have hef : e.front = u.front := event_front ..
  have hgrps : myGroups e.front = [] := by rw [hef, myGroups, hs.grps]; exact hg
  have ht : t = retired e := by
    show deliverStop (settleStop s ti tpc) = _
    rw [hu, deliverStop, deliver_ends (hs.tvec.trans htv)]
    exact retireFront_of_no_groups hgrps
  obtain ⟨hidle, hep, hregs, -, -, hw, -, -, hsh, hsl, hres⟩ := retired_spec e
  rw [hef, hs.sid] at hw hsh hsl hres
  rw [ht]
  refine ⟨hidle, ?_, hsh, hres, hw, hsl, fun hev => ?_⟩
  · rw [hep, event_epoch, hs.epoch]
  · have hoff : e = _ := event_off (by rw [hs.regs]; exact hev) ..
    rw [hregs, hoff, ← hs.regs]

end Sys2Proof.Proofs
end

section
/-! What the log's writer and the replay engine write (R363 to R368). -/

namespace Sys2Proof.Proofs

open Sys2Proof Sys2Proof.Machine Sys2Proof.Safety Sys2Proof.Laws

/-- Writes of numbers and signals, and the contexts' own records. -/
def LogWritten (s t : State) : Prop := ∃ l, Written { s with logs := l } t

theorem Written.logWritten {s t : State} (h : Written s t) : LogWritten s t := ⟨s.logs, h⟩

theorem LogWritten.trans {s t u : State} (h : LogWritten s t) (h' : LogWritten t u) : LogWritten s u := by
  obtain ⟨l, h⟩ := h
  obtain ⟨l', h'⟩ := h'
  exact ⟨l', (h.setLogs l').trans h'⟩

theorem LogWritten.foldl {α : Type} {f : State → α → State} (hf : ∀ s a, LogWritten s (f s a)) (l : List α) (s : State) :
    LogWritten s (l.foldl f s) := by
  induction l generalizing s with
  | nil => exact (Written.refl s).logWritten
  | cons a l ih => exact (hf s a).trans (ih _)

theorem LogWritten.front {s t : State} (h : LogWritten s t) : t.front = s.front := by
  obtain ⟨l, h⟩ := h
  rw [h.rest]

theorem LogWritten.groups {s t : State} (h : LogWritten s t) : t.groups = s.groups := by
  obtain ⟨l, h⟩ := h
  rw [h.rest]

theorem logWritten_setLog (s : State) (c : LogCtx) : LogWritten s (s.setLog c) := ⟨_, .refl _⟩

theorem written_logSignal (s : State) (c : LogCtx) : Written s (s.logSignal c) := by
  unfold State.logSignal
  split
  · exact written_signal ..
  · exact .refl s

theorem written_ringPut (s : State) (c : LogCtx) (r : LogRec) : Written s (ringPut s c r).1 := by
  have hwords (a : Key) (l : List (Nat × Nat)) : Written s (l.foldl (fun (s : State) w => s.putNum (a + 8 * w.2) 8 w.1) s) :=
    .foldl (fun t w => written_putNum ..) ..
  unfold ringPut
  dsimp only
  split
  · split
    · exact ((hwords ..).trans (written_putNum ..)).trans (written_putStat ..)
    · exact (hwords ..).trans (written_putStat ..)
  · split
    · exact (hwords ..).trans (written_putNum ..)
    · exact hwords ..

theorem written_openGap (s : State) (c : LogCtx) (r : LogRec) : Written s (openGap s c r).1 := by
  unfold openGap
  dsimp only
  exact ((written_ringPut ..).trans (written_putStat ..)).trans (written_logSignal ..)

theorem written_giveIndex (s : State) (c : LogCtx) (r : LogRec) : Written s (giveIndex s c r).1 := by
  unfold giveIndex
  split
  · exact .refl s
  · generalize (if c.full then readTail s c else c) = d
    dsimp only
    split
    · exact written_ringPut ..
    · split
      · exact written_openGap ..
      · exact .refl s

theorem written_holdRec (s : State) (c : LogCtx) (r : LogRec) : Written s (holdRec s c r).1 := by
  unfold holdRec
  dsimp only
  split
  · exact .refl s
  · exact ((written_putNum ..).trans (written_putStat ..)).trans (written_logSignal ..)

theorem written_writerTake (s : State) (c : LogCtx) (r : LogRec) : Written s (writerTake s c r).1 := by
  have hg := written_giveIndex s c r
  unfold writerTake
  dsimp only
  split
  · exact written_holdRec ..
  · split
    · rename_i he
      rw [he] at hg
      exact hg
    · rename_i he
      rw [he] at hg
      exact hg.trans (written_holdRec ..)

/-- Recording an operation changes memory as the writer does, and the context. -/
theorem logWritten_recordIn (s : State) (id : BitVec 16) (r : LogRec) : LogWritten s (recordIn s id r) := by
  unfold recordIn
  split
  · dsimp only
    split
    · exact (Written.refl s).logWritten
    · exact (written_writerTake ..).logWritten.trans (logWritten_setLog ..)
  · exact (Written.refl s).logWritten

theorem written_advanceTail (n : Nat) (s : State) (c : LogCtx) : Written s (advanceTail n s c).1 := by
  induction n generalizing s c with
  | zero => exact .refl s
  | succ n ih =>
    unfold advanceTail
    dsimp only
    split
    · refine Written.trans ?_ (ih ..)
      split
      · exact written_putNum ..
      · exact .refl s
    · exact .refl s

theorem written_consume (s : State) (c : LogCtx) (i : Word) : Written s (consume s c i).1 := written_advanceTail ..

theorem logWritten_takeEpisodeRec (r : Group) (s : State) (c : LogCtx) : LogWritten s (takeEpisodeRec r s c) := by
  unfold takeEpisodeRec
  split
  · exact (written_consume ..).logWritten.trans (logWritten_setLog ..)
  · exact logWritten_recordIn ..

/-! ### A stream in no log -/

theorem myLog_of_unlogged {s : State} (h : s.front.logMode = 0) : s.myLog = none := if_pos h

/-- Nothing is imposed on a stream in no log (R368). -/
theorem exec_nextRecord_unlogged {s : State} (h : s.front.logMode = 0) (obj elem : Nat) : M.exec (nextRecord obj elem) s = (.ok none, s) := by
  rw [nextRecord, exec_bind_ok (exec_get s), myLog_of_unlogged h]
  rfl

theorem exec_admitOp_unlogged {s : State} (h : s.front.logMode = 0) (ty sub obj : Nat) (fits : LogRec → Bool) (val : Option Nat) (elem : Nat)
    (hold paired : LogRec → Bool) : M.exec (admitOp ty sub obj fits val elem hold paired) s = (.ok none, s) := by
  rw [admitOp, exec_bind_ok (exec_nextRecord_unlogged h ..)]
  rfl

theorem exec_admitEpisode_unlogged {s : State} (h : s.front.logMode = 0) (obj e n : Nat) : M.exec (admitEpisode obj e n) s = (.ok (), s) := by
  rw [admitEpisode, exec_bind_ok (exec_nextRecord_unlogged h ..)]
  rfl

theorem record_unlogged {s : State} (h : s.front.logMode = 0) (ty sub obj a b : Nat) : record s ty sub obj a b = s :=
  if_neg (by rw [h]; decide)

theorem exec_admitLeave_unlogged {s : State} (h : s.front.logMode = 0) (g : BitVec 10) : M.exec (admitLeave g) s = (.ok (), s) := by
  have hin {m : M Unit} (hm : M.exec m s = (.ok (), s)) : M.exec (wholeOrNothing m) s = (.ok (), s) := by
    rw [wholeOrNothing, exec_bind_ok (exec_get s), hm]
    rfl
  refine hin ?_
  rw [exec_bind_ok (exec_get s)]
  dsimp only
  rw [exec_bind_ok (exec_admitOp_unlogged h ..)]
  split
  · exact exec_admitEpisode_unlogged h ..
  · rfl

end Sys2Proof.Proofs
end

section
/-! Groups: joining, leaving, and the barrier (R124 to R127). -/

namespace Sys2Proof.Proofs

open Sys2Proof Sys2Proof.Machine Sys2Proof.Safety Sys2Proof.Laws

/-! ### A group's slot -/

theorem id_group (s : State) (g : BitVec 10) : (s.group g).id = g := by
  unfold State.group
  cases h : s.groups.find? (fun r => r.id == g) with
  | none => rfl
  | some r => simpa using List.find?_some h

theorem group_congr {s t : State} (h : t.groups = s.groups) (g : BitVec 10) : t.group g = s.group g := by
  rw [State.group, h]
  rfl

/-- A slot as it is stored: with no members and nothing to hand out it is empty again, but for its clock record (R124). -/
def stored (r : Group) : Group :=
  if r.counted.isEmpty && r.pending.isEmpty && r.released.isEmpty then { Group.empty r.id with clock := r.clock } else r

theorem group_setGroup (s : State) (r : Group) : (s.setGroup r).group r.id = stored r := by
  have hnone : (s.groups.filter (fun q => q.id != r.id)).find? (fun q => q.id == r.id) = none :=
    List.find?_eq_none.2 fun q hq => by simpa using (List.mem_filter.1 hq).2
  have hid : (stored r).id = r.id := by
    unfold stored
    split <;> rfl
  have hg : (s.setGroup r).groups = if stored r = Group.empty (stored r).id then s.groups.filter (fun q => q.id != r.id)
      else stored r :: s.groups.filter (fun q => q.id != r.id) := rfl
  rw [State.group, hg, hid]
  split
  · rename_i he
    rw [hnone, he]
    rfl
  · rw [List.find?_cons_of_pos (by simpa using hid)]
    rfl

theorem stored_of_ne {r : Group} (h : r.counted ≠ [] ∨ r.pending ≠ [] ∨ r.released ≠ []) : stored r = r := by
  refine if_neg fun he => ?_
  simp only [Bool.and_eq_true, List.isEmpty_iff] at he
  tauto

theorem counted_stored (r : Group) : (stored r).counted = r.counted := by
  unfold stored
  split
  · rename_i h
    simp only [Bool.and_eq_true, List.isEmpty_iff] at h
    exact h.1.1.symm
  · rfl

theorem pending_stored (r : Group) : (stored r).pending = r.pending := by
  unfold stored
  split
  · rename_i h
    simp only [Bool.and_eq_true, List.isEmpty_iff] at h
    exact h.1.2.symm
  · rfl

theorem released_stored (r : Group) : (stored r).released = r.released := by
  unfold stored
  split
  · rename_i h
    simp only [Bool.and_eq_true, List.isEmpty_iff] at h
    exact h.2.symm
  · rfl

/-! ### The episode's end (R124) -/

/-- The group after its open episode has completed. -/
def completed (r : Group) : Group :=
  { r with released := r.released ++ r.arrived.map (fun x => (x, r.episode)), arrived := [],
           counted := r.counted ++ r.pending, pending := [], episode := r.episode + 1 }

/-- The stream as its group's episode completes: pending bits clear, and an arrival acquires the clock record. -/
def freed (r : Group) (f : Front) : Front :=
  let f : Front := if r.pending.contains f.sid then
    f.mapGrps (fun x => if slotValid x && slotGroup x == r.id then grpSlot false r.id else x) else f
  if f.status != .idle && r.arrived.contains f.sid then f.acquire r.clock else f

/-- An episode stays open, or completes. -/
theorem completeEpisode_cases (s : State) (r : Group) :
    completeEpisode s r = s.setGroup r ∨
    (r.met = true ∧ ∃ u, LogWritten s u ∧ completeEpisode s r = (u.mapStreams (freed r)).setGroup (completed r)) := by
  unfold completeEpisode
  split
  · rename_i h
    refine .inr ⟨(Bool.and_eq_true_iff.1 h).1, (episodeCtxs s r).foldl (takeEpisodeRec r) s, .foldl (logWritten_takeEpisodeRec r) .., ?_⟩
    unfold State.settlePending State.mapStreams
    dsimp only
    rw [List.map_map]
    rfl
  · exact .inl rfl

/-- With no stream of a log among the arrivals the episode completes as soon as all have arrived. -/
theorem completeEpisode_unlogged {s : State} {r : Group} (hl : ∀ f ∈ s.streams, f.logMode = 0) :
    completeEpisode s r = if r.met then (s.mapStreams (freed r)).setGroup (completed r) else s.setGroup r := by
  have hnone : s.streams.filter (fun f => f.logMode != 0 && r.arrived.contains f.sid) = [] :=
    List.filter_eq_nil_iff.2 fun f hf => by simp [hl f hf]
  have hctx : episodeCtxs s r = [] := by rw [episodeCtxs, hnone]; rfl
  unfold completeEpisode
  rw [hctx, List.all_nil, Bool.and_true]
  split
  · unfold State.settlePending State.mapStreams
    dsimp only [List.foldl_nil]
    rw [List.map_map]
    rfl
  · rfl

end Sys2Proof.Proofs
end

section
/-! gjoin, gleave and gbar (R124 to R127). -/

namespace Sys2Proof.Proofs

open Sys2Proof Sys2Proof.Machine Sys2Proof.Safety Sys2Proof.Laws

/-! ### The group a register names (R126) -/

section
variable {sa : SReg} {imm : BitVec 31} {s : State}

theorem exec_groupNum (h : (s.rd sa + imm.signExtend 64).toNat < 1024) :
    M.exec (groupNum sa imm) s = (.ok (BitVec.ofNat 10 (s.rd sa + imm.signExtend 64).toNat), s) := by
  rw [groupNum, exec_bind_ok (exec_get s)]
  dsimp only
  rw [exec_bind, exec_need, decide_eq_true h]
  rfl

theorem exec_groupNum_beyond (h : 1024 ≤ (s.rd sa + imm.signExtend 64).toNat) :
    M.exec (groupNum sa imm) s = (.error (.trap (operandTrap 1)), s) := by
  rw [groupNum, exec_bind_ok (exec_get s)]
  dsimp only
  rw [exec_bind, exec_need, decide_eq_false (Nat.not_lt.2 h)]
  rfl

end

/-- The size of the group as SD takes it. -/
def sized (sd : SReg) (g : BitVec 10) (s : State) : State := (s.wr sd (BitVec.ofNat 64 (s.group g).size)).done

theorem exec_groupSize (sd : SReg) (g : BitVec 10) (s : State) : M.exec (groupSize sd g) s = (.ok (), sized sd g s) := rfl

/-- A register and the next pc leave the groups, memory and the stream's slots. -/
theorem done_wr_spec (s : State) (r : SReg) (v : Word) :
    let t := (s.wr r v).done
    t.rd r = (if r = 0 then 0 else v) ∧ t.groups = s.groups ∧ t.mem = s.mem ∧ t.front.grps = s.front.grps ∧ t.front.sid = s.front.sid ∧
      t.front.pc = s.front.pc + 8 := by
  dsimp only [State.done]
  refine ⟨?_, ?_, ?_, ?_, ?_, ?_⟩
  · rw [rd_goto, rd_wr]
    by_cases h : r = 0
    · rw [if_pos h, State.rd, if_pos h, if_neg (fun hc => hc.2 h)]
    · rw [if_neg h, if_pos ⟨rfl, h⟩]
  all_goals
    unfold State.wr
    split <;> rfl

/-! ### gjoin -/

section
variable {sd sa : SReg} {imm : BitVec 31} {s : State}

theorem exec_gjoin (h : (s.rd sa + imm.signExtend 64).toNat < 1024) (hl : s.front.logMode = 0) :
    let g := BitVec.ofNat 10 (s.rd sa + imm.signExtend 64).toNat
    exec (.gjoin sd sa imm) s = .next (
      if (s.group g).member s.front.sid then sized sd g s
      else if hasSlot s.front && (s.group g).size < 256 then sized sd g (joinGroup s g)
      else stopTrap s (operandTrap 2) s.front.pc) := by
  intro g
  show frontM (gjoinM sd sa imm) s = _
  unfold gjoinM frontM
  rw [exec_bind_ok (exec_groupNum h), exec_bind_ok (exec_get s)]
  by_cases hm : (s.group g).member s.front.sid = true
  · rw [if_pos hm, if_pos hm, exec_groupSize]
  · rw [if_neg hm, if_neg hm]
    by_cases hs : (hasSlot s.front && decide ((s.group g).size < 256)) = true
    · rw [if_pos hs, exec_bind, exec_need, if_pos hs]
      dsimp only
      rw [exec_bind_ok (exec_admitOp_unlogged hl ..), exec_bind_ok (exec_modify ..), exec_groupSize]
    · rw [if_neg hs, exec_bind, exec_need, if_neg hs]
      rfl

/-- A stream with a free slot has a first one. -/
theorem find_free_slot {f : Front} (h : hasSlot f = true) :
    ∃ i < 4, (List.range 4).find? (fun i => !slotValid (f.grps.get (Fin.ofNat 4 i))) = some i := by
  obtain ⟨x, hx, hv⟩ := List.any_eq_true.1 h
  obtain ⟨i, hi, rfl⟩ := List.getElem_of_mem hx
  have hi4 : i < 4 := by simpa using hi
  have hsome : ((List.range 4).find? (fun i => !slotValid (f.grps.get (Fin.ofNat 4 i)))).isSome = true := by
    refine List.find?_isSome.2 ⟨i, List.mem_range.2 hi4, ?_⟩
    have hget : f.grps.get (Fin.ofNat 4 i) = f.grps.toList[i] := by
      rw [Vector.get_eq_getElem]
      simp [Nat.mod_eq_of_lt hi4]
    rw [hget]
    exact hv
  obtain ⟨j, hj⟩ := Option.isSome_iff_exists.1 hsome
  exact ⟨j, List.mem_range.1 (List.mem_of_find?_eq_some hj), hj⟩

theorem mem_toList_set {α : Type} {n : Nat} (v : Vector α n) (i : Nat) (x : α) (h : i < n) : x ∈ (v.set i x h).toList := by
  refine List.mem_of_getElem (i := i) (h := by simpa using h) ?_
  simp

/-- A group with a stream that joins it: counted, or pending while an arrival of the open episode is held (R124). -/
def withJoiner (r : Group) (sid : BitVec 16) : Group :=
  if !r.arrived.isEmpty then { r with pending := r.pending ++ [sid] } else { r with counted := r.counted ++ [sid] }

theorem id_withJoiner (r : Group) (sid : BitVec 16) : (withJoiner r sid).id = r.id := by
  unfold withJoiner
  split <;> rfl

theorem stored_withJoiner (r : Group) (sid : BitVec 16) : stored (withJoiner r sid) = withJoiner r sid := by
  refine stored_of_ne ?_
  unfold withJoiner
  split
  · exact .inr (.inl (by simp))
  · exact .inl (by simp)

theorem withJoiner_spec (r : Group) (sid : BitVec 16) :
    (withJoiner r sid).counted = r.counted ++ (if r.arrived = [] then [sid] else []) ∧
      (withJoiner r sid).pending = r.pending ++ (if r.arrived = [] then [] else [sid]) ∧ (withJoiner r sid).arrived = r.arrived ∧
      (withJoiner r sid).size = r.size + 1 := by
  unfold withJoiner Group.size
  cases h : r.arrived with
  | nil => simp; omega
  | cons x l => simp; omega

/-- Slot `i` of the stream takes a value. -/
def takeGrpSlot (s : State) (i : Nat) (x : BitVec 16) : State :=
  { s with front := { s.front with grps := s.front.grps.set (i % 4) x (Nat.mod_lt i (by decide)) } }

theorem joinGroup_eq_record (s : State) (g : BitVec 10) :
    joinGroup s g = record (((List.range 4).find? (fun i =>
          !slotValid ((s.setGroup (withJoiner (s.group g) s.front.sid)).front.grps.get (Fin.ofNat 4 i)))).elim
        (s.setGroup (withJoiner (s.group g) s.front.sid))
        (fun i => takeGrpSlot (s.setGroup (withJoiner (s.group g) s.front.sid)) i (grpSlot (!(s.group g).arrived.isEmpty) g)))
      4 (if !(s.group g).arrived.isEmpty then 1 else 0) (objGroup g.toNat) (s.group g).episode.toNat
      (membB (s.group g).arrived.length (withJoiner (s.group g) s.front.sid).size) := by
  change record (match (List.range 4).find? (fun i =>
          !slotValid ((s.setGroup (withJoiner (s.group g) s.front.sid)).front.grps.get (Fin.ofNat 4 i))) with
        | some i => takeGrpSlot (s.setGroup (withJoiner (s.group g) s.front.sid)) i (grpSlot (!(s.group g).arrived.isEmpty) g)
        | none => s.setGroup (withJoiner (s.group g) s.front.sid)) _ _ _ _ _ = _
  cases (List.range 4).find? (fun i =>
          !slotValid ((s.setGroup (withJoiner (s.group g) s.front.sid)).front.grps.get (Fin.ofNat 4 i))) <;> rfl

/-- A stream joins: a free slot names the group, and the group has it among its members. -/
theorem joinGroup_eq (hl : s.front.logMode = 0) (hs : hasSlot s.front = true) (g : BitVec 10) : ∃ i,
    joinGroup s g = takeGrpSlot (s.setGroup (withJoiner (s.group g) s.front.sid)) i (grpSlot ((s.group g).arrived != []) g) := by
  obtain ⟨i, hi, hk⟩ := find_free_slot hs
  have hpend : (!(s.group g).arrived.isEmpty) = ((s.group g).arrived != []) := by cases (s.group g).arrived <;> rfl
  have hl' : (takeGrpSlot (s.setGroup (withJoiner (s.group g) s.front.sid)) i (grpSlot ((s.group g).arrived != []) g)).front.logMode = 0 := hl
  have hfind : (List.range 4).find? (fun i =>
      !slotValid ((s.setGroup (withJoiner (s.group g) s.front.sid)).front.grps.get (Fin.ofNat 4 i))) = some i := hk
  refine ⟨i, ?_⟩
  rw [joinGroup_eq_record, hfind, hpend]
  exact record_unlogged hl' ..

theorem group_joinGroup (hl : s.front.logMode = 0) (hs : hasSlot s.front = true) (g : BitVec 10) :
    (joinGroup s g).group g = withJoiner (s.group g) s.front.sid := by
  obtain ⟨i, hi⟩ := joinGroup_eq hl hs g
  have hg := group_setGroup s (withJoiner (s.group g) s.front.sid)
  rw [stored_withJoiner, id_withJoiner, id_group] at hg
  rw [hi]
  exact hg

/-! ### gleave -/

theorem exec_gleave (h : (s.rd sa + imm.signExtend 64).toNat < 1024) (hl : s.front.logMode = 0) :
    let g := BitVec.ofNat 10 (s.rd sa + imm.signExtend 64).toNat
    exec (.gleave sd sa imm) s = .next (if (s.group g).member s.front.sid then sized sd g (leaveGroup s g) else sized sd g s) := by
  intro g
  show frontM (gleaveM sd sa imm) s = _
  unfold gleaveM frontM
  rw [exec_bind_ok (exec_groupNum h), exec_bind_ok (exec_get s)]
  by_cases hm : (s.group g).member s.front.sid = true
  · rw [if_pos hm, if_pos hm, exec_bind_ok (exec_admitLeave_unlogged hl g), exec_bind_ok (exec_modify ..), exec_groupSize]
  · rw [if_neg hm, if_neg hm, exec_groupSize]

end

/-- A group without a member, and without its arrival or the number it could take (R125, R127). -/
def withoutMember (r : Group) (sid : BitVec 16) : Group :=
  { r with arrived := r.arrived.filter (· != sid), released := r.released.filter (fun p => p.1 != sid)
           counted := r.counted.filter (· != sid), pending := r.pending.filter (· != sid) }

/-- The stream's slots without group `g`. -/
def clearSlots (f : Front) (g : BitVec 10) : Front := f.mapGrps (fun x => if slotValid x && slotGroup x == g then 0 else x)

theorem leaveGroup_eq {s : State} {g : BitVec 10} (hl : s.front.logMode = 0) (hm : (s.group g).member s.front.sid = true) :
    leaveGroup s g = completeEpisode { s with front := clearSlots s.front g } (withoutMember (s.group g) s.front.sid) := by
  have hl' : ({ s with front := clearSlots s.front g } : State).front.logMode = 0 := hl
  have hrec := record_unlogged hl' 4 2 (objGroup g.toNat) (s.group g).episode.toNat
    (membB (withoutMember (s.group g) s.front.sid).arrived.length (withoutMember (s.group g) s.front.sid).size)
  refine (if_pos hm).trans ?_
  exact congrArg (fun t => completeEpisode t (withoutMember (s.group g) s.front.sid)) hrec

theorem toList_mapGrps (f : Front) (h : BitVec 16 → BitVec 16) : (f.mapGrps h).grps.toList = f.grps.toList.map h := rfl

theorem not_in_clearSlots {f : Front} {g : BitVec 10} : ∀ x ∈ (clearSlots f g).grps.toList, slotValid x = true → slotGroup x ≠ g := by
  intro x hx hv hg
  rw [clearSlots, toList_mapGrps] at hx
  obtain ⟨y, -, rfl⟩ := List.mem_map.1 hx
  split at hv
  · cases hv
  · rename_i hn
    rw [if_neg hn] at hg
    exact hn (by simp [hv, hg])

/-- Clearing pending bits of a group that no slot names leaves the slots. -/
theorem grps_freed {r : Group} {f : Front} (h : ∀ x ∈ f.grps.toList, slotValid x = true → slotGroup x ≠ r.id) :
    (freed r f).grps = f.grps := by
  have hmap : (f.mapGrps (fun x => if slotValid x && slotGroup x == r.id then grpSlot false r.id else x)).grps = f.grps := by
    rw [← Vector.toList_inj, toList_mapGrps]
    refine (List.map_congr_left (g := id) fun x hx => if_neg fun hc => ?_).trans (List.map_id _)
    rw [Bool.and_eq_true, beq_iff_eq] at hc
    exact h x hx hc.1 hc.2
  have hacq (f : Front) (c : Bool) : (if c then f.acquire r.clock else f).grps = f.grps := by cases c <;> rfl
  refine (hacq _ _).trans ?_
  split
  · exact hmap
  · rfl

/-- What the end of an episode leaves of a stream. -/
theorem freed_spec (r : Group) (f : Front) : (freed r f).pc = f.pc ∧ (freed r f).sid = f.sid ∧ (freed r f).logMode = f.logMode := by
  unfold freed
  dsimp only
  split <;> split <;> exact ⟨rfl, rfl, rfl⟩

/-- Whether the episode completes or not, the group's members stay, counted or pending. -/
theorem completeEpisode_group (s : State) (r : Group) :
    let t := completeEpisode s r
    (t.group r.id).size = r.size ∧ (∀ sid, (t.group r.id).member sid = r.member sid) ∧ t.front.pc = s.front.pc ∧
      t.front.sid = s.front.sid ∧ ((∀ x ∈ s.front.grps.toList, slotValid x = true → slotGroup x ≠ r.id) → t.front.grps = s.front.grps) := by
  intro t
  rcases completeEpisode_cases s r with h | ⟨-, u, hu, h⟩
  · have hg := group_setGroup s r
    refine ⟨?_, fun sid => ?_, ?_⟩
    · rw [show t = _ from h, hg, Group.size, counted_stored, pending_stored]
      rfl
    · rw [show t = _ from h, hg, Group.member, counted_stored, pending_stored]
      rfl
    · rw [show t = _ from h]
      exact ⟨rfl, rfl, fun _ => rfl⟩
  · have hg := group_setGroup (u.mapStreams (freed r)) (completed r)
    rw [show (completed r).id = r.id from rfl] at hg
    refine ⟨?_, fun sid => ?_, ?_⟩
    · rw [show t = _ from h, hg, Group.size, counted_stored, pending_stored]
      simp [completed, Group.size]
    · rw [show t = _ from h, hg, Group.member, counted_stored, pending_stored]
      simp [completed, Group.member]
    · have hf : t.front = freed r s.front := by rw [show t = _ from h, ← hu.front]; rfl
      rw [hf]
      obtain ⟨hpc, hsid, -⟩ := freed_spec r s.front
      exact ⟨hpc, hsid, grps_freed⟩

/-! ### gbar -/

section
variable {sd sa : SReg} {sc : Scope} {imm : BitVec 31} {s : State}

theorem releasedAt_congr {s t : State} {g : BitVec 10} (hg : t.group g = s.group g) (hs : t.front.sid = s.front.sid) :
    releasedAt t g = releasedAt s g := by rw [releasedAt, releasedAt, hg, hs]

/-- The group once a stream has taken the number it was released with. -/
def taken (s : State) (g : BitVec 10) : Group :=
  { s.group g with released := (s.group g).released.filter (fun p => p.1 != s.front.sid) }

theorem exec_takeEpisode {e : Word} {g : BitVec 10} (hl : s.front.logMode = 0) (he : releasedAt s g = some e) :
    M.exec (takeEpisode sd g) s = (.ok (), ((s.setGroup (taken s g)).wr sd e).done) := by
  have hheld : episodeHeld s g = false := by rw [episodeHeld, hl]; rfl
  rw [takeEpisode, exec_bind_ok (exec_get s), he]
  dsimp only
  rw [exec_bind, exec_waitFor, hheld]
  rfl

theorem exec_takeEpisode_waits {g : BitVec 10} (he : releasedAt s g = none) : M.exec (takeEpisode sd g) s = (.error .wait, s) := by
  rw [takeEpisode, exec_bind_ok (exec_get s), he]
  rfl

theorem group_taken (s : State) (g : BitVec 10) : (s.setGroup (taken s g)).group g = stored (taken s g) := by
  have h := group_setGroup s (taken s g)
  rwa [show (taken s g).id = g from id_group s g] at h

theorem releasedAt_done_wr (t : State) (v : Word) (g : BitVec 10) : releasedAt ((t.wr sd v).done) g = releasedAt t g := by
  obtain ⟨-, hg, -, -, hs, -⟩ := done_wr_spec t sd v
  exact releasedAt_congr (group_congr hg g) hs

/-- The number is taken once. -/
theorem releasedAt_taken (s : State) (g : BitVec 10) : releasedAt (s.setGroup (taken s g)) g = none := by
  have hnone : (taken s g).released.find? (fun p => p.1 == s.front.sid) = none :=
    List.find?_eq_none.2 fun p hp => by simpa using (List.mem_filter.1 hp).2
  rw [releasedAt, group_taken, released_stored, show (s.setGroup (taken s g)).front.sid = s.front.sid from rfl, hnone]
  rfl

theorem exec_gbar_taken {e : Word} (h : (s.rd sa + imm.signExtend 64).toNat < 1024) (hl : s.front.logMode = 0)
    (he : releasedAt s (BitVec.ofNat 10 (s.rd sa + imm.signExtend 64).toNat) = some e) :
    exec (.gbar sd sa sc imm) s =
      .next ((s.setGroup (taken s (BitVec.ofNat 10 (s.rd sa + imm.signExtend 64).toNat))).wr sd e).done := by
  refine frontM_ok (m := gbarM sd sa sc imm) ?_
  unfold gbarM
  rw [exec_bind_ok (exec_groupNum h), exec_bind_ok (exec_get s), he]
  exact exec_takeEpisode hl he

theorem exec_gbar_refused (h : (s.rd sa + imm.signExtend 64).toNat < 1024)
    (he : releasedAt s (BitVec.ofNat 10 (s.rd sa + imm.signExtend 64).toNat) = none)
    (hm : (s.group (BitVec.ofNat 10 (s.rd sa + imm.signExtend 64).toNat)).member s.front.sid = false) :
    exec (.gbar sd sa sc imm) s = .next (stopTrap s (operandTrap 3) s.front.pc) := by
  refine frontM_trap (m := gbarM sd sa sc imm) (t := s) ?_
  unfold gbarM
  rw [exec_bind_ok (exec_groupNum h), exec_bind_ok (exec_get s), he]
  dsimp only
  rw [if_neg (by simp), hm, exec_bind, exec_need]
  rfl

end

/-! ### An arrival with nothing under way -/

/-- What a release finds of a stream with nothing under way: it may be performed. -/
theorem releaseReady_of_idle {s : State} (ha : s.front.accesses = []) (hc : s.front.cmds = []) (hf : floorMet s = true) :
    releaseReady s = true := by
  rw [releaseReady, hf, accessesDone, loadsOut, storesOut, relsOut, sharedDone, ha, hc]
  rfl

/-- A stream without messages or residuals has none to deliver (R341). -/
theorem deliverResiduals_none {s : State} (hr : ∀ x ∈ s.residuals, x.sid ≠ s.front.sid) (hm : ∀ m ∈ s.msgs ++ s.homeQ, m.sid ≠ s.front.sid)
    (p : Nat → Bool) : deliverResiduals s p = s := by
  have hmsgs : ∀ m ∈ s.msgs, (m.sid == s.front.sid && p m.home) = false := fun m h => by simp [hm m (List.mem_append_left _ h)]
  have hhq : ∀ m ∈ s.homeQ, (m.sid == s.front.sid && p m.home) = false := fun m h => by simp [hm m (List.mem_append_right _ h)]
  have hmine : s.residuals.filter (fun r => r.sid == s.front.sid && p r.home) = [] := List.filter_eq_nil_iff.2 fun x h => by simp [hr x h]
  have hrest : s.residuals.filter (fun r => !(r.sid == s.front.sid && p r.home)) = s.residuals :=
    List.filter_eq_self.2 fun x h => by simp [hr x h]
  rw [deliverResiduals, settleMsgs_none s _ hmsgs hhq, hmine, hrest]
  rfl

theorem exec_releaseM_idle {s : State} (ha : s.front.accesses = []) (hc : s.front.cmds = []) (hf : floorMet s = true)
    (hr : ∀ x ∈ s.residuals, x.sid ≠ s.front.sid) (hm : ∀ m ∈ s.msgs ++ s.homeQ, m.sid ≠ s.front.sid) (sc : Scope) (beta : List Nat) :
    M.exec (releaseM sc beta) s = (.ok (), s) := by
  rw [releaseM, exec_bind_ok (exec_get s), exec_bind, exec_waitFor, releaseReady_of_idle ha hc hf, if_pos rfl]
  dsimp only
  rw [exec_modify, deliverResiduals_none hr hm]

theorem loadsOut_of_none {f : Front} (h : f.accesses = []) : loadsOut f = 0 := by
  rw [loadsOut, h]
  rfl

/-- The stream waits in the `gbar` of a group (R127). -/
def atBarrier (s : State) (g : BitVec 10) : State := { s with front := { s.front with atGroup := some g } }

theorem exec_gbar_arrives {sd sa : SReg} {sc : Scope} {imm : BitVec 31} {s : State} (h : (s.rd sa + imm.signExtend 64).toNat < 1024)
    (hq : Quiet s) (hr : ∀ x ∈ s.residuals, x.sid ≠ s.front.sid) (hmsg : ∀ m ∈ s.msgs ++ s.homeQ, m.sid ≠ s.front.sid) :
    let g := BitVec.ofNat 10 (s.rd sa + imm.signExtend 64).toNat
    releasedAt s g = none → (s.group g).member s.front.sid = true → (s.group g).arrived.contains s.front.sid = false →
    (s.group g).pending.contains s.front.sid = false →
    exec (.gbar sd sa sc imm) s = frontM (takeEpisode sd g) (arrive (atBarrier s g) g) := by
  intro g he hm harr hpend
  obtain ⟨-, ha, hc, -, hf, hl⟩ := hq
  have hl' : (atBarrier s g).front.logMode = 0 := hl
  have hrel := exec_releaseM_idle (s := atBarrier s g) ha hc hf hr hmsg sc []
  have hmemb : membFirst (atBarrier s g) g = false := by rw [membFirst, myLog_of_unlogged hl']
  have hat : M.exec (modify (fun s : State => { s with front := { s.front with atGroup := some g } })) s = (.ok (), atBarrier s g) := rfl
  have hrun : M.exec (gbarM sd sa sc imm) s = M.exec (takeEpisode sd g) (arrive (atBarrier s g) g) := by
    unfold gbarM
    rw [exec_bind_ok (exec_groupNum h), exec_bind_ok (exec_get s)]
    dsimp only
    rw [he, if_neg (by simp), hm, exec_bind, exec_need, if_pos rfl]
    dsimp only
    rw [exec_bind, exec_waitFor, loadsOut_of_none ha, if_pos (by rfl)]
    dsimp only
    rw [exec_bind_ok hat, harr, hpend, if_neg (by simp)]
    rw [exec_bind_ok hrel, exec_bind_ok (exec_get _), hmemb, if_neg (by simp)]
    split
    · rw [exec_bind_ok (exec_admitEpisode_unlogged hl' ..), exec_bind_ok (exec_modify ..)]
    · rw [exec_bind_ok (exec_modify ..)]
  show frontM (gbarM sd sa sc imm) s = _
  unfold frontM
  rw [hrun]

/-- A new interval changes the clock registers alone (R329). -/
theorem nextInterval_eq (s : State) : ∃ c k, s.nextInterval = { s with front := { s.front with csr := c, clock := k } } := by
  unfold State.nextInterval
  split
  · split <;> exact ⟨_, _, rfl⟩
  · exact ⟨_, _, rfl⟩

/-- A group with one more arrival, and the clock record as that leaves it (R124, R324). -/
def withArrival (r : Group) (sid : BitVec 16) (k : List (Nat × Nat)) : Group := { r with arrived := r.arrived ++ [sid], clock := k }

/-- An arrival of a stream in no log, among none of a log: the episode completes, or is one arrival further. -/
theorem arrive_spec {s : State} (hl : ∀ f ∈ s.streams, f.logMode = 0) (g : BitVec 10) :
    ∃ (u : State) (k : List (Nat × Nat)), u.front.sid = s.front.sid ∧ u.front.pc = s.front.pc ∧ u.front.logMode = s.front.logMode ∧ u.mem = s.mem ∧
      arrive s g = if (withArrival (s.group g) s.front.sid k).met then
          (u.mapStreams (freed (withArrival (s.group g) s.front.sid k))).setGroup (completed (withArrival (s.group g) s.front.sid k))
        else u.setGroup (withArrival (s.group g) s.front.sid k) := by
  obtain ⟨c, k, hu⟩ := nextInterval_eq s
  let k' := if s.front.csr.raceEn then clockJoin (s.group g).clock s.front.clock else (s.group g).clock
  have ha : arrive s g = completeEpisode s.nextInterval (withArrival (s.group g) s.front.sid k') := rfl
  refine ⟨{ s with front := { s.front with csr := c, clock := k } }, k', rfl, rfl, rfl, rfl, ?_⟩
  rw [ha, hu]
  refine completeEpisode_unlogged fun f hf => ?_
  rcases List.mem_cons.1 hf with rfl | hf
  · exact hl s.front (List.mem_cons_self ..)
  · exact hl f (List.mem_cons_of_mem _ hf)

theorem met_withArrival {r : Group} {sid : BitVec 16} {k : List (Nat × Nat)} :
    (withArrival r sid k).met = decide (r.counted.length = r.arrived.length + 1) := by
  rw [Bool.eq_iff_iff, decide_eq_true_eq, Group.met, Bool.and_eq_true, beq_iff_eq]
  show (r.arrived ++ [sid]).length = r.counted.length ∧ (r.counted != [] || r.pending != []) = true ↔ _
  rw [List.length_append, List.length_singleton]
  refine ⟨fun h => h.1.symm, fun h => ⟨h.symm, ?_⟩⟩
  have hne : r.counted ≠ [] := fun he => by rw [he] at h; cases h
  rw [bne_iff_ne.2 hne, Bool.true_or]

/-- Among numbers handed out to arrivals each finds the episode's, where it had none to take before. -/
theorem find_released {l : List (BitVec 16 × Word)} {a : List (BitVec 16)} {x : BitVec 16} {e : Word}
    (hl : l.find? (fun p => p.1 == x) = none) (hx : x ∈ a) :
    ((l ++ a.map (fun y => (y, e))).find? (fun p => p.1 == x)).map (·.2) = some e := by
  obtain ⟨p, hp⟩ := Option.isSome_iff_exists.1 (List.find?_isSome.2 ⟨(x, e), List.mem_map_of_mem hx, beq_self_eq_true x⟩ :
    ((a.map (fun y => (y, e))).find? (fun p => p.1 == x)).isSome = true)
  obtain ⟨y, -, rfl⟩ := List.mem_map.1 (List.mem_of_find?_eq_some hp)
  rw [List.find?_append, hl, hp]
  rfl

/-- The stream of the arrival that completes the episode takes its number and goes on (R124, R126). -/
theorem takeEpisode_completed {u : State} {r : Group} (hc : r.counted ≠ []) (ha : u.front.sid ∈ r.arrived)
    (hr : r.released.find? (fun p => p.1 == u.front.sid) = none) (hl : u.front.logMode = 0) (sd : SReg) :
    ∃ t, frontM (takeEpisode sd r.id) ((u.mapStreams (freed r)).setGroup (completed r)) = .next t ∧
      t.rd sd = (if sd = 0 then 0 else r.episode) ∧ (t.group r.id).episode = r.episode + 1 ∧ (t.group r.id).arrived = [] ∧
      (∀ x ∈ r.arrived, x ≠ u.front.sid → (x, r.episode) ∈ (t.group r.id).released) ∧ t.mem = u.mem ∧ t.front.pc = u.front.pc + 8 := by
  obtain ⟨hpc, hsid, hlog⟩ := freed_spec r u.front
  let v := (u.mapStreams (freed r)).setGroup (completed r)
  have hcc : (completed r).counted ≠ [] := by
    show r.counted ++ r.pending ≠ []
    simp [hc]
  have hv : v.group r.id = completed r := (group_setGroup ..).trans (stored_of_ne (.inl hcc))
  have hvs : v.front.sid = u.front.sid := hsid
  have hrel : releasedAt v r.id = some r.episode := by
    rw [releasedAt, hv, hvs]
    exact find_released hr ha
  have htake := exec_takeEpisode (sd := sd) (hlog.trans hl) hrel
  have htk : (taken v r.id).counted ≠ [] := by
    rw [taken, hv]
    exact hcc
  obtain ⟨hrd, hgs, hmem, -, -, hpc'⟩ := done_wr_spec (v.setGroup (taken v r.id)) sd r.episode
  have hg : (((v.setGroup (taken v r.id)).wr sd r.episode).done).group r.id = taken v r.id :=
    (group_congr hgs _).trans ((group_taken ..).trans (stored_of_ne (.inl htk)))
  refine ⟨_, frontM_ok htake, hrd, ?_, ?_, fun x hx hne => ?_, hmem, ?_⟩
  · rw [hg, taken, hv]
    rfl
  · rw [hg, taken, hv]
    rfl
  · rw [hg, taken, hv, hvs]
    refine List.mem_filter.2 ⟨List.mem_append_right _ (List.mem_map_of_mem hx), ?_⟩
    simpa using hne
  · rw [hpc']
    exact congrArg (· + 8) hpc

/-- Settles O46: each instruction by the group that SA names, the stream's place in it, and the group's room. -/
theorem groupInstructions : Obligations.GroupInstructions := by
  unfold Obligations.GroupInstructions
  intro sd sa sc imm s hl n g r sid stop size
  have hlog (u : State) (v : Word) := done_wr_spec u sd v
  refine ⟨fun hn => ⟨?_, ?_, ?_⟩, fun hn => ⟨fun hm => ?_, fun hm hs => ?_, fun hm hs hr => ?_, fun hm => ?_, fun hm => ?_, fun he hm => ?_,
    fun e he => ?_, fun he hm ha hp hq hres hmsg hlogs => ?_⟩⟩
  · exact frontM_trap (m := gjoinM sd sa imm) (exec_bind_error (exec_groupNum_beyond hn))
  · exact frontM_trap (m := gleaveM sd sa imm) (exec_bind_error (exec_groupNum_beyond hn))
  · exact frontM_trap (m := gbarM sd sa sc imm) (exec_bind_error (exec_groupNum_beyond hn))
  · rw [exec_gjoin hn hl, if_pos hm]
    rfl
  · have hfull : ¬ (hasSlot s.front && decide (r.size < 256)) = true := by
      rcases hs with hs | hs
      · rw [hs]; nofun
      · rw [decide_eq_false (Nat.not_lt.2 hs), Bool.and_false]; nofun
    rw [exec_gjoin hn hl, if_neg (by rw [hm]; nofun), if_neg hfull]
  · obtain ⟨i, hi⟩ := joinGroup_eq hl hs g
    obtain ⟨hc, hpe, har, hsz⟩ := withJoiner_spec r sid
    have hgrp : (joinGroup s g).group g = withJoiner r sid := group_joinGroup hl hs g
    obtain ⟨hrd, hgs, hmem, hgr, -, hpc⟩ := hlog (joinGroup s g) (BitVec.ofNat 64 ((joinGroup s g).group g).size)
    have hgt : (sized sd g (joinGroup s g)).group g = withJoiner r sid := (group_congr hgs g).trans hgrp
    refine ⟨sized sd g (joinGroup s g), ?_, ?_, ?_, ?_, ?_, ?_, hmem.trans ?_, hpc.trans ?_⟩
    · rw [exec_gjoin hn hl, if_neg (by rw [hm]; nofun), if_pos (by rw [hs, decide_eq_true hr]; rfl)]
    · exact hrd.trans (by rw [hgrp, hsz])
    · rw [hgt, hc]
    · rw [hgt, hpe]
    · rw [hgt, har]
    · rw [show (sized sd g (joinGroup s g)).front.grps = _ from hgr, hi]
      exact mem_toList_set _ _ _ (Nat.mod_lt i (by decide))
    · rw [hi]
      rfl
    · rw [hi]
      rfl
  · rw [exec_gleave hn hl, if_neg (by rw [hm]; nofun)]
    rfl
  · obtain ⟨hsz, hmb, hpc, -, hgr⟩ := completeEpisode_group { s with front := clearSlots s.front g } (withoutMember r sid)
    rw [← leaveGroup_eq hl hm] at hsz hmb hpc hgr
    rw [show (withoutMember r sid).id = g from id_group s g] at hsz hmb hgr
    obtain ⟨hrd, hgs, -, hgr', -, hpc'⟩ := hlog (leaveGroup s g) (BitVec.ofNat 64 ((leaveGroup s g).group g).size)
    refine ⟨sized sd g (leaveGroup s g), ?_, ?_, ?_, ?_, hpc'.trans ?_⟩
    · rw [exec_gleave hn hl, if_pos hm]
    · exact hrd.trans (by rw [hsz]; rfl)
    · rw [show (sized sd g (leaveGroup s g)).group g = _ from group_congr hgs g, hmb]
      simp [Group.member, withoutMember, sid]
    · rw [show (sized sd g (leaveGroup s g)).front.grps = _ from hgr', hgr not_in_clearSlots]
      exact not_in_clearSlots
    · rw [hpc]
      rfl
  · exact exec_gbar_refused hn he hm
  · obtain ⟨hrd, -, hmem, -, -, hpc⟩ := hlog (s.setGroup (taken s g)) e
    refine ⟨_, exec_gbar_taken hn hl he, hrd, ?_, hmem, hpc⟩
    rw [releasedAt_done_wr]
    exact releasedAt_taken s g
  · have hcounted : r.counted ≠ [] := by
      intro hc
      rw [Group.member, hp, hc] at hm
      cases hm
    have hrel : r.released.find? (fun p => p.1 == sid) = none := Option.map_eq_none_iff.1 he
    obtain ⟨u, k, hsid, hpc, hlm, hmem, harr⟩ := arrive_spec (s := atBarrier s g)
      (fun f hf => by
        rcases List.mem_cons.1 hf with rfl | hf
        · exact hl
        · exact hlogs f (List.mem_cons_of_mem _ hf)) g
    rw [exec_gbar_arrives hn hq hres hmsg he hm ha hp, harr]
    have hid : (withArrival r sid k).id = g := id_group s g
    refine ⟨fun hlen => ?_, fun hlen => ?_⟩
    · obtain ⟨t, ht, hrd, hep, har, hrl, htm, htp⟩ := takeEpisode_completed (u := u) (r := withArrival r sid k) hcounted
        (by rw [hsid]; exact List.mem_append_right _ (List.mem_singleton_self _)) (by rw [hsid]; exact hrel) (hlm.trans hl) sd
      rw [hid] at ht hep har hrl
      have hmet : (withArrival r sid k).met = true := met_withArrival.trans (decide_eq_true hlen)
      refine ⟨t, (congrArg _ (if_pos hmet)).trans ht, hrd, hep, har, fun x hx => ?_, htm.trans hmem, ?_⟩
      · refine hrl x (List.mem_append_left _ hx) fun hx' => ?_
        rw [hx', hsid] at hx
        exact Bool.eq_false_iff.1 ha (List.contains_iff_mem.2 hx)
      · rw [htp, hpc]
        rfl
    · have hmet : (withArrival r sid k).met = false := met_withArrival.trans (decide_eq_false hlen)
      have hst : (u.setGroup (withArrival r sid k)).group g = withArrival r sid k := by
        have h := group_setGroup u (withArrival r sid k)
        rwa [hid, stored_of_ne (r := withArrival r sid k) (.inl hcounted)] at h
      have hwait : releasedAt (u.setGroup (withArrival r sid k)) g = none := by
        rw [releasedAt, hst, show (u.setGroup (withArrival r sid k)).front.sid = _ from hsid]
        exact he
      refine ⟨u.setGroup (withArrival r sid k), (congrArg _ (if_neg (Bool.eq_false_iff.1 hmet))).trans (frontM_wait (exec_takeEpisode_waits hwait)), ?_, ?_, hmem, hpc⟩
      · rw [hst]
        rfl
      · rw [hst]
        rfl

end Sys2Proof.Proofs
end

section
/-! What a translation changes, and what a store to readable places leaves (R143, R302). -/

namespace Sys2Proof.Proofs

open Sys2Proof Sys2Proof.Machine Sys2Proof.Safety Sys2Proof.Laws

/-! ### Translations -/

/-- `t` is `s` after walks: accessed and dirty bits, in memory and in pre-images, what a `wfe` has seen, and what a request
wakes may differ. -/
def Walked (s t : State) : Prop :=
  t = { s with mem := t.mem, monitors := t.monitors, shelves := t.shelves, drowsy := t.drowsy, asleep := t.asleep, rows := t.rows }

theorem Walked.refl (s : State) : Walked s s := rfl

theorem Walked.trans {s t u : State} (h : Walked s t) (h' : Walked t u) : Walked s u := by
  unfold Walked at *
  rw [h']
  rw [h]

theorem Walked.front {s t : State} (h : Walked s t) : t.front = s.front := by rw [h]

theorem walked_touch (s : State) (ks : List Key) : Walked s (s.touch ks) := by
  unfold State.touch
  split <;> rfl

theorem walked_walked (s : State) (va : Nat) : Walked s (s.walked va) := by
  unfold State.walked
  split
  · rfl
  · exact walked_touch ..

theorem walked_write (s : State) (k n v : Nat) : Walked s (s.write k n v) := by
  have h : Walked s (s.noted k n) := by
    unfold State.noted State.notedIn
    split <;> rfl
  exact h.trans rfl

theorem keepsWalked_setAD {s0 : State} {k : Key} {wr : Bool} : KeepsM (Walked s0) (setAD k wr) :=
  keepsM_modify fun s (h : Walked s0 s) => by
    dsimp only
    generalize (if wr then 0x180 else 0x80) = bits
    by_cases he : (s.mem.num k 8 ||| bits) = s.mem.num k 8
    · rw [if_pos he]
      exact h
    · rw [if_neg he]
      exact h.trans ((walked_write ..).trans rfl)

theorem keepsWalked_lookup {s0 : State} {agent va : Nat} {wr : Bool} {elem : Nat} : KeepsM (Walked s0) (lookup agent va wr elem) := by
  unfold lookup
  refine .bind keepsM_get fun s => keepsM_ite_of (keepsM_throw _) ?_
  extract_lets walkOn go
  have hwalkOn (u) : KeepsM (Walked s0) (walkOn u) := by
    refine .bind (keepsM_modify fun t ht => Walked.trans ht (walked_walked t va)) fun _ => ?_
    split
    · exact keepsM_pure _
    all_goals exact keepsM_throw _
  have hgo (u) : KeepsM (Walked s0) (go u) := keepsM_ite_of (.bind (keepsM_throw _) hwalkOn) (hwalkOn ())
  split
  · exact keepsM_ite_of (keepsM_pure _) (hgo ())
  · exact hgo ()

theorem keepsWalked_xlate {s0 : State} {agent va : Nat} {p : Perm} {elem : Nat} : KeepsM (Walked s0) (xlate agent va p elem) := by
  unfold xlate
  refine .bind keepsWalked_lookup fun a => ?_
  split
  exact .bind keepsM_get fun _ => keepsM_ite_of (keepsM_throw _) <|
    keepsM_ite_of (keepsM_throw _) (keepsM_ite_of (.bind keepsWalked_setAD fun _ => keepsM_pure _) (keepsM_pure _))

theorem keepsWalked_keysM {s0 : State} {pl : Place} {va n elem : Nat} : KeepsM (Walked s0) (keysM pl va n elem) := by
  unfold keysM
  refine .bind keepsM_get fun s => ?_
  split
  · exact keepsM_pure _
  · exact keepsM_throw _

theorem keepsWalked_blockPlace {s0 : State} {va n : Nat} : KeepsM (Walked s0) (blockPlace va n) := by
  unfold blockPlace
  refine keepsM_ite_of (keepsM_throw _) (.bind keepsM_get fun s => .bind keepsWalked_xlate fun pl => ?_)
  exact .bind (keepsM_need _ _) fun _ => keepsWalked_keysM

theorem walked_of_exec {α : Type} {m : M α} {s t : State} {r : Except Stop α} (hm : KeepsM (Walked s) m) (h : M.exec m s = (r, t)) :
    Walked s t := keeps_of_exec hm h (.refl s)

/-! ### Stores to readable places -/

theorem unreadable_mono {s : State} {ks ls : List Key} (h : unreadable s ks = false) (hsub : ∀ k ∈ ls, k ∈ ks) : unreadable s ls = false :=
  List.any_eq_false.2 fun k hk => List.any_eq_false.1 h k (hsub k hk)

/-- What a store whose places are all readable leaves: the bytes are put, no word becomes unreadable, and streams and waiters
stay. -/
structure Stored (s : State) (kbs : List (Key × Byte)) (t : State) : Prop where
  mem : t.mem = s.mem.sets kbs
  front : t.front = s.front
  waiters : t.waiters = s.waiters
  readable : ∀ ks, unreadable s ks = false → unreadable t ks = false

theorem smPresent_congr {s t : State} (hr : t.regs = s.regs) (hk : t.stk = s.stk) (p : Nat) : smPresent t p = smPresent s p := by
  unfold smPresent State.stack
  rw [hr, hk]

theorem unreadable_of_poison {s t : State} (hr : t.regs = s.regs) (hk : t.stk = s.stk) (hp : ∀ w ∈ t.poison, w ∈ s.poison) {ks : List Key}
    (h : unreadable s ks = false) : unreadable t ks = false := by
  refine List.any_eq_false.2 fun k hmem hc => List.any_eq_false.1 h k hmem ?_
  rw [smPresent_congr hr hk] at hc
  rcases Bool.or_eq_true_iff.1 hc with hc | hc
  · rw [List.contains_iff_mem.2 (hp _ (List.contains_iff_mem.1 hc)), Bool.true_or]
  · rw [hc, Bool.or_true]

/-- Nothing is dropped or logged: the words that are written whole have fresh check bits, and the monitors have seen it. -/
theorem store_readable_eq {s : State} {kbs : List (Key × Byte)} (h : unreadable s (kbs.map (·.1)) = false) : ∃ w,
    s.store kbs = { s.touch (kbs.map (·.1)) with
      mem := s.mem.sets kbs
      poison := if s.poison.isEmpty then [] else s.poison.filter (fun w => !(wholeWords (kbs.map (·.1))).contains w)
      monitors := w } := by
  have hread : ∀ p ∈ kbs, s.poison.contains (p.1 / 8) = false ∧ (keyCls p.1 == .sm && !smPresent s p.1) = false := by
    intro p hp
    simpa using List.any_eq_false.1 h p.1 (List.mem_map_of_mem hp)
  have hgone : kbs.filter (fun p => keyCls p.1 == .sm && !smPresent s p.1) = [] :=
    List.filter_eq_nil_iff.2 fun p hp => Bool.eq_false_iff.1 (hread p hp).2
  have hkept : kbs.filter (fun p => !(keyCls p.1 == .sm && !smPresent s p.1)) = kbs :=
    List.filter_eq_self.2 fun p hp => by rw [(hread p hp).2]; rfl
  have hhurt (whole : List Nat) : ((kbs.map (·.1)).map (· / 8)).dedup.filter
      (fun w => s.poison.contains w && keyCls (8 * w) != .hm && !whole.contains w) = [] := by
    refine List.filter_eq_nil_iff.2 fun w hw => ?_
    obtain ⟨k, hk, rfl⟩ := List.mem_map.1 (List.mem_dedup.1 hw)
    obtain ⟨p, hp, rfl⟩ := List.mem_map.1 hk
    rw [(hread p hp).1, Bool.false_and, Bool.false_and]
    nofun
  have htouch (ks : List Key) : (s.touch ks).mem = s.mem ∧ (s.touch ks).poison = s.poison := by
    unfold State.touch
    split <;> exact ⟨rfl, rfl⟩
  unfold State.store
  simp only [hgone, hkept, hhurt, List.foldl_nil, htouch]
  exact ⟨_, rfl⟩

theorem stored_store {s : State} {kbs : List (Key × Byte)} (h : unreadable s (kbs.map (·.1)) = false) : Stored s kbs (s.store kbs) := by
  obtain ⟨w, hw⟩ := store_readable_eq h
  have ht := walked_touch s (kbs.map (·.1))
  have hpoison : ∀ x ∈ (s.store kbs).poison, x ∈ s.poison := by
    intro x hx
    rw [hw] at hx
    dsimp only at hx
    split at hx
    · cases hx
    · exact List.mem_of_mem_filter hx
  have hregs : (s.store kbs).regs = s.regs ∧ (s.store kbs).stk = s.stk := by
    rw [hw, ht]
    exact ⟨rfl, rfl⟩
  refine ⟨?_, ?_, ?_, fun ks hks => unreadable_of_poison hregs.1 hregs.2 hpoison hks⟩
  · rw [hw]
  all_goals rw [hw, ht]

/-- The same for a store of an instruction that needs no shelf entry (R139). -/
theorem stored_storeAt {s : State} {kbs : List (Key × Byte)} (h : unreadable s (kbs.map (·.1)) = false) (isn : Nat) :
    Stored s kbs (s.storeAt isn false kbs) := by
  obtain ⟨hm, hf, hw, hr⟩ := stored_store (s := patchShelf s isn kbs) h
  exact ⟨hm, hf, hw, hr⟩

/-- A word of a block whose bytes are all readable is put (R128). -/
theorem stored_putBlock {s : State} {ks : List Key} (h : unreadable s ks = false) (st i v : Nat) :
    Stored s (((ks.drop (8 * i)).take 8).zip (wordBytes 8 v)) (putBlock s st ks i v) := by
  refine stored_storeAt (unreadable_mono h fun k hk => ?_) st
  obtain ⟨p, hp, rfl⟩ := List.mem_map.1 hk
  exact List.mem_of_mem_drop (List.mem_of_mem_take (List.of_mem_zip hp).1)

end Sys2Proof.Proofs
end

section
/-! qpush, qpop and the drains (R128 to R131). -/

namespace Sys2Proof.Proofs

open Sys2Proof Sys2Proof.Machine Sys2Proof.Safety Sys2Proof.Laws

/-! ### An operation up to the admission -/

theorem keepsWalked_place {s0 : State} {o : QOp} {q : QBlock} : KeepsM (Walked s0) (o.place q) := by
  unfold QOp.place
  refine .bind keepsM_get fun s => ?_
  cases o with
  | push sb => exact .bind keepsWalked_xlate fun _ => keepsWalked_keysM
  | pop sb => exact .bind keepsWalked_xlate fun _ => keepsWalked_keysM
  | drain d => exact keepsM_pure _

/-- The end of an operation: the home takes it in its order, or has the stream wait. -/
def queueEnd (o : QOp) (i : Instr) (sd : SReg) (ks es : List Key) (q : QBlock) : M Key := do
  let s ← get
  let k := ks.headD 0
  let held := o.held s k q
  let _ ← admitOp 3 o.sub (objMem k) (fun _ => true) (some (o.result q)) 0 (fun _ => held)
    (fun r => match o with
      | .pop _ => fld 0 16 r.b.toNat == ((pusherOf s k q.head).map (·.sid.toNat)).getD 0
      | _ => true)
  if held then waitAtBlock k (wordOf i)
  else
    leaveBlock
    modify (fun s => ((o.perform ks es q sd s).leave).done)
    pure k

/-- What is left of an operation once its block has been read and keeps R128. -/
def queueOn (o : QOp) (i : Instr) (sd : SReg) (sc : Scope) (ks : List Key) (q : QBlock) : M Key := do
  let s ← get
  let es ← o.place q
  match o with
  | .push _ => releaseM sc (ownerOf s (ks.headD 0)).toList
  | .pop _ => do
    let t ← get
    need (o.held t (ks.headD 0) q || !unreadable t es) (mkTrap causeDataError 0 0 (q.entry q.head / 32 * 32))
  | .drain _ => pure ()
  queueEnd o i sd ks es q

/-- Nothing is under way: the block is placed and read, and traps unless it keeps R128. -/
theorem exec_queueM {s s1 : State} {sa : SReg} {ks : List Key} (ha : s.front.accesses = [])
    (hp : M.exec (blockPlace (s.rd sa).toNat 64) s = (.ok ks, s1)) (hu : unreadable s1 ks = false) (o : QOp) (i : Instr) (sd : SReg) (sc : Scope) :
    M.exec (queueM o i sd sa sc) s =
      if (queueBlock s1 ks).2 = true then M.exec (queueOn o i sd sc ks (queueBlock s1 ks).1) s1 else (.error (.trap (operandTrap 4)), s1) := by
  have ha1 : s1.front.accesses = [] := by rw [(walked_of_exec keepsWalked_blockPlace hp).front, ha]
  have hsound : M.exec (blockSound ks (s.rd sa).toNat) s1 = (.ok (), s1) := by
    rw [blockSound, exec_bind_ok (exec_get s1), exec_need, hu]
    rfl
  have hfree : M.exec (blockFree ks) s1 = (.ok (), s1) := by
    rw [blockFree, exec_bind_ok (exec_get s1), exec_waitFor, ha1]
    rfl
  have hload : M.exec (waitFor (loadsOut s.front == 0)) s = (.ok (), s) := by
    rw [exec_waitFor, loadsOut_of_none ha]
    rfl
  unfold queueM
  rw [exec_bind_ok (exec_get s), exec_bind_ok hload, exec_bind_ok hp, exec_bind_ok hsound, exec_bind_ok hfree, exec_bind_ok (exec_get s1)]
  show M.exec (need (queueBlock s1 ks).2 (operandTrap 4) >>= fun _ => _) s1 = _
  rw [exec_bind, exec_need]
  by_cases hok : (queueBlock s1 ks).2 = true
  · rw [if_pos hok, if_pos hok, queueOn, exec_bind_ok (exec_get s1)]
    rfl
  · rw [if_neg hok, if_neg hok]

/-! ### The admission -/

/-- The stream waits at the block, alone. -/
def atQueue (s : State) (k : Key) (i : Instr) : State := { s with waiters := [{ block := k, sid := s.front.sid, word := wordOf i }] }

theorem exec_queueEnd {s : State} (hl : s.front.logMode = 0) (hw : s.waiters = []) (o : QOp) (i : Instr) (sd : SReg) (ks es : List Key) (q : QBlock) :
    M.exec (queueEnd o i sd ks es q) s =
      if o.held s (ks.headD 0) q = true then (.error .wait, atQueue s (ks.headD 0) i)
      else (.ok (ks.headD 0), ((o.perform ks es q sd s).leave).done) := by
  have hwait : M.exec (waitAtBlock (ks.headD 0) (wordOf i) : M Key) s = (.error .wait, atQueue s (ks.headD 0) i) := by
    rw [waitAtBlock, exec_bind_ok (exec_modify ..), hw]
    rfl
  have hnone : ({ s with waiters := [] } : State) = s := by rw [← hw]
  have hleave : M.exec leaveBlock s = (.ok (), s) := by
    rw [leaveBlock, exec_modify, hw]
    exact congrArg (fun t : State => (Except.ok (), t)) hnone
  rw [queueEnd, exec_bind_ok (exec_get s), exec_bind_ok (exec_admitOp_unlogged hl ..)]
  by_cases hheld : o.held s (ks.headD 0) q = true
  · rw [if_pos hheld, if_pos hheld, hwait]
  · rw [if_neg hheld, if_neg hheld, exec_bind_ok hleave]
    rfl

theorem held_push (s : State) (sb : SReg) (k : Key) (q : QBlock) : (QOp.push sb).held s k q = (q.used == 2 ^ q.size) := rfl

theorem held_pop (s : State) (sb : SReg) (k : Key) (q : QBlock) : (QOp.pop sb).held s k q = (q.used == 0) := rfl

theorem held_drain_wait (s : State) (k : Key) (q : QBlock) : (QOp.drain false).held s k q = (q.used != 0 || popWaits s k) := rfl

/-- What an operation asks before its home takes it: a push is a release, a pop reads an entry that can be read. -/
def Ready (o : QOp) (s : State) (k : Key) (es : List Key) (q : QBlock) : Prop :=
  match o with
  | .push _ => releaseReady s = true ∧ ∀ p, deliverResiduals s p = s
  | .pop _ => o.held s k q = true ∨ unreadable s es = false
  | .drain _ => True

theorem exec_queueOn {o : QOp} {q : QBlock} {ks es : List Key} {s s2 : State} (hp : M.exec (o.place q) s = (.ok es, s2))
    (hr : Ready o s2 (ks.headD 0) es q) (i : Instr) (sd : SReg) (sc : Scope) :
    M.exec (queueOn o i sd sc ks q) s = M.exec (queueEnd o i sd ks es q) s2 := by
  unfold queueOn
  rw [exec_bind_ok (exec_get s), exec_bind_ok hp]
  cases o with
  | push sb =>
    have hrel (beta : List Nat) : M.exec (releaseM sc beta) s2 = (.ok (), s2) := by
      rw [releaseM, exec_bind_ok (exec_get s2), exec_bind, exec_waitFor, hr.1, if_pos rfl]
      dsimp only
      rw [exec_modify, hr.2]
    dsimp only
    rw [exec_bind_ok (hrel _)]
  | pop sb =>
    have hread : ((QOp.pop sb).held s2 (ks.headD 0) q || !unreadable s2 es) = true := by
      rcases hr with hheld | hread
      · rw [hheld, Bool.true_or]
      · rw [hread, Bool.not_false, Bool.or_true]
    have hneed (x : TrapInfo) : M.exec (need ((QOp.pop sb).held s2 (ks.headD 0) q || !unreadable s2 es) x) s2 = (.ok (), s2) := by
      rw [exec_need, if_pos hread]
    dsimp only
    rw [exec_bind_ok (exec_get s2), exec_bind_ok (hneed _)]
  | drain d => rfl

/-- A pop finds its entry, which cannot be read (R143). -/
theorem exec_queueOn_unreadable {sb : SReg} {q : QBlock} {ks es : List Key} {s s2 : State} (hp : M.exec ((QOp.pop sb).place q) s = (.ok es, s2))
    (hq : q.used ≠ 0) (hu : unreadable s2 es = true) (i : Instr) (sd : SReg) (sc : Scope) :
    M.exec (queueOn (.pop sb) i sd sc ks q) s = (.error (.trap (mkTrap causeDataError 0 0 (q.entry q.head / 32 * 32))), s2) := by
  have hread : ((QOp.pop sb).held s2 (ks.headD 0) q || !unreadable s2 es) = false := by
    rw [held_pop, beq_false_of_ne hq, hu]
    rfl
  have hneed (x : TrapInfo) : M.exec (need ((QOp.pop sb).held s2 (ks.headD 0) q || !unreadable s2 es) x) s2 = (.error (.trap x), s2) := by
    rw [exec_need, hread, if_neg Bool.false_ne_true]
  unfold queueOn
  rw [exec_bind_ok (exec_get s), exec_bind_ok hp]
  dsimp only
  rw [exec_bind_ok (exec_get s2), exec_bind_error (hneed _)]

/-! ### The home goes on with none -/

theorem wakeBlock_of_no_waiters {s : State} (h : s.waiters = []) (k : Key) (n : Nat) : wakeBlock n k s = s := by
  cases n with
  | zero => rfl
  | succ n =>
    unfold wakeBlock
    rw [h]
    rfl

section
variable {m : M Key} {s t : State} {k : Key}

theorem homeOp_ok (h : M.exec m s = (.ok k, t)) (hw : t.waiters = []) : homeOp m s = .next t := by
  unfold homeOp
  rw [h]
  exact congrArg Host.Outcome.next (wakeBlock_of_no_waiters hw ..)

theorem homeOp_trap {x : TrapInfo} (h : M.exec m s = (.error (.trap x), t)) : homeOp m s = .next (stopTrap t x t.front.pc) := by
  unfold homeOp
  rw [h]
  rfl

theorem homeOp_wait (h : M.exec m s = (.error .wait, t)) : homeOp m s = .next t := by
  unfold homeOp
  rw [h]

end

theorem unlessWaiting_of_none {s : State} (h : s.waiters = []) (m : State → Out) : unlessWaiting m s = m s := by
  unfold unlessWaiting
  rw [h]
  rfl

/-- The instruction of an operation. -/
def queueInstr (o : QOp) (sd sa : SReg) (sc : Scope) : Instr :=
  match o with
  | .push sb => .qpush sd sa sb sc
  | .pop sb => .qpop sd sa sb sc
  | .drain false => .qdrainWait sd sa sc
  | .drain true => .qdrainDiscard sd sa sc

theorem exec_queue {s : State} (hw : s.waiters = []) (o : QOp) (sd sa : SReg) (sc : Scope) :
    exec (queueInstr o sd sa sc) s = homeOp (queueM o (queueInstr o sd sa sc) sd sa sc) s := by
  match o with
  | .push sb => exact unlessWaiting_of_none hw _
  | .pop sb => exact unlessWaiting_of_none hw _
  | .drain false => exact unlessWaiting_of_none hw _
  | .drain true => rfl

/-! ### What an operation does -/

/-- What the operation leaves of a state: memory is `m`, registers other than its own, windows and pc stay, and nobody waits. -/
structure Served (s : State) (sd sb : SReg) (m : Memory) (t : State) : Prop where
  mem : t.mem = m
  regs : ∀ r, r ≠ sd → r ≠ sb → t.rd r = s.rd r
  windows : t.front.w = s.front.w
  pc : t.front.pc = s.front.pc
  waiters : t.waiters = s.waiters

section
variable {s t : State} {sd sb : SReg} {m : Memory}

/-- A store at readable places serves. -/
theorem Stored.served {kbs : List (Key × Byte)} (h : Stored s kbs t) (sd sb : SReg) : Served s sd sb (s.mem.sets kbs) t := by
  obtain ⟨hm, hf, hw, -⟩ := h
  refine ⟨hm, fun r _ _ => ?_, ?_, ?_, hw⟩
  · rw [State.rd, State.rd, hf]
  all_goals rw [hf]

theorem Served.trans {u : State} {m' : Memory} (h : Served s sd sb m t) (h' : Served t sd sb m' u) : Served s sd sb m' u :=
  ⟨h'.mem, fun r h1 h2 => (h'.regs r h1 h2).trans (h.regs r h1 h2), h'.windows.trans h.windows, h'.pc.trans h.pc, h'.waiters.trans h.waiters⟩

theorem served_wr (s : State) (sd sb : SReg) {r : SReg} (v : Word) (h : r = sd ∨ r = sb) : Served s sd sb s.mem (s.wr r v) := by
  have hframe : (s.wr r v).mem = s.mem ∧ (s.wr r v).front.w = s.front.w ∧ (s.wr r v).front.pc = s.front.pc ∧ (s.wr r v).waiters = s.waiters := by
    unfold State.wr
    split <;> exact ⟨rfl, rfl, rfl, rfl⟩
  obtain ⟨hm, hw, hpc, hwait⟩ := hframe
  refine ⟨hm, fun x hsd hsb => ?_, hw, hpc, hwait⟩
  rw [rd_wr, if_neg]
  rintro ⟨rfl, -⟩
  exact h.elim hsd hsb

/-- The instruction ends: what was served stands, with the pc at the next (R129). -/
theorem Served.done {u : State} (h : Served s sd sb m u) (hw : s.waiters = []) :
    let t := u.leave.done
    t.mem = m ∧ (∀ r, t.rd r = u.rd r) ∧ (∀ r, r ≠ sd → r ≠ sb → t.rd r = s.rd r) ∧ t.front.w = s.front.w ∧ t.front.pc = s.front.pc + 8 ∧
      t.waiters = [] :=
  ⟨h.mem, fun _ => rfl, h.regs, h.windows, congrArg (· + 8) h.pc, h.waiters.trans hw⟩

theorem rd_wr_same (s : State) (r : SReg) (v : Word) : (s.wr r v).rd r = if r = 0 then 0 else v := by
  by_cases h : r = 0
  · rw [if_pos h, h, rd_zero]
  · rw [if_neg h, rd_wr, if_pos ⟨rfl, h⟩]

end

section
variable {s : State} {sd sb : SReg} {ks es : List Key} {q : QBlock}

theorem nextInterval_of_unchecked (h : s.front.csr.raceEn = false) : s.nextInterval = s := by
  rw [State.nextInterval, h]
  rfl

theorem unreadable_append {ks es : List Key} (h : unreadable s (ks ++ es) = false) : unreadable s ks = false ∧ unreadable s es = false :=
  ⟨unreadable_mono h fun _ hk => List.mem_append_left _ hk, unreadable_mono h fun _ hk => List.mem_append_right _ hk⟩

theorem unchecked_wr {t : State} (h : t.front.csr.raceEn = false) (r : SReg) (v : Word) : (t.wr r v).front.csr.raceEn = false := by
  unfold State.wr
  split <;> exact h

/-- The home notes who pushed the entry at TAIL (R324). -/
def notePushed (s : State) (k : Key) (q : QBlock) : State :=
  let me : Pushed := { block := k, index := BitVec.ofNat 64 q.tail, sid := s.front.sid, ivl := if s.front.csr.raceEn then s.front.csr.ivl else 0 }
  { s with pushed := me :: s.pushed.filter (fun p => !(p.block == k && p.index == me.index)) }

/-- The home forgets who pushed the entry at HEAD, whose clock the popper takes (R324). -/
def takePushed (s : State) (k : Key) (by_ : Option Pushed) : State :=
  match by_ with
  | some p => { s with
      front := s.front.acquire (if p.ivl = 0 then [] else [(p.sid.toNat % 256, p.ivl.toNat)])
      pushed := s.pushed.filter (fun x => !(x.block == k && x.index == p.index)) }
  | none => s

theorem served_notePushed (s : State) (k : Key) (q : QBlock) : Served s sd sb s.mem (notePushed s k q) := ⟨rfl, fun _ _ _ => rfl, rfl, rfl, rfl⟩

theorem served_takePushed (s : State) (k : Key) (x : Option Pushed) : Served s sd sb s.mem (takePushed s k x) := by
  cases x <;> exact ⟨rfl, fun _ _ _ => rfl, rfl, rfl, rfl⟩

/-- A push writes the entry and then TAIL, and gives the old TAIL (R129). -/
theorem perform_push (hl : s.front.logMode = 0) (hrace : s.front.csr.raceEn = false) (hu : unreadable s (ks ++ es) = false) :
    let t := (QOp.push sb).perform ks es q sd s
    Served s sd sb ((s.mem.sets (es.zip (wordBytes 8 (s.rd sb).toNat))).sets (((ks.drop (8 * 1)).take 8).zip (wordBytes 8 ((q.tail + 1) % 2 ^ 64)))) t ∧
      t.rd sd = if sd = 0 then 0 else BitVec.ofNat 64 q.tail := by
  intro t
  obtain ⟨hks, hes⟩ := unreadable_append hu
  let a := s.storeAt s.stamp false (es.zip (wordBytes 8 (s.rd sb).toNat))
  let b := putBlock a s.stamp ks 1 ((q.tail + 1) % 2 ^ 64)
  have ha : Stored s (es.zip (wordBytes 8 (s.rd sb).toNat)) a :=
    stored_storeAt (unreadable_mono hes fun k hk => by
      obtain ⟨p, hp, rfl⟩ := List.mem_map.1 hk
      exact (List.of_mem_zip hp).1) s.stamp
  have hb := stored_putBlock (ha.readable ks hks) s.stamp 1 ((q.tail + 1) % 2 ^ 64)
  have hbf : b.front = s.front := hb.front.trans ha.front
  have ht : t = ((notePushed b (ks.headD 0) q).wr sd (BitVec.ofNat 64 q.tail)).nextInterval :=
    congrArg (fun u : State => ((notePushed (putBlock (u.storeAt u.stamp false (es.zip (wordBytes 8 (s.rd sb).toNat))) u.stamp ks 1 ((q.tail + 1) % 2 ^ 64))
      (ks.headD 0) q).wr sd (BitVec.ofNat 64 q.tail)).nextInterval) (record_unlogged hl ..)
  have hc : (notePushed b (ks.headD 0) q).front.csr.raceEn = false := by
    show b.front.csr.raceEn = false
    rw [hbf, hrace]
  have hab := ((ha.served sd sb).trans (hb.served sd sb)).trans (served_notePushed b (ks.headD 0) q)
  have h := hab.trans (served_wr (notePushed b (ks.headD 0) q) sd sb (BitVec.ofNat 64 q.tail) (.inl rfl))
  rw [show (notePushed b (ks.headD 0) q).mem = _ from hb.mem, ha.mem] at h
  rw [ht, nextInterval_of_unchecked (unchecked_wr hc _ _)]
  exact ⟨h, rd_wr_same ..⟩

theorem served_popRegs (c : State) (sd sb : SReg) (entry head : Nat) :
    Served c sd sb c.mem (popRegs c sd sb entry head) ∧ (sd ≠ sb →
      ((popRegs c sd sb entry head).rd sd = if sd = 0 then 0 else BitVec.ofNat 64 entry) ∧
      (sb ≠ 0 → (popRegs c sd sb entry head).rd sb = BitVec.ofNat 64 head)) := by
  by_cases h : sd = sb
  · have heq : popRegs c sd sb entry head = ({ c with drawn := c.drawn + 1 } : State).wr sd
        (if Config.popPick c.drawn then BitVec.ofNat 64 head else BitVec.ofNat 64 entry) := if_pos h
    have hdrawn : Served c sd sb c.mem { c with drawn := c.drawn + 1 } := ⟨rfl, fun _ _ _ => rfl, rfl, rfl, rfl⟩
    rw [heq]
    exact ⟨hdrawn.trans (served_wr _ sd sb _ (.inl rfl)), fun hc => absurd h hc⟩
  · have heq : popRegs c sd sb entry head = (c.wr sd (BitVec.ofNat 64 entry)).wr sb (BitVec.ofNat 64 head) := if_neg h
    have hsd := served_wr c sd sb (BitVec.ofNat 64 entry) (.inl rfl)
    have hsb := served_wr (c.wr sd (BitVec.ofNat 64 entry)) sd sb (BitVec.ofNat 64 head) (.inr rfl)
    rw [hsd.mem] at hsb
    rw [heq]
    refine ⟨hsd.trans hsb, fun _ => ⟨?_, fun hsb0 => ?_⟩⟩
    · rw [rd_wr, if_neg (fun hc => h hc.1), rd_wr_same]
    · rw [rd_wr_same, if_neg hsb0]

/-- A pop raises HEAD, and gives the entry and the old HEAD (R129). -/
theorem perform_pop (hl : s.front.logMode = 0) (hu : unreadable s (ks ++ es) = false) :
    let t := (QOp.pop sb).perform ks es q sd s
    Served s sd sb (s.mem.sets (((ks.drop (8 * 0)).take 8).zip (wordBytes 8 ((q.head + 1) % 2 ^ 64)))) t ∧
      (sd ≠ sb → (t.rd sd = if sd = 0 then 0 else BitVec.ofNat 64 (bytesNat (s.mem.gets es))) ∧ (sb ≠ 0 → t.rd sb = BitVec.ofNat 64 q.head)) := by
  intro t
  obtain ⟨hks, -⟩ := unreadable_append hu
  let b := putBlock s s.stamp ks 0 ((q.head + 1) % 2 ^ 64)
  have hb := stored_putBlock hks s.stamp 0 ((q.head + 1) % 2 ^ 64)
  have ht : t = popRegs (takePushed b (ks.headD 0) (pusherOf s (ks.headD 0) q.head)) sd sb (bytesNat (s.mem.gets es)) q.head :=
    congrArg (fun u : State => popRegs (takePushed (putBlock u u.stamp ks 0 ((q.head + 1) % 2 ^ 64)) (ks.headD 0) (pusherOf s (ks.headD 0) q.head))
      sd sb (bytesNat (s.mem.gets es)) q.head) (record_unlogged hl ..)
  have hc := served_takePushed (sd := sd) (sb := sb) b (ks.headD 0) (pusherOf s (ks.headD 0) q.head)
  obtain ⟨hp, hregs⟩ := served_popRegs (takePushed b (ks.headD 0) (pusherOf s (ks.headD 0) q.head)) sd sb (bytesNat (s.mem.gets es)) q.head
  rw [hc.mem, show b.mem = _ from hb.mem] at hp
  rw [ht]
  exact ⟨(hb.served sd sb).trans (hc.trans hp), hregs⟩

/-- A drain that waits for an empty queue gives TAIL (R129). -/
theorem perform_drain_wait (hl : s.front.logMode = 0) :
    let t := (QOp.drain false).perform ks es q sd s
    Served s sd sb s.mem t ∧ t.rd sd = if sd = 0 then 0 else BitVec.ofNat 64 q.tail := by
  intro t
  have ht : t = s.wr sd (BitVec.ofNat 64 q.tail) :=
    congrArg (fun u : State => u.wr sd (BitVec.ofNat 64 q.tail)) (record_unlogged hl ..)
  rw [ht]
  exact ⟨served_wr s sd sb _ (.inl rfl), rd_wr_same ..⟩

/-- The home forgets who pushed the entries of a block (R324). -/
def forgetPushed (s : State) (k : Key) : State := { s with pushed := s.pushed.filter (fun p => p.block != k) }

/-- A discard sets HEAD to TAIL and gives the number of entries (R129). -/
theorem perform_drain_discard (hl : s.front.logMode = 0) (hu : unreadable s ks = false) :
    let t := (QOp.drain true).perform ks es q sd s
    Served s sd sb (s.mem.sets (((ks.drop (8 * 0)).take 8).zip (wordBytes 8 q.tail))) t ∧ t.rd sd = if sd = 0 then 0 else BitVec.ofNat 64 q.used := by
  intro t
  let a := forgetPushed s (ks.headD 0)
  have ha : Served s sd sb s.mem a := ⟨rfl, fun _ _ _ => rfl, rfl, rfl, rfl⟩
  have hb := stored_putBlock (s := a) hu a.stamp 0 q.tail
  have ht : t = (putBlock a a.stamp ks 0 q.tail).wr sd (BitVec.ofNat 64 q.used) :=
    congrArg (fun u : State => (putBlock (forgetPushed u (ks.headD 0)) (forgetPushed u (ks.headD 0)).stamp ks 0 q.tail).wr sd (BitVec.ofNat 64 q.used))
      (record_unlogged hl ..)
  have hwr := served_wr (putBlock a a.stamp ks 0 q.tail) sd sb (BitVec.ofNat 64 q.used) (.inl rfl)
  rw [hb.mem] at hwr
  rw [ht]
  exact ⟨ha.trans ((hb.served sd sb).trans hwr), rd_wr_same ..⟩

end

/-! ### The instructions -/

section
variable {s s1 : State} {sa : SReg} {ks : List Key}

/-- A block that breaks R128 traps. -/
theorem exec_queue_unsound (hw : s.waiters = []) (ha : s.front.accesses = [])
    (hp : M.exec (blockPlace (s.rd sa).toNat 64) s = (.ok ks, s1)) (hu : unreadable s1 ks = false) (hq : (queueBlock s1 ks).2 = false)
    (o : QOp) (sd : SReg) (sc : Scope) : exec (queueInstr o sd sa sc) s = .next (stopTrap s1 (operandTrap 4) s1.front.pc) := by
  rw [exec_queue hw]
  refine homeOp_trap ?_
  rw [exec_queueM ha hp hu, hq]
  rfl

/-- At a block that keeps R128 and at which nobody waits, an operation that may be tried waits or is performed. -/
theorem exec_queue_sound {s2 : State} {o : QOp} {es : List Key} (hw : s.waiters = []) (ha : s.front.accesses = []) (hl : s.front.logMode = 0)
    (hp : M.exec (blockPlace (s.rd sa).toNat 64) s = (.ok ks, s1)) (hu : unreadable s1 ks = false) (hq : (queueBlock s1 ks).2 = true)
    (he : M.exec (o.place (queueBlock s1 ks).1) s1 = (.ok es, s2)) (hready : Ready o s2 (ks.headD 0) es (queueBlock s1 ks).1) (sd : SReg) (sc : Scope) :
    let t := o.perform ks es (queueBlock s1 ks).1 sd s2
    (o.held s2 (ks.headD 0) (queueBlock s1 ks).1 = true →
      exec (queueInstr o sd sa sc) s = .next (atQueue s2 (ks.headD 0) (queueInstr o sd sa sc))) ∧
    (o.held s2 (ks.headD 0) (queueBlock s1 ks).1 = false → t.waiters = s2.waiters → exec (queueInstr o sd sa sc) s = .next t.leave.done) := by
  intro t
  have hwalk : Walked s s2 := (walked_of_exec keepsWalked_blockPlace hp).trans (walked_of_exec keepsWalked_place he)
  have hl2 : s2.front.logMode = 0 := by rw [hwalk.front, hl]
  have hw2 : s2.waiters = [] := by rw [hwalk, hw]
  have hexec : M.exec (queueM o (queueInstr o sd sa sc) sd sa sc) s =
      if o.held s2 (ks.headD 0) (queueBlock s1 ks).1 = true then (.error .wait, atQueue s2 (ks.headD 0) (queueInstr o sd sa sc))
      else (.ok (ks.headD 0), t.leave.done) := by
    rw [exec_queueM ha hp hu, if_pos hq, exec_queueOn he hready, exec_queueEnd hl2 hw2]
  rw [exec_queue hw]
  refine ⟨fun hheld => ?_, fun hheld ht => ?_⟩
  · rw [if_pos hheld] at hexec
    exact homeOp_wait hexec
  · rw [if_neg (by rw [hheld]; nofun)] at hexec
    exact homeOp_ok hexec (ht.trans hw2)

end

theorem popWaits_of_no_waiters {s : State} (h : s.waiters = []) (k : Key) : popWaits s k = false := by
  rw [popWaits, h]
  rfl

/-- A stream with nothing under way, no messages and no residuals may push. -/
theorem ready_push {s s2 : State} (hq : Quiet s) (hr : ∀ x ∈ s.residuals, x.sid ≠ s.front.sid) (hm : ∀ m ∈ s.msgs ++ s.homeQ, m.sid ≠ s.front.sid)
    (h : Walked s s2) (sb : SReg) (k : Key) (es : List Key) (q : QBlock) : Ready (.push sb) s2 k es q := by
  obtain ⟨-, ha, hc, -, hf, -⟩ := hq
  refine ⟨?_, fun p => deliverResiduals_none ?_ ?_ p⟩
  · rw [h]
    exact releaseReady_of_idle ha hc hf
  · rw [h]
    exact hr
  · rw [h]
    exact hm

/-- The outcome of an operation that has been served: it goes on with its result in SD. -/
theorem goes_on {o : Out} {u p : State} {sd sb : SReg} {m : Memory} {v : Nat} (ho : o = .next p.leave.done) (h : Served u sd sb m p)
    (hw : u.waiters = []) (hv : sd ≠ sb → p.rd sd = if sd = 0 then 0 else BitVec.ofNat 64 v) :
    ∃ t, o = .next t ∧ t.mem = m ∧ (sd ≠ sb → t.rd sd = if sd = 0 then 0 else BitVec.ofNat 64 v) ∧
      (∀ r, r ≠ sd → r ≠ sb → t.rd r = u.rd r) ∧ t.front.w = u.front.w ∧ t.front.pc = u.front.pc + 8 ∧ t.waiters = [] := by
  obtain ⟨hm, hrd, hregs, hwin, hpc, hwait⟩ := h.done hw
  exact ⟨_, ho, hm, fun hne => (hrd sd).trans (hv hne), hregs, hwin, hpc, hwait⟩

/-- Settles O47: a queue operation translates, reads its block, and either traps, waits alone at the home, or is performed
and goes on; each operation's effect is a lemma of its own. -/
theorem queueInstructions : Obligations.QueueInstructions := by
  unfold Obligations.QueueInstructions
  intro sd sa sb sc s s1 ks hquiet hp hu hrace hres hmsg hw1 hw q k done waits word
  have hwalk := walked_of_exec keepsWalked_blockPlace hp
  obtain ⟨-, ha, -, -, -, hl⟩ := id hquiet
  have hl1 : s1.front.logMode = 0 := by rw [hwalk.front, hl]
  refine ⟨fun hbad => ?_, fun hgood => ⟨fun es s2 he hu2 => ?_, fun es s2 he => ?_, fun hq => ?_, fun hq => ?_, ?_⟩⟩
  · exact ⟨exec_queue_unsound hw ha hp hu hbad (.push sb) sd sc, exec_queue_unsound hw ha hp hu hbad (.pop sb) sd sc,
      exec_queue_unsound hw ha hp hu hbad (.drain false) sd sc, exec_queue_unsound hw ha hp hu hbad (.drain true) sd sc⟩
  · have hwalk2 := hwalk.trans (walked_of_exec keepsWalked_place he)
    have hw2 : s2.waiters = [] := by rw [hwalk2, hw]
    have hl2 : s2.front.logMode = 0 := by rw [hwalk2.front, hl]
    have hrace2 : s2.front.csr.raceEn = false := by rw [hwalk2.front, ← hwalk.front, hrace]
    rw [hwalk.front] at hres hmsg
    have hres0 : ∀ x ∈ s.residuals, x.sid ≠ s.front.sid := by rwa [hwalk] at hres
    have hmsg0 : ∀ m ∈ s.msgs ++ s.homeQ, m.sid ≠ s.front.sid := by rwa [hwalk] at hmsg
    obtain ⟨hwaits, hserved⟩ := exec_queue_sound hw ha hl hp hu hgood he (ready_push hquiet hres0 hmsg0 hwalk2 sb k es q) sd sc
    obtain ⟨hp2, hv⟩ := perform_push (sd := sd) (sb := sb) (q := q) hl2 hrace2 hu2
    rw [held_push] at hwaits hserved
    refine ⟨fun hroom => ?_, fun hfull => hwaits (beq_iff_eq.2 hfull)⟩
    exact goes_on (hserved (beq_false_of_ne (Nat.ne_of_lt hroom)) hp2.waiters) hp2 hw2 fun _ => hv
  · have hwalk2 := hwalk.trans (walked_of_exec keepsWalked_place he)
    have hw2 : s2.waiters = [] := by rw [hwalk2, hw]
    have hl2 : s2.front.logMode = 0 := by rw [hwalk2.front, hl]
    have hsound (hready : Ready (.pop sb) s2 k es q) := exec_queue_sound hw ha hl hp hu hgood he hready sd sc
    refine ⟨fun hne hbad => ?_, fun hne hu2 => ?_, fun hempty => ?_⟩
    · show exec (queueInstr (.pop sb) sd sa sc) s = _
      rw [exec_queue hw]
      refine homeOp_trap ?_
      rw [exec_queueM ha hp hu, if_pos hgood]
      exact exec_queueOn_unreadable he hne hbad ..
    · obtain ⟨-, hserved⟩ := hsound (.inr (unreadable_append hu2).2)
      obtain ⟨hp2, hv⟩ := perform_pop (sd := sd) (sb := sb) (q := q) hl2 hu2
      rw [held_pop] at hserved
      have ho := hserved (beq_false_of_ne hne) hp2.waiters
      exact ⟨goes_on ho hp2 hw2 fun h => (hv h).1, fun hsd hsb => ⟨_, ho, ((hp2.done hw2).2.1 sb).trans ((hv hsd).2 hsb)⟩⟩
    · have hheld : (QOp.pop sb).held s2 k q = true := by rw [held_pop, hempty, beq_self_eq_true]
      exact (hsound (.inl hheld)).1 hheld
  · have hheld : (QOp.drain false).held s1 k q = false := by
      rw [held_drain_wait, popWaits_of_no_waiters hw1, hq]
      rfl
    obtain ⟨hp2, hv⟩ := perform_drain_wait (sd := sd) (sb := sb) (ks := ks) (es := []) (q := q) hl1
    obtain ⟨-, hserved⟩ := exec_queue_sound (o := .drain false) hw ha hl hp hu hgood rfl trivial sd sc
    exact goes_on (hserved hheld hp2.waiters) hp2 hw1 fun _ => hv
  · have hheld : (QOp.drain false).held s1 k q = true := by
      rw [held_drain_wait, bne_iff_ne.2 hq, Bool.true_or]
    exact (exec_queue_sound (o := .drain false) hw ha hl hp hu hgood rfl trivial sd sc).1 hheld
  · obtain ⟨hp2, hv⟩ := perform_drain_discard (sd := sd) (sb := sb) (ks := ks) (es := []) (q := q) hl1 hu
    obtain ⟨-, hserved⟩ := exec_queue_sound (o := .drain true) hw ha hl hp hu hgood rfl trivial sd sc
    exact goes_on (hserved rfl hp2.waiters) hp2 hw1 fun _ => hv

end Sys2Proof.Proofs
end

section
/-! The distributor's registers, pre-emptions and the reset of a die (R104, R105, R119, R121, R122, R388, R398). -/

namespace Sys2Proof.Proofs

open Sys2Proof Sys2Proof.Machine Sys2Proof.Safety Sys2Proof.Laws

/-! ### Launch queues (R104, R105) -/

/-- A queue is written at its number alone. -/
theorem lq_setLq (s : State) (p q : BitVec 6) (r : LQueue) : (s.setLq p r).lq q = if q = p then r else s.lq q := by
  rw [State.lq, State.setLq, get_set]
  exact if_congr ⟨BitVec.eq_of_toNat_eq, fun h => congrArg BitVec.toNat h⟩ rfl rfl

theorem lq_setLq_same (s : State) (q : BitVec 6) (r : LQueue) : (s.setLq q r).lq q = r := by rw [lq_setLq, if_pos rfl]

theorem lq_setLq_other (s : State) {p q : BitVec 6} (h : p ≠ q) (r : LQueue) : (s.setLq q r).lq p = s.lq p := by rw [lq_setLq, if_neg h]

/-- More records than the ring holds. -/
def spills (r : LQueue) : Bool := decide (2 ^ r.size.toNat < (r.tail - r.head).toNat)

theorem checked_eq (r : LQueue) : r.checked = { r with ovr := r.ovr || spills r, en := r.en && !spills r } := by
  unfold LQueue.checked spills
  by_cases h : 2 ^ r.size.toNat < (r.tail - r.head).toNat
  · rw [if_pos h, decide_eq_true h, Bool.or_true, Bool.not_true, Bool.and_false]
  · rw [if_neg h, decide_eq_false h, Bool.or_false, Bool.not_false, Bool.and_true]

theorem exec_queue_registers_failed {s : State} (h : s.regs.fail = true) (q : BitVec 6) (v32 : BitVec 32) (v : Word) :
    exec (.lqtailWrite q v32) s = .next s ∧ exec (.lqcfgWrite q v) s = .next s :=
  ⟨congrArg Host.Outcome.next (if_pos h), congrArg Host.Outcome.next (if_pos h)⟩

/-- A write to a queue's registers leaves the other queues, memory and the streams. -/
theorem setLq_spec (s : State) (q : BitVec 6) (r : LQueue) :
    (∀ p, p ≠ q → (s.setLq q r).lq p = s.lq p) ∧ (s.setLq q r).mem = s.mem ∧ (s.setLq q r).front = s.front ∧ (s.setLq q r).lq q = r :=
  ⟨fun _ h => lq_setLq_other s h r, rfl, rfl, lq_setLq_same s q r⟩

theorem exec_lqtailWrite {s : State} (h : s.regs.fail = false) (q : BitVec 6) (v : BitVec 32) :
    exec (.lqtailWrite q v) s = .next (s.setLq q ({ s.lq q with tail := v } : LQueue).checked) := by
  refine congrArg Host.Outcome.next (if_neg ?_)
  rw [h]
  nofun

/-- LQCFG as it is written. -/
def configured (r : LQueue) (v : Word) : LQueue :=
  { r with
    en := v.getLsbD 0 && decide (4 ≤ (v.extractLsb' 2 5).toNat ∧ (v.extractLsb' 2 5).toNat ≤ 16), cls := v.getLsbD 1
    size := v.extractLsb' 2 5, pcap := v.extractLsb' 8 3, vec := v.extractLsb' 12 11, irq := v.getLsbD 23, ovr := r.ovr && v.getLsbD 24 }

theorem exec_lqcfgWrite {s : State} (h : s.regs.fail = false) (q : BitVec 6) (v : Word) :
    exec (.lqcfgWrite q v) s = .next (s.setLq q (configured (s.lq q) v).checked) := by
  have hw : writeLqcfg s q v = s.setLq q (configured (s.lq q) v).checked := by
    unfold writeLqcfg configured
    dsimp only
    rw [Bool.and_assoc, Bool.decide_and]
  refine congrArg Host.Outcome.next ((if_neg ?_).trans hw)
  rw [h]
  nofun

/-! ### Pre-emptions (R119) -/

/-- A running stream with one of the SIDs, unless it has ended, is to stop. -/
def raiseAll (sids : List (BitVec 16)) (f : Front) : Front :=
  if f.status == .running && sids.contains f.sid && !f.retiring then { f with ppre := true, preempt := true } else f

section
variable {sids : List (BitVec 16)} {f : Front}

theorem raiseAll_frame (sids : List (BitVec 16)) (f : Front) :
    raiseAll sids f = { f with ppre := (raiseAll sids f).ppre, preempt := (raiseAll sids f).preempt } := by
  unfold raiseAll
  split <;> rfl

theorem raiseAll_status : (raiseAll sids f).status = f.status := by rw [raiseAll_frame]

theorem raiseAll_sid : (raiseAll sids f).sid = f.sid := by rw [raiseAll_frame]

theorem raiseAll_retiring : (raiseAll sids f).retiring = f.retiring := by rw [raiseAll_frame]

/-- A stream that one of the SIDs stops. -/
def Raises (l : List (BitVec 16)) (f : Front) : Prop := f.status = .running ∧ f.sid ∈ l ∧ f.retiring = false

theorem raises_iff {l : List (BitVec 16)} : (f.status == .running && l.contains f.sid && !f.retiring) = true ↔ Raises l f := by
  rw [Bool.and_eq_true, Bool.and_eq_true, beq_iff_eq, List.contains_iff_mem, Bool.not_eq_true', and_assoc]
  rfl

theorem raiseAll_of {l : List (BitVec 16)} (h : Raises l f) : raiseAll l f = { f with ppre := true, preempt := true } := if_pos (raises_iff.2 h)

theorem raiseAll_of_not {l : List (BitVec 16)} (h : ¬ Raises l f) : raiseAll l f = f := if_neg fun hc => h (raises_iff.1 hc)

theorem raiseAll_preempt (h : Raises sids f) : (raiseAll sids f).preempt = true := by rw [raiseAll_of h]

theorem raiseAll_of_preempt (h : f.preempt = true) : (raiseAll sids f).preempt = true := by
  unfold raiseAll
  split
  · rfl
  · exact h

theorem raiseAll_nil (f : Front) : raiseAll [] f = f := by
  refine raiseAll_of_not ?_
  rintro ⟨-, hm, -⟩
  exact absurd hm List.not_mem_nil

/-- Pre-emptions add up. -/
theorem raiseAll_append (sids : List (BitVec 16)) (x : BitVec 16) (f : Front) : raiseAll [x] (raiseAll sids f) = raiseAll (sids ++ [x]) f := by
  by_cases h : Raises sids f
  · rw [raiseAll_of h, raiseAll_of (l := sids ++ [x]) ⟨h.1, List.mem_append_left _ h.2.1, h.2.2⟩]
    unfold raiseAll
    split <;> rfl
  · rw [raiseAll_of_not h]
    by_cases hx : Raises [x] f
    · rw [raiseAll_of hx, raiseAll_of ⟨hx.1, List.mem_append_right _ hx.2.1, hx.2.2⟩]
    · rw [raiseAll_of_not hx, raiseAll_of_not]
      rintro ⟨hs, hm, hr⟩
      exact (List.mem_append.1 hm).elim (fun hm => h ⟨hs, hm, hr⟩) (fun hm => hx ⟨hs, hm, hr⟩)

end

theorem raisePreempt_eq (s : State) (x : BitVec 16) : raisePreempt s x = s.mapStreams (raiseAll [x]) := by
  have hf : (fun f : Front => if f.status == .running && f.sid == x && !f.retiring then { f with ppre := true, preempt := true } else f) =
      raiseAll [x] := by
    funext f
    rw [raiseAll, List.contains_cons, List.contains_nil, Bool.or_false]
  exact congrArg s.mapStreams hf

theorem mapStreams_raiseAll_nil (s : State) : s.mapStreams (raiseAll []) = s := by
  have hf : raiseAll [] = id := funext raiseAll_nil
  rw [hf, State.mapStreams, List.map_id]
  rfl

/-- Pre-emptions of one stream more. -/
theorem raisePreempt_mapStreams (s : State) (sids : List (BitVec 16)) (x : BitVec 16) :
    raisePreempt (s.mapStreams (raiseAll sids)) x = s.mapStreams (raiseAll (sids ++ [x])) := by
  have hf : raiseAll [x] ∘ raiseAll sids = raiseAll (sids ++ [x]) := funext fun f => raiseAll_append sids x f
  rw [raisePreempt_eq, State.mapStreams, State.mapStreams, State.mapStreams, ← hf, ← List.map_map]
  rfl

theorem foldl_raisePreempt (vs sids : List (BitVec 16)) (s : State) :
    vs.foldl raisePreempt (s.mapStreams (raiseAll sids)) = s.mapStreams (raiseAll (sids ++ vs)) := by
  induction vs generalizing sids with
  | nil => rw [List.append_nil, List.foldl_nil]
  | cons x vs ih => rw [List.foldl_cons, raisePreempt_mapStreams, ih, List.append_assoc, List.singleton_append]

/-- Streams of the victims are pre-empted, and nothing else changes. -/
theorem raise_victims (vs : List Front) (s : State) :
    vs.foldl (fun s f => raisePreempt s f.sid) s = s.mapStreams (raiseAll (vs.map (·.sid))) := by
  have h := foldl_raisePreempt (vs.map (·.sid)) [] s
  rw [mapStreams_raiseAll_nil, List.nil_append, List.foldl_map] at h
  exact h

/-- A pre-emption does not change which stream a SID names. -/
theorem find_raiseAll (sids : List (BitVec 16)) (l : List Front) (x : BitVec 16) :
    (l.map (raiseAll sids)).find? (fun f => f.status != .idle && f.sid == x) =
      (l.find? (fun f => f.status != .idle && f.sid == x)).map (raiseAll sids) := by
  have hp : ((fun f : Front => f.status != .idle && f.sid == x) ∘ raiseAll sids) = fun f => f.status != .idle && f.sid == x := by
    funext f
    rw [Function.comp_apply, raiseAll_status, raiseAll_sid]
  rw [List.find?_map, hp]

/-! ### Terminated launches (R122) -/

/-- What a termination does to one stream of the launch. -/
def killStream (s : State) (sid : BitVec 16) : State :=
  match s.streams.find? (fun f => f.status != .idle && f.sid == sid) with
  | some f => if f.status = .out then (if f.retiring then s else s.onStream sid retireFront) else if f.preempt then s else raisePreempt s sid
  | none => s

theorem killLaunch_eq (s : State) (l : Launch) : killLaunch s l = l.left.foldl killStream s := rfl

theorem stream_of_find {l : List Front} {x : BitVec 16} {f : Front} (h : l.find? (fun f => f.status != .idle && f.sid == x) = some f) :
    f ∈ l ∧ f.status ≠ .idle ∧ f.sid = x := by
  have hp := List.find?_some h
  rw [Bool.and_eq_true, bne_iff_ne, beq_iff_eq] at hp
  exact ⟨List.mem_of_find?_eq_some h, hp⟩

/-- The streams named are pre-empted, or were already. -/
def Stopped (s : State) (sids left : List (BitVec 16)) : Prop :=
  ∀ x ∈ left, ∀ f, s.streams.find? (fun f => f.status != .idle && f.sid == x) = some f → f.retiring = false → (raiseAll sids f).preempt = true

/-- One stream that is not away, after pre-emptions. -/
theorem killStream_raised {s : State} {x : BitVec 16} (sids : List (BitVec 16)) (hout : ∀ f ∈ s.streams, f.sid = x → f.status ≠ .out) :
    ∃ new, killStream (s.mapStreams (raiseAll sids)) x = s.mapStreams (raiseAll (sids ++ new)) ∧ Stopped s (sids ++ new) [x] := by
  have hfind := find_raiseAll sids s.streams x
  change (s.mapStreams (raiseAll sids)).streams.find? _ = _ at hfind
  unfold killStream
  rw [hfind]
  cases hf : s.streams.find? (fun f => f.status != .idle && f.sid == x) with
  | none =>
    refine ⟨[], by rw [List.append_nil]; rfl, fun y hy f hyf => ?_⟩
    rw [List.mem_singleton.1 hy, hf] at hyf
    cases hyf
  | some f =>
    obtain ⟨hmem, hidle, hsid⟩ := stream_of_find hf
    have hnout := hout f hmem hsid
    have hrun : f.status = .running := by
      cases h : f.status with
      | idle => exact absurd h hidle
      | running => rfl
      | out => exact absurd h hnout
    dsimp only [Option.map_some]
    rw [raiseAll_status, if_neg hnout]
    by_cases hp : (raiseAll sids f).preempt = true
    · refine ⟨[], by rw [if_pos hp, List.append_nil], fun y hy g hg _ => ?_⟩
      rw [List.mem_singleton.1 hy, hf] at hg
      rw [List.append_nil, ← Option.some.inj hg, hp]
    · refine ⟨[x], by rw [if_neg hp, raisePreempt_mapStreams], fun y hy g hg hr => ?_⟩
      rw [List.mem_singleton.1 hy, hf] at hg
      rw [← Option.some.inj hg] at hr ⊢
      exact raiseAll_preempt ⟨hrun, List.mem_append_right _ (List.mem_singleton.2 hsid), hr⟩

theorem preempt_raiseAll_append {sids : List (BitVec 16)} {f : Front} (h : (raiseAll sids f).preempt = true) (new : List (BitVec 16)) :
    (raiseAll (sids ++ new) f).preempt = true := by
  by_cases hr : Raises sids f
  · exact raiseAll_preempt ⟨hr.1, List.mem_append_left _ hr.2.1, hr.2.2⟩
  · rw [raiseAll_of_not hr] at h
    exact raiseAll_of_preempt h

theorem killStreams_raised {s : State} (left sids : List (BitVec 16)) (hout : ∀ f ∈ s.streams, f.sid ∈ left → f.status ≠ .out) :
    ∃ new, left.foldl killStream (s.mapStreams (raiseAll sids)) = s.mapStreams (raiseAll (sids ++ new)) ∧ Stopped s (sids ++ new) left := by
  induction left generalizing sids with
  | nil => exact ⟨[], by rw [List.append_nil, List.foldl_nil], fun x hx => absurd hx List.not_mem_nil⟩
  | cons x left ih =>
    obtain ⟨new, hx, hstop⟩ := killStream_raised sids fun f hf hsid => hout f hf (hsid ▸ List.mem_cons_self ..)
    obtain ⟨more, hleft, hstops⟩ := ih (sids ++ new) fun f hf hsid => hout f hf (List.mem_cons_of_mem _ hsid)
    rw [List.append_assoc] at hleft hstops
    refine ⟨new ++ more, by rw [List.foldl_cons, hx, hleft], fun y hy f hf hr => ?_⟩
    rcases List.mem_cons.1 hy with rfl | hy
    · have h := preempt_raiseAll_append (hstop y (List.mem_singleton.2 rfl) f hf hr) more
      rwa [List.append_assoc] at h
    · exact hstops y hy f hf hr

/-- A launch of which no stream is away: its running streams are pre-empted. -/
theorem killLaunch_raised {s : State} {l : Launch} (hout : ∀ f ∈ s.streams, f.sid ∈ l.left → f.status ≠ .out) :
    ∃ sids, killLaunch s l = s.mapStreams (raiseAll sids) ∧ Stopped s sids l.left := by
  obtain ⟨new, h, hstop⟩ := killStreams_raised l.left [] hout
  rw [mapStreams_raiseAll_nil, ← killLaunch_eq] at h
  exact ⟨new, h, hstop⟩

theorem exec_terminateLaunch_none {s : State} {sid : BitVec 16} (h : s.launches.find? (fun l => l.sid0 == sid && l.killers != []) = none) :
    exec (.terminateLaunch sid) s = .next s := by
  show execTerminateLaunch sid s = _
  rw [execTerminateLaunch, h]

theorem exec_terminateLaunch {s : State} {sid : BitVec 16} {l : Launch} (h : s.launches.find? (fun l => l.sid0 == sid && l.killers != []) = some l)
    (hout : ∀ f ∈ s.streams, f.sid ∈ l.left → f.status ≠ .out) :
    ∃ t, exec (.terminateLaunch sid) s = .next t ∧ t.mem = s.mem ∧
      ∀ x ∈ l.left, ∀ f, t.streams.find? (fun f => f.status != .idle && f.sid == x) = some f → f.retiring = false → f.preempt = true := by
  obtain ⟨sids, hk, hstop⟩ := killLaunch_raised hout
  refine ⟨s.mapStreams (raiseAll sids), ?_, rfl, fun x hx f hf hr => ?_⟩
  · show execTerminateLaunch sid s = _
    rw [execTerminateLaunch, h]
    exact congrArg Host.Outcome.next hk
  · rw [show (s.mapStreams (raiseAll sids)).streams.find? _ = _ from find_raiseAll sids s.streams x] at hf
    obtain ⟨g, hg, rfl⟩ := Option.map_eq_some_iff.1 hf
    rw [raiseAll_retiring] at hr
    exact hstop x hx g hg hr

/-! ### A pre-emption that times out (R119) -/

/-- The stream whose turn it is answers to its SID. -/
theorem onStream_front {s : State} {sid : BitVec 16} (hrun : s.front.status = .running) (hsid : s.front.sid = sid) (f : State → State) :
    s.onStream sid f = f s := if_pos ⟨by rw [hrun]; nofun, hsid⟩

theorem exec_pretmoExpiry {s : State} {sid : BitVec 16} (hrun : s.front.status = .running) (hsid : s.front.sid = sid) :
    exec (.pretmoExpiry sid) s = .next (
      if s.front.preempt ∧ s.front.status = .running ∧ !doomed s s.front ∧ !s.front.heldBack then
        (({ s with front := { s.front with preempt := false, ppre := false } } : State).event 9 (dieOf s.front) [sid.toNat]).numbered
      else s) := congrArg Host.Outcome.next (onStream_front hrun hsid _)

/-- The stream runs on, and the withdrawal takes a number. -/
theorem exec_pretmoExpiry_withdraws {s : State} {sid : BitVec 16} (hrun : s.front.status = .running) (hsid : s.front.sid = sid)
    (hp : s.front.preempt = true) (hd : doomed s s.front = false) (hb : s.front.heldBack = false) :
    ∃ t, exec (.pretmoExpiry sid) s = .next t ∧
        t.front = { s.front with preempt := false, ppre := false } ∧ t.fronts = s.fronts ∧ t.epoch = s.epoch + 1 ∧
        (s.regs.evEn = false → t.mem = s.mem ∧ t.regs.evLost = if s.regs.evLost = 0xFFFF then 0xFFFF else s.regs.evLost + 1) := by
  let u : State := { s with front := { s.front with preempt := false, ppre := false } }
  have hexec := exec_pretmoExpiry hrun hsid
  rw [if_pos ⟨hp, hrun, by rw [hd]; rfl, by rw [hb]; rfl⟩] at hexec
  let e := u.event 9 (dieOf s.front) [sid.toNat]
  have hfront : e.numbered.front = e.front ∧ e.numbered.fronts = e.fronts ∧ e.numbered.epoch = e.epoch + 1 ∧ e.numbered.mem = e.mem ∧
      e.numbered.regs = e.regs := ⟨rfl, rfl, rfl, rfl, rfl⟩
  obtain ⟨hf, hfs, hep, hm, hr⟩ := hfront
  refine ⟨e.numbered, hexec, hf.trans (event_front ..), hfs.trans (event_fronts ..), ?_, fun hev => ?_⟩
  · rw [hep, show e.epoch = u.epoch from event_epoch ..]
  · have hoff : e = _ := event_off (s := u) hev 9 (dieOf s.front) [sid.toNat]
    rw [hm, hr, hoff]
    exact ⟨rfl, rfl⟩

theorem exec_pretmoExpiry_stays {s : State} {sid : BitVec 16} (hrun : s.front.status = .running) (hsid : s.front.sid = sid)
    (h : s.front.preempt = false ∨ doomed s s.front = true ∨ s.front.heldBack = true) : exec (.pretmoExpiry sid) s = .next s := by
  rw [exec_pretmoExpiry hrun hsid, if_neg]
  rintro ⟨hp, -, hd, hb⟩
  rcases h with h | h | h
  · rw [h] at hp
    cases hp
  · rw [h] at hd
    cases hd
  · rw [h] at hb
    cases hb

/-! ### HOSTINT (R388) -/

/-- An update of one front leaves memory and registers. -/
theorem onStream_frontUpdate (s : State) (sid : BitVec 16) (g : Front → Front) :
    let t := s.onStream sid (fun s => { s with front := g s.front })
    t.mem = s.mem ∧ t.regs = s.regs := by
  dsimp only [State.onStream]
  split
  · exact ⟨rfl, rfl⟩
  · split <;> exact ⟨rfl, rfl⟩

/-- The stream takes HOST with a value. -/
def hosted (x : BitVec 16) (f : Front) : Front := { f with phost := some x }

theorem exec_hostint {s : State} {sid : BitVec 16} (hrun : s.front.status = .running) (hsid : s.front.sid = sid) (v : Word) :
    ∃ t, exec (.hostint v) s = .next t ∧ t.mem = s.mem ∧ t.regs.hostintLow = v.extractLsb' 0 32 ∧
        (v.getLsbD 32 = false → t.front = s.front ∧ t.fronts = s.fronts) ∧
        (v.getLsbD 32 = true → v.extractLsb' 0 16 = sid →
          t.front = { s.front with phost := some (v.extractLsb' 16 16) } ∧ t.fronts = s.fronts) := by
  let u : State := { s with regs := { s.regs with hostintLow := v.extractLsb' 0 32 } }
  let t := u.onStream (v.extractLsb' 0 16) (fun s => { s with front := hosted (v.extractLsb' 16 16) s.front })
  have hexec : exec (.hostint v) s = .next (if v.getLsbD 32 then t else u) := rfl
  cases hv : v.getLsbD 32 with
  | false =>
    rw [hv, if_neg Bool.false_ne_true] at hexec
    exact ⟨u, hexec, rfl, rfl, fun _ => ⟨rfl, rfl⟩, nofun⟩
  | true =>
    rw [hv, if_pos rfl] at hexec
    obtain ⟨hm, hr⟩ := onStream_frontUpdate u (v.extractLsb' 0 16) (hosted (v.extractLsb' 16 16))
    refine ⟨t, hexec, hm, congrArg Regs.hostintLow hr, nofun, fun _ hx => ?_⟩
    have ht : t = { u with front := hosted (v.extractLsb' 16 16) u.front } := onStream_front (s := u) hrun (hsid.trans hx.symm) _
    rw [ht]
    exact ⟨rfl, rfl⟩

/-! ### Time slices (R121) -/

/-- Streams but for their pre-emptions. -/
def unraised (f : Front) : Front := { f with ppre := false, preempt := false }

theorem unraised_raiseAll (sids : List (BitVec 16)) (f : Front) : unraised (raiseAll sids f) = unraised f := by
  rw [raiseAll_frame]
  rfl

/-- `t` is `s` after pre-emptions, whatever a queue holds a block for. -/
def Sliced (s t : State) : Prop := ∃ sids, t.streams = s.streams.map (raiseAll sids) ∧ t.mem = s.mem ∧ t.launches = s.launches

theorem Sliced.refl (s : State) : Sliced s s := ⟨[], (congrArg State.streams (mapStreams_raiseAll_nil s)).symm, rfl, rfl⟩

theorem sliced_victims (s : State) (vs : List Front) : Sliced s (vs.foldl (fun s g => raisePreempt s g.sid) s) :=
  ⟨vs.map (·.sid), by rw [raise_victims]; rfl, by rw [raise_victims]; rfl, by rw [raise_victims]; rfl⟩

theorem sliced_timeSlice (s : State) : Sliced s (timeSlice s) := by
  unfold timeSlice
  dsimp only
  split
  · exact .refl s
  · split
    · split
      · exact sliced_victims ..
      · exact .refl s
    · split
      · exact .refl s
      · split
        · exact .refl s
        · split
          · exact sliced_victims (s.setLq ..) _
          · exact .refl s

theorem waitingRecs_nil {s : State} (h : ∀ p, queueOpen s p = true → (s.lq p).taken = none) : waitingRecs s = [] := by
  refine List.filterMap_eq_nil_iff.2 fun q _ => ?_
  split
  · rename_i hq
    rw [h q hq]
    rfl
  · rfl

/-- The maximum of a list that holds it. -/
theorem foldl_max_eq {l : List Nat} {p : Nat} (hp : p ∈ l) (hmax : ∀ x ∈ l, x ≤ p) : l.foldl max 0 = p := by
  have h := List.max?_eq_some_iff.2 ⟨hp, hmax⟩
  cases l with
  | nil => cases hp
  | cons x l =>
    rw [List.max?_cons'] at h
    rw [List.foldl_cons, Nat.zero_max]
    exact Option.some.inj h

/-- What a rotation for the first stream that is away pre-empts. -/
theorem timeSlice_eq {s : State} {f : Front} {vs : List Front} (hf : (runList s).find? (fun g => g.csr.prio.toNat == f.csr.prio.toNat) = some f)
    (hmax : ∀ g ∈ runList s, g.csr.prio.toNat ≤ f.csr.prio.toNat) (hw : ∀ p, queueOpen s p = true → (s.lq p).taken = none)
    (hrs : ∀ g ∈ s.running, f.csr.prio.toNat ≤ g.csr.prio.toNat) (heq : ∃ g ∈ s.running, g.csr.prio.toNat = f.csr.prio.toNat)
    (hvs : sliceVictims s f (s.running.filter (fun g => !g.preempt)) []
          ((sortBy sliceBefore (s.running.filter (fun g => g.csr.prio.toNat == f.csr.prio.toNat && !spared g && !g.preempt))).filter
            (fun g => (blockCells f.domBase.toNat f.domLog.toNat).any (covers g))) = some vs) :
    timeSlice s = s.mapStreams (raiseAll (vs.map (·.sid))) := by
  have hmem := List.mem_of_find?_eq_some hf
  have hp : ((runList s).map (fun f => f.csr.prio.toNat) ++ (waitingRecs s).map (fun w => takenPrio w.2)).foldl max 0 = f.csr.prio.toNat := by
    rw [waitingRecs_nil hw, List.map_nil, List.append_nil]
    refine foldl_max_eq (List.mem_map_of_mem hmem) fun x hx => ?_
    obtain ⟨g, hg, rfl⟩ := List.mem_map.1 hx
    exact hmax g hg
  unfold timeSlice
  dsimp only
  rw [hp, if_neg, hf]
  · dsimp only
    rw [hvs]
    exact raise_victims vs s
  · obtain ⟨g, hg, hgp⟩ := heq
    have hprios : ((runList s).map (fun f => f.csr.prio.toNat) ++ (waitingRecs s).map (fun w => takenPrio w.2)).isEmpty = false :=
      List.isEmpty_eq_false_iff_exists_mem.2 ⟨_, List.mem_append_left _ (List.mem_map_of_mem hmem)⟩
    have hnone : s.running.isEmpty = false := List.isEmpty_eq_false_iff_exists_mem.2 ⟨g, hg⟩
    have hlow : s.running.any (fun g => decide (g.csr.prio.toNat < f.csr.prio.toNat)) = false :=
      List.any_eq_false.2 fun x hx => by simpa using hrs x hx
    have hsame : s.running.any (fun g => g.csr.prio.toNat == f.csr.prio.toNat) = true := List.any_eq_true.2 ⟨g, hg, beq_iff_eq.2 hgp⟩
    rw [hprios, hnone, hlow, hsame]
    exact Bool.false_ne_true

theorem exec_timeSlice {s : State} (h : s.regs.ready = true) : exec .timeSlice s = .next (timeSlice s) := congrArg Host.Outcome.next (if_pos h)

theorem exec_timeSlice_spec {s : State} (h : s.regs.ready = true) : ∃ t, exec .timeSlice s = .next t ∧ t.mem = s.mem ∧ t.launches = s.launches ∧
      t.streams.map unraised = s.streams.map unraised ∧
      ∀ f, (runList s).find? (fun g => g.csr.prio.toNat == f.csr.prio.toNat) = some f →
        (∀ g ∈ runList s, g.csr.prio.toNat ≤ f.csr.prio.toNat) → (∀ p, queueOpen s p = true → (s.lq p).taken = none) →
        (∀ g ∈ s.running, f.csr.prio.toNat ≤ g.csr.prio.toNat) → (∃ g ∈ s.running, g.csr.prio.toNat = f.csr.prio.toNat) →
        ∀ vs, sliceVictims s f (s.running.filter (fun g => !g.preempt)) []
          ((sortBy sliceBefore (s.running.filter (fun g => g.csr.prio.toNat == f.csr.prio.toNat && !spared g && !g.preempt))).filter
            (fun g => (blockCells f.domBase.toNat f.domLog.toNat).any (covers g))) = some vs →
        ∀ g ∈ vs, ∀ h ∈ t.streams, h.sid = g.sid → h.status = .running → h.retiring = false → h.preempt = true := by
  obtain ⟨sids, hstreams, hmem, hl⟩ := sliced_timeSlice s
  refine ⟨timeSlice s, exec_timeSlice h, hmem, hl, ?_, fun f hf hmax hw hrs heq vs hvs g hg x hx hsid hrun hret => ?_⟩
  · have hcomp : unraised ∘ raiseAll sids = unraised := funext (unraised_raiseAll sids)
    rw [hstreams, List.map_map, hcomp]
  · rw [timeSlice_eq hf hmax hw hrs heq hvs] at hx
    obtain ⟨y, hy, rfl⟩ : ∃ y ∈ s.streams, raiseAll (vs.map (·.sid)) y = x := List.mem_map.1 hx
    rw [raiseAll_sid] at hsid
    rw [raiseAll_status] at hrun
    rw [raiseAll_retiring] at hret
    exact raiseAll_preempt ⟨hrun, hsid ▸ List.mem_map_of_mem hg, hret⟩

/-! ### The reset of a die (R398, R426) -/

theorem die_setDie (s : State) (k : Nat) (d : Die) : (s.setDie k d).die k = d := by
  rw [State.die, State.setDie, get_set]
  exact if_pos (by rw [Fin.ofNat_eq_cast, Fin.val_natCast])

/-- A link that a die's reset leaves its key ends elsewhere. -/
theorem mem_eraseKeys {s : State} {k : Nat} : ∀ l ∈ (eraseKeys s k).links, if dirKind l.dir = 0 then endDie (dirSrc l.dir) ≠ k ∧ endDie (dirDst l.dir) ≠ k
    else dirDst l.dir / 32 ≠ k := by
  intro l hl
  have hn := (List.mem_filter.1 hl).2
  by_cases hd : dirKind l.dir = 0
  · rw [if_pos hd] at hn ⊢
    simpa using hn
  · rw [if_neg hd] at hn ⊢
    simpa using hn

theorem exec_dieReset_none {s : State} {die : BitVec 5} (h : 26 ≤ die.toNat ∨ (s.die die.toNat).state ≠ 2) : exec (.dieReset die) s = .next s :=
  congrArg Host.Outcome.next (if_pos h)

/-- The last steps of a reset: the translations of the die's agents and the keys of its links go, and STATE is 4. -/
theorem resetDie_ends {s : State} {k : Nat} (h : ¬ (26 ≤ k ∨ (s.die k).state ≠ 2)) : ∃ (u v : State) (d : Die),
    resetDie s k = v.setDie k { d with state := 4 } ∧ v.links = (eraseKeys u k).links ∧ v.tlb = u.tlb.filter (fun e => agentDie e.agent != some k) := by
  unfold resetDie
  extract_lets s1 s2 s3 s4 s5 regs s6
  have h6 : s6.links = s5.links ∧ s6.tlb = s5.tlb := by
    subst s6
    split <;> exact ⟨rfl, rfl⟩
  exact ⟨s4, s6, s6.die k, if_neg h, h6.1, h6.2⟩

theorem exec_dieReset {s : State} {die : BitVec 5} (hd : die.toNat < 26) (hs : (s.die die.toNat).state = 2) :
    ∃ t, exec (.dieReset die) s = .next t ∧ (t.die die.toNat).state = 4 ∧
      (∀ l ∈ t.links, if dirKind l.dir = 0 then endDie (dirSrc l.dir) ≠ die.toNat ∧ endDie (dirDst l.dir) ≠ die.toNat
        else dirDst l.dir / 32 ≠ die.toNat) ∧
      (∀ e ∈ t.tlb, agentDie e.agent ≠ some die.toNat) := by
  obtain ⟨u, v, d, hreset, hlinks, htlb⟩ := resetDie_ends (s := s) (k := die.toNat) (by rw [not_or, not_le, not_not]; exact ⟨hd, hs⟩)
  refine ⟨_, congrArg Host.Outcome.next hreset, congrArg Die.state (die_setDie ..), fun l hl => ?_, fun e he => ?_⟩
  · exact mem_eraseKeys l (hlinks ▸ hl)
  · have hf := (List.mem_filter.1 (htlb ▸ he : e ∈ u.tlb.filter (fun e => agentDie e.agent != some die.toNat))).2
    exact bne_iff_ne.1 hf

end Sys2Proof.Proofs
end

section
/-! A queue's record: rejected or placed (R106, R110, R113, R115). -/

namespace Sys2Proof.Proofs

open Sys2Proof Sys2Proof.Machine Sys2Proof.Safety Sys2Proof.Laws

/-! ### Physical addresses (R293) -/

/-- The stacks' remap tables alone redirect. -/
theorem phys_of_stk {s t : State} (h : t.stk = s.stk) : t.phys = s.phys := by
  have hr : ∀ n p, redirectN t n p = redirectN s n p := by
    intro n
    induction n with
    | zero => exact fun _ => rfl
    | succ n ih =>
      intro p
      have hst : t.stack = s.stack := by
        funext k
        rw [State.stack, State.stack, h]
      rw [redirectN, redirectN, hst]
      split
      · exact ih _
      · rfl
  funext k
  rw [State.phys, State.phys, remapped, remapped, hr]

/-! ### A record that is taken (R106) -/

/-- `t` is `s` but for what queue `q` has taken, and for the numbers given. -/
structure Takes (q : BitVec 6) (s t : State) : Prop where
  rest : t = { s with lqueues := t.lqueues, epoch := t.epoch }
  others : ∀ p, p ≠ q → t.lq p = s.lq p
  queue : t.lq q = { s.lq q with taken := (t.lq q).taken }

theorem Takes.refl (q : BitVec 6) (s : State) : Takes q s s := ⟨rfl, fun _ _ => rfl, rfl⟩

theorem takes_setLq (q : BitVec 6) (s : State) (t : Option Taken) : Takes q s (s.setLq q { s.lq q with taken := t }) :=
  ⟨rfl, fun _ h => lq_setLq_other s h _, by rw [lq_setLq_same]⟩

theorem takes_numbered_setLq (q : BitVec 6) (s : State) (t : Option Taken) : Takes q s (s.numbered.setLq q { s.lq q with taken := t }) :=
  ⟨rfl, fun _ h => lq_setLq_other s.numbered h _, by rw [lq_setLq_same]⟩

/-- A queue's record holds the block against the priority, as `heldAgainst` asks it of each queue. -/
def heldBy (s : State) (me : Option (BitVec 6)) (prio b lg : Nat) (q : BitVec 6) : Bool :=
  if me = some q then false
  else match (s.lq q).taken with
    | some t => (match t.hold with
      | some h =>
        let r := recOf t.words
        holdPending s t && blocksMeet b lg h.toNat r.domLog && (prio < r.prio || (t.slice && prio == r.prio))
      | none => false)
    | none => false

theorem heldAgainst_any (s : State) (me : Option (BitVec 6)) (prio b lg : Nat) :
    heldAgainst s me prio b lg = (List.range 64).any (fun i => heldBy s me prio b lg (BitVec.ofNat 6 i)) := rfl

theorem heldBy_of_no_hold {s : State} {q : BitVec 6} (h : ∀ x ∈ (s.lq q).taken, x.hold = none) (me : Option (BitVec 6)) (prio b lg : Nat) :
    heldBy s me prio b lg q = false := by
  unfold heldBy
  split
  · rfl
  · split
    · rename_i x hx
      rw [h x hx]
    · rfl

section
variable {q : BitVec 6} {s t : State} (h : Takes q s t)
include h

theorem Takes.streams_eq : t.streams = s.streams := by rw [h.rest]; rfl

theorem Takes.running_eq : t.running = s.running := by rw [State.running, h.streams_eq]; rfl

theorem Takes.runList_eq : runList t = runList s := by rw [runList, h.streams_eq]; rfl

theorem Takes.cellOk_eq (c : Nat) : cellOk t c = cellOk s c := by rw [h.rest]; rfl

theorem Takes.cellFree_eq (c : Nat) : cellFree t c = cellFree s c := by rw [h.rest]; rfl

theorem Takes.fits_eq (rs : List Front) (n p b lg : Nat) : fits t rs n p b lg = fits s rs n p b lg := by rw [h.rest]; rfl

theorem Takes.mem_eq : t.mem = s.mem := by rw [h.rest]

theorem Takes.stk_eq : t.stk = s.stk := by rw [h.rest]

theorem Takes.phys_eq : t.phys = s.phys := phys_of_stk h.stk_eq

theorem Takes.num_eq : t.num = s.num := by
  funext k n
  rw [State.num, State.num, h.mem_eq, h.phys_eq]

theorem Takes.mapsOf_eq (r : LRec) (cls : Bool) : mapsOf t r cls = mapsOf s r cls := by
  unfold mapsOf mapEntry
  rw [h.num_eq]

theorem Takes.lowestSid_eq (n : Nat) : lowestSid t n = lowestSid s n := by
  delta lowestSid
  rw [h.streams_eq]

theorem Takes.holdPending_eq (x : Taken) : holdPending t x = holdPending s x := by
  rw [holdPending, h.running_eq]
  rfl

/-- Blocks are held as before, where the queue holds none for its record. -/
theorem Takes.heldAgainst_eq (me : Option (BitVec 6)) (hq : me = some q ∨ (∀ x ∈ (s.lq q).taken, x.hold = none) ∧ ∀ x ∈ (t.lq q).taken, x.hold = none)
    (prio b lg : Nat) : heldAgainst t me prio b lg = heldAgainst s me prio b lg := by
  have hpend : holdPending t = holdPending s := funext h.holdPending_eq
  rw [heldAgainst_any, heldAgainst_any]
  refine congrArg (List.any (List.range 64)) (funext fun i => ?_)
  by_cases hi : BitVec.ofNat 6 i = q
  · rw [hi]
    rcases hq with hme | ⟨hs, ht⟩
    · rw [heldBy, heldBy, if_pos hme, if_pos hme]
    · rw [heldBy_of_no_hold hs, heldBy_of_no_hold ht]
  · rw [heldBy, heldBy, h.others _ hi, hpend]

theorem Takes.resumeAt_eq (hq : (∀ x ∈ (s.lq q).taken, x.hold = none) ∧ ∀ x ∈ (t.lq q).taken, x.hold = none) (f : Front) (rs : List Front) :
    resumeAt t f rs = resumeAt s f rs := by
  have hfree : cellFree t = cellFree s := funext h.cellFree_eq
  unfold resumeAt
  dsimp only
  rw [h.heldAgainst_eq none (.inr hq), hfree]

theorem Takes.chooseBlock_eq (r : LRec) (rs : List Front) : chooseBlock t (some q) r rs = chooseBlock s (some q) r rs := by
  have hheld (prio b lg : Nat) := h.heldAgainst_eq (some q) (.inl rfl) prio b lg
  have hfits (n p b lg : Nat) := h.fits_eq rs n p b lg
  unfold chooseBlock
  simp only [hheld, hfits]

end

/-! ### The end of a record (R106, R110) -/

/-- A number written as a word takes its low 64 bits. -/
theorem wordBytes_ofNat (v : Nat) : wordBytes 8 (BitVec.ofNat 64 v).toNat = wordBytes 8 v := by
  refine List.map_congr_left fun i hi => BitVec.eq_of_getLsbD_eq fun j hj => ?_
  have hi8 := List.mem_range.1 hi
  have hij : 8 * i + j < 64 := by omega
  rw [BitVec.toNat_ofNat, BitVec.getLsbD_ofNat, BitVec.getLsbD_ofNat, Nat.testBit_shiftRight, Nat.testBit_shiftRight, Nat.testBit_mod_two_pow,
    decide_eq_true hij, Bool.true_and]

theorem putNum_ofNat (s : State) (k v : Nat) : (s.putNum k 8 (BitVec.ofNat 64 v).toNat).mem = (s.putNum k 8 v).mem := by
  rw [putNum_mem, putNum_mem, Memory.putNum, Memory.putNum, wordBytes_ofNat]

theorem putLstat_mem (s : State) (q : BitVec 6) (k : Key) (v : Word) : (putLstat s q k v).mem = (s.putNum k 8 v.toNat).mem := by
  have hsig (t : State) (x : BitVec 11) : (t.signal x).mem = t.mem := by
    unfold State.signal
    split <;> rfl
  unfold putLstat
  dsimp only
  split
  · exact hsig ..
  · rfl

/-- The queue goes on, LSTAT written; nothing else that the distributor keeps changes. -/
theorem finishRecord_spec (s : State) (q : BitVec 6) (v : Nat) :
    let t := finishRecord s q v
    t.mem = (s.putNum (headKey (s.lq q) + 56) 8 v).mem ∧ t.lq q = { s.lq q with head := (s.lq q).head + 1, taken := none } ∧ t.front = s.front ∧
      t.fronts = s.fronts ∧ t.epoch = s.epoch ∧ t.nextDom = s.nextDom := by
  let u := putLstat s q (headKey (s.lq q) + 56) (BitVec.ofNat 64 v)
  have hu : u.front = s.front ∧ u.fronts = s.fronts ∧ u.epoch = s.epoch ∧ u.nextDom = s.nextDom := by
    rw [show u = _ from (written_putLstat s q (headKey (s.lq q) + 56) (BitVec.ofNat 64 v)).rest]
    exact ⟨rfl, rfl, rfl, rfl⟩
  exact ⟨(putLstat_mem ..).trans (putNum_ofNat ..), lq_setLq_same .., hu⟩

/-! ### A placement (R113, R115) -/

/-- The streams of a record, on the block's free sequencers. -/
def newStreams (s : State) (q : BitVec 6) (maps : List OwnMap) (r : LRec) (b sid0 : Nat) (ps : List Bool) : List Front :=
  (List.range r.streams).map (fun j =>
    newStream (s.lq q) r maps b sid0 j ((freeSeqs s.running b r.domLog).getD j (0, false)) (if j < r.planes then ps[j]? else none) (s.nextDom + 1)
      s.placements)

theorem place_unlogged {s : State} {r : LRec} (hg : r.gvalid = false) (hl : r.logMode = 0) (q : BitVec 6) (maps : List OwnMap) (b sid0 : Nat)
    (ps : List Bool) : ∃ l, place s q maps r none b sid0 ps =
      finishRecord { s with fronts := s.fronts ++ newStreams s q maps r b sid0 ps, launches := l, placements := s.placements + 1, nextDom := s.nextDom + 1 } q
        (1 + at_ 16 sid0 + at_ 32 (s.nextDom + 1).toNat) := by
  unfold place
  dsimp only
  rw [hg, if_neg Bool.false_ne_true, hl, if_neg (by decide)]
  exact ⟨_, rfl⟩

/-- A placement as the streams and the queue show it: the record's streams run, and the queue goes on. -/
def Started (q : BitVec 6) (x : LRec) (maps : List OwnMap) (b sid0 : Nat) (s t : State) : Prop :=
  t.mem = (s.putNum (headKey (s.lq q) + 56) 8 (1 + 2 ^ 16 * sid0 + 2 ^ 32 * (s.nextDom + 1).toNat)).mem ∧
    (t.lq q).head = (s.lq q).head + 1 ∧ (t.lq q).taken = none ∧ t.nextDom = s.nextDom + 1 ∧ t.front = s.front ∧
    (∀ f ∈ s.fronts, f ∈ t.fronts) ∧
    (∀ j < x.streams, ∃ f ∈ t.fronts, f.status = .running ∧ f.sid = BitVec.ofNat 16 (sid0 + j) ∧ f.pc = BitVec.ofNat 64 x.entry ∧
      f.s.get 1 = BitVec.ofNat 64 x.args ∧ f.s.get 2 = BitVec.ofNat 64 j ∧ f.s.get 3 = BitVec.ofNat 64 x.streams ∧
      f.csr.share = BitVec.ofNat 8 x.share ∧ f.csr.prio = BitVec.ofNat 3 x.prio ∧ f.csr.mode = (s.lq q).supv ∧ f.csr.tvec = (s.lq q).tvec ∧
      f.domBase = BitVec.ofNat 7 b ∧ f.domLog = BitVec.ofNat 3 x.domLog ∧ f.maps = maps ∧ f.asid = (s.lq q).asid ∧ f.root = (s.lq q).root)

theorem newStream_registers (q : LQueue) (r : LRec) (maps : List OwnMap) (b sid0 j : Nat) (at_ : Nat × Bool) (pair : Option Bool) (dom : BitVec 16)
    (now : Nat) :
    let f := newStream q r maps b sid0 j at_ pair dom now
    f.s.get 1 = BitVec.ofNat 64 r.args ∧ f.s.get 2 = BitVec.ofNat 64 j ∧ f.s.get 3 = BitVec.ofNat 64 r.streams := by
  refine ⟨?_, ?_, ?_⟩
  all_goals
    show (((Front.idle.s.set 1 (BitVec.ofNat 64 r.args)).set 2 (BitVec.ofNat 64 j)).set 3 (BitVec.ofNat 64 r.streams)).get _ = _
    simp [get_set]

theorem started_place {q : BitVec 6} {s u : State} (h : Takes q s u) {r : LRec} (hg : r.gvalid = false) (hl : r.logMode = 0) (maps : List OwnMap)
    (b sid0 : Nat) (ps : List Bool) : Started q r maps b sid0 s (place u q maps r none b sid0 ps) := by
  obtain ⟨l, hplace⟩ := place_unlogged (s := u) hg hl q maps b sid0 ps
  let v : State := { u with fronts := u.fronts ++ newStreams u q maps r b sid0 ps, launches := l, placements := u.placements + 1, nextDom := u.nextDom + 1 }
  obtain ⟨hmem, hlq, hf, hfs, -, hdom⟩ := finishRecord_spec v q (1 + at_ 16 sid0 + at_ 32 (u.nextDom + 1).toNat)
  have hnext : u.nextDom = s.nextDom := by rw [h.rest]
  have hlst : 1 + at_ 16 sid0 + at_ 32 (u.nextDom + 1).toNat = 1 + 2 ^ 16 * sid0 + 2 ^ 32 * (s.nextDom + 1).toNat := by
    rw [hnext, at_, at_, Nat.mul_comm sid0, Nat.mul_comm (BitVec.toNat _)]
  have hkey : headKey (v.lq q) = headKey (s.lq q) := by
    show headKey (u.lq q) = _
    rw [h.queue]
    rfl
  have hold : v.lq q = { s.lq q with taken := (v.lq q).taken } := h.queue
  rw [hplace]
  refine ⟨?_, ?_, ?_, ?_, ?_, fun f hm => ?_, fun j hj => ?_⟩
  · rw [hmem, hlst, hkey, putNum_mem, putNum_mem]
    rw [phys_of_stk (s := s) (t := v) h.stk_eq, show v.mem = s.mem from h.mem_eq]
  · rw [hlq, hold]
  · rw [hlq]
  · rw [hdom, ← hnext]
  · rw [hf, show v.front = u.front from rfl, h.rest]
  · rw [hfs]
    refine List.mem_append_left _ ?_
    rw [h.rest]
    exact hm
  · obtain ⟨h1, h2, h3⟩ := newStream_registers (u.lq q) r maps b sid0 j ((freeSeqs u.running b r.domLog).getD j (0, false))
      (if j < r.planes then ps[j]? else none) (u.nextDom + 1) u.placements
    rw [hfs]
    refine ⟨_, List.mem_append_right _ (List.mem_map_of_mem (List.mem_range.2 hj)), rfl, rfl, rfl, h1, h2, h3, rfl, rfl, ?_, ?_, rfl, rfl, rfl, ?_, ?_⟩
    all_goals
      rw [h.queue]
      rfl

/-! ### Serving a queue (R106, R113) -/

/-- A placement with a block and SIDs that are free. -/
theorem servePlace_places {s : State} {q : BitVec 6} {r : LRec} {b sid0 : Nat} (hl : r.logMode = 0)
    (hok : ∃ c ∈ blocks r.domLog, (blockCells c r.domLog).all (cellOk s) = true) (hb : chooseBlock s (some q) r s.running = some b)
    (hsid : lowestSid s r.streams = some sid0) (t : Taken) (maps : List OwnMap) (may : Bool) :
    servePlace s q t maps r may = some (place s q maps r none b sid0 (freePairs s.running b r.domLog)) := by
  have hany : (blocks r.domLog).any (fun b => (blockCells b r.domLog).all (cellOk s)) = true := List.any_eq_true.2 hok
  unfold servePlace
  rw [hany, if_neg (by decide), if_neg (fun hc => hc.1 hl), if_neg (fun hc => hc.1 hl), if_pos hl]
  dsimp only
  rw [hb, hsid]

section
variable {s : State} {q : BitVec 6} {t : Taken} {may : Bool}

theorem serveTaken_bad (h : badField (recOf t.words) t.words (s.lq q).pcap.toNat = true) :
    serveTaken s q t may = some (finishRecord s q 18) := if_pos h

theorem serveTaken_placement {maps : List OwnMap} (h : badField (recOf t.words) t.words (s.lq q).pcap.toNat = false)
    (hop : (recOf t.words).op = 0) (hm : mapsOf s (recOf t.words) (s.lq q).cls = some maps) :
    serveTaken s q t may = servePlace s q t maps (recOf t.words) may := by
  unfold serveTaken
  dsimp only
  rw [h, if_neg Bool.false_ne_true, if_pos hop, hm]

end

/-- No stream that is away can be resumed. -/
theorem resumeFirst_none {s : State} {fs : List Front} (h : ∀ f ∈ fs, resumeAt s f s.running = none) : resumeFirst s fs = none := by
  refine List.findSome?_eq_none_iff.2 fun f hf => ?_
  rw [tryResume, h f hf]

/-- The record of a queue whose victims have gone, as it is served (R121). -/
def letGo (t : Taken) : Taken := { t with hold := none, victims := [] }

/-- A record's turn where no stream that is away can be resumed: it is served. -/
theorem recordTurn_serves {s : State} (hfirst : ∀ f ∈ runList s, resumeAt s f s.running = none) (q : BitVec 6) (t : Taken) (may : Bool) :
    recordTurn s q t may = if ripe s t then
        some ((serveTaken (s.setLq q { s.lq q with taken := some (letGo t) }) q (letGo t) may).getD (s.setLq q { s.lq q with taken := some (letGo t) }))
      else serveTaken s q t may := by
  have hnone (p : Front → Bool) : resumeFirst s ((runList s).filter p) = none := resumeFirst_none fun f hf => hfirst f (List.mem_of_mem_filter hf)
  unfold recordTurn
  dsimp only
  rw [hnone]
  rfl

section
variable {s : State} {q : BitVec 6}

theorem queueOpen_of (he : (s.lq q).en = true) (ht : (s.lq q).head ≠ (s.lq q).tail) : queueOpen s q = true := by
  rw [queueOpen, he, bne_iff_ne.2 ht]
  rfl

/-- The record at the head of a queue, as it is read (R106). -/
def headRecord (s : State) (q : BitVec 6) : Taken :=
  { words := (List.range 8).map (fun i => s.num (headKey (s.lq q) + 8 * i) 8), epoch := s.epoch + 1, hold := none, victims := [], slice := false }

/-- The state in which the record at the head has been taken. -/
def headTaken (s : State) (q : BitVec 6) : State := s.numbered.setLq q { s.lq q with taken := some (headRecord s q) }

theorem takeHead_none (h : (s.lq q).taken = none) : takeHead s q = (headTaken s q, headRecord s q) := by
  unfold takeHead
  rw [h]
  rfl

theorem takes_headTaken (s : State) (q : BitVec 6) : Takes q s (headTaken s q) := takes_numbered_setLq q s _

/-- A queue's turn at a record that is not yet taken, where no stream that is away can be resumed. -/
theorem exec_launchRecord {u : State} (hr : s.regs.ready = true) (hopen : queueOpen s q = true) (hn : (s.lq q).taken = none)
    (hfirst : ∀ f ∈ runList s, resumeAt s f s.running = none) (hserve : serveTaken (headTaken s q) q (headRecord s q) true = some u) :
    ∃ i, exec (.launchRecord q) s = .next { u with queueTurn := i } := by
  have htakes := takes_headTaken s q
  have hhold : (∀ x ∈ (s.lq q).taken, x.hold = none) ∧ ∀ x ∈ ((headTaken s q).lq q).taken, x.hold = none := by
    rw [hn, headTaken, lq_setLq_same]
    exact ⟨nofun, fun x hx => by rw [← Option.mem_some_iff.1 hx]; rfl⟩
  have hfirst' : ∀ f ∈ runList (headTaken s q), resumeAt (headTaken s q) f (headTaken s q).running = none := by
    rw [htakes.runList_eq, htakes.running_eq]
    exact fun f hf => (htakes.resumeAt_eq hhold f _).trans (hfirst f hf)
  have hturn : recordTurn (headTaken s q) q (headRecord s q) true = some u := by
    rw [recordTurn_serves hfirst', if_neg (by rw [ripe]; nofun), hserve]
  have hserved : ∃ i, queueServed s q = some { u with queueTurn := i } := by
    rw [queueServed, if_pos hopen, takeHead_none hn]
    dsimp only
    rw [hturn]
    exact ⟨_, rfl⟩
  obtain ⟨i, hi⟩ := hserved
  refine ⟨i, congrArg Host.Outcome.next ((if_pos hr).trans ?_)⟩
  rw [hi]
  rfl

/-- A record with a bad field is answered BADFIELD, with a number of its own (R110, R114). -/
theorem exec_launchRecord_bad (hr : s.regs.ready = true) (hopen : queueOpen s q = true) (hn : (s.lq q).taken = none)
    (hfirst : ∀ f ∈ runList s, resumeAt s f s.running = none)
    (hbad : badField (recOf (headRecord s q).words) (headRecord s q).words (s.lq q).pcap.toNat = true) :
    ∃ t, exec (.launchRecord q) s = .next t ∧ t.mem = (s.putNum (headKey (s.lq q) + 56) 8 18).mem ∧
      (t.lq q).head = (s.lq q).head + 1 ∧ t.front = s.front ∧ t.fronts = s.fronts ∧ t.epoch = s.epoch + 1 := by
  have hlq : (headTaken s q).lq q = { s.lq q with taken := some (headRecord s q) } := lq_setLq_same ..
  have hserve := serveTaken_bad (s := headTaken s q) (q := q) (t := headRecord s q) (may := true) (by rw [hlq]; exact hbad)
  obtain ⟨i, hexec⟩ := exec_launchRecord hr hopen hn hfirst hserve
  obtain ⟨hmem, hq, hf, hfs, hep, -⟩ := finishRecord_spec (headTaken s q) q 18
  have hkey : headKey ((headTaken s q).lq q) = headKey (s.lq q) := by
    rw [hlq]
    rfl
  refine ⟨_, hexec, ?_, ?_, hf, hfs, hep⟩
  · show (finishRecord (headTaken s q) q 18).mem = _
    rw [hmem, hkey, putNum_mem, putNum_mem, (takes_headTaken s q).phys_eq, (takes_headTaken s q).mem_eq]
  · show ((finishRecord (headTaken s q) q 18).lq q).head = _
    rw [hq, hlq]

/-- What a record needs to be placed where no stream that is away can be resumed: its maps, a block and SIDs (R110, R113). -/
structure Placeable (s : State) (q : BitVec 6) (x : LRec) (maps : List OwnMap) (b sid0 : Nat) : Prop where
  op : x.op = 0
  unlogged : x.logMode = 0
  ungrouped : x.gvalid = false
  first : ∀ f ∈ runList s, resumeAt s f s.running = none
  maps : mapsOf s x (s.lq q).cls = some maps
  inService : ∃ c ∈ blocks x.domLog, (blockCells c x.domLog).all (cellOk s) = true
  block : chooseBlock s (some q) x s.running = some b
  sids : lowestSid s x.streams = some sid0

/-- A record starts its streams when it is served, whatever was noted of it before. -/
theorem serveTaken_of_placeable {u : State} (h : Takes q s u) {t : Taken} {maps : List OwnMap} {b sid0 : Nat}
    (hgood : badField (recOf t.words) t.words (s.lq q).pcap.toNat = false) (hp : Placeable s q (recOf t.words) maps b sid0) (may : Bool) :
    ∃ v, serveTaken u q t may = some v ∧ Started q (recOf t.words) maps b sid0 s v := by
  obtain ⟨hop, hl, hg, -, hm, hok, hb, hsid⟩ := hp
  have hpcap : (u.lq q).pcap = (s.lq q).pcap ∧ (u.lq q).cls = (s.lq q).cls := by
    rw [h.queue]
    exact ⟨rfl, rfl⟩
  have hcell : cellOk u = cellOk s := funext h.cellOk_eq
  refine ⟨_, ?_, started_place h hg hl maps b sid0 (freePairs u.running b (recOf t.words).domLog)⟩
  rw [serveTaken_placement (by rw [hpcap.1]; exact hgood) hop (by rw [hpcap.2, h.mapsOf_eq]; exact hm)]
  refine servePlace_places hl (by rw [hcell]; exact hok) ?_ (by rw [h.lowestSid_eq]; exact hsid) t maps may
  rw [h.running_eq, h.chooseBlock_eq]
  exact hb

theorem exec_launchRecord_starts {maps : List OwnMap} {b sid0 : Nat} (hr : s.regs.ready = true) (hopen : queueOpen s q = true)
    (hn : (s.lq q).taken = none)
    (hgood : badField (recOf (headRecord s q).words) (headRecord s q).words (s.lq q).pcap.toNat = false)
    (hp : Placeable s q (recOf (headRecord s q).words) maps b sid0) :
    ∃ t, exec (.launchRecord q) s = .next t ∧ Started q (recOf (headRecord s q).words) maps b sid0 s t := by
  obtain ⟨v, hserve, hstart⟩ := serveTaken_of_placeable (takes_headTaken s q) hgood hp true
  obtain ⟨i, hexec⟩ := exec_launchRecord hr hopen hn hp.first hserve
  exact ⟨_, hexec, hstart⟩

theorem exec_placeLaunch {y : Taken} (hr : s.regs.ready = true) (hopen : queueOpen s q = true) (hy : (s.lq q).taken = some y)
    (hop : (recOf y.words).op = 0) : exec (.placeLaunch q) s = .next ((recordTurn s q y false).getD s) := by
  have htake : takeHead s q = (s, y) := by
    unfold takeHead
    rw [hy]
  have hc : (s.regs.ready && queueOpen s q && (recOf y.words).op == 0) = true := by
    rw [hr, hopen, hop]
    rfl
  show execPlaceLaunch q s = _
  unfold execPlaceLaunch
  rw [hy]
  dsimp only
  rw [htake]
  exact congrArg Host.Outcome.next (if_pos hc)

/-- A record that waits is placed once it has a block, whether or not its victims have just gone (R113, R121). -/
theorem exec_placeLaunch_starts {y : Taken} {maps : List OwnMap} {b sid0 : Nat} (hr : s.regs.ready = true) (hopen : queueOpen s q = true)
    (hy : (s.lq q).taken = some y) (hgood : badField (recOf y.words) y.words (s.lq q).pcap.toNat = false)
    (hp : Placeable s q (recOf y.words) maps b sid0) :
    ∃ t, exec (.placeLaunch q) s = .next t ∧ Started q (recOf y.words) maps b sid0 s t := by
  rw [exec_placeLaunch hr hopen hy hp.op, recordTurn_serves hp.first]
  by_cases hripe : ripe s y = true
  · obtain ⟨v, hserve, hstart⟩ := serveTaken_of_placeable (t := letGo y) (takes_setLq q s (some (letGo y))) hgood hp false
    rw [if_pos hripe, hserve]
    exact ⟨v, rfl, hstart⟩
  · obtain ⟨v, hserve, hstart⟩ := serveTaken_of_placeable (.refl q s) hgood hp false
    rw [if_neg hripe, hserve]
    exact ⟨v, rfl, hstart⟩

/-- Before READY the distributor does nothing. -/
theorem exec_distributor_unready (h : s.regs.ready = false) :
    exec (.launchRecord q) s = .next s ∧ exec (.placeLaunch q) s = .next s ∧ exec .timeSlice s = .next s := by
  have hn : ¬ s.regs.ready = true := by rw [h]; nofun
  refine ⟨congrArg Host.Outcome.next (if_neg hn), ?_, congrArg Host.Outcome.next (if_neg hn)⟩
  show execPlaceLaunch q s = _
  unfold execPlaceLaunch
  split
  · rfl
  · rw [h]
    rfl

end

end Sys2Proof.Proofs
end

section
/-! A stream that is away is resumed from its image (R397). -/

namespace Sys2Proof.Proofs

open Sys2Proof Sys2Proof.Machine Sys2Proof.Safety Sys2Proof.Laws

/-! ### The stream whose turn it is, but for its control registers -/

/-- `t` has the streams of `s`, where control registers of the one whose turn it is may differ. -/
def SameStreams (s t : State) : Prop := t.front = { s.front with csr := t.front.csr } ∧ t.fronts = s.fronts

theorem SameStreams.refl (s : State) : SameStreams s s := ⟨rfl, rfl⟩

theorem SameStreams.trans {s t u : State} (h : SameStreams s t) (h' : SameStreams t u) : SameStreams s u := by
  obtain ⟨hf, hfs⟩ := h
  obtain ⟨hf', hfs'⟩ := h'
  refine ⟨?_, hfs'.trans hfs⟩
  rw [hf', hf]

theorem SameStreams.foldl {α : Type} {f : State → α → State} (hf : ∀ s a, SameStreams s (f s a)) (l : List α) (s : State) :
    SameStreams s (l.foldl f s) := by
  induction l generalizing s with
  | nil => exact .refl s
  | cons a l ih => exact (hf s a).trans (ih _)

theorem sameStreams_of_eq {s t : State} (hf : t.front = s.front) (hfs : t.fronts = s.fronts) : SameStreams s t := by
  refine ⟨?_, hfs⟩
  rw [hf]

theorem Walked.sameStreams {s t : State} (h : Walked s t) : SameStreams s t := sameStreams_of_eq h.front (by rw [h])

/-- The pages of an image are found by walks (R381). -/
theorem keepsWalked_imagePages {s0 : State} {p : Perm} : KeepsM (Walked s0) (imagePages p) := by
  unfold imagePages
  refine .bind keepsM_get fun s => ?_
  extract_lets page a
  have hpage (va : Nat) : KeepsM (Walked s0) (page va) :=
    .bind keepsWalked_xlate fun _ => .bind (keepsM_need _ _) fun _ => .bind keepsWalked_keysM fun _ => keepsM_pure _
  exact .bind (hpage _) fun _ => .bind (hpage _) fun _ => keepsM_pure _

/-- So the device's read of an image changes no stream but the registers it restores. -/
theorem keepsSameStreams_imagePages {s0 : State} {p : Perm} : KeepsM (SameStreams s0) (asSupervisor (imagePages p)) := by
  have hpages : KeepsM (SameStreams s0) (captured (imagePages p)) := fun s hs =>
    SameStreams.trans hs (Walked.sameStreams (keepsWalked_imagePages (s0 := s) (p := p) s (.refl s)))
  have hmode (f : Csrs → Csrs) : KeepsM (SameStreams s0) (modify (fun s => s.mapCsr f)) :=
    keepsM_modify fun s hs => SameStreams.trans hs ⟨rfl, rfl⟩
  unfold asSupervisor
  refine .bind keepsM_get fun s => .bind (hmode _) fun _ => .bind hpages fun r => .bind (hmode _) fun _ => ?_
  split
  · exact keepsM_pure _
  · exact keepsM_throw _

/-! ### The steps of a resumption (R397) -/

theorem sameStreams_write (s : State) (k n v : Nat) : SameStreams s (s.write k n v) :=
  (walked_write s k n v).sameStreams

theorem sameStreams_discardPage (s : State) (va : Nat) : SameStreams s (discardPage s va) := by
  unfold discardPage
  split
  · exact .refl s
  · exact ⟨by rw [State.mapCsr, notedIn_front], notedIn_fronts ..⟩

theorem sameStreams_dropPages (s : State) (ks : Key × Key) : SameStreams s (dropPages s ks) :=
  (SameStreams.foldl sameStreams_discardPage ..).trans (sameStreams_write ..)

/-- A stream as it starts again on a sequencer. -/
def resumedOn (f : Front) (cell : BitVec 7) (seq : Bool) (now : Nat) : Front :=
  { f with
    status := .running, cell := cell, seq := seq, icache := [], progress := [], heldToks := [], resumed := true, byDevice := false
    planes := { f.planes with actSt := invalidate f.planes.actSt, shdSt := invalidate f.planes.shdSt }
    placedAt := now
    stalls := [], charges := [] }

theorem startAgain_streams {s : State} (h : s.front.heldToks = []) (cell : BitVec 7) (seq : Bool) :
    ∃ n, (startAgain s cell seq).front = resumedOn s.front cell seq n ∧ (startAgain s cell seq).fronts = s.fronts := by
  have hzero (l : List AccDecl) (s : State) : (l.foldl (fun s a => zeroCopies s a.desc a.len) s).front = s.front ∧
      (l.foldl (fun s a => zeroCopies s a.desc a.len) s).fronts = s.fronts := by
    induction l generalizing s with
    | nil => exact ⟨rfl, rfl⟩
    | cons a l ih =>
      obtain ⟨hf, hfs⟩ := ih (zeroCopies s a.desc a.len)
      exact ⟨hf.trans (notedIn_front ..), hfs.trans (notedIn_fronts ..)⟩
  obtain ⟨hf, hfs⟩ := hzero s.front.decls s
  unfold startAgain
  dsimp only
  rw [h, List.foldl_nil, hf]
  exact ⟨_, rfl, hfs⟩

/-- What the device has of the stream besides its image: nothing was kept for it, held back from it, or logged. -/
structure Plain (f : Front) : Prop where
  byDevice : f.byDevice = false
  pdie : f.pdie = none
  heldToks : f.heldToks = []
  logMode : f.logMode = 0

/-- A front of which registers alone are restored is as plain. -/
theorem Plain.of_registers {f : Front} (h : Plain f) (regs : Vector Word 64) (w : Vector Desc 32) (pc : Word) (csr : Csrs) (clock : List (Nat × Nat)) :
    Plain { f with s := regs, w := w, pc := pc, csr := csr, clock := clock } := ⟨h.byDevice, h.pdie, h.heldToks, h.logMode⟩

theorem Plain.of_sameStreams {s t : State} (h : Plain s.front) (hs : SameStreams s t) : Plain t.front := by
  rw [hs.1]
  exact h.of_registers s.front.s s.front.w s.front.pc t.front.csr s.front.clock

/-- What an image gives back (R396): the stream's registers and its PC; the other streams stay. -/
theorem readImage_spec (u : State) (ks : Key × Key) :
    (readImage u ks).front.pc = BitVec.ofNat 64 (u.mem.num (imageKey ks 0x200) 8) &&& ~~~7 ∧
      (∀ x : SReg, x ≠ 0 → (readImage u ks).front.s.get x.toFin = BitVec.ofNat 64 (u.mem.num (imageKey ks (8 * x.toNat)) 8)) ∧
      (readImage u ks).fronts = u.fronts ∧ (Plain u.front → Plain (readImage u ks).front) := by
  refine ⟨rfl, fun x hx => ?_, by dsimp only [readImage], fun h => ?_⟩
  · have hx0 : x.toFin.val ≠ 0 := fun h => hx (BitVec.eq_of_toNat_eq h)
    show (Vector.ofFn (fun (r : Fin 64) => if r.val = 0 then 0 else BitVec.ofNat 64 (u.mem.num (imageKey ks (8 * r.val)) 8))).get x.toFin = _
    rw [Vector.get_eq_getElem, Vector.getElem_ofFn]
    exact if_neg hx0
  · dsimp only [readImage]
    exact h.of_registers ..

/-- Steps 2 and 3 of a resumption: the drop list, and the strip registers and windows. -/
def cleared (r : State) (ks : Key × Key) : State := clearWindows (dropPages r ks)

theorem clearWindows_spec (d : State) : (clearWindows d).front = { d.front with csr := (clearWindows d).front.csr, w := Vector.replicate 32 0 } ∧
    (clearWindows d).fronts = d.fronts ∧ (clearWindows d).front.csr.wpres = 0 ∧ (clearWindows d).front.csr.vl = 0 := ⟨rfl, rfl, rfl, rfl⟩

/-- They leave the scalar registers and the pc, and the other streams. -/
theorem cleared_spec (r : State) (ks : Key × Key) :
    (cleared r ks).front = { r.front with csr := (cleared r ks).front.csr, w := Vector.replicate 32 0 } ∧ (cleared r ks).fronts = r.fronts ∧
      (cleared r ks).front.csr.wpres = 0 ∧ (cleared r ks).front.csr.vl = 0 := by
  obtain ⟨hf, hfs⟩ := sameStreams_dropPages r ks
  obtain ⟨hcf, hcfs, hw, hv⟩ := clearWindows_spec (dropPages r ks)
  refine ⟨?_, hcfs.trans hfs, hw, hv⟩
  rw [cleared, hcf, hf]

theorem plain_cleared {r : State} (h : Plain r.front) (ks : Key × Key) : Plain (cleared r ks).front := by
  rw [(cleared_spec r ks).1]
  exact h.of_registers r.front.s _ r.front.pc _ r.front.clock

/-- A plain stream that starts again meets no late reset and writes no record. -/
theorem lateDieStop_plain {c : State} (h : Plain c.front) (cell : BitVec 7) (seq : Bool) (a b : Nat) :
    lateDieStop (record (startAgain c cell seq) 5 2 (objCtx (startAgain c cell seq).front.logId) a b).numbered = (startAgain c cell seq).numbered := by
  obtain ⟨n, hf, -⟩ := startAgain_streams h.heldToks cell seq
  have hl : (startAgain c cell seq).front.logMode = 0 := by
    rw [hf]
    exact h.logMode
  have hd : (startAgain c cell seq).front.pdie = none := by
    rw [hf]
    exact h.pdie
  have hnum (s : State) : s.numbered.front = s.front := rfl
  rw [record_unlogged hl, lateDieStop, hnum, hd]

/-- The steps of a resumption from a plain stream's image. -/
theorem resumeFront_eq {s u : State} {ks : Key × Key} (hp : Plain s.front) (hexec : M.exec (asSupervisor (imagePages .both)) s = (.ok ks, u))
    (cell : BitVec 7) (seq : Bool) : resumeFront cell seq s = (startAgain (cleared (readImage u ks) ks) cell seq).numbered := by
  have hu : Plain u.front := hp.of_sameStreams (keeps_of_exec keepsSameStreams_imagePages hexec (.refl s))
  have hc := plain_cleared ((readImage_spec u ks).2.2.2 hu) ks
  have hlate := lateDieStop_plain hc cell seq (cell.toNat + at_ 7 (boolNat seq)) (startAgain (cleared (readImage u ks) ks) cell seq).front.csr.tisn.toNat
  unfold resumeFront
  rw [hexec]
  dsimp only
  rw [hu.byDevice, if_neg Bool.false_ne_true, if_neg Bool.false_ne_true]
  rw [← cleared, hlate]

/-- A stream resumed from its image `ks` in memory `m`. -/
structure Resumed (m : Memory) (ks : Key × Key) (cell : BitVec 7) (seq : Bool) (f : Front) : Prop where
  status : f.status = .running
  cell : f.cell = cell
  seq : f.seq = seq
  pc : f.pc = BitVec.ofNat 64 (m.num (imageKey ks 0x200) 8) &&& ~~~7
  regs : ∀ x : SReg, x ≠ 0 → f.s.get x.toFin = BitVec.ofNat 64 (m.num (imageKey ks (8 * x.toNat)) 8)
  windows : f.w = Vector.replicate 32 0
  wpres : f.csr.wpres = 0
  vl : f.csr.vl = 0
  icache : f.icache = []
  resumed : f.resumed = true

theorem resumed_resumedOn {m : Memory} {ks : Key × Key} {f g : Front} {csr : Csrs} (hg : g = { f with csr := csr, w := Vector.replicate 32 0 })
    (hpc : f.pc = BitVec.ofNat 64 (m.num (imageKey ks 0x200) 8) &&& ~~~7)
    (hregs : ∀ x : SReg, x ≠ 0 → f.s.get x.toFin = BitVec.ofNat 64 (m.num (imageKey ks (8 * x.toNat)) 8)) (hw : csr.wpres = 0) (hv : csr.vl = 0)
    (cell : BitVec 7) (seq : Bool) (now : Nat) : Resumed m ks cell seq (resumedOn g cell seq now) := by
  rw [hg]
  exact ⟨rfl, rfl, rfl, hpc, hregs, rfl, hw, hv, rfl, rfl⟩

theorem resumeFront_resumes {s u : State} {ks : Key × Key} (hp : Plain s.front) (hexec : M.exec (asSupervisor (imagePages .both)) s = (.ok ks, u))
    (cell : BitVec 7) (seq : Bool) : Resumed u.mem ks cell seq (resumeFront cell seq s).front ∧ (resumeFront cell seq s).fronts = s.fronts := by
  have hsame : SameStreams s u := keeps_of_exec keepsSameStreams_imagePages hexec (.refl s)
  obtain ⟨hpc, hregs, hfs, hplain⟩ := readImage_spec u ks
  obtain ⟨hcf, hcfs, hw, hv⟩ := cleared_spec (readImage u ks) ks
  obtain ⟨n, haf, hafs⟩ := startAgain_streams (plain_cleared (hplain (hp.of_sameStreams hsame)) ks).heldToks cell seq
  have hnum (s : State) : s.numbered.front = s.front ∧ s.numbered.fronts = s.fronts := ⟨rfl, rfl⟩
  rw [resumeFront_eq hp hexec, (hnum _).1, (hnum _).2, haf, hafs, hcfs, hfs, hsame.2]
  exact ⟨resumed_resumedOn hcf hpc hregs hw hv cell seq n, rfl⟩

/-! ### The distributor's resumption -/

theorem exec_streamResume_none {s : State} {sid : BitVec 16} (h : s.streams.find? (fun f => f.status == .out && f.sid == sid) = none) :
    exec (.streamResume sid) s = .next s := by
  show execStreamResume sid s = _
  rw [execStreamResume, h]

/-- The stream whose turn it is, which is away, takes the free sequencer. -/
theorem exec_streamResume {s u : State} {sid : BitVec 16} {ks : Key × Key} {c : Nat × Bool} (hout : s.front.status = .out) (hsid : s.front.sid = sid)
    (hp : Plain s.front) (hothers : ∀ g ∈ s.fronts, g.sid = sid → g.status ≠ .out) (hc : resumeAt s s.front s.running = some c)
    (hexec : M.exec (asSupervisor (imagePages .both)) s = (.ok ks, u)) :
    exec (.streamResume sid) s = .next (resumeFront (BitVec.ofNat 7 c.1) c.2 s) := by
  let t := resumeFront (BitVec.ofNat 7 c.1) c.2 s
  obtain ⟨hres, hfs⟩ := resumeFront_resumes hp hexec (BitVec.ofNat 7 c.1) c.2
  have hon : s.onStream s.front.sid (resumeFront (BitVec.ofNat 7 c.1) c.2) = t := if_pos ⟨by rw [hout]; nofun, rfl⟩
  have hback : t.streams.any (fun g => g.sid == s.front.sid && g.status == .out) = false := by
    refine List.any_eq_false.2 fun g hg => ?_
    rw [Bool.and_eq_true, beq_iff_eq, beq_iff_eq]
    rintro ⟨hgs, hgo⟩
    rcases List.mem_cons.1 hg with rfl | hg
    · rw [hres.status] at hgo
      cases hgo
    · rw [show t.fronts = s.fronts from hfs] at hg
      exact hothers g hg (hgs.trans hsid) hgo
  have hfind : s.streams.find? (fun f => f.status == .out && f.sid == sid) = some s.front := by
    rw [State.streams, List.find?_cons_of_pos]
    rw [hout, hsid, beq_self_eq_true, beq_self_eq_true]
    rfl
  have htry : tryResume s s.front = some t := by
    unfold tryResume
    dsimp only
    rw [hc, if_pos hp.logMode]
    dsimp only
    rw [hon, hback, if_neg Bool.false_ne_true]
  show execStreamResume sid s = _
  rw [execStreamResume, hfind]
  dsimp only
  rw [htry]
  rfl

end Sys2Proof.Proofs
end

section
/-! The distributor's events (R104 to R122, R388, R397, R398). -/

namespace Sys2Proof.Proofs

open Sys2Proof Sys2Proof.Machine Sys2Proof.Safety Sys2Proof.Laws

/-- Settles O54: the queue registers, a record's turn (rejected or placed), pre-emption and its withdrawal, the rotation of a
time slice, a resumption from the image, HOSTINT and a die's reset, each by a lemma on the event's step. -/
theorem distributorEvents : Obligations.DistributorEvents := by
  unfold Obligations.DistributorEvents
  intro q v32 v sid die s r k spill held first start
  have hchecked (y : LQueue) : y.checked = held y := checked_eq y
  refine ⟨fun h => exec_queue_registers_failed h q v32 v, fun h => ?_, fun h => ?_, exec_distributor_unready, fun hr hen hne => ⟨fun hn => ⟨?_, ?_⟩, ?_⟩,
    exec_terminateLaunch_none, fun l => exec_terminateLaunch, fun hrun hsid => ⟨?_, exec_pretmoExpiry_stays hrun hsid, exec_hostint hrun hsid v⟩,
    exec_timeSlice_spec, exec_streamResume_none, ?_, exec_dieReset_none, exec_dieReset⟩
  · obtain ⟨hothers, hmem, hf, hq⟩ := setLq_spec s q ({ r with tail := v32 } : LQueue).checked
    exact ⟨_, exec_lqtailWrite h q v32, hothers, hmem, hf, hq.trans (hchecked _)⟩
  · obtain ⟨hothers, hmem, hf, hq⟩ := setLq_spec s q (configured r v).checked
    exact ⟨_, exec_lqcfgWrite h q v, hothers, hmem, hf, hq.trans (hchecked _)⟩
  · exact fun hbad hfirst => exec_launchRecord_bad hr (queueOpen_of hen hne) hn hfirst hbad
  · intro hgood b sid0 maps hop hl hg hfirst hm hok hb hsid
    exact exec_launchRecord_starts hr (queueOpen_of hen hne) hn hgood ⟨hop, hl, hg, hfirst, hm, hok, hb, hsid⟩
  · intro y hy hgood b sid0 maps hop hl hg hfirst hm hok hb hsid
    exact exec_placeLaunch_starts hr (queueOpen_of hen hne) hy hgood ⟨hop, hl, hg, hfirst, hm, hok, hb, hsid⟩
  · exact fun hp hd hb => exec_pretmoExpiry_withdraws hrun hsid hp hd hb
  · intro hout hsid hlog hdev hpdie hheld hothers c ks u hc hexec
    have hp : Plain s.front := ⟨hdev, hpdie, hheld, hlog⟩
    have hrd (t : State) (x : SReg) (hx : x ≠ 0) : t.rd x = t.front.s.get x.toFin := if_neg hx
    obtain ⟨hst, hcell, hseq, hpc, hregs, hw, hwp, hv, hic, hres⟩ := (resumeFront_resumes hp hexec (BitVec.ofNat 7 c.1) c.2).1
    refine ⟨_, exec_streamResume hout hsid hp hothers hc hexec, hst, hcell, hseq, hpc, fun x hx => (hrd _ x hx).trans (hregs x hx), fun x => ?_, hwp, hv,
      hic, hres⟩
    rw [State.rdW, hw, Vector.get_eq_getElem, Vector.getElem_replicate]

end Sys2Proof.Proofs
end

section
/-! Words that the manual writes out (R148, R151, R154 to R158). -/

namespace Sys2Proof.Proofs

open Sys2Proof Sys2Proof.Machine

/-- Settles O3: the decoder reads each word, and word 0 whatever follows it. -/
theorem decodesWrittenWords : Obligations.DecodesWrittenWords := by
  unfold Obligations.DecodesWrittenWords
  exact ⟨rfl, rfl, rfl, rfl, rfl, rfl, rfl, fun _ => rfl⟩

end Sys2Proof.Proofs
end

section
/-! Scalar ALU operations as operations on words of their width (R146, R147). -/

namespace Sys2Proof.Proofs

open Sys2Proof Sys2Proof.Machine Sys2Proof.Safety Sys2Proof.Laws

/-! ### Operands and results -/

theorem width_bits_pos (w : Width) : 0 < Width.bits w := by cases w <;> decide

theorem lowN_eq (n : Nat) (a : Word) : lowN n a = (a.setWidth n).toNat := (BitVec.toNat_setWidth ..).symm

theorem lowI_eq {n : Nat} (hn : 0 < n) (a : Word) : lowI n a = (a.setWidth n).toInt := by
  rw [lowI, sextInt_eq_bmod hn, BitVec.toInt_eq_toNat_bmod, BitVec.toNat_setWidth, Int.natCast_mod, Int.emod_bmod]

theorem extendRes_toNat {n : Nat} (hn : 0 < n) (x : BitVec n) : extendRes n x.toNat = x.signExtend 64 := by
  rw [extendRes, sextInt_toNat hn]
  rfl

/-! ### Binary results -/

section
variable {n : Nat} (a b : Word)

theorem resAdd_eq : resAdd n a b = (a.setWidth n + b.setWidth n).toNat := by
  rw [resAdd, lowN_eq, lowN_eq, BitVec.toNat_add]

theorem resSub_eq : resSub n a b = (a.setWidth n - b.setWidth n).toNat := by
  have hb := (b.setWidth n).isLt
  rw [resSub, lowN_eq, lowN_eq, BitVec.toNat_sub]
  congr 1
  omega

theorem resMul_eq : resMul n a b = (a.setWidth n * b.setWidth n).toNat := by
  rw [resMul, lowN_eq, lowN_eq, BitVec.toNat_mul]

/-- The upper half of a number of twice the width. -/
theorem toNat_upper_half (x : BitVec (2 * n)) : (x.extractLsb' n n).toNat = x.toNat / 2 ^ n := by
  have hx : x.toNat < 2 ^ n * 2 ^ n := by rw [← Nat.pow_add, ← Nat.two_mul]; exact x.isLt
  rw [BitVec.extractLsb'_toNat, Nat.shiftRight_eq_div_pow, Nat.mod_eq_of_lt (Nat.div_lt_of_lt_mul hx)]

theorem resMulh_eq (hn : 0 < n) :
    resMulh n a b = (((a.setWidth n).signExtend (2 * n) * (b.setWidth n).signExtend (2 * n)).extractLsb' n n).toNat := by
  rw [resMulh, lowI_eq hn, lowI_eq hn, wrapNat_eq_toNat, BitVec.ofInt_mul, toNat_upper_half]
  rfl

theorem resMulhn_eq : resMulhn n a b = (((a.setWidth n).setWidth (2 * n) * (b.setWidth n).setWidth (2 * n)).extractLsb' n n).toNat := by
  have hlt : (a.setWidth n).toNat * (b.setWidth n).toNat < 2 ^ (2 * n) := by
    rw [Nat.two_mul, Nat.pow_add]
    exact Nat.mul_lt_mul'' (a.setWidth n).isLt (b.setWidth n).isLt
  have hwide (x : BitVec n) : (x.setWidth (2 * n)).toNat = x.toNat := BitVec.toNat_setWidth_of_le (by omega)
  rw [resMulhn, lowN_eq, lowN_eq, toNat_upper_half, BitVec.toNat_mul, hwide, hwide, Nat.mod_eq_of_lt hlt]

theorem toInt_eq_zero_iff (x : BitVec n) : x.toInt = 0 ↔ x = 0 := by
  rw [← BitVec.toInt_inj]
  exact Eq.congr_right BitVec.toInt_zero.symm

theorem toNat_eq_zero_iff (x : BitVec n) : x.toNat = 0 ↔ x = 0 := by
  rw [← BitVec.toNat_inj]
  exact Eq.congr_right BitVec.toNat_zero.symm

theorem resDiv_eq (hn : 0 < n) :
    resDiv n a b = (if b.setWidth n = 0 then BitVec.allOnes n else (a.setWidth n).sdiv (b.setWidth n)).toNat := by
  have hdiv : BitVec.ofInt n ((a.setWidth n).toInt.tdiv (b.setWidth n).toInt) = (a.setWidth n).sdiv (b.setWidth n) :=
    BitVec.eq_of_toInt_eq (by rw [BitVec.toInt_ofInt, BitVec.toInt_sdiv])
  rw [resDiv, lowI_eq hn, lowI_eq hn, wrapNat_eq_toNat, hdiv, apply_ite BitVec.toNat, BitVec.toNat_allOnes]
  exact if_congr (toInt_eq_zero_iff _) rfl rfl

theorem resDivn_eq : resDivn n a b = (if b.setWidth n = 0 then BitVec.allOnes n else a.setWidth n / b.setWidth n).toNat := by
  rw [resDivn, lowN_eq, lowN_eq, apply_ite BitVec.toNat, BitVec.toNat_allOnes, BitVec.toNat_udiv]
  exact if_congr (toNat_eq_zero_iff _) rfl rfl

theorem resRem_eq (hn : 0 < n) :
    resRem n a b = (if b.setWidth n = 0 then a.setWidth n else (a.setWidth n).srem (b.setWidth n)).toNat := by
  have hrem : BitVec.ofInt n ((a.setWidth n).toInt.tmod (b.setWidth n).toInt) = (a.setWidth n).srem (b.setWidth n) := by
    rw [← BitVec.toInt_srem, BitVec.ofInt_toInt]
  rw [resRem, lowI_eq hn, lowI_eq hn, lowN_eq, ← Int.tmod_def, wrapNat_eq_toNat, hrem, apply_ite BitVec.toNat]
  exact if_congr (toInt_eq_zero_iff _) rfl rfl

theorem resRemn_eq : resRemn n a b = (if b.setWidth n = 0 then a.setWidth n else a.setWidth n % b.setWidth n).toNat := by
  rw [resRemn, lowN_eq, lowN_eq, apply_ite BitVec.toNat, BitVec.toNat_umod]
  exact if_congr (toNat_eq_zero_iff _) rfl rfl

theorem resAnd_eq : resAnd n a b = (a.setWidth n &&& b.setWidth n).toNat := by rw [resAnd, lowN_eq, BitVec.setWidth_and]

theorem resOr_eq : resOr n a b = (a.setWidth n ||| b.setWidth n).toNat := by rw [resOr, lowN_eq, BitVec.setWidth_or]

theorem resXor_eq : resXor n a b = (a.setWidth n ^^^ b.setWidth n).toNat := by rw [resXor, lowN_eq, BitVec.setWidth_xor]

theorem resAndn_eq (hn : n ≤ 64) : resAndn n a b = (a.setWidth n &&& ~~~b.setWidth n).toNat := by
  rw [resAndn, lowN_eq, BitVec.setWidth_and, BitVec.setWidth_not hn]

theorem resSll_eq : resSll n a b = (a.setWidth n <<< ((b.setWidth n).toNat % n)).toNat := by
  rw [resSll, lowN_eq, lowN_eq, BitVec.toNat_shiftLeft, Nat.shiftLeft_eq]

theorem resSrl_eq : resSrl n a b = (a.setWidth n >>> ((b.setWidth n).toNat % n)).toNat := by
  rw [resSrl, lowN_eq, lowN_eq, BitVec.toNat_ushiftRight, Nat.shiftRight_eq_div_pow]

theorem resSra_eq (hn : 0 < n) : resSra n a b = ((a.setWidth n).sshiftRight ((b.setWidth n).toNat % n)).toNat := by
  rw [resSra, lowI_eq hn, lowN_eq, wrapNat_eq_toNat, BitVec.sshiftRight_eq, Int.shiftRight_eq_div_pow]
  norm_cast

theorem toNat_flag (hn : 0 < n) (c : Prop) [Decidable c] : (if c then (1 : BitVec n) else 0).toNat = if c then 1 else 0 := by
  have h1 : (1 : BitVec n).toNat = 1 := by
    rw [BitVec.ofNat_eq_ofNat, BitVec.toNat_ofNat, Nat.mod_eq_of_lt (Nat.one_lt_two_pow hn.ne')]
  rw [apply_ite BitVec.toNat, h1, BitVec.ofNat_eq_ofNat, BitVec.toNat_zero]

theorem resSlt_eq (hn : 0 < n) : resSlt n a b = (if (a.setWidth n).slt (b.setWidth n) then (1 : BitVec n) else 0).toNat := by
  rw [toNat_flag hn, resSlt, lowI_eq hn, lowI_eq hn]
  exact if_congr BitVec.slt_iff_toInt_lt.symm rfl rfl

theorem resSltn_eq (hn : 0 < n) : resSltn n a b = (if (a.setWidth n).ult (b.setWidth n) then (1 : BitVec n) else 0).toNat := by
  rw [toNat_flag hn, resSltn, lowN_eq, lowN_eq]
  exact if_congr BitVec.ult_iff_toNat_lt.symm rfl rfl

/-- Of two that are equal, the lesser is either. -/
theorem ite_le_eq_ite_lt {α β : Type} [LinearOrder α] {x y : α} {u v : β} (h : x = y → u = v) :
    (if x ≤ y then u else v) = if x < y then u else v := by
  rcases lt_trichotomy x y with hxy | hxy | hxy
  · rw [if_pos hxy.le, if_pos hxy]
  · rw [h hxy, ite_self, ite_self]
  · rw [if_neg hxy.not_ge, if_neg hxy.not_gt]

theorem resMin_eq (hn : 0 < n) : resMin n a b = (if (a.setWidth n).slt (b.setWidth n) then a.setWidth n else b.setWidth n).toNat := by
  rw [resMin, lowN_eq, lowN_eq, lowI_eq hn, lowI_eq hn, ite_le_eq_ite_lt fun h => congrArg _ (BitVec.toInt_inj.1 h), apply_ite BitVec.toNat]
  exact if_congr BitVec.slt_iff_toInt_lt.symm rfl rfl

theorem resMax_eq (hn : 0 < n) : resMax n a b = (if (a.setWidth n).slt (b.setWidth n) then b.setWidth n else a.setWidth n).toNat := by
  rw [resMax, lowN_eq, lowN_eq, lowI_eq hn, lowI_eq hn, ite_le_eq_ite_lt fun h => congrArg _ (BitVec.toInt_inj.1 h).symm,
    apply_ite BitVec.toNat]
  exact if_congr BitVec.slt_iff_toInt_lt.symm rfl rfl

theorem resMinn_eq : resMinn n a b = (if (a.setWidth n).ult (b.setWidth n) then a.setWidth n else b.setWidth n).toNat := by
  rw [resMinn, lowN_eq, lowN_eq, min_def, ite_le_eq_ite_lt id, apply_ite BitVec.toNat]
  exact if_congr BitVec.ult_iff_toNat_lt.symm rfl rfl

theorem resMaxn_eq : resMaxn n a b = (if (a.setWidth n).ult (b.setWidth n) then b.setWidth n else a.setWidth n).toNat := by
  rw [resMaxn, lowN_eq, lowN_eq, max_def, ite_le_eq_ite_lt Eq.symm, apply_ite BitVec.toNat]
  exact if_congr BitVec.ult_iff_toNat_lt.symm rfl rfl

end

/-- Settles O7: each result as the operation of the table on the operands' low bits. -/
theorem binaryAluResults : Obligations.BinaryAluResults := by
  unfold Obligations.BinaryAluResults
  intro w sd sa b s n x y sh go
  have hn : 0 < n := width_bits_pos w
  have hop {f : Nat → Word → Word → Nat} {r : BitVec n} (h : f n (s.rd sa) (aluB s b) = r.toNat) : aluOp f w sd sa b s = go r := by
    rw [aluOp, h, extendRes_toNat hn]
  exact ⟨hop (resAdd_eq ..), hop (resSub_eq ..), hop (resMul_eq ..), hop (resMulh_eq _ _ hn), hop (resMulhn_eq ..), hop (resDiv_eq _ _ hn),
    hop (resDivn_eq ..), hop (resRem_eq _ _ hn), hop (resRemn_eq ..), hop (resAnd_eq ..), hop (resOr_eq ..), hop (resXor_eq ..),
    hop (resAndn_eq _ _ (by cases w <;> decide)), hop (resSll_eq ..), hop (resSrl_eq ..), hop (resSra_eq _ _ hn), hop (resSlt_eq _ _ hn),
    hop (resSltn_eq _ _ hn), hop (resMin_eq _ _ hn), hop (resMax_eq _ _ hn), hop (resMinn_eq ..), hop (resMaxn_eq ..)⟩

/-! ### Unary results -/

theorem extendRes_eq {n : Nat} (hn : 0 < n) (r : Nat) : extendRes n r = (BitVec.ofNat n r).signExtend 64 := by
  rw [extendRes, sextInt_eq_bmod hn, ← BitVec.toInt_ofNat]
  rfl

section
variable {n : Nat} (a : Word)

theorem resClz_le : resClz n a ≤ n := by
  unfold resClz
  split <;> omega

theorem testBit_lowN (i : Nat) : (lowN n a).testBit i = (a.setWidth n).getLsbD i := by
  rw [lowN_eq]
  rfl

theorem log2_lowN_lt (h : lowN n a ≠ 0) : Nat.log2 (lowN n a) < n := (Nat.log2_lt h).2 (Nat.mod_lt _ (Nat.two_pow_pos n))

/-- The bits above the highest 1 are zero. -/
theorem getMsbD_lt_resClz {j : Nat} (hj : j < resClz n a) : (a.setWidth n).getMsbD j = false := by
  rw [BitVec.getMsbD_eq_getLsbD, ← testBit_lowN]
  unfold resClz at hj
  split at hj
  · rename_i h0
    rw [h0, Nat.zero_testBit, Bool.and_false]
  · rw [Nat.testBit_lt_two_pow, Bool.and_false]
    exact Nat.lt_log2_self.trans_le (Nat.pow_le_pow_right (by decide) (by omega))

theorem getMsbD_resClz (h : resClz n a < n) : (a.setWidth n).getMsbD (resClz n a) = true := by
  rw [BitVec.getMsbD_eq_getLsbD, ← testBit_lowN, decide_eq_true h, Bool.true_and]
  unfold resClz at h ⊢
  split at h
  · omega
  · rename_i h0
    have hlt := log2_lowN_lt a h0
    rw [if_neg h0, show n - 1 - (n - 1 - Nat.log2 (lowN n a)) = Nat.log2 (lowN n a) by omega]
    exact Nat.testBit_log2 h0

theorem trailZeros_le (n x : Nat) : trailZeros n x ≤ n := by
  induction n generalizing x with
  | zero => rfl
  | succ n ih =>
    rw [trailZeros]
    split
    · omega
    · exact Nat.succ_le_succ (ih _)

theorem testBit_lt_trailZeros {n x j : Nat} (hj : j < trailZeros n x) : x.testBit j = false := by
  induction n generalizing x j with
  | zero => nomatch hj
  | succ n ih =>
    rw [trailZeros] at hj
    split at hj
    · nomatch hj
    · rename_i h
      cases j with
      | zero => rw [Nat.testBit_zero, decide_eq_false h]
      | succ j => rw [Nat.testBit_succ, ih (Nat.lt_of_succ_lt_succ hj)]

theorem testBit_trailZeros {n x : Nat} (h : trailZeros n x < n) : x.testBit (trailZeros n x) = true := by
  induction n generalizing x with
  | zero => nomatch h
  | succ n ih =>
    rw [trailZeros] at h ⊢
    by_cases hx : x % 2 = 1
    · rw [if_pos hx, Nat.testBit_zero, decide_eq_true hx]
    · rw [if_neg hx] at h ⊢
      rw [Nat.testBit_succ, ih (Nat.lt_of_succ_lt_succ h)]

theorem resPopc_eq : resPopc n a = (List.finRange n).countP (fun j => (a.setWidth n).getLsbD j.val) := by
  have hbit (j : Fin n) : (a.setWidth n).getLsbD j.val = a.getLsbD j.val := by
    rw [BitVec.getLsbD_setWidth, decide_eq_true j.isLt, Bool.true_and]
  rw [resPopc, ← List.countP_eq_length_filter, ← List.map_coe_finRange_eq_range, List.countP_map]
  exact List.countP_congr fun j _ => by rw [hbit, Function.comp_apply]

end

/-- Settles O8: the counts by the bits they pass over, the others as the table has them. -/
theorem unaryAluResults : Obligations.UnaryAluResults := by
  unfold Obligations.UnaryAluResults
  intro w sd sa k s n x go
  have hn : 0 < n := width_bits_pos w
  have hun (f : Nat → Word → Nat) : aluUn f w sd sa s = go (BitVec.ofNat n (f n (s.rd sa))) := by rw [aluUn, extendRes_eq hn]
  have hlow : BitVec.ofNat n (lowN n (s.rd sa)) = x := by rw [lowN_eq, BitVec.ofNat_toNat, BitVec.setWidth_eq]
  refine ⟨⟨resClz n (s.rd sa), resClz_le _, hun resClz, fun j hj => getMsbD_lt_resClz _ hj, getMsbD_resClz _⟩,
    ⟨resCtz n (s.rd sa), trailZeros_le .., hun resCtz, fun j hj => ?_, fun h => ?_⟩, ?_, ?_, ?_, rfl, rfl⟩
  · rw [← testBit_lowN, testBit_lt_trailZeros hj]
  · rw [← testBit_lowN]
    exact testBit_trailZeros h
  · rw [← resPopc_eq]
    exact hun resPopc
  · rw [← hlow]
    exact hun resSext
  · show execZext w sd sa s = _
    rw [execZext, lowN_eq, BitVec.ofNat_toNat]

end Sys2Proof.Proofs
end

section
/-! Instructions on scalar registers alone (R132, R146 to R148, R153, R154, R158). -/

namespace Sys2Proof.Proofs

open Sys2Proof Sys2Proof.Machine Sys2Proof.Safety Sys2Proof.Laws

/-- `u` is `s` with a value in the destination `d`, if there is one. -/
def WritesOnly (d : Option SReg) (s u : State) : Prop := match d with
  | none => u = s
  | some r => ∃ v, u = s.wr r v

/-- Such an instruction writes its destination and moves the pc. -/
theorem exec_scalarOnly {i : Instr} {d : Option SReg} {s t : State} (hi : scalarOnly i = some d) (he : exec i s = .next t)
    (hal : ∀ sd sa imm, i = .jalr sd sa imm → (s.rd sa + imm.signExtend 64).toNat % 8 = 0) :
    ∃ u a, WritesOnly d s u ∧ t = u.goto a := by
  have halu {sd : SReg} {v a : Word} (hd : some (some sd) = some d) (h : (.next ((s.wr sd v).goto a) : Out) = .next t) :
      ∃ u a, WritesOnly d s u ∧ t = u.goto a := by
    cases hd
    cases h
    exact ⟨_, a, ⟨v, rfl⟩, rfl⟩
  have hbranch {c : Bool} {off : BitVec 32} (hd : some none = some d) (h : branchIf c off s = .next t) :
      ∃ u a, WritesOnly d s u ∧ t = u.goto a := by
    cases hd
    cases h
    cases c
    · exact ⟨s, _, rfl, rfl⟩
    · exact ⟨s, _, rfl, rfl⟩
  cases i
  case add | sub_ | mul | mulh | mulhn | div | divn | rem | remn | and_ | or_ | xor_ | andn | sll | srl | sra | slt | sltn | min_ | max_
     | minn | maxn | clz | ctz | popc | sext | zext | ldk | jal => exact halu hi he
  case beq | bne | blt | bge | bltn | bgen => exact hbranch hi he
  case nop =>
    cases hi
    cases he
    exact ⟨s, _, rfl, rfl⟩
  case jalr sd sa imm =>
    have hgo : exec (.jalr sd sa imm) s = .next ((s.wr sd (s.front.pc + 8)).goto (s.rd sa + imm.signExtend 64)) :=
      if_neg (not_not.2 (hal sd sa imm rfl))
    exact halu hi (hgo.symm.trans he)
  all_goals cases hi

/-- A write of a register leaves everything but the scalar registers of the front. -/
theorem wr_eq (s : State) (r : SReg) (v : Word) : ∃ x, s.wr r v = { s with front := { s.front with s := x } } := by
  unfold State.wr
  split
  · exact ⟨s.front.s, rfl⟩
  · exact ⟨_, rfl⟩

theorem WritesOnly.eq {d : Option SReg} {s u : State} (h : WritesOnly d s u) : ∃ x, u = { s with front := { s.front with s := x } } := by
  cases d with
  | none => exact ⟨s.front.s, h⟩
  | some r =>
    obtain ⟨v, rfl⟩ := h
    exact wr_eq s r v

theorem WritesOnly.rd {d : Option SReg} {s u : State} (h : WritesOnly d s u) {r : SReg} (hr : d ≠ some r) : u.rd r = s.rd r := by
  cases d with
  | none => rw [show u = s from h]
  | some q =>
    obtain ⟨v, rfl⟩ := h
    rw [rd_wr, if_neg fun hc => hr (congrArg some hc.1.symm)]

/-- Settles O9: such an instruction is a write of its destination and a move of the pc (`exec_scalarOnly`). -/
theorem registerOnlyFrame : Obligations.RegisterOnlyFrame := by
  unfold Obligations.RegisterOnlyFrame
  refine ⟨fun i d s t hi he hal => ?_, fun r q v s => ⟨?_, if_pos rfl, wr_front_w .., wr_front_pc .., wr_mem ..⟩⟩
  · obtain ⟨u, a, hu, rfl⟩ := exec_scalarOnly hi he hal
    refine ⟨fun r hr => hu.rd hr, rd_zero _, ?_⟩
    obtain ⟨x, rfl⟩ := hu.eq
    exact ⟨fun k => rfl, fun n => rfl, rfl, fun k => rfl, rfl⟩
  · rw [rd_wr]
    by_cases hq : q = 0
    · rw [if_pos hq, if_neg fun hc => hc.2 hq, hq, rd_zero]
    · rw [if_neg hq]
      exact if_congr (and_iff_left hq) rfl rfl

end Sys2Proof.Proofs
end

section
/-! Where a scalar access begins, and its first faults (R149, R151, R152). -/

namespace Sys2Proof.Proofs

open Sys2Proof Sys2Proof.Machine Sys2Proof.Safety Sys2Proof.Laws

/-- ALIGN comes before anything else. -/
theorem exec_scalarPlace_misaligned {va n : Nat} (h : va % n ≠ 0) (p : Perm) (ok : Place → Bool) (s : State) :
    M.exec (scalarPlace va n p ok) s = (.error (.trap (mkTrap causeAlign 0 0 va)), s) := by
  rw [scalarPlace, if_pos h]
  rfl

theorem exec_scalarPlace_xlate_trap {va n : Nat} {p : Perm} {s s1 : State} {t : TrapInfo} (h : va % n = 0)
    (hx : M.exec (xlate (seqAgent s.front) va p 0) s = (.error (.trap t), s1)) (ok : Place → Bool) :
    M.exec (scalarPlace va n p ok) s = (.error (.trap t), s1) := by
  rw [scalarPlace, if_neg (not_not.2 h), exec_bind_ok (exec_get s), exec_bind_error hx]

/-- An instruction begins with the checks of an access at `va`. -/
def BeginsAt (va n : Nat) (p : Perm) (i : Instr) (s : State) : Prop :=
  ∃ (ok : Place → Bool) (rest : Place × List Key → M Unit), exec i s = frontM (scalarPlace va n p ok >>= rest) s

theorem BeginsAt.misaligned {va n : Nat} {p : Perm} {i : Instr} {s : State} (h : BeginsAt va n p i s) (hva : va % n ≠ 0) :
    exec i s = .next (stopTrap s (mkTrap causeAlign 0 0 va) s.front.pc) := by
  obtain ⟨ok, rest, he⟩ := h
  rw [he]
  exact frontM_trap (exec_bind_error (exec_scalarPlace_misaligned hva p ok s))

theorem BeginsAt.xlate_trap {va n : Nat} {p : Perm} {i : Instr} {s s1 : State} {t : TrapInfo} (h : BeginsAt va n p i s) (hva : va % n = 0)
    (hx : M.exec (xlate (seqAgent s.front) va p 0) s = (.error (.trap t), s1)) : exec i s = .next (stopTrap s1 t s1.front.pc) := by
  obtain ⟨ok, rest, he⟩ := h
  rw [he]
  exact frontM_trap (exec_bind_error (exec_scalarPlace_xlate_trap hva hx ok))

theorem frontM_get_bind (f : State → M Unit) (s : State) : frontM (get >>= f) s = frontM (f s) s := by
  rw [frontM, exec_bind_ok (exec_get s)]
  rfl

theorem beginsAt_ld (sg : Bool) (ord : MemOrder) (sc : Scope) (w : Width) (sd sa : SReg) (off : BitVec 32) (s : State) :
    BeginsAt (s.rd sa + off.signExtend 64).toNat (Width.bits w / 8) .read (.ld sg ord sc w sd sa off) s :=
  ⟨_, _, frontM_get_bind _ s⟩

theorem beginsAt_st (ord : MemOrder) (sc : Scope) (w : Width) (sb sa : SReg) (off : BitVec 32) (s : State) :
    BeginsAt (s.rd sa + off.signExtend 64).toNat (Width.bits w / 8) .write (.st ord sc w sb sa off) s :=
  ⟨_, _, frontM_get_bind _ s⟩

/-- The instruction of a scalar atomic (R151). -/
def atomInstr (o : AtomOp) (a : AtomArgs) : Instr := match o with
  | .add => .samoAdd a
  | .and_ => .samoAnd a
  | .or_ => .samoOr a
  | .xor_ => .samoXor a
  | .min_ => .samoMin a
  | .max_ => .samoMax a
  | .minn => .samoMinn a
  | .maxn => .samoMaxn a
  | .swap => .samoSwap a
  | .cas => .scas a

theorem exec_atomInstr (o : AtomOp) (a : AtomArgs) (s : State) : exec (atomInstr o a) s = frontM (atomM o a) s := by cases o <;> rfl

theorem beginsAt_atom (o : AtomOp) (a : AtomArgs) (s : State) :
    BeginsAt (s.rd a.sa + a.off.signExtend 64).toNat (Width.bits a.w / 8) .both (atomInstr o a) s :=
  ⟨_, _, (exec_atomInstr o a s).trans (frontM_get_bind _ s)⟩

/-- Settles O22: every form begins with `scalarPlace`, whose first check is the alignment and whose second the translation. -/
theorem scalarAccessFaults : Obligations.ScalarAccessFaults := by
  unfold Obligations.ScalarAccessFaults
  intro sg ord sc w sd sa sb off s a va n forms f hf
  have hbegins : BeginsAt va n f.1 f.2 s := by
    have hatom (o : AtomOp) : BeginsAt va n .both (atomInstr o a) s := beginsAt_atom o a s
    simp only [forms, List.mem_cons, List.not_mem_nil, or_false] at hf
    rcases hf with rfl | rfl | rfl | rfl | rfl | rfl | rfl | rfl | rfl | rfl | rfl | rfl
    · exact beginsAt_ld ..
    · exact beginsAt_st ..
    · exact hatom .cas
    · exact hatom .add
    · exact hatom .and_
    · exact hatom .or_
    · exact hatom .xor_
    · exact hatom .min_
    · exact hatom .max_
    · exact hatom .minn
    · exact hatom .maxn
    · exact hatom .swap
  exact ⟨hbegins.misaligned, fun hva t s1 hx => hbegins.xlate_trap hva hx⟩

end Sys2Proof.Proofs
end

section
/-! Scalar loads, stores and atomics of a stream in lockstep with nothing under way (R138, R149 to R152, R349, R405). -/

namespace Sys2Proof.Proofs

open Sys2Proof Sys2Proof.Machine Sys2Proof.Safety Sys2Proof.Laws

/-! ### Up to the access itself -/

theorem Walked.quiet {s t : State} (h : Walked s t) (hq : Quiet s) : Quiet t := by
  rw [h]
  exact hq

theorem mayPost_lockstep {s : State} (h : s.pace = .lockstep) (ks : List Key) : mayPost s ks = false := by
  rw [mayPost, h]
  rfl

theorem exec_hostAnswer_lockstep {s : State} (h : s.pace = .lockstep) (kind : AccKind) (va : Nat) (ks : List Key) (reads writes : List Range) :
    M.exec (hostAnswer kind va ks reads writes) s = (.ok (), s) := by
  rw [hostAnswer, exec_bind_ok (exec_get s), h]
  rfl

/-- With nothing under way an access waits for its peers alone. -/
theorem scalarReady_quiet {s : State} (hq : Quiet s) (ks : List Key) (reads writes : List Range) :
    scalarReady s ks reads writes = ks.all (fun k => peerOpen s k 0) := by
  obtain ⟨-, ha, hc, hb, hf, -⟩ := hq
  rw [scalarReady, loadsOut_of_none ha, hf, hb, ha, hc]
  simp

section
variable {s s1 : State} {va n : Nat} {p : Perm} {pl : Place} {ks : List Key} (hr : Reaches s va n p pl ks s1)
include hr

theorem walked_of_reaches : Walked s s1 := walked_of_exec keepsWalked_xlate hr.2.1

theorem exec_scalarPlace_of_reaches {ok : Place → Bool} (hok : ok pl = true) : M.exec (scalarPlace va n p ok) s = (.ok (pl, ks), s1) := by
  obtain ⟨hal, hx, hk, -⟩ := hr
  have hkeys : M.exec (keysM pl va n 0) s1 = (.ok ks, s1) := by
    rw [keysM, exec_bind_ok (exec_get s1), hk]
    rfl
  rw [scalarPlace, if_neg (not_not.2 hal), exec_bind_ok (exec_get s), exec_bind_ok hx, exec_bind_ok hkeys, exec_bind_ok (a := ()) (t := s1)]
  · rfl
  · rw [exec_need, hok, if_pos rfl]

theorem exec_scalarWatch_of_reaches {rd wr : Bool} (hrd : (p != .write) = rd) (hwr : (p != .read) = wr) :
    M.exec (scalarWatch va n rd wr) s1 = (.ok (), s1) := by
  obtain ⟨-, -, -, -, -, -, hw⟩ := id hr
  subst hrd hwr
  rw [scalarWatch, exec_bind_ok (exec_get s1), exec_need, if_pos]
  rw [(walked_of_reaches hr).front, Bool.or_eq_true, beq_iff_eq]
  exact hw

end

/-- An instruction that ends or waits. -/
theorem frontM_ite {m : M Unit} {c : Prop} [Decidable c] {s t u : State} (h : M.exec m s = if c then (.ok (), t) else (.error .wait, u)) :
    frontM m s = .next (if c then t else u) := by
  split at h
  · rw [frontM_ok h, if_pos ‹c›]
  · rw [frontM_wait h, if_neg ‹¬c›]

theorem exec_waitFor_bind {α : Type} (b : Bool) (f : Unit → M α) (s : State) :
    M.exec (waitFor b >>= f) s = if b then M.exec (f ()) s else (.error .wait, s) := by cases b <;> rfl

/-! ### Loads -/

theorem exec_raceCheck_unraced {s : State} {v : Option (List (Nat × Nat))} {pl : Place} (h : raced v pl = false) (ks : List Key) (wr : Bool)
    (elem va : Nat) : M.exec (raceCheck v pl ks wr elem va) s = (.ok (), s) := by
  have hfree (tag : State → Nat → RaceTag) : M.exec (raceFree tag v pl ks wr elem va) s = (.ok (), s) := by
    rw [raceFree, exec_bind_ok (exec_get s), h]
    rfl
  rw [raceCheck, exec_bind_ok (hfree _), raceMark, exec_modify, h]
  rfl

/-- What the bytes of an access read as at the stamp (R139). -/
def readAt (s : State) (ks : List Key) : Nat := bytesNat (ks.map (byteAt s s.stamp))

theorem readAt_touch (s : State) (ks ls : List Key) : readAt (s.touch ls) ks = readAt s ks := by
  have h (k : Key) : byteAt (s.touch ls) (s.touch ls).stamp k = byteAt s s.stamp k := by
    unfold State.touch
    split <;> rfl
  rw [readAt, readAt]
  exact congrArg bytesNat (List.map_congr_left fun k _ => h k)

theorem exec_scalarRead {s : State} {pl : Place} {ks : List Key} (hr : raced s.front.race pl = false) (hu : unreadable s ks = false) (va : Nat) :
    M.exec (scalarRead pl ks va) s = (.ok (readAt s ks), s.touch ks) := by
  have hneed : M.exec (need (!unreadable s ks) (mkTrap causeDataError 0 0 (errorAt ks va))) s = (.ok (), s) := by
    rw [exec_need, hu]
    rfl
  rw [scalarRead, exec_bind_ok (exec_get s), exec_bind_ok (exec_raceCheck_unraced hr ..), exec_bind_ok hneed,
    exec_bind_ok (exec_modify ..), exec_bind_ok (exec_get _), ← readAt_touch s ks ks]
  rfl

/-- A load whose peers are open ends with its value. -/
def loaded (sg : Bool) (n : Nat) (sd : SReg) (ks : List Key) (s : State) : State :=
  (((s.touch ks).wr sd (loadValue sg n (readAt s ks))).leave).done

theorem exec_ld {s s1 : State} {sa : SReg} {off : BitVec 32} {w : Width} {pl : Place} {ks : List Key} (hq : Quiet s)
    (hr : Reaches s (scalarVa s sa off) (Width.bytes w) .read pl ks s1) (sg : Bool) (ord : MemOrder) (sc : Scope) (sd : SReg) :
    exec (.ld sg ord sc w sd sa off) s = .next (if ks.all (fun k => peerOpen s1 k 0) then loaded sg (Width.bytes w) sd ks s1 else s1) := by
  have hq1 := (walked_of_reaches hr).quiet hq
  have hwatch : M.exec (scalarWatch (scalarVa s sa off) (Width.bytes w) true false) s1 = (.ok (), s1) :=
    exec_scalarWatch_of_reaches hr rfl rfl
  obtain ⟨-, -, -, -, hu, hrace, -⟩ := id hr
  show frontM (loadM sg ord w sd sa off) s = _
  refine frontM_ite ?_
  rw [loadM, exec_bind_ok (exec_get s)]
  dsimp only
  rw [exec_bind_ok (exec_scalarPlace_of_reaches hr rfl)]
  dsimp only
  rw [exec_bind_ok hwatch, exec_bind_ok (exec_get s1), mayPost_lockstep hq1.1, Bool.false_and, Bool.false_and, Bool.false_and,
    if_neg Bool.false_ne_true, exec_bind_ok (exec_hostAnswer_lockstep hq1.1 ..), exec_bind_ok (exec_get s1), exec_waitFor_bind,
    scalarReady_quiet hq1, exec_bind_ok (exec_scalarRead hrace hu _)]
  rfl

/-- The value of a load, as a word of its width (R149). -/
theorem loadValue_eq {n v : Nat} (hn : 0 < n) (hv : v < 2 ^ (8 * n)) (sg : Bool) :
    loadValue sg n v = if sg then (BitVec.ofNat (8 * n) v).signExtend 64 else (BitVec.ofNat (8 * n) v).setWidth 64 := by
  cases sg
  · rw [if_neg nofun, ← BitVec.ofNat_toNat, BitVec.toNat_ofNat, Nat.mod_eq_of_lt hv]
    rfl
  · exact extendRes_eq (by omega) v

theorem keysOf_length {s : State} {pl : Place} {va n : Nat} {ks : List Key} (h : keysOf s pl va n = some ks) : ks.length = n := by
  have hfold (l : List Nat) : ∀ ks, l.foldr (fun i acc => match keyOf s pl (va + i), acc with
      | some k, some ks => some (k :: ks)
      | _, _ => none) (some []) = some ks → ks.length = l.length := by
    induction l with
    | nil =>
      rintro _ ⟨⟩
      rfl
    | cons i l ih =>
      intro ks h
      rw [List.foldr_cons] at h
      split at h
      · rename_i k ls hk hl
        cases h
        rw [List.length_cons, List.length_cons, ih ls hl]
      · cases h
  rw [hfold _ ks h, List.length_range]

theorem bytesNat_lt (l : List Byte) : bytesNat l < 2 ^ (8 * l.length) := by
  induction l with
  | nil => decide
  | cons b l ih =>
    have hb := b.isLt
    rw [bytesNat, List.length_cons, Nat.mul_succ, Nat.pow_add]
    omega

theorem readAt_lt {s : State} {va n : Nat} {pl : Place} {ks : List Key} (h : keysOf s pl va n = some ks) : readAt s ks < 2 ^ (8 * n) := by
  have hlt := bytesNat_lt (ks.map (byteAt s s.stamp))
  rwa [List.length_map, keysOf_length h] at hlt

/-- A load changes its register, what its request wakes, and the pc. -/
theorem loaded_spec (sg : Bool) (n : Nat) (sd : SReg) (ks : List Key) (s : State) :
    let t := loaded sg n sd ks s
    (t.rd sd = if sd = 0 then 0 else loadValue sg n (readAt s ks)) ∧ (∀ r, r ≠ sd → t.rd r = s.rd r) ∧ t.front.w = s.front.w ∧
      t.front.csr = s.front.csr ∧ t.mem = s.mem ∧ t.shelves = s.shelves ∧ t.front.pc = s.front.pc + 8 := by
  have hfront : (s.touch ks).front = s.front := (walked_touch s ks).front
  have hmem : (s.touch ks).mem = s.mem ∧ (s.touch ks).shelves = s.shelves := by
    unfold State.touch
    split <;> exact ⟨rfl, rfl⟩
  let u := (s.touch ks).wr sd (loadValue sg n (readAt s ks))
  have hw : u.front.w = s.front.w ∧ u.front.csr = s.front.csr ∧ u.front.pc = s.front.pc := by
    rw [← hfront]
    exact ⟨wr_front_w .., wr_front_csr .., wr_front_pc ..⟩
  obtain ⟨hw, hcsr, hpc⟩ := hw
  refine ⟨rd_wr_same .., fun r hr => ?_, hw, hcsr, (wr_mem ..).trans hmem.1, (wr_shelves ..).trans hmem.2, congrArg (· + 8) hpc⟩
  show u.rd r = _
  rw [rd_wr, if_neg (fun h => hr h.1), State.rd, hfront]
  rfl

/-- Settles O19: the checks pass, the peers are waited for, and the load ends as `loaded_spec` says. -/
theorem loadsReadMemory : Obligations.LoadsReadMemory := by
  unfold Obligations.LoadsReadMemory
  intro sg ord sc w sd sa off s s1 pl ks va n hq hr
  have hexec := exec_ld hq hr sg ord sc sd
  refine ⟨fun hopen => hexec.trans (congrArg _ (if_neg hopen)),
    fun hopen => ⟨loaded sg n sd ks s1, hexec.trans (congrArg _ (if_pos hopen)), ?_⟩⟩
  have hf : s1.front = s.front := (walked_of_reaches hr).front
  obtain ⟨-, -, hk, -⟩ := hr
  obtain ⟨hsd, hregs, hw, hcsr, hmem, hsh, hpc⟩ := loaded_spec sg n sd ks s1
  refine ⟨?_, fun r hne => (hregs r hne).trans ?_, ?_, ?_, hmem, hsh, ?_⟩
  · rw [hsd, loadValue_eq (by cases w <;> decide) (readAt_lt hk)]
    rfl
  · rw [State.rd, hf]
    rfl
  all_goals rw [← hf]; assumption

end Sys2Proof.Proofs
end

section
/-! Scalar stores and atomics of a stream in lockstep with nothing under way (R138, R149 to R151, R329, R333, R349, R405). -/

namespace Sys2Proof.Proofs

open Sys2Proof Sys2Proof.Machine Sys2Proof.Safety Sys2Proof.Laws

/-! ### Releases -/

/-- Delivery leaves the stream whose turn it is, but for a watch hit reported to it. -/
theorem front_deliverResiduals (s : State) (p : Nat → Bool) :
    (deliverResiduals s p).front = { s.front with pwatch := (deliverResiduals s p).front.pwatch } := by
  obtain ⟨hf, -, -⟩ := settleMsgs_spec s (fun m => m.sid == s.front.sid && p m.home)
  have hp : Performed _ (deliverResiduals s p) := Performed.foldl (fun u (x : Residual) => performed_performMsg u x.msg) _ _
  rw [hp.front]
  dsimp only
  rw [hf]

theorem exec_releaseM_quiet {s : State} (hq : Quiet s) (sc : Scope) (beta : List Nat) :
    M.exec (releaseM sc beta) s = (.ok (), deliverResiduals s (scopeMem s.front sc beta)) := by
  obtain ⟨-, ha, hc, -, hf, -⟩ := hq
  rw [releaseM, exec_bind_ok (exec_get s), exec_waitFor_bind, releaseReady_of_idle ha hc hf, if_pos rfl, exec_modify]

/-- What the release of an access at `ks` leaves, if it is one (R333). -/
def released (ord : MemOrder) (sc : Scope) (ks : List Key) (s : State) : State :=
  if ord = .rel then deliverResiduals s (scopeMem s.front sc (ownerOf s (ks.headD 0)).toList) else s

theorem front_released (ord : MemOrder) (sc : Scope) (ks : List Key) (s : State) :
    ∃ w, (released ord sc ks s).front = { s.front with pwatch := w } := by
  unfold released
  split
  · exact ⟨_, front_deliverResiduals ..⟩
  · exact ⟨s.front.pwatch, rfl⟩

theorem quiet_released {s : State} (hq : Quiet s) (ord : MemOrder) (sc : Scope) (ks : List Key) : Quiet (released ord sc ks s) := by
  obtain ⟨w, hf⟩ := front_released ord sc ks s
  have hp : (released ord sc ks s).pace = s.pace := by
    unfold released
    split
    · exact pace_deliverResiduals ..
    · rfl
  unfold Quiet floorMet State.floor State.isn at hq ⊢
  rw [hp, hf]
  exact hq

/-- A release comes first, then the rest of the access. -/
theorem exec_release_bind {α : Type} {s : State} (hq : Quiet s) (ord : MemOrder) (sc : Scope) (ks : List Key) (f : Unit → M α) :
    M.exec (if ord = .rel then releaseM sc (ownerOf s (ks.headD 0)).toList >>= f else f ()) s = M.exec (f ()) (released ord sc ks s) := by
  unfold released
  split
  · rw [exec_bind_ok (exec_releaseM_quiet hq ..)]
  · rfl

/-- The control registers after a release: the interval is one higher where races are checked, and says when it is spent (R329). -/
def raisedCsr (c : Csrs) : Csrs :=
  if c.raceEn then
    if c.ivl = 0xFFFF then { c with raceSat := true } else { c with ivl := c.ivl + 1, raceSat := c.raceSat || c.ivl + 1 == 0xFFFF }
  else c

theorem nextInterval_csr (s : State) : s.nextInterval.front.csr = raisedCsr s.front.csr := by
  unfold State.nextInterval raisedCsr
  split
  · split <;> rfl
  · rfl

/-- After a releasing access the interval is the next. -/
def nextIfRel (ord : MemOrder) (s : State) : State := if ord = .rel then s.nextInterval else s

theorem nextIfRel_eq (ord : MemOrder) (s : State) : ∃ c k, nextIfRel ord s = { s with front := { s.front with csr := c, clock := k } } := by
  unfold nextIfRel
  split
  · exact nextInterval_eq s
  · exact ⟨s.front.csr, s.front.clock, rfl⟩

theorem nextIfRel_csr (ord : MemOrder) (s : State) : (nextIfRel ord s).front.csr = if ord = .rel then raisedCsr s.front.csr else s.front.csr := by
  unfold nextIfRel
  split
  · exact nextInterval_csr s
  · rfl

/-! ### Stores -/

theorem storesOut_of_none {f : Front} (h : f.accesses = []) : storesOut f = 0 := by
  rw [storesOut, h]
  rfl

/-- What a store leaves. -/
def storeDone (ord : MemOrder) (n : Nat) (data : Word) (ks : List Key) (s : State) : State :=
  (nextIfRel ord (s.storeAt s.stamp (s.floor < s.stamp) (ks.zip (wordBytes n data.toNat))).leave).done

/-- What is left of a store once nothing holds it up. -/
def storeEnd (ord : MemOrder) (n : Nat) (data : Word) (pl : Place) (ks : List Key) (va : Nat) : M Unit := do
  let s ← get
  raceCheck s.front.race pl ks true 0 va
  modify (storeDone ord n data ks)

theorem exec_storeM {s s1 : State} {sa : SReg} {off : BitVec 32} {w : Width} {pl : Place} {ks : List Key} (hq : Quiet s)
    (hr : Reaches s (scalarVa s sa off) (Width.bytes w) .write pl ks s1) (ord : MemOrder) (sc : Scope) (sb : SReg) :
    M.exec (storeM ord sc w sb sa off) s = if ks.all (fun k => peerOpen s1 k 0)
      then M.exec (storeEnd ord (Width.bytes w) (s1.rd sb) pl ks (scalarVa s sa off)) (released ord sc ks s1) else (.error .wait, s1) := by
  have hq1 := (walked_of_reaches hr).quiet hq
  have hwatch : M.exec (scalarWatch (scalarVa s sa off) (Width.bytes w) false true) s1 = (.ok (), s1) :=
    exec_scalarWatch_of_reaches hr rfl rfl
  rw [storeM, exec_bind_ok (exec_get s)]
  dsimp only
  rw [exec_bind_ok (exec_scalarPlace_of_reaches hr rfl)]
  dsimp only
  rw [exec_bind_ok hwatch, exec_bind_ok (exec_get s1), mayPost_lockstep hq1.1, Bool.false_and, Bool.false_and, Bool.false_and, Bool.false_and,
    if_neg Bool.false_ne_true, exec_waitFor_bind, storesOut_of_none hq1.2.1, scalarReady_quiet hq1, exec_release_bind hq1]
  rfl

theorem rd_of_front {s t : State} (h : t.front.s = s.front.s) (r : SReg) : t.rd r = s.rd r := by
  rw [State.rd, h]
  rfl

/-- A store puts its bytes; registers and windows stay, and the interval is raised by a release. -/
theorem storeDone_spec {ord : MemOrder} {n : Nat} {data : Word} {ks : List Key} {s : State} (hu : unreadable s ks = false) (hn : ks.length = n) :
    let t := storeDone ord n data ks s
    t.mem = s.mem.sets (ks.zip (wordBytes n data.toNat)) ∧ t.front.s = s.front.s ∧ t.front.w = s.front.w ∧
      t.front.csr = (nextIfRel ord s).front.csr ∧ t.front.pc = s.front.pc + 8 := by
  have hkeys : (ks.zip (wordBytes n data.toNat)).map (·.1) = ks := by rw [← hn, keys_of_zip_wordBytes]
  obtain ⟨hm, -, hf⟩ := storeAt_readable (isn := s.stamp) (shelve := s.floor < s.stamp) (by rwa [hkeys])
  unfold storeDone
  generalize s.storeAt s.stamp (s.floor < s.stamp) (ks.zip (wordBytes n data.toNat)) = v at hm hf
  have hcsr : (nextIfRel ord v.leave).front.csr = (nextIfRel ord s).front.csr := by
    rw [nextIfRel_csr, nextIfRel_csr, ← hf]
    rfl
  obtain ⟨c, k, hc⟩ := nextIfRel_eq ord v.leave
  refine ⟨?_, ?_, ?_, hcsr, ?_⟩
  · rw [hc]
    exact hm
  all_goals rw [hc, ← hf]; rfl

theorem exec_storeEnd {pl : Place} {s : State} (h : raced s.front.race pl = false) (ord : MemOrder) (n : Nat) (data : Word) (ks : List Key)
    (va : Nat) : M.exec (storeEnd ord n data pl ks va) s = (.ok (), storeDone ord n data ks s) := by
  rw [storeEnd, exec_bind_ok (exec_get s), exec_bind_ok (exec_raceCheck_unraced h ..), exec_modify]

/-- Settles O20: the checks pass, the peers are waited for, a release comes first, and the store ends as `storeDone_spec` says. -/
theorem storesWriteMemory : Obligations.StoresWriteMemory := by
  unfold Obligations.StoresWriteMemory
  intro ord sc w sb sa off s s1 pl ks va n s2 hq hr
  have hexec := exec_storeM hq hr ord sc sb
  have hf : s1.front = s.front := (walked_of_reaches hr).front
  obtain ⟨-, -, hk, hnodup, -, -, -⟩ := hr
  refine ⟨fun hopen => frontM_wait (hexec.trans (if_neg hopen)), fun hopen hcan hu hrace => ?_⟩
  replace hexec := (hexec.trans (if_pos hopen)).trans (exec_storeEnd hrace ..)
  obtain ⟨p, hf2⟩ : ∃ p, s2.front = { s1.front with pwatch := p } := front_released ord sc ks s1
  have hlen := keysOf_length hk
  obtain ⟨hm, hregs, hw, hcsr, hpc⟩ := storeDone_spec (ord := ord) (data := s1.rd sb) hu hlen
  have hkeys : (ks.zip (wordBytes n (s1.rd sb).toNat)).map (·.1) = ks := by rw [← hlen, keys_of_zip_wordBytes]
  rw [hf2] at hregs hw hpc
  rw [hf] at hregs hw hpc
  refine ⟨storeDone ord n (s1.rd sb) ks s2, frontM_ok hexec, ?_, fun k hk => ?_, rd_of_front hregs, hw, hcsr, hpc⟩
  · rw [hm, gets_sets_zip hnodup ((wordBytes_length ..).trans hlen.symm) hcan, rd_of_front (congrArg Front.s hf)]
  · rw [hm]
    exact get_sets_of_not_mem (by rwa [hkeys]) hcan

end Sys2Proof.Proofs
end

section
/-! Scalar atomics of a stream in lockstep with nothing under way (R138, R151, R349, R405). -/

namespace Sys2Proof.Proofs

open Sys2Proof Sys2Proof.Machine Sys2Proof.Safety Sys2Proof.Laws

/-! ### The operation (R151) -/

/-- The new value of an atomic's place, with old value `x`, operand `y` and expected value `z`. -/
def atomResult {m : Nat} (o : AtomOp) (x y z : BitVec m) : BitVec m := match o with
  | .add => x + y
  | .and_ => x &&& y
  | .or_ => x ||| y
  | .xor_ => x ^^^ y
  | .min_ => if x.slt y then x else y
  | .max_ => if x.slt y then y else x
  | .minn => if x.ult y then x else y
  | .maxn => if x.ult y then y else x
  | .swap => y
  | .cas => if x = z then y else x

theorem new_eq {m : Nat} (hm : 0 < m) (o : AtomOp) (x y z : BitVec m) : o.new m x.toNat y.toNat z.toNat = (atomResult o x y z).toNat := by
  have hint : x.toInt = y.toInt → x.toNat = y.toNat := fun h => congrArg _ (BitVec.toInt_inj.1 h)
  have hs {u v : BitVec m} : (if x.toInt < y.toInt then u.toNat else v.toNat) = (if x.slt y then u else v).toNat := by
    rw [apply_ite BitVec.toNat]
    exact if_congr BitVec.slt_iff_toInt_lt.symm rfl rfl
  have hu {u v : BitVec m} : (if x.toNat < y.toNat then u.toNat else v.toNat) = (if x.ult y then u else v).toNat := by
    rw [apply_ite BitVec.toNat]
    exact if_congr BitVec.ult_iff_toNat_lt.symm rfl rfl
  cases o with
  | add => exact (BitVec.toNat_add ..).symm
  | and_ => exact (BitVec.toNat_and ..).symm
  | or_ => exact (BitVec.toNat_or ..).symm
  | xor_ => exact (BitVec.toNat_xor ..).symm
  | min_ =>
    rw [AtomOp.new, sextInt_toNat hm, sextInt_toNat hm, ite_le_eq_ite_lt hint]
    exact hs
  | max_ =>
    rw [AtomOp.new, sextInt_toNat hm, sextInt_toNat hm, ite_le_eq_ite_lt fun h => (hint h).symm]
    exact hs
  | minn =>
    rw [AtomOp.new, min_def, ite_le_eq_ite_lt id]
    exact hu
  | maxn =>
    rw [AtomOp.new, max_def, ite_le_eq_ite_lt Eq.symm]
    exact hu
  | swap => rfl
  | cas =>
    show (if x.toNat = z.toNat then y.toNat else x.toNat) = (if x = z then y else x).toNat
    rw [apply_ite BitVec.toNat]
    exact if_congr BitVec.toNat_inj rfl rfl

theorem wordBytes_bytesNat (l : List Byte) : wordBytes l.length (bytesNat l) = l := by
  induction l with
  | nil => rfl
  | cons b l ih =>
    have hb := b.isLt
    have hhead : BitVec.ofNat 8 (bytesNat (b :: l)) = b := BitVec.eq_of_toNat_eq (by rw [BitVec.toNat_ofNat, bytesNat]; omega)
    have htail : bytesNat (b :: l) / 256 = bytesNat l := by rw [bytesNat]; omega
    rw [List.length_cons, wordBytes_succ, hhead, htail, ih]

/-! ### At its place (R349) -/

/-- What an atomic leaves at its place: a compare that fails writes nothing. -/
def atomPut (o : AtomOp) (ks : List Key) (y x : Nat) (s : State) : State :=
  if o = .cas ∧ bytesNat (s.mem.gets ks) ≠ x then s.touch ks
  else (s.touch ks).storeAt s.stamp (s.floor < s.stamp) (ks.zip (wordBytes ks.length (o.new (8 * ks.length) (bytesNat (s.mem.gets ks)) y x)))

theorem exec_doAtom {s : State} {ks : List Key} (hl : s.front.logMode = 0) (hb : atomBlocked s s.stamp (ks.headD 0) = false)
    (hu : unreadable s ks = false) (o : AtomOp) (va y x : Nat) :
    M.exec (doAtom o o.sub (scalarEye s) (s.floor < s.stamp) ks va y x) s = (.ok (bytesNat (s.mem.gets ks)), atomPut o ks y x s) := by
  have hsub : (o.sub == 0 && s.front.strayed) = false := by cases o <;> rfl
  have hb' : atomBlocked s (scalarEye s).stamp (ks.headD 0) = false := hb
  rw [doAtom, exec_bind_ok (exec_get s)]
  dsimp only
  rw [hb', if_neg Bool.false_ne_true, hu, if_neg Bool.false_ne_true, hsub, Bool.not_false, if_pos rfl, exec_bind_ok (exec_admitOp_unlogged hl ..),
    exec_bind_ok (exec_modify ..), exec_pure, record_unlogged hl]
  rfl

/-- An atomic's place holds the new value after it, and nothing else changes. -/
theorem atomPut_spec {s : State} {ks : List Key} (hn : ks.Nodup) (hcan : Canonical s) (hu : unreadable s ks = false) (o : AtomOp) (y x : Nat) :
    let t := atomPut o ks y x s
    t.mem.gets ks = wordBytes ks.length (o.new (8 * ks.length) (bytesNat (s.mem.gets ks)) y x) ∧ (∀ k, k ∉ ks → t.mem.get k = s.mem.get k) ∧
      t.front = s.front := by
  have hmem : (s.touch ks).mem = s.mem := by
    unfold State.touch
    split <;> rfl
  have hfront := (walked_touch s ks).front
  have hu' : unreadable (s.touch ks) ks = false := by
    rw [walked_touch s ks]
    exact hu
  unfold atomPut
  split
  · rename_i h
    obtain ⟨rfl, hne⟩ := h
    refine ⟨?_, fun k _ => by rw [hmem], hfront⟩
    have hlen : (s.mem.gets ks).length = ks.length := List.length_map ..
    rw [hmem, show AtomOp.new .cas (8 * ks.length) (bytesNat (s.mem.gets ks)) y x = bytesNat (s.mem.gets ks) from if_neg hne, ← hlen,
      wordBytes_bytesNat]
  · obtain ⟨hm, -, hf⟩ := storeAt_readable (s := s.touch ks) (isn := s.stamp) (shelve := s.floor < s.stamp)
      (kbs := ks.zip (wordBytes ks.length (o.new (8 * ks.length) (bytesNat (s.mem.gets ks)) y x))) (by rwa [keys_of_zip_wordBytes])
    rw [hmem] at hm
    refine ⟨?_, fun k hk => ?_, hf.trans hfront⟩
    · rw [hm, gets_sets_zip hn (wordBytes_length ..) hcan]
    · rw [hm, get_sets_of_not_mem (by rwa [keys_of_zip_wordBytes]) hcan]

/-! ### The instruction -/

theorem rd_wr_other {s : State} {r x : SReg} (h : x ≠ r) (v : Word) : (s.wr r v).rd x = s.rd x := by rw [rd_wr, if_neg fun hx => h hx.1]

/-- An atomic ends with its old value in its register. -/
def atomDone (o : AtomOp) (a : AtomArgs) (n : Nat) (ks : List Key) (s : State) : State :=
  (nextIfRel a.ord ((atomPut o ks (lowN (8 * n) (s.rd a.sb)) (lowN (8 * n) (s.rd a.sd)) s).wr a.sd
    (loadValue a.sg n (bytesNat (s.mem.gets ks)))).leave).done

/-- What is left of an atomic once nothing holds it up. -/
def atomEnd (o : AtomOp) (a : AtomArgs) (n : Nat) (ks : List Key) (va : Nat) : M Unit := do
  let s ← get
  let old ← doAtom o o.sub (scalarEye s) (s.floor < s.stamp) ks va (lowN (8 * n) (s.rd a.sb)) (lowN (8 * n) (s.rd a.sd))
  modify fun s => (nextIfRel a.ord (s.wr a.sd (loadValue a.sg n old)).leave).done

theorem exec_atomEnd {s : State} {ks : List Key} (hl : s.front.logMode = 0) (hb : atomBlocked s s.stamp (ks.headD 0) = false)
    (hu : unreadable s ks = false) (o : AtomOp) (a : AtomArgs) (n va : Nat) :
    M.exec (atomEnd o a n ks va) s = (.ok (), atomDone o a n ks s) := by
  rw [atomEnd, exec_bind_ok (exec_get s), exec_bind_ok (exec_doAtom hl hb hu ..), exec_modify]
  rfl

theorem exec_atomM {o : AtomOp} {a : AtomArgs} {s s1 : State} {pl : Place} {ks : List Key} (hq : Quiet s)
    (hr : Reaches s (scalarVa s a.sa a.off) (Width.bytes a.w) .both pl ks s1) (hok : atomPlaceOk o pl = true) :
    M.exec (atomM o a) s = if ks.all (fun k => peerOpen s1 k 0)
      then M.exec (atomEnd o a (Width.bytes a.w) ks (scalarVa s a.sa a.off)) (released a.ord a.sc ks s1) else (.error .wait, s1) := by
  have hq1 := (walked_of_reaches hr).quiet hq
  have hwatch : M.exec (scalarWatch (scalarVa s a.sa a.off) (Width.bytes a.w) true true) s1 = (.ok (), s1) :=
    exec_scalarWatch_of_reaches hr rfl rfl
  rw [atomM, exec_bind_ok (exec_get s)]
  dsimp only
  rw [exec_bind_ok (exec_scalarPlace_of_reaches hr hok)]
  dsimp only
  rw [exec_bind_ok hwatch, exec_bind_ok (exec_hostAnswer_lockstep hq1.1 ..), exec_bind_ok (exec_get s1), exec_waitFor_bind,
    scalarReady_quiet hq1, exec_release_bind hq1]
  rfl

theorem atomDone_spec {o : AtomOp} {a : AtomArgs} {n : Nat} {ks : List Key} {s : State} (hn : ks.Nodup) (hlen : ks.length = n) (hcan : Canonical s)
    (hu : unreadable s ks = false) :
    let t := atomDone o a n ks s
    t.rd a.sd = (if a.sd = 0 then 0 else loadValue a.sg n (bytesNat (s.mem.gets ks))) ∧
      t.mem.gets ks = wordBytes n (o.new (8 * n) (bytesNat (s.mem.gets ks)) (lowN (8 * n) (s.rd a.sb)) (lowN (8 * n) (s.rd a.sd))) ∧
      (∀ k, k ∉ ks → t.mem.get k = s.mem.get k) ∧ (∀ r, r ≠ a.sd → t.rd r = s.rd r) ∧ t.front.w = s.front.w ∧ t.front.pc = s.front.pc + 8 := by
  obtain ⟨hm, hother, hf⟩ := atomPut_spec hn hcan hu o (lowN (8 * n) (s.rd a.sb)) (lowN (8 * n) (s.rd a.sd))
  rw [hlen] at hm
  unfold atomDone
  generalize atomPut o ks (lowN (8 * n) (s.rd a.sb)) (lowN (8 * n) (s.rd a.sd)) s = v at hm hother hf
  generalize loadValue a.sg n (bytesNat (s.mem.gets ks)) = z
  obtain ⟨c, k, hc⟩ := nextIfRel_eq a.ord (v.wr a.sd z).leave
  have hwr := wr_mem v a.sd z
  rw [hc]
  refine ⟨rd_wr_same .., ?_, fun k hk => ?_, fun r hne => ?_, ?_, ?_⟩
  · exact (congrArg (fun m : Memory => m.gets ks) hwr).trans hm
  · exact (congrArg (fun m : Memory => m.get k) hwr).trans (hother k hk)
  · exact (rd_wr_other hne z).trans (rd_of_front (congrArg Front.s hf) r)
  · exact (wr_front_w ..).trans (congrArg Front.w hf)
  · exact congrArg (· + 8) ((wr_front_pc ..).trans (congrArg Front.pc hf))

/-- Settles O21: the checks pass, the peers are waited for, a release comes first, and the atomic ends as `atomDone_spec` says. -/
theorem atomicsAtTheirPlace : Obligations.AtomicsAtTheirPlace := by
  unfold Obligations.AtomicsAtTheirPlace
  intro o a s s1 pl ks va n s2 x y new i hwidth hq hr hok
  have hexec := exec_atomM hq hr hok
  have hi : exec i s = frontM (atomM o a) s := by
    rw [← exec_atomInstr]
    cases o <;> rfl
  have hnew : new = atomResult o x y ((s.rd a.sd).setWidth (8 * n)) := by cases o <;> rfl
  have hn : 0 < 8 * n := by rcases hwidth with h | h <;> simp only [n, h, Width.bits] <;> omega
  have hf : s1.front = s.front := (walked_of_reaches hr).front
  have hq1 := (walked_of_reaches hr).quiet hq
  obtain ⟨-, -, hk, hnodup, -, -, -⟩ := hr
  rw [hi]
  refine ⟨fun hopen => frontM_wait (hexec.trans (if_neg hopen)), fun hopen hcan hu hb => ?_⟩
  obtain ⟨-, -, -, -, -, hlog⟩ := quiet_released hq1 a.ord a.sc ks
  replace hexec := (hexec.trans (if_pos hopen)).trans (exec_atomEnd hlog hb hu ..)
  obtain ⟨p, hf2⟩ : ∃ p, s2.front = { s1.front with pwatch := p } := front_released a.ord a.sc ks s1
  have hlen : ks.length = n := keysOf_length hk
  have hregs : s2.front.s = s.front.s := by rw [hf2, hf]
  have hold : bytesNat (s2.mem.gets ks) < 2 ^ (8 * n) := by
    rw [← hlen, ← (List.length_map .. : (s2.mem.gets ks).length = _)]
    exact bytesNat_lt _
  obtain ⟨hsd, hm, hother, hrd, hw, hpc⟩ := atomDone_spec (o := o) (a := a) hnodup hlen hcan hu
  have hx : bytesNat (s2.mem.gets ks) = x.toNat := (Nat.mod_eq_of_lt hold).symm.trans (BitVec.toNat_ofNat ..).symm
  refine ⟨atomDone o a n ks s2, frontM_ok hexec, ?_, ?_, hother, fun r hne => (hrd r hne).trans (rd_of_front hregs r), ?_, ?_⟩
  · rw [hsd, loadValue_eq (by omega) hold]
  · rw [hm, rd_of_front hregs, rd_of_front hregs, lowN_eq, lowN_eq, hx, new_eq hn, hnew]
  · rw [hw, hf2, hf]
  · rw [hpc, hf2, hf]

end Sys2Proof.Proofs
end

section
/-! Translation by the walk of the tables (R152, R278, R280, R295, R297 to R302, R311). -/

namespace Sys2Proof.Proofs

open Sys2Proof Sys2Proof.Machine Sys2Proof.Safety Sys2Proof.Laws

/-! ### The walk -/

/-- What an access wakes: some of what is at rest, and the hints of the rows that it touches. -/
def Woken (s u : State) : Prop :=
  ∃ dr sl rw, u = { s with drowsy := dr, asleep := sl, rows := rw } ∧ (∀ x ∈ dr, x ∈ s.drowsy) ∧ (∀ x ∈ sl, x ∈ s.asleep) ∧
    rw.map (fun x => (x.pc, x.bank, x.row)) = s.rows.map (fun x => (x.pc, x.bank, x.row))

theorem Woken.refl (s : State) : Woken s s := ⟨s.drowsy, s.asleep, s.rows, rfl, fun _ => id, fun _ => id, rfl⟩

theorem woken_touch (s : State) (ks : List Key) : Woken s (s.touch ks) := by
  unfold State.touch
  split
  · exact .refl s
  · refine ⟨_, _, _, rfl, fun _ h => (List.mem_filter.1 h).1, fun _ h => (List.mem_filter.1 h).1, ?_⟩
    rw [List.map_map]
    refine List.map_congr_left fun r _ => ?_
    dsimp only [Function.comp]
    split <;> rfl

theorem woken_walked (s : State) (va : Nat) : Woken s (s.walked va) := by
  unfold State.walked
  split
  · exact .refl s
  · exact woken_touch ..

theorem Woken.keeps {s u : State} (h : Woken s u) : u.front = s.front ∧ u.mem = s.mem ∧ u.shelves = s.shelves ∧ u.monitors = s.monitors := by
  obtain ⟨dr, sl, rw', rfl, -⟩ := h
  exact ⟨rfl, rfl, rfl, rfl⟩

/-! ### Look-ups -/

theorem exec_lookup_high {va : Nat} (h : 2 ^ 56 ≤ va) (agent elem : Nat) (wr : Bool) (s : State) :
    M.exec (lookup agent va wr elem) s = (.error (.trap (mkTrap causeXlateMissing 0 elem va)), s) := by
  rw [lookup, exec_bind_ok (exec_get s), if_pos h]
  rfl

/-- What a look-up answers to a walk. -/
def walkAnswer (elem va : Nat) : Walk → Except Stop (Place × Bool)
  | .leaf e k base bits => .ok ({ leaf := e, leafAt := k, base := base, bits := bits }, false)
  | .missing info => .error (.trap (mkTrap causeXlateMissing info elem va))
  | .bad k => .error (.trap (badTable elem k))

/-- Without an entry in the TLB a look-up waits for a migration that holds the page, else walks. -/
theorem exec_lookup_miss {agent va : Nat} {s : State} (hva : va < 2 ^ 56) (ht : tlbHit s agent s.front.asid va = none) (wr : Bool) (elem : Nat) :
    M.exec (lookup agent va wr elem) s = if agent < hostAgent && pageHeld s s.front.asid va then (.error .wait, s)
      else (walkAnswer elem va (walk s s.front.root s.front.rclass va), s.walked va) := by
  rw [lookup, exec_bind_ok (exec_get s), if_neg (by omega), ht]
  dsimp only
  by_cases hheld : (decide (agent < hostAgent) && pageHeld s s.front.asid va) = true
  · rw [if_pos hheld, if_pos hheld]
    rfl
  · rw [if_neg hheld, if_neg hheld]
    cases walk s s.front.root s.front.rclass va <;> rfl

/-! ### Permissions -/

theorem fld_one_eq_testBit (i e : Nat) : (fld i 1 e == 1) = e.testBit i := by
  rw [Nat.testBit_eq_decide_div_mod_eq]
  rfl

/-- The page may be accessed so (R152). -/
def Allowed (mode : Bool) (p : Perm) (e : Nat) : Prop :=
  (mode = true ∨ e.testBit 6 = true) ∧ (p = .read ∨ p = .both → e.testBit 3 = true) ∧ (p = .write ∨ p = .both → e.testBit 4 = true) ∧
    (p = .exec → e.testBit 5 = true)

theorem allowed_iff (mode : Bool) (p : Perm) (e : Nat) : Allowed mode p e ↔ (!mode && !pteU e) = false ∧ permits p e = true := by
  have hu : pteU e = e.testBit 6 := fld_one_eq_testBit ..
  have hr : pteR e = e.testBit 3 := fld_one_eq_testBit ..
  have hw : pteW e = e.testBit 4 := fld_one_eq_testBit ..
  have hx : pteX e = e.testBit 5 := fld_one_eq_testBit ..
  unfold Allowed permits
  rw [hu, hr, hw, hx]
  cases mode <;> cases p <;> simp

theorem permWrites_iff (p : Perm) : permWrites p = true ↔ p = .write ∨ p = .both := by cases p <;> simp [permWrites]

/-! ### The accessed and dirty bits (R302) -/

/-- What the walk of an allowed access does to its leaf: nothing, or its bits are put in memory and in the pre-images, and
watched blocks note the write. -/
def Marked (s t : State) (k : Key) (bits : Nat) : Prop :=
  t = s ∨ ∃ sh mo, sh.map (fun x => (x.own, x.sid, x.sector, x.isn)) = s.shelves.map (fun x => (x.own, x.sid, x.sector, x.isn)) ∧
    mo.map (fun x => (x.sid, x.keys)) = s.monitors.map (fun x => (x.sid, x.keys)) ∧
    t = { s with mem := s.mem.putNum k 8 (s.mem.num k 8 ||| bits), shelves := sh, monitors := mo }

theorem notedIn_monitors (s : State) (p : Key → Bool) :
    ∃ mo, mo.map (fun x => (x.sid, x.keys)) = s.monitors.map (fun x => (x.sid, x.keys)) ∧ s.notedIn p = { s with monitors := mo } := by
  unfold State.notedIn
  split
  · exact ⟨s.monitors, rfl, rfl⟩
  · refine ⟨_, ?_, rfl⟩
    rw [List.map_map]
    refine List.map_congr_left fun m _ => ?_
    dsimp only [Function.comp]
    split <;> rfl

theorem shelf_marked_of (k e bits : Nat) (r : Shelf) :
    ((r.marked k e bits).own, (r.marked k e bits).sid, (r.marked k e bits).sector, (r.marked k e bits).isn) = (r.own, r.sid, r.sector, r.isn) := by
  unfold Shelf.marked
  dsimp only
  split <;> rfl

/-- The bits a walk sets: A, and D for a write. -/
def adBits (wr : Bool) : Nat := if wr then 0x180 else 0x80

/-- The leaf at `k` takes bits that it has not. -/
def setBits (s : State) (k : Key) (bits : Nat) : State :=
  if (s.mem.num k 8 ||| bits) = s.mem.num k 8 then s
  else { s.write k 8 (s.mem.num k 8 ||| bits) with shelves := s.shelves.map (Shelf.marked k (s.mem.num k 8) bits) }

theorem exec_setAD (s : State) (k : Key) (wr : Bool) : M.exec (setAD k wr) s = (.ok (), setBits s k (adBits wr)) := rfl

theorem marked_setBits (s : State) (k : Key) (bits : Nat) : Marked s (setBits s k bits) k bits := by
  unfold setBits
  split
  · exact .inl rfl
  · obtain ⟨mo, hmo, hn⟩ := notedIn_monitors s fun x => k ≤ x && x < k + 8
    refine .inr ⟨s.shelves.map (Shelf.marked k (s.mem.num k 8) bits), mo, ?_, hmo, ?_⟩
    · rw [List.map_map]
      exact List.map_congr_left fun r _ => shelf_marked_of ..
    · rw [State.write, State.noted, hn]

theorem testBit_setBits {s : State} (h : Canonical s) (k : Key) {bits i : Nat} (hi : i < 64) (hb : bits.testBit i = true) :
    ((setBits s k bits).mem.num k 8).testBit i = true := by
  have hor : (s.mem.num k 8 ||| bits).testBit i = true := by rw [Nat.testBit_or, hb, Bool.or_true]
  unfold setBits
  split
  · rename_i he
    rwa [he] at hor
  · have hnum : (s.mem.putNum k 8 (s.mem.num k 8 ||| bits)).num k 8 = (s.mem.num k 8 ||| bits) % 2 ^ 64 := num_putNum 8 _ _ _ h
    dsimp only [State.write]
    rw [hnum, Nat.testBit_mod_two_pow, hor, decide_eq_true hi]
    rfl

/-! ### The translation -/

/-- Permission comes after the look-up, the bits of the leaf last. -/
theorem exec_xlate_of_walked {agent va elem : Nat} {p : Perm} {s u : State} {pl : Place}
    (h : M.exec (lookup agent va (permWrites p) elem) s = (.ok (pl, false), u)) :
    (¬ Allowed u.front.csr.mode p pl.leaf → M.exec (xlate agent va p elem) s = (.error (.trap (mkTrap causeXlatePerm 0 elem va)), u)) ∧
    (Allowed u.front.csr.mode p pl.leaf → M.exec (xlate agent va p elem) s = (.ok pl, setBits u pl.leafAt (adBits (permWrites p)))) := by
  rw [allowed_iff, xlate, exec_bind_ok h]
  dsimp only
  rw [exec_bind_ok (exec_get u)]
  refine ⟨fun hn => ?_, fun ⟨hu, hp⟩ => ?_⟩
  · by_cases hu : (!u.front.csr.mode && !pteU pl.leaf) = true
    · rw [if_pos hu]
      rfl
    · have hp : permits p pl.leaf = false := by simpa [hu] using hn
      rw [if_neg hu, hp]
      rfl
  · rw [hu, if_neg Bool.false_ne_true, hp, if_neg (by decide), Bool.not_false, if_pos rfl, exec_bind_ok (exec_setAD ..), exec_pure]

theorem exec_xlate_of_error {agent va elem : Nat} {p : Perm} {s u : State} {e : Stop}
    (h : M.exec (lookup agent va (permWrites p) elem) s = (.error e, u)) : M.exec (xlate agent va p elem) s = (.error e, u) := by
  rw [xlate, exec_bind_error h]

/-- Settles O23: the look-up answers as the walk found, permission is checked, and the leaf takes its bits. -/
theorem translationByTables : Obligations.TranslationByTables := by
  unfold Obligations.TranslationByTables
  intro agent va elem p s e k base bits writes allowed u
  refine ⟨fun hva => exec_xlate_of_error (exec_lookup_high hva ..), woken_walked s va, fun hva ht ha hh => ?_, fun hva ht hfree => ?_⟩
  · refine exec_xlate_of_error ((exec_lookup_miss hva ht ..).trans (if_pos ?_))
    rw [hh, decide_eq_true ha]
    rfl
  have hlook : M.exec (lookup agent va (permWrites p) elem) s = (walkAnswer elem va (walk s s.front.root s.front.rclass va), u) := by
    refine (exec_lookup_miss hva ht ..).trans (if_neg fun h => ?_)
    rw [Bool.and_eq_true, decide_eq_true_eq] at h
    rcases hfree with hfree | hfree
    · omega
    · exact absurd (hfree.symm.trans h.2) Bool.false_ne_true
  refine ⟨fun info hw => exec_xlate_of_error (by rw [hlook, hw]; rfl), fun hw => ?_⟩
  rw [hw] at hlook
  obtain ⟨hfront, hmem, hshelves, hmon⟩ : u.front = s.front ∧ u.mem = s.mem ∧ u.shelves = s.shelves ∧ u.monitors = s.monitors :=
    (woken_walked s va).keeps
  obtain ⟨hdeny, hallow⟩ := exec_xlate_of_walked hlook
  rw [hfront] at hdeny hallow
  have hbits : adBits (permWrites p) = if p = .write ∨ p = .both then 0x180 else 0x80 := if_congr (permWrites_iff p) rfl rfl
  have hset {i : Nat} (hcan : Canonical s) (hi : i < 64) := testBit_setBits (s := u) (by rwa [Canonical, hmem]) k (bits := adBits (permWrites p)) hi
  refine ⟨hdeny, fun h => ⟨_, hallow h, ?_, fun hcan => ⟨hset hcan (by omega) ?_, fun hwr => hset hcan (by omega) ?_⟩⟩⟩
  · have hmarked := marked_setBits u k (adBits (permWrites p))
    rw [Marked, hmem, hshelves, hmon] at hmarked
    rw [← hbits]
    exact hmarked
  · cases permWrites p <;> rfl
  · rw [hbits, if_pos hwr]
    rfl

end Sys2Proof.Proofs
end

section
/-! Branches on the bits of a window (R153, R178, R179). -/

namespace Sys2Proof.Proofs

open Sys2Proof Sys2Proof.Machine Sys2Proof.Safety Sys2Proof.Laws

/-- The branch on a condition, by the condition. -/
def condInstr (c : Cond) (wa : WReg) (off : BitVec 32) : Instr := match c with
  | .any => .bany wa off
  | .all => .ball wa off
  | .none_ => .bnone wa off

theorem exec_condInstr (c : Cond) (wa : WReg) (off : BitVec 32) (s : State) :
    exec (condInstr c wa off) s = condBranch (condInstr c wa off) (infoCond c wa) off s := by cases c <;> rfl

/-- The condition holds of the bits. -/
def Taken (c : Cond) (bits : List Nat) : Prop := match c with
  | .any => ∃ x ∈ bits, x = 1
  | .all => ∀ x ∈ bits, x = 1
  | .none_ => ∀ x ∈ bits, x ≠ 1

theorem taken_iff (c : Cond) (bits : List Nat) : c.taken bits = true ↔ Taken c bits := by
  cases c with
  | any => simp [Cond.taken, Taken]
  | all => simp [Cond.taken, Taken]
  | none_ => simp [Cond.taken, Taken]

/-- A branch moves the pc alone. -/
theorem takeBranch_eq (pc : Word) (off : BitVec 32) (r : State × Option Word) : ∃ a, takeBranch pc off r = r.1.setPc a := by
  unfold takeBranch
  split
  · split
    · exact ⟨r.1.front.pc, rfl⟩
    · exact ⟨_, rfl⟩
  · exact ⟨r.1.front.pc, rfl⟩

/-- As `driveB_done`, with the result of the tree. -/
theorem driveB_done_result {s s2 : State} {b b2 : Bcast} {info : BInfo} (hp : performB s b info.body = (s2, b2, none))
    (hm : s2.msgs.any (fun m => m.sid == s2.front.sid) = false) (hl : s2.front.late = none) :
    driveB s b info = ((finishB s2 b2 info.body).1, some (finishB s2 b2 info.body).2) := by
  obtain ⟨-, -, -, -, -, -, -, hlate⟩ := finishB_spec s2 b2 info.body
  rw [driveB, hp]
  dsimp only
  rw [hm, if_neg nofun]
  rw [lateStop, hlate.trans hl]

/-- Without a real element a condition has no bit to read. -/
theorem performB_cond_none {s : State} {b : Bcast} {c : Cond} (hl : b.leaves = []) (hr : b.carry.real = 0) :
    (performB s b (bodyCond c)).2.1.leaves = [] := by
  have hrest (t : State) (d : Bcast) : restItems t d [] = [] := by
    unfold restItems startItems
    split <;> rfl
  have hperf (d : Bcast) : performInOrder s d [] = (s, d, none) := by rw [performInOrder, hrest, runItems]
  unfold performB
  dsimp only
  rw [hl, if_pos List.isEmpty_nil]
  have hphase : M.exec (do (bodyCond c).ready (eyeOf s b) b; (bodyCond c).phase1 (eyeOf s b) b) s = (.ok (0, []), s) := rfl
  rw [hphase]
  dsimp only
  have hplan (fp : Option (List Range)) (d : Bcast) (h : d.carry.real = 0) : M.exec ((bodyCond c).plan (eyeOf s b) fp d) s = (.ok [], s) := by
    change (Except.ok ((List.range d.carry.real).map _), s) = _
    rw [h]
    rfl
  rw [hplan]
  · dsimp only
    rw [if_neg (c := (bodyCond c).apart = true) nofun, hperf]
  · exact hr

/-- A branch on a condition whose bits are read ends as its broadcast does, and is taken by them. -/
theorem condBranch_done {i : Instr} {c : Cond} {wa : WReg} {off : BitVec 32} {s s2 : State} {b2 : Bcast} (hp : s.pace = .lockstep)
    (hf : issueFault (infoCond c wa) s = none) (hr : issueReady i (infoCond c wa) s = true)
    (hperf : performB (issued (newB i (infoCond c wa) s) s) (newB i (infoCond c wa) s) (bodyCond c) = (s2, b2, none))
    (hm : s2.msgs.any (fun m => m.sid == s2.front.sid) = false) (hl : s2.front.late = none) :
    condBranch i (infoCond c wa) off s =
      .next (takeBranch s.front.pc off ((finishB s2 b2 (bodyCond c)).1, some (if c.taken (b2.leaves.map (·.2)) then 1 else 0))) := by
  rw [condBranch, hf]
  dsimp only
  rw [hr, if_pos rfl, issueNow_lockstep hp, driveB_done_result hperf hm hl]
  rfl

/-- Settles O27: the broadcast ends as `finishB_spec` says, and the tree's result decides. -/
theorem bankConditionBranches : Obligations.BankConditionBranches := by
  unfold Obligations.BankConditionBranches
  intro c wa off s s2 b2 i info hp hf hr b s1 hperf hm hl bits taken
  have hi : i = condInstr c wa off := by cases c <;> rfl
  have htaken : c.taken bits = true ↔ taken := by
    rw [taken_iff]
    cases c <;> exact Iff.rfl
  have hexec : exec i s = .next (takeBranch s.front.pc off ((finishB s2 b2 (bodyCond c)).1, some (if c.taken bits then 1 else 0))) := by
    rw [hi, exec_condInstr, ← hi]
    exact condBranch_done hp hf hr hperf hm hl
  obtain ⟨hcsr, hrd, hmem, -, hpc, -, -, -⟩ := finishB_spec s2 b2 (bodyCond c)
  replace hrd (r : SReg) : (finishB s2 b2 (bodyCond c)).1.rd r = s2.rd r := (hrd r).trans (if_neg fun ⟨_, h⟩ => Option.some_ne_none _ h.symm)
  have hnone (h : b.carry.real = 0) : b2.leaves = [] := by
    have := performB_cond_none (s := issued b s) (c := c) (b := b) rfl h
    rwa [show performB (issued b s) b (bodyCond c) = _ from hperf] at this
  refine ⟨_, hexec, fun h => ?_, fun h => ?_, ?_, ?_, fun r => ?_, hnone⟩
  · rw [htaken.2 h]
    rfl
  · rw [Bool.eq_false_iff.2 (h ∘ htaken.1)]
    exact hpc
  all_goals
    obtain ⟨a, ha⟩ := takeBranch_eq s.front.pc off ((finishB s2 b2 (bodyCond c)).1, some (if c.taken bits then 1 else 0))
    rw [ha]
  · exact congrArg Csrs.floor hcsr
  · exact hmem
  · exact hrd r

end Sys2Proof.Proofs
end

section
/-! Fences, releases and acquires at sync blocks (R150, R319, R321 to R323, R329, R333, R348). -/

namespace Sys2Proof.Proofs

open Sys2Proof Sys2Proof.Machine Sys2Proof.Safety Sys2Proof.Laws

/-! ### Fences -/

theorem exec_fence_quiet {s : State} (hq : Quiet s) (sc : Scope) :
    exec (.fence sc) s = .next (deliverResiduals s (scopeMem s.front sc [])).nextInterval.done := by
  change execFence sc s = _
  unfold execFence
  refine frontM_ok ?_
  rw [exec_bind_ok (exec_get s), exec_waitFor_bind, loadsOut_of_none hq.2.1, if_pos (beq_self_eq_true _), exec_bind_ok (exec_releaseM_quiet hq ..),
    exec_modify]

theorem exec_rflush_quiet {s : State} (hq : Quiet s) (sc : Scope) :
    exec (.rflush sc) s = .next (deliverResiduals s (scopeMem s.front sc [])).done := by
  obtain ⟨-, ha, -, -, hfloor, -⟩ := hq
  change execRflush sc s = _
  unfold execRflush
  refine frontM_ok ?_
  rw [exec_bind_ok (exec_get s), exec_waitFor_bind, loadsOut_of_none ha, hfloor, Bool.true_and, if_pos (beq_self_eq_true _), exec_modify]

/-! ### Blocks -/

theorem exec_blockSound {s : State} {ks : List Key} (h : unreadable s ks = false) (va : Nat) : M.exec (blockSound ks va) s = (.ok (), s) := by
  rw [blockSound, exec_bind_ok (exec_get s), exec_need, h]
  rfl

theorem exec_blockFree {s : State} (h : s.front.accesses = []) (ks : List Key) : M.exec (blockFree ks) s = (.ok (), s) := by
  rw [blockFree, exec_bind_ok (exec_get s), exec_waitFor, h]
  rfl

/-- The home looks at those that wait at the block; where nobody does, it is done. -/
theorem wakeBlock_of_nobody {s : State} {k : Key} (h : ∀ w ∈ s.waiters, w.block ≠ k) (n : Nat) : wakeBlock n k s = s := by
  have hnone : s.waiters.filter (fun w => w.block == k) = [] :=
    List.filter_eq_nil_iff.2 fun w hw => by simpa using h w hw
  cases n with
  | zero => rfl
  | succ n =>
    unfold wakeBlock
    rw [hnone]
    rfl

theorem homeOp_ok_of_nobody {m : M Key} {s t : State} {k : Key} (h : M.exec m s = (.ok k, t)) (hw : ∀ w ∈ t.waiters, w.block ≠ k) :
    homeOp m s = .next t := by
  unfold homeOp
  rw [h]
  exact congrArg Host.Outcome.next (wakeBlock_of_nobody hw _)

theorem unlessWaiting_of_not_waiting {s : State} (h : ∀ w ∈ s.waiters, w.sid ≠ s.front.sid) (m : State → Out) : unlessWaiting m s = m s := by
  unfold unlessWaiting
  rw [List.find?_eq_none.2 fun w hw => by simpa using h w hw]

theorem syncKeys_of_front {s t : State} (h : t.front.csr = s.front.csr) (ks : List Key) : syncKeys t ks = syncKeys s ks := by
  rw [syncKeys, syncKeys, h]

/-! ### srel (R321) -/

/-- An `srel` to a block at `ks`, as it is in flight. -/
def srelAccess (sd : SReg) (imm : BitVec 31) (va : Nat) (ks : List Key) (s : State) : Access :=
  { kind := .rel sd, va := BitVec.ofNat 64 va, key := ks.headD 0, size := 1024, data := BitVec.ofNat 64 (imm.signExtend 64).toNat, stamp := s.stamp,
    pc := s.front.pc, done := none, wrote := [], acked := false, clock := relClock s.front, bits := pageBits s va }

/-- What an `srel` that leaves the front leaves. -/
def srelFlown (sd : SReg) (imm : BitVec 31) (va : Nat) (ks : List Key) (s : State) : State :=
  ((({ s with front := { s.front with accesses := s.front.accesses ++ [srelAccess sd imm va ks s] } }).leave).nextInterval).done

/-- What an `srel` that its home performs at once leaves. -/
def srelHome (sd : SReg) (imm : BitVec 31) (ks : List Key) (s : State) : State :=
  let r := relAtHome s s.stamp ks (imm.signExtend 64).toNat (relClock s.front)
  (((r.1.wr sd (BitVec.ofNat 64 r.2)).leave).nextInterval).done

section
variable {sd sa : SReg} {sc : Scope} {imm : BitVec 31} {s s1 : State} {ks : List Key}

/-- What is left of an `srel` once nothing holds it up. -/
def srelEnd (sd : SReg) (imm : BitVec 31) (va : Nat) (ks : List Key) : M Key := do
  let s ← get
  if mayFly s ks then modify (srelFlown sd imm va ks)
  else
    let _ ← admitOp 1 0 (objMem (ks.headD 0)) (fun _ => true) (some (blockWord s ks 0))
    modify (srelHome sd imm ks)
  pure (ks.headD 0)

theorem exec_srelM {s2 : State} (hl : loadsOut s.front = 0) (hp : M.exec (blockPlace (s.rd sa).toNat 1024) s = (.ok ks, s1))
    (hr : releaseReady s1 = true) (hd : deliverResiduals s1 (scopeMem s1.front sc (ownerOf s (ks.headD 0)).toList) = s2)
    (hu : unreadable s2 (syncKeys s ks) = false) : M.exec (srelM sd sa sc imm) s = M.exec (srelEnd sd imm (s.rd sa).toNat ks) s2 := by
  have hrelease : M.exec (releaseM sc (ownerOf s (ks.headD 0)).toList) s1 = (.ok (), s2) := by
    rw [releaseM, exec_bind_ok (exec_get s1), exec_waitFor_bind, hr, if_pos rfl, exec_modify, hd]
  rw [srelM, exec_bind_ok (exec_get s), exec_waitFor_bind, hl, if_pos (beq_self_eq_true _)]
  rw [exec_bind_ok hp]
  dsimp only
  rw [exec_bind_ok hrelease, exec_bind_ok (exec_blockSound hu _)]
  rfl

end

theorem exec_srelEnd_fly {s : State} {ks : List Key} (h : mayFly s ks = true) (sd : SReg) (imm : BitVec 31) (va : Nat) :
    M.exec (srelEnd sd imm va ks) s = (.ok (ks.headD 0), srelFlown sd imm va ks s) := by
  rw [srelEnd, exec_bind_ok (exec_get s), if_pos h, exec_bind_ok (exec_modify ..), exec_pure]

theorem exec_srelEnd_home {s : State} {ks : List Key} (h : mayFly s ks = false) (hl : s.front.logMode = 0) (sd : SReg) (imm : BitVec 31) (va : Nat) :
    M.exec (srelEnd sd imm va ks) s = (.ok (ks.headD 0), srelHome sd imm ks s) := by
  rw [srelEnd, exec_bind_ok (exec_get s), h, if_neg Bool.false_ne_true, exec_bind_ok (exec_admitOp_unlogged hl ..),
    exec_bind_ok (exec_modify ..), exec_pure]

/-- What the home of a block puts for an `srel`: FLAG, and the clock that the operation carries. -/
def relPut (s : State) (st : Nat) (ks : List Key) (inc : Nat) (clock : Option (List (Nat × Nat))) : State :=
  let u := putBlock s st ks 0 ((blockWord s ks 0 + inc) % 2 ^ 64)
  match clock with
  | some v => putClock u st ks (clockJoin (blockClock u ks) v)
  | none => u

theorem relAtHome_unlogged {s : State} (hl : s.front.logMode = 0) (st : Nat) (ks : List Key) (inc : Nat) (clock : Option (List (Nat × Nat))) :
    relAtHome s st ks inc clock = (relPut s st ks inc clock, blockWord s ks 0) := by
  have hrec := record_unlogged hl 1 0 (objMem (ks.headD 0)) (blockWord s ks 0) inc
  unfold relAtHome
  dsimp only
  rw [hrec]
  cases clock <;> rfl

theorem relPut_none (s : State) (st : Nat) (ks : List Key) (inc : Nat) :
    relPut s st ks inc none = putBlock s st ks 0 ((blockWord s ks 0 + inc) % 2 ^ 64) := rfl

/-- FLAG is put at its bytes. -/
theorem stored_putFlag {s : State} {ks : List Key} (h : unreadable s (ks.take 8) = false) (st v : Nat) :
    Stored s ((ks.take 8).zip (wordBytes 8 v)) (putBlock s st ks 0 v) := by
  refine stored_storeAt (unreadable_mono h fun k hk => ?_) st
  obtain ⟨p, hp, rfl⟩ := List.mem_map.1 hk
  exact (List.of_mem_zip hp).1

/-- The end of an operation that puts a value in a register: nothing else of the front changes but the pc. -/
theorem endOp_spec (v : State) (sd : SReg) (z : Word) :
    let t := (v.wr sd z).leave.done
    t.mem = v.mem ∧ t.rd sd = (if sd = 0 then 0 else z) ∧ (∀ r, r ≠ sd → t.rd r = v.rd r) ∧ t.front.w = v.front.w ∧ t.front.csr = v.front.csr ∧
      t.front.pc = v.front.pc + 8 ∧ t.waiters = v.waiters := by
  refine ⟨wr_mem .., rd_wr_same .., fun r hr => ?_, wr_front_w .., wr_front_csr .., congrArg (· + 8) (wr_front_pc ..), wr_waiters ..⟩
  exact rd_wr_other hr z

/-- An `srel` at its home without race checking: FLAG has grown, SD has the old one. -/
theorem srelHome_eq {s : State} {ks : List Key} (hl : s.front.logMode = 0) (hr : s.front.csr.raceEn = false)
    (hu : unreadable s (ks.take 8) = false) (sd : SReg) (imm : BitVec 31) : srelHome sd imm ks s =
      ((putBlock s s.stamp ks 0 ((blockWord s ks 0 + (imm.signExtend 64).toNat) % 2 ^ 64)).wr sd
        (BitVec.ofNat 64 (blockWord s ks 0))).leave.done := by
  obtain ⟨-, hf, -, -⟩ := stored_putFlag hu s.stamp ((blockWord s ks 0 + (imm.signExtend 64).toNat) % 2 ^ 64)
  have hclock : relClock s.front = none := by
    rw [relClock, hr]
    rfl
  unfold srelHome
  rw [relAtHome_unlogged hl, hclock, relPut_none]
  dsimp only
  rw [nextInterval_of_unchecked]
  exact unchecked_wr (by rw [hf, hr]) ..

/-! ### sacq (R322) -/

/-- What an `sacq` that takes FLAG leaves. -/
def sacqDone (sd : SReg) (ks : List Key) (s : State) : State :=
  let s := { s with waiters := s.waiters.filter (fun w => w.sid != s.front.sid) }
  let u := if s.front.csr.raceEn then { s with front := s.front.acquire (blockClock s ks) } else s
  ((u.wr sd (BitVec.ofNat 64 (blockWord s ks 0))).leave).done

theorem exec_sacqM {sd sa sb : SReg} {sc : Scope} {s s1 : State} {ks : List Key} (hq : Quiet s)
    (hp : M.exec (blockPlace (s.rd sa).toNat 1024) s = (.ok ks, s1)) (hu : unreadable s1 (syncKeys s ks) = false)
    (hw : ∀ w ∈ s1.waiters, w.sid ≠ s1.front.sid) :
    M.exec (sacqM sd sa sb sc) s =
      if blockWord s1 ks 0 < (s1.rd sb).toNat then
        (.error .wait, { s1 with waiters := s1.waiters ++ [{ block := ks.headD 0, sid := s1.front.sid, word := wordOf (.sacq sd sa sb sc) }] })
      else (.ok (), sacqDone sd ks s1) := by
  obtain ⟨-, ha, -, -, -, hl⟩ := (walked_of_exec keepsWalked_blockPlace hp).quiet hq
  have hwaits : s1.waiters.any (fun w => w.sid == s1.front.sid) = false := List.any_eq_false.2 fun w h => by simpa using hw w h
  rw [sacqM, exec_bind_ok (exec_get s), exec_waitFor_bind, loadsOut_of_none hq.2.1, if_pos (beq_self_eq_true _)]
  rw [exec_bind_ok hp, exec_bind_ok (exec_blockSound hu _), exec_bind_ok (exec_blockFree ha _), exec_bind_ok (exec_get s1)]
  dsimp only
  rw [exec_bind_ok (exec_admitOp_unlogged hl ..)]
  by_cases h : blockWord s1 ks 0 < (s1.rd sb).toNat
  · rw [if_pos h, decide_eq_true h, if_pos rfl, waitAtBlock, exec_bind_ok (exec_modify ..), hwaits]
    rfl
  · rw [if_neg h, decide_eq_false h, if_neg Bool.false_ne_true, leaveBlock, exec_bind_ok (exec_modify ..), exec_modify,
      record_unlogged (s := { s1 with waiters := s1.waiters.filter (fun w => w.sid != s1.front.sid) }) hl]
    rfl

theorem sacqDone_spec (sd : SReg) (ks : List Key) (s : State) :
    let t := sacqDone sd ks s
    t.mem = s.mem ∧ t.rd sd = (if sd = 0 then 0 else BitVec.ofNat 64 (blockWord s ks 0)) ∧ (∀ r, r ≠ sd → t.rd r = s.rd r) ∧
      t.front.csr = s.front.csr ∧ t.front.pc = s.front.pc + 8 := by
  have hend (v : State) := endOp_spec v sd (BitVec.ofNat 64 (blockWord s ks 0))
  unfold sacqDone
  dsimp only
  split
  all_goals
    obtain ⟨hm, hsd, hrd, -, hcsr, hpc, -⟩ := hend _
    exact ⟨hm, hsd, hrd, hcsr, hpc⟩

/-- Settles O44: a fence delivers, an `srel` ends as `srelHome_eq` says, and an `sacq` takes FLAG or waits. -/
theorem releasesFencesAndSyncBlocks : Obligations.ReleasesFencesAndSyncBlocks := by
  unfold Obligations.ReleasesFencesAndSyncBlocks
  intro sd sa sb sc imm s s1 ks hq
  refine ⟨exec_fence_quiet hq sc, exec_rflush_quiet hq sc, fun hp => ?_⟩
  intro s2 flag
  have hwalk := walked_of_exec keepsWalked_blockPlace hp
  obtain ⟨hpace, ha, hc, -, hfloor, -⟩ := hwalk.quiet hq
  have hkeys : syncKeys s1 ks = syncKeys s ks := syncKeys_of_front (by rw [hwalk.front]) ks
  have hwaiters : s1.waiters = s.waiters := by rw [hwalk]
  have hsacq (hu : unreadable s1 (syncKeys s1 ks) = false) (hw : ∀ w ∈ s.waiters, w.sid ≠ s.front.sid) :
      exec (.sacq sd sa sb sc) s = frontM (sacqM sd sa sb sc) s ∧ _ :=
    ⟨unlessWaiting_of_not_waiting hw _,
      exec_sacqM (sd := sd) (sa := sa) (sb := sb) (sc := sc) hq hp (by rwa [← hkeys]) (by rwa [hwaiters, hwalk.front])⟩
  refine ⟨fun hu hr hl hw => ?_, fun hu hw hflag => ?_, fun hu hw hflag => ?_⟩
  · have hf2 : s2.front = { s1.front with pwatch := s2.front.pwatch } := front_deliverResiduals ..
    have hcsr : s.front.csr = s2.front.csr := by rw [hf2, hwalk.front]
    have hsync : syncKeys s ks = ks.take 8 := by
      rw [syncKeys, hcsr, hr]
      exact List.append_nil _
    have hfly : mayFly s2 ks = false := by
      rw [mayFly, show s2.pace = .lockstep from (pace_deliverResiduals ..).trans hpace]
      rfl
    have hexec := exec_srelM (sd := sd) (imm := imm) (loadsOut_of_none hq.2.1) hp (releaseReady_of_idle ha hc hfloor) rfl (by rwa [hsync])
    replace hexec := hexec.trans ((exec_srelEnd_home hfly hl ..).trans (by rw [srelHome_eq hl hr hu]))
    obtain ⟨hvm, hvf, hvw, -⟩ := stored_putFlag hu s2.stamp ((blockWord s2 ks 0 + (imm.signExtend 64).toNat) % 2 ^ 64)
    generalize putBlock s2 s2.stamp ks 0 ((blockWord s2 ks 0 + (imm.signExtend 64).toNat) % 2 ^ 64) = v at hexec hvm hvf hvw
    obtain ⟨hm, hsd, hrd, hwin, hcsr2, hpc, hwait⟩ := endOp_spec v sd (BitVec.ofNat 64 (blockWord s2 ks 0))
    rw [hvf] at hwin hcsr2 hpc
    have hgoes : exec (.srel sd sa sc imm) s = .next (v.wr sd (BitVec.ofNat 64 (blockWord s2 ks 0))).leave.done :=
      homeOp_ok_of_nobody hexec (by rwa [hwait, hvw])
    exact ⟨_, hgoes, hm.trans hvm, hsd, fun r hne => (hrd r hne).trans (rd_of_front (congrArg Front.s hvf) r), hwin, hcsr2, hpc⟩
  · obtain ⟨hexec, hend⟩ := hsacq hu hw
    replace hend := hend.trans (if_neg (by rw [rd_of_front (congrArg Front.s hwalk.front)]; exact not_lt.2 hflag))
    obtain ⟨hm, hsd, hrd, hcsr, hpc⟩ := sacqDone_spec sd ks s1
    rw [hwalk.front] at hcsr hpc
    exact ⟨_, hexec.trans (frontM_ok hend), hm, hsd, fun r hne => (hrd r hne).trans (rd_of_front (congrArg Front.s hwalk.front) r), hcsr, hpc⟩
  · obtain ⟨hexec, hend⟩ := hsacq hu hw
    exact hexec.trans (frontM_wait (hend.trans (if_pos (by rw [rd_of_front (congrArg Front.s hwalk.front)]; exact hflag))))

end Sys2Proof.Proofs
end

section
/-! An `srel` in flight (R135, R321): what it leaves, and a memory not in canonical form that its home breaks. -/

namespace Sys2Proof.Proofs

open Sys2Proof Sys2Proof.Machine Sys2Proof.Safety Sys2Proof.Laws

/-- Keys of bytes that each have one. -/
theorem keysOf_of_each {s : State} {pl : Place} {va n : Nat} {f : Nat → Key} (h : ∀ i < n, keyOf s pl (va + i) = some (f i)) :
    keysOf s pl va n = some ((List.range n).map f) := by
  have hfold (l : List Nat) (hl : ∀ i ∈ l, i < n) : l.foldr (fun i acc => match keyOf s pl (va + i), acc with
      | some k, some ks => some (k :: ks)
      | _, _ => none) (some []) = some (l.map f) := by
    induction l with
    | nil => rfl
    | cons i l ih =>
      rw [List.foldr_cons, ih fun j hj => hl j (List.mem_cons_of_mem _ hj), h i (hl i (List.mem_cons_self ..))]
      rfl
  exact hfold _ fun i hi => List.mem_range.1 hi

/-- An `srel` that nothing holds up and that may fly leaves the front. -/
theorem exec_srel_fly {sd sa : SReg} {sc : Scope} {imm : BitVec 31} {s s1 s2 : State} {ks : List Key} (hl : loadsOut s.front = 0)
    (hp : M.exec (blockPlace (s.rd sa).toNat 1024) s = (.ok ks, s1)) (hr : releaseReady s1 = true)
    (hd : deliverResiduals s1 (scopeMem s1.front sc (ownerOf s (ks.headD 0)).toList) = s2) (hu : unreadable s2 (syncKeys s ks) = false)
    (hfly : mayFly s2 ks = true) (hw : (srelFlown sd imm (s.rd sa).toNat ks s2).waiters = []) :
    exec (.srel sd sa sc imm) s = .next (srelFlown sd imm (s.rd sa).toNat ks s2) :=
  homeOp_ok ((exec_srelM hl hp hr hd hu).trans (exec_srelEnd_fly hfly ..)) hw

theorem srelFlown_accesses (sd : SReg) (imm : BitVec 31) (va : Nat) (ks : List Key) (s : State) :
    (srelFlown sd imm va ks s).front.accesses = s.front.accesses ++ [srelAccess sd imm va ks s] := by
  obtain ⟨c, k, hn⟩ := nextInterval_eq ({ s with front := { s.front with accesses := s.front.accesses ++ [srelAccess sd imm va ks s] } } : State).leave
  rw [srelFlown, hn]
  rfl

/-! ### The state -/

/-- Owners at their own pace, and a page at address 0 in stack memory, which the TLB of the stream's sequencer holds: readable,
writable, for user mode, dirty, at frame 1. -/
def flightState : State :=
  { State.reset with
    pace := .runAhead
    tlb := [{ agent := 9216, asid := 0, base := 0, bits := 14, leaf := 0x4004158, leafAt := 0 }] }

/-- Its page. -/
def flightPlace : Place := { leaf := 0x4004158, leafAt := 0, base := 0, bits := 14 }

/-- The places of its block. -/
def flightKeys : List Key := keysFrom 0x4000 1024

theorem stack_reset {s : State} (h : s.stk = State.reset.stk) (n : Nat) : s.stack n = StackRegs.reset := by
  rw [State.stack, h, State.reset, Vector.get_replicate]

theorem remapped_reset {s : State} (h : s.stk = State.reset.stk) (p : Nat) : remapped s p = p := by
  rw [remapped, redirectN, stack_reset h]
  rfl

theorem smPresent_reset {s : State} (h : s.stk = State.reset.stk) (hr : s.regs = Regs.reset) {p : Nat} (hp : p < 2 ^ 18) : smPresent s p = true := by
  have h36 : fld 36 4 p = 0 := by rw [fld, Nat.div_eq_of_lt (by omega), Nat.zero_mod]
  have h18 : fld 18 4 p = 0 := by rw [fld, Nat.div_eq_of_lt hp, Nat.zero_mod]
  rw [smPresent, stack_reset h, hr, h36, h18, decide_eq_true (by omega)]
  rfl

theorem keysOf_flight : keysOf flightState flightPlace 0 1024 = some flightKeys := by
  rw [flightKeys, keysFrom]
  refine keysOf_of_each (f := (0x4000 + ·)) fun i _ => ?_
  have hcls : pteCls flightPlace.leaf = .sm := by decide
  have hframe : pteFrame flightPlace.leaf = 1 := by decide
  rw [keyOf, hcls, hframe]
  dsimp only
  rw [remapped_reset (s := flightState) rfl, Nat.zero_add]
  rfl

theorem exec_blockPlace_flight : M.exec (blockPlace 0 1024) flightState = (.ok flightKeys, flightState) := by
  have hxlate : M.exec (xlate (seqAgent flightState.front) 0 .both 0) flightState = (.ok flightPlace, flightState) := by rfl
  rw [blockPlace, if_neg (by decide), exec_bind_ok (exec_get _)]
  dsimp only
  rw [exec_bind_ok hxlate]
  have hsm : (pteCls flightPlace.leaf == .bm || pteCls flightPlace.leaf == .sm) = true := by decide
  rw [hsm, exec_bind, exec_need, if_pos rfl]
  dsimp only
  rw [keysM, exec_bind_ok (exec_get _), keysOf_flight]
  rfl

theorem unreadable_flight {s : State} (hk : s.stk = State.reset.stk) (hr : s.regs = Regs.reset) (hp : s.poison = []) :
    unreadable s flightKeys = false := by
  refine List.any_eq_false.2 fun k hmem => ?_
  rw [flightKeys, keysFrom] at hmem
  obtain ⟨i, hi, rfl⟩ := List.mem_map.1 hmem
  rw [smPresent_reset hk hr (by have := List.mem_range.1 hi; omega), hp]
  simp

/-! ### The memory -/

/-- A module whose FLAG is 1, at the first key of the block, and whose memory is out of order: the byte at 0 stands after it, so that
no read finds it before FLAG has gone. -/
def disorderedState : State := { State.reset with mem := [(0x4000, 1), (0, 1)] }

/-- Taking 1 from FLAG removes its byte from memory, and with it the key that hid the byte at 0. -/
theorem sets_flag_disordered : (disorderedState.mem.sets ((keysFrom 0x4000 8).zip (wordBytes 8 0))).get 0 ≠ disorderedState.mem.get 0 := by decide

theorem flightKeys_take : flightKeys.take 8 = keysFrom 0x4000 8 := by
  rw [flightKeys, keysFrom, keysFrom, ← List.map_take, List.take_range]
  rfl

theorem flightKeys_head : flightKeys.headD 0 = 0x4000 := by
  rw [flightKeys, keysFrom, List.headD_eq_head?_getD, List.head?_map, List.head?_range]
  rfl

theorem zero_not_mem_flightKeys : 0 ∉ flightKeys := by
  rw [flightKeys, keysFrom]
  intro h
  obtain ⟨i, -, hi⟩ := List.mem_map.1 h
  have hi : (0x4000 : Nat) + i = (0 : Nat) := hi
  omega

theorem length_flightKeys : flightKeys.length = 1024 := by rw [flightKeys, keysFrom, List.length_map, List.length_range]

/-- The home performs an `srel` in flight, where nothing is logged. -/
theorem performRel_unlogged {s : State} (h : s.front.logMode = 0) (a : Access) :
    (performRel s a).1 = (relAtHome s a.stamp (keysFrom a.key a.size) a.data.toNat a.clock).1 := by
  unfold performRel
  rw [h]
  rfl

/-- The home without race checking puts the sum at FLAG. -/
theorem mem_performRel_unchecked {s : State} {a : Access} {ks : List Key} (hk : keysFrom a.key a.size = ks) (hl : s.front.logMode = 0)
    (hc : a.clock = none) (hu : unreadable s (ks.take 8) = false) :
    (performRel s a).1.mem = s.mem.sets ((ks.take 8).zip (wordBytes 8 ((blockWord s ks 0 + a.data.toNat) % 2 ^ 64))) := by
  rw [performRel_unlogged hl, relAtHome_unlogged hl, hc, hk, relPut_none]
  obtain ⟨hm, -, -, -⟩ := stored_putFlag hu a.stamp ((blockWord s ks 0 + a.data.toNat) % 2 ^ 64)
  exact hm

/-- The `srel` of the counterexample: nothing in SD, the block at address 0, and -1. -/
def flightSrel : Access := srelAccess 0 (-1) 0 flightKeys flightState

theorem keys_flightSrel : keysFrom flightSrel.key flightSrel.size = flightKeys := by
  rw [flightSrel, srelAccess, flightKeys_head, flightKeys]

theorem mem_performRel_disordered :
    (performRel disorderedState flightSrel).1.mem = disorderedState.mem.sets ((keysFrom 0x4000 8).zip (wordBytes 8 0)) := by
  have hu : unreadable disorderedState (flightKeys.take 8) = false :=
    unreadable_mono (unreadable_flight rfl rfl rfl) fun _ => List.mem_of_mem_take
  have hdata : flightSrel.data.toNat = 2 ^ 64 - 1 := by decide
  have hflag : blockWord disorderedState flightKeys 0 = 1 := by
    change bytesNat (disorderedState.mem.gets (flightKeys.take 8)) = 1
    rw [flightKeys_take]
    decide
  have hm := mem_performRel_unchecked (s := disorderedState) keys_flightSrel rfl rfl hu
  rw [hflag, hdata, flightKeys_take] at hm
  exact hm

/-- Refutes O45: the home is given any memory, also one that is not in canonical form; there a byte of FLAG that becomes zero leaves the
list, and a byte outside the block is read that was not read before. -/
theorem not_releaseInFlight : ¬ Obligations.ReleaseInFlight := by
  unfold Obligations.ReleaseInFlight
  intro h
  have hdeliver : deliverResiduals flightState (scopeMem flightState.front .bank (ownerOf flightState (flightKeys.headD 0)).toList) = flightState :=
    deliverResiduals_none (fun _ hx => absurd hx List.not_mem_nil) (fun _ hx => absurd hx List.not_mem_nil) _
  have hsound : unreadable flightState (syncKeys flightState flightKeys) = false :=
    unreadable_mono (unreadable_flight rfl rfl rfl) fun k hk => List.mem_of_mem_take ((List.mem_append.1 hk).resolve_right List.not_mem_nil)
  have hfly : mayFly flightState flightKeys = true := by
    rw [mayFly, flightKeys_head, length_flightKeys, ← flightKeys, beq_self_eq_true]
    rfl
  have hplace : M.exec (blockPlace (flightState.rd 0).toNat 1024) flightState = (.ok flightKeys, flightState) := by
    rw [rd_zero]
    exact exec_blockPlace_flight
  obtain ⟨t, a, hexec, hacc, -, -, -, -, -, -, -, -, hhome⟩ :=
    h 0 0 .bank (-1) flightState flightState flightKeys rfl hplace rfl
      ((congrArg (fun u => unreadable u (syncKeys u flightKeys)) hdeliver).trans hsound)
      ((congrArg (mayFly · flightKeys) hdeliver).trans hfly)
      (by rw [hdeliver]; exact fun _ hw => absurd hw List.not_mem_nil)
  rw [hdeliver] at hacc
  have hflown := exec_srel_fly (sd := 0) (sc := .bank) (imm := -1) (loadsOut_of_none rfl) hplace rfl hdeliver hsound hfly rfl
  have ha : a = flightSrel := by
    rw [Host.Outcome.next.inj (hexec.symm.trans hflown), srelFlown_accesses, rd_zero] at hacc
    exact (List.singleton_inj.1 (List.append_cancel_left hacc)).symm
  obtain ⟨-, -, hframe, -⟩ := hhome disorderedState rfl (unreadable_flight rfl rfl rfl)
  rw [ha, mem_performRel_disordered] at hframe
  exact sets_flag_disordered
    (hframe 0 (fun h => zero_not_mem_flightKeys (List.mem_of_mem_take h)) fun h => zero_not_mem_flightKeys (List.mem_of_mem_drop h))

end Sys2Proof.Proofs
end

section
/-! Pulls, scalar accesses and stops of a stream whose owners keep their own pace (R139, R142, R186, R193, R194, R388). -/

namespace Sys2Proof.Proofs

open Sys2Proof Sys2Proof.Machine Sys2Proof.Safety Sys2Proof.Laws

/-! ### Pulls (R193, R194) -/

section
variable {s : State} {k : Nat} {p : Pull} (hp : s.front.pulls[k]? = some p)
include hp

theorem servePull_ready (hph : p.phase = .sent ∨ p.phase = .parked) (hok : (pullReady s p && !olderReady s p) = true) :
    servePull k s = sweepRemaps (setPull s k
      { p with phase := .replied ((keysFrom (32 * p.sector) 32).map (byteAt s p.stamp)) (s.tag p.sector) }) := by
  have hlooks : (p.phase == .sent || p.phase == .parked) = true := by rcases hph with h | h <;> rw [h] <;> rfl
  rw [servePull, hp]
  dsimp only
  rw [if_pos hlooks, if_pos hok]
  rfl

theorem servePull_parks (hph : p.phase = .sent) (hok : (pullReady s p && !olderReady s p) = false) :
    servePull k s = setPull (chargeWait s p) k
      { p with phase := if (parkedAt s p.own).length < 128 then .parked else .refused (retiredOf s p.own) } := by
  have hlooks : (p.phase == .sent || p.phase == .parked) = true := by rw [hph]; rfl
  have hnew : (p.phase == .parked) = false := by rw [hph]; rfl
  rw [servePull, hp]
  dsimp only
  rw [if_pos hlooks, hok, if_neg Bool.false_ne_true, hnew, if_neg Bool.false_ne_true]
  split <;> rfl

theorem servePull_stays (hph : p.phase = .parked) (hok : (pullReady s p && !olderReady s p) = false) : servePull k s = s := by
  have hparked : (p.phase == .parked) = true := by rw [hph]; rfl
  rw [servePull, hp]
  dsimp only
  rw [hparked, Bool.or_true, if_pos rfl, hok, if_neg Bool.false_ne_true, if_pos rfl]

/-- A reply that no work waits for is taken out. -/
theorem takePull_unwanted {bs : List Byte} {tag : RaceTag} (hph : p.phase = .replied bs tag)
    (hw : ∀ w ∈ s.front.works, ¬ (w.own = p.from_ ∧ w.isn = p.isn)) :
    takePull k s = { s with front := { s.front with pulls := s.front.pulls.eraseIdx k } } := by
  have hnone : s.front.works.find? (fun w => w.own == p.from_ && w.isn == p.isn) = none :=
    List.find?_eq_none.2 fun w h => by simpa using hw w h
  rw [takePull, hp]
  dsimp only
  rw [hph]
  dsimp only
  rw [hnone]

/-- The work that waits for a reply goes on with its bytes. -/
theorem takePull_goes {bs : List Byte} {tag : RaceTag} {w : Work} {b : Bcast} {info : BInfo} (hph : p.phase = .replied bs tag)
    (hw : s.front.works.find? (fun w => w.own == p.from_ && w.isn == p.isn) = some w) (hb : bcastAt s p.isn = some (b, info)) :
    takePull k s = goOn { s with front := { s.front with pulls := s.front.pulls.eraseIdx k } } b info
      { w with bufs := w.bufs ++ [(p.sector, bs, tag)] } := by
  have hb' : bcastAt { s with front := { s.front with pulls := s.front.pulls.eraseIdx k } } p.isn = some (b, info) := hb
  rw [takePull, hp]
  dsimp only
  rw [hph]
  dsimp only
  rw [hw, hb']

theorem resendPull_eq {r : Nat} (hph : p.phase = .refused r) :
    resendPull k s = if p.stamp ≤ floorAt s p.from_ then setPull s k { p with phase := .sent } else s := by
  rw [resendPull, hp]
  dsimp only
  rw [hph]

end

/-- A stream's own event runs in place. -/
theorem exec_pullRequest {s : State} {sid : BitVec 16} (hrun : s.front.status = .running) (hsid : s.front.sid = sid) (k : BitVec 16) :
    exec (.pullRequest sid k) s = .next (servePull k.toNat s) := congrArg Host.Outcome.next (onStream_front hrun hsid _)

theorem exec_pullReply {s : State} {sid : BitVec 16} (hrun : s.front.status = .running) (hsid : s.front.sid = sid) (k : BitVec 16) :
    exec (.pullReply sid k) s = .next (takePull k.toNat s) := congrArg Host.Outcome.next (onStream_front hrun hsid _)

theorem exec_pullResend {s : State} {sid : BitVec 16} (hrun : s.front.status = .running) (hsid : s.front.sid = sid) (k : BitVec 16) :
    exec (.pullResend sid k) s = .next (resendPull k.toNat s) := congrArg Host.Outcome.next (onStream_front hrun hsid _)

/-! ### Scalar accesses (R139, R142) -/

theorem exec_scalarAccess {s : State} {sid : BitVec 16} (hrun : s.front.status = .running) (hsid : s.front.sid = sid) (j : BitVec 7) :
    exec (.scalarAccess sid j) s = .next (performAt j.toNat s) := congrArg Host.Outcome.next (onStream_front hrun hsid _)

theorem exec_scalarReply {s : State} {sid : BitVec 16} (hrun : s.front.status = .running) (hsid : s.front.sid = sid) (j : BitVec 7) :
    exec (.scalarReply sid j) s = .next (replyAt j.toNat s) := congrArg Host.Outcome.next (onStream_front hrun hsid _)

/-- Stores report, wake and shelve, and leave the stream as it is. -/
theorem store_front (s : State) (kbs : List (Key × Byte)) : (s.store kbs).front = s.front := by
  have hfold (l : List Nat) (u : State) :
      (l.foldl (fun t w => t.event 6 0 [w * 8 % 2 ^ 53 / 32 * 32, t.front.sid.toNat]) u).front = u.front := by
    induction l generalizing u with
    | nil => rfl
    | cons w l ih => exact (ih _).trans (event_front ..)
  unfold State.store
  dsimp only
  rw [touch_front, hfold]
  split
  · rfl
  · exact event_front ..

theorem storeAt_front (s : State) (isn : Nat) (shelve : Bool) (kbs : List (Key × Byte)) : (s.storeAt isn shelve kbs).front = s.front := by
  rw [storeAt_eq, store_front]
  split
  · have hs := sameButShelves_foldl_shelved isn (sectorsOf (kbs.map (·.1))) (patchShelf s isn kbs)
    rw [hs]
    rfl
  · rfl

section
variable {s : State} {a : Access} (hd : a.done = none)
include hd

theorem performAccess_load {sg : Bool} {sd : SReg} (hk : a.kind = .load sg sd) : performAccess s a =
    (s.touch a.keys, { a with done := some (BitVec.ofNat 64 (bytesNat ((keysFrom a.key a.size).map (byteAt s a.stamp)))) }) := by
  rw [performAccess, hd]
  dsimp only
  rw [hk]
  rfl

/-- A store above the floor needs room on the shelf (R198). -/
theorem performAccess_store_full (hk : a.kind = .store) (hfloor : s.floor < a.stamp) (hroom : shelfRoom s a.keys a.stamp = false) :
    performAccess s a = (s, a) := by
  rw [performAccess, hd]
  dsimp only
  rw [hk]
  dsimp only
  rw [hroom, decide_eq_true hfloor, if_pos (by rfl)]

theorem performAccess_store (hk : a.kind = .store) (hroom : a.stamp ≤ s.floor ∨ shelfRoom s a.keys a.stamp = true) :
    performAccess s a = (s.storeAt a.stamp (s.floor < a.stamp) ((keysFrom a.key a.size).zip (wordBytes a.size a.data.toNat)),
      { a with done := some 0, wrote := if s.floor < a.stamp then (keysFrom a.key a.size).zip (wordBytes a.size a.data.toNat) else [] }) := by
  have hgo : (decide (s.floor < a.stamp) && !shelfRoom s a.keys a.stamp) = false := by
    rcases hroom with h | h
    · rw [decide_eq_false (by omega), Bool.false_and]
    · rw [h, Bool.not_true, Bool.and_false]
  rw [performAccess, hd]
  dsimp only
  rw [hk]
  dsimp only
  rw [hgo, if_neg Bool.false_ne_true]
  rfl

theorem performAccess_front (hrel : a.isRel = false) : (performAccess s a).1.front = s.front := by
  cases hk : a.kind with
  | load sg sd =>
    rw [performAccess_load hd hk]
    exact touch_front ..
  | store =>
    by_cases hroom : a.stamp ≤ s.floor ∨ shelfRoom s a.keys a.stamp = true
    · rw [performAccess_store hd hk hroom]
      exact storeAt_front ..
    · rw [not_or, Bool.not_eq_true, not_le] at hroom
      rw [performAccess_store_full hd hk hroom.1 hroom.2]
  | atom sg sd =>
    rw [performAccess, hd]
    dsimp only
    rw [hk]
  | rel sd =>
    rw [Access.isRel, hk] at hrel
    cases hrel

end

theorem done_of_accessTurn {s : State} {k : Nat} {a : Access} (h : accessTurn s k a = true) : a.done = none := by
  unfold accessTurn at h
  cases hd : a.done with
  | none => rfl
  | some v =>
    rw [hd] at h
    cases h

section
variable {s : State} {k : Nat} {a : Access} (ha : s.front.accesses[k]? = some a)
include ha

theorem performAt_waits (ht : accessTurn s k a = false) : performAt k s = s := by
  rw [performAt, ha]
  dsimp only
  rw [ht, if_neg Bool.false_ne_true]

/-- An access that is no release is performed and stands in its place, and memory is what it left. -/
theorem performAt_spec (ht : accessTurn s k a = true) (hrel : a.isRel = false) :
    (performAt k s).front.accesses[k]? = some (performAccess s a).2 ∧ (performAt k s).mem = (performAccess s a).1.mem := by
  have hf : (performAccess s a).1.front = s.front := performAccess_front (done_of_accessTurn ht) hrel
  have hk : k < s.front.accesses.length := (List.getElem?_eq_some_iff.1 ha).1
  rw [performAt, ha]
  dsimp only
  rw [if_pos ht, hrel, Bool.false_and, if_neg Bool.false_ne_true]
  obtain ⟨x, hx⟩ := sweepRemaps_eq
    ({ (performAccess s a).1 with front := { (performAccess s a).1.front with
      accesses := (performAccess s a).1.front.accesses.set k (performAccess s a).2 } })
  rw [hx]
  exact ⟨by rw [hf]; exact List.getElem?_set_self hk, rfl⟩

/-- A reply of an access that keeps nothing for a rollback takes it out, and writes the register that waits for it. -/
theorem replyAt_eq {v : Word} (hd : a.done = some v) (hack : a.acked = false) (ho : (ownerOf s a.key).isSome = true) (hw : a.wrote = [])
    (hrel : (a.isRel && relHeld s a.key) = false) :
    replyAt k s = { replyAccess s a with front := { (replyAccess s a).front with accesses := (replyAccess s a).front.accesses.eraseIdx k } } := by
  have hgo : (a.done.isNone || a.acked || (ownerOf s a.key).isNone || (a.isRel && relHeld s a.key)) = false := by
    have ho : (ownerOf s a.key).isNone = false := by rw [← Option.not_isSome, ho, Bool.not_true]
    rw [hd, hack, hrel, ho]
    rfl
  rw [replyAt, ha]
  dsimp only
  rw [hgo, if_neg Bool.false_ne_true, hw, if_neg fun h => h.1 rfl]

end

/-- What a reply writes: the register of a load or a release, if it has one. -/
theorem replyAccess_spec {s : State} {a : Access} {v : Word} (hd : a.done = some v) :
    (replyAccess s a).front.accesses = s.front.accesses ∧ (replyAccess s a).mem = s.mem ∧
      (∀ sg sd, a.kind = .load sg sd → replyAccess s a = s.wr sd (loadValue sg a.size v.toNat)) ∧
      (∀ sd, a.kind = .rel sd → replyAccess s a = s.wr sd v) := by
  unfold replyAccess
  rw [hd]
  cases a.kind with
  | load sg sd => exact ⟨wr_front_accesses .., wr_mem .., fun _ _ h => by cases h; rfl, nofun⟩
  | rel sd => exact ⟨wr_front_accesses .., wr_mem .., nofun, fun _ h => by cases h; rfl⟩
  | store => exact ⟨rfl, rfl, nofun, nofun⟩
  | atom sg sd => exact ⟨rfl, rfl, nofun, nofun⟩

end Sys2Proof.Proofs
end

section
/-! Stops and interrupts of a still stream (R385, R388). -/

namespace Sys2Proof.Proofs

open Sys2Proof Sys2Proof.Machine Sys2Proof.Safety Sys2Proof.Laws

/-! ### A stop of a still stream keeps memory and what its interrupts say -/

/-- What a stop with nothing to settle leaves as it was. -/
structure Unmoved (s t : State) : Prop where
  mem : t.mem = s.mem
  tvec : t.front.csr.tvec = s.front.csr.tvec
  logMode : t.front.logMode = s.front.logMode
  ppre : t.front.ppre = s.front.ppre
  phost : t.front.phost = s.front.phost

theorem Unmoved.trans {s t u : State} (h : Unmoved s t) (h' : Unmoved t u) : Unmoved s u :=
  ⟨h'.mem.trans h.mem, h'.tvec.trans h.tvec, h'.logMode.trans h.logMode, h'.ppre.trans h.ppre, h'.phost.trans h.phost⟩

/-- A stream without pre-images rolls nothing back (R200). -/
theorem unmoved_rollback {s : State} (h : ∀ e ∈ s.shelves, e.sid ≠ s.front.sid) (k : Nat) : Unmoved s (rollback s k) := by
  have hnone : s.shelves.filter (fun e => e.sid == s.front.sid && k < e.isn && !e.action) = [] :=
    List.filter_eq_nil_iff.2 fun e he => by simp [h e he]
  refine ⟨?_, rfl, rfl, rfl, rfl⟩
  unfold rollback
  dsimp only
  rw [hnone]
  rfl

theorem unmoved_recordStop {s : State} (hr : AtRest s) (h : ∀ e ∈ s.shelves, e.sid ≠ s.front.sid) (n first : Nat) :
    Unmoved s (recordStop s n first) := by
  have hsame (t : State) : Unmoved (rewriteAbove (rollback (settleCmds (fun c => n < c.stamp) (cancelAbove t n)) (n + 1)) (n + 1))
      (recordStop t n first) := by
    unfold recordStop
    dsimp only
    generalize rewriteAbove _ _ = x
    exact ⟨rfl, rfl, rfl, rfl, rfl⟩
  have hs := hsame s
  rw [cancelAbove_of_none hr.cmds, settleCmds_of_none hr.cmds, rewriteAbove_of_none (s := rollback s (n + 1)) hr.accesses] at hs
  exact (unmoved_rollback h _).trans hs

theorem unmoved_traced (s : State) (ty n w2 w3 : Nat) : Unmoved s (s.traced ty n w2 w3) := by
  obtain ⟨d, q, h⟩ := traced_eq s ty n w2 w3
  rw [h]
  exact ⟨rfl, rfl, rfl, rfl, rfl⟩

theorem recordSettled_unmoved {s : State} (h : AtRest s) (hsh : ∀ e ∈ s.shelves, e.sid ≠ s.front.sid) (hl : s.front.late = none) (t : TrapInfo)
    (tpc : Word) : ∃ u, recordSettled s t tpc = .stopped u t tpc ∧ Unmoved s u := by
  obtain ⟨k, hk⟩ := sweepRemaps_eq s
  obtain ⟨a, ha, hra, hsa, hla, hsha⟩ : ∃ a, settleAccesses s = a ∧ AtRest a ∧ Unmoved s a ∧ a.front.late = none ∧
      ∀ e ∈ a.shelves, e.sid ≠ a.front.sid :=
    ⟨_, (settleAccesses_of_none h.accesses).trans hk, ⟨h.bcasts, h.accesses, h.cmds⟩, ⟨rfl, rfl, rfl, rfl, rfl⟩, hl, hsh⟩
  have hdone : (!allPerformed (fun _ => true) a || relsOut a.front != 0) = false := by
    rw [allPerformed, relsOut, hra.accesses]
    rfl
  have hcmds (p : Cmd → Bool) : a.front.cmds.any p = false := by rw [hra.cmds]; rfl
  unfold recordSettled
  rw [ha]
  dsimp only
  rw [hdone, if_neg Bool.false_ne_true, settleCmds_of_none hra.cmds, hcmds, if_neg Bool.false_ne_true, hla]
  refine ⟨_, rfl, hsa.trans ?_⟩
  refine Unmoved.trans (t := { a with front := { a.front with late := none, strayed := false } }) ⟨rfl, rfl, rfl, rfl, rfl⟩ ?_
  exact (unmoved_recordStop (by exact ⟨hra.bcasts, hra.accesses, hra.cmds⟩) (by exact hsha) ..).trans (unmoved_traced ..)

theorem settleStop_unmoved {s : State} (h : Still s) (t : TrapInfo) (tpc : Word) : ∃ u, settleStop s t tpc = .stopped u t tpc ∧ Unmoved s u := by
  obtain ⟨hr, hl, -⟩ := stands_withdrawWaits h
  obtain ⟨hb, ha, hc, -, hsh, hm, hq, -⟩ := h
  have hset : settleMsgs s (fun m => m.sid == s.front.sid) = s := settleMsgs_none s _ (by simpa using hm) (by simpa using hq)
  have hst : Unmoved (settleMsgs s (fun m => m.sid == s.front.sid)) (withdrawWaits s) := ⟨rfl, rfl, rfl, rfl, rfl⟩
  have hshelves : (withdrawWaits s).shelves = (settleMsgs s (fun m => m.sid == s.front.sid)).shelves := rfl
  have hsid : (withdrawWaits s).front.sid = (settleMsgs s (fun m => m.sid == s.front.sid)).front.sid := rfl
  rw [hset] at hst hshelves hsid
  obtain ⟨u, hu, hsu⟩ := recordSettled_unmoved hr (by rwa [hshelves, hsid]) hl t tpc
  refine ⟨u, ?_, hst.trans hsu⟩
  rw [← hu]
  have hbranch : withdrawBranch (withdrawWaits s) tpc = (withdrawWaits s, tpc) := by rw [withdrawBranch, hr.bcasts]; rfl
  unfold settleStop
  rw [hbranch]
  dsimp only
  rw [hr.bcasts, settleTo]
  dsimp only
  rw [hr.bcasts, List.length_nil, completeNext]

/-! ### Interrupts -/

theorem vector_toNat (v : BitVec 53) : (0 : BitVec 8) ++ v ++ (0 : BitVec 3) = BitVec.ofNat 64 (8 * v.toNat) := by
  have hv := v.isLt
  apply BitVec.eq_of_toNat_eq
  rw [BitVec.toNat_append, BitVec.toNat_append, BitVec.toNat_ofNat, Nat.mod_eq_of_lt (by omega)]
  simp [Nat.shiftLeft_eq, Nat.mul_comm]

/-- What the handler of an interrupt finds, whatever entered it. -/
theorem enterTrap_spec (s : State) (t : TrapInfo) (pc : Word) :
    let u := enterTrap s t pc
    u.front.csr.int = t.int ∧ u.front.csr.tpc = pc ∧ u.front.pc = BitVec.ofNat 64 (8 * s.front.csr.tvec.toNat) ∧ u.front.csr.mode = true ∧
      u.front.csr.ie = false ∧ u.mem = s.mem ∧ u.front.csr.cause = t.cause ∧ u.front.csr.tinfo = t.tinfo ∧ u.front.ppre = s.front.ppre ∧
      u.front.phost = s.front.phost := by
  rw [enterTrap_eq]
  exact ⟨rfl, rfl, vector_toNat _, rfl, rfl, rfl, rfl, rfl, rfl, rfl⟩

theorem preemptDue_unlogged {s : State} (h : s.front.logMode = 0) : preemptDue s = s.front.ppre := by
  rw [preemptDue, h]
  exact Bool.and_true _

section
variable {s : State} (hs : Still s) (ht : s.front.csr.tvec ≠ 0)
include hs ht

theorem takePreempt_still (hl : s.front.logMode = 0) : ∃ u, Unmoved s u ∧
    takePreempt s = enterTrap { u with front := { u.front with ppre := false } } (interruptInfo causePreempt 0) s.front.pc := by
  obtain ⟨u, hu, hm⟩ := settleStop_unmoved hs (interruptInfo causePreempt 0) s.front.pc
  have hlog : ({ u with front := { u.front with ppre := false } } : State).front.logMode = 0 := hm.logMode.trans hl
  have htv : u.front.csr.tvec ≠ 0 := by rwa [hm.tvec]
  refine ⟨u, hm, ?_⟩
  rw [takePreempt, hu]
  dsimp only
  rw [if_pos (by rfl), recordPreempt, record_unlogged hlog]
  exact if_neg htv

theorem takeHost_still (m : BitVec 16) : ∃ u, Unmoved s u ∧
    takeHost s m = enterTrap { u with front := { u.front with phost := none } } (interruptInfo causeHost m.toNat) s.front.pc := by
  obtain ⟨u, hu, hm⟩ := settleStop_unmoved hs (interruptInfo causeHost m.toNat) s.front.pc
  refine ⟨u, hm, ?_⟩
  rw [takeHost, if_neg ht, hu]
  exact if_pos rfl

end

theorem takeInterrupt_preempt {s : State} (hw : s.front.pwatch = none) (hl : s.front.logMode = 0) (hp : s.front.ppre = true) :
    takeInterrupt s = takePreempt s := by
  rw [takeInterrupt, hw]
  exact if_pos ((preemptDue_unlogged hl).trans hp)

theorem takeInterrupt_host {s : State} {m : BitVec 16} (hw : s.front.pwatch = none) (hl : s.front.logMode = 0) (hp : s.front.ppre = false)
    (hh : s.front.phost = some m) : takeInterrupt s = takeHost s m := by
  rw [takeInterrupt, hw]
  dsimp only
  rw [preemptDue_unlogged hl, hp, if_neg Bool.false_ne_true, hh]

/-- What is due is a watch hit, PREEMPT or HOST. -/
theorem phost_of_interruptDue {s : State} (h : interruptDue s = true) (hw : s.front.pwatch = none) (hl : s.front.logMode = 0)
    (hp : s.front.ppre = false) : ∃ m, s.front.phost = some m := by
  have hdue : (s.front.pwatch.isSome || (s.front.csr.ie && (preemptDue s || s.front.phost.isSome))) = true := by
    rw [interruptDue, Bool.and_eq_true, Bool.and_eq_true] at h
    exact h.1.1
  rw [hw, preemptDue_unlogged hl, hp] at hdue
  exact Option.isSome_iff_exists.1 (Bool.and_eq_true_iff.1 hdue).2

/-- The interrupt of a still stream with a handler: PREEMPT goes before HOST (R388). -/
theorem takeInterrupt_still {s : State} (hs : Still s) (ht : s.front.csr.tvec ≠ 0) (hi : interruptDue s = true) (hw : s.front.pwatch = none)
    (hl : s.front.logMode = 0) :
    let t := takeInterrupt s
    t.front.csr.int = true ∧ t.front.csr.tpc = s.front.pc ∧
      t.front.pc = BitVec.ofNat 64 (8 * s.front.csr.tvec.toNat) ∧ t.front.csr.mode = true ∧ t.front.csr.ie = false ∧ t.mem = s.mem ∧
      (s.front.ppre = true → t.front.csr.cause = 0x20 ∧ t.front.ppre = false ∧ t.front.phost = s.front.phost) ∧
      (∀ m, s.front.ppre = false → s.front.phost = some m →
        t.front.csr.cause = 0x21 ∧ t.front.csr.tinfo = m.setWidth 63 ∧ t.front.phost = none) := by
  intro t
  cases hp : s.front.ppre with
  | true =>
    obtain ⟨u, hu, hte⟩ := takePreempt_still hs ht hl
    have hte : t = _ := (takeInterrupt_preempt hw hl hp).trans hte
    obtain ⟨hint, htpc, hpc, hmode, hie, hmem, hcause, -, hppre, hphost⟩ :=
      enterTrap_spec { u with front := { u.front with ppre := false } } (interruptInfo causePreempt 0) s.front.pc
    rw [← hte] at hint htpc hpc hmode hie hmem hcause hppre hphost
    exact ⟨hint, htpc, hpc.trans (by rw [hu.tvec]), hmode, hie, hmem.trans hu.mem, fun _ => ⟨hcause, hppre, hphost.trans hu.phost⟩, nofun⟩
  | false =>
    obtain ⟨m, hm⟩ := phost_of_interruptDue hi hw hl hp
    obtain ⟨u, hu, hte⟩ := takeHost_still hs ht m
    have hte : t = _ := (takeInterrupt_host hw hl hp hm).trans hte
    obtain ⟨hint, htpc, hpc, hmode, hie, hmem, hcause, htinfo, -, hphost⟩ :=
      enterTrap_spec { u with front := { u.front with phost := none } } (interruptInfo causeHost m.toNat) s.front.pc
    rw [← hte] at hint htpc hpc hmode hie hmem hcause htinfo hphost
    refine ⟨hint, htpc, hpc.trans (by rw [hu.tvec]), hmode, hie, hmem.trans hu.mem, nofun, fun n _ hn => ⟨hcause, ?_, hphost⟩⟩
    cases hm.symm.trans hn
    exact htinfo.trans (BitVec.ofNat_toNat ..)

end Sys2Proof.Proofs
end

section
/-! Banks at their own pace, and the floor (R188, R189, R192, R197, R224). -/

namespace Sys2Proof.Proofs

open Sys2Proof Sys2Proof.Machine Sys2Proof.Safety Sys2Proof.Laws

theorem paced_eq {s : State} (hrun : s.front.status = .running) (hp : s.pace = .runAhead) : paced s = true := by
  rw [paced, hrun, hp]
  rfl

/-! ### Beginning a broadcast (R188, R192) -/

section
variable {s : State} {own : Nat} {b : Bcast} {info : BInfo}

theorem bankWork_begins (hp : paced s = true) (hd : inDomain s.front.domBase.toNat s.front.domLog.toNat own = true)
    (hb : bcastAt s (retiredOf s own + 1) = some (b, info)) (hw : s.front.works.find? (fun w => w.own == own && w.isn == b.isn) = none) :
    bankWork own s = if mayBegin s own b info then goOn s b info { own := own, isn := b.isn, todo := itemsOf s b info own, bufs := [] } else s := by
  rw [bankWork, hp, hd, hb]
  dsimp only
  rw [hw, if_neg (by decide)]

/-- A bank that runs a broadcast has no run of its engine before it (R290). -/
theorem not_runActive_of_mayBegin (h : mayBegin s own b info = true) : runActive s own b.isn = false := by
  rw [mayBegin, Bool.and_eq_true, Bool.and_eq_true] at h
  simpa using h.1.2

/-- The source footprint under which an owner performs its items (R196). -/
def footOfB (s : State) (b : Bcast) (info : BInfo) : Option (List Range) := match (M.exec (info.body.foot (eyeOf s b) b) s).1 with
  | .ok r => r
  | .error _ => none

/-- An owner whose items all end has none left to do. -/
theorem goOn_done {w : Work} {items : List Item} {u v : State} {c : Bcast} (hrun : runActive s w.own b.isn = false)
    (hplan : M.exec (do info.body.ready (ownerEye w.own b w.bufs) b; info.body.plan (ownerEye w.own b w.bufs) (footOfB s b info) b) (setWork s w) =
      (.ok items, u))
    (hitems : workItems w.own (items.filter (fun it => w.todo.contains it.no)) u b w.todo = (v, c, [], none)) :
    goOn s b info w = setWork (putB v c) { w with todo := [] } := by
  unfold goOn
  rw [hrun, if_neg Bool.false_ne_true]
  dsimp only
  split
  · rename_i hstops
    cases hstops.symm.trans hplan
  · rename_i hends
    cases hends.symm.trans hplan
    rw [hitems]

end

/-! ### Retiring a broadcast (R189) -/

theorem retiredOf_setRetired_same (s : State) (own n : Nat) : retiredOf (setRetired s own n) own = n := by
  rw [retiredOf, setRetired]
  dsimp only
  rw [List.find?_cons_of_pos (p := fun q : Progress => q.own == own) (beq_self_eq_true own)]
  rfl

/-- The progress of another owner is still found. -/
theorem find?_progress_other {own o : Nat} (h : o ≠ own) (l : List Progress) :
    (l.filter (fun q => q.own != own)).find? (fun q => q.own == o) = l.find? (fun q => q.own == o) := by
  rw [List.find?_filter]
  congr 1
  funext q
  by_cases hq : q.own = o
  · simp [hq, h]
  · simp [hq]

theorem retiredOf_setRetired_other {s : State} {own o : Nat} (h : o ≠ own) (n : Nat) : retiredOf (setRetired s own n) o = retiredOf s o := by
  have hne : ¬ (own == o) = true := by simpa using h.symm
  rw [retiredOf, retiredOf, setRetired]
  dsimp only
  rw [List.find?_cons_of_neg (p := fun q : Progress => q.own == o) hne, find?_progress_other h]
  rfl

section
variable {s : State} {own : Nat} {w : Work} (hw : s.front.works.find? (fun w => w.own == own && w.isn == retiredOf s own + 1) = some w)
include hw

theorem bankRetire_waits (h : w.todo ≠ [] ∨ owedAt s own (retiredOf s own + 1) = false) : bankRetire own s = s := by
  have hno : (paced s && w.todo.isEmpty && owedAt s own (retiredOf s own + 1)) = false := by
    rcases h with h | h
    · rw [List.isEmpty_eq_false_iff.2 h, Bool.and_false, Bool.false_and]
    · rw [h, Bool.and_false]
  rw [bankRetire]
  dsimp only
  rw [hw]
  dsimp only
  rw [hno, if_neg Bool.false_ne_true]

theorem bankRetire_retires (hp : paced s = true) (ht : w.todo = []) (ho : owedAt s own (retiredOf s own + 1) = true) :
    bankRetire own s = setRetired { s with front := { s.front with
      works := s.front.works.filter (fun x => !(x.own == own && x.isn == retiredOf s own + 1)) } }
      own (retiredOf s own + 1) := by
  have hgo : (paced s && w.todo.isEmpty && owedAt s own (retiredOf s own + 1)) = true := by
    rw [hp, ht, ho]
    rfl
  rw [bankRetire]
  dsimp only
  rw [hw]
  dsimp only
  rw [if_pos hgo]

end

/-! ### The floor (R189, R197, R224) -/

theorem finishB_front (s : State) (b : Bcast) (body : Body) :
    (finishB s b body).1.front.sid = s.front.sid ∧ (finishB s b body).1.front.bcasts = s.front.bcasts.filter (fun x => x.isn != b.isn) := by
  obtain ⟨v, hv⟩ := front_putResult body (s.orFlags (b.flags ||| (body.root s.front.sid b).1)) (body.root s.front.sid b).2
  obtain ⟨f, hf, hsid, hb⟩ : ∃ f, (finishB s b body).1.front = f ∧
      f.sid = (putResult body (s.orFlags (b.flags ||| (body.root s.front.sid b).1)) (body.root s.front.sid b).2).front.sid ∧
      f.bcasts = (putResult body (s.orFlags (b.flags ||| (body.root s.front.sid b).1)) (body.root s.front.sid b).2).front.bcasts.filter
        (fun x => x.isn != b.isn) := ⟨_, front_traced .., rfl, rfl⟩
  rw [hf, hsid, hb, hv]
  exact ⟨rfl, rfl⟩

theorem mem_shelfFree {s : State} {n : Nat} {e : Shelf} (h : e ∈ (shelfFree s n).shelves) :
    e.action = true ∨ e.sid ≠ s.front.sid ∨ n < e.isn := by
  have hkeep := (List.mem_filter.1 h).2
  rcases Bool.or_eq_true_iff.1 hkeep with ha | hb
  · exact .inl ha
  · right
    rw [Bool.not_eq_true', Bool.and_eq_false_iff] at hb
    rcases hb with hb | hb
    · exact .inl (by simpa using hb)
    · exact .inr (by simpa using hb)

/-- The floor frees the stream's pre-images under it. -/
theorem finishB_shelves {s : State} {b : Bcast} {body : Body} {e : Shelf} (h : e ∈ (finishB s b body).1.shelves) :
    e.action = true ∨ e.sid ≠ s.front.sid ∨ b.isn < e.isn := by
  obtain ⟨x, hx⟩ : ∃ x, (finishB s b body).1 = shelfFree x b.isn := ⟨_, rfl⟩
  have hsid : x.front.sid = s.front.sid := by
    rw [← (finishB_front s b body).1, hx]
    rfl
  rw [hx] at h
  have := mem_shelfFree h
  rwa [hsid] at this

/-- Every owner hears the floor that the broadcast has reached, and the rest is as its end leaves it. -/
theorem floorHeard_finishB {s : State} {b : Bcast} (hb : s.front.bcasts = [b]) (info : BInfo) :
    let t := floorHeard (finishB s b info.body).1
    t.front.csr.floor = BitVec.ofNat 48 b.isn ∧ t.front.bcasts = [] ∧
      t.front.csr.fflags = s.front.csr.fflags ||| (b.flags ||| (info.body.root s.front.sid b).1) ∧ (∀ p ∈ t.front.progress, p.floor = t.floor) ∧
      (∀ e ∈ t.shelves, e.action = true ∨ e.sid ≠ s.front.sid ∨ b.isn < e.isn) ∧ t.mem = s.mem ∧
      (∀ r, t.rd r = if r ≠ 0 ∧ info.body.result = some r then (info.body.root s.front.sid b).2 else s.rd r) := by
  obtain ⟨hcsr, hrd, hmem, -⟩ := finishB_spec s b info.body
  obtain ⟨-, hbc⟩ := finishB_front s b info.body
  have hempty : (finishB s b info.body).1.front.bcasts = [] := by rw [hbc, hb]; simp
  refine ⟨congrArg Csrs.floor hcsr, hempty, (congrArg Csrs.fflags hcsr).trans (BitVec.or_assoc ..), fun p hq => ?_,
    fun e => finishB_shelves, hmem, hrd⟩
  obtain ⟨q, -, rfl⟩ := List.mem_map.1 hq
  rfl

section
variable {s : State} {b : Bcast} {info : BInfo} (hp : paced s = true) (hl : landed s = false) (hb : s.front.bcasts = [b])
  (hf : frontDriven b.word = false) (hi : infoOfWord b.word = some info) (hr : allRetired s b info = true)
include hp hl hb hf hi hr

theorem deliverFloor_eq : deliverFloor s = floorHeard (finishB s b info.body).1 := by
  have hstep : floorSteps 1 s = (finishB s b info.body).1 := by
    rw [floorSteps, hb]
    dsimp only
    rw [hl, if_neg Bool.false_ne_true, hf, if_neg Bool.false_ne_true, hi]
    dsimp only
    rw [if_pos hr, floorSteps]
  rw [deliverFloor, if_pos hp, hb]
  exact congrArg floorHeard hstep

theorem returnResult_eq (hres : info.body.result.isSome = true) : returnResult s = floorHeard (finishB s b info.body).1 := by
  rw [returnResult, hb]
  dsimp only
  rw [hi]
  dsimp only
  rw [hp, hl, hres, hf, hr, if_pos (by rfl)]

end

end Sys2Proof.Proofs
end

section
/-! Events of banks, accesses and stops (R139, R142, R186, R188, R189, R192 to R194, R197, R211, R224, R388). -/

namespace Sys2Proof.Proofs

open Sys2Proof Sys2Proof.Machine Sys2Proof.Safety Sys2Proof.Laws

/-- A sub-bank at rest is drowsy from now on, and nothing else changes (R186). -/
theorem exec_subbankDrowsy (bank : BitVec 13) (sub : BitVec 4) (s : State) : ∃ t, exec (.subbankDrowsy bank sub) s = .next t ∧ t.mem = s.mem ∧
    t.front = s.front ∧ ∀ n, n ∈ t.drowsy ↔ n ∈ s.drowsy ∨ n = 16 * bank.toNat + sub.toNat := by
  refine ⟨_, rfl, ?_⟩
  split
  · rename_i h
    exact ⟨rfl, rfl, fun n => ⟨.inl, fun hn => hn.elim id fun he => he ▸ List.contains_iff_mem.1 h⟩⟩
  · exact ⟨rfl, rfl, fun n => List.mem_cons.trans or_comm⟩

theorem pullOk_iff {s : State} {p : Pull} : (pullReady s p = false ∨ olderReady s p = true) ↔ (pullReady s p && !olderReady s p) = false := by
  cases pullReady s p <;> cases olderReady s p <;> simp

theorem unreadable_zip {s : State} {ks : List Key} (h : unreadable s ks = false) (bs : List Byte) :
    unreadable s ((ks.zip bs).map (·.1)) = false := by
  refine unreadable_mono h fun k hk => ?_
  obtain ⟨p, hp, rfl⟩ := List.mem_map.1 hk
  exact (List.of_mem_zip hp).1

theorem interruptDue_of_mayInterrupt {s : State} (h : mayInterrupt s = true) : interruptDue s = true := by
  simp only [mayInterrupt, Bool.and_eq_true] at h
  obtain ⟨⟨⟨⟨-, hdue⟩, -⟩, -⟩, -⟩ := h
  exact hdue

section
variable {s : State} {sid : BitVec 16} (hrun : s.front.status = .running) (hsid : s.front.sid = sid)
include hrun hsid

theorem exec_preciseStop : exec (.preciseStop sid) s = .next (stopFound s) :=
  congrArg Host.Outcome.next ((onStream_front hrun hsid _).trans (if_pos hrun))

theorem exec_interruptTaken : exec (.interruptTaken sid) s = .next (if mayInterrupt s then takeInterrupt s else s) :=
  congrArg Host.Outcome.next (onStream_front hrun hsid _)

theorem exec_bankBeginBroadcast (own : BitVec 14) : exec (.bankBeginBroadcast sid own) s = .next (bankWork own.toNat s) :=
  congrArg Host.Outcome.next (onStream_front hrun hsid _)

theorem exec_bankRetire (own : BitVec 14) : exec (.bankRetire sid own) s = .next (bankRetire own.toNat s) :=
  congrArg Host.Outcome.next (onStream_front hrun hsid _)

theorem exec_floorDelivery : exec (.floorDelivery sid) s = .next (deliverFloor s) := congrArg Host.Outcome.next (onStream_front hrun hsid _)

theorem exec_treeResultReturn : exec (.treeResultReturn sid) s = .next (returnResult s) := congrArg Host.Outcome.next (onStream_front hrun hsid _)

end

theorem stopFound_none {s : State} (h : s.front.found = none) : stopFound s = s := by rw [stopFound, h]

theorem stopFound_fault {s u : State} {n : Nat} {ti t : TrapInfo} {b : Bcast} (h : s.front.found = some (n, ti)) (hs : shelfFull ti = false)
    (hset : settleTo n (withdrawWaits s).front.bcasts (withdrawWaits s) = (u, .fault b t)) :
    stopFound s = deliverStop (stopFault u b t u.front.pc) := by
  rw [stopFound, h]
  dsimp only
  rw [hs, if_neg Bool.false_ne_true, hset]

/-- Settles O55: each event is the bank's own step on the stream, and each step has its lemma. -/
theorem bankEvents : Obligations.BankEvents := by
  unfold Obligations.BankEvents
  intro sid k own j bank sub s
  refine ⟨exec_subbankDrowsy bank sub s, fun hrun hsid => ⟨fun p hp => ?_, fun a ha => ?_, fun hfound => ?_, fun n ti hfound hti u b t hset => ?_,
    fun hno => ?_, fun hi hstill htv hw hl => ?_, fun hpace => ?_⟩⟩
  · intro phase
    rw [exec_pullRequest hrun hsid, exec_pullReply hrun hsid, exec_pullResend hrun hsid]
    refine ⟨fun hph hr ho => ?_, fun hph hok => ?_, fun hph hok => ?_,
      fun bs tag hph => ⟨_, rfl, fun hw => ?_, fun w b info hw hb => ?_⟩, fun r hph => ⟨fun h => ?_, fun h => ?_⟩⟩
    · rw [servePull_ready hp hph (by rw [hr, ho]; rfl)]
    · exact congrArg Host.Outcome.next (servePull_parks hp hph (pullOk_iff.1 hok))
    · rw [servePull_stays hp hph (pullOk_iff.1 hok)]
    · exact takePull_unwanted hp hph hw
    · exact takePull_goes hp hph hw hb
    · exact congrArg Host.Outcome.next ((resendPull_eq hp hph).trans (if_pos h))
    · exact congrArg Host.Outcome.next ((resendPull_eq hp hph).trans (if_neg (not_le.2 h)))
  · rw [exec_scalarAccess hrun hsid, exec_scalarReply hrun hsid]
    refine ⟨fun hturn hrel => ?_, fun hturn => by rw [performAt_waits ha hturn], fun v hd hack ho hwrote hrel => ?_⟩
    · obtain ⟨hacc, hmem⟩ := performAt_spec ha hturn hrel
      have hd := done_of_accessTurn hturn
      refine ⟨_, _, rfl, hacc, fun sg sd hk => ?_, fun hk hfloor hroom => ?_, fun hk hroom => ?_⟩
      · rw [hmem, performAccess_load hd hk]
        exact ⟨rfl, (woken_touch s a.keys).keeps.2.1⟩
      · rw [hmem, performAccess_store_full hd hk hfloor hroom]
        exact ⟨rfl, rfl⟩
      · rw [hmem, performAccess_store hd hk hroom]
        exact ⟨rfl, fun hu => (storeAt_readable (unreadable_zip hu _)).1⟩
    · obtain ⟨hacc, hmem, hload, hrelease⟩ := replyAccess_spec hd
      rw [replyAt_eq ha hd hack ho hwrote hrel]
      refine ⟨_, rfl, congrArg (·.eraseIdx j.toNat) hacc, hmem, fun sg sd hk => ?_, fun sd hk => ?_⟩
      · rw [hload sg sd hk]
        exact ⟨rd_wr_same .., fun r hr => rd_wr_other hr _⟩
      · rw [hrelease sd hk]
        exact ⟨rd_wr_same .., fun r hr => rd_wr_other hr _⟩
  · rw [exec_preciseStop hrun hsid, stopFound_none hfound]
  · rw [exec_preciseStop hrun hsid, stopFound_fault hfound hti hset]
  · rw [exec_interruptTaken hrun hsid, hno, if_neg Bool.false_ne_true]
  · rw [exec_interruptTaken hrun hsid, if_pos hi]
    exact ⟨_, rfl, takeInterrupt_still hstill htv (interruptDue_of_mayInterrupt hi) hw hl⟩
  · have hp := paced_eq hrun hpace
    rw [exec_bankRetire hrun hsid, exec_floorDelivery hrun hsid, exec_treeResultReturn hrun hsid]
    refine ⟨fun b info hd hb hw => ?_, fun w hw => ⟨fun ht ho => ?_, fun h => by rw [bankRetire_waits hw h]⟩, fun b info hl hb hf hi hr => ?_⟩
    · have hwork := bankWork_begins hp hd hb hw
      rw [exec_bankBeginBroadcast hrun hsid, hwork]
      refine ⟨fun hmay => by rw [hmay, if_neg Bool.false_ne_true], fun hmay => ?_⟩
      intro todo e fp items u v c hplan hitems
      rw [if_pos hmay]
      have hdone := goOn_done (w := { own := own.toNat, isn := b.isn, todo := todo, bufs := [] }) (not_runActive_of_mayBegin hmay) hplan hitems
      exact ⟨_, congrArg Host.Outcome.next hdone, rfl, rfl, List.mem_cons_self ..⟩
    · rw [bankRetire_retires hw hp ht ho]
      refine ⟨_, rfl, retiredOf_setRetired_same .., fun o ho => retiredOf_setRetired_other ho _, fun x hx => ?_, rfl⟩
      rintro ⟨hown, hisn⟩
      simpa [hown, hisn] using (List.mem_filter.1 hx).2
    · obtain ⟨hfloor, hbc, hfl, hprog, hsh, hmem, hrd⟩ := floorHeard_finishB hb info
      rw [deliverFloor_eq hp hl hb hf hi hr]
      refine ⟨⟨_, rfl, hfloor, hbc, hfl, hprog, hsh, hmem⟩, fun r hres => ?_⟩
      rw [returnResult_eq hp hl hb hf hi hr (by rw [hres]; rfl)]
      refine ⟨_, rfl, ?_, fun x hx => ?_, hfloor, hbc, hmem⟩
      · rw [hrd]
        by_cases hr0 : r = 0
        · rw [if_neg fun h => h.1 hr0, if_pos hr0, hr0, rd_zero]
        · rw [if_pos ⟨hr0, hres⟩, if_neg hr0]
      · rw [hrd, if_neg fun h => hx (Option.some.inj (h.2.symm.trans hres))]

end Sys2Proof.Proofs
end

section
/-! Sets of windows (R172, R394), and what operations on one window after another leave. -/

namespace Sys2Proof.Proofs

open Sys2Proof Sys2Proof.Machine Sys2Proof.Safety Sys2Proof.Laws

/-! ### The windows that a mask names -/

theorem mem_maskWins {m : Nat} {w : WReg} : w ∈ maskWins m ↔ w ≠ 0 ∧ m.testBit w.toNat = true := by
  have hzero : w.toNat = 0 ↔ w = 0 := ⟨fun h => BitVec.eq_of_toNat_eq h, fun h => congrArg BitVec.toNat h⟩
  simp only [maskWins, List.mem_map, List.mem_filter, List.mem_range, Bool.and_eq_true, bne_iff_ne, ne_eq]
  constructor
  · rintro ⟨k, ⟨hk, h0, hbit⟩, rfl⟩
    rw [← hzero, BitVec.toNat_ofNat, Nat.mod_eq_of_lt hk]
    exact ⟨h0, hbit⟩
  · rintro ⟨h0, hbit⟩
    exact ⟨w.toNat, ⟨w.isLt, hzero.not.2 h0, hbit⟩, BitVec.ofNat_toNat .. ▸ BitVec.setWidth_eq w⟩

theorem decide_mem_maskWins (v : Word) (w : WReg) : decide (w ∈ maskWins v.toNat) = (w != 0 && v.getLsbD w.toNat) := by
  rw [Bool.eq_iff_iff, decide_eq_true_iff, mem_maskWins, Bool.and_eq_true, bne_iff_ne]
  rfl

/-- Windows come in their order. -/
theorem pairwise_maskWins (m : Nat) : (maskWins m).Pairwise (fun w x => w.toNat < x.toNat) := by
  unfold maskWins
  rw [List.pairwise_map]
  refine (List.pairwise_lt_range.filter _).imp_of_mem fun hk hj hlt => ?_
  have hk := List.mem_range.1 (List.mem_of_mem_filter hk)
  have hj := List.mem_range.1 (List.mem_of_mem_filter hj)
  rwa [BitVec.toNat_ofNat, BitVec.toNat_ofNat, Nat.mod_eq_of_lt hk, Nat.mod_eq_of_lt hj]

theorem nodup_maskWins (m : Nat) : (maskWins m).Nodup := (pairwise_maskWins m).imp fun h => mt (congrArg BitVec.toNat) h.ne

/-! ### The mask of some windows -/

theorem testBit_add_two_pow {a i : Nat} (h : a < 2 ^ i) (k : Nat) : (a + 2 ^ i).testBit k = (a.testBit k || i == k) := by
  have hor := Nat.two_pow_add_eq_or_of_lt h 1
  rw [Nat.mul_one] at hor
  rw [Nat.add_comm, hor, Nat.testBit_or, Nat.testBit_two_pow, Bool.or_comm]
  rfl

theorem testBit_foldl_two_pow {ws : List WReg} (hs : ws.Pairwise (fun w x => w.toNat < x.toNat)) {a : Nat} (ha : ∀ w ∈ ws, a < 2 ^ w.toNat)
    (k : Nat) : (ws.foldl (fun a w => a + 2 ^ w.toNat) a).testBit k = (a.testBit k || ws.any (fun w => w.toNat == k)) := by
  induction ws generalizing a with
  | nil => exact (Bool.or_false _).symm
  | cons w ws ih =>
    obtain ⟨hw, hs⟩ := List.pairwise_cons.1 hs
    have ha0 := ha w (List.mem_cons_self ..)
    have hnext : ∀ x ∈ ws, a + 2 ^ w.toNat < 2 ^ x.toNat := fun x hx => by
      have hpow : 2 ^ (w.toNat + 1) ≤ 2 ^ x.toNat := Nat.pow_le_pow_right (by decide) (hw x hx)
      omega
    rw [List.foldl_cons, ih hs hnext, testBit_add_two_pow ha0, Bool.or_assoc, List.any_cons]

/-- The mask of windows in their order has the bits of those windows (R394). -/
theorem getLsbD_winMask {ws : List WReg} (hs : ws.Pairwise (fun w x => w.toNat < x.toNat)) (w : WReg) :
    (winMask ws).getLsbD w.toNat = decide (w ∈ ws) := by
  have hlt : w.toNat < 64 := w.isLt.trans (by decide)
  rw [winMask, BitVec.getLsbD_ofNat, decide_eq_true hlt, Bool.true_and, testBit_foldl_two_pow hs (fun _ _ => Nat.two_pow_pos _),
    Nat.zero_testBit, Bool.false_or, Bool.eq_iff_iff, decide_eq_true_iff, List.any_eq_true]
  exact ⟨fun ⟨x, hx, he⟩ => BitVec.eq_of_toNat_eq (beq_iff_eq.1 he) ▸ hx, fun h => ⟨w, h, beq_self_eq_true _⟩⟩

/-! ### One window after another -/

section
variable {f : State → WReg → State}

/-- Windows written one after another, each from what it held. -/
theorem rdW_foldl {g : WReg → Desc → Desc} (hf : ∀ t w x, (f t w).rdW x = if x = w then g x (t.rdW x) else t.rdW x) {ws : List WReg}
    (hn : ws.Nodup) (s : State) (x : WReg) : (ws.foldl f s).rdW x = if x ∈ ws then g x (s.rdW x) else s.rdW x := by
  induction ws generalizing s with
  | nil => exact (if_neg List.not_mem_nil).symm
  | cons w ws ih =>
    obtain ⟨hw, hn⟩ := List.nodup_cons.1 hn
    rw [List.foldl_cons, ih hn, hf]
    by_cases hx : x = w
    · rw [hx, if_neg hw, if_pos rfl, if_pos (List.mem_cons_self ..)]
    · rw [if_neg hx]
      exact if_congr (by rw [List.mem_cons, or_iff_right hx]) rfl rfl

/-- Bits of windows set one after another. -/
theorem foldl_sets_bits {q : State → WReg → Bool} (hf : ∀ t w x, q (f t w) x = (q t x || x == w)) (ws : List WReg) (s : State) (x : WReg) :
    q (ws.foldl f s) x = (q s x || decide (x ∈ ws)) := by
  induction ws generalizing s with
  | nil => exact (Bool.or_false _).symm
  | cons w ws ih =>
    rw [List.foldl_cons, ih, hf, Bool.or_assoc]
    simp only [List.mem_cons, Bool.decide_or]
    rfl

/-- Bits of windows cleared one after another. -/
theorem foldl_clears_bits {q : State → WReg → Bool} (hf : ∀ t w x, q (f t w) x = (q t x && !(x == w))) (ws : List WReg) (s : State) (x : WReg) :
    q (ws.foldl f s) x = (q s x && !decide (x ∈ ws)) := by
  induction ws generalizing s with
  | nil => exact (Bool.and_true _).symm
  | cons w ws ih =>
    rw [List.foldl_cons, ih, hf, Bool.and_assoc]
    simp only [List.mem_cons, Bool.decide_or, Bool.not_or]
    rfl

/-- `t` is `s` but for its windows, with their present and dirty bits (R165). -/
def OnlyWindows (s t : State) : Prop :=
  t = { s with front := { s.front with w := t.front.w, csr := { s.front.csr with wpres := t.front.csr.wpres, wdirty := t.front.csr.wdirty } } }

theorem OnlyWindows.refl (s : State) : OnlyWindows s s := rfl

theorem OnlyWindows.trans {s t u : State} (h : OnlyWindows s t) (h' : OnlyWindows t u) : OnlyWindows s u := by
  unfold OnlyWindows at *
  rw [h']
  rw [h]

theorem OnlyWindows.foldl (hf : ∀ t w, OnlyWindows t (f t w)) (ws : List WReg) (s : State) : OnlyWindows s (ws.foldl f s) := by
  induction ws generalizing s with
  | nil => exact .refl s
  | cons w ws ih => exact (hf s w).trans (ih _)

theorem OnlyWindows.rd {s t : State} (h : OnlyWindows s t) (r : SReg) : t.rd r = s.rd r := by
  rw [h]
  rfl

theorem OnlyWindows.mem {s t : State} (h : OnlyWindows s t) : t.mem = s.mem := by rw [h]

theorem OnlyWindows.pc {s t : State} (h : OnlyWindows s t) : t.front.pc = s.front.pc := by rw [h]

end

/-! ### Present and dirty bits -/

theorem getLsbD_window (w : WReg) (k : Nat) : ((1 : BitVec 32) <<< w.toNat).getLsbD k = (k == w.toNat) := by
  simpa using getLsbD_or_window 0 w k

/-- The bit that stands for window `w`, taken from a set of windows. -/
theorem getLsbD_without_window (x : BitVec 32) (w : WReg) (k : Nat) :
    (x &&& ~~~((1 : BitVec 32) <<< w.toNat)).getLsbD k = (x.getLsbD k && !(k == w.toNat)) := by
  rw [BitVec.getLsbD_and, BitVec.getLsbD_not, getLsbD_window]
  by_cases hk : k < 32
  · rw [decide_eq_true hk, Bool.true_and]
  · rw [BitVec.getLsbD_of_ge _ _ (Nat.not_lt.1 hk), Bool.false_and, Bool.false_and]

theorem toNat_beq_toNat (x w : WReg) : (x.toNat == w.toNat) = (x == w) := by
  rw [Bool.eq_iff_iff, beq_iff_eq, beq_iff_eq]
  exact BitVec.toNat_inj

theorem wpresent_putWin (s : State) (w : WReg) (d : Desc) (x : WReg) : wpresent (putWin s w d) x = (wpresent s x || x == w) :=
  (getLsbD_or_window ..).trans (by rw [toNat_beq_toNat]; rfl)

theorem wdirty_putWin (s : State) (w : WReg) (d : Desc) (x : WReg) :
    (putWin s w d).front.csr.wdirty.getLsbD x.toNat = (s.front.csr.wdirty.getLsbD x.toNat || x == w) :=
  (getLsbD_or_window ..).trans (by rw [toNat_beq_toNat]; rfl)

theorem rdW_putWin (s : State) (w : WReg) (d : Desc) (x : WReg) : (putWin s w d).rdW x = if x = w then Desc.clean d else s.rdW x :=
  rdW_wrW ..

theorem wdirty_clearDirty (s : State) (w x : WReg) :
    (clearDirty s w).front.csr.wdirty.getLsbD x.toNat = (s.front.csr.wdirty.getLsbD x.toNat && !(x == w)) :=
  (getLsbD_without_window ..).trans (by rw [toNat_beq_toNat])

end Sys2Proof.Proofs
end

section
/-! Strips (R168 to R174): what `setvl` grants, and what `strip` leaves. -/

namespace Sys2Proof.Proofs

open Sys2Proof Sys2Proof.Machine Sys2Proof.Safety Sys2Proof.Laws

/-! ### Grants (R170) -/

theorem grant_zero (b : Nat) : grant 0 b = (0, 0) := rfl

theorem grant_of_lt {r b : Nat} (hr : r ≠ 0) (h : r < b) : grant r b = (b, b - r) := by rw [grant, if_neg hr, if_pos h]

theorem grant_of_le {r b : Nat} (hr : r ≠ 0) (h : b ≤ r) : grant r b = (min r 65536 / b * b, 0) := by
  rw [grant, if_neg hr, if_neg (Nat.not_lt.2 h)]

/-- A request is zero, below one block, or a block or more. -/
theorem grant_cases (r b : Nat) :
    (r = 0 ∧ grant r b = (0, 0)) ∨ (r ≠ 0 ∧ r < b ∧ grant r b = (b, b - r)) ∨ (r ≠ 0 ∧ b ≤ r ∧ grant r b = (min r 65536 / b * b, 0)) := by
  rcases Nat.eq_zero_or_pos r with rfl | hr
  · exact .inl ⟨rfl, grant_zero b⟩
  · have hr := hr.ne'
    rcases Nat.lt_or_ge r b with h | h
    · exact .inr (.inl ⟨hr, h, grant_of_lt hr h⟩)
    · exact .inr (.inr ⟨hr, h, grant_of_le hr h⟩)

theorem grant_fst (r b : Nat) : (grant r b).1 = if r = 0 then 0 else if r < b then b else min r 65536 / b * b := by
  unfold grant
  split
  · rfl
  · split <;> rfl

theorem grant_snd (r b : Nat) : (grant r b).2 = if 0 < r ∧ r < b then b - r else 0 := by
  rcases grant_cases r b with ⟨hr, hg⟩ | ⟨hr, h, hg⟩ | ⟨-, h, hg⟩ <;> rw [hg]
  · rw [if_neg fun hc => hc.1.ne' hr]
  · rw [if_pos ⟨Nat.pos_of_ne_zero hr, h⟩]
  · rw [if_neg fun hc => Nat.not_lt.2 h hc.2]

theorem grant_fst_le (r : Nat) {b : Nat} (hb : b ≤ 65536) : (grant r b).1 ≤ 65536 := by
  rcases grant_cases r b with ⟨-, hg⟩ | ⟨-, -, hg⟩ | ⟨-, -, hg⟩ <;> rw [hg]
  · exact Nat.zero_le _
  · exact hb
  · exact (Nat.div_mul_le_self ..).trans (Nat.min_le_right ..)

theorem grant_snd_le (r b : Nat) : (grant r b).2 ≤ b - 1 := by
  rw [grant_snd]
  split <;> omega

theorem grant_real_le (r b : Nat) : (grant r b).1 - (grant r b).2 ≤ r := by
  rcases grant_cases r b with ⟨-, hg⟩ | ⟨-, h, hg⟩ | ⟨-, -, hg⟩ <;> rw [hg]
  · exact Nat.zero_le _
  · exact (Nat.sub_sub_self h.le).le
  · exact (Nat.div_mul_le_self ..).trans (Nat.min_le_left ..)

theorem grant_real_pos {r b : Nat} (hb : 0 < b) (hmax : b ≤ 65536) (hr : 0 < r) : 0 < (grant r b).1 - (grant r b).2 := by
  rcases grant_cases r b with ⟨h0, -⟩ | ⟨-, h, hg⟩ | ⟨-, h, hg⟩
  · exact absurd h0 hr.ne'
  · rw [hg]
    exact (Nat.sub_sub_self h.le).symm ▸ hr
  · rw [hg]
    exact Nat.mul_pos (Nat.div_pos (le_min h hmax) hb) hb

theorem grant_fst_mod (r b : Nat) : (grant r b).1 % b = 0 := by
  rcases grant_cases r b with ⟨-, hg⟩ | ⟨-, -, hg⟩ | ⟨-, -, hg⟩ <;> rw [hg]
  · exact Nat.zero_mod b
  · exact Nat.mod_self b
  · exact Nat.mul_mod_left ..

/-- A grant pads a single block alone. -/
theorem grant_single_block {r b : Nat} (h : (grant r b).2 ≠ 0) : (grant r b).1 = b := by
  rcases grant_cases r b with ⟨-, hg⟩ | ⟨-, -, hg⟩ | ⟨-, -, hg⟩ <;> rw [hg] at h ⊢
  · exact absurd rfl h
  · exact absurd rfl h

/-! ### setvl (R170) -/

theorem len_blk_pos (blk : Blk) : 0 < Blk.len blk := by cases blk <;> decide

theorem len_blk_le (blk : Blk) : Blk.len blk ≤ 128 := by cases blk <;> decide

/-- VL and VPAD hold a grant of whole blocks of at most 128 elements. -/
theorem setGrant_vl_vpad (s : State) (r : Nat) {b : Nat} (hb : b ≤ 128) :
    ((setGrant s (grant r b)).front.csr.vl.toNat, (setGrant s (grant r b)).front.csr.vpad.toNat) = grant r b := by
  have hvl : (grant r b).1 < 2 ^ 17 := (grant_fst_le r (hb.trans (by decide))).trans_lt (by decide)
  have hpad : (grant r b).2 < 2 ^ 7 := (grant_snd_le r b).trans_lt (by omega)
  exact Prod.ext ((BitVec.toNat_ofNat ..).trans (Nat.mod_eq_of_lt hvl)) ((BitVec.toNat_ofNat ..).trans (Nat.mod_eq_of_lt hpad))

theorem exec_setvl (sd sa : SReg) (fmt : Fmt) (blk : Blk) (s : State) : exec (.setvl sd sa fmt blk) s =
    .next ((((setGrant s (grant (s.rd sa).toNat (Blk.len blk))).mapCsr (fun c => { c with vfmt := fmt.code, vblk := BitVec.ofNat 8 (Blk.len blk) })).wr sd
      (BitVec.ofNat 64 ((grant (s.rd sa).toNat (Blk.len blk)).1 - (grant (s.rd sa).toNat (Blk.len blk)).2))).done) := rfl

/-- Settles O16: VL and VPAD hold the grant whole, as a block has at most 128 elements; the grant of R170 is consistent. -/
theorem setvlGrants : Obligations.SetvlGrants := by
  unfold Obligations.SetvlGrants
  intro sd sa fmt blk s
  refine ⟨_, exec_setvl sd sa fmt blk s, ?_⟩
  have hpos := len_blk_pos blk
  have hle := len_blk_le blk
  obtain ⟨hvl, hpad⟩ := Prod.mk.inj (setGrant_vl_vpad s (s.rd sa).toNat hle)
  have hreal : (grant (s.rd sa).toNat (Blk.len blk)).1 - (grant (s.rd sa).toNat (Blk.len blk)).2 < 2 ^ 64 :=
    (grant_real_le ..).trans_lt (s.rd sa).isLt
  simp only [done_eq, goto_front_csr, wr_front_csr, mapCsr_front_csr, hvl, hpad]
  refine ⟨grant_fst .., grant_snd .., ?_, grant_real_le .., grant_real_pos hpos (hle.trans (by decide)),
    grant_fst_le _ (hle.trans (by decide)), grant_fst_mod .., (grant_snd_le ..).trans_lt (Nat.sub_one_lt hpos.ne'),
    grant_single_block, trivial, ?_, fun q hq => ?_, ?_, ?_, ?_⟩
  · rw [rd_goto, rd_wr_same, apply_ite BitVec.toNat, BitVec.toNat_ofNat, Nat.mod_eq_of_lt hreal]
    rfl
  · exact (BitVec.toNat_ofNat ..).trans (Nat.mod_eq_of_lt (hle.trans_lt (by decide)))
  · exact rd_wr_other hq _
  · exact wr_front_w ..
  · exact wr_mem ..
  · exact congrArg (· + 8) (wr_front_pc ..)

/-! ### strip (R172, R173) -/

/-- Size of an element in bits; none for a reserved format, as in the model. -/
def elemBits (d : Desc) : Nat := ((Desc.fmt d).map Fmt.bits).getD 0

/-- The new BASE after elements that end at a whole byte (R173). -/
theorem advanceBase_of_whole {d : Desc} {c : Nat} (h : Desc.mode d = 0 → c * elemBits d % 8 = 0) : advanceBase d c = some
    (if Desc.mode d = 0 then (Desc.base d + c * elemBits d / 8) % 2 ^ 56
      else if Desc.mode d = 1 then (((Desc.base d : Int) + c * Desc.stride d) % 2 ^ 56).toNat
      else Desc.base d) := by
  unfold advanceBase
  split
  · next h0 =>
    rw [if_pos h0]
    exact if_neg (not_not.2 (h h0))
  · next h1 =>
    rw [if_neg (by rw [h1]; decide), if_pos h1]
    rfl
  · next h0 h1 => rw [if_neg h0, if_neg h1]

/-- Where each named window is present, has a format and ends at a whole byte, `strip` finds no fault. -/
theorem stripFault_none {s : State} {ws : List WReg} {c : Nat} (h : ∀ w ∈ ws, wpresent s w = true ∧
    (Desc.mode (s.rdW w) = 0 → (Desc.fmt (s.rdW w)).isSome ∧ c * elemBits (s.rdW w) % 8 = 0)) : stripFault s ws c = none := by
  have hpresent : ws.find? (fun w => !wpresent s w) = none := List.find?_eq_none.2 fun w hw => by rw [(h w hw).1]; decide
  have hformat : ws.any (fun w => Desc.mode (s.rdW w) == 0 && (Desc.fmt (s.rdW w)).isNone) = false := List.any_eq_false.2 fun w hw hc => by
    obtain ⟨h0, hnone⟩ := Bool.and_eq_true_iff.1 hc
    have hsome := ((h w hw).2 (beq_iff_eq.1 h0)).1
    rw [Option.isNone_iff_eq_none.1 hnone] at hsome
    cases hsome
  have hwhole : ws.any (fun w => (advanceBase (s.rdW w) c).isNone) = false := List.any_eq_false.2 fun w hw => by
    rw [advanceBase_of_whole fun h0 => ((h w hw).2 h0).2]
    nofun
  rw [stripFault, hpresent]
  dsimp only
  rw [hformat, hwhole]
  rfl

/-- A window advanced by `c` elements, present and dirty. -/
def advanceWin (c : Nat) (t : State) (w : WReg) : State := putWin t w (Desc.setBase (t.rdW w) ((advanceBase (t.rdW w) c).getD 0))

/-- Strip-ahead hints for the next `n` elements of some windows (R174). -/
def hintWins (n : Nat) (ws : List WReg) (t : State) : State := ws.foldl (fun t w => sendHints t (hintsOf t (t.rdW w) n)) t

/-- The windows advanced by `c` elements each, and `rem` elements left in SA. -/
def stripped (c : Nat) (ws : List WReg) (sa : SReg) (rem : Nat) (s : State) : State := (ws.foldl (advanceWin c) s).wr sa (BitVec.ofNat 64 rem)

/-- They are followed by the grant of the next strip. -/
def regranted (c : Nat) (ws : List WReg) (sa : SReg) (rem : Nat) (s : State) : State :=
  setGrant (stripped c ws sa rem s) (grant rem (stripped c ws sa rem s).front.csr.vblk.toNat)

/-- `t` is `s` but for hints. -/
def OnlyHints (s t : State) : Prop := t = { s with hints := t.hints }

theorem OnlyHints.foldl {α : Type} {f : State → α → State} (hf : ∀ s a, OnlyHints s (f s a)) (l : List α) (s : State) : OnlyHints s (l.foldl f s) := by
  induction l generalizing s with
  | nil => rfl
  | cons a l ih =>
    have hrest := ih (f s a)
    unfold OnlyHints at *
    rw [List.foldl_cons, hrest]
    rw [hf s a]

theorem onlyHints_hintWins (n : Nat) (ws : List WReg) (s : State) : OnlyHints s (hintWins n ws s) := by
  refine .foldl (fun t w => .foldl (fun u h => ?_) _ t) ws s
  split <;> rfl

section
variable {sa sb : SReg} {s : State} {c r : Nat} (off : BitVec 32) (hc : s.front.csr.vl.toNat - s.front.csr.vpad.toNat = c)
  (hfault : stripFault s (maskWins (s.rd sb).toNat) c = none) (hr : (s.rd sa).toNat - c = r)
include hc hfault hr

/-- With no element left, `strip` goes on; else it grants the next strip, sends hints and branches. -/
theorem exec_strip : exec (.strip sa sb off) s = .next
    (if r = 0 then (stripped c (maskWins (s.rd sb).toNat) sa r s).done
      else (hintWins ((regranted c (maskWins (s.rd sb).toNat) sa r s).front.csr.vl.toNat - (regranted c (maskWins (s.rd sb).toNat) sa r s).front.csr.vpad.toNat)
        (maskWins (s.rd sb).toNat) (regranted c (maskWins (s.rd sb).toNat) sa r s)).goto (branchTo s off)) := by
  have hrem : (if (s.rd sa).toNat > c then (s.rd sa).toNat - c else 0) = r := by split <;> omega
  have hwins : stripWins (s.rd sb) = maskWins (s.rd sb).toNat := rfl
  change execStrip sa sb off s = _
  unfold execStrip
  dsimp only
  rw [hc, hwins, hfault]
  dsimp only
  rw [hrem]
  split <;> rfl

end

theorem rdW_advanceWin (c : Nat) (t : State) (w x : WReg) : (advanceWin c t w).rdW x =
    if x = w then Desc.clean (Desc.setBase (t.rdW x) ((advanceBase (t.rdW x) c).getD 0)) else t.rdW x := by
  rw [advanceWin, rdW_putWin]
  by_cases hx : x = w
  · rw [hx]
  · rw [if_neg hx, if_neg hx]

theorem onlyWindows_advanceWin (c : Nat) (s : State) (w : WReg) : OnlyWindows s (advanceWin c s w) := by
  unfold advanceWin putWin OnlyWindows
  rfl

/-- The registers and windows once the named windows are advanced. -/
theorem stripped_leaves (c : Nat) {ws : List WReg} (hn : ws.Nodup) (sa : SReg) (r : Nat) (s : State) :
    let t := stripped c ws sa r s
    (∀ k, t.rdW k = if k ∈ ws then Desc.clean (Desc.setBase (s.rdW k) ((advanceBase (s.rdW k) c).getD 0)) else s.rdW k) ∧
    (∀ k ∈ ws, wpresent t k = true ∧ t.front.csr.wdirty.getLsbD k.toNat = true) ∧
    t.rd sa = (if sa = 0 then 0 else BitVec.ofNat 64 r) ∧ (∀ q, q ≠ sa → t.rd q = s.rd q) ∧ t.mem = s.mem ∧ t.front.pc = s.front.pc ∧
    t.front.csr.vl = s.front.csr.vl ∧ t.front.csr.vpad = s.front.csr.vpad ∧ t.front.csr.vblk = s.front.csr.vblk := by
  have honly : OnlyWindows s (ws.foldl (advanceWin c) s) := .foldl (onlyWindows_advanceWin c) ws s
  have hwin (k : WReg) := rdW_foldl (f := advanceWin c) (g := fun _ d => Desc.clean (Desc.setBase d ((advanceBase d c).getD 0)))
    (rdW_advanceWin c) hn s k
  have hpres (k : WReg) := foldl_sets_bits (f := advanceWin c) (fun t w x => wpresent_putWin t w _ x) ws s k
  have hdirty (k : WReg) := foldl_sets_bits (f := advanceWin c) (q := fun t x => t.front.csr.wdirty.getLsbD x.toNat)
    (fun t w x => wdirty_putWin t w _ x) ws s k
  refine ⟨fun k => (rdW_wr ..).trans (hwin k), fun k hk => ⟨?_, ?_⟩, rd_wr_same .., fun q hq => (rd_wr_other hq _).trans (honly.rd q),
    (wr_mem ..).trans honly.mem, (wr_front_pc ..).trans honly.pc, ?_, ?_, ?_⟩
  · rw [wpresent, stripped, wr_front_csr]
    exact (hpres k).trans (by rw [decide_eq_true hk, Bool.or_true])
  · rw [stripped, wr_front_csr]
    exact (hdirty k).trans (by rw [decide_eq_true hk, Bool.or_true])
  all_goals rw [stripped, wr_front_csr, honly]

theorem goto_hintWins_leaves (n : Nat) (ws : List WReg) (y : State) (a : Word) :
    let t := (hintWins n ws y).goto a
    (∀ k, t.rdW k = y.rdW k) ∧ (∀ r, t.rd r = y.rd r) ∧ t.mem = y.mem ∧ t.front.csr = y.front.csr ∧ t.front.pc = a := by
  have h := onlyHints_hintWins n ws y
  refine ⟨fun k => ?_, fun r => ?_, ?_, ?_, rfl⟩ <;> rw [h] <;> rfl

/-- O17 for the blocks that VBLK can hold (R168), all of at most 128 elements: VPAD then holds every grant's pad. -/
theorem strip_advances_of_block_le {s : State} (hblock : s.front.csr.vblk.toNat ≤ 128) (sa sb : SReg) (off : BitVec 32) :
    let real := s.front.csr.vl.toNat - s.front.csr.vpad.toNat
    let named (k : WReg) : Bool := k != 0 && (s.rd sb).getLsbD k.toNat
    let rem := (s.rd sa).toNat - real
    (∀ k, named k = true → wpresent s k = true ∧
      (Desc.mode (s.rdW k) = 0 → (Desc.fmt (s.rdW k)).isSome ∧ real * elemBits (s.rdW k) % 8 = 0)) →
    ∃ t, exec (.strip sa sb off) s = .next t ∧
      (∀ k, t.rdW k = (if named k then Desc.clean (Desc.setBase (s.rdW k)
        (if Desc.mode (s.rdW k) = 0 then (Desc.base (s.rdW k) + real * elemBits (s.rdW k) / 8) % 2 ^ 56
         else if Desc.mode (s.rdW k) = 1 then (((Desc.base (s.rdW k) : Int) + real * Desc.stride (s.rdW k)) % 2 ^ 56).toNat
         else Desc.base (s.rdW k))) else s.rdW k)) ∧
      (∀ k : WReg, named k = true → wpresent t k = true ∧ t.front.csr.wdirty.getLsbD k.toNat = true) ∧
      (t.rd sa).toNat = (if sa = 0 then 0 else rem) ∧ (∀ q, q ≠ sa → t.rd q = s.rd q) ∧ t.mem = s.mem ∧
      (rem = 0 → t.front.pc = s.front.pc + 8 ∧ t.front.csr.vl = s.front.csr.vl ∧ t.front.csr.vpad = s.front.csr.vpad) ∧
      (rem ≠ 0 → t.front.pc = s.front.pc + 8 * off.signExtend 64 ∧
        (t.front.csr.vl.toNat, t.front.csr.vpad.toNat) = grant rem s.front.csr.vblk.toNat) := by
  intro real named rem hfit
  have hmem (k : WReg) : k ∈ maskWins (s.rd sb).toNat ↔ named k = true :=
    decide_eq_true_iff.symm.trans (Bool.eq_iff_iff.1 (decide_mem_maskWins (s.rd sb) k))
  have hwhole (k : WReg) (hk : k ∈ maskWins (s.rd sb).toNat) := advanceBase_of_whole fun h0 => ((hfit k ((hmem k).1 hk)).2 h0).2
  have hexec := exec_strip off (c := real) rfl (stripFault_none fun k hk => hfit k ((hmem k).1 hk)) (r := rem) rfl
  obtain ⟨hw, hmarks, hsa, hrd, hm, hpc, hvl, hvpad, hvblk⟩ := stripped_leaves real (nodup_maskWins (s.rd sb).toNat) sa rem s
  rw [regranted, hvblk] at hexec
  generalize stripped real (maskWins (s.rd sb).toNat) sa rem s = x at hexec hw hmarks hsa hrd hm hpc hvl hvpad
  have hwin (k : WReg) : x.rdW k = if named k then Desc.clean (Desc.setBase (s.rdW k)
        (if Desc.mode (s.rdW k) = 0 then (Desc.base (s.rdW k) + real * elemBits (s.rdW k) / 8) % 2 ^ 56
         else if Desc.mode (s.rdW k) = 1 then (((Desc.base (s.rdW k) : Int) + real * Desc.stride (s.rdW k)) % 2 ^ 56).toNat
         else Desc.base (s.rdW k))) else s.rdW k := by
    rw [hw k]
    by_cases hk : k ∈ maskWins (s.rd sb).toNat
    · rw [if_pos hk, if_pos ((hmem k).1 hk), hwhole k hk, Option.getD_some]
    · rw [if_neg hk, if_neg (mt (hmem k).2 hk)]
  have hleft : (x.rd sa).toNat = if sa = 0 then 0 else rem := by
    rw [hsa, apply_ite BitVec.toNat, BitVec.toNat_ofNat, Nat.mod_eq_of_lt ((Nat.sub_le ..).trans_lt (s.rd sa).isLt)]
    rfl
  by_cases hr : rem = 0
  · rw [if_pos hr] at hexec
    exact ⟨_, hexec, hwin, fun k hk => hmarks k ((hmem k).2 hk), hleft, hrd, hm, fun _ => ⟨congrArg (· + 8) hpc, hvl, hvpad⟩, fun h => absurd hr h⟩
  · rw [if_neg hr] at hexec
    obtain ⟨hw', hrd', hm', hcsr', hpc'⟩ := goto_hintWins_leaves
      ((setGrant x (grant rem s.front.csr.vblk.toNat)).front.csr.vl.toNat - (setGrant x (grant rem s.front.csr.vblk.toNat)).front.csr.vpad.toNat)
      (maskWins (s.rd sb).toNat) (setGrant x (grant rem s.front.csr.vblk.toNat)) (branchTo s off)
    refine ⟨_, hexec, fun k => (hw' k).trans (hwin k), fun k hk => ?_, (congrArg BitVec.toNat (hrd' sa)).trans hleft,
      fun q hq => (hrd' q).trans (hrd q hq), hm'.trans hm, fun h => absurd h hr, fun _ => ⟨hpc', ?_⟩⟩
    · rw [wpresent, hcsr']
      exact hmarks k ((hmem k).2 hk)
    · rw [hcsr']
      exact setGrant_vl_vpad x rem hblock

/-- A stream with a block of 255 elements, which no instruction leaves in VBLK (R168), and 2 elements left in s1. -/
def wideBlock : State := (State.reset.mapCsr (fun c => { c with vblk := 255 })).wr 1 2

/-- Refutes O17: the statement asks nothing of VBLK, whose eight bits hold more than the block lengths of R168. In `wideBlock` the grant has 253 pad
elements, and VPAD, of seven bits, holds 125. -/
theorem not_stripAdvances : ¬ Obligations.StripAdvances := by
  unfold Obligations.StripAdvances
  intro h
  have hnone (k : WReg) : (k != 0 && (wideBlock.rd 0).getLsbD k.toNat) = false := by
    rw [rd_zero, show (0 : Word).getLsbD k.toNat = false from BitVec.getLsbD_zero, Bool.and_false]
  obtain ⟨t, -, -, -, -, -, -, -, hgo⟩ := h 1 0 0 wideBlock fun k hk => absurd hk (Bool.eq_false_iff.1 (hnone k))
  obtain ⟨-, hgrant⟩ := hgo (by decide)
  have hpad : t.front.csr.vpad.toNat = 253 := congrArg Prod.snd hgrant
  have hlt : t.front.csr.vpad.toNat < 128 := t.front.csr.vpad.isLt
  omega

end Sys2Proof.Proofs
end

section
/-! Windows saved and restored (R394): an area's pages, its race tags, its stores. -/

namespace Sys2Proof.Proofs

open Sys2Proof Sys2Proof.Machine Sys2Proof.Safety Sys2Proof.Laws

/-! ### Computations over a list -/

theorem keepsM_mapM_of {α β : Type} {P : State → Prop} {f : α → M β} {l : List α} (hf : ∀ a, KeepsM P (f a)) : KeepsM P (l.mapM f) := by
  induction l with
  | nil => exact keepsM_pure _
  | cons a l ih =>
    rw [List.mapM_cons]
    exact .bind (hf a) fun _ => .bind ih fun _ => keepsM_pure _

theorem keepsM_forM_of {α : Type} {P : State → Prop} {f : α → M PUnit} {l : List α} (hf : ∀ a, KeepsM P (f a)) : KeepsM P (l.forM f) := by
  induction l with
  | nil => exact keepsM_pure _
  | cons a l ih => exact .bind (hf a) fun _ => ih

/-- Checks that all pass leave the state. -/
theorem exec_forM_of_pass {α : Type} {f : α → M PUnit} {l : List α} {s : State} (h : ∀ a ∈ l, M.exec (f a) s = (.ok (), s)) :
    M.exec (l.forM f) s = (.ok (), s) := by
  induction l with
  | nil => rfl
  | cons a l ih =>
    refine (exec_bind_ok (h a (List.mem_cons_self ..))).trans ?_
    exact ih fun b hb => h b (List.mem_cons_of_mem _ hb)

/-! ### Areas (R393) -/

theorem keepsWalked_areaPages {s0 : State} {va n al : Nat} {p : Perm} : KeepsM (Walked s0) (areaPages va n al p) := by
  unfold areaPages
  refine .bind keepsM_get fun s => keepsM_ite_of (keepsM_throw _) (keepsM_mapM_of fun a => ?_)
  exact .bind keepsWalked_xlate fun _ => .bind keepsWalked_keysM fun _ => keepsM_pure _

theorem exec_areaFree {ps : List (Nat × Nat × Place)} {wr : Bool} {va n : Nat} {s : State}
    (hsound : wr = false → unreadable s (areaKeys s ps va n) = false) (hrace : areaRace s ps wr va n = none) :
    M.exec (areaFree ps wr va n) s = (.ok (), s) := by
  have hlast : M.exec (get >>= fun u => match areaRace u ps wr va n with
      | some t => trapM t
      | none => pure ()) s = (.ok (), s) := by
    rw [exec_bind_ok (exec_get _), hrace]
    rfl
  cases wr with
  | true => exact hlast
  | false =>
    have harea : M.exec (areaSound ps va n) s = (.ok (), s) := by
      rw [areaSound, exec_bind_ok (exec_get _), exec_need, hsound rfl]
      rfl
    exact (exec_bind_ok harea).trans hlast

/-- `t` is `s` but for race tags and the count of lost entries (R330). -/
def OnlyTags (s t : State) : Prop :=
  t = { s with tags := t.tags, front := { s.front with csr := { s.front.csr with lost := t.front.csr.lost } } }

theorem OnlyTags.refl (s : State) : OnlyTags s s := rfl

theorem OnlyTags.trans {s t u : State} (h : OnlyTags s t) (h' : OnlyTags t u) : OnlyTags s u := by
  unfold OnlyTags at *
  rw [h']
  rw [h]

theorem OnlyTags.foldl {α : Type} {f : State → α → State} (hf : ∀ s a, OnlyTags s (f s a)) (l : List α) (s : State) : OnlyTags s (l.foldl f s) := by
  induction l generalizing s with
  | nil => exact .refl s
  | cons a l ih => exact (hf s a).trans (ih _)

theorem onlyTags_setTag (s : State) (t : RaceTag) : OnlyTags s (s.setTag t) := by
  unfold State.setTag
  dsimp only
  split <;> rfl

theorem keepsOnlyTags_raceMark {s0 : State} {v : Option (List (Nat × Nat))} {pl : Place} {ks : List Key} {wr : Bool} :
    KeepsM (OnlyTags s0) (raceMark v pl ks wr) := by
  refine keepsM_modify fun s hs => ?_
  dsimp only
  split
  · refine OnlyTags.trans hs (OnlyTags.foldl (fun t c => ?_) _ s)
    split
    · refine OnlyTags.trans ?_ (onlyTags_setTag ..)
      split <;> rfl
    · exact onlyTags_setTag ..
  · exact hs

theorem keepsOnlyTags_areaMark {s0 : State} {ps : List (Nat × Nat × Place)} {wr : Bool} {va n : Nat} : KeepsM (OnlyTags s0) (areaMark ps wr va n) := by
  refine .bind keepsM_get fun s => ?_
  split
  · exact keepsOnlyTags_raceMark
  · exact keepsM_pure _

/-- The marks of an area's pieces, one after another. -/
theorem onlyTags_of_exec {s t : State} {α : Type} {l : List α} {f : α → M PUnit} (hf : ∀ a, KeepsM (OnlyTags s) (f a))
    (h : M.exec (l.forM f) s = (.ok (), t)) : OnlyTags s t := keeps_of_exec (keepsM_forM_of hf) h (.refl s)

/-! ### Stores do not look at the control registers -/

section
variable (s : State) (f : Csrs → Csrs)

theorem hostPut_mapCsr (a n v : Nat) : (s.mapCsr f).hostPut a n v = (s.hostPut a n v).mapCsr f := by
  unfold State.hostPut State.write State.noted State.notedIn
  rw [mapCsr_monitors]
  split <;> rfl

theorem signal_mapCsr (v : BitVec 11) : (s.mapCsr f).signal v = (s.signal v).mapCsr f := by
  unfold State.signal
  rw [apply_ite (State.mapCsr · f)]
  rfl

/-- The eight dwords of an event record at `a` (R444). -/
def eventWords (s : State) (a head : Nat) (ps : List Nat) : State :=
  (List.range 7).foldl (fun u i => u.hostPut (a + 8 + 8 * i) 8 (ps.getD i 0)) { s.hostPut a 8 head with drawn := s.drawn + 1 }

/-- The ring moves on by the record, and its interrupt is signalled (R444). -/
def eventEnd (s : State) (r : Regs) : State :=
  if r.evIrq then ({ s with regs := { s.regs with evHead := r.evHead + 1 } } : State).signal r.evVec
  else { s with regs := { s.regs with evHead := r.evHead + 1 } }

theorem event_eq_words (type die : Nat) (ps : List Nat) : s.event type die ps =
    if s.regs.evEn && (s.regs.evHead - s.regs.evTail).toNat < 2 ^ s.regs.evSize.toNat then
      eventEnd (eventWords s (s.regs.evBase.toNat + 64 * (s.regs.evHead.toNat % 2 ^ s.regs.evSize.toNat))
        (type + at_ 8 die + at_ 16 (Config.eventTime s.drawn).toNat) ps) s.regs
    else { s with regs := { s.regs with evLost := if s.regs.evLost = 0xFFFF then s.regs.evLost else s.regs.evLost + 1 } } := rfl

theorem eventWords_mapCsr (a head : Nat) (ps : List Nat) : eventWords (s.mapCsr f) a head ps = (eventWords s a head ps).mapCsr f := by
  unfold eventWords
  rw [hostPut_mapCsr]
  exact List.foldl_hom (init := { s.hostPut a 8 head with drawn := s.drawn + 1 }) (State.mapCsr · f) fun u i => hostPut_mapCsr u f ..

theorem eventEnd_mapCsr (r : Regs) : eventEnd (s.mapCsr f) r = (eventEnd s r).mapCsr f := by
  unfold eventEnd
  rw [apply_ite (State.mapCsr · f), ← signal_mapCsr]
  rfl

theorem event_mapCsr (type die : Nat) (ps : List Nat) : (s.mapCsr f).event type die ps = (s.event type die ps).mapCsr f := by
  rw [event_eq_words, event_eq_words, apply_ite (State.mapCsr · f), ← eventEnd_mapCsr, ← eventWords_mapCsr]
  rfl

theorem touch_mapCsr (ks : List Key) : (s.mapCsr f).touch ks = (s.touch ks).mapCsr f := by
  unfold State.touch
  rw [apply_ite (State.mapCsr · f)]
  rfl

/-- A store to absent stack addresses is logged (R293). -/
def reportGone (s : State) : List (Key × Byte) → State
  | [] => s
  | g :: _ => s.event 6 0 [g.1 % 2 ^ 52 / 32 * 32, s.front.sid.toNat]

/-- Uncorrectable words that bytes at some keys write in part (R143). -/
def hurtWords (s : State) (ks : List Key) : List Nat :=
  (ks.map (· / 8)).dedup.filter (fun w => s.poison.contains w && keyCls (8 * w) != .hm && !(wholeWords ks).contains w)

/-- Each of them is logged. -/
def reportHurt (s : State) (ws : List Nat) : State := ws.foldl (fun s w => s.event 6 0 [w * 8 % 2 ^ 53 / 32 * 32, s.front.sid.toNat]) s

/-- The bytes of a store at places that are there, their words' check bits, and what watches them (R143, R395). -/
def putBytes (s : State) (kbs : List (Key × Byte)) : State :=
  { s with
    mem := s.mem.sets kbs
    poison := if s.poison.isEmpty then [] else s.poison.filter (fun w => !(wholeWords (kbs.map (·.1))).contains w)
    monitors := s.monitors.map (fun m => if m.keys.any (fun k => (kbs.map (·.1)).contains k) then { m with hit := true } else m) }

/-- A store at places that are there. -/
def storeThere (s : State) (kbs : List (Key × Byte)) : State :=
  putBytes ((reportHurt s (hurtWords s (kbs.map (·.1)))).touch (kbs.map (·.1))) kbs

/-- A store logs the places that are absent and performs the others. -/
theorem store_eq_there (kbs : List (Key × Byte)) : s.store kbs =
    storeThere (reportGone s (kbs.filter (fun p => keyCls p.1 == .sm && !smPresent s p.1)))
      (kbs.filter (fun p => !(keyCls p.1 == .sm && !smPresent s p.1))) := by
  unfold State.store reportGone
  cases kbs.filter (fun p => keyCls p.1 == .sm && !smPresent s p.1) <;> rfl

theorem reportGone_mapCsr (gone : List (Key × Byte)) : reportGone (s.mapCsr f) gone = (reportGone s gone).mapCsr f := by
  cases gone with
  | nil => rfl
  | cons g _ => exact event_mapCsr ..

theorem reportHurt_mapCsr (ws : List Nat) : reportHurt (s.mapCsr f) ws = (reportHurt s ws).mapCsr f :=
  List.foldl_hom (State.mapCsr · f) fun t _ => event_mapCsr t f ..

theorem storeThere_mapCsr (kbs : List (Key × Byte)) : storeThere (s.mapCsr f) kbs = (storeThere s kbs).mapCsr f := by
  have hhurt : hurtWords (s.mapCsr f) (kbs.map (·.1)) = hurtWords s (kbs.map (·.1)) := rfl
  rw [storeThere, hhurt, reportHurt_mapCsr, touch_mapCsr]
  rfl

theorem store_mapCsr (kbs : List (Key × Byte)) : (s.mapCsr f).store kbs = (s.store kbs).mapCsr f := by
  rw [store_eq_there, store_eq_there, ← storeThere_mapCsr, ← reportGone_mapCsr]
  rfl

theorem shelfPut_mapCsr (own sector isn : Nat) : shelfPut (s.mapCsr f) own sector isn = (shelfPut s own sector isn).mapCsr f := by
  unfold shelfPut
  rw [apply_ite (State.mapCsr · f)]
  rfl

theorem shelved_mapCsr (isn c : Nat) : shelved isn (s.mapCsr f) c = (shelved isn s c).mapCsr f := by
  have howner : ownerOf (s.mapCsr f) (32 * c) = ownerOf s (32 * c) := rfl
  unfold shelved
  rw [howner]
  cases ownerOf s (32 * c) with
  | none => rfl
  | some o => exact shelfPut_mapCsr ..

theorem storeAt_mapCsr (isn : Nat) (shelve : Bool) (kbs : List (Key × Byte)) :
    (s.mapCsr f).storeAt isn shelve kbs = (s.storeAt isn shelve kbs).mapCsr f := by
  rw [storeAt_eq, storeAt_eq, ← store_mapCsr, apply_ite (State.mapCsr · f)]
  congr 2
  exact List.foldl_hom (init := patchShelf s isn kbs) (State.mapCsr · f) fun t c => shelved_mapCsr t f isn c

end

/-! ### Places do not depend on the control registers -/

section
variable (s : State) (f : Csrs → Csrs)

theorem redirectN_mapCsr (n p : Nat) : redirectN (s.mapCsr f) n p = redirectN s n p := by
  induction n generalizing p with
  | zero => rfl
  | succ n ih =>
    have hstack : (s.mapCsr f).stack (fld 36 4 p) = s.stack (fld 36 4 p) := rfl
    rw [redirectN, redirectN, hstack]
    cases (s.stack (fld 36 4 p)).remap.find? (fun e => e.1 == p / 2 ^ 14) with
    | none => rfl
    | some e => exact ih _

theorem keyOf_mapCsr (pl : Place) (va : Nat) : keyOf (s.mapCsr f) pl va = keyOf s pl va := by
  unfold keyOf remapped
  simp only [redirectN_mapCsr]
  rfl

theorem keysOf_mapCsr (pl : Place) (va n : Nat) : keysOf (s.mapCsr f) pl va n = keysOf s pl va n := by
  unfold keysOf
  simp only [keyOf_mapCsr]

theorem areaKeys_mapCsr (ps : List (Nat × Nat × Place)) (va n : Nat) : areaKeys (s.mapCsr f) ps va n = areaKeys s ps va n := by
  unfold areaKeys
  simp only [keysOf_mapCsr]

end

/-! ### A window's place in the area (R394) -/

/-- A descriptor is stored in two halves. -/
def putDesc (ps : List (Nat × Nat × Place)) (va : Nat) (s : State) (d : Desc) : State :=
  putArea ps (putArea ps s va (d.toNat % 2 ^ 64)) (va + 8) (d.toNat / 2 ^ 64)

/-- A window is stored at its place in the area at `a`, and is no longer dirty. -/
def saveWindow (ps : List (Nat × Nat × Place)) (a : Nat) (s : State) (w : WReg) : State :=
  clearDirty (putDesc ps (a + 16 * w.toNat) s (s.rdW w)) w

/-- The descriptor that stands at `va`. -/
def descAt (s : State) (ps : List (Nat × Nat × Place)) (va : Nat) : Desc :=
  Desc.clean (BitVec.ofNat 128 (areaWord s ps va + 2 ^ 64 * areaWord s ps (va + 8)))

/-- A window is loaded: present and not dirty. -/
def loadWindow (d : WReg → Desc) (s : State) (w : WReg) : State :=
  clearDirty ((s.wrW w (d w)).mapCsr (fun c => { c with wpres := c.wpres ||| (1 : BitVec 32) <<< w.toNat })) w

section
variable (ps : List (Nat × Nat × Place)) (s : State)

theorem putDesc_front (va : Nat) (d : Desc) : (putDesc ps va s d).front = s.front :=
  (storeAt_front ..).trans (storeAt_front ..)

theorem putDesc_clearDirty (va : Nat) (d : Desc) (w : WReg) : putDesc ps va (clearDirty s w) d = clearDirty (putDesc ps va s d) w := by
  have harea (u : State) (va v : Nat) : putArea ps (clearDirty u w) va v = clearDirty (putArea ps u va v) w := by
    have hks : areaKeys (clearDirty u w) ps va 8 = areaKeys u ps va 8 := areaKeys_mapCsr ..
    rw [putArea, hks]
    exact storeAt_mapCsr ..
  rw [putDesc, harea, harea]
  rfl

/-- Windows saved one after another: stored one after another, and no longer dirty. -/
theorem foldl_saveWindow (a : Nat) (ws : List WReg) : ws.foldl (saveWindow ps a) s =
    ws.foldl clearDirty (ws.foldl (fun u w => putDesc ps (a + 16 * w.toNat) u (s.rdW w)) s) := by
  have hclear (u : State) (d : WReg → Desc) (x : WReg) (l : List WReg) :
      l.foldl (fun u w => putDesc ps (a + 16 * w.toNat) u (d w)) (clearDirty u x) =
        clearDirty (l.foldl (fun u w => putDesc ps (a + 16 * w.toNat) u (d w)) u) x :=
    List.foldl_hom (clearDirty · x) fun t w => putDesc_clearDirty ps t _ _ x
  induction ws generalizing s with
  | nil => rfl
  | cons w ws ih =>
    have hrd (x : WReg) : (saveWindow ps a s w).rdW x = s.rdW x := by
      rw [saveWindow, clearDirty, rdW_mapCsr, State.rdW, putDesc_front, State.rdW]
    rw [List.foldl_cons, ih, List.foldl_cons, List.foldl_cons, ← hclear]
    simp only [hrd]
    rfl

theorem foldl_putDesc_front (a : Nat) (d : WReg → Desc) (ws : List WReg) :
    (ws.foldl (fun u w => putDesc ps (a + 16 * w.toNat) u (d w)) s).front = s.front := by
  induction ws generalizing s with
  | nil => rfl
  | cons w ws ih => exact (ih _).trans (putDesc_front ..)

end

/-! ### The instructions -/

theorem exec_supervisor {s : State} (h : s.front.csr.mode = true) : M.exec supervisor s = (.ok (), s) := by
  rw [supervisor, exec_bind_ok (exec_get _), exec_need, h]
  rfl

theorem exec_waitFor_of_true {b : Bool} (h : b = true) (s : State) : M.exec (waitFor b) s = (.ok (), s) := by
  rw [exec_waitFor, h]
  rfl

theorem fld_halves (d : Desc) : fld 0 64 d.toNat = d.toNat % 2 ^ 64 ∧ fld 64 64 d.toNat = d.toNat / 2 ^ 64 := by
  have hlt : d.toNat / 2 ^ 64 < 2 ^ 64 := Nat.div_lt_of_lt_mul d.isLt
  exact ⟨by rw [fld, Nat.pow_zero, Nat.div_one], by rw [fld, Nat.mod_eq_of_lt hlt]⟩

section
variable {sd sa sb : SReg} {s s1 s2 : State} {ps : List (Nat × Nat × Place)} (hmode : s.front.csr.mode = true) (hready : areaReady s = true)
include hmode hready

theorem exec_wsave (hp : M.exec (areaPages (s.rd sa).toNat 512 512 .write) s = (.ok ps, s1))
    (hrace : ∀ w ∈ (maskWins (s.rd sb).toNat).filter (wpresent s), areaRace s1 ps true ((s.rd sa).toNat + 16 * w.toNat) 16 = none)
    (hmark : M.exec (((maskWins (s.rd sb).toNat).filter (wpresent s)).forM (fun w => areaMark ps true ((s.rd sa).toNat + 16 * w.toNat) 16)) s1 = (.ok (), s2)) :
    exec (.wsave sd sa sb) s = .next
      (((((maskWins (s.rd sb).toNat).filter (wpresent s)).foldl (saveWindow ps (s.rd sa).toNat) s2).wr sd
        (winMask ((maskWins (s.rd sb).toNat).filter (wpresent s)))).leave.done) := by
  have hfree := exec_forM_of_pass fun w hw => exec_areaFree (wr := true) nofun (hrace w hw)
  refine frontM_ok (m := wsaveM sd sa sb) ?_
  rw [wsaveM, exec_bind_ok (exec_supervisor hmode), exec_bind_ok (exec_get _), exec_bind_ok (exec_waitFor_of_true hready _), exec_bind_ok hp]
  dsimp only
  rw [exec_bind_ok hfree, exec_bind_ok hmark, exec_modify]
  simp only [fld_halves]
  rfl

theorem exec_wrest (hp : M.exec (areaPages (s.rd sa).toNat 512 512 .read) s = (.ok ps, s1))
    (hsound : ∀ w ∈ maskWins (s.rd sb).toNat, unreadable s1 (areaKeys s1 ps ((s.rd sa).toNat + 16 * w.toNat) 16) = false)
    (hrace : ∀ w ∈ maskWins (s.rd sb).toNat, areaRace s1 ps false ((s.rd sa).toNat + 16 * w.toNat) 16 = none)
    (hmark : M.exec ((maskWins (s.rd sb).toNat).forM (fun w => areaMark ps false ((s.rd sa).toNat + 16 * w.toNat) 16)) s1 = (.ok (), s2)) :
    exec (.wrest sd sa sb) s = .next
      ((((maskWins (s.rd sb).toNat).foldl (loadWindow (fun w => descAt s2 ps ((s.rd sa).toNat + 16 * w.toNat))) s2).wr sd
        (winMask (maskWins (s.rd sb).toNat))).leave.done) := by
  have hfree := exec_forM_of_pass fun w hw => exec_areaFree (fun _ => hsound w hw) (hrace w hw)
  refine frontM_ok (m := wrestM sd sa sb) ?_
  rw [wrestM, exec_bind_ok (exec_supervisor hmode), exec_bind_ok (exec_get _), exec_bind_ok (exec_waitFor_of_true hready _), exec_bind_ok hp]
  dsimp only
  rw [exec_bind_ok hfree, exec_bind_ok hmark, exec_modify]
  simp only [at_, Nat.mul_comm _ (2 ^ 64)]
  rfl

end

/-- Windows lose their dirty bits; nothing else changes. -/
theorem foldl_clearDirty (ws : List WReg) (s : State) : ∃ d, ws.foldl clearDirty s = s.mapCsr (fun c => { c with wdirty := d }) := by
  induction ws generalizing s with
  | nil => exact ⟨s.front.csr.wdirty, rfl⟩
  | cons w ws ih =>
    obtain ⟨d, hd⟩ := ih (clearDirty s w)
    exact ⟨d, hd⟩

/-- SD then holds the mask of the windows. -/
theorem getLsbD_rd_winMask {ws : List WReg} (hs : ws.Pairwise (fun w x => w.toNat < x.toNat)) (s : State) (sd : SReg) (w : WReg) :
    ((s.wr sd (winMask ws)).rd sd).getLsbD w.toNat = (sd != 0 && decide (w ∈ ws)) := by
  rw [rd_wr_same]
  by_cases hd : sd = 0
  · rw [if_pos hd, hd]
    exact BitVec.getLsbD_zero
  · rw [if_neg hd, getLsbD_winMask hs, bne_iff_ne.2 hd, Bool.true_and]

theorem onlyWindows_loadWindow (d : WReg → Desc) (s : State) (w : WReg) : OnlyWindows s (loadWindow d s w) := by
  unfold loadWindow clearDirty OnlyWindows
  rfl

theorem rdW_loadWindow (d : WReg → Desc) (s : State) (w x : WReg) : (loadWindow d s w).rdW x = if x = w then d x else s.rdW x := by
  have h : (loadWindow d s w).rdW x = if x = w then d w else s.rdW x := rdW_wrW ..
  rw [h]
  split
  · next hx => rw [hx]
  · rfl

theorem wpresent_loadWindow (d : WReg → Desc) (s : State) (w x : WReg) : wpresent (loadWindow d s w) x = (wpresent s x || x == w) :=
  (getLsbD_or_window ..).trans (by rw [toNat_beq_toNat]; rfl)

theorem wdirty_loadWindow (d : WReg → Desc) (s : State) (w x : WReg) :
    (loadWindow d s w).front.csr.wdirty.getLsbD x.toNat = (s.front.csr.wdirty.getLsbD x.toNat && !(x == w)) :=
  wdirty_clearDirty ((s.wrW w (d w)).mapCsr (fun c => { c with wpres := c.wpres ||| (1 : BitVec 32) <<< w.toNat })) w x

/-- The scalar registers, the windows with their present and dirty bits, and the pc are the same. -/
structure SameRegs (s t : State) : Prop where
  regs : t.front.s = s.front.s
  windows : t.front.w = s.front.w
  pc : t.front.pc = s.front.pc
  present : t.front.csr.wpres = s.front.csr.wpres
  dirty : t.front.csr.wdirty = s.front.csr.wdirty

theorem SameRegs.rd {s t : State} (h : SameRegs s t) (r : SReg) : t.rd r = s.rd r := by rw [State.rd, State.rd, h.regs]

theorem SameRegs.rdW {s t : State} (h : SameRegs s t) (w : WReg) : t.rdW w = s.rdW w := by rw [State.rdW, State.rdW, h.windows]

theorem SameRegs.of_front {s t u : State} (h : SameRegs s t) (hu : u.front = t.front) : SameRegs s u :=
  ⟨by rw [hu, h.regs], by rw [hu, h.windows], by rw [hu, h.pc], by rw [hu, h.present], by rw [hu, h.dirty]⟩

/-- Walks and race marks leave them. -/
theorem sameRegs_of_marks {s s1 s2 : State} (hw : Walked s s1) (hm : OnlyTags s1 s2) : SameRegs s s2 := by
  have hf := hw.front
  refine ⟨?_, ?_, ?_, ?_, ?_⟩ <;> rw [hm, ← hf]

theorem decide_mem_filter_maskWins (v : Word) (p : WReg → Bool) (w : WReg) :
    decide (w ∈ (maskWins v.toNat).filter p) = (w != 0 && v.getLsbD w.toNat && p w) := by
  rw [← decide_mem_maskWins, Bool.eq_iff_iff, decide_eq_true_iff, List.mem_filter, Bool.and_eq_true, decide_eq_true_iff]

/-- What the windows that `wsave` names leave once they are stored. -/
theorem clearDirty_after {s u : State} (h : SameRegs s u) (ws : List WReg) :
    let t := ws.foldl clearDirty u
    t.mem = u.mem ∧ (∀ r, t.rd r = s.rd r) ∧ t.front.w = s.front.w ∧ t.front.pc = s.front.pc ∧ t.front.csr.wpres = s.front.csr.wpres ∧
      (∀ w : WReg, t.front.csr.wdirty.getLsbD w.toNat = (s.front.csr.wdirty.getLsbD w.toNat && !decide (w ∈ ws))) := by
  obtain ⟨d, hd⟩ := foldl_clearDirty ws u
  have hbits (w : WReg) := foldl_clears_bits (q := fun t x => t.front.csr.wdirty.getLsbD x.toNat) wdirty_clearDirty ws u w
  rw [h.dirty] at hbits
  refine ⟨?_, fun r => ?_, ?_, ?_, ?_, hbits⟩ <;> rw [hd]
  · rfl
  · exact h.rd r
  · exact h.windows
  · exact h.pc
  · exact h.present

/-- Windows loaded one after another. -/
theorem loadWindow_after {s u : State} (h : SameRegs s u) (d : WReg → Desc) {ws : List WReg} (hn : ws.Nodup) :
    let t := ws.foldl (loadWindow d) u
    t.mem = u.mem ∧ (∀ r, t.rd r = s.rd r) ∧ t.front.pc = s.front.pc ∧ (∀ w, t.rdW w = if w ∈ ws then d w else s.rdW w) ∧
      (∀ w, wpresent t w = (wpresent s w || decide (w ∈ ws))) ∧
      (∀ w : WReg, t.front.csr.wdirty.getLsbD w.toNat = (s.front.csr.wdirty.getLsbD w.toNat && !decide (w ∈ ws))) := by
  have honly := OnlyWindows.foldl (onlyWindows_loadWindow d) ws u
  refine ⟨honly.mem, fun r => (honly.rd r).trans (h.rd r), honly.pc.trans h.pc, fun w => ?_, fun w => ?_, fun w => ?_⟩
  · rw [rdW_foldl (g := fun x _ => d x) (rdW_loadWindow d) hn, h.rdW]
  · rw [foldl_sets_bits (wpresent_loadWindow d), wpresent, wpresent, h.present]
  · rw [← h.dirty]
    exact foldl_clears_bits (q := fun t x => t.front.csr.wdirty.getLsbD x.toNat) (fun t w => wdirty_loadWindow d t w) ws u w

/-- A stamp leaves the front and the pc goes on: memory, registers and windows stay. -/
theorem leave_done (y : State) :
    let t := y.leave.done
    t.mem = y.mem ∧ t.front.w = y.front.w ∧ t.front.csr = y.front.csr ∧ (∀ r, t.rd r = y.rd r) ∧ t.front.pc = y.front.pc + 8 :=
  ⟨rfl, rfl, rfl, fun _ => rfl, rfl⟩

/-- The same after SD is written. -/
theorem wr_leave_done (x : State) (sd : SReg) (v : Word) :
    let t := (x.wr sd v).leave.done
    t.mem = x.mem ∧ t.front.w = x.front.w ∧ t.front.csr = x.front.csr ∧ (∀ r, t.rd r = (x.wr sd v).rd r) ∧ t.front.pc = x.front.pc + 8 := by
  obtain ⟨hmem, hw, hcsr, hrd, hpc⟩ := leave_done (x.wr sd v)
  exact ⟨hmem.trans (wr_mem ..), hw.trans (wr_front_w ..), hcsr.trans (wr_front_csr ..), hrd, hpc.trans (by rw [wr_front_pc])⟩

/-- Settles O42: `wsave` is the stores of the windows and then the loss of their dirty bits, as no store looks at a control register; `wrest`
loads one window after another. SD has a bit for each of them, as they come in their order. -/
theorem windowSaveAndRestore : Obligations.WindowSaveAndRestore := by
  unfold Obligations.WindowSaveAndRestore
  intro sd sa sb s s1 ps hmode hready
  dsimp only
  refine ⟨fun s2 hp hrace hmark => ⟨_, exec_wsave hmode hready hp hrace hmark, ?_⟩, fun s2 hp hfree hmark => ?_⟩
  · have hsame := sameRegs_of_marks (walked_of_exec keepsWalked_areaPages hp) (onlyTags_of_exec (fun _ => keepsOnlyTags_areaMark) hmark)
    rw [foldl_saveWindow, funext hsame.rdW]
    have hnamed (w : WReg) := decide_mem_filter_maskWins (s.rd sb) (wpresent s) w
    have hsorted := (pairwise_maskWins (s.rd sb).toNat).filter (wpresent s)
    generalize (maskWins (s.rd sb).toNat).filter (wpresent s) = ws at hnamed hsorted ⊢
    have hputs := hsame.of_front (foldl_putDesc_front ps s2 (s.rd sa).toNat s.rdW ws)
    obtain ⟨hmem, hrd, hw, hpc, hpres, hdirty⟩ := clearDirty_after hputs ws
    generalize ws.foldl clearDirty _ = x at hmem hrd hw hpc hpres hdirty ⊢
    obtain ⟨hmem', hw', hcsr', hrd', hpc'⟩ := wr_leave_done x sd (winMask ws)
    refine ⟨hmem'.trans hmem, fun w => ?_, fun w => ?_, hw'.trans hw, ?_, fun r hr => ?_, hpc'.trans (congrArg (· + 8) hpc)⟩
    · rw [hrd', Bool.and_assoc, ← hnamed, getLsbD_rd_winMask hsorted]
    · rw [hcsr', ← hnamed, hdirty]
    · rw [hcsr', hpres]
    · rw [hrd', rd_wr_other hr, hrd]
  · have htags := onlyTags_of_exec (fun _ => keepsOnlyTags_areaMark) hmark
    have hsame := sameRegs_of_marks (walked_of_exec keepsWalked_areaPages hp) htags
    have hin (w : WReg) (h : w ∈ maskWins (s.rd sb).toNat) := hfree w ((decide_mem_maskWins (s.rd sb) w).symm.trans (decide_eq_true h))
    refine ⟨_, exec_wrest hmode hready hp (fun w h => (hin w h).1) (fun w h => (hin w h).2) hmark, ?_⟩
    have hnamed (w : WReg) := decide_mem_maskWins (s.rd sb) w
    have hsorted := pairwise_maskWins (s.rd sb).toNat
    obtain ⟨hmem, hrd, hpc, hw, hpres, hdirty⟩ :=
      loadWindow_after hsame (fun w => descAt s2 ps ((s.rd sa).toNat + 16 * w.toNat)) (nodup_maskWins (s.rd sb).toNat)
    generalize maskWins (s.rd sb).toNat = ws at hnamed hsorted hmem hrd hpc hw hpres hdirty ⊢
    generalize ws.foldl (loadWindow _) s2 = x at hmem hrd hpc hw hpres hdirty ⊢
    obtain ⟨hmem', hw', hcsr', hrd', hpc'⟩ := wr_leave_done x sd (winMask ws)
    refine ⟨hmem'.trans (hmem.trans (by rw [htags])), fun w => ?_, fun w => ?_, fun w => ?_, fun w => ?_, fun r hr => ?_,
      hpc'.trans (congrArg (· + 8) hpc)⟩
    · have hiff : w ∈ ws ↔ (w != 0 && (s.rd sb).getLsbD w.toNat) = true := by rw [← hnamed, decide_eq_true_iff]
      rw [State.rdW, hw']
      exact (hw w).trans (if_congr hiff rfl rfl)
    · rw [hrd', ← hnamed, getLsbD_rd_winMask hsorted]
    · rw [wpresent, hcsr', ← hnamed]
      exact hpres w
    · rw [hcsr', ← hnamed, hdirty]
    · rw [hrd', rd_wr_other hr, hrd]

end Sys2Proof.Proofs
end
